-- ==== Sys2Proof/Word.lean ====
section
/-!
DEFINITION. The word types of the part and the sorted maps that hold its register files and memories.
Bits are numbered from 0 at the least significant bit (R3).
-/
namespace Sys2Proof

/-- One byte of memory or of an instruction word. -/
abbrev Byte := BitVec 8

/-- A scalar register, a control word, a status register. -/
abbrev Word := BitVec 32

/-- A register pair, a memory word of eight bytes, a device register. -/
abbrev DWord := BitVec 64

/-- A vector register (R48, R455). -/
abbrev VWord := BitVec 1024

/-- A map kept as a list of (key, value) pairs with strictly rising keys. A key that is not listed
reads as the default the reader names, and no listed value equals that default. -/
abbrev SMap (α : Type) := List (Nat × α)

end Sys2Proof
end

