-- ==== Sys2Proof/Syntax.lean ====
section
/-!
DEFINITION. The syntax: operand types and Instr, one constructor per row of the opcode table.
The first 157 constructors are the words of the Terwyn instruction set (05 and 22 to 26); the others are the
table's device steps, whose arguments say where the step happens and what the outside world supplies to it.
-/
namespace Sys2Proof

/-- The four sequencers of a core, in the order of R49. -/
inductive Sq where
  | ctl | load | store | comp
  deriving DecidableEq, Repr

/-- Element formats, the type codes of R104. -/
inductive Fmt where
  | fp32 | fp16 | bf16 | e4m3 | e5m2 | ts8 | sc8 | i8 | n8 | i16 | n16 | i32 | n32
  deriving DecidableEq, Repr

/-- Rounding modes (R104, R139). -/
inductive Rnd where
  | rne | rtz | rdn | rup | sto
  deriving DecidableEq, Repr

/-- Scopes (R104, R206). -/
inductive Scope where
  | core | cl | die | pkg | dom
  deriving DecidableEq, Repr

/-- Access sizes (R104). -/
inductive Size where
  | b8 | b16 | b32 | b64
  deriving DecidableEq, Repr

/-- Address spaces of a copy word (R123). -/
inductive Space where
  | global | sp | can
  deriving DecidableEq, Repr

/-- The tier hint of a memory word (R107). -/
inductive Tier where
  | any | stacked | offstack
  deriving DecidableEq, Repr

/-- Conditions of CMP and CMPI (R112). -/
inductive Cc where
  | eq | ne | lt | ge | ltn | gen
  deriving DecidableEq, Repr

/-- Operations of AMO and RED (R116). -/
inductive AmoOp where
  | add | and | or | xor | min | max | minn | maxn | swp
  deriving DecidableEq, Repr

/-- Conditions of WAITM (R116). -/
inductive WCond where
  | eq | ne | gen | ltn
  deriving DecidableEq, Repr

/-- Combining operations of BARS (R29, R114). -/
inductive BarOp where
  | or | and | add | min | max
  deriving DecidableEq, Repr

/-- Kinds of TLBI (R198). -/
inductive TlbKind where
  | page | asid | all
  deriving DecidableEq, Repr

/-- Kinds of HINT (R388). -/
inductive HintKind where
  | rd | mig | xl | drop
  deriving DecidableEq, Repr

/-- Status registers that CSRR and CSRW name (R115). -/
inductive Csr where
  | status | cause | epc | tval | legno | detmode | supstep | sticky | lcnt | cycle | cycleh
  | lc (n : BitVec 2)
  deriving DecidableEq, Repr

/-- Patterns of VSHUF (R481). -/
inductive Shuf where
  | zlo | zhi | uev | uod
  deriving DecidableEq, Repr

/-- A layouts of a tile step (R125). -/
inductive ALay where
  | row | z | zs
  deriving DecidableEq, Repr

/-- Structured sparsity of a matrix word (R125). -/
inductive Sparse where
  | dense | n4 | n8
  deriving DecidableEq, Repr

/-- Register kinds of a vector operand field (R120). -/
inductive VKind where
  | v | bl | m | s
  deriving DecidableEq, Repr

/-- A vector operand field of 20 bits (R120). -/
inductive VOp where
  | reg (kind : VKind) (aux : BitVec 12) (n : BitVec 5)
  | stream (st : BitVec 6) (off : BitVec 13)
  deriving DecidableEq, Repr

/-- What a word carries beside its own fields: whether it is an embedded control word of a WS word (R119),
its guard (R106), and the wait and signal fields of a 96-bit or 192-bit word (R64; 0xFF is none). -/
structure Hd where
  wide : Bool
  pneg : Bool
  pred : BitVec 3
  wait : BitVec 8
  sig  : BitVec 8
  deriving DecidableEq, Repr

/-- The fields of a two-word memory instruction (CD, R106, R116). -/
structure MemF where
  reg   : BitVec 5
  base  : BitVec 4
  size  : Size
  scope : Scope
  ord   : Bool
  acq   : Bool
  rel   : Bool
  off   : BitVec 24
  tier  : Tier
  loc   : BitVec 2
  deriving DecidableEq, Repr

/-- The matrix instructions (R127). -/
inductive MxOp where
  | mma | mmas | mmab | mmts | sca | nrm | aclr | acvt | ald | ast | setx
  deriving DecidableEq, Repr

/-- The fields of a matrix word (R125), its wait and signal apart. -/
structure MxF where
  af     : Fmt
  bf     : Fmt
  acc    : BitVec 2
  redun  : Bool
  tstart : Bool
  alay   : ALay
  ovw    : Bool
  xsel   : Bool
  adesc  : BitVec 6
  aoff   : BitVec 13
  bbase  : BitVec 17
  ks     : BitVec 10
  mdesc  : BitVec 6
  sp     : Sparse
  moff   : BitVec 13
  bpb    : BitVec 3
  rnd    : Rnd
  imm    : BitVec 16
  deriving DecidableEq, Repr

/-- A matrix word that rides with a copy word (R70). -/
structure Chained where
  op   : MxOp
  wait : BitVec 8
  sig  : BitVec 8
  f    : MxF
  deriving DecidableEq, Repr

/-- The fields of a copy word (R118, R123), its wait and signal apart. A space that an instruction does not
have is written global, as its bits are then zero. -/
structure CopyF where
  tsp     : Space
  fsp     : Space
  toP     : BitVec 4
  toOff   : BitVec 24
  fromP   : BitVec 4
  fromOff : BitVec 24
  len     : BitVec 5
  b6      : Bool
  acq     : Bool
  rel     : Bool
  scope   : Scope
  chain   : Option Chained
  deriving DecidableEq, Repr

/-- The fields of a vector word (R118), its wait, signal and guard apart. -/
structure VecF where
  ty  : Fmt
  d   : VOp
  a   : VOp
  b   : VOp
  nw  : Bool
  rnd : Rnd
  deriving DecidableEq, Repr

/-- The three command engines of a core (R66). -/
inductive Eng where
  | inb | outb | mx
  deriving DecidableEq, Repr

/-- What the checks at drain of a matrix word find (R281, R283, R285): every tile passes, or they fail on the tile with this
number (0 to 3 the accumulators, 16 to 23 the block partials), once or again during the replay. -/
inductive MxCheck where
  | pass
  | fail (tile : Nat)
  | failTwice (tile : Nat)
  deriving DecidableEq, Repr

/-- What a scrub or a checker finds (R286, R287). -/
inductive Ecc where
  | corrected | uncorrectable
  deriving DecidableEq, Repr

/-- Where a scrub reads: DRAM, the local memory of a context (by the model's name of it), or a memory of a core that holds no
data of a context, the instruction memories of its active plane (a byte offset in the image), or an entry of its TLB, of a stream TLB of it,
or of a hart's TLB. -/
inductive ScrubAt where
  | dram
  | plots (cid : Nat)
  | spare (core : Nat)
  | instr (core off : Nat)
  | tlb (core entry : Nat)
  | streamTlb (core port entry : Nat)
  | hartTlb (hart entry : Nat)
  deriving DecidableEq, Repr

/-- A hart's or an adapter's access to memory (R228, R298): `len` bytes, a write carries its bytes. -/
inductive BusOp where
  | read (len : Nat)
  | write (bytes : List Byte)
  deriving DecidableEq, Repr

/-- How a hart's access is translated (R292): by the root word in its satp, made in user mode or not, with SUM or not, as an
instruction fetch or not; `fence` says that an SFENCE.VMA has dropped the hart's TLB just before (R293). -/
structure HartVia where
  root  : BitVec 64
  user  : Bool
  sum   : Bool
  fetch : Bool
  fence : Bool
  deriving DecidableEq, Repr

/-- The address of a hart's access (R292): a physical one, or a virtual one and how it is translated. -/
inductive HartAddr where
  | phys (pa : Nat)
  | virt (via : HartVia) (va : BitVec 64)
  deriving DecidableEq, Repr

/-- What an adapter sends (R298, R299): a request whose address its port translates; a translation request, for writing or not; a
translated request, whose address is physical; the completion of an invalidation. -/
inductive BusReq where
  | plain (op : BusOp)
  | ask (write : Bool)
  | ready (op : BusOp)
  | invalidated
  deriving DecidableEq, Repr

/-- One slot list of a flit as it arrives (R302): header, 31 payload slots, CRC, and whether the sideband
parity of lanes 0 to 31 and of lanes 32 to 63 passes (R309). -/
structure Flit where
  hdr   : BitVec 32
  slots : List (BitVec 64)
  crc   : BitVec 32
  par0  : Bool
  par1  : Bool
  deriving DecidableEq, Repr

/-- A batch of leg stores from another package as it arrives (R311): source die, clock, stores
(physical address, bytes). -/
structure Batch where
  src    : Nat
  clock  : List (BitVec 32)
  stores : List (Nat × List Byte)
  deriving DecidableEq, Repr

/-- A unit that a persistent fault fences (R288). -/
inductive FenceUnit where
  | core (p : Nat)
  | cluster (k : Nat)
  | matrix (k : Nat)
  deriving DecidableEq, Repr

/-- The words of the Terwyn instruction set and the device steps: one constructor per row of the opcode table.
Device steps name a context by its number in State.ctxs (`cid`), a core by its physical number, a launch by its
identifier, a link end by module or port number and direction. -/
inductive Instr where
  -- outriders, system and synchronisation words of the control sequencer
  | abend (h : Hd)
  | abop (h : Hd) (pair : BitVec 4) (kind : BitVec 6) (scls : BitVec 4) (inv : BitVec 5)
  | aclr (h : Hd) (f : MxF)
  | acvt (h : Hd) (f : MxF)
  | add (h : Hd) (d a b : BitVec 5)
  | addi (h : Hd) (d a : BitVec 5) (imm : BitVec 12)
  | addp (h : Hd) (d a b : BitVec 5)
  | and (h : Hd) (d a b : BitVec 5)
  | andi (h : Hd) (d a : BitVec 5) (imm : BitVec 12)
  | clz (h : Hd) (d a : BitVec 5)
  | ald (h : Hd) (f : MxF)
  | ast (h : Hd) (f : MxF)
  | amo (h : Hd) (m : MemF) (op : AmoOp)
  | amoc (h : Hd) (m : MemF)
  | bars (h : Hd) (comm : Bool) (op : BarOp) (a d : BitVec 5)
  | br (h : Hd) (disp : BitVec 22)
  | bra (h : Hd) (reg : BitVec 5)
  | call (h : Hd) (disp : BitVec 22)
  | canf (h : Hd) (c : CopyF)
  | canr (h : Hd) (c : CopyF)
  | cmp (h : Hd) (p : BitVec 3) (cc : Cc) (a b : BitVec 5)
  | cmpi (h : Hd) (p : BitVec 3) (cc : Cc) (a : BitVec 5) (imm : BitVec 11)
  | cpy (h : Hd) (c : CopyF)
  | cset (h : Hd) (c : BitVec 4) (value : Bool)
  | cwait (h : Hd) (c : BitVec 4) (value : Bool)
  | csrr (h : Hd) (d : BitVec 5) (csr : Csr)
  | csrw (h : Hd) (a : BitVec 5) (csr : Csr)
  | ctbl (h : Hd) (pair : BitVec 4)
  | ctxl (h : Hd) (pair : BitVec 4) (bank : BitVec 2)
  | ctxs (h : Hd) (pair : BitVec 4) (bank : BitVec 2)
  | dbrk (h : Hd)
  | div (h : Hd) (d a b : BitVec 5)
  | divn (h : Hd) (d a b : BitVec 5)
  | drain (h : Hd)
  | dup (h : Hd) (c : CopyF)
  | eret (h : Hd)
  | fence (h : Hd) (scope : Scope)
  | fork (h : Hd)
  | join (h : Hd)
  | gthr (h : Hd) (c : CopyF) (dup : Bool)
  | halt (h : Hd)
  | hint (h : Hd) (pair : BitVec 4) (kind : HintKind)
  | jmp (h : Hd) (disp : BitVec 26)
  | lbrd (h : Hd) (count : BitVec 5) (len : BitVec 8) (mask : BitVec 3) (skl sks skc : BitVec 6)
  | ld (h : Hd) (m : MemF) (sx : Bool)
  | ldp (h : Hd) (m : MemF)
  | lege (h : Hd)
  | lexit (h : Hd) (lc : BitVec 2) (cancel : Bool)
  | lnch (h : Hd) (pair : BitVec 4)
  | loop (h : Hd) (lc : BitVec 2) (count : BitVec 5) (dist : BitVec 15)
  | lstat (h : Hd) (d : BitVec 5) (pair : BitVec 4)
  | madp (h : Hd) (d a b : BitVec 5)
  | mark (h : Hd) (mask : BitVec 4)
  | max (h : Hd) (d a b : BitVec 5)
  | maxn (h : Hd) (d a b : BitVec 5)
  | min (h : Hd) (d a b : BitVec 5)
  | minn (h : Hd) (d a b : BitVec 5)
  | migr (h : Hd) (c : CopyF)
  | mma (h : Hd) (f : MxF)
  | mmab (h : Hd) (f : MxF)
  | mmas (h : Hd) (f : MxF)
  | mmts (h : Hd) (f : MxF)
  | mod (h : Hd) (d a b : BitVec 5)
  | modn (h : Hd) (d a b : BitVec 5)
  | mov (h : Hd) (d a : BitVec 5)
  | movh (h : Hd) (d : BitVec 5) (imm : BitVec 16)
  | movi (h : Hd) (d : BitVec 5) (imm : BitVec 16)
  | mul (h : Hd) (d a b : BitVec 5)
  | mulh (h : Hd) (d a b : BitVec 5)
  | mulhn (h : Hd) (d a b : BitVec 5)
  | nop (h : Hd)
  | not (h : Hd) (d a : BitVec 5)
  | nrm (h : Hd) (f : MxF)
  | oabt (h : Hd)
  | ocmt (h : Hd)
  | or (h : Hd) (d a b : BitVec 5)
  | ori (h : Hd) (d a : BitVec 5) (imm : BitVec 12)
  | otsk (h : Hd) (pair : BitVec 4)
  | plld (h : Hd) (pair : BitVec 4)
  | plsw (h : Hd)
  | popc (h : Hd) (d a : BitVec 5)
  | red (h : Hd) (m : MemF) (op : AmoOp)
  | redf (h : Hd) (m : MemF) (shape : Bool) (ty : Fmt)
  | redo (h : Hd) (m : MemF) (ty : Fmt)
  | ret (h : Hd)
  | rngb (h : Hd) (x : VecF)
  | rqnt (h : Hd) (c : CopyF)
  | sca (h : Hd) (f : MxF)
  | sctr (h : Hd) (c : CopyF) (dup : Bool)
  | sel (h : Hd) (d a b : BitVec 5) (psel : BitVec 3)
  | semi (h : Hd) (sem : BitVec 8) (reg : BitVec 5)
  | semr (h : Hd) (d : BitVec 5) (sem : BitVec 8)
  | setx (h : Hd) (f : MxF)
  | shl (h : Hd) (d a b : BitVec 5)
  | shli (h : Hd) (d a : BitVec 5) (imm : BitVec 5)
  | shr (h : Hd) (d a b : BitVec 5)
  | shri (h : Hd) (d a : BitVec 5) (imm : BitVec 5)
  | sra (h : Hd) (d a b : BitVec 5)
  | srai (h : Hd) (d a : BitVec 5) (imm : BitVec 5)
  | sig (h : Hd) (sem : BitVec 8) (rsrc : Bool) (amount : BitVec 13)
  | spf (h : Hd) (c : CopyF)
  | sstr (h : Hd) (c : CopyF)
  | st (h : Hd) (m : MemF)
  | stp (h : Hd) (m : MemF)
  | sub (h : Hd) (d a b : BitVec 5)
  | subi (h : Hd) (d a : BitVec 5) (imm : BitVec 12)
  | subp (h : Hd) (d a b : BitVec 5)
  | tlbi (h : Hd) (pair : BitVec 4) (kind : TlbKind)
  | trap (h : Hd) (code : BitVec 12)
  | vabs (h : Hd) (x : VecF)
  | vneg (h : Hd) (x : VecF)
  | vadd (h : Hd) (x : VecF)
  | vsub (h : Hd) (x : VecF)
  | vmul (h : Hd) (x : VecF)
  | vmin (h : Hd) (x : VecF)
  | vmax (h : Hd) (x : VecF)
  | vand (h : Hd) (x : VecF)
  | vor (h : Hd) (x : VecF)
  | vxor (h : Hd) (x : VecF)
  | vnot (h : Hd) (x : VecF)
  | vbcst (h : Hd) (x : VecF)
  | vchk (h : Hd) (x : VecF)
  | vclmp (h : Hd) (x : VecF)
  | vcmp (h : Hd) (x : VecF)
  | vcnt (h : Hd) (x : VecF)
  | vcvt (h : Hd) (x : VecF)
  | vdqn (h : Hd) (x : VecF)
  | vqnt (h : Hd) (x : VecF)
  | vexp2 (h : Hd) (x : VecF)
  | vlog2 (h : Hd) (x : VecF)
  | vrcp (h : Hd) (x : VecF)
  | vrsq (h : Hd) (x : VecF)
  | vfma (h : Hd) (x : VecF)
  | vfms (h : Hd) (x : VecF)
  | vgth (h : Hd) (x : VecF)
  | vsct (h : Hd) (x : VecF)
  | vidx (h : Hd) (x : VecF)
  | vmov (h : Hd) (x : VecF)
  | vmsk (h : Hd) (x : VecF)
  | vperm (h : Hd) (x : VecF)
  | vshuf (h : Hd) (x : VecF) (pat : Shuf)
  | vsld (h : Hd) (x : VecF)
  | vrmx (h : Hd) (x : VecF)
  | vsum (h : Hd) (x : VecF)
  | vscl (h : Hd) (x : VecF)
  | vsel (h : Hd) (x : VecF)
  | vshl (h : Hd) (x : VecF)
  | vshr (h : Hd) (x : VecF)
  | vsra (h : Hd) (x : VecF)
  | wait (h : Hd) (sem : BitVec 8) (rsrc : Bool) (amount : BitVec 13)
  | waitm (h : Hd) (m : MemF) (cond : WCond)
  | wcha (h : Hd) (pair : BitVec 4) (len : BitVec 5)
  | wchd (h : Hd) (pair : BitVec 4) (len : BitVec 5)
  | xfer (h : Hd) (c : CopyF)
  | xor (h : Hd) (d a b : BitVec 5)
  | xori (h : Hd) (d a : BitVec 5) (imm : BitVec 12)
  | zfil (h : Hd) (c : CopyF)
  -- device steps inside a core
  | resultLand (cid : Nat)
  | engineCommandStart (cid : Nat) (e : Eng)
  | copyUnit (cid : Nat) (e : Eng)
  | commandSignal (cid : Nat) (e : Eng)
  | matrixWordRetire (cid : Nat) (check : MxCheck)
  | legCountEnd (cid : Nat)
  -- the innkeeper, companies and launches
  | legPin
  | legCommit (cid : Nat)
  | barrierComplete (lid : BitVec 48)
  | memberRetire (cid : Nat)
  | launchComplete (lid : BitVec 48)
  | completionRecordWrite (queue : Nat)
  | qcbaEnable (slot : Nat) (value : BitVec 64)
  | qcbaDisable (slot : Nat) (value : BitVec 64)
  | qdoorWrite (slot : Nat)
  | launchIntake (slot : Nat)
  | rendezvousDepTest (lid : BitVec 48) (k : Nat)
  | launchPlace (lid : BitVec 48) (cores : List Nat)
  | launchAgeing (lid : BitVec 48)
  | launchReserve (lid : BitVec 48)
  -- contexts, traps and the harts' answers
  | preempt (lid : BitVec 48) (forLid : BitVec 48)
  | contextSwitch (core : Nat) (cid : Nat)
  | contextStreamOut (cid : Nat) (slot : Nat)
  | contextStreamIn (cid : Nat) (bank : Nat) (checkOk : Bool)
  | planeFillComplete (core : Nat)
  | faultRecordSend (cid : Nat)
  | handlerStart (cid : Nat)
  | frespResume (core : Nat)
  | frespAbort (core : Nat)
  | eventRingWrite
  | shgoPage
  | shgoAsid
  | shgoAll
  | shootdownComplete
  | hstartGo (hart : Nat) (value : BitVec 64)
  | hstartHold (hart : Nat)
  | stopgoResume (core : Nat)
  | stopgoImage (core : Nat)
  | cycleMatchStop (core : Nat)
  | pcapWrite (value : BitVec 64)
  | icapWrite (island : Nat) (value : BitVec 64)
  | cspillWrite (value : BitVec 64)
  | msiaWrite (value : BitVec 64)
  | evbaseWrite (value : BitVec 64)
  | registerWrite (pa : Nat) (value : BitVec 64)
  -- links
  | flitTransmit (link : Nat) (up : Bool)
  | flitReceive (link : Nat) (up : Bool) (f : Flit)
  | nakTimer (link : Nat) (up : Bool)
  | idleTimer (link : Nat) (up : Bool)
  | replayTimeout (link : Nat) (up : Bool)
  | linkRetrain (link : Nat)
  | retrainComplete (link : Nat)
  | moduleDisable (link : Nat)
  | linkFailReroute (link other : Nat)
  | clockMessageSend (die : Nat) (count : BitVec 32)
  | batchApply (die : Nat) (b : Batch)
  -- memory side, tasks and reliability
  | reductionApply (k : Nat)
  | promotionComplete (k : Nat)
  | migrationMove (root : BitVec 64) (va : Nat) (tier : Tier)
  | taskStart (lid : BitVec 48) (core : Nat)
  | taskAbort (cid : Nat)
  | taskCommit (lid : BitVec 48)
  | patrolScrub (place : ScrubAt) (space : Space) (addr : Nat) (found : Ecc)
  | busRepair (die lane : Nat)
  | coreFence (u : FenceUnit) (persistent : Bool) (moves : List (Nat × Nat))
  | dieDrop (die : Nat)
  | adapterRequest (port : Nat) (rid : BitVec 16) (addr : BitVec 64) (req : BusReq)
  | aerEvent (port : Nat)
  | hartMemoryAccess (hart : Nat) (place : HartAddr) (op : BusOp)
  | resetRelease
  | illegalEncoding (tval : BitVec 32)
  | islandFrequencyChange (island : Nat) (mhz : BitVec 11) (watts : BitVec 12)
  deriving DecidableEq, Repr

end Sys2Proof
end

