-- ==== Sys2Proof/WellFormed.lean ====
section
/-!
DEFINITION. Which instructions are instructions of the set at a place (R132): `Instr.wf q idx i` says that sequencer
`q` accepts `i` at index `idx` of its instruction memory. Device steps are no words, so none is well formed.
The fields' code ranges (R104) hold by the types of Syntax; reserved fields (R5) are fixed here.
-/
namespace Sys2Proof

/-- Words or slots of a sequencer's instruction memory (R80, R108). -/
def Sq.limit : Sq → Nat
  | .ctl => 16384
  | .load => 8192
  | .store => 8192
  | .comp => 16384

/-- A copy or matrix or vector header: no guard of its own beside a vector word's (R118). -/
def Hd.none : Hd := { wide := true, pneg := false, pred := 0, wait := 0xFF, sig := 0xFF }

/-- The guard is p0, not negated. -/
def Hd.plain (h : Hd) : Bool := !h.pneg && h.pred == 0

/-- A 32-bit control word has no wait and no signal of its own (R106). -/
def Hd.narrow (h : Hd) : Bool := !h.wide && h.wait == 0xFF && h.sig == 0xFF

/-- A word that only the control sequencer accepts (R100, R119). -/
def Hd.ctlOnly (h : Hd) (q : Sq) : Bool := q == .ctl && h.narrow

/-- A word of any sequencer whose guard is reserved when it is embedded (R119). -/
def Hd.any (h : Hd) (q : Sq) : Bool :=
  match q with
  | .ctl => h.narrow
  | _ => h.wide && h.plain

/-- A word of any sequencer whose guard is honoured when it is embedded: BR, BRA, CALL, RET (R119). -/
def Hd.guarded (h : Hd) (q : Sq) : Bool :=
  match q with
  | .ctl => h.narrow
  | _ => h.wide

/-- A copy word's header (R118). -/
def Hd.copy (h : Hd) (q : Sq) : Bool := (q == .load || q == .store) && h.wide && h.plain

/-- A matrix word's header (R125). -/
def Hd.matrix (h : Hd) (q : Sq) : Bool := q == .comp && h.wide && h.plain

/-- A vector word's header (R118). -/
def Hd.vector (h : Hd) (q : Sq) : Bool := q == .comp && h.wide

/-- A target index lies in the instruction memory (R108). -/
def Sq.inMem (q : Sq) (t : Int) : Bool := decide (0 ≤ t) && decide (t < (q.limit : Int))

/-- An even register number. -/
def evenReg (r : BitVec 5) : Bool := r.toNat % 2 == 0

/-- Lane and element width of a format in bits (R134, R136, R137). -/
def Fmt.bits : Fmt → Nat
  | .fp32 | .i32 | .n32 => 32
  | .fp16 | .bf16 | .i16 | .n16 => 16
  | .e4m3 | .e5m2 | .ts8 | .sc8 | .i8 | .n8 => 8

/-- The group F of R461. -/
def Fmt.isF : Fmt → Bool
  | .fp32 | .fp16 | .bf16 => true
  | _ => false

/-- The group I of R461. -/
def Fmt.isI : Fmt → Bool
  | .i8 | .n8 | .i16 | .n16 | .i32 | .n32 => true
  | _ => false

/-- Width of an access size in bits (R104). -/
def Size.bits : Size → Nat
  | .b8 => 8
  | .b16 => 16
  | .b32 => 32
  | .b64 => 64

/-- The size that equals a float type's width (R116). -/
def Size.fits (s : Size) (ty : Fmt) : Bool := ty.isF && s.bits == ty.bits

/-- The rules of the CD format that hold for every memory word: loc (R116) and scope (R105). -/
def MemF.base_ok (m : MemF) : Bool :=
  m.loc != 3 && (m.acq || m.rel || m.scope == .core)

/-- Sizes 32 and 64, the latter with an even register (R116). -/
def MemF.wordPair (m : MemF) : Bool := m.size == .b32 || (m.size == .b64 && evenReg m.reg)

/-- A copy word's scope is reserved without acq and rel (R105). -/
def CopyF.scope_ok (c : CopyF) : Bool := c.acq || c.rel || c.scope == .core

/-- The K-steps of a tile step read inside the canopy banks (R130). -/
def MxF.bank_ok (f : MxF) (perStep : Nat) : Bool :=
  f.bbase.extractLsb' 0 8 == 0 && decide (1 ≤ f.ks.toNat) && decide (f.ks.toNat ≤ 512) &&
    decide (f.bbase.toNat + f.ks.toNat * perStep ≤ 131072)

/-- The format pairs of R129 without ts8. -/
def pairOk (a b : Fmt) : Bool :=
  match a, b with
  | .bf16, .bf16 | .bf16, .fp16 | .fp16, .bf16 | .fp16, .fp16 => true
  | .e4m3, .e4m3 | .e4m3, .e5m2 | .e5m2, .e4m3 | .e5m2, .e5m2 => true
  | .i8, .i8 | .i8, .n8 | .n8, .i8 | .n8, .n8 => true
  | _, _ => false

/-- XSEL, IMM16 and RND are reserved (R127, R128). -/
def MxF.noX (f : MxF) : Bool := !f.xsel && f.imm == 0 && f.rnd == .rne

/-- The second stream is reserved (R127). -/
def MxF.noMeta (f : MxF) : Bool := f.mdesc == 0 && f.moff == 0

/-- The A stream is reserved (R127). -/
def MxF.noA (f : MxF) : Bool := f.adesc == 0 && f.aoff == 0

/-- BBASE and KS are reserved (R127). -/
def MxF.noB (f : MxF) : Bool := f.bbase == 0 && f.ks == 0

/-- AF, BF, REDUN, TSTART, ALAY, OVW, BBASE, KS, SP, the second stream and BPB are reserved (R127). -/
def MxF.bare (f : MxF) : Bool :=
  f.bf == .fp32 && !f.redun && !f.tstart && f.alay == .row && !f.ovw && f.noB &&
    f.sp == .dense && f.noMeta && f.bpb == 0

/-- The field rules of a matrix word (R127 to R130, R351, R410, R436, R442). -/
def MxOp.wf (op : MxOp) (f : MxF) : Bool :=
  match op with
  | .mma => pairOk f.af f.bf && f.sp == .dense && f.noMeta && f.bpb == 0 && f.noX && f.bank_ok 256
  | .mmas => pairOk f.af f.bf && f.sp != .dense && f.bpb == 0 && f.noX && f.alay == .row && f.bank_ok 512
  | .mmab => pairOk f.af f.bf && f.acc == 0 && f.sp == .dense && f.noMeta && f.noX && f.bank_ok 256
  | .mmts => (f.af == .i8 || f.af == .n8 || f.af == .e4m3 || f.af == .e5m2) && f.bf == .ts8 &&
      f.sp == .dense && f.noMeta && f.bpb == 0 && f.noX && f.bank_ok 256
  | .sca => pairOk f.af f.bf && f.alay == .row && f.noX && f.bbase == 0 && f.sp == .dense &&
      decide (1 ≤ f.ks.toNat) && decide (f.ks.toNat ≤ 8)
  | .nrm => f.bare && f.noX && f.af == .fp32 && f.noA
  | .aclr => f.bare && f.af == .fp32 && f.noA && !f.xsel && f.rnd == .rne
  | .acvt => f.bare && f.af.isF && f.rnd != .sto &&
      (if f.xsel then f.noA && decide (f.imm.toNat < 32) && !(f.af == .fp32 && f.imm == 31) else f.imm == 0)
  | .ald => f.bare && f.noX && f.af == .fp32
  | .ast => f.bare && f.noX && f.af == .fp32
  | .setx => f.bare && f.af == .fp32 && f.rnd == .rne && (if f.xsel then f.noA else f.imm == 0)

/-- A matrix word that may ride with a copy word (R131). -/
def MxOp.chains : MxOp → Bool
  | .mma | .mmas | .mmab | .mmts | .sca => true
  | _ => false

/-- The chained word of a copy word: the load stream only (R100), a tile step or SCA (R131). -/
def CopyF.chain_ok (c : CopyF) (q : Sq) : Bool :=
  match c.chain with
  | none => true
  | some m => q == .load && m.op.chains && m.op.wf m.f

/-- No chained word (R123). -/
def CopyF.alone (c : CopyF) : Bool := c.chain.isNone

/-- The to space and the to pair are reserved (R123). -/
def CopyF.noTo (c : CopyF) : Bool := c.tsp == .global && c.toP == 0

/-- Scratchpad or canopy (R123). -/
def Space.isLocal : Space → Bool
  | .global => false
  | _ => true

/-- An unused operand field is all zeros (R121). -/
def VOp.unused : VOp := .reg .v 0 0

/-- D of kind v, or a stream. -/
def VOp.dst : VOp → Bool
  | .reg .v aux _ => aux == 0
  | .stream _ _ => true
  | _ => false

/-- D of kind v. -/
def VOp.dstV : VOp → Bool
  | .reg .v aux _ => aux == 0
  | _ => false

/-- The group src of R461. -/
def VOp.src : VOp → Bool
  | .reg .v aux _ => aux == 0
  | .reg .bl aux n => aux == 0 && decide (n.toNat < 8)
  | .reg .s aux _ => aux == 0
  | .reg .m _ _ => false
  | .stream _ _ => true

/-- v, bl or stream, without AUX. -/
def VOp.srcVec : VOp → Bool
  | .reg .v aux _ => aux == 0
  | .reg .bl aux n => aux == 0 && decide (n.toNat < 8)
  | .stream _ _ => true
  | _ => false

/-- v or bl, with any AUX. -/
def VOp.regVec : VOp → Bool
  | .reg .v _ _ => true
  | .reg .bl _ n => decide (n.toNat < 8)
  | _ => false

/-- A mask register with any AUX. -/
def VOp.mask : VOp → Bool
  | .reg .m _ n => decide (n.toNat < 8)
  | _ => false

/-- A scalar register with any AUX. -/
def VOp.scalar : VOp → Bool
  | .reg .s _ _ => true
  | _ => false

/-- A stream. -/
def VOp.isStream : VOp → Bool
  | .stream _ _ => true
  | _ => false

/-- The AUX bits of a register form; a stream has none. -/
def VOp.aux : VOp → BitVec 12
  | .reg _ a _ => a
  | .stream _ _ => 0

/-- The number of a register form. -/
def VOp.num : VOp → BitVec 5
  | .reg _ _ n => n
  | .stream _ _ => 0

/-- The rounding of an instruction that R461 marks F: float types only, and never sto (R122, R460). -/
def VecF.rndF (x : VecF) : Bool := x.rnd == .rne || (x.ty.isF && x.rnd != .sto)

/-- The B operand of VCVT, VQNT and VSCL: the random source under sto, else all zeros (R461, R470). A scalar register is no random
source (log 98). -/
def VecF.random (x : VecF) (lanes : Nat) : Bool :=
  if x.rnd == .sto then
    x.b.srcVec && (lanes != 128 || (match x.b with
      | .reg .v _ n => n != 31
      | .reg _ _ _ => false
      | .stream _ _ => true))
  else x.b == .unused

/-- Format of a type code (R104). -/
def Fmt.ofCode (c : BitVec 4) : Option Fmt :=
  match c.toNat with
  | 0 => some .fp32 | 1 => some .fp16 | 2 => some .bf16 | 3 => some .e4m3 | 4 => some .e5m2
  | 5 => some .ts8 | 6 => some .sc8 | 7 => some .i8 | 8 => some .n8 | 9 => some .i16
  | 10 => some .n16 | 11 => some .i32 | 12 => some .n32 | _ => none

/-- stype, held in A's AUX [11:8] (VCVT, VQNT, VDQN). -/
def VecF.stype (x : VecF) : Option Fmt := Fmt.ofCode (x.a.aux.extractLsb' 8 4)

/-- Two sources and a D of kind v or stream, no rounding of its own. -/
def VecF.two (x : VecF) : Bool := x.d.dst && x.a.src && x.b.src && x.rnd == .rne

/-- One source and a D of kind v or stream, no rounding of its own. -/
def VecF.one (x : VecF) : Bool := x.d.dst && x.a.src && x.b == .unused && x.rnd == .rne

/-- The arithmetic words of two sources whose rounding R461 marks F. -/
def VecF.arith (x : VecF) : Bool :=
  (x.ty.isF || x.ty.isI) && x.d.dst && x.a.src && x.b.src && x.rndF

/-- VCVT (R461, R470). With an integer type rnd is 0 (R460; log 55). -/
def VecF.cvt (x : VecF) : Bool :=
  x.ty != .ts8 && x.ty != .sc8 && (!x.ty.isI || x.rnd == .rne) && x.d.dst && x.a.regVec && x.a.aux.extractLsb' 0 8 == 0 &&
    (match x.stype with
     | some st => x.random (1024 / max st.bits x.ty.bits)
     | none => false)

/-- VDQN (R461, R472). -/
def VecF.dqn (x : VecF) : Bool :=
  x.ty.isF && x.d.dst && x.a.regVec && x.a.aux.extractLsb' 5 3 == 0 && x.b == .unused && x.rnd != .sto &&
    (x.stype == some .e4m3 || x.stype == some .e5m2 || x.stype == some .i8 || x.stype == some .n8)

/-- VQNT (R461, R473). With an integer type rnd is 0 (R460; log 55). -/
def VecF.qnt (x : VecF) : Bool :=
  (x.ty == .e4m3 || x.ty == .e5m2 || x.ty == .i8) && (!x.ty.isI || x.rnd == .rne) && x.d.dst && x.a.regVec &&
    x.a.aux.extractLsb' 5 3 == 0 &&
    (match x.stype with
     | some st => st.isF && x.random (1024 / st.bits)
     | none => false)

/-- VBCST (R465). -/
def VecF.bcst (x : VecF) : Bool :=
  x.d.dst && x.b == .unused && x.rnd == .rne &&
    (match x.a with
     | .reg .s aux _ => aux == 0
     | .reg .v aux _ => decide (aux.toNat < 1024 / x.ty.bits)
     | .reg .bl aux n => decide (aux.toNat < 1024 / x.ty.bits) && decide (n.toNat < 8)
     | .reg .m _ _ => false
     | .stream _ _ => true)

/-- VMOV: the vector form and the mask form (R479). -/
def VecF.movOk (x : VecF) : Bool :=
  x.b == .unused && x.rnd == .rne &&
    ((x.d.dst && x.a.src) ||
      (x.d.mask && x.d.aux == 0 && x.a.mask && x.a.aux == 0 && x.ty == .fp32))

/-- VMSK (R480). -/
def VecF.mskOk (x : VecF) : Bool :=
  x.ty == .fp32 && x.rnd == .rne && x.d.mask &&
    (match x.d.aux.toNat with
     | 0 | 1 | 2 | 3 => x.a.mask && x.a.aux == 0 && x.b.mask && x.b.aux == 0
     | 4 => x.a.mask && x.a.aux == 0 && x.b == .unused
     | 5 | 6 => x.a == .unused && x.b == .unused
     | _ => false)

/-- RNGB (24, RNGB): even scalar pairs, AUX of A is the stream number. -/
def VecF.rng (x : VecF) : Bool :=
  x.ty.isI && x.d.dst && x.rnd == .rne && x.a.scalar && evenReg x.a.num && x.b.scalar && evenReg x.b.num &&
    x.b.aux == 0

/-- Words or slots of an instruction (R101). -/
def Instr.len : Instr → Nat
  | .lbrd .. | .ld .. | .st .. | .ldp .. | .stp .. | .amo .. | .amoc .. | .red .. | .redf .. | .redo ..
  | .waitm .. => 2
  | .mma .. | .mmas .. | .mmab .. | .mmts .. | .sca .. | .nrm .. | .aclr .. | .acvt .. | .ald .. | .ast ..
  | .setx .. => 2
  | .cpy _ c | .dup _ c | .gthr _ c _ => if c.chain.isSome then 3 else 1
  | _ => 1

/-- The instruction fits in the memory from its first index on (R108). -/
def Instr.fits (q : Sq) (idx : Nat) (i : Instr) : Bool := decide (idx + i.len ≤ q.limit)

/-- Well-formedness of an instruction at an index of a sequencer's instruction memory (R132). -/
def Instr.wf (q : Sq) (idx : Nat) (i : Instr) : Bool := i.fits q idx &&
  match i with
  | .abend h | .drain h | .lege h | .oabt h | .ocmt h | .eret h => h.ctlOnly q
  | .fork h | .plsw h => h.ctlOnly q && h.plain
  | .join h => h.any q && h.plain
  | .nop h | .halt h | .dbrk h => h.any q
  | .abop h _ _ _ inv => h.ctlOnly q && decide (inv.toNat ≤ 28)
  | .add h .. | .and h .. | .div h .. | .divn h .. | .max h .. | .maxn h .. | .min h .. | .minn h ..
  | .mod h .. | .modn h .. | .mul h .. | .mulh h .. | .mulhn h .. | .or h .. | .shl h .. | .shr h ..
  | .sra h .. | .sub h .. | .xor h .. => h.any q
  | .addi h .. | .andi h .. | .ori h .. | .subi h .. | .xori h .. | .shli h .. | .shri h .. | .srai h .. => h.any q
  | .clz h .. | .mov h .. | .not h .. | .popc h .. | .movh h .. | .movi h .. | .sel h .. => h.any q
  | .cmp h .. | .cmpi h .. => h.any q
  | .addp h d a _ | .subp h d a _ => h.any q && evenReg d && evenReg a
  | .madp h d _ _ => h.any q && evenReg d
  | .br h disp | .call h disp => h.guarded q && q.inMem (idx + disp.toInt)
  | .bra h _ | .ret h => h.guarded q
  | .jmp h disp => h.any q && h.plain && q.inMem (idx + disp.toInt)
  | .loop h _ _ dist => h.any q && dist != 0 && q.inMem (idx + dist.toNat)
  | .lexit h .. => h.any q
  | .lbrd h _ _ mask skl sks skc => h.ctlOnly q && mask != 0 && (mask.getLsbD 0 || skl == 0) &&
      (mask.getLsbD 1 || sks == 0) && (mask.getLsbD 2 || skc == 0)
  | .ld h m _ => h.ctlOnly q && m.base_ok && m.size != .b64 && !m.ord && !m.rel
  | .st h m => h.ctlOnly q && m.base_ok && m.size != .b64 && !m.acq && !m.rel
  | .ldp h m => h.ctlOnly q && m.base_ok && m.size == .b64 && evenReg m.reg && !m.ord && !m.rel
  | .stp h m => h.ctlOnly q && m.base_ok && m.size == .b64 && evenReg m.reg && !m.acq && !m.rel
  | .amo h m _ => h.ctlOnly q && m.base_ok && m.wordPair && !m.ord
  | .amoc h m => h.ctlOnly q && m.base_ok && !m.ord &&
      ((m.size == .b32 && m.reg != 31) || (m.size == .b64 && m.reg.toNat % 4 == 0))
  | .red h m op => h.ctlOnly q && m.base_ok && m.wordPair && !m.ord && !m.acq && op != .swp
  | .redf h m shape ty => h.ctlOnly q && m.base_ok && !m.ord && !m.acq &&
      (if shape then m.size == .b64 && ty == .fp32 && evenReg m.reg else m.size.fits ty)
  | .redo h m ty => h.ctlOnly q && m.base_ok && !m.ord && !m.acq && m.size.fits ty
  | .waitm h m _ => h.ctlOnly q && m.base_ok && m.wordPair && !m.ord && !m.rel
  | .bars h .. | .ctbl h .. | .fence h .. | .hint h .. | .lnch h .. | .lstat h .. | .mark h .. | .otsk h ..
  | .plld h .. | .semi h .. | .semr h .. | .tlbi h .. | .trap h .. | .wcha h .. | .wchd h .. => h.ctlOnly q
  | .csrr h .. | .csrw h .. => h.any q
  | .ctxl h _ bank | .ctxs h _ bank => h.ctlOnly q && bank != 3
  | .cset h c _ => h.any q && decide (c.toNat < 12)
  | .cwait h _ _ => h.any q
  | .sig h _ rsrc amount | .wait h _ rsrc amount => h.any q && (!rsrc || amount.extractLsb' 5 8 == 0)
  | .cpy h c | .dup h c => h.copy q && c.scope_ok && c.chain_ok q
  | .gthr h c _ => h.copy q && c.scope_ok && c.chain_ok q && c.tsp.isLocal && c.fsp == .global && evenReg c.len
  | .sctr h c _ => h.copy q && c.scope_ok && c.alone && c.fsp.isLocal && c.tsp == .global && evenReg c.len
  | .xfer h c => h.copy q && c.scope_ok && c.alone && c.tsp == .sp && c.fsp == .sp && evenReg c.len && !c.b6
  | .canf h c => h.copy q && c.scope_ok && c.alone && c.tsp == .can && c.fsp != .can
  | .canr h c => h.copy q && c.scope_ok && c.alone && c.fsp == .can && c.tsp != .can
  | .zfil h c => h.copy q && c.scope_ok && c.alone && c.fsp == .global && c.fromP == 0 && c.fromOff == 0 && !c.b6
  | .sstr h c => h.copy q && c.scope_ok && c.alone && c.noTo && decide (c.toOff.toNat < 64) && c.fsp != .can &&
      c.len == 0 && !c.b6
  | .spf h c => h.copy q && c.alone && c.noTo && c.toOff == 0 && c.fsp == .global && !c.b6 && !c.acq && !c.rel &&
      c.scope == .core
  | .migr h c => h.copy q && c.scope_ok && c.alone && c.noTo && (c.toOff == 1 || c.toOff == 2) &&
      c.fsp == .global && !c.b6
  | .rqnt h c => h.copy q && c.scope_ok && c.alone && c.tsp == .global && c.fsp == .global && c.len == 0 && !c.b6
  | .mma h f => h.matrix q && MxOp.mma.wf f
  | .mmas h f => h.matrix q && MxOp.mmas.wf f
  | .mmab h f => h.matrix q && MxOp.mmab.wf f
  | .mmts h f => h.matrix q && MxOp.mmts.wf f
  | .sca h f => h.matrix q && MxOp.sca.wf f
  | .nrm h f => h.matrix q && MxOp.nrm.wf f
  | .aclr h f => h.matrix q && MxOp.aclr.wf f
  | .acvt h f => h.matrix q && MxOp.acvt.wf f
  | .ald h f => h.matrix q && MxOp.ald.wf f
  | .ast h f => h.matrix q && MxOp.ast.wf f
  | .setx h f => h.matrix q && MxOp.setx.wf f
  | .vadd h x | .vsub h x | .vmul h x | .vfma h x | .vfms h x => h.vector q && x.arith
  | .vmin h x | .vmax h x | .vclmp h x => h.vector q && (x.ty.isF || x.ty.isI) && x.two
  | .vabs h x | .vneg h x => h.vector q && (x.ty.isF || x.ty.isI) && x.one
  | .vcmp h x => h.vector q && (x.ty.isF || x.ty.isI) && x.d.mask && decide (x.d.aux.toNat < 7) && x.a.src &&
      x.b.src && x.rnd == .rne
  | .vsel h x | .vand h x | .vor h x | .vxor h x => h.vector q && x.two
  | .vnot h x => h.vector q && x.one
  | .vshl h x | .vshr h x | .vsra h x => h.vector q && x.ty.isI && x.two
  | .vcvt h x => h.vector q && x.cvt
  | .vdqn h x => h.vector q && x.dqn
  | .vqnt h x => h.vector q && x.qnt
  | .vexp2 h x | .vlog2 h x | .vrcp h x | .vrsq h x => h.vector q && x.ty.isF && x.one
  | .vsum h x => h.vector q && (x.ty.isF || x.ty.isI) && x.d.dstV && x.a.src && x.b == .unused && x.rndF
  | .vrmx h x => h.vector q && (x.ty.isF || x.ty.isI) && x.d.dstV && x.a.src && x.b == .unused && x.rnd == .rne
  | .vperm h x => h.vector q && x.d.dst && x.a.srcVec && x.b.srcVec && x.rnd == .rne
  | .vshuf h x _ => h.vector q && x.two
  | .vsld h x => h.vector q && x.d.dst && x.a.srcVec && x.b.scalar && x.b.aux == 0 && x.rnd == .rne
  | .vbcst h x => h.vector q && x.bcst
  | .vmov h x => h.vector q && x.movOk
  | .vgth h x => h.vector q && x.d.dstV && x.a.isStream && x.b.srcVec && x.rnd == .rne
  | .vsct h x => h.vector q && x.d.isStream && x.a.src && x.b.srcVec && x.rnd == .rne
  | .vmsk h x => h.vector q && x.mskOk
  | .vcnt h x => h.vector q && x.ty.isI && x.d.scalar && x.d.aux == 0 && x.a.mask && x.a.aux == 0 &&
      x.b == .unused && x.rnd == .rne
  | .vidx h x => h.vector q && x.ty.isI && x.d.dst && x.a.scalar && x.b == .unused && x.rnd == .rne
  | .vchk h x => h.vector q && x.ty.isF && x.d == .unused && x.a.src && x.b == .unused && x.rnd == .rne && !x.nw
  | .vscl h x => h.vector q && x.ty.isF && x.d.dst && x.a.regVec && x.a.aux.extractLsb' 8 4 == 0 &&
      x.random (1024 / x.ty.bits)
  | .rngb h x => h.vector q && x.rng
  | .resultLand .. | .engineCommandStart .. | .copyUnit .. | .commandSignal .. | .matrixWordRetire ..
  | .legCountEnd .. | .legPin | .legCommit .. | .barrierComplete .. | .memberRetire .. | .launchComplete ..
  | .completionRecordWrite .. | .qcbaEnable .. | .qcbaDisable .. | .qdoorWrite .. | .launchIntake ..
  | .rendezvousDepTest .. | .launchPlace .. | .launchAgeing .. | .launchReserve .. | .preempt ..
  | .contextSwitch .. | .contextStreamOut .. | .contextStreamIn .. | .planeFillComplete .. | .faultRecordSend ..
  | .handlerStart .. | .frespResume .. | .frespAbort .. | .eventRingWrite | .shgoPage | .shgoAsid | .shgoAll
  | .shootdownComplete | .hstartGo .. | .hstartHold .. | .stopgoResume .. | .stopgoImage .. | .cycleMatchStop ..
  | .pcapWrite .. | .icapWrite .. | .cspillWrite .. | .msiaWrite .. | .evbaseWrite .. | .registerWrite ..
  | .flitTransmit .. | .flitReceive .. | .nakTimer .. | .idleTimer .. | .replayTimeout .. | .linkRetrain ..
  | .retrainComplete .. | .moduleDisable .. | .linkFailReroute .. | .clockMessageSend .. | .batchApply ..
  | .reductionApply .. | .promotionComplete .. | .migrationMove .. | .taskStart .. | .taskAbort ..
  | .taskCommit .. | .patrolScrub .. | .busRepair .. | .coreFence .. | .dieDrop .. | .adapterRequest ..
  | .aerEvent .. | .hartMemoryAccess .. | .resetRelease | .illegalEncoding .. | .islandFrequencyChange .. => false

end Sys2Proof
end

