-- ==== Sys2Proof/Decode.lean ====
section
/-!
DEFINITION. The decoder (05, R100 to R133), total on any bytes and rejecting by name; after it the encoder, from the
same tables; then the host's `decodeTableWord`. Bytes are little-endian (R3). A control word is 4 bytes, a 96-bit
word or slot 12 bytes. The byte-order helpers that memory uses stand here too.
-/
namespace Sys2Proof

/-! ## Bytes -/

/-- The number whose little-endian bytes are given (R3). -/
def natOfBytes : List Byte → Nat
  | [] => 0
  | b :: bs => b.toNat + 256 * natOfBytes bs

/-- The `n` little-endian bytes of a number (R3). -/
def bytesOfNat : Nat → Nat → List Byte
  | 0, _ => []
  | n + 1, v => BitVec.ofNat 8 v :: bytesOfNat n (v / 256)

/-- A word of `w` bits from its little-endian bytes. -/
def wordOfBytes (w : Nat) (bs : List Byte) : BitVec w := BitVec.ofNat w (natOfBytes bs)

/-! ## Field codes (R104, R107, R111 to R116) -/

/-- Code of a format. -/
def Fmt.code : Fmt → BitVec 4
  | .fp32 => 0 | .fp16 => 1 | .bf16 => 2 | .e4m3 => 3 | .e5m2 => 4 | .ts8 => 5 | .sc8 => 6 | .i8 => 7
  | .n8 => 8 | .i16 => 9 | .n16 => 10 | .i32 => 11 | .n32 => 12

/-- Code of a rounding mode. -/
def Rnd.code : Rnd → BitVec 3
  | .rne => 0 | .rtz => 1 | .rdn => 2 | .rup => 3 | .sto => 4

/-- Rounding mode of a code. -/
def Rnd.ofCode (c : BitVec 3) : Option Rnd :=
  match c.toNat with
  | 0 => some .rne | 1 => some .rtz | 2 => some .rdn | 3 => some .rup | 4 => some .sto | _ => none

/-- Code of a scope. -/
def Scope.code : Scope → BitVec 3
  | .core => 0 | .cl => 1 | .die => 2 | .pkg => 3 | .dom => 4

/-- Scope of a code. -/
def Scope.ofCode (c : BitVec 3) : Option Scope :=
  match c.toNat with
  | 0 => some .core | 1 => some .cl | 2 => some .die | 3 => some .pkg | 4 => some .dom | _ => none

/-- Code of a size. -/
def Size.code : Size → BitVec 2
  | .b8 => 0 | .b16 => 1 | .b32 => 2 | .b64 => 3

/-- Size of a code. -/
def Size.ofCode (c : BitVec 2) : Size :=
  match c.toNat with
  | 0 => .b8 | 1 => .b16 | 2 => .b32 | _ => .b64

/-- Code of a copy word's space (R123). -/
def Space.code : Space → BitVec 2
  | .global => 0 | .sp => 1 | .can => 2

/-- Space of a code. -/
def Space.ofCode (c : BitVec 2) : Option Space :=
  match c.toNat with
  | 0 => some .global | 1 => some .sp | 2 => some .can | _ => none

/-- Code of a tier (R107). -/
def Tier.code : Tier → BitVec 2
  | .any => 0 | .stacked => 1 | .offstack => 2

/-- Tier of a code. -/
def Tier.ofCode (c : BitVec 2) : Option Tier :=
  match c.toNat with
  | 0 => some .any | 1 => some .stacked | 2 => some .offstack | _ => none

/-- Code of a scalar condition (R112). -/
def Cc.code : Cc → BitVec 3
  | .eq => 0 | .ne => 1 | .lt => 2 | .ge => 3 | .ltn => 4 | .gen => 5

/-- Scalar condition of a code. -/
def Cc.ofCode (c : BitVec 3) : Option Cc :=
  match c.toNat with
  | 0 => some .eq | 1 => some .ne | 2 => some .lt | 3 => some .ge | 4 => some .ltn | 5 => some .gen | _ => none

/-- Code of an atomic operation (R116). -/
def AmoOp.code : AmoOp → BitVec 5
  | .add => 0 | .and => 1 | .or => 2 | .xor => 3 | .min => 4 | .max => 5 | .minn => 6 | .maxn => 7 | .swp => 8

/-- Atomic operation of a code. -/
def AmoOp.ofCode (c : BitVec 5) : Option AmoOp :=
  match c.toNat with
  | 0 => some .add | 1 => some .and | 2 => some .or | 3 => some .xor | 4 => some .min | 5 => some .max
  | 6 => some .minn | 7 => some .maxn | 8 => some .swp | _ => none

/-- Code of a WAITM condition (R116). -/
def WCond.code : WCond → BitVec 3
  | .eq => 0 | .ne => 1 | .gen => 2 | .ltn => 3

/-- WAITM condition of a code. -/
def WCond.ofCode (c : BitVec 3) : Option WCond :=
  match c.toNat with
  | 0 => some .eq | 1 => some .ne | 2 => some .gen | 3 => some .ltn | _ => none

/-- Code of a BARS operation (R114). -/
def BarOp.code : BarOp → BitVec 3
  | .or => 0 | .and => 1 | .add => 2 | .min => 3 | .max => 4

/-- BARS operation of a code. -/
def BarOp.ofCode (c : BitVec 3) : Option BarOp :=
  match c.toNat with
  | 0 => some .or | 1 => some .and | 2 => some .add | 3 => some .min | 4 => some .max | _ => none

/-- Code of a TLBI kind (R114). -/
def TlbKind.code : TlbKind → BitVec 2
  | .page => 0 | .asid => 1 | .all => 2

/-- TLBI kind of a code. -/
def TlbKind.ofCode (c : BitVec 2) : Option TlbKind :=
  match c.toNat with
  | 0 => some .page | 1 => some .asid | 2 => some .all | _ => none

/-- Code of a HINT kind (R388). -/
def HintKind.code : HintKind → BitVec 4
  | .rd => 0 | .mig => 1 | .xl => 2 | .drop => 3

/-- HINT kind of a code. -/
def HintKind.ofCode (c : BitVec 4) : Option HintKind :=
  match c.toNat with
  | 0 => some .rd | 1 => some .mig | 2 => some .xl | 3 => some .drop | _ => none

/-- Number of a status register (R115). -/
def Csr.code : Csr → BitVec 12
  | .status => 0x000 | .cause => 0x001 | .epc => 0x002 | .tval => 0x003 | .legno => 0x010 | .detmode => 0x011
  | .supstep => 0x012 | .sticky => 0x020 | .lcnt => 0x030 | .cycle => 0x031 | .cycleh => 0x032
  | .lc n => 0x010#10 ++ n

/-- Status register of a number (R115). -/
def Csr.ofCode (c : BitVec 12) : Option Csr :=
  match c.toNat with
  | 0x000 => some .status | 0x001 => some .cause | 0x002 => some .epc | 0x003 => some .tval
  | 0x010 => some .legno | 0x011 => some .detmode | 0x012 => some .supstep | 0x020 => some .sticky
  | 0x030 => some .lcnt | 0x031 => some .cycle | 0x032 => some .cycleh
  | 0x040 => some (.lc 0) | 0x041 => some (.lc 1) | 0x042 => some (.lc 2) | 0x043 => some (.lc 3)
  | _ => none

/-- Code of a VSHUF pattern. -/
def Shuf.code : Shuf → BitVec 3
  | .zlo => 0 | .zhi => 1 | .uev => 2 | .uod => 3

/-- VSHUF pattern of a code. -/
def Shuf.ofCode (c : BitVec 3) : Option Shuf :=
  match c.toNat with
  | 0 => some .zlo | 1 => some .zhi | 2 => some .uev | 3 => some .uod | _ => none

/-- Code of an A layout (R125). -/
def ALay.code : ALay → BitVec 2
  | .row => 0 | .z => 1 | .zs => 2

/-- A layout of a code. -/
def ALay.ofCode (c : BitVec 2) : Option ALay :=
  match c.toNat with
  | 0 => some .row | 1 => some .z | 2 => some .zs | _ => none

/-- Code of a sparsity (R125). -/
def Sparse.code : Sparse → BitVec 2
  | .dense => 0 | .n4 => 1 | .n8 => 2

/-- Sparsity of a code. -/
def Sparse.ofCode (c : BitVec 2) : Option Sparse :=
  match c.toNat with
  | 0 => some .dense | 1 => some .n4 | 2 => some .n8 | _ => none

/-- Code of a vector operand kind (R120). -/
def VKind.code : VKind → BitVec 2
  | .v => 0 | .bl => 1 | .m => 2 | .s => 3

/-- Vector operand kind of a code. -/
def VKind.ofCode (c : BitVec 2) : VKind :=
  match c.toNat with
  | 0 => .v | 1 => .bl | 2 => .m | _ => .s

/-- Opcode of a matrix instruction (R127). -/
def MxOp.code : MxOp → BitVec 8
  | .mma => 0x80 | .mmas => 0x81 | .mmab => 0x82 | .mmts => 0x83 | .sca => 0x84 | .nrm => 0x85 | .aclr => 0x86
  | .acvt => 0x87 | .ald => 0x88 | .ast => 0x89 | .setx => 0x8A

/-- Matrix instruction of an opcode. -/
def MxOp.ofCode (c : BitVec 8) : Option MxOp :=
  match c.toNat with
  | 0x80 => some .mma | 0x81 => some .mmas | 0x82 => some .mmab | 0x83 => some .mmts | 0x84 => some .sca
  | 0x85 => some .nrm | 0x86 => some .aclr | 0x87 => some .acvt | 0x88 => some .ald | 0x89 => some .ast
  | 0x8A => some .setx | _ => none

/-- A vector operand field's bits (R120). -/
def VOp.code : VOp → BitVec 20
  | .reg k aux n => 0#1 ++ k.code ++ aux ++ n
  | .stream st off => 1#1 ++ st ++ off

/-- The vector operand of a field (R120). -/
def VOp.ofCode (c : BitVec 20) : VOp :=
  if c.getLsbD 19 then .stream (c.extractLsb' 13 6) (c.extractLsb' 0 13)
  else .reg (VKind.ofCode (c.extractLsb' 17 2)) (c.extractLsb' 5 12) (c.extractLsb' 0 5)

/-! ## Refusals of the decoder -/

/-- Why the bits are no instruction (R132). -/
inductive Why where
  /-- The opcode or group minor is not assigned (R110, R111, R113, R124, R127). -/
  | unassigned
  /-- A reserved bit is one (R5). -/
  | reserved
  /-- A field holds a value without a meaning (R104 to R130). -/
  | value
  /-- A word or slot lies past the end of the memory (R108). -/
  | pastEnd
  /-- The word is not of a class the sequencer accepts, or a field rule of its instruction is broken, or a target
  lies outside the memory (R100, R108, R119, R131; `Instr.wf`). -/
  | illFormed
  deriving DecidableEq, Repr

/-- A refused encoding, with the 32 bits that TVAL receives (R102, R131). -/
structure Reject where
  why  : Why
  tval : Word
  deriving DecidableEq, Repr

/-- A test the encoding must pass. -/
def need (c : Bool) (y : Why) : Except Why Unit := if c then .ok () else .error y

/-- A field's meaning, or the refusal of its value. -/
def field {α : Type} (o : Option α) : Except Why α :=
  match o with
  | some a => .ok a
  | none => .error .value

/-! ## Control words (R106 to R117) -/

/-- The memory fields of the two words of format CD (R106). -/
def memFields (w w2 : Word) : Except Why MemF := do
  need (w2.extractLsb' 0 4 == 0) .reserved
  let scope ← field (Scope.ofCode (w.extractLsb' 8 3))
  let tier ← field (Tier.ofCode (w2.extractLsb' 6 2))
  return { reg := w.extractLsb' 17 5, base := w.extractLsb' 13 4, size := Size.ofCode (w.extractLsb' 11 2),
           scope := scope, ord := w.getLsbD 7, acq := w.getLsbD 6, rel := w.getLsbD 5,
           off := w2.extractLsb' 8 24, tier := tier, loc := w2.extractLsb' 4 2 }

/-- The ALU group (R111). -/
def decodeAlu (h : Hd) (w : Word) : Except Why Instr :=
  let d : BitVec 5 := w.extractLsb' 17 5
  let a : BitVec 5 := w.extractLsb' 12 5
  let b : BitVec 5 := w.extractLsb' 7 5
  let unary (i : Instr) : Except Why Instr := do
    need (b == 0) .reserved
    return i
  match (w.extractLsb' 0 7).toNat with
  | 0x00 => .ok (.add h d a b) | 0x01 => .ok (.sub h d a b) | 0x02 => .ok (.mul h d a b)
  | 0x03 => .ok (.mulh h d a b) | 0x04 => .ok (.mulhn h d a b) | 0x05 => .ok (.div h d a b)
  | 0x06 => .ok (.divn h d a b) | 0x07 => .ok (.mod h d a b) | 0x08 => .ok (.modn h d a b)
  | 0x09 => .ok (.and h d a b) | 0x0A => .ok (.or h d a b) | 0x0B => .ok (.xor h d a b)
  | 0x0C => unary (.not h d a)
  | 0x0D => .ok (.shl h d a b) | 0x0E => .ok (.shr h d a b) | 0x0F => .ok (.sra h d a b)
  | 0x10 => .ok (.min h d a b) | 0x11 => .ok (.minn h d a b) | 0x12 => .ok (.max h d a b)
  | 0x13 => .ok (.maxn h d a b)
  | 0x14 => unary (.clz h d a) | 0x15 => unary (.popc h d a) | 0x16 => unary (.mov h d a)
  | 0x17 => .ok (.addp h d a b) | 0x18 => .ok (.subp h d a b) | 0x19 => .ok (.madp h d a b)
  | _ => .error .unassigned

/-- The SEQ group (R113). -/
def decodeSeq (h : Hd) (w : Word) : Except Why Instr :=
  let bare (i : Instr) : Except Why Instr := do
    need (w.extractLsb' 0 16 == 0) .reserved
    return i
  match (w.extractLsb' 16 6).toNat with
  | 0x00 => bare (.nop h) | 0x01 => bare (.halt h) | 0x02 => bare (.fork h) | 0x03 => bare (.join h)
  | 0x04 => bare (.drain h) | 0x05 => bare (.lege h) | 0x06 => bare (.abend h) | 0x07 => bare (.ocmt h)
  | 0x08 => bare (.oabt h) | 0x09 => bare (.eret h) | 0x0A => bare (.plsw h) | 0x0B => bare (.dbrk h)
  | _ => .error .unassigned

/-- The CX instructions (R114); `op` is the major opcode. -/
def decodeCx (op : Nat) (h : Hd) (w : Word) : Except Why Instr := do
  match op with
  | 0x11 =>
    need (w.extractLsb' 0 17 == 0) .reserved
    return .bra h (w.extractLsb' 17 5)
  | 0x14 =>
    need (w.extractLsb' 0 22 == 0) .reserved
    return .ret h
  | 0x16 =>
    need (w.extractLsb' 0 19 == 0) .reserved
    return .lexit h (w.extractLsb' 20 2) (w.getLsbD 19)
  | 0x22 => return .sig h (w.extractLsb' 14 8) (w.getLsbD 13) (w.extractLsb' 0 13)
  | 0x23 => return .wait h (w.extractLsb' 14 8) (w.getLsbD 13) (w.extractLsb' 0 13)
  | 0x24 =>
    need (w.extractLsb' 0 9 == 0) .reserved
    return .semi h (w.extractLsb' 14 8) (w.extractLsb' 9 5)
  | 0x25 =>
    need (w.extractLsb' 0 9 == 0) .reserved
    return .semr h (w.extractLsb' 17 5) (w.extractLsb' 9 8)
  | 0x26 =>
    need (w.extractLsb' 0 17 == 0) .reserved
    return .cset h (w.extractLsb' 18 4) (w.getLsbD 17)
  | 0x27 =>
    need (w.extractLsb' 0 17 == 0) .reserved
    return .cwait h (w.extractLsb' 18 4) (w.getLsbD 17)
  | 0x28 =>
    need (w.extractLsb' 0 8 == 0) .reserved
    let o ← field (BarOp.ofCode (w.extractLsb' 18 3))
    return .bars h (w.getLsbD 21) o (w.extractLsb' 13 5) (w.extractLsb' 8 5)
  | 0x29 =>
    need (w.extractLsb' 0 18 == 0) .reserved
    return .mark h (w.extractLsb' 18 4)
  | 0x2A =>
    need (w.extractLsb' 0 19 == 0) .reserved
    let s ← field (Scope.ofCode (w.extractLsb' 19 3))
    return .fence h s
  | 0x2B =>
    need (w.extractLsb' 0 18 == 0) .reserved
    return .lnch h (w.extractLsb' 18 4)
  | 0x2C =>
    need (w.extractLsb' 0 13 == 0) .reserved
    return .lstat h (w.extractLsb' 17 5) (w.extractLsb' 13 4)
  | 0x2D =>
    need (w.extractLsb' 12 5 == 0) .reserved
    let c ← field (Csr.ofCode (w.extractLsb' 0 12))
    return .csrr h (w.extractLsb' 17 5) c
  | 0x2E =>
    need (w.extractLsb' 17 5 == 0) .reserved
    let c ← field (Csr.ofCode (w.extractLsb' 0 12))
    return .csrw h (w.extractLsb' 12 5) c
  | 0x2F =>
    need (w.extractLsb' 12 10 == 0) .reserved
    return .trap h (w.extractLsb' 0 12)
  | 0x30 =>
    need (w.extractLsb' 0 18 == 0) .reserved
    return .otsk h (w.extractLsb' 18 4)
  | 0x31 =>
    need (w.extractLsb' 0 3 == 0) .reserved
    return .abop h (w.extractLsb' 18 4) (w.extractLsb' 12 6) (w.extractLsb' 8 4) (w.extractLsb' 3 5)
  | 0x32 =>
    need (w.extractLsb' 0 18 == 0) .reserved
    return .ctbl h (w.extractLsb' 18 4)
  | 0x33 =>
    need (w.extractLsb' 0 16 == 0) .reserved
    let k ← field (TlbKind.ofCode (w.extractLsb' 16 2))
    return .tlbi h (w.extractLsb' 18 4) k
  | 0x34 =>
    need (w.extractLsb' 0 18 == 0) .reserved
    return .plld h (w.extractLsb' 18 4)
  | 0x35 =>
    need (w.extractLsb' 0 13 == 0) .reserved
    return .wcha h (w.extractLsb' 18 4) (w.extractLsb' 13 5)
  | 0x36 =>
    need (w.extractLsb' 0 13 == 0) .reserved
    return .wchd h (w.extractLsb' 18 4) (w.extractLsb' 13 5)
  | 0x37 =>
    need (w.extractLsb' 0 14 == 0) .reserved
    let k ← field (HintKind.ofCode (w.extractLsb' 14 4))
    return .hint h (w.extractLsb' 18 4) k
  | 0x38 =>
    need (w.extractLsb' 0 16 == 0) .reserved
    return .ctxs h (w.extractLsb' 18 4) (w.extractLsb' 16 2)
  | 0x39 =>
    need (w.extractLsb' 0 16 == 0) .reserved
    return .ctxl h (w.extractLsb' 18 4) (w.extractLsb' 16 2)
  | _ => .error .unassigned

/-- The CD instructions (R116); `op` is the major opcode. -/
def decodeCd (op : Nat) (h : Hd) (w w2 : Word) : Except Why Instr := do
  let m ← memFields w w2
  match op with
  | 0x18 =>
    need (w.extractLsb' 1 4 == 0) .reserved
    return .ld h m (w.getLsbD 0)
  | 0x19 =>
    need (w.extractLsb' 0 5 == 0) .reserved
    return .st h m
  | 0x1A =>
    need (w.extractLsb' 0 5 == 0) .reserved
    return .ldp h m
  | 0x1B =>
    need (w.extractLsb' 0 5 == 0) .reserved
    return .stp h m
  | 0x1C =>
    let o ← field (AmoOp.ofCode (w.extractLsb' 0 5))
    return .amo h m o
  | 0x1D =>
    need (w.extractLsb' 0 5 == 0) .reserved
    return .amoc h m
  | 0x1E =>
    let o ← field (AmoOp.ofCode (w.extractLsb' 0 5))
    return .red h m o
  | 0x1F =>
    let t ← field (Fmt.ofCode (w.extractLsb' 0 4))
    return .redf h m (w.getLsbD 4) t
  | 0x20 =>
    need (w.extractLsb' 4 1 == 0) .reserved
    let t ← field (Fmt.ofCode (w.extractLsb' 0 4))
    return .redo h m t
  | 0x21 =>
    need (w.extractLsb' 3 2 == 0) .reserved
    let c ← field (WCond.ofCode (w.extractLsb' 0 3))
    return .waitm h m c
  | _ => .error .unassigned

/-- The CA, CC, CK, CI, CV, CB, CJ, CL and CW instructions, and the groups (R110). `w2` is the word that follows. -/
def decodeControl (wide : Bool) (wait sig : BitVec 8) (w w2 : Word) : Except Why Instr :=
  let h : Hd := { wide := wide, pneg := w.getLsbD 25, pred := w.extractLsb' 22 3, wait := wait, sig := sig }
  let d : BitVec 5 := w.extractLsb' 17 5
  let a : BitVec 5 := w.extractLsb' 12 5
  let imm : BitVec 12 := w.extractLsb' 0 12
  let shift (i : Instr) : Except Why Instr := do
    need (w.extractLsb' 5 7 == 0) .reserved
    return i
  match (w.extractLsb' 26 6).toNat with
  | 0x01 => decodeAlu h w
  | 0x02 => do
    need (w.extractLsb' 3 4 == 0) .reserved
    return .sel h d a (w.extractLsb' 7 5) (w.extractLsb' 0 3)
  | 0x03 => do
    need (w.extractLsb' 0 6 == 0) .reserved
    let cc ← field (Cc.ofCode (w.extractLsb' 16 3))
    return .cmp h (w.extractLsb' 19 3) cc (w.extractLsb' 11 5) (w.extractLsb' 6 5)
  | 0x04 => do
    let cc ← field (Cc.ofCode (w.extractLsb' 16 3))
    return .cmpi h (w.extractLsb' 19 3) cc (w.extractLsb' 11 5) (w.extractLsb' 0 11)
  | 0x05 => .ok (.addi h d a imm)
  | 0x06 => .ok (.subi h d a imm)
  | 0x07 => .ok (.andi h d a imm)
  | 0x08 => .ok (.ori h d a imm)
  | 0x09 => .ok (.xori h d a imm)
  | 0x0A => shift (.shli h d a (w.extractLsb' 0 5))
  | 0x0B => shift (.shri h d a (w.extractLsb' 0 5))
  | 0x0C => shift (.srai h d a (w.extractLsb' 0 5))
  | 0x0D => do
    need (w.extractLsb' 16 1 == 0) .reserved
    return .movi h d (w.extractLsb' 0 16)
  | 0x0E => do
    need (w.extractLsb' 16 1 == 0) .reserved
    return .movh h d (w.extractLsb' 0 16)
  | 0x10 => .ok (.br h (w.extractLsb' 0 22))
  | 0x12 => .ok (.jmp { h with pneg := false, pred := 0 } (w.extractLsb' 0 26))
  | 0x13 => .ok (.call h (w.extractLsb' 0 22))
  | 0x15 => .ok (.loop h (w.extractLsb' 20 2) (w.extractLsb' 15 5) (w.extractLsb' 0 15))
  | 0x17 => do
    need (w.extractLsb' 0 6 == 0 && w2.extractLsb' 0 14 == 0) .reserved
    return .lbrd h (w.extractLsb' 17 5) (w.extractLsb' 9 8) (w.extractLsb' 6 3) (w2.extractLsb' 26 6)
      (w2.extractLsb' 20 6) (w2.extractLsb' 14 6)
  | 0x3E => decodeSeq h w
  | op => if 0x18 ≤ op ∧ op ≤ 0x21 then decodeCd op h w w2 else decodeCx op h w

/-! ## 96-bit and 192-bit words (R118 to R131) -/

/-- The header of a 96-bit word whose guard is none. -/
def slotHead (s : BitVec 96) : Hd :=
  { wide := true, pneg := false, pred := 0, wait := s.extractLsb' 76 8, sig := s.extractLsb' 68 8 }

/-- The fields of a matrix word from its lower slot (bits 191 to 96) and its upper slot (R125). -/
def matrixFields (lo up : BitVec 96) : Except Why MxF := do
  let m : BitVec 192 := lo ++ up
  need (m.extractLsb' 88 10 == 0 && m.extractLsb' 68 1 == 0 && m.extractLsb' 0 52 == 0) .reserved
  let af ← field (Fmt.ofCode (m.extractLsb' 180 4))
  let bf ← field (Fmt.ofCode (m.extractLsb' 176 4))
  let alay ← field (ALay.ofCode (m.extractLsb' 154 2))
  let sp ← field (Sparse.ofCode (m.extractLsb' 98 2))
  let rnd ← field (Rnd.ofCode (m.extractLsb' 69 3))
  return { af := af, bf := bf, acc := m.extractLsb' 158 2, redun := m.getLsbD 157, tstart := m.getLsbD 156,
           alay := alay, ovw := m.getLsbD 153, xsel := m.getLsbD 152, adesc := m.extractLsb' 146 6,
           aoff := m.extractLsb' 133 13, bbase := m.extractLsb' 116 17, ks := m.extractLsb' 106 10,
           mdesc := m.extractLsb' 100 6, sp := sp, moff := m.extractLsb' 75 13, bpb := m.extractLsb' 72 3,
           rnd := rnd, imm := m.extractLsb' 52 16 }

/-- The instruction of a matrix opcode. -/
def MxOp.instr (op : MxOp) (h : Hd) (f : MxF) : Instr :=
  match op with
  | .mma => .mma h f | .mmas => .mmas h f | .mmab => .mmab h f | .mmts => .mmts h f | .sca => .sca h f
  | .nrm => .nrm h f | .aclr => .aclr h f | .acvt => .acvt h f | .ald => .ald h f | .ast => .ast h f
  | .setx => .setx h f

/-- A matrix word (R126, R127): its instruction, wait, signal and fields. -/
def decodeMatrix (lo up : BitVec 96) : Except Why Chained := do
  match MxOp.ofCode (lo.extractLsb' 88 8) with
  | none => .error .unassigned
  | some op =>
    let f ← matrixFields lo up
    return { op := op, wait := lo.extractLsb' 72 8, sig := lo.extractLsb' 64 8, f := f }

/-- The copy word of an opcode (R123); `ts` and `fs` are bits [87:86] and [85:84]. -/
def copyInstr (op : Nat) (h : Hd) (c : CopyF) (ts fs : BitVec 2) : Except Why Instr := do
  let tsp := field (Space.ofCode ts)
  let fsp := field (Space.ofCode fs)
  match op with
  | 0x10 => return .cpy h { c with tsp := ← tsp, fsp := ← fsp }
  | 0x11 => return .dup h { c with tsp := ← tsp, fsp := ← fsp }
  | 0x12 =>
    need (fs.toNat < 2) .value
    return .gthr h { c with tsp := ← tsp } (fs == 1)
  | 0x13 =>
    need (ts.toNat < 2) .value
    return .sctr h { c with fsp := ← fsp } (ts == 1)
  | 0x14 => return .xfer h { c with tsp := ← tsp, fsp := ← fsp }
  | 0x15 => return .canf h { c with tsp := ← tsp, fsp := ← fsp }
  | 0x16 => return .canr h { c with tsp := ← tsp, fsp := ← fsp }
  | 0x17 => return .zfil h { c with tsp := ← tsp, fsp := ← fsp }
  | 0x18 => return .sstr h { c with tsp := ← tsp, fsp := ← fsp }
  | 0x19 => return .spf h { c with tsp := ← tsp, fsp := ← fsp }
  | 0x1A => return .migr h { c with tsp := ← tsp, fsp := ← fsp }
  | 0x1B => return .rqnt h { c with tsp := ← tsp, fsp := ← fsp }
  | _ => .error .unassigned

/-- The fields of a copy word, its spaces and chained word apart (R118). -/
def copyFields (s : BitVec 96) (ch : Option Chained) : Except Why CopyF := do
  let scope ← field (Scope.ofCode (s.extractLsb' 1 3))
  return { tsp := .global, fsp := .global, toP := s.extractLsb' 64 4, toOff := s.extractLsb' 40 24,
           fromP := s.extractLsb' 36 4, fromOff := s.extractLsb' 12 24, len := s.extractLsb' 7 5,
           b6 := s.getLsbD 6, acq := s.getLsbD 5, rel := s.getLsbD 4, scope := scope, chain := ch }

/-- The vector word of an opcode (R124); VSHUF's pattern stands in the rnd field, its `rnd` is then rne. -/
def decodeVector (s : BitVec 96) : Except Why Instr := do
  let h : Hd := { wide := true, pneg := s.getLsbD 4, pred := s.extractLsb' 5 3, wait := s.extractLsb' 76 8,
                  sig := s.extractLsb' 68 8 }
  let ty ← field (Fmt.ofCode (s.extractLsb' 84 4))
  let r : BitVec 3 := s.extractLsb' 0 3
  let x : VecF := { ty := ty, d := VOp.ofCode (s.extractLsb' 48 20), a := VOp.ofCode (s.extractLsb' 28 20),
                    b := VOp.ofCode (s.extractLsb' 8 20), nw := s.getLsbD 3, rnd := .rne }
  match (s.extractLsb' 88 8).toNat with
  | 0x5B =>
    let p ← field (Shuf.ofCode r)
    return .vshuf h x p
  | op =>
    let rnd ← field (Rnd.ofCode r)
    let x := { x with rnd := rnd }
    match op with
    | 0x40 => return .vadd h x | 0x41 => return .vsub h x | 0x42 => return .vmul h x | 0x43 => return .vfma h x
    | 0x44 => return .vfms h x | 0x45 => return .vmin h x | 0x46 => return .vmax h x | 0x47 => return .vabs h x
    | 0x48 => return .vneg h x | 0x49 => return .vclmp h x | 0x4A => return .vcmp h x | 0x4B => return .vsel h x
    | 0x4C => return .vand h x | 0x4D => return .vor h x | 0x4E => return .vxor h x | 0x4F => return .vnot h x
    | 0x50 => return .vshl h x | 0x51 => return .vshr h x | 0x52 => return .vsra h x | 0x53 => return .vcvt h x
    | 0x54 => return .vexp2 h x | 0x55 => return .vlog2 h x | 0x56 => return .vrcp h x | 0x57 => return .vrsq h x
    | 0x58 => return .vsum h x | 0x59 => return .vrmx h x | 0x5A => return .vperm h x | 0x5C => return .vbcst h x
    | 0x5D => return .vsld h x | 0x5E => return .vmov h x | 0x5F => return .vgth h x | 0x60 => return .vsct h x
    | 0x61 => return .vmsk h x | 0x62 => return .vcnt h x | 0x63 => return .vidx h x | 0x64 => return .vchk h x
    | 0x65 => return .vscl h x | 0x66 => return .vqnt h x | 0x67 => return .vdqn h x | 0x68 => return .rngb h x
    | _ => .error .unassigned

/-- The copy words that may carry a chained matrix word (R123). -/
def Instr.chainable : Instr → Bool
  | .cpy .. | .dup .. | .gthr .. => true
  | _ => false

/-- A 96-bit word of sequencer `q` at `idx`, and the two slots that follow it (R118, R124, R126, R131). TVAL of a copy word whose second
chained slot lies past the end of the memory is the copy word's (log 99). -/
def decodeSlot (q : Sq) (idx : Nat) (s : BitVec 96) (s1 s2 : Option (BitVec 96)) : Except Reject Instr :=
  let head : Word := s.extractLsb' 64 32
  let here (e : Except Why Instr) : Except Reject Instr :=
    match e with
    | .ok i => .ok i
    | .error y => .error ⟨y, head⟩
  let op := (s.extractLsb' 88 8).toNat
  if op = 0x01 then
    here (do
      need (s.extractLsb' 84 4 == 0 && s.extractLsb' 32 36 == 0) .reserved
      decodeControl true (s.extractLsb' 76 8) (s.extractLsb' 68 8) (s.extractLsb' 0 32) 0)
  else if 0x10 ≤ op ∧ op ≤ 0x1B then
    let one (ch : Option Chained) : Except Why Instr := do
      let c ← copyFields s ch
      copyInstr op (slotHead s) c (s.extractLsb' 86 2) (s.extractLsb' 84 2)
    if s.getLsbD 0 then
      match one none with
      | .error y => .error ⟨y, head⟩
      | .ok own =>
        if q == .load && own.chainable && own.wf q idx then
          match s1, s2 with
          | some lo, some up =>
            match decodeMatrix lo up with
            | .ok m =>
              if m.op.chains && m.op.wf m.f then here (one (some m))
              else .error ⟨.illFormed, lo.extractLsb' 64 32⟩
            | .error y => .error ⟨y, lo.extractLsb' 64 32⟩
          | _, _ => .error ⟨.pastEnd, head⟩
        else .error ⟨.illFormed, head⟩
    else here (one none)
  else if 0x40 ≤ op ∧ op ≤ 0x68 then here (decodeVector s)
  else if 0x80 ≤ op ∧ op ≤ 0x8A then
    match s1 with
    | none => .error ⟨.pastEnd, head⟩
    | some up =>
      here (do
        let m ← decodeMatrix s up
        return m.op.instr { wide := true, pneg := false, pred := 0, wait := m.wait, sig := m.sig } m.f)
  else .error ⟨.unassigned, head⟩

/-! ## The decoder -/

/-- Bytes of one word or slot of a sequencer's memory. -/
def Sq.unit : Sq → Nat
  | .ctl => 4
  | _ => 12

/-- Word `k` of the bytes, if they hold it whole. -/
def unitAt (unit w k : Nat) (bs : List Byte) : Option (BitVec w) :=
  let u := (bs.drop (unit * k)).take unit
  if u.length = unit then some (wordOfBytes w u) else none

/-- Checks a parsed instruction against the rules of its place. -/
def checkWf (q : Sq) (idx : Nat) (head : Word) (i : Instr) : Except Reject (Instr × Nat) :=
  if i.wf q idx then .ok (i, i.len)
  else .error ⟨if i.fits q idx then .illFormed else .pastEnd, head⟩

/-- The decoder: the instruction that sequencer `q` reads at index `idx`, and its length in words or slots, from the
bytes of its memory from `idx` on (R102, R108, R132). -/
def decode (q : Sq) (idx : Nat) (bs : List Byte) : Except Reject (Instr × Nat) :=
  match q with
  | .ctl =>
    match unitAt 4 32 0 bs with
    | none => .error ⟨.pastEnd, 0⟩
    | some w =>
      match decodeControl false 0xFF 0xFF w ((unitAt 4 32 1 bs).getD 0) with
      | .error y => .error ⟨y, w⟩
      | .ok i =>
        if i.len = 2 ∧ (unitAt 4 32 1 bs).isNone then .error ⟨.pastEnd, w⟩ else checkWf q idx w i
  | q =>
    match unitAt 12 96 0 bs with
    | none => .error ⟨.pastEnd, 0⟩
    | some s =>
      match decodeSlot q idx s (unitAt 12 96 1 bs) (unitAt 12 96 2 bs) with
      | .error r => .error r
      | .ok i => checkWf q idx (s.extractLsb' 64 32) i

/-! ## The encoder -/

/-- The guard bits (R106). -/
def Hd.guardBits (h : Hd) : BitVec 4 := BitVec.ofBool h.pneg ++ h.pred

/-- Format CA. -/
def caWord (op : BitVec 6) (h : Hd) (d a b : BitVec 5) (fn : BitVec 7) : Word := op ++ h.guardBits ++ d ++ a ++ b ++ fn

/-- Format CI. -/
def ciWord (op : BitVec 6) (h : Hd) (d a : BitVec 5) (imm : BitVec 12) : Word := op ++ h.guardBits ++ d ++ a ++ imm

/-- Formats CB and CX: a major opcode, the guard and 22 bits. -/
def cxWord (op : BitVec 6) (h : Hd) (body : BitVec 22) : Word := op ++ h.guardBits ++ body

/-- The SEQ group. -/
def seqWord (h : Hd) (minor : BitVec 6) : Word := cxWord 0x3E h (minor ++ 0#16)

/-- The first word of format CD. -/
def cdWord (op : BitVec 6) (h : Hd) (m : MemF) (fn : BitVec 5) : Word :=
  op ++ h.guardBits ++ m.reg ++ m.base ++ m.size.code ++ m.scope.code ++ BitVec.ofBool m.ord ++ BitVec.ofBool m.acq ++
    BitVec.ofBool m.rel ++ fn

/-- The second word of format CD. -/
def cdWord2 (m : MemF) : Word := m.off ++ m.tier.code ++ m.loc ++ 0#4

/-- The control words of an instruction: its word, and the second word of formats CD and CW. -/
def encodeControl (i : Instr) : Option (Word × Option Word) :=
  match i with
  | .add h d a b => some (caWord 0x01 h d a b 0x00, none)
  | .sub h d a b => some (caWord 0x01 h d a b 0x01, none)
  | .mul h d a b => some (caWord 0x01 h d a b 0x02, none)
  | .mulh h d a b => some (caWord 0x01 h d a b 0x03, none)
  | .mulhn h d a b => some (caWord 0x01 h d a b 0x04, none)
  | .div h d a b => some (caWord 0x01 h d a b 0x05, none)
  | .divn h d a b => some (caWord 0x01 h d a b 0x06, none)
  | .mod h d a b => some (caWord 0x01 h d a b 0x07, none)
  | .modn h d a b => some (caWord 0x01 h d a b 0x08, none)
  | .and h d a b => some (caWord 0x01 h d a b 0x09, none)
  | .or h d a b => some (caWord 0x01 h d a b 0x0A, none)
  | .xor h d a b => some (caWord 0x01 h d a b 0x0B, none)
  | .not h d a => some (caWord 0x01 h d a 0 0x0C, none)
  | .shl h d a b => some (caWord 0x01 h d a b 0x0D, none)
  | .shr h d a b => some (caWord 0x01 h d a b 0x0E, none)
  | .sra h d a b => some (caWord 0x01 h d a b 0x0F, none)
  | .min h d a b => some (caWord 0x01 h d a b 0x10, none)
  | .minn h d a b => some (caWord 0x01 h d a b 0x11, none)
  | .max h d a b => some (caWord 0x01 h d a b 0x12, none)
  | .maxn h d a b => some (caWord 0x01 h d a b 0x13, none)
  | .clz h d a => some (caWord 0x01 h d a 0 0x14, none)
  | .popc h d a => some (caWord 0x01 h d a 0 0x15, none)
  | .mov h d a => some (caWord 0x01 h d a 0 0x16, none)
  | .addp h d a b => some (caWord 0x01 h d a b 0x17, none)
  | .subp h d a b => some (caWord 0x01 h d a b 0x18, none)
  | .madp h d a b => some (caWord 0x01 h d a b 0x19, none)
  | .sel h d a b p => some (caWord 0x02 h d a b (0#4 ++ p), none)
  | .cmp h p cc a b => some (cxWord 0x03 h (p ++ cc.code ++ a ++ b ++ 0#6), none)
  | .cmpi h p cc a imm => some (cxWord 0x04 h (p ++ cc.code ++ a ++ imm), none)
  | .addi h d a imm => some (ciWord 0x05 h d a imm, none)
  | .subi h d a imm => some (ciWord 0x06 h d a imm, none)
  | .andi h d a imm => some (ciWord 0x07 h d a imm, none)
  | .ori h d a imm => some (ciWord 0x08 h d a imm, none)
  | .xori h d a imm => some (ciWord 0x09 h d a imm, none)
  | .shli h d a n => some (ciWord 0x0A h d a (0#7 ++ n), none)
  | .shri h d a n => some (ciWord 0x0B h d a (0#7 ++ n), none)
  | .srai h d a n => some (ciWord 0x0C h d a (0#7 ++ n), none)
  | .movi h d imm => some (cxWord 0x0D h (d ++ 0#1 ++ imm), none)
  | .movh h d imm => some (cxWord 0x0E h (d ++ 0#1 ++ imm), none)
  | .br h disp => some (cxWord 0x10 h disp, none)
  | .bra h r => some (cxWord 0x11 h (r ++ 0#17), none)
  | .jmp _ disp => some (0x12#6 ++ disp, none)
  | .call h disp => some (cxWord 0x13 h disp, none)
  | .ret h => some (cxWord 0x14 h 0, none)
  | .loop h lc c dist => some (cxWord 0x15 h (lc ++ c ++ dist), none)
  | .lexit h lc c => some (cxWord 0x16 h (lc ++ BitVec.ofBool c ++ 0#19), none)
  | .lbrd h c len mask skl sks skc =>
      some (cxWord 0x17 h (c ++ len ++ mask ++ 0#6), some (skl ++ sks ++ skc ++ 0#14))
  | .ld h m sx => some (cdWord 0x18 h m (0#4 ++ BitVec.ofBool sx), some (cdWord2 m))
  | .st h m => some (cdWord 0x19 h m 0, some (cdWord2 m))
  | .ldp h m => some (cdWord 0x1A h m 0, some (cdWord2 m))
  | .stp h m => some (cdWord 0x1B h m 0, some (cdWord2 m))
  | .amo h m op => some (cdWord 0x1C h m op.code, some (cdWord2 m))
  | .amoc h m => some (cdWord 0x1D h m 0, some (cdWord2 m))
  | .red h m op => some (cdWord 0x1E h m op.code, some (cdWord2 m))
  | .redf h m shape ty => some (cdWord 0x1F h m (BitVec.ofBool shape ++ ty.code), some (cdWord2 m))
  | .redo h m ty => some (cdWord 0x20 h m (0#1 ++ ty.code), some (cdWord2 m))
  | .waitm h m c => some (cdWord 0x21 h m (0#2 ++ c.code), some (cdWord2 m))
  | .sig h sem r n => some (cxWord 0x22 h (sem ++ BitVec.ofBool r ++ n), none)
  | .wait h sem r n => some (cxWord 0x23 h (sem ++ BitVec.ofBool r ++ n), none)
  | .semi h sem r => some (cxWord 0x24 h (sem ++ r ++ 0#9), none)
  | .semr h d sem => some (cxWord 0x25 h (d ++ sem ++ 0#9), none)
  | .cset h c v => some (cxWord 0x26 h (c ++ BitVec.ofBool v ++ 0#17), none)
  | .cwait h c v => some (cxWord 0x27 h (c ++ BitVec.ofBool v ++ 0#17), none)
  | .bars h comm op a d => some (cxWord 0x28 h (BitVec.ofBool comm ++ op.code ++ a ++ d ++ 0#8), none)
  | .mark h mask => some (cxWord 0x29 h (mask ++ 0#18), none)
  | .fence h sc => some (cxWord 0x2A h (sc.code ++ 0#19), none)
  | .lnch h p => some (cxWord 0x2B h (p ++ 0#18), none)
  | .lstat h d p => some (cxWord 0x2C h (d ++ p ++ 0#13), none)
  | .csrr h d c => some (cxWord 0x2D h (d ++ 0#5 ++ c.code), none)
  | .csrw h a c => some (cxWord 0x2E h (0#5 ++ a ++ c.code), none)
  | .trap h code => some (cxWord 0x2F h (0#10 ++ code), none)
  | .otsk h p => some (cxWord 0x30 h (p ++ 0#18), none)
  | .abop h p kind scls inv => some (cxWord 0x31 h (p ++ kind ++ scls ++ inv ++ 0#3), none)
  | .ctbl h p => some (cxWord 0x32 h (p ++ 0#18), none)
  | .tlbi h p k => some (cxWord 0x33 h (p ++ k.code ++ 0#16), none)
  | .plld h p => some (cxWord 0x34 h (p ++ 0#18), none)
  | .wcha h p len => some (cxWord 0x35 h (p ++ len ++ 0#13), none)
  | .wchd h p len => some (cxWord 0x36 h (p ++ len ++ 0#13), none)
  | .hint h p k => some (cxWord 0x37 h (p ++ k.code ++ 0#14), none)
  | .ctxs h p bank => some (cxWord 0x38 h (p ++ bank ++ 0#16), none)
  | .ctxl h p bank => some (cxWord 0x39 h (p ++ bank ++ 0#16), none)
  | .nop h => some (seqWord h 0x00, none)
  | .halt h => some (seqWord h 0x01, none)
  | .fork h => some (seqWord h 0x02, none)
  | .join h => some (seqWord h 0x03, none)
  | .drain h => some (seqWord h 0x04, none)
  | .lege h => some (seqWord h 0x05, none)
  | .abend h => some (seqWord h 0x06, none)
  | .ocmt h => some (seqWord h 0x07, none)
  | .oabt h => some (seqWord h 0x08, none)
  | .eret h => some (seqWord h 0x09, none)
  | .plsw h => some (seqWord h 0x0A, none)
  | .dbrk h => some (seqWord h 0x0B, none)
  | _ => none

/-- A matrix word (R125): its lower slot and its upper slot. -/
def matrixSlots (op : MxOp) (wait sig : BitVec 8) (f : MxF) : BitVec 96 × BitVec 96 :=
  (op.code ++ f.af.code ++ f.bf.code ++ wait ++ sig ++ f.acc ++ BitVec.ofBool f.redun ++ BitVec.ofBool f.tstart ++
    f.alay.code ++ BitVec.ofBool f.ovw ++ BitVec.ofBool f.xsel ++ f.adesc ++ f.aoff ++ f.bbase ++ f.ks ++ f.mdesc ++
    f.sp.code ++ 0#2,
   0#8 ++ f.moff ++ f.bpb ++ f.rnd.code ++ 0#1 ++ f.imm ++ 0#52)

/-- A copy word (R118); `ts` and `fs` are bits [87:86] and [85:84]. -/
def copySlot (op : BitVec 8) (h : Hd) (c : CopyF) (ts fs : BitVec 2) : BitVec 96 :=
  op ++ ts ++ fs ++ h.wait ++ h.sig ++ c.toP ++ c.toOff ++ c.fromP ++ c.fromOff ++ c.len ++ BitVec.ofBool c.b6 ++
    BitVec.ofBool c.acq ++ BitVec.ofBool c.rel ++ c.scope.code ++ BitVec.ofBool c.chain.isSome

/-- The slots of a copy word and of the matrix word that rides with it. -/
def copySlots (op : BitVec 8) (h : Hd) (c : CopyF) (ts fs : BitVec 2) : List (BitVec 96) :=
  copySlot op h c ts fs ::
    (match c.chain with
     | none => []
     | some m => [(matrixSlots m.op m.wait m.sig m.f).1, (matrixSlots m.op m.wait m.sig m.f).2])

/-- A vector word (R118); `r` is the rnd field. -/
def vectorSlot (op : BitVec 8) (h : Hd) (x : VecF) (r : BitVec 3) : BitVec 96 :=
  op ++ x.ty.code ++ h.wait ++ h.sig ++ x.d.code ++ x.a.code ++ x.b.code ++ h.pred ++ BitVec.ofBool h.pneg ++
    BitVec.ofBool x.nw ++ r

/-- A sequencing word (R119). -/
def seqSlot (h : Hd) (w : Word) : BitVec 96 := 0x01#8 ++ 0#4 ++ h.wait ++ h.sig ++ 0#36 ++ w

/-- The slots of a matrix instruction. -/
def matrixUnits (op : MxOp) (h : Hd) (f : MxF) : List (BitVec 96) :=
  [(matrixSlots op h.wait h.sig f).1, (matrixSlots op h.wait h.sig f).2]

/-- The 96-bit slots of an instruction of the load, store or compute stream. -/
def encodeSlots (i : Instr) : List (BitVec 96) :=
  match i with
  | .cpy h c => copySlots 0x10 h c c.tsp.code c.fsp.code
  | .dup h c => copySlots 0x11 h c c.tsp.code c.fsp.code
  | .gthr h c d => copySlots 0x12 h c c.tsp.code (0#1 ++ BitVec.ofBool d)
  | .sctr h c d => copySlots 0x13 h c (0#1 ++ BitVec.ofBool d) c.fsp.code
  | .xfer h c => copySlots 0x14 h c c.tsp.code c.fsp.code
  | .canf h c => copySlots 0x15 h c c.tsp.code c.fsp.code
  | .canr h c => copySlots 0x16 h c c.tsp.code c.fsp.code
  | .zfil h c => copySlots 0x17 h c c.tsp.code c.fsp.code
  | .sstr h c => copySlots 0x18 h c c.tsp.code c.fsp.code
  | .spf h c => copySlots 0x19 h c c.tsp.code c.fsp.code
  | .migr h c => copySlots 0x1A h c c.tsp.code c.fsp.code
  | .rqnt h c => copySlots 0x1B h c c.tsp.code c.fsp.code
  | .mma h f => matrixUnits .mma h f
  | .mmas h f => matrixUnits .mmas h f
  | .mmab h f => matrixUnits .mmab h f
  | .mmts h f => matrixUnits .mmts h f
  | .sca h f => matrixUnits .sca h f
  | .nrm h f => matrixUnits .nrm h f
  | .aclr h f => matrixUnits .aclr h f
  | .acvt h f => matrixUnits .acvt h f
  | .ald h f => matrixUnits .ald h f
  | .ast h f => matrixUnits .ast h f
  | .setx h f => matrixUnits .setx h f
  | .vadd h x => [vectorSlot 0x40 h x x.rnd.code]
  | .vsub h x => [vectorSlot 0x41 h x x.rnd.code]
  | .vmul h x => [vectorSlot 0x42 h x x.rnd.code]
  | .vfma h x => [vectorSlot 0x43 h x x.rnd.code]
  | .vfms h x => [vectorSlot 0x44 h x x.rnd.code]
  | .vmin h x => [vectorSlot 0x45 h x x.rnd.code]
  | .vmax h x => [vectorSlot 0x46 h x x.rnd.code]
  | .vabs h x => [vectorSlot 0x47 h x x.rnd.code]
  | .vneg h x => [vectorSlot 0x48 h x x.rnd.code]
  | .vclmp h x => [vectorSlot 0x49 h x x.rnd.code]
  | .vcmp h x => [vectorSlot 0x4A h x x.rnd.code]
  | .vsel h x => [vectorSlot 0x4B h x x.rnd.code]
  | .vand h x => [vectorSlot 0x4C h x x.rnd.code]
  | .vor h x => [vectorSlot 0x4D h x x.rnd.code]
  | .vxor h x => [vectorSlot 0x4E h x x.rnd.code]
  | .vnot h x => [vectorSlot 0x4F h x x.rnd.code]
  | .vshl h x => [vectorSlot 0x50 h x x.rnd.code]
  | .vshr h x => [vectorSlot 0x51 h x x.rnd.code]
  | .vsra h x => [vectorSlot 0x52 h x x.rnd.code]
  | .vcvt h x => [vectorSlot 0x53 h x x.rnd.code]
  | .vexp2 h x => [vectorSlot 0x54 h x x.rnd.code]
  | .vlog2 h x => [vectorSlot 0x55 h x x.rnd.code]
  | .vrcp h x => [vectorSlot 0x56 h x x.rnd.code]
  | .vrsq h x => [vectorSlot 0x57 h x x.rnd.code]
  | .vsum h x => [vectorSlot 0x58 h x x.rnd.code]
  | .vrmx h x => [vectorSlot 0x59 h x x.rnd.code]
  | .vperm h x => [vectorSlot 0x5A h x x.rnd.code]
  | .vshuf h x p => [vectorSlot 0x5B h x p.code]
  | .vbcst h x => [vectorSlot 0x5C h x x.rnd.code]
  | .vsld h x => [vectorSlot 0x5D h x x.rnd.code]
  | .vmov h x => [vectorSlot 0x5E h x x.rnd.code]
  | .vgth h x => [vectorSlot 0x5F h x x.rnd.code]
  | .vsct h x => [vectorSlot 0x60 h x x.rnd.code]
  | .vmsk h x => [vectorSlot 0x61 h x x.rnd.code]
  | .vcnt h x => [vectorSlot 0x62 h x x.rnd.code]
  | .vidx h x => [vectorSlot 0x63 h x x.rnd.code]
  | .vchk h x => [vectorSlot 0x64 h x x.rnd.code]
  | .vscl h x => [vectorSlot 0x65 h x x.rnd.code]
  | .vqnt h x => [vectorSlot 0x66 h x x.rnd.code]
  | .vdqn h x => [vectorSlot 0x67 h x x.rnd.code]
  | .rngb h x => [vectorSlot 0x68 h x x.rnd.code]
  | _ => []

/-- Bytes of a control word. -/
def wordBytes (w : Word) : List Byte := bytesOfNat 4 w.toNat

/-- Bytes of a slot. -/
def slotBytes (s : BitVec 96) : List Byte := bytesOfNat 12 s.toNat

/-- The bytes of an instruction in the memory of sequencer `q`; none for a device step. -/
def encode (q : Sq) (i : Instr) : List Byte :=
  match encodeControl i with
  | some (w, w2) =>
    match q with
    | .ctl => wordBytes w ++ (match w2 with
        | some v => wordBytes v
        | none => [])
    | _ =>
      match i with
      | .add h .. | .sub h .. | .mul h .. | .mulh h .. | .mulhn h .. | .div h .. | .divn h .. | .mod h .. | .modn h ..
      | .and h .. | .or h .. | .xor h .. | .not h .. | .shl h .. | .shr h .. | .sra h .. | .min h .. | .minn h ..
      | .max h .. | .maxn h .. | .clz h .. | .popc h .. | .mov h .. | .addp h .. | .subp h .. | .madp h ..
      | .sel h .. | .cmp h .. | .cmpi h .. | .addi h .. | .subi h .. | .andi h .. | .ori h .. | .xori h ..
      | .shli h .. | .shri h .. | .srai h .. | .movi h .. | .movh h .. | .br h .. | .bra h .. | .jmp h ..
      | .call h .. | .ret h | .loop h .. | .lexit h .. | .sig h .. | .wait h .. | .cset h .. | .cwait h ..
      | .csrr h .. | .csrw h .. | .nop h | .halt h | .join h | .dbrk h => slotBytes (seqSlot h w)
      | _ => []
  | none => (encodeSlots i).flatMap slotBytes

/-! ## The host's question -/

/-- The index at which the host's words are decoded, so that displacements of either sign stay in the memory. -/
def tableIdx : Nat := 8192

/-- The instruction of a word of the opcode table. Its rows with bits are control words of 32 bits; a longer row
of one or two slots is read in the compute stream. -/
def decodeTableWord (nbits w : Nat) : Option Instr :=
  match decode (if nbits ≤ 64 then .ctl else .comp) tableIdx (bytesOfNat 36 w) with
  | .ok (i, _) => some i
  | .error _ => none

end Sys2Proof
end

