-- ==== Sys2Proof/Machine/Maps.lean ====
section
/-!
DEFINITION. Operations on sorted maps (Word.lean, SMap): an absent key reads as a default, and writing the default
removes the entry, so equal maps are equal data.
-/
namespace Sys2Proof

/-- The value of a key, or the default. -/
def SMap.get {α : Type} (d : α) : SMap α → Nat → α
  | [], _ => d
  | (k', v) :: r, k => if k' = k then v else SMap.get d r k

/-- The value of a key, if it is listed. -/
def SMap.find {α : Type} : SMap α → Nat → Option α
  | [], _ => none
  | (k', v) :: r, k => if k' = k then some v else SMap.find r k

/-- Sets a key. -/
def SMap.set {α : Type} : SMap α → Nat → α → SMap α
  | [], k, v => [(k, v)]
  | (k', v') :: r, k, v =>
    if k < k' then (k, v) :: (k', v') :: r
    else if k' = k then (k, v) :: r
    else (k', v') :: SMap.set r k v

/-- Removes a key. -/
def SMap.del {α : Type} : SMap α → Nat → SMap α
  | [], _ => []
  | (k', v) :: r, k => if k' = k then SMap.del r k else (k', v) :: SMap.del r k

/-- Writes a key; writing the default removes the entry. -/
def SMap.put {α : Type} [DecidableEq α] (d : α) (m : SMap α) (k : Nat) (v : α) : SMap α :=
  if v = d then m.del k else m.set k v

/-- Keys strictly rising. -/
def SMap.sorted {α : Type} : SMap α → Bool
  | [] => true
  | [_] => true
  | (k, _) :: (k', v') :: r => decide (k < k') && SMap.sorted ((k', v') :: r)

/-- The canonical form: keys strictly rising, no entry equal to the default. -/
def SMap.canon {α : Type} [DecidableEq α] (d : α) (m : SMap α) : Bool :=
  m.sorted && m.all (fun kv => kv.2 != d)

end Sys2Proof
end

