-- ==== Sys2Proof/Machine/State.lean ====
section
/-!
DEFINITION. The state of one package: everything the manual gives it, as plain data (01 to 16), the model's own
fields (focus, agenda, rr, last, free, and the contexts' names), the reasons a step can stop, and the state after reset.
Register files and sets are sorted maps whose absent keys read as the value the docstring names.
-/
namespace Sys2Proof.Machine

/-! ## Memory -/

/-- State of a vacancy unit (R165). -/
inductive UState where
  | vacated | present | lost
  deriving DecidableEq, Repr

/-- A memory: its nonzero bytes by address, strictly rising, and the units that are not vacated. Bytes of a
vacated or lost unit read as zero (R166, R176). `gone` are the ranges of addresses whose stack has left the package with its die: their
granules are lost and keep nothing written to them (R14, R179); `told` are those of them whose LOST has been taken (R176, log 41). -/
structure Mem where
  cells : List Host.Cell
  units : SMap UState
  gone  : List (Nat × Nat) := []
  told  : SMap Bool := []
  deriving DecidableEq, Repr

/-! ## Sequencers -/

/-- An active hardware loop (R73): its counter, and the indices of its body's first and last word. -/
structure LoopSt where
  lc    : BitVec 2
  first : Nat
  last  : Nat
  deriving DecidableEq, Repr

/-- A filled bypass latch (R60): the result, and the schedule cycle from which it reads. -/
structure Latch where
  val : VWord
  due : Nat
  deriving DecidableEq, Repr

/-- A broadcast in progress at one sequencer (R76, R390): its number, the index of its first word, its length in words,
the words done in the running iteration, iterations left (the running one included), skew slots left, and whether
LEXIT .cancel has struck it (R79). -/
structure Bcast where
  no     : Nat
  first  : Nat
  len    : Nat
  pos    : Nat
  left   : Nat
  skew   : Nat
  cancel : Bool
  deriving DecidableEq, Repr

/-- Whether a sequencer issues words (R44, R53). -/
inductive Run where
  | running | halted | arrived
  deriving DecidableEq, Repr

/-- What a sequencer may skip once after a resume: the watch test (R322), a DBRK (R377). -/
structure Once where
  watch : Bool
  dbrk  : Bool
  deriving DecidableEq, Repr

/-- One sequencer of a context (R48). s registers and lc read 0 where absent. `owed` is the signal that a WS word
carrying JOIN still has to make (R384; 0xFF none). -/
structure Seqr where
  pc      : Nat
  epc     : Word
  regs    : SMap Word
  preds   : BitVec 8
  lc      : SMap Word
  loops   : List LoopSt
  latches : List Latch
  run     : Run
  cycHi   : Word
  bcast   : Option Bcast
  armed   : Option Bcast
  owed    : BitVec 8
  once    : Once
  deriving DecidableEq, Repr

/-! ## Results in flight and engine commands -/

/-- Where a result lands (R56, R319). `elems w at'` is a list of (lane, local address) of elements of `w` bytes; the
result's lanes have as many bits. -/
inductive Dest where
  | none
  | reg (n : BitVec 5)
  | pred (n : BitVec 3)
  | vreg (n : BitVec 5)
  | mask (n : BitVec 3)
  | elems (w : Nat) (at' : List (Nat × Nat))
  deriving DecidableEq, Repr

/-- A result that has not landed: its sequencer, destination, the bits it writes and their value, the schedule cycle
of its landing, the semaphore it signals then (R336; 0xFF none), the sticky flags it sets then (R374) and the leg that then holds
them (R217), and the number of its vector word (R71; 0 for others). One that has performed its signal and written its stream elements
while the joined schedule stood still is `early`; `old` is then its veil: what words of the schedule read in those elements until
the landing (address, old byte, old state of its unit; log 32). -/
structure Flight where
  sq   : Sq
  dest : Dest
  val  : VWord
  mask : VWord
  due  : Nat
  sig  : BitVec 8
  flags : BitVec 5
  leg  : Option Nat
  vno  : Nat
  early : Bool := false
  old  : List (Nat × Byte × UState) := []
  deriving DecidableEq, Repr

/-- A copy command (R66, R123): its word and index; the addresses, the length (of a piece) and the second
length-register value (pieces, or the target member) read at issue; the list entries read so far, or the words of the
records read at issue; the done-count; whether LEXIT .cancel struck it; the legs that had ended at issue (R220) and the
commands issued to the other channel by then (R368); the issuing context's stamp (R177); the broadcast that issued it;
whether the watch test is skipped once (R322); whether its chained matrix word has been cancelled (R79). -/
structure Cmd where
  word   : Instr
  idx    : Nat
  dst    : Nat
  src    : Nat
  len    : Nat
  arg    : Nat
  list   : List Nat
  dc     : Nat
  cancel : Bool
  legs   : Nat
  other  : Nat
  stamp  : BitVec 16
  bno    : Nat
  once   : Bool
  mxCancel : Bool := false
  deriving DecidableEq, Repr

/-- One copy channel: its active and its shadow command registers, and counts of commands issued and retired. -/
structure Chan where
  active  : Option Cmd
  shadow  : Option Cmd
  issued  : Nat
  retired : Nat
  deriving DecidableEq, Repr

/-- A matrix command (R66): its word; the descriptors of its streams as they stood at issue (R181, R283); its index;
whether it came chained (R70), and the wait it then still has to make; the broadcast that issued it; its number among the
matrix words; whether ACVT has put its row groups in flight (R352); the exponents that SETX read first (R283); the schedule cycle in
which it retires, where the manual fixes it (R56, R406); the cycle in which a replay window retained it (R282). -/
structure MCmd where
  op      : MxOp
  f       : MxF
  wait    : BitVec 8
  sig     : BitVec 8
  da      : BitVec 256
  dm      : BitVec 256
  idx     : Nat
  chained : Bool
  cancel  : Bool
  bno     : Nat
  no      : Nat
  rows    : Bool
  exps    : List (BitVec 16)
  due     : Option Nat
  born    : Nat
  deriving DecidableEq, Repr

/-- The matrix array's command registers. -/
structure MxChan where
  active  : Option MCmd
  shadow  : Option MCmd
  issued  : Nat
  retired : Nat
  deriving DecidableEq, Repr

/-- A marker of MARK (R71): the engine (0 inbound, 1 outbound, 2 vector, 3 matrix), the number of commands issued to it up to
the MARK, and the sequencers of which a word of the MARK's cycle may still count (R401). -/
structure Marker where
  eng  : Nat
  upTo : Nat
  live : List Sq
  deriving DecidableEq, Repr

/-! ## Tiles and replay windows -/

/-- A tile: elements of 48 bits by 64·row + column (absent: 0), and the row exponents of 16 bits (absent: 0). A
block-partial tile has no exponents (R144, R151). -/
structure Tile where
  elems : SMap (BitVec 48)
  exps  : SMap (BitVec 16)
  deriving DecidableEq, Repr

/-- The replay window of one tile (R282): the snapshot, the words retained since, and whether it is broken. -/
structure Window where
  snap   : Tile
  words  : List MCmd
  broken : Bool
  deriving DecidableEq, Repr

/-! ## Legs -/

/-- Where a reduction stands (R303, R304, R308): at its home slice, or with a core of the home's die; on a link to it; or applied,
with its acknowledge still on the way. -/
inductive RedStage where
  | here
  | sent
  | done
  deriving DecidableEq, Repr

/-- A reduction on its way to its home slice (R225, R226, R304): its kind (0 RED, 1 REDF value, 2 REDO, 3 REDF shape),
operation, size, format and operand; the named address and its physical address; for the shape form the two element
addresses, virtual and physical; the issuer: its context (0: another package), member, core, SUPSTEP, LEGNO and stamp (R177, R427);
the scope of its release; the TAG of its message, where it stands, and the link and direction on which its acknowledge goes; whether it
had reached its slice when a promotion started there (R161); its context's root word (0: another package). `e2` is 0 where R429 forms none (R304). -/
structure Red where
  kind  : Nat
  op    : AmoOp
  size  : Size
  ty    : Fmt
  val   : BitVec 64
  va    : BitVec 64
  pa    : Nat
  v1    : BitVec 64
  e1    : Nat
  v2    : BitVec 64
  e2    : Nat
  cid   : Nat
  lid   : BitVec 48
  idx   : Nat
  core  : Nat
  sup   : Word
  legno : Word
  stamp : BitVec 16
  scope : Scope
  tag   : Nat
  stage : RedStage
  reply : Option (Nat × Bool)
  early : Bool := false
  root  : BitVec 64 := 0
  deriving DecidableEq, Repr

/-- The atomic that ends a leg (R36, R357, R360): AMOC when `cmp` holds the expected value; `scope` is its release scope. -/
structure Atomic where
  op   : AmoOp
  cmp  : Option (BitVec 64)
  size : Size
  val  : BitVec 64
  va   : BitVec 64
  pa   : Nat
  rel  : Bool
  scope : Scope
  deriving DecidableEq, Repr

/-- A leg's writes in program order (R226, R430): stored bytes by physical address, or a REDO. -/
inductive LegOp where
  | store (bs : List (Nat × Byte))
  | redo (r : Red)
  deriving DecidableEq, Repr

/-- What a squash restores (R216): the control sequencer, its results in flight, the schedule cycle, and the number of
barriers issued. -/
structure Checkpoint where
  seqr    : Seqr
  flights : List Flight
  t       : Nat
  bars    : Nat
  deriving DecidableEq, Repr

/-- A leg (R32 to R39): its number in the member; its key fields; the retirement count, and the value that a CSRW gives it (R372); the store buffer by physical
address; the granules that hold entries (R33); its writes in program order (R226, R430); the granules read; the sticky
flags its loads set (R217); its start checkpoint; its atomic; whether the innkeeper has pinned it (R213). -/
structure Leg where
  no     : Nat
  sup    : Word
  phase  : Bool
  legno  : Word
  count  : Nat
  preset : Option Nat
  buf    : SMap Byte
  grans  : List Nat
  reads  : List Nat
  log    : List LegOp
  held   : BitVec 5
  check  : Option Checkpoint
  atomic : Option Atomic
  pinned : Bool
  deriving DecidableEq, Repr

/-- The control sequencer's pending step (R497): the value of an atomic, or a barrier (its number, .comm, operation,
operand, destination register); with the index of its word. `sent` says that the atomic is on its way over a link. -/
inductive Pend where
  | atomic (idx : Nat) (d : BitVec 5) (a : Atomic) (legNo : Nat) (sent : Bool)
  | barrier (idx : Nat) (n : Nat) (comm : Bool) (op : BarOp) (val : Word) (d : BitVec 5)
  deriving DecidableEq, Repr

/-- A writer in a member's list (R232): core and bank, or a hart (0x8000 + hart). -/
abbrev Writer := Nat

/-- A waiting WAITM (R229): physical address, size, condition, operand; the bytes of its word that stand in the member's own leg
buffer (R215); the value that has satisfied it, and who wrote that (R232); a tested value lay in a vacated unit, or in a lost one
(R488). -/
structure Waiter where
  pa   : Nat
  size : Size
  cond : WCond
  val  : BitVec 64
  own  : List (Nat × Byte)
  woke : Option (BitVec 64)
  by'  : Option Writer
  vac  : Bool
  lost : Bool
  deriving DecidableEq, Repr

/-! ## Outriders -/

/-- The declaration a task holds open (R242): its object. -/
structure Decl where
  base : Nat
  size : Nat
  deriving DecidableEq, Repr

/-- What an outrider context is: its sequence number, pool, pool slot, record and earlier aborts (R233 to R236). -/
structure TaskId where
  seq    : BitVec 64
  pool   : Nat
  slot   : Nat
  record : List Byte
  aborts : Word
  deriving DecidableEq, Repr

/-! ## Contexts -/

/-- What a context is (R40, R271). -/
inductive CKind where
  | regular
  | task (id : TaskId)
  | handler (of : Nat)
  deriving DecidableEq, Repr

/-- Where a context stands: a bank of its core (R42), or a slot of the spill area (R277). -/
inductive Loc where
  | bank (n : Nat)
  | slot (n : Nat)
  deriving DecidableEq, Repr

/-- What a context is doing (R200, R248, R273, R318). -/
inductive CStat where
  | running
  | trapped
  | held
  | handled
  | finished
  | aborting
  | inverse
  | stopped
  deriving DecidableEq, Repr

/-- A trap as its access or word found it: cause and TVAL (R264), the fields of the fault record (R201, R296), the
loss record of a LOST (R178), the sticky flags the access sets (R334), the lost words that become vacated as the
trap is taken (R176): space, first address, length; the sequencer that raised it; whether it came from a command or a pending step, so
that this sequencer's resume point is not EPC (R333, R497); and whether it is the fault of a plane fill, which no word raised
(R83). -/
structure TrapRec where
  cause : Nat
  tval  : Word
  vaddr : BitVec 64
  acc   : BitVec 3
  lvl   : BitVec 2
  tlost : Bool
  dc    : Word
  loss  : Option (List Byte)
  flags : BitVec 5
  lost  : List (Space × Nat × Nat)
  sq    : Sq
  held  : Bool
  place : Bool
  deriving DecidableEq, Repr

/-- A context (R22, R42). `cid` is the model's name of it. `bars` counts its BARS; `replay` the long words that the
control sequencer still re-executes alone after a squash; `vno`, `bno` and `legs` number its vector words, broadcasts and
ended legs. s, lc, sems, desc, v, acc and bp read 0 where absent; `semT` holds the semaphores
as the waits of the running long word test them, `semS` as they stood at its start, less what has been taken at once (R65, R444); m reads all ones. `fresh` says that its descriptors are
still to be loaded from its plane; `again` that its pending atomic is to be performed again, or its failed barrier to trap, before any word (R497); `back` holds the
value of its pending step while a schedule-cycle stop holds it back (R318); `leaving` says that it is to leave its core and waits
for the end of the drain (R200, R274); `late` are the flags that landed in the running
schedule cycle (R374), `landed` the semaphores that results signalled as they landed in the running cycle (R65), each with whether it rose; `want` says that an escape waits for the open leg (R213); `hold` are the counts of
copy commands that a waiting .ord or .rel still needs retired (R358, R449); `seen` is the cycle of its last activity (R43); `bills` counts waybills; `inv` is the
waybill whose inverse runs. -/
structure Ctx where
  cid    : Nat
  lid    : BitVec 48
  idx    : Nat
  coord  : Nat × Nat × Nat × Nat
  kind   : CKind
  core   : Nat
  loc    : Loc
  stat   : CStat
  bars   : Nat
  -- launch parameters
  root   : BitVec 64
  plots  : Nat
  noxf   : Bool
  nocan  : Bool
  novec  : Bool
  nomx   : Bool
  dmode  : BitVec 2
  size   : Nat
  param  : BitVec 64
  image  : BitVec 64
  pimage : Option (BitVec 64)
  -- progress
  sup    : Word
  phase  : Bool
  legno  : Word
  joined : Bool
  t      : Nat
  replay : Nat
  -- registers
  ctl    : Seqr
  load   : Seqr
  store  : Seqr
  comp   : Seqr
  sems   : SMap (BitVec 20)
  semT   : SMap (BitVec 20)
  semS   : SMap (BitVec 20)
  cbits  : BitVec 16
  cbitsT : BitVec 16
  desc   : SMap (BitVec 256)
  v      : SMap VWord
  m      : SMap (BitVec 64)
  acc    : SMap Tile
  bp     : SMap Tile
  sticky : BitVec 5
  late   : BitVec 5
  landed : List (BitVec 8 × Bool)
  cause  : Word
  tval   : Word
  hen    : Bool
  hent   : BitVec 14
  -- results in flight and engines
  flight : List Flight
  vno    : Nat
  bno    : Nat
  inb    : Chan
  outb   : Chan
  mx     : MxChan
  offers : List MCmd
  marks  : List Marker
  wins   : SMap Window
  -- legs and waits
  leg    : Option Leg
  legs   : Nat
  ended  : List Leg
  pend   : Option Pend
  again  : Bool
  back   : Option (BitVec 64)
  waitm  : Option Waiter
  hold   : Option (Nat × Nat)
  impr   : List (Nat × Word)
  trap   : Option TrapRec
  listed : List Writer
  listOv : Bool
  halting : Bool
  want   : Bool
  leaving : Bool
  abop   : Bool
  fresh  : Bool
  seen   : BitVec 64
  -- local memory
  sp     : Mem
  can    : Mem
  -- outriders
  decl   : Option Decl
  bills  : Nat
  inv    : Option Nat
  deriving DecidableEq, Repr

/-! ## Cores -/

/-- A configuration plane (R80): the image address it holds and the image's bytes by offset (absent: 0), or none; the offsets of the
8-byte words of its instruction memories that hold an uncorrectable error (R286). -/
structure Plane where
  image : BitVec 64
  bytes : SMap Byte
  bad   : List Nat := []
  deriving DecidableEq, Repr

/-- A running fill of a shadow plane (R81, R24): the image, its pages (offset in the image, physical address), and
whether the planes flip when it completes (a fill for a starting or resuming context). -/
structure Fill where
  image : BitVec 64
  pages : List (Nat × Nat)
  flip  : Bool
  cid   : Option Nat
  deriving DecidableEq, Repr

/-- A TLB entry (R196): ASID, G, the page's virtual base and bits, its physical base, rights and dirty mark. -/
structure TlbEnt where
  asid  : BitVec 16
  glob  : Bool
  vbase : Nat
  bits  : Nat
  pbase : Nat
  flags : BitVec 8
  deriving DecidableEq, Repr

/-- A range of the watch list (R320). -/
structure Watch where
  key : Nat
  len : Nat
  deriving DecidableEq, Repr

/-- A core: the active context; the active and shadow planes; a running fill of the shadow plane (image and
requesting context); TLB; the stream TLBs of its copy channels (R196: 0 source and 1 destination of the inbound one, 2 and 3 of the
outbound one; each the entry of the current page and, fetched ahead, that of the next); watch list, filter and overflow; the LNCH unit (next HSEQ; the statuses of its most
recent launches, newest first); the fence; a fault response that waits for the end of a schedule-cycle stop (R318; true: abort);
the debug window's registers by offset (absent: 0). -/
structure Core where
  active   : Option Nat
  plane    : Option Plane
  shadow   : Option Plane
  fill     : Option Fill
  tlb      : List TlbEnt
  streams  : SMap (List TlbEnt)
  watch    : List Watch
  filter   : List Nat
  allOnes  : Bool
  overflow : Bool
  lnchNext : BitVec 64
  lnchDone : List (BitVec 48 × BitVec 8)
  fenced   : Bool
  resp     : Option Bool
  fdue     : Bool
  dbg      : SMap (BitVec 64)
  deriving DecidableEq, Repr

/-! ## Launches and queues -/

/-- The fields of a launch record (R15). -/
structure LRec where
  image : BitVec 64
  entC  : Nat
  entL  : Nat
  entS  : Nat
  entX  : Nat
  s     : Nat
  d     : Nat
  c     : Nat
  k     : Nat
  prio  : BitVec 2
  cls   : Bool
  dmode : BitVec 2
  plots : Nat
  noxf  : Bool
  nocan : Bool
  novec : Bool
  nomx  : Bool
  param : BitVec 64
  hseq  : BitVec 64
  deps  : List (BitVec 64)
  pool  : BitVec 64
  deriving DecidableEq, Repr

/-- Stage of a launch (R16, R18, R45, R258). -/
inductive LStat where
  | waiting
  | ready
  | running
  | done (status : BitVec 8)
  deriving DecidableEq, Repr

/-- State of a task (R235). -/
inductive TStat where
  | queued | running | finished
  deriving DecidableEq, Repr

/-- An uncommitted task of a company. -/
structure Task where
  id   : TaskId
  stat : TStat
  cid  : Option Nat
  deriving DecidableEq, Repr

/-- A row of the commutativity table (R237). -/
structure CRow where
  comm  : BitVec 64
  exact : BitVec 64
  valid : Bool
  deriving DecidableEq, Repr

/-- A registration in the concurrency table (R240). -/
structure Reg where
  seq  : BitVec 64
  base : Nat
  size : Nat
  kind : Nat
  deriving DecidableEq, Repr

/-- An accepted launch and its company. `parents` are the launches above it, from the one whose LNCH submitted it upwards.
`stale` says that its queue slot has been enabled again since (R256); `started` is the cycle of its placement (R261), `began`
the cycle in which its first member started (R258). `missed` are the pairs of an issuing and another task whose miss stands
counted (R244). -/
structure Launch where
  lid     : BitVec 48
  src     : Nat
  record  : LRec
  root    : BitVec 64
  stat    : LStat
  depsOk  : List Nat
  since   : BitVec 64
  aged    : Nat
  reserve : Bool
  started : BitVec 64
  began   : Option (BitVec 64)
  stale   : Bool
  retired : List Nat
  parents : List (BitVec 48)
  seq     : BitVec 64
  tasks   : List Task
  table   : SMap CRow
  trapmiss : Bool
  regs    : List Reg
  missed  : List (BitVec 64 × BitVec 64)
  displaced : Bool
  deriving DecidableEq, Repr

/-- A completion record that waits to be written (R258): HSEQ, status, launch identifier, cycles. -/
structure Done where
  hseq   : BitVec 64
  status : BitVec 8
  lid    : BitVec 48
  cyc    : BitVec 64
  deriving DecidableEq, Repr

/-- A queue slot (R252, R253): the control block that it is bound to, in QCBA's form; QCBA as it was last written (`reg`); the root word read at ENABLE, the LTAIL last read, whether it is stopped (and `held`: by
a completion record that could not be written) or being destroyed, and the completion records that wait. -/
structure Queue where
  qcba    : BitVec 64
  reg     : BitVec 64
  root    : BitVec 64
  ltail   : Word
  stopped : Bool
  held    : Bool
  closing : Bool
  waits   : List Done
  deriving DecidableEq, Repr

/-! ## Links -/

/-- One direction of a link (R305 to R309): the sender's next SEQ, replay buffer, messages waiting (each a list of
slots), flits in the air, the point of a resend; the receiver's E, nak_out, flits
accepted since it last sent, the count of failures of each half. -/
structure Dir where
  seq    : BitVec 12
  buf    : List (BitVec 12 × List (BitVec 64))
  air    : List Flit
  msgs   : List (List (BitVec 64))
  resend : Option (BitVec 12)
  exp    : BitVec 12
  nakOut : Bool
  owes   : Nat
  fail0  : Nat
  fail1  : Nat
  deriving DecidableEq, Repr

/-- A die-to-die module or a Varob port: width code (0b10 64 lanes, 0b01 32, 0b00 disabled), retrains, whether a retrain
is in progress, the lanes it keeps, and the two directions. -/
structure Link where
  width    : BitVec 2
  retrains : Word
  training : Bool
  half     : Option Bool
  up       : Dir
  down     : Dir
  deriving DecidableEq, Repr

/-- A batch to another package (R311). -/
structure OutBatch where
  src    : Nat
  dst    : Nat
  clock  : List Word
  stores : List (Nat × List Byte)
  deriving DecidableEq, Repr

/-- A request of another package that this one has sent on (R310): the link and direction of its answer, its TAG and CORE, and the TAG
under which it goes on (log 109). -/
structure Relay where
  link : Nat
  back : Bool
  tag  : Nat
  core : Nat
  out  : Nat
  deriving DecidableEq, Repr

/-- A read or a write of a core in the memory of another package that is under way (R303, R310; log 109): its context and who makes it
(0 the control sequencer, 1 and 2 the copy channels); the address, of an aligned 8-byte word for a read; its TAG and CORE; whether the
answer to a read has come. A write is gone with its acknowledge. -/
structure Far where
  cid   : Nat
  eng   : Nat
  pa    : Nat
  tag   : Nat
  core  : Nat
  write : Bool
  done  : Bool
  deriving DecidableEq, Repr

/-! ## Moves of pages -/

/-- A move of a page that has set BUSY and not yet switched the leaf (R205): the root and an address by which it was asked for, where
the leaf stands, the bits of the page, its old and new place, and the tier that it goes to. -/
structure Move where
  root : BitVec 64
  va   : Nat
  leaf : Nat
  bits : Nat
  src  : Nat
  dst  : Nat
  tier : Tier
  deriving DecidableEq, Repr

/-! ## Events -/

/-- A record waiting for the event ring (R296): its TYPE, its 64 record bytes, and the context it holds suspended. -/
structure Event where
  type  : Nat
  bytes : List Byte
  cid   : Option Nat
  deriving DecidableEq, Repr

/-- A hart (R328, R329): running or held, and what its HSTART reads; whether it started at the boot code of the flash; its TLB (R293). -/
structure Hart where
  running : Bool
  start   : BitVec 64
  boot    : Bool := false
  tlb     : List TlbEnt := []
  deriving DecidableEq, Repr

/-! ## Accesses of harts and adapters -/

/-- What the last access of a hart or a port has completed with (R292, R294, R298 to R300): a write; the bytes of a read; a poisoned
completion; Unsupported Request; a page fault or an access fault; the answer of a translation request: the page's physical base, its
bits and the low byte of its leaf. -/
inductive Reply where
  | none
  | done
  | data (bytes : List Byte)
  | poisoned
  | unsupported
  | pageFault
  | accessFault
  | translated (base bits : Nat) (flags : BitVec 8)
  deriving DecidableEq, Repr

/-- An access of a hart (`who` its number) or of a port (`who` 64 and its number) that is under way (R210): its first address, the
address space and the virtual address that it was translated from, the bytes of a write, the units (address, length) that it has not performed, the bytes that a read has found, and whether some were lost. -/
structure BusJob where
  who   : Nat
  base  : Nat
  via   : Option (BitVec 16 × Nat)
  write : Option (List Byte)
  units : List (Nat × Nat)
  got   : SMap Byte
  lost  : Bool
  deriving DecidableEq, Repr

/-! ## Whose move it is -/

/-- A turn: one issue of a core (joined: its long word; forked: the next word of sequencer `q`), or a device step. -/
inductive Turn where
  | issue (core : Nat) (q : Sq)
  | event (i : Instr)
  deriving DecidableEq, Repr

/-- What the word just executed did: it issued; it could not issue; it trapped; its context left the core. -/
inductive Last where
  | issued
  | stalled
  | trapped
  | gone
  deriving DecidableEq, Repr

/-- The kind of an access, as race detection tells them apart (R232): of a leg, an atomic, a load or store of an outrider task, an
atomic of one, a copy command, or a hart. -/
inductive AccCls where
  | leg | atomic | outrider | taskAtomic | bulk | host
  deriving DecidableEq, Repr

/-- Shadow state of a 64-byte sector (R232): last writer, its interval (launch and SUPSTEP; for a hart the intervals that ran at
the write, `also`), the release scope of the write, the bytes written, and the kind of the write. -/
structure Shadow where
  writer : Writer
  lid    : BitVec 48
  sup    : Word
  also   : List (BitVec 48 × Word)
  scope  : Scope
  mask   : BitVec 64
  cls    : AccCls
  deriving DecidableEq, Repr

/-- The package. -/
structure State where
  cycle   : BitVec 64
  -- DRAM
  dram    : Mem
  stamps  : SMap (BitVec 16)
  shadow  : SMap Shadow
  homes   : SMap Nat
  written : SMap Bool
  frames  : List (Nat × Nat × Tier)
  moves   : List Move
  counts  : SMap Nat
  -- memory side
  reds    : List Red
  promos  : List (Nat × BitVec 64)
  innq    : List (Nat × Nat)
  -- scheduler
  launches : List Launch
  queues  : SMap Queue
  horizons : SMap (BitVec 64)
  served  : Nat
  -- cores and contexts
  cores   : SMap Core
  ctxs    : SMap Ctx
  nextCid : Nat
  -- links and domain
  links   : SMap Link
  clocks  : SMap Word
  got     : SMap Word
  batches : List OutBatch
  inbound : List (Nat × Batch)
  inbox   : List (Nat × Bool × List (BitVec 64))
  relays  : List Relay
  fars    : List Far
  -- device window
  fresp   : SMap Nat
  pools   : SMap (BitVec 48)
  evbase  : BitVec 64
  evtail  : BitVec 64
  evhead  : BitVec 64
  evmsi   : BitVec 64
  msia    : BitVec 64
  shva    : BitVec 64
  shkind  : BitVec 2
  /-- SHVA as the running shootdown has taken it. -/
  shfor   : BitVec 64
  shbusy  : Bool
  dctb    : BitVec 64
  cspill  : BitVec 64
  spill   : List Nat
  saved   : SMap Ctx
  lnkst   : SMap (BitVec 64)
  events  : List Event
  msis    : List Word
  msiOut  : List (BitVec 64 × Word)
  harts   : SMap Hart
  flash   : SMap Byte
  bus     : List BusJob
  /-- Requests of adapters that have gone on to another root port: the port they came by, the physical address, the access (R298). -/
  peers   : List (Nat × Nat × BusOp)
  replies : SMap Reply
  atc     : SMap (List TlbEnt)
  invs    : List (Nat × TlbEnt)
  -- reliability and power
  dropped : List Nat
  dooms   : List Nat
  fencedCl : List Nat
  fencedMx : List Nat
  repairs : List (Nat × Nat)
  /-- The calibration that the boot hart has written (R328). -/
  calib   : SMap Byte
  pcap    : BitVec 12
  icap    : SMap (BitVec 11)
  pnow    : BitVec 12
  ipwr    : SMap (BitVec 12)
  ifrq    : SMap (BitVec 11)
  -- the model's own
  focus   : Nat × Sq
  agenda  : List Turn
  rr      : Nat
  last    : Last
  free    : Nat
  deriving DecidableEq, Repr

/-! ## How a step can stop -/

/-- Why the machine stops with a fault. -/
inductive Fault where
  /-- Raised by the meaning of a word when the core in focus has no active context, so there is no machine that could
  execute it (R42). Safe: hardware issues no word there. -/
  | noContext
  /-- Raised by an access of a core, a copy engine or the scheduler whose translated physical address is no DRAM of the
  domain: it lies past the capacity of the tiers (R8), or in a device window, and the manual describes these windows for harts only
  (R294, R314, R325). Safe. -/
  | deviceWindow
  deriving DecidableEq, Repr

/-- Why a step is refused. -/
inductive Refusal where
  /-- An instruction whose meaning is not written. Raised by the dispatch only. Safe. -/
  | notModelled (mnemonic : String)
  deriving DecidableEq, Repr

/-! ## Reset -/

/-- A memory with nothing in it: every unit vacated (R169, R22). -/
def Mem.empty : Mem := { cells := [], units := [] }

/-- A sequencer at the start of a member, but for its entry and scalar registers (R22). -/
def Seqr.start (entry : Nat) (regs : SMap Word) : Seqr :=
  { pc := entry, epc := 0, regs := regs, preds := 1, lc := [], loops := [], latches := [], run := .running, cycHi := 0,
    bcast := none, armed := none, owed := 0xFF, once := { watch := false, dbrk := false } }

/-- An empty copy channel. -/
def Chan.empty : Chan := { active := none, shadow := none, issued := 0, retired := 0 }

/-- An empty matrix array. -/
def MxChan.empty : MxChan := { active := none, shadow := none, issued := 0, retired := 0 }

/-- A core after reset: idle, both planes invalid (R328). -/
def Core.idle : Core :=
  { active := none, plane := none, shadow := none, fill := none, tlb := [], streams := [], watch := [], filter := [], allOnes := false,
    overflow := false, lnchNext := 0, lnchDone := [], fenced := false, resp := none, fdue := false, dbg := [] }

/-- A queue slot after reset: ENABLE = 0 (R328). -/
def Queue.off : Queue := { qcba := 0, reg := 0, root := 0, ltail := 0, stopped := false, held := false, closing := false, waits := [] }

/-- One direction of a link after it is trained for the first time (R305). -/
def Dir.trained : Dir :=
  { seq := 0, buf := [], air := [], msgs := [], resend := none, exp := 0, nakOut := false, owes := 0, fail0 := 0,
    fail1 := 0 }

/-- A link after reset, at 64 lanes (R305). -/
def Link.trained : Link :=
  { width := 2, retrains := 0, training := false, half := none, up := Dir.trained, down := Dir.trained }

/-- A held hart (R329). -/
def Hart.held : Hart := { running := false, start := 0 }

/-- The package right after reset (R328): cores idle, planes invalid, every queue disabled, every window register at its
reset value, every DRAM granule vacated, hart 0 of each die at its boot code. Values the manual does not give are named
in the logs 1 to 8. -/
def State.reset : State :=
  { cycle := 0, dram := Mem.empty, stamps := [], shadow := [], homes := [], written := [], frames := [], moves := [], counts := [], reds := [], promos := [],
    innq := [], launches := [], queues := [], horizons := [], served := 0, cores := [], ctxs := [], nextCid := 1, links := [],
    clocks := [], got := [], batches := [], inbound := [], inbox := [], relays := [], fars := [], fresp := [], pools := [], evbase := 0, evtail := 0, evhead := 0, evmsi := 0, msia := 0,
    shva := 0, shkind := 0, shfor := 0, shbusy := false, dctb := 0, cspill := 0, spill := [], saved := [], lnkst := [], events := [],
    msis := [], msiOut := [],
    harts := [(0, { running := true, start := 0, boot := true }), (8, { running := true, start := 0, boot := true }),
      (16, { running := true, start := 0, boot := true })],
    flash := [], bus := [], peers := [], replies := [], atc := [], invs := [], dropped := [], dooms := [], fencedCl := [], fencedMx := [], repairs := [], calib := [], pcap := 2700, icap := [], pnow := 0,
    ipwr := [], ifrq := [], focus := (0, .ctl), agenda := [], rr := 0, last := .issued, free := 0 }

end Sys2Proof.Machine
end

