-- ==== Sys2Proof/Machine/Memory.lean ====
section
/-!
DEFINITION. One memory: bytes, vacancy units and ECC words (R163 to R176). `u` is the bytes of a vacancy unit and `e`
the bytes of an ECC word: 2 and 8 for local memory, 64 and 64 for DRAM.
-/
namespace Sys2Proof.Machine

/-- The canonical form of a memory: no zero byte, no vacated unit and no untold granule listed, each in rising order. -/
def Mem.wf (m : Mem) : Bool := SMap.canon (0 : Byte) m.cells && m.units.canon UState.vacated && m.told.canon false

/-- The byte at an address (R166: vacated and lost bytes are zero). -/
def Mem.byte (m : Mem) (a : Nat) : Byte := SMap.get 0 m.cells a

/-- `n` bytes from an address on. -/
def Mem.bytes (m : Mem) (a : Nat) : Nat → List Byte
  | 0 => []
  | n + 1 => m.byte a :: Mem.bytes m (a + 1) n

/-- The address lies in a stack that has left the package (R14). -/
def Mem.goneAt (m : Mem) (a : Nat) : Bool := m.gone.any (fun r => decide (r.1 ≤ a) && decide (a < r.2))

/-- The state of the unit that holds an address. A granule of a stack that has left is lost until its LOST is taken (R176),
and vacated from then on (log 41). -/
def Mem.unit (u : Nat) (m : Mem) (a : Nat) : UState :=
  if m.goneAt a then (if m.told.get false (a / u) then .vacated else .lost) else m.units.get .vacated (a / u)

/-- The first address in a range whose unit has the given state. -/
def Mem.first (u : Nat) (m : Mem) (st : UState) (a : Nat) : Nat → Option Nat
  | 0 => none
  | n + 1 => if m.unit u a = st then some a else Mem.first u m st (a + 1) n

/-- Sets one byte, without regard to its unit. -/
def Mem.poke (m : Mem) (a : Nat) (b : Byte) : Mem := { m with cells := SMap.put 0 m.cells a b }

/-- Sets `n` bytes to zero. -/
def Mem.zero (m : Mem) (a : Nat) : Nat → Mem
  | 0 => m
  | n + 1 => Mem.zero (m.poke a 0) (a + 1) n

/-- Sets the state of the unit with number `k`. -/
def Mem.mark (m : Mem) (k : Nat) (st : UState) : Mem := { m with units := m.units.put .vacated k st }

/-- The whole ECC word that holds `a` is among the addresses written (R176). -/
def covers (e : Nat) (as : List Nat) (a : Nat) : Bool :=
  (List.range e).all (fun i => as.contains (a / e * e + i))

/-- Writes one byte of a write that touches the addresses `as` (R167, R176): a vacated unit becomes present; a lost
word becomes present only when the write covers it whole, and otherwise stays lost. -/
def Mem.store1 (u e : Nat) (as : List Nat) (m : Mem) (a : Nat) (b : Byte) : Mem :=
  match m.unit u a with
  | .present => m.poke a b
  | .vacated => if m.goneAt a then m else (m.mark (a / u) .present).poke a b
  | .lost => if covers e as a && !m.goneAt a then (m.mark (a / u) .present).poke a b else m

/-- The write, byte by byte in the list's order, with the addresses of the whole write. -/
def Mem.storeAll (u e : Nat) (as : List Nat) (m : Mem) : List (Nat × Byte) → Mem
  | [] => m
  | (a, b) :: r => Mem.storeAll u e as (m.store1 u e as a b) r

/-- Performs one write of the given bytes (R167, R176). -/
def Mem.store (u e : Nat) (m : Mem) (bs : List (Nat × Byte)) : Mem := m.storeAll u e (bs.map Prod.fst) bs

/-- Vacates the unit that holds `a` (R170). -/
def Mem.vacate (u : Nat) (m : Mem) (a : Nat) : Mem := (m.zero (a / u * u) u).mark (a / u) .vacated

/-- Sets `n` units from number `k` on to a state. -/
def Mem.markAll (m : Mem) (k : Nat) (st : UState) : Nat → Mem
  | 0 => m
  | n + 1 => Mem.markAll (m.mark k st) (k + 1) st n

/-- Marks the ECC word that holds `a` lost (R176). -/
def Mem.lose (u e : Nat) (m : Mem) (a : Nat) : Mem :=
  (m.zero (a / e * e) e).markAll (a / e * e / u) .lost (e / u)

/-- Makes the ECC word that holds `a` present with zero bytes (R494: a ZFIL that covers a lost word). -/
def Mem.heal (u e : Nat) (m : Mem) (a : Nat) : Mem :=
  (m.zero (a / e * e) e).markAll (a / e * e / u) .present (e / u)

/-- A granule of a stack that has left is reported (R176). -/
def Mem.tell (u : Nat) (m : Mem) (a : Nat) : Mem :=
  if m.goneAt a then { m with told := m.told.put false (a / u) true } else m

/-- Vacates every unit of the ECC word that holds `a` (R176: as LOST is taken). -/
def Mem.vacateWord (u e : Nat) (m : Mem) (a : Nat) : Mem :=
  ((m.zero (a / e * e) e).markAll (a / e * e / u) .vacated (e / u)).tell u a

/-- The stack at the addresses from `lo` to `hi` leaves the package (R14, R179). -/
def Mem.dropStack (m : Mem) (lo hi : Nat) : Mem :=
  { cells := m.cells.filter (fun x => !(decide (lo ≤ x.1) && decide (x.1 < hi)))
    units := m.units.filter (fun x => !(decide (lo ≤ 64 * x.1) && decide (64 * x.1 < hi)))
    gone := m.gone ++ [(lo, hi)]
    told := m.told.filter (fun x => !(decide (lo ≤ 64 * x.1) && decide (64 * x.1 < hi))) }

/-- The bytes of consecutive addresses, as a write. -/
def place (a : Nat) : List Byte → List (Nat × Byte)
  | [] => []
  | b :: bs => (a, b) :: place (a + 1) bs

/-- Length in bytes of the run of lost ECC words from address `a`, which starts one, within the range that ends before
`stop` (R178). -/
def Mem.lostRun (u e : Nat) (m : Mem) (stop : Nat) : Nat → Nat → Nat
  | 0, _ => 0
  | fuel + 1, a => if a < stop ∧ m.unit u a = .lost then e + Mem.lostRun u e m stop fuel (a + e) else 0

end Sys2Proof.Machine
end

