-- ==== Sys2Proof/Machine/Numbers.lean ====
section
/-!
DEFINITION. Number formats and rounding (06, R134 to R142): exact values as signed dyadic numbers, decoding every
format of R104, and the one rounding into a format.
-/
namespace Sys2Proof

/-- A value: a finite number (−1)^neg · m · 2^e (zero keeps its sign), an infinity, or a NaN. -/
inductive Num where
  | fin (neg : Bool) (m : Nat) (e : Int)
  | inf (neg : Bool)
  | nan
  deriving DecidableEq, Repr

/-- Exponent bits, fraction bits and bias of a floating-point format (R134). -/
structure FloatFmt where
  fbits : Nat
  bias  : Nat
  top   : Nat
  max   : Nat
  nan   : Nat
  inf   : Option Nat
  deriving DecidableEq, Repr

/-- The layout of a format: `top` is the biased exponent of infinities and NaNs, `max` the largest finite value's
bits, `nan` the canonical NaN (R134, R135). -/
def Fmt.float : Fmt → Option FloatFmt
  | .fp32 => some { fbits := 23, bias := 127, top := 255, max := 0x7F7FFFFF, nan := 0x7FC00000, inf := some 0x7F800000 }
  | .fp16 => some { fbits := 10, bias := 15, top := 31, max := 0x7BFF, nan := 0x7E00, inf := some 0x7C00 }
  | .bf16 => some { fbits := 7, bias := 127, top := 255, max := 0x7F7F, nan := 0x7FC0, inf := some 0x7F80 }
  | .e5m2 => some { fbits := 2, bias := 15, top := 31, max := 0x7B, nan := 0x7E, inf := some 0x7C }
  | .e4m3 => some { fbits := 3, bias := 7, top := 15, max := 0x7E, nan := 0x7F, inf := none }
  | _ => none

/-- 2 to a natural power. -/
def pow2 (n : Nat) : Nat := 2 ^ n

/-- A signed integer as a value. -/
def Num.ofInt (x : Int) (e : Int) : Num := .fin (x < 0) x.natAbs e

/-- The value of a floating-point code (R134). -/
def FloatFmt.value (f : FloatFmt) (width bits : Nat) : Num :=
  let neg := bits / pow2 (width - 1) % 2 = 1
  let mag := bits % pow2 (width - 1)
  let ex := mag / pow2 f.fbits
  let fr := mag % pow2 f.fbits
  if ex = f.top ∧ f.inf.isSome then (if fr = 0 then .inf neg else .nan)
  else if f.inf.isNone ∧ mag = f.nan then .nan
  else if ex = 0 then .fin neg fr (1 - (f.bias : Int) - f.fbits)
  else .fin neg (pow2 f.fbits + fr) ((ex : Int) - f.bias - f.fbits)

/-- One term t(sign, code) of a TS8 byte in units of 2^−6 (R137). -/
def ts8Term (sign code : Nat) : Int :=
  if code = 7 then 0 else if sign = 1 then -(pow2 (6 - code) : Int) else (pow2 (6 - code) : Int)

/-- The weight of a TS8 byte in units of 2^−6 (R137). -/
def ts8Weight (b : Nat) : Int :=
  ts8Term (b / 128 % 2) (b / 16 % 8) + ts8Term (b / 8 % 2) (b % 8)

/-- A two's-complement reading of `w` bits. -/
def signed (w bits : Nat) : Int := if bits < pow2 (w - 1) then (bits : Int) else (bits : Int) - pow2 w

/-- Whether an integer type is signed (R136). -/
def Fmt.isSigned : Fmt → Bool
  | .i8 | .i16 | .i32 => true
  | _ => false

/-- The value of an element's bits (R134, R136 to R138). -/
def Fmt.num (ty : Fmt) (bits : Nat) : Num :=
  match ty.float with
  | some f => f.value ty.bits bits
  | none =>
    match ty with
    | .ts8 => Num.ofInt (ts8Weight bits) (-6)
    | .sc8 => if bits = 255 then .nan else .fin false 1 ((bits : Int) - 127)
    | _ => if ty.isSigned then Num.ofInt (signed ty.bits bits) 0 else .fin false bits 0

/-! ## Exact arithmetic -/

/-- The mantissa of a value at an exponent that is no larger than its own. -/
def atExp (neg : Bool) (m : Nat) (e lo : Int) : Int :=
  let x : Int := (m : Int) * (pow2 (e - lo).toNat : Int)
  if neg then -x else x

/-- The negative of a value. -/
def Num.neg : Num → Num
  | .fin n m e => .fin (!n) m e
  | .inf n => .inf (!n)
  | .nan => .nan

/-- The exact product (R145). -/
def Num.mul : Num → Num → Num
  | .nan, _ => .nan
  | _, .nan => .nan
  | .inf a, .inf b => .inf (a != b)
  | .inf a, .fin b m _ => if m = 0 then .nan else .inf (a != b)
  | .fin a m _, .inf b => if m = 0 then .nan else .inf (a != b)
  | .fin a m e, .fin b n f => .fin (a != b) (m * n) (e + f)

/-- The exact sum; a zero sum takes its sign from R135. -/
def Num.add (rnd : Rnd) : Num → Num → Num
  | .nan, _ => .nan
  | _, .nan => .nan
  | .inf a, .inf b => if a = b then .inf a else .nan
  | .inf a, .fin _ _ _ => .inf a
  | .fin _ _ _, .inf b => .inf b
  | .fin a m e, .fin b n f =>
    if m = 0 ∧ n = 0 then .fin (if a = b then a else rnd = .rdn) 0 0
    else
      let lo := min e f
      let x := atExp a m e lo + atExp b n f lo
      if x = 0 then .fin (rnd = .rdn) 0 0 else Num.ofInt x lo

/-- The exact order of two finite or infinite values: less than. A NaN is never less. −0 equals +0. -/
def Num.lt : Num → Num → Bool
  | .nan, _ => false
  | _, .nan => false
  | .inf a, .inf b => a && !b
  | .inf a, .fin _ _ _ => a
  | .fin _ _ _, .inf b => !b
  | .fin a m e, .fin b n f =>
    let lo := min e f
    decide (atExp a m e lo < atExp b n f lo)

/-- Equality of values; −0 equals +0, and a NaN equals nothing. -/
def Num.same (a b : Num) : Bool := a != .nan && b != .nan && !a.lt b && !b.lt a

/-- The order in which −0 counts below +0 (R463). -/
def Num.below (a b : Num) : Bool :=
  a.lt b || (a.same b && (match a, b with
    | .fin true 0 _, .fin false 0 _ => true
    | _, _ => false))

/-- Magnitude. -/
def Num.abs : Num → Num
  | .fin _ m e => .fin false m e
  | .inf _ => .inf false
  | .nan => .nan

/-- Infinite or NaN. -/
def Num.nonFinite : Num → Bool
  | .fin _ _ _ => false
  | _ => true

/-! ## Rounding -/

/-- The flags that arithmetic sets: OV (bit 1) and NF (bit 0) of STICKY (R143). -/
structure Flags where
  ov : Bool
  nf : Bool
  deriving DecidableEq, Repr

/-- No flag. -/
def Flags.none : Flags := { ov := false, nf := false }

/-- Both results' flags. -/
def Flags.or (a b : Flags) : Flags := { ov := a.ov || b.ov, nf := a.nf || b.nf }

/-- Rounds m / 2^s to an integer (R139, R140). `r` is the random value of sto. -/
def roundShift (rnd : Rnd) (r : Nat) (neg : Bool) (m s : Nat) : Nat :=
  let a := m / pow2 s
  let rem := m % pow2 s
  if rem = 0 then a
  else
    let up : Bool :=
      match rnd with
      | .rne => decide (2 * rem > pow2 s) || (decide (2 * rem = pow2 s) && decide (a % 2 = 1))
      | .rtz => false
      | .rdn => neg
      | .rup => !neg
      | .sto => decide (r < rem * 65536 / pow2 s)
    if up then a + 1 else a

/-- Exponent of the grid on which m · 2^e is rounded with `fbits` fraction bits, never below `qmin`. -/
def gridExp (m : Nat) (e : Int) (fbits : Nat) (qmin : Int) : Int :=
  max ((Nat.log2 m : Int) + e - fbits) qmin

/-- The code of an overflow (R141). -/
def FloatFmt.overflow (f : FloatFmt) (rnd : Rnd) (neg : Bool) : Nat :=
  match f.inf with
  | none => f.max
  | some i =>
    match rnd with
    | .rne => i
    | .sto => i
    | .rtz => f.max
    | .rdn => if neg then i else f.max
    | .rup => if neg then f.max else i

/-- Rounds a value into a floating-point format (R139 to R141): the code and the flags. -/
def FloatFmt.round (f : FloatFmt) (width : Nat) (rnd : Rnd) (r : Nat) : Num → Nat × Flags
  | .nan => (f.nan, { ov := false, nf := true })
  | .inf neg =>
    match f.inf with
    | some i => ((if neg then pow2 (width - 1) else 0) + i, { ov := false, nf := true })
    | none => (f.nan, { ov := false, nf := true })
  | .fin neg m e =>
    let sign := if neg then pow2 (width - 1) else 0
    if m = 0 then (sign, Flags.none)
    else
      let qmin : Int := 1 - (f.bias : Int) - f.fbits
      let q := gridExp m e f.fbits qmin
      let k := if e < q then roundShift rnd r neg m (q - e).toNat else m * pow2 (e - q).toNat
      let code := (q - qmin).toNat * pow2 f.fbits + k
      if code ≤ f.max then (sign + code, Flags.none)
      else
        let c := f.overflow rnd neg
        (sign + c, { ov := true, nf := decide (f.inf = some c) })

/-- Rounds a value to an integer under a mode. -/
def roundInt (rnd : Rnd) (r : Nat) (neg : Bool) (m : Nat) (e : Int) : Int :=
  let k := if e < 0 then roundShift rnd r neg m (-e).toNat else m * pow2 e.toNat
  if neg then -(k : Int) else (k : Int)

/-- The range of an integer type (R136). -/
def Fmt.range (ty : Fmt) : Int × Int :=
  if ty.isSigned then (-(pow2 (ty.bits - 1) : Int), (pow2 (ty.bits - 1) : Int) - 1) else (0, (pow2 ty.bits : Int) - 1)

/-- The two's-complement code of an integer, modulo 2^w. -/
def wrap (w : Nat) (x : Int) : Nat := (x % (pow2 w : Int)).toNat

/-- Converts a value to an integer type, saturating (R142, R471). -/
def Fmt.toInt (ty : Fmt) (rnd : Rnd) (r : Nat) : Num → Nat × Flags
  | .nan => (0, { ov := false, nf := true })
  | .inf neg =>
    (wrap ty.bits (if neg then ty.range.1 else ty.range.2), { ov := true, nf := false })
  | .fin neg m e =>
    let x := roundInt rnd r neg m e
    if x < ty.range.1 then (wrap ty.bits ty.range.1, { ov := true, nf := false })
    else if ty.range.2 < x then (wrap ty.bits ty.range.2, { ov := true, nf := false })
    else (wrap ty.bits x, Flags.none)

/-- Converts a value into a float or an integer type (R139 to R142). -/
def Fmt.ofNum (ty : Fmt) (rnd : Rnd) (r : Nat) (x : Num) : Nat × Flags :=
  match ty.float with
  | some f => f.round ty.bits rnd r x
  | none => ty.toInt rnd r x

/-- The integer nearest m · 2^e, ties to even (R146). -/
def roundNe (x : Int) (e : Int) : Int := roundInt .rne 0 (x < 0) x.natAbs e

end Sys2Proof
end

