-- ==== Sys2Proof/Machine/Ctxs.lean ====
section
/-!
DEFINITION. Reading and writing the parts of a context: sequencers, scalar registers, predicates, semaphores, c-bits,
vector registers, masks, latches; landing results (R56 to R61, R336); finding contexts and members.
-/
namespace Sys2Proof.Machine

/-! ## Cores and contexts -/

/-- A physical core. -/
def State.core (s : State) (p : Nat) : Core := s.cores.get Core.idle p

/-- Replaces a core. -/
def State.setCore (s : State) (p : Nat) (c : Core) : State := { s with cores := s.cores.set p c }

/-- A context by its number. -/
def State.ctx (s : State) (cid : Nat) : Option Ctx := s.ctxs.find cid

/-- Replaces a context. -/
def State.setCtx (s : State) (c : Ctx) : State := { s with ctxs := s.ctxs.set c.cid c }

/-- Removes a context. -/
def State.dropCtx (s : State) (cid : Nat) : State := { s with ctxs := s.ctxs.del cid }

/-- The active context of a core (R42). -/
def State.activeCtx (s : State) (p : Nat) : Option Ctx :=
  match (s.core p).active with
  | some cid => s.ctx cid
  | none => none

/-- Every context. -/
def State.allCtxs (s : State) : List Ctx := s.ctxs.map Prod.snd

/-- Die of a physical core (R6: 128 cores a die). -/
def dieOf (p : Nat) : Nat := p / 128

/-- The package's number in its domain, from the configuration flash (R310, R330). -/
def State.package (s : State) : Nat := (s.flash.get 0 0x40).toNat % 16

/-- The domain number of a die of this package (R310). -/
def State.domainDie (s : State) (d : Nat) : Nat := 3 * s.package + d

/-- Cluster of a physical core (R6: 16 cores a cluster). -/
def clusterOf (p : Nat) : Nat := p / 16

/-- A handler context (R271). -/
def Ctx.isHandler (c : Ctx) : Bool :=
  match c.kind with
  | .handler _ => true
  | _ => false

/-- An outrider task (R40). -/
def Ctx.isTask (c : Ctx) : Bool :=
  match c.kind with
  | .task _ => true
  | _ => false

/-- A regular context. -/
def Ctx.isRegular (c : Ctx) : Bool := c.kind == .regular

/-- Running an inverse routine (R247). -/
def Ctx.inInverse (c : Ctx) : Bool := c.stat == .inverse

/-- The same member of the same company. A handler belongs to the trapped member. -/
def Ctx.sameMember (a b : Ctx) : Bool := a.lid == b.lid && a.idx == b.idx && a.isTask == b.isTask

/-- A launch by its identifier. -/
def State.launch (s : State) (lid : BitVec 48) : Option Launch := s.launches.find? (fun l => l.lid == lid)

/-- Replaces a launch. -/
def State.setLaunch (s : State) (l : Launch) : State :=
  { s with launches := s.launches.map (fun k => if k.lid == l.lid then l else k) }

/-- The regular context of a member (R20). -/
def State.member (s : State) (lid : BitVec 48) (idx : Nat) : Option Ctx :=
  s.allCtxs.find? (fun c => c.isRegular && c.lid == lid && c.idx == idx)

/-! ## Sequencers -/

/-- One sequencer. -/
def Ctx.seqr (c : Ctx) : Sq → Seqr
  | .ctl => c.ctl
  | .load => c.load
  | .store => c.store
  | .comp => c.comp

/-- Replaces one sequencer. -/
def Ctx.setSeqr (c : Ctx) (q : Sq) (x : Seqr) : Ctx :=
  match q with
  | .ctl => { c with ctl := x }
  | .load => { c with load := x }
  | .store => { c with store := x }
  | .comp => { c with comp := x }

/-- Changes one sequencer. -/
def Ctx.onSeqr (c : Ctx) (q : Sq) (f : Seqr → Seqr) : Ctx := c.setSeqr q (f (c.seqr q))

/-- Changes all four sequencers. -/
def Ctx.onAll (c : Ctx) (f : Seqr → Seqr) : Ctx :=
  { c with ctl := f c.ctl, load := f c.load, store := f c.store, comp := f c.comp }

/-- A scalar register; s0 reads zero (R48, R344). -/
def Seqr.reg (x : Seqr) (n : BitVec 5) : Word := if n = 0 then 0 else x.regs.get 0 n.toNat

/-- Writes a scalar register; a write that names s0 is discarded (R109). -/
def Seqr.setReg (x : Seqr) (n : BitVec 5) (v : Word) : Seqr :=
  if n = 0 then x else { x with regs := x.regs.put 0 n.toNat v }

/-- A predicate; p0 reads true (R48). -/
def Seqr.pred (x : Seqr) (n : BitVec 3) : Bool := if n = 0 then true else x.preds.getLsbD n.toNat

/-- Writes a predicate; a write that names p0 is discarded (R48, R109). -/
def Seqr.setPred (x : Seqr) (n : BitVec 3) (b : Bool) : Seqr :=
  if n = 0 then x
  else { x with preds := if b then x.preds ||| (1#8 <<< n.toNat) else x.preds &&& ~~~(1#8 <<< n.toNat) }

/-- The pair s(n+1):sn of an even register number. -/
def Seqr.pairAt (x : Seqr) (n : BitVec 5) : DWord := x.reg (n + 1) ++ x.reg n

/-- pair(n) of a pair field: s(2n+1):s(2n) (R104). -/
def Seqr.pair (x : Seqr) (n : BitVec 4) : DWord := x.pairAt (n ++ 0#1)

/-- A loop counter. -/
def Seqr.lcVal (x : Seqr) (n : BitVec 2) : Word := x.lc.get 0 n.toNat

/-- Writes a loop counter. -/
def Seqr.setLc (x : Seqr) (n : BitVec 2) (v : Word) : Seqr := { x with lc := x.lc.put 0 n.toNat v }

/-- A guard (R106): the predicate, negated where pneg is set. -/
def Seqr.guard (x : Seqr) (h : Hd) : Bool := x.pred h.pred != h.pneg

/-! ## Core-wide registers -/

/-- A semaphore. -/
def Ctx.sem (c : Ctx) (n : BitVec 8) : BitVec 20 := c.sems.get 0 n.toNat

/-- A semaphore as the waits of the running long word test it (R445). -/
def Ctx.semTest (c : Ctx) (n : BitVec 8) : BitVec 20 := c.semT.get 0 n.toNat

/-- Sets a semaphore. -/
def Ctx.setSem (c : Ctx) (n : BitVec 8) (v : BitVec 20) : Ctx := { c with sems := c.sems.put 0 n.toNat v }

/-- A signal by `n` (R63): saturates, with an imprecise SEMOVF that names the semaphore. -/
def Ctx.signal (c : Ctx) (sem : BitVec 8) (n : Nat) : Ctx :=
  if (c.sem sem).toNat + n ≤ 0xFFFFF then c.setSem sem (BitVec.ofNat 20 ((c.sem sem).toNat + n))
  else { c.setSem sem 0xFFFFF with impr := c.impr ++ [(0x28, sem.zeroExtend 32)] }

/-- The signal of a word's sig field (R64). -/
def Ctx.sigField (c : Ctx) (sig : BitVec 8) : Ctx := if sig = 0xFF then c else c.signal sig 1

/-- A c-bit. -/
def Ctx.cbit (c : Ctx) (n : BitVec 4) : Bool := c.cbits.getLsbD n.toNat

/-- Writes a c-bit. -/
def Ctx.setCbit (c : Ctx) (n : BitVec 4) (b : Bool) : Ctx :=
  { c with cbits := if b then c.cbits ||| (1#16 <<< n.toNat) else c.cbits &&& ~~~(1#16 <<< n.toNat) }

/-- A vector register. -/
def Ctx.vreg (c : Ctx) (n : BitVec 5) : VWord := c.v.get 0 n.toNat

/-- Writes a vector register. -/
def Ctx.setVreg (c : Ctx) (n : BitVec 5) (x : VWord) : Ctx := { c with v := c.v.put 0 n.toNat x }

/-- All ones. -/
def onesMask : BitVec 64 := BitVec.allOnes 64

/-- A mask register; it starts all ones (R22). -/
def Ctx.mreg (c : Ctx) (n : BitVec 3) : BitVec 64 := c.m.get onesMask n.toNat

/-- Writes a mask register. -/
def Ctx.setMreg (c : Ctx) (n : BitVec 3) (x : BitVec 64) : Ctx := { c with m := c.m.put onesMask n.toNat x }

/-- A stream descriptor (R180). -/
def Ctx.descr (c : Ctx) (n : BitVec 6) : BitVec 256 := c.desc.get 0 n.toNat

/-- Writes a stream descriptor. -/
def Ctx.setDescr (c : Ctx) (n : BitVec 6) (x : BitVec 256) : Ctx := { c with desc := c.desc.put 0 n.toNat x }

/-- An empty tile: N = 0, class finite, every E = 0 (R22). -/
def Tile.zero : Tile := { elems := [], exps := [] }

/-- An accumulator tile. -/
def Ctx.tile (c : Ctx) (n : BitVec 2) : Tile := c.acc.get Tile.zero n.toNat

/-- Replaces an accumulator tile. -/
def Ctx.setTile (c : Ctx) (n : BitVec 2) (x : Tile) : Ctx := { c with acc := c.acc.put Tile.zero n.toNat x }

/-- A block-partial tile. -/
def Ctx.bpTile (c : Ctx) (n : Nat) : Tile := c.bp.get Tile.zero n

/-- Replaces a block-partial tile. -/
def Ctx.setBp (c : Ctx) (n : Nat) (x : Tile) : Ctx := { c with bp := c.bp.put Tile.zero n x }

/-- STICKY bit numbers (R143). -/
def stNF : BitVec 5 := 1
/-- Overflow. -/
def stOV : BitVec 5 := 2
/-- Vacated. -/
def stVAC : BitVec 5 := 4
/-- Lost. -/
def stLOST : BitVec 5 := 8
/-- Latch. -/
def stLATCH : BitVec 5 := 16

/-- Sets sticky flags. -/
def Ctx.flag (c : Ctx) (b : BitVec 5) : Ctx := { c with sticky := c.sticky ||| b }

/-- Sticky flags of arithmetic flags. -/
def Flags.sticky (f : Flags) : BitVec 5 := (if f.ov then stOV else 0) ||| (if f.nf then stNF else 0)

/-- Check mode (R15: DMODE 0b01). -/
def Ctx.checkMode (c : Ctx) : Bool := c.dmode == 1

/-- Relaxed mode (DMODE 0b10). -/
def Ctx.relaxed (c : Ctx) : Bool := c.dmode == 2

/-- The write stamp of the context's accesses (R177). -/
def Ctx.stamp (c : Ctx) : BitVec 16 :=
  c.sup.extractLsb' 0 8 ++ (if c.isTask then 0#8 else c.legno.extractLsb' 0 8)

/-- The limit of local scratchpad addresses (R22). -/
def Ctx.spLimit (c : Ctx) : Nat := c.plots * 65536

/-! ## Latches (R60, R61) -/

/-- Makes every latch of every sequencer lost (R55). -/
def Ctx.loseLatches (c : Ctx) : Ctx := c.onAll (fun x => { x with latches := [] })

/-- Fills the latches after a result-producing word: bl0 names the newest, eight are kept. -/
def Seqr.latch (x : Seqr) (l : Latch) : Seqr := { x with latches := (l :: x.latches).take 8 }

/-- A latch's value, or none where it is lost or has not landed (R61). -/
def Seqr.latchVal (x : Seqr) (t : Nat) (k : Nat) : Option VWord :=
  match x.latches[k]? with
  | some l => if l.due ≤ t then some l.val else none
  | none => none

/-! ## Landing results -/

/-- The lane of `w` bytes of a vector value, as bytes. -/
def laneBytes (w : Nat) (v : VWord) (lane : Nat) : List Byte := bytesOfNat w ((v.toNat / 2 ^ (8 * w * lane)) % 2 ^ (8 * w))

/-- The bytes that a landing stream result writes. -/
def elemWrites (w : Nat) (v : VWord) : List (Nat × Nat) → List (Nat × Byte)
  | [] => []
  | (lane, a) :: r => place a (laneBytes w v lane) ++ elemWrites w v r

/-- A local address at or above this number is a canopy address in a stream destination. -/
def canBase : Nat := 0x1000000

/-- Stores bytes of local memory: addresses below `canBase` in the scratchpad, the others in the canopy. -/
def Ctx.localStore (c : Ctx) (bs : List (Nat × Byte)) : Ctx :=
  let inSp := bs.filter (fun p => p.1 < canBase)
  let inCan := (bs.filter (fun p => canBase ≤ p.1)).map (fun p => (p.1 - canBase, p.2))
  { c with sp := c.sp.store 2 8 inSp, can := c.can.store 2 8 inCan }

/-- A list of results in order of landing time, issue order within one time (R57). -/
def sortFlights : List Flight → List Flight
  | [] => []
  | f :: fs =>
    let rec insert (f : Flight) : List Flight → List Flight
      | [] => [f]
      | g :: gs => if f.due ≤ g.due then f :: g :: gs else g :: insert f gs
    insert f (sortFlights fs)

/-- The veils that are lifted after schedule cycle `due`, the next one first. -/
def Ctx.veils (c : Ctx) (due : Nat) : List Flight :=
  sortFlights (c.flight.filter (fun f => decide (due < f.due) && !f.old.isEmpty))

/-- The byte of a veil after a write that lands before it is lifted (R167, R176, R457). -/
def veilWrite (as : List Nat) (bs : List (Nat × Byte)) (o : Nat × Byte × UState) : Nat × Byte × UState :=
  if o.2.2 = .lost ∧ !covers 8 as o.1 then o
  else
    match bs.reverse.find? (fun p => p.1 == o.1) with
    | some p => (o.1, p.2, .present)
    | none => if as.contains (o.1 / 2 * 2) ∨ as.contains (o.1 / 2 * 2 + 1) then (o.1, o.2.1, .present) else o

/-- A write that lands at schedule cycle `due` (R56, R57; log 32): each byte goes under the first veil that is lifted later, or
into memory. -/
def Ctx.landLocal (c : Ctx) (due : Nat) (bs : List (Nat × Byte)) : Ctx :=
  let vs := if c.joined then c.veils due else []
  let under (a : Nat) : Option Flight := vs.find? (fun f => f.old.any (fun o => o.1 == a))
  let as := bs.map Prod.fst
  let c1 := c.localStore (bs.filter (fun p => (under p.1).isNone))
  if vs.isEmpty then c1
  else
    { c1 with flight := c1.flight.map (fun f =>
        { f with old := f.old.map (fun o => if under o.1 = some f then veilWrite as bs o else o) }) }

/-- A result sets its flags: those of a load are held with its leg, as long as that has not committed (R217). -/
def Ctx.flagLeg (c : Ctx) (leg : Option Nat) (b : BitVec 5) : Ctx :=
  match leg with
  | none => c.flag b
  | some n =>
    let hold (l : Leg) : Leg := if l.no = n then { l with held := l.held ||| b } else l
    if (c.ended ++ c.leg.toList).any (fun l => l.no == n) then { c with leg := c.leg.map hold, ended := c.ended.map hold }
    else c.flag b

/-- Lands one result (R56): writes its bits, then performs its signal (R336). Stream elements that stand already stay. -/
def Ctx.landOne (c : Ctx) (f : Flight) : Ctx :=
  let c' := match f.dest with
    | .none => c
    | .reg n => c.onSeqr f.sq (fun x => x.setReg n (f.val.setWidth 32))
    | .pred n => c.onSeqr f.sq (fun x => x.setPred n (f.val.getLsbD 0))
    | .vreg n => c.setVreg n ((c.vreg n &&& ~~~f.mask) ||| (f.val &&& f.mask))
    | .mask n => c.setMreg n (f.val.setWidth 64)
    | .elems w at' => if f.early then c else c.landLocal f.due (elemWrites w f.val at')
  ({ c'.flagLeg f.leg f.flags with
     late := if c.joined && f.due == c.t then c.late ||| f.flags else c.late
     landed := if c.joined && f.due == c.t && f.sig != 0xFF then (f.sig, c.sem f.sig != 0xFFFFF) :: c.landed else c.landed }).sigField f.sig

/-- Lands results one after another. -/
def Ctx.landAll (c : Ctx) : List Flight → Ctx
  | [] => c
  | f :: fs => Ctx.landAll (c.landOne f) fs

/-- Lands every result that the test picks; the others stay in flight. -/
def Ctx.landIf (c : Ctx) (p : Flight → Bool) : Ctx :=
  ({ c with flight := c.flight.filter (fun f => !p f) }).landAll (sortFlights (c.flight.filter p))

/-- Lands what is due at schedule cycle t (R56); in forked mode, all results of one sequencer (R58). -/
def Ctx.landDue (c : Ctx) (q : Option Sq) : Ctx :=
  match q with
  | none => c.landIf (fun f => f.due ≤ c.t)
  | some q => c.landIf (fun f => f.sq == q)

/-- Some result in flight is due (R56), or belongs to the sequencer (R58). -/
def Ctx.hasDue (c : Ctx) (q : Option Sq) : Bool :=
  match q with
  | none => c.flight.any (fun f => f.due ≤ c.t)
  | some q => c.flight.any (fun f => f.sq == q)

/-- A result in flight writes this scalar register (the pending bit of R59). -/
def Ctx.regPending (c : Ctx) (q : Sq) (n : BitVec 5) : Bool :=
  n != 0 && c.flight.any (fun f => f.sq == q && f.dest == .reg n)

/-- A result in flight writes this predicate. -/
def Ctx.predPending (c : Ctx) (q : Sq) (n : BitVec 3) : Bool :=
  n != 0 && c.flight.any (fun f => f.sq == q && f.dest == .pred n)

/-- A result in flight writes this vector register. -/
def Ctx.vregPending (c : Ctx) (n : BitVec 5) : Bool := c.flight.any (fun f => f.dest == .vreg n)

/-- A result in flight writes this mask. -/
def Ctx.maskPending (c : Ctx) (n : BitVec 3) : Bool := c.flight.any (fun f => f.dest == .mask n)

/-- A result in flight writes a byte of this local range (`canBase` and up: canopy). -/
def Ctx.localPending (c : Ctx) (a n : Nat) : Bool :=
  c.flight.any (fun f => f.old.any (fun p => a ≤ p.1 && p.1 < a + n) || (match f.dest with
    | .elems w at' => !f.early && at'.any (fun p => p.2 < a + n && a < p.2 + w)
    | _ => false))

/-- What a local byte holds until schedule cycle `due` (`canBase` and up: canopy). -/
def Ctx.oldByte (c : Ctx) (due a : Nat) : Nat × Byte × UState :=
  match (c.veils due).findSome? (fun f => f.old.find? (fun o => o.1 == a)) with
  | some o => o
  | none =>
    if a < canBase then (a, c.sp.byte a, c.sp.unit 2 a) else (a, c.can.byte (a - canBase), c.can.unit 2 (a - canBase))

/-- Lands one result while the joined schedule stands still (log 32): its signal, its flags (R336), and stream elements in memory. What
words of the schedule read stays as it was until the landing, and a CSRW of STICKY before that does not clear the flags (R374). -/
def Ctx.landEarly (c : Ctx) (f : Flight) : Ctx :=
  let old := match f.dest with
    | .elems w at' => (at'.flatMap (fun p => (List.range w).map (p.2 + ·))).map (c.oldByte f.due)
    | _ => []
  let c1 := match f.dest with
    | .elems .. => c.landOne f
    | _ => (c.flagLeg f.leg f.flags).sigField f.sig
  { c1 with flight := c1.flight.map (fun g => if g = f then { f with sig := 0xFF, vno := 0, early := true, old := old } else g) }

/-- Puts the old bytes of a veil back into a memory whose addresses start at `base`. -/
def veilBack (base : Nat) (m : Mem) : List (Nat × Byte × UState) → Mem
  | [] => m
  | (a, b, st) :: r => veilBack base (if base ≤ a ∧ a < base + canBase then (m.mark ((a - base) / 2) st).poke (a - base) b else m) r

/-- Local memory as the words of the schedule see it: veils put back, the first to be lifted last. -/
def Ctx.view (c : Ctx) : Ctx :=
  if c.joined then (sortFlights (c.flight.filter (fun f => !f.old.isEmpty))).reverse.foldl (fun d f =>
    { d with sp := veilBack 0 d.sp f.old, can := veilBack canBase d.can f.old }) c
  else c

/-- A write of another agent stands over what veils hold back of the same bytes (log 32). -/
def Ctx.unveil (c : Ctx) (keys : List Nat) : Ctx :=
  { c with flight := c.flight.map (fun f => { f with old := f.old.filter (fun o => !keys.contains o.1) }) }

/-- Adds a result in flight. -/
def Ctx.launchResult (c : Ctx) (f : Flight) : Ctx := { c with flight := c.flight ++ [f] }

end Sys2Proof.Machine
end

