-- ==== Sys2Proof/Machine/Flags.lean ====
section
/-!
DEFINITION. The tests, and the scalar and atomic operations (R107, R112, R116, R357, R378, R412, R443): functions of words.
Scalar arithmetic sets no flag; the sticky flags of arithmetic on elements are in Numbers.
-/
namespace Sys2Proof.Machine

/-- The test of CMP and CMPI (R366). -/
def ccTest (k : Cc) (x y : Word) : Bool :=
  match k with
  | .eq => x == y
  | .ne => x != y
  | .lt => x.slt y
  | .ge => !x.slt y
  | .ltn => x.ult y
  | .gen => !x.ult y

/-- DIV (R378). -/
def divSigned (a b : Word) : Word := if b = 0 then 0xFFFFFFFF else BitVec.sdiv a b

/-- DIVN (R378). -/
def divUnsigned (a b : Word) : Word := if b = 0 then 0xFFFFFFFF else a / b

/-- MOD (R412). -/
def modSigned (a b : Word) : Word := if b = 0 then a else BitVec.srem a b

/-- MODN (R412). -/
def modUnsigned (a b : Word) : Word := if b = 0 then a else a % b

/-- The high word of the signed product (R415). -/
def mulHigh (a b : Word) : Word := ((a.signExtend 64) * (b.signExtend 64)).extractLsb' 32 32

/-- The high word of the unsigned product (R415). -/
def mulHighUnsigned (a b : Word) : Word := ((a.zeroExtend 64) * (b.zeroExtend 64)).extractLsb' 32 32

/-- SHL (R443). -/
def shiftLeft (a : Word) (n : Nat) : Word := a <<< n

/-- SHR (R443). -/
def shiftRight (a : Word) (n : Nat) : Word := a >>> n

/-- SRA (R443). -/
def shiftArith (a : Word) (n : Nat) : Word := a.sshiftRight n

/-- Count of leading zero bits, by the bits left to look at (R353). -/
def leadingZeros (x : Word) : Nat → Nat
  | 0 => 0
  | n + 1 => if x.getLsbD n then 0 else leadingZeros x n + 1

/-- Count of one bits below `n` (R425). -/
def onesBelow (x : Word) : Nat → Nat
  | 0 => 0
  | n + 1 => onesBelow x n + (if x.getLsbD n then 1 else 0)

/-- f(op, old, v) of R357, on the low bits of the size. -/
def atomicOp (op : AmoOp) (size : Size) (old v : BitVec 64) : BitVec 64 :=
  let n := size.bits
  let a := old.setWidth n
  let b := v.setWidth n
  let r : BitVec n :=
    match op with
    | .add => a + b
    | .and => a &&& b
    | .or => a ||| b
    | .xor => a ^^^ b
    | .min => if a.slt b then a else b
    | .max => if a.slt b then b else a
    | .minn => if a.ult b then a else b
    | .maxn => if a.ult b then b else a
    | .swp => b
  r.setWidth 64

/-- One floating-point add at a home slice: rne in the type (R160, R428); the bits and the sticky flags it earns. -/
def floatAdd (ty : Fmt) (a b : Nat) : Nat × BitVec 5 :=
  let (r, f) := ty.ofNum .rne 0 ((ty.num a).add .rne (ty.num b))
  (r, Flags.sticky f)

/-- Combining operation of BARS over two operands; min and max compare unsigned (R29). -/
def barOp (op : BarOp) (a b : Word) : Word :=
  match op with
  | .or => a ||| b
  | .and => a &&& b
  | .add => a + b
  | .min => if a.ult b then a else b
  | .max => if a.ult b then b else a

/-- The identity of a combining operation (R29). -/
def barUnit (op : BarOp) : Word :=
  match op with
  | .or => 0
  | .and => 0xFFFFFFFF
  | .add => 0
  | .min => 0xFFFFFFFF
  | .max => 0

end Sys2Proof.Machine
end

