-- ==== Sys2Proof/Config.lean ====
section
/-!
DEFINITION. What the manual leaves to the part: free values. Each is an opaque constant with no body,
so no proof can see its value. The step applies it to a counter in State (State.free), or to the operands.
-/
namespace Sys2Proof.Config

/-- Main-clock cycles that an operation of open length takes (R496). Log 11. -/
opaque openCycles : Nat → Nat

/-- Whether a TLB keeps a translation that a walk has just made (R196, R197). Log 7. -/
opaque tlbKeeps : Nat → Bool

/-- What a latch reads after a predicate, mask or pair result: R61 and R455 state only vector and
32-bit scalar results. Log 12. -/
opaque latchOther : Nat → BitVec 1024

/-- The semaphore after a wait of a joined long word whose own SEMI has set a smaller value
(R65 and R445 give the test, not the difference). Log 13. -/
opaque semShort : Nat → BitVec 20

/-- The bytes of the internal regions of a context image (R275). Log 14. -/
opaque imageInternal : Nat → Nat → BitVec 8

/-- The transcendental result (R157) of an operand whose enclosure the model's widest precision does not
separate from a midpoint; arguments: the function, the destination's type code, the operand's bits. Log 15. -/
opaque transcendental : Nat → Nat → Nat → Nat

/-- LVL of a fault record whose translation failed at no entry: XLADDR, or a bad root word (R201 names the level of
the failing entry). Log 16. -/
opaque recordLevel : Nat → BitVec 2

/-- The number of a Varob port in an event of TYPE 0x04 (R296 does not number the ports). Log 38. -/
opaque portNumber : Nat → BitVec 16

/-- The Varob port, by its number among the working ones, that leads to a domain die, from the link map of the configuration flash
(R310, R330: the map's form is not given). Log 87. -/
opaque route : List (BitVec 8) → Nat → Nat

/-- The lanes, by die and number, that the repair maps of the configuration flash name (R328, R330: their form is not given). Log 6. -/
opaque repairMap : List (Nat × BitVec 8) → List (Nat × Nat)

/-- Whether a page's access count, as far as HINT .mig has raised it, passes the migration engine's thresholds (R204, R388: what
else counts, and the thresholds, are not given). Log 4. -/
opaque countsPass : Nat → Nat → Bool

/-- Whether the next word that another forked sequencer issues falls in the clock cycle of the control sequencer's last word (R51 and R496
leave it open; R401 asks). Log 108. -/
opaque sameCycle : Nat → Bool

/-- Which of the units of a larger access of a hart or an adapter is performed next (R210: in any combination). Log 91. -/
opaque nextUnit : Nat → Nat

end Sys2Proof.Config
end

