-- ==== Sys2Proof/Machine/Legs.lean ====
section
/-!
DEFINITION. Legs, the innkeeper's order, squash, and writes at home slices (R32 to R39, R213 to R218, R229, R232):
what a write from outside any leg, or of a committing leg, does to the rest of the machine.
-/
namespace Sys2Proof.Machine

/-! ## Keys -/

/-- A commit key (R39): SUPSTEP, PHASE, LEGNO, logical index. -/
abbrev Key := Nat × Nat × Nat × Nat

/-- Keys compare field by field from the left (R39). -/
def keyLt (a b : Key) : Bool :=
  decide (a.1 < b.1) || (decide (a.1 = b.1) &&
    (decide (a.2.1 < b.2.1) || (decide (a.2.1 = b.2.1) &&
      (decide (a.2.2.1 < b.2.2.1) || (decide (a.2.2.1 = b.2.2.1) && decide (a.2.2.2 < b.2.2.2))))))

/-- The key of a leg of a context. -/
def Ctx.keyOf (c : Ctx) (l : Leg) : Key := (l.sup.toNat, l.phase.toNat, l.legno.toNat, c.idx)

/-- The key of the open leg, or of the leg that would open next: while an atomic is on its way to a far home slice, that of the leg
that follows its own, which counts as committed (R341). -/
def Ctx.openKey (c : Ctx) : Key :=
  match c.leg with
  | some l => c.keyOf l
  | none => (c.sup.toNat, c.phase.toNat, c.legno.toNat + (match c.pend with
    | some (.atomic _ _ _ _ true) => if c.back.isNone then 1 else 0
    | _ => 0), c.idx)

/-- A member that has arrived at BARS or has issued its HALT: it opens no further leg for now (R32, R214). -/
def Ctx.arrived (c : Ctx) : Bool :=
  c.halting || (match c.pend with
    | some (.barrier ..) => c.back.isNone
    | _ => false)

/-- A member holds no key below `k` (R214). -/
def Ctx.holdsNone (c : Ctx) (k : Key) : Bool :=
  c.ended.all (fun l => !keyLt (c.keyOf l) k) && (c.arrived || !keyLt c.openKey k)

/-- Every leg of the company with a key below `k` has committed, but for the legs of context `cid`. -/
def State.keysBelow (s : State) (cid : Nat) (lid : BitVec 48) (k : Key) : Bool :=
  s.allCtxs.all (fun m => m.cid == cid || m.lid != lid || !m.isRegular || m.holdsNone k)

/-- A handler's legs stand immediately before the trapped context's open leg (R495): every leg with a smaller key than
that leg has committed. A task's handler has no leg before its own. -/
def State.handlerReady (s : State) (of : Nat) : Bool :=
  match s.ctx of with
  | none => true
  | some d => d.isTask || (d.ended.isEmpty && s.keysBelow d.cid d.lid d.openKey)

/-- A leg is ready (R214): every leg with a smaller key has committed. -/
def State.ready (s : State) (c : Ctx) (l : Leg) : Bool :=
  c.ended.all (fun e => !decide (e.no < l.no)) &&
    (match c.kind with
     | .handler k => s.handlerReady k
     | _ => s.keysBelow c.cid c.lid (c.keyOf l))

/-- Every leg of the member that has ended has committed; a handler's member is the trapped one (R495). -/
def State.earlierDone (s : State) (c : Ctx) : Bool :=
  c.ended.isEmpty && (match c.kind with
    | .handler k => ((s.ctx k).map (fun d => d.ended.isEmpty)).getD true
    | _ => true)

/-- A leg is safe (R217). A handler's leg in relaxed mode is (R495). -/
def State.safe (s : State) (c : Ctx) (l : Leg) : Bool :=
  if c.relaxed then (c.isHandler || l.pinned) else s.ready c l

/-- A leg is exposed (R217): it has made a global load and is not safe. -/
def State.exposed (s : State) (c : Ctx) (l : Leg) : Bool := !l.reads.isEmpty && !s.safe c l

/-- Every uncommitted leg of the member that has made a global load is safe, so an escape may issue (R217). -/
def State.escapeOk (s : State) (c : Ctx) : Bool :=
  c.ended.all (fun l => !s.exposed c l) && (match c.leg with
    | some l => !s.exposed c l
    | none => true)

/-! ## Opening and ending legs -/

/-- The checkpoint of a leg that starts here (R216). -/
def Ctx.checkpoint (c : Ctx) : Checkpoint :=
  { seqr := c.ctl, flights := c.flight.filter (fun f => f.sq == .ctl), t := c.t, bars := c.bars }

/-- A leg that starts here. -/
def Ctx.newLeg (c : Ctx) : Leg :=
  { no := c.legs, sup := c.sup, phase := c.phase, legno := c.legno, count := 0, preset := none, buf := [], grans := [], reads := [],
    log := [], held := 0, check := some c.checkpoint, atomic := none, pinned := false }

/-- The open leg, or the leg that the next control word opens (R32). A task opens none (R243). -/
def Ctx.curLeg (c : Ctx) : Leg := c.leg.getD c.newLeg

/-- Opens a leg if none is open. -/
def Ctx.withLeg (c : Ctx) : Ctx := if c.isTask then c else { c with leg := some c.curLeg }

/-- Ends the open leg (R32); LEGNO rises unless BARS ends it (R35). A handler's leg does not change LEGNO (R495). Where an
atomic ends the leg, LEGNO rises as the atomic completes it (R36, R359; log 45). -/
def Ctx.endLeg (c : Ctx) (bars : Bool) (a : Option Atomic) : Ctx :=
  if c.isTask then c
  else
    let l := { c.curLeg with atomic := a }
    { c with leg := none, want := false, legs := c.legs + 1, ended := c.ended ++ [l],
             legno := if bars || c.isHandler || a.isSome then c.legno else c.legno + 1 }

/-! ## Squash (R216) -/

/-- Restores the start checkpoint of leg `l` and discards every later leg of the member. In joined mode the control
sequencer re-executes alone as many long words as it had issued since (log 20). -/
def Ctx.squashAt (c : Ctx) (l : Leg) : Ctx :=
  match l.check with
  | none => c
  | some k =>
    { c with
      ctl := k.seqr
      flight := c.flight.filter (fun f => f.sq != .ctl) ++ k.flights
      t := if c.joined then k.t else c.t
      replay := if c.joined then c.t + c.replay - k.t else 0
      legno := l.legno
      leg := some { l with count := 0, preset := none, buf := [], grans := [], reads := [], log := [], held := 0, atomic := none,
                           pinned := false, check := some k }
      legs := l.no
      ended := c.ended.filter (fun e => e.no < l.no)
      pend := none
      again := false
      back := none
      bars := k.bars
      waitm := none
      hold := none
      want := false
      halting := false }

/-- The legs of a context, oldest first. -/
def Ctx.allLegs (c : Ctx) : List Leg := c.ended ++ c.leg.toList

/-- A leg has read one of the granules. -/
def Leg.hit (l : Leg) (grans : List Nat) : Bool := l.reads.any (fun g => grans.contains g)

/-- Adds to a debug counter of 48 bits (R314). -/
def Core.bump (k : Core) (off : Nat) (n : Nat) : Core :=
  { k with dbg := k.dbg.put 0 off (BitVec.ofNat 64 (((k.dbg.get 0 off).toNat + n) % 2 ^ 48)) }

/-- Adds to a debug counter of a core. -/
def State.bump (s : State) (p off : Nat) : State := s.setCore p ((s.core p).bump off 1)

/-- Squashes one context if one of its exposed legs has read one of the granules. -/
def State.squashOne (s : State) (grans : List Nat) (c : Ctx) : State :=
  match c.allLegs.find? (fun l => l.hit grans && s.exposed c l) with
  | some l => (({ s with innq := s.innq.filter (fun q => !(q.1 == c.cid && l.no ≤ q.2)) }).bump c.core 0x208).setCtx
      (c.squashAt l)
  | none => s

/-- Squashes, among the listed contexts, those that a write to the granules hits. -/
def State.squashList (s : State) (grans : List Nat) : List Nat → State
  | [] => s
  | cid :: r =>
    State.squashList (match s.ctx cid with
      | none => s
      | some c => s.squashOne grans c) grans r

/-- Squashes every exposed leg that a write to the granules hits (R216). -/
def State.squash (s : State) (grans : List Nat) : State := s.squashList grans (s.ctxs.map Prod.fst)

/-- One of the granules lies in a page that is being moved (R205). -/
def State.moving (s : State) (grans : List Nat) : Bool :=
  s.moves.any (fun m => grans.any (fun g => decide (m.src / 64 ≤ g) && decide (g < (m.src + 2 ^ m.bits) / 64)))

/-- A write to the granules waits at its home slice: behind a pinned leg of another member (R217, relaxed mode), or for the end of a
move of their page (R205). -/
def State.writeHeld (s : State) (by' : Option Ctx) (grans : List Nat) : Bool :=
  s.moving grans || s.allCtxs.any (fun c => c.relaxed && !(match by' with
      | some w => w.sameMember c
      | none => false) && c.allLegs.any (fun l => l.pinned && l.hit grans))

/-- An atomic on its way to a far home slice touches one of the granules (R341); `skip` leaves out those of cores of one die. -/
def State.inFlight (s : State) (skip : Option Nat) (grans : List Nat) : Bool :=
  s.allCtxs.any (fun c => match c.pend with
    | some (.atomic _ _ a _ true) => c.back.isNone && skip != some (dieOf c.core) && grans.contains (a.pa / 64)
    | _ => false)

/-! ## Writes at home slices -/

/-- The granules of a list of addresses (R163). -/
def gransOf (as : List Nat) : List Nat := (as.map (· / 64)).eraseDups

/-- The condition of a WAITM (R488). -/
def condTest (k : WCond) (v w : BitVec 64) : Bool :=
  match k with
  | .eq => v == w
  | .ne => v != w
  | .gen => decide (w ≤ v)
  | .ltn => decide (v < w)

/-- A word of memory as a value. -/
def Mem.word (m : Mem) (a n : Nat) : BitVec 64 := wordOfBytes 64 (m.bytes a n)

/-- The word of a waiter as its member reads it: its own buffered bytes first (R215). -/
def Waiter.word (m : Mem) (w : Waiter) : BitVec 64 :=
  wordOfBytes 64 ((List.range (w.size.bits / 8)).map (fun i => (SMap.find w.own (w.pa + i)).getD (m.byte (w.pa + i))))

/-- The waiter reads some byte of its word in DRAM, where its unit is in this state (R215, R488). -/
def Waiter.sees (m : Mem) (w : Waiter) (u : UState) : Bool :=
  (List.range (w.size.bits / 8)).any (fun i => (SMap.find w.own (w.pa + i)).isNone && m.unit 64 (w.pa + i) == u)

/-- Tests one waiter against a write of the addresses by `who` (R229, R232, R488). -/
def Waiter.test (m : Mem) (who : Option Writer) (as : List Nat) (w : Waiter) : Waiter :=
  if w.woke.isNone && !w.lost && as.any (fun a => w.pa ≤ a && a < w.pa + w.size.bits / 8) then
    if w.sees m .lost then { w with lost := true }
    else
      let w1 := { w with vac := w.vac || w.sees m .vacated }
      if condTest w.cond (w.word m) w.val then { w1 with woke := some (w.word m), by' := who } else w1
  else w

/-- Tests every waiter against a write by `who`. -/
def State.wake (s : State) (who : Option Writer) (as : List Nat) : State :=
  { s with ctxs := s.ctxs.map (fun kc => (kc.1, { kc.2 with waitm := kc.2.waitm.map (Waiter.test s.dram who as) })) }

/-- Sets the write stamps of granules (R177). -/
def stampAll (st : BitVec 16) (m : SMap (BitVec 16)) : List Nat → SMap (BitVec 16)
  | [] => m
  | g :: gs => stampAll st (m.put 0xFFFF g st) gs

/-- Notes granules that a leg, an atomic, a reduction or a copy unit has written (R290). -/
def State.note (s : State) (gs : List Nat) : State := { s with written := gs.foldl (fun m g => m.put false g true) s.written }

/-! ## The physical addresses (R8, R9, R294, R314, R325) -/

/-- The lowest physical address of the device windows (R294, R314, R325). -/
def windowBase : Nat := 0xFFD0000000000

/-- The capacity of a die's stack, of the stacks together, and of both tiers (R8, R9). -/
def stackBytes : Nat := 96 * 2 ^ 30
def stackTop : Nat := 3 * stackBytes
def memTop : Nat := stackTop + 2 ^ 40

/-- The tier at a physical address: the stacks of dies 0, 1 and 2 stand first, the off-stack tier after them (log 17). -/
def tierAt (pa : Nat) : Tier := if pa < stackTop then .stacked else .offstack

/-- An address at which the domain has no DRAM: past the tiers of this package and homed in no other one. -/
def State.outside (s : State) (pa : Nat) : Bool := decide (windowBase ≤ pa) || (decide (memTop ≤ pa) && decide (s.homes.get 0 (pa / 64) < 3))

/-- The bytes of a write that lie in DRAM: no tier stores more than its capacity (R9). -/
def State.inMem (s : State) (bs : List (Nat × Byte)) : List (Nat × Byte) := bs.filter (fun x => !s.outside x.1)

/-! ## Writes -/

/-- The bytes of a write at home slices, and their stamps (R9, R167, R176, R177). -/
def State.storeHome (s : State) (stamp : BitVec 16) (bs : List (Nat × Byte)) : State :=
  { s with dram := s.dram.store 64 64 (s.inMem bs), stamps := stampAll stamp s.stamps (gransOf ((s.inMem bs).map Prod.fst)) }

/-- A write that the device makes for itself (R177): bytes, stamps, waiters. -/
def State.writeQuiet (s : State) (stamp : BitVec 16) (bs : List (Nat × Byte)) : State :=
  (s.storeHome stamp bs).wake none (bs.map Prod.fst)

/-- One write at home slices (R167, R176, R177, R216, R229): the bytes, their stamps, the squashes, the waiters. -/
def State.writeHome (s : State) (stamp : BitVec 16) (bs : List (Nat × Byte)) : State :=
  (s.squash (gransOf (bs.map Prod.fst))).writeQuiet stamp bs

/-- A write of a hart, which the waiters that it wakes list as their writer (R229, R232). -/
def State.writeHart (s : State) (hart : Nat) (bs : List (Nat × Byte)) : State :=
  ((s.squash (gransOf (bs.map Prod.fst))).storeHome 0xFFFF bs).wake (some (0x8000 + hart)) (bs.map Prod.fst)

/-! ## Entering the innkeeper's queue (R213) -/

/-- The legs of a relaxed context that enter the innkeeper's queue: those that have ended, and the open leg where it is
exposed and an escape waits for it. A handler's legs do not queue (R495). -/
def Ctx.entering (c : Ctx) (q : List (Nat × Nat)) : List (Nat × Nat) :=
  if c.relaxed && !c.isHandler then
    ((c.ended ++ (if c.want then c.leg.toList.filter (fun l => !l.reads.isEmpty) else [])).map (fun l => (c.cid, l.no))).filter (fun x => !q.contains x)
  else []

/-- Puts a context back, with the legs that enter the queue. -/
def State.keep (s : State) (c : Ctx) : State := { s.setCtx c with innq := s.innq ++ c.entering s.innq }

/-! ## Race detection (R232, R323) -/

/-- The number of a core's bank as a writer: core · 4 + bank. -/
def Ctx.writer (c : Ctx) : Writer :=
  c.core * 4 + (match c.loc with
    | .bank n => n
    | .slot _ => 3)

/-- Whether an agent of core `reader` lies within a scope of the writer (R206). -/
def inScope (sc : Scope) (writer : Writer) (reader : Nat) : Bool :=
  match sc with
  | .core => writer / 4 == reader
  | .cl => clusterOf (writer / 4) == clusterOf reader
  | .die => dieOf (writer / 4) == dieOf reader
  | .pkg => true
  | .dom => true

/-- The bytes of sector `g` that a range touches, as a mask. -/
def sectorMask (g a n : Nat) : BitVec 64 :=
  (List.range n).foldl (fun m i => if (a + i) / 64 = g then m ||| (1#64 <<< ((a + i) % 64)) else m) 0

/-- An atomic (R208). -/
def AccCls.isAtomic (k : AccCls) : Bool := k == .atomic || k == .taskAtomic

/-- The class of a context's atomics (R208, R232). -/
def Ctx.atomicCls (c : Ctx) : AccCls := if c.isTask then .taskAtomic else .atomic

/-- An outrider operation (R208). -/
def AccCls.isOutrider (k : AccCls) : Bool := k == .outrider || k == .taskAtomic

/-- The write was made in the interval of a context's member (R232). -/
def Shadow.sameInterval (h : Shadow) (c : Ctx) : Bool := (h.lid == c.lid && h.sup == c.sup) || h.also.contains (c.lid, c.sup)

/-- The recorded write of a sector races with an access of context `c` (R232). -/
def Shadow.races (h : Shadow) (c : Ctx) (cls : AccCls) (mask : BitVec 64) : Bool :=
  (h.mask &&& mask) != 0 && h.writer / 4 != c.core && h.sameInterval c &&
    !(c.listed.contains h.writer && inScope h.scope h.writer c.core) &&
    !(h.cls == .leg && cls == .leg) && !(h.cls.isAtomic && cls.isAtomic) && !(h.cls.isOutrider && cls.isOutrider)

/-- The first sector of a physical range where an access of the context is a race (R232). -/
def State.raceAt (s : State) (c : Ctx) (cls : AccCls) (a n : Nat) : Option Nat :=
  if c.checkMode then
    ((List.range (a % 64 + n)).map (fun i => a / 64 + i / 64)).eraseDups.find? (fun g =>
      match s.shadow.find g with
      | some h => h.races c cls (sectorMask g a n)
      | none => false)
  else none

/-- A write recorded on top of what its sector holds: the mask of one writer's interval grows (R232). -/
def Shadow.onto (h : Shadow) (old : Option Shadow) : Shadow :=
  match old with
  | some o =>
    if o.writer = h.writer ∧ o.lid = h.lid ∧ o.sup = h.sup ∧ o.also = h.also then { h with mask := o.mask ||| h.mask } else h
  | none => h

/-- Records a write in the shadow state of its sectors (R232). -/
def recordAll (h : Nat → Shadow) (m : SMap Shadow) : List Nat → SMap Shadow
  | [] => m
  | g :: gs => recordAll h (m.set g ((h g).onto (m.find g))) gs

/-- Records a write of a context under check mode (R232). -/
def State.record (s : State) (c : Ctx) (cls : AccCls) (sc : Scope) (as : List Nat) : State :=
  if c.checkMode then
    { s with shadow := recordAll (fun g =>
        { writer := c.writer, lid := c.lid, sup := c.sup, also := [], scope := sc, cls := cls,
          mask := as.foldl (fun m a => if a / 64 = g then m ||| (1#64 <<< (a % 64)) else m) 0 }) s.shadow (gransOf as) }
  else s

/-- One write of a context at home slices (R167, R176, R177, R216, R229, R232). -/
def State.writeAs (s : State) (c : Ctx) (cls : AccCls) (sc : Scope) (stamp : BitVec 16) (bs : List (Nat × Byte)) : State :=
  ((((if cls = .outrider then s else s.note (gransOf (bs.map Prod.fst))).squash (gransOf (bs.map Prod.fst))).storeHome stamp bs).record
    c cls sc (bs.map Prod.fst)).wake (some c.writer)
    (bs.map Prod.fst)

end Sys2Proof.Machine
end

