-- ==== Sys2Proof/Machine/Walk.lean ====
section
/-!
DEFINITION. Translation (08, R189 to R199): the walk, rights, the A and D bits, the TLB.
-/
namespace Sys2Proof.Machine

/-- What an access needs of a page (R194). -/
inductive Need where
  | read | write | both | exec
  deriving DecidableEq, Repr

/-- Why a translation fails (R193, R264): the cause code, the level of the failing entry (none where no entry fails),
and whether it was lost. -/
structure XFault where
  cause : Nat
  lvl   : Option (BitVec 2)
  lost  : Bool
  deriving DecidableEq, Repr

/-- XLADDR, XLNONE, XLPERM, XLBAD (R264). -/
def xlAddr : Nat := 0x18
/-- XLNONE. -/
def xlNone : Nat := 0x19
/-- XLPERM. -/
def xlPerm : Nat := 0x1A
/-- XLBAD. -/
def xlBad : Nat := 0x1B

/-- A root word is bad (R190). -/
def badRoot (r : BitVec 64) : Bool :=
  r.extractLsb' 60 4 != 14 || r.extractLsb' 40 3 != 0 || (r.getLsbD 43 && r.extractLsb' 0 9 != 0)

/-- The address-space identifier of a root word. -/
def rootAsid (r : BitVec 64) : BitVec 16 := r.extractLsb' 44 16

/-- A leaf entry (R191). -/
def isLeaf (e : BitVec 64) : Bool := e.getLsbD 1 || e.getLsbD 2 || e.getLsbD 3

/-- PPN · 4096 of an entry. -/
def ptePa (e : BitVec 64) : Nat := (e.extractLsb' 12 40).toNat * 4096

/-- `check(e, n)` of R193: none if the entry passes. -/
def checkPte (e : BitVec 64) (lost : Bool) (n : Nat) : Option XFault :=
  let lvl := some (BitVec.ofNat 2 n)
  if lost then some ⟨xlNone, lvl, true⟩
  else if !e.getLsbD 0 then some ⟨xlNone, lvl, false⟩
  else
    let common := e.extractLsb' 52 8 == 0 && e.extractLsb' 9 3 == 0
    let shape :=
      if isLeaf e then
        !e.getLsbD 8 && !(e.getLsbD 2 && !e.getLsbD 1) && (e.extractLsb' 62 2 == 1 || e.extractLsb' 62 2 == 2) &&
          ptePa e % (if n = 2 then 2 ^ 31 else if n = 1 then 2 ^ 22 else 2 ^ 13) == 0
      else
        e.extractLsb' 60 4 == 0 && e.extractLsb' 1 4 == 0 && e.extractLsb' 6 2 == 0 &&
          (n == 2 || !e.getLsbD 8) && (!e.getLsbD 8 || ptePa e % 2 ^ 21 == 0)
    if common && shape then none else some ⟨xlBad, lvl, false⟩

/-- An entry as the walker reads it: its value and whether it lies in a lost granule (R193). -/
def readPte (m : Mem) (a : Nat) : BitVec 64 × Bool := (m.word a 8, m.unit 64 a == .lost)

/-- What a walk finds: the leaf, where it stands, its level and the page's bits. -/
structure Leaf where
  pte  : BitVec 64
  addr : Nat
  lvl  : Nat
  bits : Nat
  deriving DecidableEq, Repr

/-- Levels 1 and 0 below a level-2 pointer (R193). -/
def walkLow (m : Mem) (e : BitVec 64) (va : Nat) : Except XFault Leaf :=
  let last (a : Nat) : Except XFault Leaf :=
    let (e0, l0) := readPte m a
    match checkPte e0 l0 0 with
    | some f => .error f
    | none => if isLeaf e0 then .ok ⟨e0, a, 0, 13⟩ else .error ⟨xlBad, some 0, false⟩
  if e.getLsbD 8 then last (ptePa e + 8 * (va / 2 ^ 13 % 2 ^ 18))
  else
    let a1 := ptePa e + 8 * (va / 2 ^ 22 % 2 ^ 9)
    let (e1, l1) := readPte m a1
    match checkPte e1 l1 1 with
    | some f => .error f
    | none => if isLeaf e1 then .ok ⟨e1, a1, 1, 22⟩ else last (ptePa e1 + 8 * (va / 2 ^ 13 % 2 ^ 9))

/-- Level 2 (R193). -/
def walkMid (m : Mem) (a : Nat) (va : Nat) : Except XFault Leaf :=
  let (e, l) := readPte m a
  match checkPte e l 2 with
  | some f => .error f
  | none => if isLeaf e then .ok ⟨e, a, 2, 31⟩ else walkLow m e va

/-- The walk of R193. -/
def walk (m : Mem) (root : BitVec 64) (va : Nat) : Except XFault Leaf :=
  if badRoot root then .error ⟨xlBad, none, false⟩
  else
    let top := (root.extractLsb' 0 40).toNat * 4096
    if root.getLsbD 43 then walkMid m (top + 8 * (va / 2 ^ 31 % 2 ^ 18)) va
    else
      let (e, l) := readPte m (top + 8 * (va / 2 ^ 40 % 2 ^ 9))
      match checkPte e l 3 with
      | some f => .error f
      | none =>
        if isLeaf e then .error ⟨xlBad, some 3, false⟩
        else walkMid m (ptePa e + 8 * (va / 2 ^ 31 % 2 ^ 9)) va

/-- The rights of a leaf serve an access (R194). -/
def allows (e : BitVec 64) (k : Need) : Bool :=
  e.getLsbD 4 && (match k with
    | .read => e.getLsbD 1
    | .write => e.getLsbD 2
    | .both => e.getLsbD 1 && e.getLsbD 2
    | .exec => e.getLsbD 3)

/-- An access that counts as a write for D (R195). -/
def Need.writes : Need → Bool
  | .write | .both => true
  | _ => false

/-- The outcome of a translation. -/
inductive XRes where
  /-- The physical address, and the state after the walker's updates. -/
  | ok (pa : Nat) (s : State)
  /-- A translation fault. -/
  | fault (f : XFault)
  /-- The page is being moved, so a write waits (R205). -/
  | busy
  deriving DecidableEq

/-- The page's leaf with A set, and D for a write (R195). -/
def markPte (e : BitVec 64) (w : Bool) : BitVec 64 := e ||| 0x40 ||| (if w then 0x80 else 0)

/-- Translates by a walk, with no trace (R203, and the scheduler's tests of R18). -/
def peek (m : Mem) (root : BitVec 64) (va : BitVec 64) (k : Need) : Except XFault Nat :=
  if va.toNat / 2 ^ 49 ≠ 0 then .error ⟨xlAddr, none, false⟩
  else
    match walk m root va.toNat with
    | .error f => .error f
    | .ok l => if allows l.pte k then .ok (ptePa l.pte + va.toNat % 2 ^ l.bits) else .error ⟨xlPerm, some (BitVec.ofNat 2 l.lvl), false⟩

/-- A TLB entry that serves an access (R196, R197): A and, for a write, D stand in its leaf (R195). Bits of `flags`: the low byte
of the leaf. -/
def TlbEnt.serves (t : TlbEnt) (asid : BitVec 16) (va : Nat) (k : Need) : Bool :=
  (t.glob || t.asid == asid) && t.vbase == va / 2 ^ t.bits * 2 ^ t.bits &&
    allows (t.flags.zeroExtend 64) k && t.flags.getLsbD 6 && (!k.writes || t.flags.getLsbD 7)

/-- The entry that a walk makes of a leaf. G is the leaf's; that of a pointer is not looked at (log 85). -/
def Leaf.entry (l : Leaf) (asid : BitVec 16) (va : Nat) (e : BitVec 64) : TlbEnt :=
  { asid := asid, glob := e.getLsbD 5, vbase := va / 2 ^ l.bits * 2 ^ l.bits, bits := l.bits, pbase := ptePa e, flags := e.setWidth 8 }

/-- A stream TLB takes the entry of its current page and fetches that of the next one ahead (R196, R203), though the command may end in its
current page (log 114). A next page that does not translate, or lacks the right, is dropped and counted in DISCARDXL. -/
def State.fillStream (s : State) (c : Ctx) (port : Nat) (ent : TlbEnt) (k : Need) : State :=
  let next := BitVec.ofNat 64 (ent.vbase + 2 ^ ent.bits)
  let k0 := s.core c.core
  match peek s.dram c.root next k, walk s.dram c.root next.toNat with
  | .ok _, .ok l =>
    s.setCore c.core { k0 with streams := k0.streams.set port [ent, l.entry (rootAsid c.root) next.toNat l.pte] }
  | _, _ => s.setCore c.core ({ k0 with streams := k0.streams.set port [ent] }.bump 0x200 1)

/-- The entries that may serve an access: the core's, or those of a stream TLB. -/
def Core.entries (k : Core) (port : Option Nat) : List TlbEnt :=
  match port with
  | none => k.tlb
  | some p => k.streams.get [] p

/-- Drops entries from the TLBs of a core (R197, R198). -/
def Core.dropEntries (k : Core) (drop : TlbEnt → Bool) : Core :=
  { k with tlb := k.tlb.filter (fun t => !drop t), streams := k.streams.map (fun x => (x.1, x.2.filter (fun t => !drop t))) }

/-- A stream TLB whose next page's entry serves an access moves on to it (R196). -/
def State.streamOn (s : State) (c : Ctx) (port : Option Nat) (t : TlbEnt) (k : Need) : State :=
  match port with
  | some p => if ((s.core c.core).streams.get [] p).head? = some t then s else s.fillStream c p t k
  | none => s

/-- Translates an access of a context (R189, R190, R193 to R197): one of a copy channel through its stream TLB `port`. A TLB may serve
it, but none serves an access under a bad root word (R190); the core's may keep what a walk found, and a stream TLB keeps it. An address
past bit 48 under a bad root word is XLADDR (log 113). -/
def State.translateVia (s : State) (c : Ctx) (port : Option Nat) (va : BitVec 64) (k : Need) : XRes :=
  if va.toNat / 2 ^ 49 ≠ 0 then .fault ⟨xlAddr, none, false⟩
  else if badRoot c.root then .fault ⟨xlBad, none, false⟩
  else
    match ((s.core c.core).entries port).find? (fun t => t.serves (rootAsid c.root) va.toNat k) with
    | some t =>
      let pa := t.pbase + va.toNat % 2 ^ t.bits
      if k.writes && s.moving [pa / 64] then .busy else .ok pa (s.streamOn c port t k)
    | none =>
      match walk s.dram c.root va.toNat with
      | .error f => .fault f
      | .ok l =>
        if !allows l.pte k then .fault ⟨xlPerm, some (BitVec.ofNat 2 l.lvl), false⟩
        else if l.pte.getLsbD 60 && k.writes then .busy
        else
          let e := markPte l.pte k.writes
          let s1 := if e = l.pte then s else s.writeQuiet 0xFFFF (place l.addr (bytesOfNat 8 e.toNat))
          let ent := l.entry (rootAsid c.root) va.toNat e
          let s2 := { s1 with free := s1.free + 1 }
          let k' := s2.core c.core
          .ok (ptePa e + va.toNat % 2 ^ l.bits) (match port with
            | some p => s2.fillStream c p ent k
            | none => if Config.tlbKeeps s1.free then s2.setCore c.core { k' with tlb := (ent :: k'.tlb).take 256 } else s2)

/-- Translates an access of a context by its core's TLB. -/
def State.translate (s : State) (c : Ctx) (va : BitVec 64) (k : Need) : XRes := s.translateVia c none va k

/-- Translates an access that the scheduler makes, with no TLB: the walker sets A and D (R195, R233, R253). -/
def State.reachPage (s : State) (root va : BitVec 64) (k : Need) : XRes :=
  match peek s.dram root va k with
  | .error f => .fault f
  | .ok pa =>
    match walk s.dram root va.toNat with
    | .error f => .fault f
    | .ok l =>
      if l.pte.getLsbD 60 && k.writes then .busy
      else
        let e := markPte l.pte k.writes
        .ok pa (if e = l.pte then s else s.writeQuiet 0xFFFF (place l.addr (bytesOfNat 8 e.toNat)))

/-! ## Dropped translations -/

/-- An access at virtual address `va` of an address space may use a translation that is dropped (R198). -/
def mayUse (drop : TlbEnt → Bool) (asid : BitVec 16) (va : Nat) : Bool :=
  [13, 22, 31].any (fun b => [false, true].any (fun g =>
    drop { asid := asid, glob := g, vbase := va / 2 ^ b * 2 ^ b, bits := b, pbase := 0, flags := 0 }))

end Sys2Proof.Machine
end

