-- ==== Sys2Proof/Machine/Messages.lean ====
section
/-!
DEFINITION. Messages between home slices and cores (R225, R301, R303 to R305, R310, R312, R341): where an address has its home, the
module or port that serves it, the messages of atomics and reductions, and the reductions that are on their way.
-/
namespace Sys2Proof.Machine

/-! ## Sending over the die-to-die modules (R301, R305) -/

/-- The lowest die that is not dropped. -/
def State.firstDie (s : State) : Nat := ((List.range 3).find? (fun d => !s.dropped.contains d)).getD 0

/-- The die whose stack holds an address; 0 for the off-stack tier (R8, log 17). -/
def stackDie (pa : Nat) : Nat := if pa < stackTop then pa / stackBytes else 0

/-- The home die of an address: of a stack its die, of the off-stack tier by the interleave (log 3); what a dropped die was the home of
moves to another (R290). -/
def State.homeDie (s : State) (pa : Nat) : Nat :=
  let d := s.homes.get (stackDie pa) (pa / 64)
  if s.dropped.contains d then s.firstDie else d

/-- A link end by number: 0 to 35 the modules, from 64 on the Varob ports. -/
def State.link (s : State) (m : Nat) : Link := s.links.get Link.trained m

/-- Replaces a link. -/
def State.setLink (s : State) (m : Nat) (l : Link) : State := { s with links := s.links.put Link.trained m l }

/-- The pair number of two dies and whether the direction from the first to the second is `up` (R305): up runs from die 0
to 1, from 1 to 2, from 2 to 0. -/
def diePair (a b : Nat) : Nat × Bool :=
  if (a + 1) % 3 = b then (a, true) else (b, false)

/-- The working modules of a pair (R301). -/
def State.modules (s : State) (q : Nat) : List Nat :=
  ((List.range 12).map (fun i => 12 * q + i)).filter (fun m => (s.link m).width != 0)

/-- The module that serves a granule (R301): one of the pair's twelve by its address, or the next one of them that works, so that
a module that is disabled moves its own granules only (R309, R341; log 86). -/
def State.moduleFor (s : State) (q pa : Nat) : Option Nat :=
  ((List.range 12).map (fun i => 12 * q + (pa / 64 + 1 + i) % 12)).find? (fun m => (s.link m).width != 0)

/-- One direction of a link. -/
def Link.dir (l : Link) (up : Bool) : Dir := if up then l.up else l.down

/-- Replaces one direction of a link. -/
def Link.setDir (l : Link) (up : Bool) (d : Dir) : Link := if up then { l with up := d } else { l with down := d }

/-- Queues a message on one direction of a link. -/
def State.sendOn (s : State) (link : Nat) (up : Bool) (msg : List (BitVec 64)) : State :=
  let l := s.link link
  let d := l.dir up
  s.setLink link (l.setDir up { d with msgs := d.msgs ++ [msg] })

/-- Hands a message to the module that serves the granule (R301, R341). -/
def State.post (s : State) (a b pa : Nat) (msg : List (BitVec 64)) : State :=
  let (q, up) := diePair a b
  match s.moduleFor q pa with
  | none => s
  | some m => s.sendOn m up msg

/-- The Varob port that leads to a die of another package, by the flash's link map (R310, R330; log 87). -/
def State.portFor (s : State) (die : Nat) : Option Nat :=
  let ps := ((List.range 12).map (64 + ·)).filter (fun m => (s.link m).width != 0)
  if ps.isEmpty then none else ps[Config.route ((List.range 64).map (fun i => s.flash.get 0 (0x40 + i))) die % ps.length]?

/-- The link on which an answer goes: its request's, or one that now serves in the place of it (R309, R310). -/
def State.liveLink (s : State) (m pa : Nat) : Nat :=
  if (s.link m).width != 0 then m
  else if m < 36 then (s.moduleFor (m / 12) pa).getD m
  else (((List.range 12).map (64 + ·)).find? (fun k => (s.link k).width != 0)).getD m

/-- Sends an answer about an address. -/
def State.answerOn (s : State) (m : Nat) (back : Bool) (pa : Nat) (msg : List (BitVec 64)) : State :=
  s.sendOn (s.liveLink m pa) back msg

/-- Sends a message from a die of this package to the home of an address: over a module, or over a port to another package. -/
def State.sendTo (s : State) (die pa : Nat) (msg : List (BitVec 64)) : State :=
  let home := s.homeDie pa
  if home < 3 then s.post die home pa msg
  else
    match s.portFor (home - 3) with
    | some m => s.sendOn m true msg
    | none => s

/-- The header slot of a message (R303). -/
def msgHeader (mtype len : BitVec 6) (tag core : Nat) (op : BitVec 4) (size : BitVec 2) (kind ftype : BitVec 4) :
    BitVec 64 :=
  mtype ++ len.extractLsb' 0 5 ++ BitVec.ofNat 16 tag ++ BitVec.ofNat 9 core ++ op ++ size ++ kind ++ ftype ++ 0#14

/-- OP of an AMO message (R303, R116). -/
def amoCode (a : Atomic) : BitVec 4 := if a.cmp.isSome then 0xF else (a.op.code).setWidth 4

/-- The request message of an atomic (R303). -/
def amoRequest (a : Atomic) (tag core : Nat) : List (BitVec 64) :=
  match a.cmp with
  | none => [msgHeader 5 3 tag core (amoCode a) a.size.code 0 0, BitVec.ofNat 64 a.pa, a.val]
  | some e => [msgHeader 5 4 tag core (amoCode a) a.size.code 0 0, BitVec.ofNat 64 a.pa, a.val, e]

/-- The response message of an atomic: TAG, CORE, OP and SIZE are the request's (R303). -/
def amoResponse (tag core : Nat) (op : BitVec 4) (size : Size) (old : BitVec 64) : List (BitVec 64) :=
  [msgHeader 6 2 tag core op size.code 0 0, old]

/-- A write acknowledge (R303, R304). -/
def ackMsg (tag core : Nat) : List (BitVec 64) := [msgHeader 4 1 tag core 0 0 0 0]

/-- The message of a reduction (R304). -/
def redMsg (r : Red) : List (BitVec 64) :=
  let pa (a : Nat) : BitVec 64 := BitVec.ofNat 64 a
  if r.kind = 0 then [msgHeader 7 3 r.tag r.core (r.op.code.setWidth 4) r.size.code 0 0, pa r.pa, r.val]
  else if r.kind = 3 then [msgHeader 7 5 r.tag r.core 0 3 3 0, pa r.pa, pa r.e1, pa r.e2, r.val]
  else [msgHeader 7 3 r.tag r.core 0 r.size.code (BitVec.ofNat 4 r.kind) r.ty.code, pa r.pa, r.val]

/-! ## Reductions on their way (R225, R304) -/

/-- A TAG stands for a reduction, a request sent on, or a read or write on its way that names this core. -/
def State.tagUsed (s : State) (core t : Nat) : Bool :=
  s.reds.any (fun r => r.core == core && r.tag == t) || s.relays.any (fun r => r.core == core && r.out == t) ||
    s.fars.any (fun r => r.core == core && r.tag == t)

/-- The smallest TAG from `lo` on that stands for nothing of a core (logs 86, 109). -/
def State.tagFrom (s : State) (lo core : Nat) : Nat :=
  (((List.range (s.reds.length + s.relays.length + s.fars.length + 1)).map (lo + ·)).find? (fun t => !s.tagUsed core t)).getD lo

/-- The TAG of a reduction (log 86). -/
def State.freeTag (s : State) (core : Nat) : Nat := s.tagFrom 0 core

/-- A reduction leaves its core: for a home slice on its own die, or as a message to another (R301, R304, R312). -/
def State.dispatchRed (s : State) (r : Red) : State :=
  if s.homeDie r.pa = dieOf r.core then { s with reds := s.reds ++ [r] }
  else
    let r1 := { r with tag := s.freeTag r.core, stage := .sent }
    { s with reds := s.reds ++ [r1] }.sendTo (dieOf r.core) r.pa (redMsg r1)

/-- A reduction that waited in the home slice has been applied: one that came as a message is acknowledged (R304). -/
def State.ackRed (s : State) (r : Red) : State :=
  match r.reply with
  | none => { s with reds := s.reds.erase r }
  | some (l, back) =>
    { s with reds := if r.cid = 0 then s.reds.erase r else s.reds.replace r { r with stage := .done } }.answerOn l back
      r.pa (ackMsg r.tag r.core)

/-- Reductions of a core that their home slices have not yet acknowledged (R72). -/
def State.unacked (s : State) (core : Nat) : Bool := s.reds.any (fun r => r.cid != 0 && r.core == core)

/-- Reductions of a context, or of its member, that are not yet applied (R221, R231); a handler counts its own. -/
def State.unapplied (s : State) (c : Ctx) : Bool :=
  s.reds.any (fun r => r.cid != 0 && r.stage != .done &&
    (r.cid == c.cid || (c.isRegular && r.lid == c.lid && r.idx == c.idx)))

/-! ## Reads and writes in the memory of other packages (R303, R310; log 109) -/

/-- The aligned 8-byte words of other packages that some ranges touch. -/
def State.farWords (s : State) (ps : List (Nat × Nat)) : List Nat :=
  ((ps.flatMap (fun p => (List.range p.2).map (fun i => (p.1 + i) / 8 * 8))).eraseDups).filter (fun w => decide (3 ≤ s.homeDie w))

/-- Asks for a word of another package. -/
def State.ask (s : State) (c : Ctx) (eng w : Nat) : State :=
  let t := s.tagFrom 1 c.core
  ({ s with fars := s.fars ++ [{ cid := c.cid, eng := eng, pa := w, tag := t, core := c.core, write := false, done := false }] } : State).sendTo
    (dieOf c.core) w [msgHeader 1 2 t c.core 0 3 0 0, BitVec.ofNat 64 w]

/-- The words of other packages among some ranges have been read, and the reads are over (true); or they are asked for (false). -/
def State.fetchFar (s : State) (c : Ctx) (eng : Nat) (ps : List (Nat × Nat)) : Bool × State :=
  let mine (r : Far) : Bool := r.cid == c.cid && r.eng == eng && !r.write
  let ws := s.farWords ps
  if ws.isEmpty then (true, s)
  else if ws.all (fun w => s.fars.any (fun r => mine r && r.pa == w && r.done)) then
    (true, { s with fars := s.fars.filter (fun r => !(mine r && r.done)) })
  else (false, (ws.filter (fun w => !s.fars.any (fun r => mine r && r.pa == w))).foldl (fun t w => t.ask c eng w) s)

/-- A state with what it has asked other packages for. -/
def State.asking (s s1 : State) : State := { s with fars := s1.fars, links := s1.links }

/-- Bytes that follow one another inside an aligned 8-byte word. -/
def runsOf : List (Nat × Byte) → List (Nat × List Byte)
  | [] => []
  | (a, b) :: r =>
    match runsOf r with
    | (x, bs) :: rs => if x = a + 1 ∧ x % 8 ≠ 0 then (a, b :: bs) :: rs else (a, [b]) :: (x, bs) :: rs
    | [] => [(a, [b])]

/-- Sends the bytes of a write that are homed in other packages there. -/
def State.sendFar (s : State) (c : Ctx) (eng : Nat) (bs : List (Nat × Byte)) : State :=
  (runsOf (bs.filter (fun x => decide (3 ≤ s.homeDie x.1)))).foldl (fun u x =>
    let t := u.tagFrom 1 c.core
    ({ u with fars := u.fars ++ [{ cid := c.cid, eng := eng, pa := x.1, tag := t, core := c.core, write := true, done := false }] } : State).sendTo
      (dieOf c.core) x.1 (msgHeader 3 (BitVec.ofNat 6 (2 + x.2.length)) t c.core 0 0 0 0 :: BitVec.ofNat 64 x.1 ::
        x.2.map (fun (b : Byte) => b.setWidth 64))) s

/-- Every write of a context to other packages has been acknowledged; of one engine, or of the control sequencer. -/
def State.farDone (s : State) (cid eng : Nat) : Bool := s.fars.all (fun r => !(r.cid == cid && r.eng == eng && r.write))

end Sys2Proof.Machine
end

