-- ==== Sys2Proof/Machine/Ops.lean ====
section
/-!
DEFINITION. The shared operations of words: what a word's meaning may answer, taking a trap and its suspension (R200,
R264 to R269), the issue and retirement every word shares (guards, header waits and signals, loops, broadcasts, legs),
and fetching.
-/
namespace Sys2Proof.Machine

/-- The outcome type of every meaning. -/
abbrev Out := Host.Outcome State Fault Refusal

/-! ## Fetching -/

/-- Offset of a sequencer's instruction memory in an image (R80). -/
def Sq.offset : Sq → Nat
  | .ctl => 0x00000
  | .load => 0x10000
  | .store => 0x28000
  | .comp => 0x40000

/-- Bytes of an instruction memory (R80). -/
def memLimit (q : Sq) : Nat := q.unit * q.limit

/-- Bytes of an image from an offset on. -/
def Plane.read (p : Plane) (off : Nat) : Nat → List Byte
  | 0 => []
  | n + 1 => p.bytes.get 0 off :: Plane.read p (off + 1) n

/-- The bytes from index `idx` on, at most three words or slots, never past the end of the memory (R108). -/
def Plane.fetch (p : Plane) (q : Sq) (idx : Nat) : List Byte :=
  p.read (Sq.offset q + q.unit * idx) (q.unit * min 3 (q.limit - idx))

/-- The decoded word of a sequencer at an index, from the active plane of a core. An invalid plane reads zeros. -/
def State.fetch (s : State) (p : Nat) (q : Sq) (idx : Nat) : Except Reject (Instr × Nat) :=
  decode q idx (((s.core p).plane.getD ⟨0, [], []⟩).fetch q idx)

/-- The index after `n` words from `idx` on (R390: a word counts once whatever its slots; a word that is no instruction
counts as one slot), at most one past the last (R108). -/
def skipWords (p : Plane) (q : Sq) : Nat → Nat → Nat
  | 0, idx => idx
  | n + 1, idx =>
    if q.limit ≤ idx then q.limit
    else
      skipWords p q n (idx + (match decode q idx (p.fetch q idx) with
        | .ok (_, len) => len
        | .error _ => 1))

/-! ## Traps -/

/-- A trap that no memory access raised. -/
def mkTrap (cause : Nat) (tval : Word) : TrapRec :=
  { cause := cause, tval := tval, vaddr := tval.zeroExtend 64, acc := 0, lvl := 0, tlost := false, dc := 0, loss := none,
    flags := 0, lost := [], sq := .ctl, held := false, place := false }

/-- A trap of a memory access: the low 32 bits of the address in TVAL, the address in VADDR, the kind of access. -/
def memTrap (cause : Nat) (va : BitVec 64) (acc : BitVec 3) : TrapRec :=
  { mkTrap cause (va.setWidth 32) with vaddr := va, acc := acc }

/-- ACC code of an access (R201). -/
def Need.acc : Need → BitVec 3
  | .read => 0
  | .write => 1
  | .both => 2
  | .exec => 3

/-- A translation fault as a trap (R199 to R201). -/
def xTrap (free : Nat) (f : XFault) (va : BitVec 64) (k : Need) : TrapRec :=
  { memTrap f.cause va k.acc with lvl := f.lvl.getD (Config.recordLevel free), tlost := f.lost }

/-- Number of a sequencer (R201). -/
def Sq.num : Sq → BitVec 2
  | .ctl => 0
  | .load => 1
  | .store => 2
  | .comp => 3

/-- The CAUSE register (R265). -/
def causeWord (impr : Bool) (q : Sq) (code : Nat) : Word :=
  BitVec.ofBool impr ++ Sq.num q ++ 0#21 ++ BitVec.ofNat 8 code

/-- Vacates the lost words of a record's range (R176). -/
def vacateRange (u e : Nat) (m : Mem) (a : Nat) : Nat → Mem
  | 0 => m
  | n + 1 => vacateRange u e (m.vacateWord u e a) (a + e) n

/-- Vacates what a LOST names, in DRAM or in the context's local memory (R176). -/
def State.takeLost (s : State) (c : Ctx) : List (Space × Nat × Nat) → State × Ctx
  | [] => (s, c)
  | (.global, a, n) :: r => State.takeLost { s with dram := vacateRange 64 64 s.dram a (n / 64) } c r
  | (.sp, a, n) :: r => State.takeLost s { c with sp := vacateRange 2 8 c.sp a (n / 8) } r
  | (.can, a, n) :: r => State.takeLost s { c with can := vacateRange 2 8 c.can a (n / 8) } r

/-- The event of a loss record (R176, R296). -/
def lossEvent (t : TrapRec) : List Event :=
  match t.loss with
  | some bs => [{ type := 2, bytes := bs, cid := none }]
  | none => []

/-- Suspends a context (R200 steps 1, 2 and 4): results land in forked mode and stay in flight in joined mode; every EPC
holds its sequencer's next index, but `epc` where the trap names the index of a command or of an issued word. -/
def State.suspend (s : State) (c : Ctx) (q : Sq) (impr : Bool) (epc : Option Nat) (t : TrapRec) : State :=
  let c1 := if c.joined then c else c.landIf (fun _ => true)
  let c2 := c1.onAll (fun x => { x with epc := BitVec.ofNat 32 x.pc })
  let c3 := match epc with
    | some e => c2.onSeqr q (fun x => { x with epc := BitVec.ofNat 32 e })
    | none => c2
  let (s1, c4) := s.takeLost c3 t.lost
  let c5 := { c4 with stat := .trapped, cause := causeWord impr q t.cause, tval := t.tval,
                      trap := some { t with sq := q, held := epc.isSome },
                      sticky := c4.sticky ||| t.flags }
  { s1.setCtx c5 with events := s1.events ++ lossEvent t, last := .trapped }

/-- The cause comes with the access that raised it, so its trap names that access's kind. -/
def ownAccess (cause : Nat) : Bool :=
  cause == 0x0A || cause == 0x0D || cause == 0x0E || (decide (0x10 ≤ cause) && decide (cause ≤ 0x13)) ||
    (decide (0x18 ≤ cause) && decide (cause ≤ 0x1B)) || cause == 0x20 || cause == 0x2A

/-- A trap that no access raised carries the kind of access that its word makes (R296). -/
def TrapRec.wordAcc (a : BitVec 3) (t : TrapRec) : TrapRec := if ownAccess t.cause then t else { t with acc := a }

/-- The kind of access of a trapping word goes into the trap that its context has taken (R296). -/
def State.stampAcc (s : State) (a : BitVec 3) : State :=
  match s.activeCtx s.focus.1 with
  | some c => s.setCtx { c with trap := c.trap.map (TrapRec.wordAcc a) }
  | none => s

/-- What a word answers, whose accesses are of kind `a` (R296). -/
def accOut (a : BitVec 3) (o : Out) : Out :=
  match o with
  | .next s => .next (if s.last = .trapped then s.stampAcc a else s)
  | o => o

/-- A step that changes nothing but says that the word did not issue. -/
def State.stalled (s : State) : State := { s with last := .stalled }

/-- Something waits for the context's exposed leg to be safe (R217, R218). -/
def State.waitSafe (s : State) (c : Ctx) : State := (s.keep { c with want := true }).stalled

/-- A precise trap of sequencer `q` before its word issues; it waits for the member's exposed legs (R218, R269). -/
def State.trapHere (s : State) (c : Ctx) (q : Sq) (t : TrapRec) : State :=
  if s.escapeOk c then s.suspend c q false none t else s.waitSafe c

/-! ## What a word's body answers -/

/-- Where a word sends its sequencer (R75); after `stay` its body has already moved the program counter. -/
inductive Jump where
  | none
  | stay
  | branch (target : Nat)
  | call (target : Nat)
  | leave (target : Nat)
  deriving DecidableEq, Repr

/-- The answer of a word's body. -/
inductive Res where
  /-- The word is done; `signalled` says that its header signal is taken care of elsewhere. -/
  | done (s : State) (c : Ctx) (j : Jump) (signalled : Bool)
  /-- The word cannot issue; a WAITM leaves its waiter, an escape its wish (`want`), a store or an atomic its `hold`, an ABOP its `abop`
  in `c`, and PLSW the fill it has asked for in `s`. -/
  | stall (s : State) (c : Ctx)
  /-- A precise trap: the word has no effect. -/
  | trap (s : State) (t : TrapRec)
  /-- TRAP: the word issues, and the trap is taken after it (R453). -/
  | after (s : State) (c : Ctx) (t : TrapRec)
  /-- The word's context stops or leaves the core, and nothing more of the word retires (ERET, DBRK, OABT). -/
  | left (s : State)
  /-- The machine stops. -/
  | dead (f : Fault)

/-- A plain completion. -/
def Res.ok (s : State) (c : Ctx) : Res := .done s c .none false

/-! ## Retirement -/

/-- The loop tests at the retirement of index `idx` (R74, R398): the loops and counters after them, and the index of
a branch back, from the most recently started loop outwards. -/
def loopTests (x : Seqr) (idx : Nat) : List LoopSt → Seqr × List LoopSt × Option Nat
  | [] => (x, [], none)
  | l :: ls =>
    if l.last = idx then
      if 1 < (x.lcVal l.lc).toNat then (x.setLc l.lc (x.lcVal l.lc - 1), l :: ls, some l.first)
      else loopTests (x.setLc l.lc 0) idx ls
    else
      let (x', ls', b) := loopTests x idx ls
      (x', l :: ls', b)

/-- A loop's body holds an index. -/
def LoopSt.holds (l : LoopSt) (t : Nat) : Bool := decide (l.first ≤ t) && decide (t ≤ l.last)

/-- Loops of which `idx` is not the last word, and that a transfer to `t` leaves, end (R75). -/
def leaveLoops (idx t : Nat) (ls : List LoopSt) : List LoopSt := ls.filter (fun l => l.last == idx || l.holds t)

/-- The program counter after a word of `len` words at `x.pc` (R74, R75, R76, R390). A word of a broadcast body that is the last
word of an active loop has the loop's test as well; the broadcast goes on to its end all the same, and at its very last word
the test's branch back is taken (log 83). A LOOP of count 0 and a LEXIT end no loop but their own, though one whose body shares that last word
then goes on past its body (log 56). -/
def Seqr.advance (x : Seqr) (len : Nat) (j : Jump) : Seqr :=
  let next := x.pc + len
  let (y, ls, back) := loopTests x x.pc x.loops
  match x.bcast with
  | some b =>
    if b.pos + 1 < b.len then { y with loops := ls, pc := next, bcast := some { b with pos := b.pos + 1 } }
    else if 1 < b.left then { y with loops := ls, pc := b.first, bcast := some { b with pos := 0, left := b.left - 1 } }
    else { y with loops := ls, pc := back.getD next, bcast := none }
  | none =>
    match back with
    | some p => { y with loops := ls, pc := p }
    | none =>
      match j with
      | .none | .stay => { y with loops := ls, pc := next }
      | .branch t => { y with loops := leaveLoops x.pc t ls, pc := t }
      | .call t => { y with loops := ls, pc := t }
      | .leave t => { y with loops := ls, pc := t }

/-- Counts a retired control word in its leg (R34); a handler's words are not counted. A CSRW of lcnt sets the count
after itself (R372). -/
def Leg.counted (handler : Bool) (l : Leg) : Leg :=
  { l with count := l.preset.getD (if handler then l.count else l.count + 1), preset := none }

/-- Counts a retired word of a sequencer. -/
def Ctx.countWord (c : Ctx) (q : Sq) : Ctx :=
  match q with
  | .ctl => { c with leg := c.leg.map (Leg.counted c.isHandler) }
  | _ => c

/-- Retires a word of sequencer `q`. -/
def Ctx.retire (c : Ctx) (q : Sq) (len : Nat) (j : Jump) (sig : BitVec 8) : Ctx :=
  ((c.onSeqr q (fun x => { (if j = .stay then x else x.advance len j) with once := { watch := false, dbrk := false } })).countWord
    q).sigField sig

/-! ## Issue -/

/-- The open leg has its 2,048 words, so LEG_COUNT_END comes before the next control word (R32). -/
def Ctx.legFull (c : Ctx) : Bool :=
  match c.leg with
  | some l => decide (2048 ≤ l.count)
  | none => false

/-- Something holds this sequencer: it does not run, a pending atomic or barrier holds the control sequencer (in joined
mode the long word), or the leg must end first. -/
def Ctx.blocked (c : Ctx) (q : Sq) : Bool :=
  !(c.stat == .running || c.stat == .inverse) || (c.seqr q).run != .running ||
    (c.pend.isSome && (q == .ctl || c.joined || c.again)) || (q == .ctl && c.legFull)

/-- A header wait by `n` would succeed (R63, R445). -/
def Ctx.waitOk (c : Ctx) (sem : BitVec 8) (n : Nat) : Bool :=
  decide (n ≤ (if c.joined then c.semTest sem else c.sem sem).toNat)

/-- Takes `n` from a semaphore (R63). In a joined long word the take stands in `semT` until the long word's signals have
applied (R65). -/
def Ctx.takeSem (c : Ctx) (sem : BitVec 8) (n : Nat) : Ctx :=
  if c.joined then { c with semT := c.semT.put 0 sem.toNat (BitVec.ofNat 20 ((c.semTest sem).toNat - n)) }
  else c.setSem sem (BitVec.ofNat 20 ((c.sem sem).toNat - n))

/-- The take of a word's own header wait is applied at once, ahead of its own signals (R444). -/
def Ctx.takeNow (c : Ctx) (sem : BitVec 8) : Ctx :=
  if c.joined && c.sem sem != 0 then
    { c.setSem sem (c.sem sem - 1) with semS := c.semS.put 0 sem.toNat (c.semS.get 0 sem.toNat - 1) }
  else c

/-- Applies the takes of a joined long word from semaphores that held `start` before it, less what was taken at once (R65). Where the long word's own SEMI
has left less than the take, the value is free (log 13). -/
def Ctx.applyTakes (free : Nat) (c : Ctx) : SMap (BitVec 20) → Ctx
  | [] => c
  | (k, v) :: r =>
    let n := v.toNat - (c.semT.get 0 k).toNat
    let now := (c.sems.get 0 k).toNat
    let w := if n ≤ now then BitVec.ofNat 20 (now - n) else Config.semShort free
    Ctx.applyTakes free (if n = 0 then c else { c with sems := c.sems.put 0 k w }) r

/-- The broadcast body that the sequencer runs has been cancelled (R79). -/
def Ctx.cancelled (c : Ctx) (q : Sq) : Bool :=
  match (c.seqr q).bcast with
  | some b => b.cancel
  | none => false

/-- The state after a word that issued. -/
def State.issued (s : State) (c : Ctx) : State := { s.keep c with last := .issued }

/-- What a word does after its wait, by its body's answer. `c0` is the context before the wait. -/
def settle (s : State) (c0 : Ctx) (q : Sq) (len : Nat) (sig : BitVec 8) (r : Res) : Out :=
  match r with
  | .done s' c' j signalled => .next (s'.issued (c'.retire q len j (if signalled then 0xFF else sig)))
  | .stall s' c' => .next ((s'.keep { c0 with waitm := c'.waitm, want := c'.want, hold := c'.hold, abop := c'.abop }).stalled)
  | .trap s' t => .next (if s.escapeOk c0 then s'.suspend c0 q false none t else s.waitSafe c0)
  | .after s' c' t => .next (s'.suspend (c'.retire q len .none sig) q false none t)
  | .left s' => .next { s' with last := .gone }
  | .dead f => .fault f

/-- The context in which a word's body runs: its header wait is taken, and the leg of a control word is open (R32, R63). -/
def Ctx.begun (c : Ctx) (q : Sq) (h : Hd) : Ctx :=
  let c1 := if h.wait = 0xFF then c else c.takeSem h.wait 1
  if q = .ctl then c1.withLeg else c1

/-- A word with header `h` comes to its body: `c` is active on the core in focus, nothing holds the sequencer, the header wait
succeeds, no cancelled broadcast passes it over, and its guard can be read. -/
def State.reaches (s : State) (c : Ctx) (h : Hd) : Prop :=
  s.activeCtx s.focus.1 = some c ∧ c.blocked s.focus.2 = false ∧ (h.wait = 0xFF ∨ c.waitOk h.wait 1 = true) ∧
    c.cancelled s.focus.2 = false ∧ (c.checkMode && c.predPending s.focus.2 h.pred) = false

/-- The issue of a word by the sequencer in focus. `always` gives the body the word even when its guard is false, `kept` even in a
cancelled broadcast body. -/
def runWordIn (kept : Bool) (h : Hd) (len : Nat) (always : Bool) (s : State) (body : State → Ctx → Res) : Out :=
  match s.activeCtx s.focus.1 with
  | none => .fault .noContext
  | some c0 =>
    let q := s.focus.2
    if c0.blocked q then .next s.stalled
    else if h.wait != 0xFF && !c0.waitOk h.wait 1 then .next s.stalled
    else
      let c2 := c0.begun q h
      if c0.cancelled q && !kept then .next (s.issued (c2.retire q len .none h.sig))
      else if c0.checkMode && c0.predPending q h.pred then settle s c0 q len h.sig (.trap s (mkTrap 0x09 0))
      else if (c0.seqr q).guard h || always then settle s c0 q len h.sig (body s c2)
      else .next (s.issued (c2.retire q len .none h.sig))

/-- The issue of a word that a cancelled broadcast body passes over but for its header (R79). -/
def runWord (h : Hd) (len : Nat) (always : Bool) (s : State) (body : State → Ctx → Res) : Out := runWordIn false h len always s body

/-- A word whose effect is on its context alone. -/
def pureWord (h : Hd) (s : State) (f : Ctx → Ctx) : Out :=
  runWord h 1 false s (fun s c => .ok s (f c))

/-- An escape waits until its leg is safe (R217). Only control words are escapes. -/
def escape (s : State) (c : Ctx) (r : Res) : Res :=
  if s.focus.2 = .ctl ∧ ¬ s.escapeOk c then .stall s { c with want := true } else r

end Sys2Proof.Machine
end

