-- ==== Sys2Proof/Machine/Streams.lean ====
section
/-!
DEFINITION. Stream descriptors (R180, R181): their fields, the address of an element, the cursor; and the local elements
that commands of the matrix array have still to write (R59).
-/
namespace Sys2Proof.Machine

/-- CUR. -/
def stCur (d : BitVec 256) : Nat := (d.extractLsb' 224 32).toNat

/-- COUNT. -/
def stCount (d : BitVec 256) : Nat := (d.extractLsb' 192 32).toNat

/-- WRAP. -/
def stWrap (d : BitVec 256) : Nat := (d.extractLsb' 168 24).toNat

/-- STRIDE. -/
def stStride (d : BitVec 256) : Int := (d.extractLsb' 144 24).toInt

/-- BASE. -/
def stBase (d : BitVec 256) : Nat := (d.extractLsb' 120 24).toNat

/-- Bytes of an element (ESIZE). -/
def stWidth (d : BitVec 256) : Nat :=
  match (d.extractLsb' 2 2).toNat with
  | 0 => 1
  | 1 => 2
  | 2 => 4
  | _ => 6

/-- SPACE of a checked descriptor. -/
def stSpace (d : BitVec 256) : Space := if d.extractLsb' 0 2 = 2 then .can else .sp

/-- Address of element `i` of an operand with offset `o` (R181). -/
def stAddr (d : BitVec 256) (o i : Nat) : Int :=
  let e := (stCur d + o + i) % stCount d
  let slot := if stWrap d = 0 then e else e % stWrap d
  (stBase d : Int) + (slot : Int) * stStride d

/-- A descriptor with another CUR. -/
def setCur (d : BitVec 256) (v : Nat) : BitVec 256 := BitVec.ofNat 32 v ++ d.extractLsb' 0 224

/-- Advances a stream by a span (R181). -/
def Ctx.advance (c : Ctx) (n : BitVec 6) (span : Nat) : Ctx :=
  c.setDescr n (setCur (c.descr n) ((stCur (c.descr n) + span) % stCount (c.descr n)))

/-- Elements that AST or ACVT writes to its stream, and their width; none for the other words. -/
def mxStores (op : MxOp) (f : MxF) : Nat × Nat :=
  match op with
  | .ast => (4160, 6)
  | .acvt => if f.xsel then (0, 0) else (4096, f.af.bits / 8)
  | _ => (0, 0)

/-- A command has still to write a byte of a local range. Rows of ACVT that are in flight count by themselves. -/
def MCmd.pending (m : MCmd) (a n : Nat) : Bool :=
  let (k, w) := mxStores m.op m.f
  let base : Int := if stSpace m.da = .can then (canBase : Int) else 0
  !m.cancel && !m.rows && (List.range k).any (fun i =>
    let x := base + stAddr m.da m.f.aoff.toNat i
    decide (x < (a : Int) + n) && decide ((a : Int) < x + w))

/-- Commands of the array that have not retired. -/
def Ctx.mxCmds (c : Ctx) : List MCmd := c.mx.active.toList ++ c.mx.shadow.toList

/-- The pending bit of a byte of a local range (R59; `canBase` and up: canopy). -/
def Ctx.pendingAt (c : Ctx) (a n : Nat) : Bool := c.localPending a n || c.mxCmds.any (fun m => m.pending a n)

/-- ACVT writes vector register `n` (R351). -/
def MCmd.writesV (m : MCmd) (n : Nat) : Bool :=
  m.op == .acvt && m.f.xsel && !m.cancel && !m.rows && decide (m.f.imm.toNat ≤ n) &&
    (m.f.af.bits == 16 || decide ((n - m.f.imm.toNat) / 2 * 2 + 1 + m.f.imm.toNat ≤ 31))

/-- The pending bit of a vector register (R59). -/
def Ctx.vPending (c : Ctx) (n : BitVec 5) : Bool := c.vregPending n || c.mxCmds.any (fun m => m.writesV n.toNat)

end Sys2Proof.Machine
end

