-- ==== Sys2Proof/Machine/Operands.lean ====
section
/-!
DEFINITION. Operand forms: scalar registers and their results (R56 to R61), addresses (R391), reads of local memory and of
DRAM with their traps (R59, R166, R176, R178), the watch filter (R322), the race test (R232, R323), and stores into a leg.
-/
namespace Sys2Proof.Machine

/-! ## Registers -/

/-- STALE (R59). -/
def staleTrap : TrapRec := mkTrap 0x09 0

/-- Reads scalar registers of the sequencer in focus: under check mode a pending one traps STALE (R59). -/
def reading (s : State) (c : Ctx) (rs : List (BitVec 5)) (k : Seqr → Res) : Res :=
  if c.checkMode && rs.any (c.regPending s.focus.2) then .trap s staleTrap else k (c.seqr s.focus.2)

/-- The registers of a pair field (R104). -/
def pairRegs (n : BitVec 4) : List (BitVec 5) := [n ++ 0#1, n ++ 1#1]

/-- A result in flight with no signal of its own. -/
def Ctx.flightOf (c : Ctx) (q : Sq) (d : Dest) (v : VWord) (lat : Nat) (flags : BitVec 5) : Flight :=
  { sq := q, dest := d, val := v, mask := BitVec.allOnes 1024, due := c.t + lat, sig := 0xFF, flags := flags, leg := none, vno := 0 }

/-- Sticky flags of a word that writes no register: they land at the latency of its class, one schedule cycle (R336, R374). -/
def Ctx.flagAt (c : Ctx) (q : Sq) (leg : Option Nat) (b : BitVec 5) : Ctx :=
  if b = 0 then c else c.launchResult { c.flightOf q .none 0 1 b with leg := leg }

/-- Fills the latches of a sequencer (R60). -/
def Ctx.latch (c : Ctx) (q : Sq) (v : VWord) (lat : Nat) : Ctx :=
  c.onSeqr q (fun x => x.latch { val := v, due := c.t + lat })

/-- Issues a scalar result that lands after `lat` schedule cycles, with its sticky flags. -/
def Ctx.scalarFlag (c : Ctx) (q : Sq) (d : BitVec 5) (v : Word) (lat : Nat) (flags : BitVec 5) : Ctx :=
  (c.launchResult (c.flightOf q (.reg d) (v.setWidth 1024) lat flags)).latch q (v.setWidth 1024) lat

/-- Issues a scalar result. -/
def Ctx.scalar (c : Ctx) (q : Sq) (d : BitVec 5) (v : Word) (lat : Nat) : Ctx := c.scalarFlag q d v lat 0

/-- The flags of the newest results are held with the open leg as they land (R217). -/
def Ctx.heldIn (c : Ctx) (n : Nat) (k : Nat) : Ctx :=
  { c with flight := c.flight.take (c.flight.length - k) ++ (c.flight.drop (c.flight.length - k)).map (fun f => { f with leg := some n }) }

/-- Issues a pair result: s[d] and s[d + 1] (R354). What its latch reads is not stated (log 12). -/
def Ctx.pairFlag (c : Ctx) (free : Nat) (q : Sq) (d : BitVec 5) (v : DWord) (lat : Nat) (flags : BitVec 5) : Ctx :=
  ((c.launchResult (c.flightOf q (.reg d) ((v.extractLsb' 0 32).setWidth 1024) lat flags)).launchResult
    (c.flightOf q (.reg (d + 1)) ((v.extractLsb' 32 32).setWidth 1024) lat 0)).latch q (Config.latchOther free) lat

/-- Issues a predicate result. What its latch reads is not stated (log 12). -/
def Ctx.predResult (c : Ctx) (free : Nat) (q : Sq) (d : BitVec 3) (b : Bool) (lat : Nat) : Ctx :=
  (c.launchResult (c.flightOf q (.pred d) (if b then 1 else 0) lat 0)).latch q (Config.latchOther free) lat

/-- A word that reads registers and issues one scalar result. -/
def scalarWord (h : Hd) (s : State) (d : BitVec 5) (rs : List (BitVec 5)) (lat : Nat) (f : Seqr → Word) : Out :=
  runWord h 1 false s (fun s c => reading s c rs (fun x => .ok s (c.scalar s.focus.2 d (f x) lat)))

/-- A word that reads registers and issues a pair result. -/
def pairWord (h : Hd) (s : State) (d : BitVec 5) (rs : List (BitVec 5)) (lat : Nat) (f : Seqr → DWord) : Out :=
  runWord h 1 false s (fun s c => reading s c rs (fun x => .ok s (c.pairFlag s.free s.focus.2 d (f x) lat 0)))

/-! ## Addresses -/

/-- pair(base) + sext(off24, 24). -/
def Seqr.addr (x : Seqr) (base : BitVec 4) (off : BitVec 24) : BitVec 64 := x.pair base + off.signExtend 64

/-- Where a scalar address points (R391). -/
inductive Place where
  | global
  | here (sp : Space) (a : Nat)
  | bad (t : TrapRec)
  deriving DecidableEq

/-- LOCALRANGE (R264). -/
def rangeTrap (a : Nat) : TrapRec := mkTrap 0x0A (BitVec.ofNat 32 a)

/-- ENGINE (R264). -/
def engineTrap : TrapRec := mkTrap 0x02 0

/-- MODE. -/
def modeTrap : TrapRec := mkTrap 0x03 0

/-- OUTCTX. -/
def outctxTrap : TrapRec := mkTrap 0x21 0

/-- ALIGN of an address. -/
def alignTrap (va : BitVec 64) (k : Need) : TrapRec := memTrap 0x0E va k.acc

/-- Selects the space of a scalar access of `n` bytes (R391, R164). -/
def Ctx.select (c : Ctx) (free : Nat) (addr : BitVec 64) (n : Nat) (k : Need) : Place :=
  let top := addr.extractLsb' 56 8
  if top = 0x00 then .global
  else if top = 0xF0 then
    if addr.extractLsb' 24 32 ≠ 0 then .bad (memTrap 0x0A addr k.acc)
    else if c.spLimit < (addr.extractLsb' 0 24).toNat + n then .bad (memTrap 0x0A addr k.acc)
    else .here .sp (addr.extractLsb' 0 24).toNat
  else if top = 0xF1 then
    if c.nocan then .bad engineTrap
    else if addr.extractLsb' 23 33 ≠ 0 then .bad (memTrap 0x0A addr k.acc)
    else .here .can (addr.extractLsb' 0 23).toNat
  else .bad (xTrap free ⟨xlAddr, none, false⟩ addr k)

/-- One of the two local memories. -/
def Ctx.localMem (c : Ctx) (sp : Space) : Mem :=
  match sp with
  | .can => c.can
  | _ => c.sp

/-- A local address as `Dest.elems` writes it. -/
def localKey (sp : Space) (a : Nat) : Nat :=
  match sp with
  | .can => canBase + a
  | _ => a

/-! ## Loss records (R178) -/

/-- SPACE code of a loss record. -/
def spaceCode : Space → Nat
  | .global => 0
  | .sp => 1
  | .can => 2

/-- The 64 bytes of a loss record. -/
def lossRecord (space : Space) (addr len stamp shape : Nat) (sup legno : Word) (dc core : Nat) : List Byte :=
  bytesOfNat 8 addr ++ bytesOfNat 4 len ++ bytesOfNat 4 (spaceCode space * 2 ^ 30 + stamp) ++ bytesOfNat 8 shape ++
    bytesOfNat 4 sup.toNat ++ bytesOfNat 4 legno.toNat ++ bytesOfNat 4 dc ++ bytesOfNat 4 (core % 512) ++
    bytesOfNat 24 0

/-- LOST (R176, R178): `ws` are the lost words of the record's range in their memory, address and length, and `va` the first one's
address as the access names it. -/
def lostTrap (c : Ctx) (space : Space) (ws : List (Nat × Nat)) (va : BitVec 64) (stamp shape dc : Nat) (acc : BitVec 3)
    (flags : BitVec 5) : TrapRec :=
  { memTrap 0x11 va acc with
    dc := BitVec.ofNat 32 dc
    loss := some (lossRecord space va.toNat (ws.map Prod.snd).sum stamp shape c.sup c.legno dc c.core)
    flags := flags ||| stLOST
    lost := ws.map (fun w => (space, w)) }

/-! ## Reads -/

/-- What a read gives: bytes and sticky flags, or a trap. -/
inductive Read where
  | ok (bs : List Byte) (flags : BitVec 5)
  | trap (t : TrapRec)
  deriving DecidableEq

/-- A read of local memory (R59, R166, R176). -/
def Ctx.readLocal (c : Ctx) (sp : Space) (a n shape dc : Nat) : Read :=
  let m := c.localMem sp
  let vac := m.first 2 .vacated a n
  let flags := if vac.isSome then stVAC else 0
  if c.checkMode && c.pendingAt (localKey sp a) n then .trap staleTrap
  else
    match (if c.checkMode then vac else none) with
    | some x => .trap (memTrap 0x10 (BitVec.ofNat 64 x) 0)
    | none =>
      match m.first 2 .lost a n with
      | some x =>
        let w := x / 8 * 8
        .trap (lostTrap c sp [(w, m.lostRun 2 8 (a + n) n w)] (BitVec.ofNat 64 w) 0xFFFF shape dc 0 flags)
      | none => .ok (m.bytes a n) flags

/-- A piece of an access in DRAM: its virtual and physical addresses and its length. -/
abbrev Piece := BitVec 64 × Nat × Nat

/-- The pieces of a range that lie in one 4 KiB page each. -/
def splitPieces (a : BitVec 64) : Nat → Nat → List (BitVec 64 × Nat)
  | 0, _ => []
  | fuel + 1, n =>
    if n = 0 then []
    else
      let k := min n (4096 - a.toNat % 4096)
      (a, k) :: splitPieces (a + BitVec.ofNat 64 k) fuel (n - k)

/-- The bytes of some pieces: virtual and physical address of each. -/
def pieceAddrs (ps : List Piece) : List (Nat × Nat) :=
  ps.flatMap (fun p => (List.range p.2.2).map (fun i => (p.1.toNat + i, p.2.1 + i)))

/-- The physical numbers of the lost granules among `gs` (virtual and physical number), from virtual number `g` on without a gap
(R178). -/
def lostChain (m : Mem) (gs : List (Nat × Nat)) : Nat → Nat → List Nat
  | 0, _ => []
  | fuel + 1, g =>
    match gs.find? (fun x => x.1 == g) with
    | some x => if m.unit 64 (64 * x.2) = .lost then x.2 :: lostChain m gs fuel (g + 1) else []
    | none => []

/-- The checks of a read of DRAM, one access of some pieces, of whose bytes `keep` tells those that it reads there (R166, R176,
R178): the flags, or the trap. -/
def State.probe (s : State) (c : Ctx) (ps : List Piece) (keep : Nat × Nat → Bool) (shape dc : Nat) (acc : BitVec 3) :
    Except TrapRec (BitVec 5) :=
  let all := pieceAddrs ps
  let as := all.filter keep
  let vac := as.find? (fun x => s.dram.unit 64 x.2 == .vacated)
  let flags := if vac.isSome then stVAC else 0
  match (if c.checkMode then vac else none) with
  | some x => .error (memTrap 0x10 (BitVec.ofNat 64 x.1) acc)
  | none =>
    match as.find? (fun x => s.dram.unit 64 x.2 == .lost) with
    | some x =>
      let gs := (all.map (fun y => (y.1 / 64, y.2 / 64))).eraseDups
      let ws := lostChain s.dram gs gs.length (x.1 / 64)
      .error (lostTrap c .global (ws.map (fun g => (64 * g, 64))) (BitVec.ofNat 64 (x.1 / 64 * 64))
        (s.stamps.get 0xFFFF (x.2 / 64)).toNat shape dc acc flags)
    | none => .ok flags

/-- Reads the pieces of one access in DRAM; bytes for which `keep` does not hold read as they stand, with no check. -/
def State.readPieces (s : State) (c : Ctx) (keep : Nat × Nat → Bool) (shape dc : Nat) (ps : List Piece) : Read :=
  match s.probe c ps keep shape dc 0 with
  | .error t => .trap t
  | .ok f => .ok (ps.flatMap (fun p => s.dram.bytes p.2.1 p.2.2)) f

/-- A read of DRAM outside any leg. -/
def State.readDram (s : State) (c : Ctx) (va : BitVec 64) (pa n shape dc : Nat) : Read :=
  s.readPieces c (fun _ => true) shape dc [(va, pa, n)]

/-- One byte as a leg reads it: its own buffer first (R215). -/
def Leg.byte (l : Leg) (m : Mem) (a : Nat) : Byte := (l.buf.find a).getD (m.byte a)

/-- A read by a leg (R215). -/
def State.readLeg (s : State) (c : Ctx) (l : Leg) (va : BitVec 64) (pa n : Nat) : Read :=
  match s.probe c [(va, pa, n)] (fun x => (l.buf.find x.2).isNone) 0 0 0 with
  | .error t => .trap t
  | .ok f => .ok (((List.range n).map (pa + ·)).map (l.byte s.dram)) f

/-! ## The watch filter (R320, R322) -/

/-- The first filter bit of a line (R320). -/
def hash0 (line : Nat) : Nat := line % 4096

/-- The second filter bit of a line (R320). -/
def hash1 (line : Nat) : Nat := (line / 2 ^ 12 % 4096) ^^^ (line / 2 ^ 24 % 4096) ^^^ (line / 2 ^ 36 % 128)

/-- A line hits the filter. -/
def Core.hits (k : Core) (line : Nat) : Bool :=
  k.allOnes || (k.filter.contains (hash0 line) && k.filter.contains (hash1 line))

/-- An access touches a line that hits. -/
def Core.watchHit (k : Core) (va n : Nat) : Bool :=
  (List.range ((va % 64 + n + 63) / 64)).any (fun i => k.hits (va / 64 + i))

/-! ## The race test -/

/-- Writes a record to the race log of a core, or counts it as dropped (R323). -/
def State.logRace (s : State) (c : Ctx) (h : Shadow) (va : BitVec 64) (acc : BitVec 3) : State :=
  let d := (s.core c.core).dbg
  let base := (d.get 0 0x1100).toNat
  let size := 2 ^ (base % 32)
  let tail := (d.get 0 0x1108).toNat
  if (tail + 2 ^ 48 - (d.get 0 0x1110).toNat % 2 ^ 48) % 2 ^ 48 = size then s.bump c.core 0x1118
  else
    let record := bytesOfNat 8 va.toNat ++ bytesOfNat 2 c.writer ++ bytesOfNat 2 h.writer ++ bytesOfNat 4 c.sup.toNat ++
      [acc.setWidth 8] ++ bytesOfNat 15 0
    (s.writeQuiet 0xFFFF (place (base % 2 ^ 52 / 32 * 32 + 32 * (tail % size)) record)).bump c.core 0x1108

/-- The race test of an access: no report, a report that is counted or logged, or the trap (R232, R323). -/
def State.raceTest (s : State) (c : Ctx) (cls : AccCls) (va : BitVec 64) (pa n : Nat) (acc : BitVec 3) :
    Except TrapRec State :=
  match s.raceAt c cls pa n with
  | none => .ok s
  | some g =>
    match s.shadow.find g with
    | none => .ok s
    | some h =>
      if c.listOv && !c.listed.contains h.writer then .ok (s.bump c.core 0x1118)
      else if ((s.core c.core).dbg.get 0 0x1120).getLsbD 0 then .ok (s.logRace c h va acc)
      else .error (memTrap 0x12 va acc)

/-! ## Global accesses -/

/-- What a global access meets before it reaches its home slice. -/
inductive GRes where
  | ok (s : State) (pa : Nat)
  | trap (s : State) (t : TrapRec)
  | stall
  | dead
  deriving DecidableEq

/-- Translation, a test `pre`, watch filter and race test of an access of `n` bytes in one page (R199, R242, R322, R232).
`skip` leaves the watch test out once. -/
def State.access (s : State) (c : Ctx) (skip : Bool) (va : BitVec 64) (n : Nat) (k : Need) (cls : AccCls)
    (pre : Option TrapRec) : GRes :=
  match s.translate c va k with
  | .fault f => .trap s (xTrap s.free f va k)
  | .busy => .stall
  | .ok pa s1 =>
    match pre with
    | some t => .trap s1 t
    | none =>
    if s1.outside pa then .dead
    else if !skip && (s1.core c.core).watchHit va.toNat n then .trap s1 (memTrap 0x13 va k.acc)
    else
      match s1.raceTest c cls va pa n k.acc with
      | .error t => .trap s1 t
      | .ok s2 => .ok s2 pa

/-- What translating the pieces of an access gives. -/
inductive Reach where
  | ok (s : State) (ps : List Piece)
  | trap (s : State) (t : TrapRec)
  | stall
  | dead
  deriving DecidableEq

/-- Translates the pieces of one access, through the core's TLB or a stream TLB (R196, R199). -/
def State.reach (s : State) (c : Ctx) (port : Option Nat) (k : Need) (acc : List Piece) : List (BitVec 64 × Nat) → Reach
  | [] => .ok s acc
  | (a, n) :: r =>
    match s.translateVia c port a k with
    | .fault f => .trap s (xTrap s.free f a k)
    | .busy => .stall
    | .ok pa s1 => if s1.outside pa then .dead else State.reach s1 c port k (acc ++ [(a, pa, n)]) r

/-- The race test of one access of several pieces (R232, R323): one report, of the first piece whose race is reported, else of the first that is
counted. -/
def State.racePieces (s : State) (c : Ctx) (cls : AccCls) (acc : BitVec 3) (ps : List Piece) : Except TrapRec State :=
  let hits := ps.filter (fun p => (s.raceAt c cls p.2.1 p.2.2).isSome)
  let told (p : Piece) : Bool := match (s.raceAt c cls p.2.1 p.2.2).bind s.shadow.find with
    | some h => !(c.listOv && !c.listed.contains h.writer)
    | none => false
  match (hits.find? told).orElse (fun _ => hits.head?) with
  | some (va, pa, n) => s.raceTest c cls va pa n acc
  | none => .ok s

/-- WATCH of an access of several pieces (R322). -/
def Core.watchPieces (k : Core) (acc : BitVec 3) (ps : List Piece) : Option TrapRec :=
  (ps.find? (fun p => k.watchHit p.1.toNat p.2.2)).map (fun p => memTrap 0x13 p.1 acc)

/-- A scalar global access by the control sequencer. -/
def State.scalarAccess (s : State) (c : Ctx) (va : BitVec 64) (n : Nat) (k : Need) (cls : AccCls)
    (pre : Option TrapRec) (f : State → Nat → Res) : Res :=
  match s.access c c.ctl.once.watch va n k cls pre with
  | .ok s1 pa => f s1 pa
  | .trap s1 t => .trap s1 t
  | .stall => .stall s c
  | .dead => .dead .deviceWindow

/-- The class of a context's scalar accesses (R232). -/
def Ctx.cls (c : Ctx) : AccCls := if c.isTask then .outrider else .leg

/-! ## Outrider stores (R242) -/

/-- The first byte of a range that lies outside the open object, or in the undo stack. -/
def Ctx.outside (c : Ctx) (va : BitVec 64) (n : Nat) : Option (BitVec 64) :=
  if !c.isTask then none
  else
    let bad (a : Nat) : Bool :=
      match c.decl with
      | some d => !(decide (d.base ≤ a) && decide (a < d.base + d.size))
      | none => true
    ((List.range n).find? (fun i => bad (va.toNat + i))).map (fun i => va + BitVec.ofNat 64 i)

/-- The first byte of a local range that lies in a task's undo stack (R241, R242). -/
def Ctx.undoHit (c : Ctx) (sp : Space) (a n : Nat) : Option Nat :=
  if c.isTask && sp == .sp then (List.range n).find? (fun i => decide (c.spLimit ≤ a + i + 2048)) else none

/-- OUTSTORE (R242). -/
def outstoreTrap (va : BitVec 64) : TrapRec := memTrap 0x20 va 1

/-! ## Stores into a leg (R32 case 4, R33) -/

/-- Buffer entries of a leg: its granules, and one for every REDO (R33, R430). -/
def Leg.entries (l : Leg) : Nat :=
  l.grans.length + (l.log.filter (fun o => match o with
    | .redo _ => true
    | .store _ => false)).length

/-- The context whose open leg has room for a store of the granules, or for one more entry: a full leg ends before the word,
which opens the next (R32 case 4). -/
def Ctx.room (c : Ctx) (more : Nat) : Ctx :=
  if 256 < c.curLeg.entries + more then (c.endLeg false none).withLeg else c

/-- Enters a store into the open leg. -/
def Ctx.legStore (c : Ctx) (bs : List (Nat × Byte)) : Ctx :=
  let gs := gransOf (bs.map Prod.fst)
  let c1 := c.room (gs.filter (fun g => !c.curLeg.grans.contains g)).length
  let l := c1.curLeg
  { c1 with leg := some { l with
      buf := bs.foldl (fun b p => b.set p.1 p.2) l.buf
      grans := (l.grans ++ gs).eraseDups
      log := l.log ++ [.store bs] } }

/-- A write of a task at its home slice, at once (R243). It waits behind a pinned leg (R217), and has then made no access yet: `s0` is the
state before it. -/
def State.taskWrite (s s0 : State) (c : Ctx) (bs : List (Nat × Byte)) (f : State → Res) : Res :=
  if s.writeHeld (some c) (gransOf (bs.map Prod.fst)) then .stall s0 c
  else f ((s.writeAs c .outrider .core c.stamp bs).sendFar c 0 bs)

end Sys2Proof.Machine
end

