-- ==== Sys2Proof/Machine/Alu.lean ====
section
/-!
DEFINITION. The scalar arithmetic words of every sequencer (R107, R353, R354, R366, R378, R379, R400, R402, R412 to R417,
R420, R425, R439, R443, R451, R493). Each reads its registers at issue and lands after the latency of R56.
-/
namespace Sys2Proof.Machine

/-- ADD (R353). -/
def execAdd (h : Hd) (d a b : BitVec 5) (s : State) : Out :=
  scalarWord h s d [a, b] 1 (fun x => x.reg a + x.reg b)

/-- ADDI (R353). -/
def execAddi (h : Hd) (d a : BitVec 5) (imm : BitVec 12) (s : State) : Out :=
  scalarWord h s d [a] 1 (fun x => x.reg a + imm.signExtend 32)

/-- ADDP (R354). -/
def execAddp (h : Hd) (d a b : BitVec 5) (s : State) : Out :=
  pairWord h s d [a, a + 1, b] 1 (fun x => x.pairAt a + (x.reg b).signExtend 64)

/-- AND (R353). -/
def execAnd (h : Hd) (d a b : BitVec 5) (s : State) : Out :=
  scalarWord h s d [a, b] 1 (fun x => x.reg a &&& x.reg b)

/-- ANDI (R353). -/
def execAndi (h : Hd) (d a : BitVec 5) (imm : BitVec 12) (s : State) : Out :=
  scalarWord h s d [a] 1 (fun x => x.reg a &&& imm.zeroExtend 32)

/-- CLZ (R353). -/
def execClz (h : Hd) (d a : BitVec 5) (s : State) : Out :=
  scalarWord h s d [a] 1 (fun x => BitVec.ofNat 32 (leadingZeros (x.reg a) 32))

/-- DIV (R378, R379). -/
def execDiv (h : Hd) (d a b : BitVec 5) (s : State) : Out :=
  scalarWord h s d [a, b] 12 (fun x => divSigned (x.reg a) (x.reg b))

/-- DIVN (R378, R379). -/
def execDivn (h : Hd) (d a b : BitVec 5) (s : State) : Out :=
  scalarWord h s d [a, b] 12 (fun x => divUnsigned (x.reg a) (x.reg b))

/-- MOD (R412). -/
def execMod (h : Hd) (d a b : BitVec 5) (s : State) : Out :=
  scalarWord h s d [a, b] 12 (fun x => modSigned (x.reg a) (x.reg b))

/-- MODN (R412). -/
def execModn (h : Hd) (d a b : BitVec 5) (s : State) : Out :=
  scalarWord h s d [a, b] 12 (fun x => modUnsigned (x.reg a) (x.reg b))

/-- MADP (R400). -/
def execMadp (h : Hd) (d a b : BitVec 5) (s : State) : Out :=
  pairWord h s d [d, d + 1, a, b] 3
    (fun x => x.pairAt d + (x.reg a).signExtend 64 * (x.reg b).signExtend 64)

/-- MAX (R402). -/
def execMax (h : Hd) (d a b : BitVec 5) (s : State) : Out :=
  scalarWord h s d [a, b] 1 (fun x => if (x.reg a).slt (x.reg b) then x.reg b else x.reg a)

/-- MAXN (R402). -/
def execMaxn (h : Hd) (d a b : BitVec 5) (s : State) : Out :=
  scalarWord h s d [a, b] 1 (fun x => if (x.reg a).ult (x.reg b) then x.reg b else x.reg a)

/-- MIN (R402). -/
def execMin (h : Hd) (d a b : BitVec 5) (s : State) : Out :=
  scalarWord h s d [a, b] 1 (fun x => if (x.reg a).slt (x.reg b) then x.reg a else x.reg b)

/-- MINN (R402). -/
def execMinn (h : Hd) (d a b : BitVec 5) (s : State) : Out :=
  scalarWord h s d [a, b] 1 (fun x => if (x.reg a).ult (x.reg b) then x.reg a else x.reg b)

/-- MOV (R413). -/
def execMov (h : Hd) (d a : BitVec 5) (s : State) : Out :=
  scalarWord h s d [a] 1 (fun x => x.reg a)

/-- MOVH (R414, R107). -/
def execMovh (h : Hd) (d : BitVec 5) (imm : BitVec 16) (s : State) : Out :=
  scalarWord h s d [d] 1 (fun x => imm ++ (x.reg d).setWidth 16)

/-- MOVI (R414, R107). -/
def execMovi (h : Hd) (d : BitVec 5) (imm : BitVec 16) (s : State) : Out :=
  scalarWord h s d [] 1 (fun _ => imm.signExtend 32)

/-- MUL (R415). -/
def execMul (h : Hd) (d a b : BitVec 5) (s : State) : Out :=
  scalarWord h s d [a, b] 3 (fun x => x.reg a * x.reg b)

/-- MULH (R415). -/
def execMulh (h : Hd) (d a b : BitVec 5) (s : State) : Out :=
  scalarWord h s d [a, b] 3 (fun x => mulHigh (x.reg a) (x.reg b))

/-- MULHN (R415). -/
def execMulhn (h : Hd) (d a b : BitVec 5) (s : State) : Out :=
  scalarWord h s d [a, b] 3 (fun x => mulHighUnsigned (x.reg a) (x.reg b))

/-- NOT (R417). -/
def execNot (h : Hd) (d a : BitVec 5) (s : State) : Out :=
  scalarWord h s d [a] 1 (fun x => ~~~(x.reg a))

/-- OR (R420). -/
def execOr (h : Hd) (d a b : BitVec 5) (s : State) : Out :=
  scalarWord h s d [a, b] 1 (fun x => x.reg a ||| x.reg b)

/-- ORI (R420). -/
def execOri (h : Hd) (d a : BitVec 5) (imm : BitVec 12) (s : State) : Out :=
  scalarWord h s d [a] 1 (fun x => x.reg a ||| imm.zeroExtend 32)

/-- POPC (R425). -/
def execPopc (h : Hd) (d a : BitVec 5) (s : State) : Out :=
  scalarWord h s d [a] 1 (fun x => BitVec.ofNat 32 (onesBelow (x.reg a) 32))

/-- SHL (R443). -/
def execShl (h : Hd) (d a b : BitVec 5) (s : State) : Out :=
  scalarWord h s d [a, b] 1 (fun x => shiftLeft (x.reg a) (x.reg b).toNat)

/-- SHLI (R443). -/
def execShli (h : Hd) (d a : BitVec 5) (imm : BitVec 5) (s : State) : Out :=
  scalarWord h s d [a] 1 (fun x => shiftLeft (x.reg a) imm.toNat)

/-- SHR (R443). -/
def execShr (h : Hd) (d a b : BitVec 5) (s : State) : Out :=
  scalarWord h s d [a, b] 1 (fun x => shiftRight (x.reg a) (x.reg b).toNat)

/-- SHRI (R443). -/
def execShri (h : Hd) (d a : BitVec 5) (imm : BitVec 5) (s : State) : Out :=
  scalarWord h s d [a] 1 (fun x => shiftRight (x.reg a) imm.toNat)

/-- SRA (R443). -/
def execSra (h : Hd) (d a b : BitVec 5) (s : State) : Out :=
  scalarWord h s d [a, b] 1 (fun x => shiftArith (x.reg a) (x.reg b).toNat)

/-- SRAI (R443). -/
def execSrai (h : Hd) (d a : BitVec 5) (imm : BitVec 5) (s : State) : Out :=
  scalarWord h s d [a] 1 (fun x => shiftArith (x.reg a) imm.toNat)

/-- SUB (R451). -/
def execSub (h : Hd) (d a b : BitVec 5) (s : State) : Out :=
  scalarWord h s d [a, b] 1 (fun x => x.reg a - x.reg b)

/-- SUBI (R451). -/
def execSubi (h : Hd) (d a : BitVec 5) (imm : BitVec 12) (s : State) : Out :=
  scalarWord h s d [a] 1 (fun x => x.reg a - imm.signExtend 32)

/-- SUBP (R451). -/
def execSubp (h : Hd) (d a b : BitVec 5) (s : State) : Out :=
  pairWord h s d [a, a + 1, b] 1 (fun x => x.pairAt a - (x.reg b).signExtend 64)

/-- XOR (R493). -/
def execXor (h : Hd) (d a b : BitVec 5) (s : State) : Out :=
  scalarWord h s d [a, b] 1 (fun x => x.reg a ^^^ x.reg b)

/-- XORI (R493). -/
def execXori (h : Hd) (d a : BitVec 5) (imm : BitVec 12) (s : State) : Out :=
  scalarWord h s d [a] 1 (fun x => x.reg a ^^^ imm.zeroExtend 32)

/-- A predicate as an operand: under check mode a pending one traps STALE (R59). -/
def readingPred (s : State) (c : Ctx) (n : BitVec 3) (k : Bool → Res) : Res :=
  if c.checkMode && c.predPending s.focus.2 n then .trap s staleTrap else k ((c.seqr s.focus.2).pred n)

/-- SEL (R439). -/
def execSel (h : Hd) (d a b : BitVec 5) (psel : BitVec 3) (s : State) : Out :=
  runWord h 1 false s (fun s c => reading s c [a, b] (fun x => readingPred s c psel (fun p =>
    .ok s (c.scalar s.focus.2 d (if p then x.reg a else x.reg b) 1))))

/-- A word that reads registers and issues a predicate result. -/
def predWord (h : Hd) (s : State) (p : BitVec 3) (rs : List (BitVec 5)) (f : Seqr → Bool) : Out :=
  runWord h 1 false s (fun s c => reading s c rs (fun x => .ok s (c.predResult s.free s.focus.2 p (f x) 1)))

/-- CMP (R366). -/
def execCmp (h : Hd) (p : BitVec 3) (cc : Cc) (a b : BitVec 5) (s : State) : Out :=
  predWord h s p [a, b] (fun x => ccTest cc (x.reg a) (x.reg b))

/-- CMPI (R366, R107). -/
def execCmpi (h : Hd) (p : BitVec 3) (cc : Cc) (a : BitVec 5) (imm : BitVec 11) (s : State) : Out :=
  predWord h s p [a] (fun x => ccTest cc (x.reg a) (imm.signExtend 32))

end Sys2Proof.Machine
end

