-- ==== Sys2Proof/Machine/Branch.lean ====
section
/-!
DEFINITION. Transfers and loops (R73 to R79, R362, R363, R389, R390, R395, R398, R431).
-/
namespace Sys2Proof.Machine

/-- LOOPBODY (R77). -/
def loopbodyTrap : TrapRec := mkTrap 0x07 0

/-- A word that no broadcast body may hold (R77). -/
def notInBody (s : State) (c : Ctx) (k : Res) : Res :=
  if (c.seqr s.focus.2).bcast.isSome then .trap s loopbodyTrap else k

/-- Index plus displacement. -/
def target (idx : Nat) (disp : Int) : Nat := ((idx : Int) + disp).toNat

/-- A transfer to a register's index: TARGET, then LOOPBODY (R77, R108, R362, R431). -/
def toIndex (s : State) (c : Ctx) (t : Word) : Res :=
  if s.focus.2.limit ≤ t.toNat then .trap s (mkTrap 0x0F t) else notInBody s c (.done s c (.branch t.toNat) false)

/-- BR (R362, R363). -/
def execBr (h : Hd) (disp : BitVec 22) (s : State) : Out :=
  runWord h 1 false s (fun s c => notInBody s c
    (.done s c (.branch (target (c.seqr s.focus.2).pc disp.toInt)) false))

/-- BRA (R362). -/
def execBra (h : Hd) (reg : BitVec 5) (s : State) : Out :=
  runWord h 1 false s (fun s c => reading s c [reg] (fun x => toIndex s c (x.reg reg)))

/-- JMP (R389). -/
def execJmp (h : Hd) (disp : BitVec 26) (s : State) : Out :=
  runWord h 1 false s (fun s c => notInBody s c
    (.done s c (.branch (target (c.seqr s.focus.2).pc disp.toInt)) false))

/-- CALL (R362). -/
def execCall (h : Hd) (disp : BitVec 22) (s : State) : Out :=
  runWord h 1 false s (fun s c => notInBody s c
    (.done s (c.scalar s.focus.2 31 (BitVec.ofNat 32 ((c.seqr s.focus.2).pc + 1)) 1)
      (.call (target (c.seqr s.focus.2).pc disp.toInt)) false))

/-- RET (R431). -/
def execRet (h : Hd) (s : State) : Out :=
  runWord h 1 false s (fun s c => reading s c [31] (fun x => toIndex s c (x.reg 31)))

/-- The index after the word at `idx` (R73, R78). -/
def State.after (s : State) (q : Sq) (idx : Nat) : Nat :=
  skipWords ((s.core s.focus.1).plane.getD ⟨0, [], []⟩) q 1 idx

/-- LOOP (R73, R75, R398): LOOPNEST, then LOOPBODY. -/
def execLoop (h : Hd) (lc : BitVec 2) (count : BitVec 5) (dist : BitVec 15) (s : State) : Out :=
  runWord h 1 false s (fun s c => reading s c [count] (fun x =>
    if x.loops.any (fun l => l.lc == lc) then .trap s (mkTrap 0x06 (lc.zeroExtend 32))
    else notInBody s c
    (let last := x.pc + dist.toNat
     let n := x.reg count
     if n = 0 then
       .done s (c.onSeqr s.focus.2 (fun y => y.setLc lc 0)) (.leave (s.after s.focus.2 last)) false
     else
       .ok s (c.onSeqr s.focus.2 (fun y =>
         { y.setLc lc n with loops := { lc := lc, first := x.pc + 1, last := last } :: y.loops })))))

/-- The loops outside the one that uses `lc`. -/
def loopsOutside (lc : BitVec 2) : List LoopSt → List LoopSt
  | [] => []
  | l :: r => if l.lc = lc then r else loopsOutside lc r

/-- The broadcast that a sequencer runs, if it has not finished. -/
def Seqr.bcastNo (x : Seqr) : List Nat := (x.bcast.toList ++ x.armed.toList).map (fun b => b.no)

/-- The broadcasts that have not finished (R79). -/
def Ctx.openBcasts (c : Ctx) : List Nat := c.load.bcastNo ++ c.store.bcastNo ++ c.comp.bcastNo

/-- A copy command that has not started is cancelled, and so is the chained matrix word of one that has (R79). -/
def Cmd.strike (ns : List Nat) (x : Cmd) : Cmd :=
  if ns.contains x.bno then { x with cancel := x.cancel || x.dc == 0, mxCancel := true } else x

/-- A matrix command is cancelled. -/
def MCmd.strike (ns : List Nat) (x : MCmd) : MCmd := if ns.contains x.bno then { x with cancel := true } else x

/-- A channel's commands that have not started. -/
def Chan.strike (ns : List Nat) (k : Chan) : Chan :=
  { k with active := k.active.map (Cmd.strike ns), shadow := k.shadow.map (Cmd.strike ns) }

/-- A broadcast is cancelled. -/
def Seqr.strike (x : Seqr) : Seqr :=
  { x with bcast := x.bcast.map (fun b => { b with cancel := true }),
           armed := x.armed.map (fun b => { b with cancel := true }) }

/-- LEXIT .cancel of the control sequencer (R79): every unfinished broadcast, and their commands that have not started. The streams of a matrix
word that has issued into the shadow set stay advanced (log 120). -/
def Ctx.cancelAll (c : Ctx) : Ctx :=
  let ns := c.openBcasts
  { c with
    load := c.load.strike, store := c.store.strike, comp := c.comp.strike
    inb := c.inb.strike ns, outb := c.outb.strike ns
    mx := { c.mx with shadow := c.mx.shadow.map (MCmd.strike ns) }
    offers := c.offers.map (MCmd.strike ns) }

/-- LEXIT (R78, R79, R395): .cancel of the control sequencer reaches other sequencers' commands, so it is an escape (R217). -/
def execLexit (h : Hd) (lc : BitVec 2) (cancel : Bool) (s : State) : Out :=
  runWord h 1 false s (fun s c => notInBody s c ((if cancel then escape s c else id)
    (let q := s.focus.2
     let x := c.seqr q
     let c1 := if cancel && q == .ctl then c.cancelAll else c
     match x.loops.find? (fun l => l.lc == lc) with
     | none => .ok s c1
     | some l =>
       .done s (c1.onSeqr q (fun y => { y.setLc lc 0 with loops := loopsOutside lc y.loops }))
         (.leave (s.after q l.last)) false)))

/-- Arms a broadcast on one sequencer (R76, R390): not on a halted one. -/
def Seqr.arm (x : Seqr) (b : Bcast) : Seqr := if x.run = .halted then x else { x with armed := some b }

/-- LBRD (R76, R77, R337, R390). -/
def execLbrd (h : Hd) (count : BitVec 5) (len : BitVec 8) (mask : BitVec 3) (skl sks skc : BitVec 6) (s : State) : Out :=
  runWord h 2 true s (fun s c =>
    if !c.joined || c.isHandler || c.inInverse then .trap s modeTrap
    else
      let go := c.ctl.guard h
      let busy (i : Nat) (x : Seqr) : Bool := mask.getLsbD i && x.bcast.isSome
      if busy 0 c.load || busy 1 c.store || busy 2 c.comp then .stall s c
      else reading s c (if go then [count] else []) (fun x =>
        let n := if go then (x.reg count).toNat else 0
        let b (sk : BitVec 6) : Bcast :=
          { no := c.bno + 1, first := 0, len := len.toNat + 1, pos := 0, left := n, skew := sk.toNat, cancel := false }
        let put (i : Nat) (sk : BitVec 6) (y : Seqr) : Seqr := if mask.getLsbD i then y.arm (b sk) else y
        let r := Res.ok s { c with bno := c.bno + 1, load := put 0 skl c.load, store := put 1 sks c.store,
                                   comp := put 2 skc c.comp }
        escape s c r))

end Sys2Proof.Machine
end

