-- ==== Sys2Proof/Machine/Sync.lean ====
section
/-!
DEFINITION. Synchronisation inside a core and a company (R27 to R36, R44, R50 to R55, R63, R71, R72, R231, R361, R370 to R374,
R380, R383, R384, R387, R394, R416, R440, R441, R444, R486).
-/
namespace Sys2Proof.Machine

/-! ## NOP, semaphores, c-bits -/

/-- NOP (R416). -/
def execNop (h : Hd) (s : State) : Out := runWord h 1 false s (fun s c => .ok s c)

/-- The registers that an amount field reads. -/
def amountRegs (rsrc : Bool) (amount : BitVec 13) : List (BitVec 5) := if rsrc then [amount.setWidth 5] else []

/-- An amount: the immediate or a register (R444, R486). -/
def Seqr.amount (x : Seqr) (rsrc : Bool) (amount : BitVec 13) : Nat :=
  if rsrc then (x.reg (amount.setWidth 5)).toNat else amount.toNat

/-- SIG (R63, R444): a header wait on a semaphore that the word signals comes first. In a cancelled broadcast body it still signals
(R79). -/
def execSig (h : Hd) (sem : BitVec 8) (rsrc : Bool) (amount : BitVec 13) (s : State) : Out :=
  runWordIn true h 1 false s (fun s c => reading s c (amountRegs rsrc amount) (fun x =>
    escape s c
      (let c1 := if h.wait ≠ 0xFF ∧ (h.wait = sem ∨ h.wait = h.sig) then c.takeNow h.wait else c
       .ok s (c1.signal sem (x.amount rsrc amount)))))

/-- WAIT (R63, R445, R486, R487). In a cancelled broadcast body it still waits (R79). -/
def execWait (h : Hd) (sem : BitVec 8) (rsrc : Bool) (amount : BitVec 13) (s : State) : Out :=
  runWordIn true h 1 false s (fun s c => reading s c (amountRegs rsrc amount) (fun x =>
    escape s c
      (let n := x.amount rsrc amount
       if n = 0 then .ok s c else if c.waitOk sem n then .ok s (c.takeSem sem n) else .stall s c)))

/-- SEMOVF of a semaphore, as a pending imprecise trap (R63). -/
def semOvf (sem : BitVec 8) : Nat × Word := (0x28, sem.zeroExtend 32)

/-- Takes the last `n` entries that equal `x` out of a list. -/
def eraseLast {α : Type} [BEq α] (x : α) (l : List α) : Nat → List α
  | 0 => l
  | n + 1 => eraseLast x (l.reverse.erase x).reverse n

/-- SEMI sets a semaphore to `v`, at most 0xF_FFFF, and the signals of results that land in its cycle apply after it, as if they had
not met the old value (R65, R440). -/
def Ctx.putSem (c : Ctx) (sem : BitVec 8) (v : Nat) : Ctx :=
  let before := eraseLast (semOvf sem) c.impr (c.landed.count (sem, false))
  let c1 := { c.setSem sem (BitVec.ofNat 20 (min v 0xFFFFF)) with impr := if v ≤ 0xFFFFF then before else before ++ [semOvf sem] }
  (c.landed.filter (fun k => k.1 == sem)).foldl (fun d k => d.signal k.1 1) c1

/-- SEMI (R440). -/
def execSemi (h : Hd) (sem : BitVec 8) (reg : BitVec 5) (s : State) : Out :=
  runWord h 1 false s (fun s c => reading s c [reg] (fun x =>
    escape s c (.ok s (c.putSem sem (x.reg reg).toNat))))

/-- A semaphore at the start of the issue cycle, before the signals of results that have landed in it (R65, R441). -/
def Ctx.semStart (c : Ctx) (sem : BitVec 8) : Nat := (c.sem sem).toNat - c.landed.count (sem, true)

/-- SEMR (R441). -/
def execSemr (h : Hd) (d : BitVec 5) (sem : BitVec 8) (s : State) : Out :=
  runWord h 1 false s (fun s c => .ok s (c.scalar s.focus.2 d (BitVec.ofNat 32 (c.semStart sem)) 1))

/-- CSET (R54, R370). -/
def execCset (h : Hd) (n : BitVec 4) (value : Bool) (s : State) : Out :=
  runWord h 1 false s (fun s c => escape s c (.ok s (c.setCbit n value)))

/-- CWAIT (R54, R370, R371): the bit as it stood at the start of the cycle. -/
def execCwait (h : Hd) (n : BitVec 4) (value : Bool) (s : State) : Out :=
  runWord h 1 false s (fun s c =>
    if (if c.joined then c.cbitsT.getLsbD n.toNat else c.cbit n) = value then .ok s c else .stall s c)

/-! ## FORK, JOIN, HALT -/

/-- A sequencer that has halted or arrived at JOIN. -/
def Seqr.atJoin (x : Seqr) : Bool := x.run != .running

/-- A sequencer after the JOIN of all four. -/
def Seqr.released (x : Seqr) : Seqr := { x with run := if x.run = .arrived then .running else x.run }

/-- When all four sequencers have arrived or halted, and one has arrived, the context is joined again (R53). Its results
have landed (R58). -/
def Ctx.tryJoin (c : Ctx) : Ctx :=
  if !c.joined && c.ctl.atJoin && c.load.atJoin && c.store.atJoin && c.comp.atJoin &&
      (c.ctl.run == .arrived || c.load.run == .arrived || c.store.run == .arrived || c.comp.run == .arrived) then
    { (c.landIf (fun _ => true)).onAll Seqr.released with joined := true, cbits := c.cbits &&& 0x0FFF }
  else c

/-- FORK (R52, R55, R384). The latches are lost as the control word is executed, in the order of R49: the later words of its long word
find them lost, and what they produce fills them anew (log 57). -/
def execFork (h : Hd) (s : State) : Out :=
  runWord h 1 false s (fun s c =>
    if c.isHandler || c.inInverse then .trap s modeTrap
    else notInBody s c (escape s c (.ok s { c.loseLatches with joined := false })))

/-- The arrival bit of a sequencer (R53). -/
def arrivalBit (q : Sq) : BitVec 4 := 12 + (Sq.num q).zeroExtend 4

/-- JOIN (R53, R55, R384). In forked mode its header signal is owed until the first joined long word. -/
def execJoin (h : Hd) (s : State) : Out :=
  runWord h 1 false s (fun s c =>
    if c.isHandler || c.inInverse then .trap s modeTrap
    else notInBody s c (escape s c
      (let q := s.focus.2
       if c.joined then .ok s c.loseLatches
       else
         let c1 := (c.loseLatches.setCbit (arrivalBit q) true).onSeqr q
           (fun x => { x.advance 1 .none with run := .arrived, owed := h.sig })
         .done s c1.tryJoin .stay true)))

/-- Every command that the context's sequencers issued has retired (R44, R419). -/
def Ctx.idleEngines (c : Ctx) : Bool :=
  c.inb.active.isNone && c.inb.shadow.isNone && c.outb.active.isNone && c.outb.shadow.isNone &&
    c.mx.active.isNone && c.mx.shadow.isNone && c.offers.isEmpty && c.flight.all (fun f => f.vno == 0)

/-- A task's OCMT or control HALT (R339, R419): it closes the open declaration, and the control sequencer goes no further.
MEMBER_RETIRE finishes the task once every command has retired (log 84). -/
def finishWord (s : State) (c : Ctx) : Res :=
  .ok s { c.onSeqr .ctl (fun x => { x with run := .halted }) with halting := true, decl := none }

/-- HALT (R44, R339, R387). -/
def execHalt (h : Hd) (s : State) : Out :=
  runWord h 1 false s (fun s c =>
    let q := s.focus.2
    let stop := c.onSeqr q (fun x => { x with run := .halted })
    if c.isHandler then .trap s modeTrap
    else if c.inInverse then .trap s outctxTrap
    else if q = .ctl then
      if c.isTask then finishWord s c
      else .ok s { stop.endLeg false none with halting := true }.tryJoin
    else .ok s stop.tryJoin)

/-! ## MARK, DRAIN, FENCE, LEGE -/

/-- Commands issued so far to an engine (0 inbound, 1 outbound, 2 vector, 3 matrix). -/
def Ctx.issuedTo (c : Ctx) (eng : Nat) : Nat :=
  if eng = 0 then c.inb.issued else if eng = 1 then c.outb.issued else if eng = 2 then c.vno else c.mx.issued

/-- No further word counts for a marker. -/
def Marker.close (m : Marker) : Marker := { m with live := [] }

/-- A marker covers the rest of its long word (R71). -/
def Ctx.closeMark (c : Ctx) (m : Marker) : Marker :=
  if m.live.isEmpty then m else { m with upTo := c.issuedTo m.eng, live := [] }

/-- A marker after a word of another forked sequencer: the word counts where it falls in the MARK's cycle (`same`), in which a sequencer
issues one word at most; else that cycle is over (R401; log 108). -/
def Ctx.coverMark (c : Ctx) (q : Sq) (same : Bool) (m : Marker) : Marker :=
  if m.live.contains q && same then { m with upTo := c.issuedTo m.eng, live := m.live.erase q } else m.close

/-- A marker has retired (R71, R401). -/
def Ctx.markDone (c : Ctx) (m : Marker) : Bool :=
  if m.eng = 0 then decide (m.upTo ≤ c.inb.retired)
  else if m.eng = 1 then decide (m.upTo ≤ c.outb.retired)
  else if m.eng = 2 then c.flight.all (fun f => f.vno == 0 || decide (m.upTo < f.vno))
  else decide (m.upTo ≤ c.mx.retired)

/-- MARK (R71, R401). -/
def execMark (h : Hd) (mask : BitVec 4) (s : State) : Out :=
  runWord h 1 false s (fun s c => escape s c
    (let ms := ((List.range 4).filter (fun i => mask.getLsbD i)).map
       (fun i => ({ eng := i, upTo := c.issuedTo i, live := [.load, .store, .comp] } : Marker))
     .ok s { c with marks := c.marks ++ ms }))

/-- DRAIN (R72, R380). -/
def execDrain (h : Hd) (s : State) : Out :=
  runWord h 1 false s (fun s c => escape s c
    (if c.marks.all c.markDone && !s.unacked c.core then .ok s { c with marks := [] } else .stall s c))

/-- FENCE (R231, R383): on the member's own legs, in a handler on the handler's; in a task on its writes, those to other packages
among them. -/
def execFence (h : Hd) (scope : Scope) (s : State) : Out :=
  runWord h 1 false s (fun s c =>
    if c.ended.isEmpty && !s.unapplied c && s.farDone c.cid 0 && (scope != .dom || s.batches.all (fun b => b.src != s.domainDie (dieOf c.core))) then
      .ok s c
    else .stall s c)

/-- LEGE (R32, R35, R394). -/
def execLege (h : Hd) (s : State) : Out := runWord h 1 false s (fun s c => .ok s (c.endLeg false none))

/-! ## BARS -/

/-- BARS (R27, R28, R361): PHASE, OUTCTX, MODE; arrives; the barrier completes by BARRIER_COMPLETE. -/
def execBars (h : Hd) (comm : Bool) (op : BarOp) (a d : BitVec 5) (s : State) : Out :=
  runWord h 1 false s (fun s c =>
    if c.phase && !comm then .trap s (mkTrap 0x04 0)
    else if c.isTask then .trap s outctxTrap
    else if c.isHandler then .trap s modeTrap
    else reading s c [a] (fun x => escape s c
      (let c1 := c.endLeg true none
       .ok s { c1 with bars := c.bars + 1, pend := some (.barrier x.pc c.bars comm op (x.reg a) d) })))

/-! ## CSRR, CSRW -/

/-- The context whose CAUSE, TVAL and EPC a context reads and writes (R266, R372): in a handler, the trapped one. -/
def State.trapCtx (s : State) (c : Ctx) : Ctx :=
  match c.kind with
  | .handler k => (s.ctx k).getD c
  | _ => c

/-- The sequencer that CAUSE names (R265). -/
def seqOf (cause : Word) : Sq :=
  match (cause.extractLsb' 29 2).toNat with
  | 0 => .ctl
  | 1 => .load
  | 2 => .store
  | _ => .comp

/-- The bank of a context. -/
def Ctx.bank (c : Ctx) : Nat :=
  match c.loc with
  | .bank n => n
  | .slot _ => 3

/-- STATUS (R270). -/
def State.status (s : State) (c : Ctx) : Word :=
  let tbank : BitVec 2 := if c.isHandler then BitVec.ofNat 2 (s.trapCtx c).bank else 3
  BitVec.ofNat 2 c.bank ++ tbank ++ BitVec.ofBool c.isHandler ++ BitVec.ofBool c.isTask ++ BitVec.ofBool c.hen ++ 0#11 ++
    c.hent

/-- STICKY with the flags that safe legs hold (R217, R374). -/
def State.stickyNow (s : State) (c : Ctx) : BitVec 5 :=
  c.allLegs.foldl (fun f l => if s.exposed c l then f else f ||| l.held) c.sticky

/-- EPC (R266). -/
def State.epcOf (s : State) (c : Ctx) (q : Sq) : Word :=
  if c.isHandler then ((s.trapCtx c).seqr (seqOf (s.trapCtx c).cause)).epc else (c.seqr q).epc

/-- The value that CSRR returns (R372, R373). -/
def State.csrValue (s : State) (c : Ctx) (q : Sq) (r : Csr) : Word :=
  match r with
  | .status => s.status c
  | .cause => (s.trapCtx c).cause
  | .epc => s.epcOf c q
  | .tval => (s.trapCtx c).tval
  | .legno => c.legno
  | .detmode => c.dmode.zeroExtend 32
  | .supstep => c.sup
  | .sticky => (s.stickyNow c).zeroExtend 32
  | .lcnt => BitVec.ofNat 32 ((c.leg.map (fun l => l.count)).getD 0)
  | .cycle => s.cycle.extractLsb' 0 32
  | .cycleh => (c.seqr q).cycHi
  | .lc n => (c.seqr q).lcVal n

/-- CSRR (R372 to R374). -/
def execCsrr (h : Hd) (d : BitVec 5) (csr : Csr) (s : State) : Out :=
  runWord h 1 false s (fun s c =>
    let q := s.focus.2
    let c1 := match csr with
      | .cycle => c.onSeqr q (fun x => { x with cycHi := s.cycle.extractLsb' 32 32 })
      | _ => c
    let r := Res.ok s (c1.scalar q d (s.csrValue c q csr) 1)
    match csr with
    | .sticky => escape s c r
    | _ => r)

/-- Writes CAUSE, TVAL or EPC of the context itself or, from a handler, of the trapped context (R266, R372). -/
def State.csrTrapped (s : State) (c : Ctx) (f : Ctx → Ctx) : Res :=
  match c.kind with
  | .handler k =>
    match s.ctx k with
    | some d => .ok (s.setCtx (f d)) c
    | none => .ok s c
  | _ => .ok s (f c)

/-- The effect of CSRW (R115, R372, R374). The count of a leg takes its value after the word, if a control word, is itself
counted. -/
def State.csrWrite (s : State) (c : Ctx) (q : Sq) (r : Csr) (v : Word) : Res :=
  match r with
  | .status => .ok s (if c.isHandler then c else { c with hen := v.getLsbD 25, hent := v.extractLsb' 0 14 })
  | .cause => s.csrTrapped c (fun d => { d with cause := v &&& 0xE00000FF })
  | .tval => s.csrTrapped c (fun d => { d with tval := v })
  | .epc => s.csrTrapped c (fun d =>
      d.onSeqr (if c.isHandler then seqOf d.cause else q) (fun x => { x with epc := v }))
  | .sticky =>
    let drop (l : Leg) : Leg := { l with held := 0 }
    .ok s { c with sticky := v.extractLsb' 0 5 ||| c.late, leg := c.leg.map drop, ended := c.ended.map drop }
  | .lcnt => .ok s { c with leg := c.leg.map (fun l =>
      if q = .ctl then { l with preset := some (v.extractLsb' 0 11).toNat } else { l with count := (v.extractLsb' 0 11).toNat }) }
  | .lc n => .ok s (c.onSeqr q (fun x => x.setLc n v))
  | .legno | .detmode | .supstep | .cycle | .cycleh => .ok s c

/-- CSRW (R372). -/
def execCsrw (h : Hd) (a : BitVec 5) (csr : Csr) (s : State) : Out :=
  runWord h 1 false s (fun s c => reading s c [a] (fun x =>
    escape s c (s.csrWrite c s.focus.2 csr (x.reg a))))

end Sys2Proof.Machine
end

