-- ==== Sys2Proof/Machine/ScalarMem.lean ====
section
/-!
DEFINITION. Scalar memory words: LD, LDP, ST, STP (R391 to R393, R449, R450) and WAITM (R229, R488, R489).
-/
namespace Sys2Proof.Machine

/-- Bytes of an access. -/
def MemF.bytes (m : MemF) : Nat := m.size.bits / 8

/-- Holds a store with .ord, or a word with .rel, until the copy commands that the channels held when it came up have
retired (R358, R449). -/
def holdCopies (s : State) (c : Ctx) (k : Ctx → Res) : Res :=
  let h := c.hold.getD (c.inb.issued, c.outb.issued)
  if h.1 ≤ c.inb.retired ∧ h.2 ≤ c.outb.retired then k { c with hold := none } else .stall s { c with hold := some h }

/-- A loaded value, extended to 32 bits (R392). -/
def extend (sx : Bool) (n : Nat) (bs : List Byte) : Word :=
  let v := natOfBytes bs
  if sx && decide (2 ^ (8 * n - 1) ≤ v) then BitVec.ofNat 32 (v + 2 ^ 32 - 2 ^ (8 * n)) else BitVec.ofNat 32 v

/-- Puts a loaded value on its way to the destination of LD or LDP. -/
def Ctx.loaded (c : Ctx) (free : Nat) (m : MemF) (sx : Bool) (bs : List Byte) (lat : Nat) (flags : BitVec 5) : Ctx :=
  if m.size = .b64 then c.pairFlag free .ctl m.reg (wordOfBytes 64 bs) lat flags
  else c.scalarFlag .ctl m.reg (extend sx (MemF.bytes m) bs) lat flags

/-- A value loaded by the open leg, which holds its flags as they land (R217). -/
def Ctx.legLoaded (c : Ctx) (free : Nat) (m : MemF) (sx : Bool) (bs : List Byte) (lat : Nat) (flags : BitVec 5) : Ctx :=
  (c.loaded free m sx bs lat flags).heldIn c.curLeg.no (if m.size = .b64 then 2 else 1)

/-- Latency of a global load (R393). -/
def loadLat (m : MemF) : Nat := if m.loc = 1 then 6 else 1

/-- The open leg after a load of granules (R215). -/
def Ctx.legLoad (c : Ctx) (gs : List Nat) : Ctx :=
  { c with leg := some { c.curLeg with reads := (c.curLeg.reads ++ gs).eraseDups } }

/-- LD and LDP (R392, R393). A leg's load of a granule on which an atomic is on its way comes after that atomic, whose leg counts as
committed (R39, R341). -/
def loadWord (h : Hd) (m : MemF) (sx : Bool) (s : State) : Out :=
  runWord h 2 false s (fun s c => reading s c (pairRegs m.base) (fun x =>
    let va := x.addr m.base m.off
    let n := MemF.bytes m
    if va.toNat % n ≠ 0 then .trap s (alignTrap va .read)
    else
      match c.select s.free va n .read with
      | .bad t => .trap s t
      | .here sp a =>
        if m.acq && !s.earlierDone c then .stall s c
        else
          match c.view.readLocal sp a n 0 0 with
          | .trap t => .trap s t
          | .ok bs f => .ok s (c.loaded s.free m sx bs 4 f)
      | .global => s.scalarAccess c va n .read c.cls none (fun s0 pa =>
        if m.acq && !s.earlierDone c then .stall s c
        else if !c.isTask && s0.inFlight none (gransOf [pa]) then .stall s c
        else
        match s0.fetchFar c 0 [(pa, n)] with
        | (false, s1) => .stall (s.asking s1) c
        | (true, s1) =>
        if c.isTask then
          match s1.readDram c va pa n 0 0 with
          | .trap t => .trap s1 t
          | .ok bs f => .ok s1 (c.loaded s1.free m sx bs (loadLat m) f)
        else
          match s1.readLeg c c.curLeg va pa n with
          | .trap t => .trap s1 t
          | .ok bs f => .ok s1 ((c.legLoad (gransOf [pa])).legLoaded s1.free m sx bs (loadLat m) f))))

/-- LD (R392). -/
def execLd (h : Hd) (m : MemF) (sx : Bool) (s : State) : Out := loadWord h m sx s

/-- LDP (R392). -/
def execLdp (h : Hd) (m : MemF) (s : State) : Out := loadWord h m false s

/-- The registers that a store or an atomic reads as its value. -/
def valueRegs (m : MemF) : List (BitVec 5) := if m.size = .b64 then [m.reg, m.reg + 1] else [m.reg]

/-- The value of a store or an atomic: s[reg], or the pair of an even reg. -/
def Seqr.value (x : Seqr) (m : MemF) : BitVec 64 :=
  if m.size = .b64 then x.pairAt m.reg else (x.reg m.reg).zeroExtend 64

/-- Waits for the earlier copies where the word has .ord (R449). -/
def ordWait (s : State) (m : MemF) (c : Ctx) (k : Ctx → Res) : Res := if m.ord then holdCopies s c k else k c

/-- OUTSTORE of a global store of a task (R242). -/
def Ctx.outstore (c : Ctx) (va : BitVec 64) (n : Nat) : Option TrapRec := (c.outside va n).map outstoreTrap

/-- A local store: it writes at the start of the next schedule cycle (R450). -/
def Ctx.localWrite (c : Ctx) (sp : Space) (a n : Nat) (v : BitVec 64) : Ctx :=
  c.launchResult (c.flightOf .ctl (.elems n [(0, localKey sp a)]) (v.setWidth 1024) 1 0)

/-- ST and STP (R449, R450). -/
def storeWord (h : Hd) (m : MemF) (s : State) : Out :=
  accOut 1 <| runWord h 2 false s (fun s c => reading s c (valueRegs m ++ pairRegs m.base) (fun x =>
    let va := x.addr m.base m.off
    let n := MemF.bytes m
    let v := x.value m
    if va.toNat % n ≠ 0 then .trap s (alignTrap va .write)
    else
      match c.select s.free va n .write with
      | .bad t => .trap s t
      | .here sp a =>
        match c.undoHit sp a n with
        | some i => .trap s (outstoreTrap (va + BitVec.ofNat 64 i))
        | none => ordWait s m c (fun c => escape s c (.ok s (c.localWrite sp a n v)))
      | .global => s.scalarAccess c va n .write c.cls (c.outstore va n) (fun s1 pa =>
        ordWait s m c (fun c =>
          let bs := place pa (bytesOfNat n (v.toNat % 2 ^ (8 * n)))
          if c.isTask then s1.taskWrite s c bs (fun s2 => .ok s2 c) else .ok s1 (c.legStore bs)))))

/-- ST (R449). -/
def execSt (h : Hd) (m : MemF) (s : State) : Out := storeWord h m s

/-- STP (R449). -/
def execStp (h : Hd) (m : MemF) (s : State) : Out := storeWord h m s

/-- A WAITM wake adds the writer of the value that it read to the member's list (R232). -/
def Ctx.listWriter (c : Ctx) (who : Option Writer) : Ctx :=
  match who with
  | none => c
  | some w =>
    if !c.checkMode || c.listed.contains w then c
    else if c.listed.length < 8 then { c with listed := c.listed ++ [w] }
    else { c with listOv := true }

/-- The end of a WAITM: the final read enters the leg (R215, R488). -/
def Ctx.woken (c : Ctx) (pa : Nat) (who : Option Writer) (flags : BitVec 5) : Ctx :=
  let c1 := { c with waitm := none }.listWriter who
  if c.isTask then c1.flagAt .ctl none flags else (c1.legLoad (gransOf [pa])).flagAt .ctl (some c1.curLeg.no) flags

/-- What a WAITM reads: in a leg, its own buffer first; in a task, the home slice. -/
def State.waitRead (s : State) (c : Ctx) (va : BitVec 64) (pa n : Nat) : Read :=
  if c.isTask then s.readDram c va pa n 0 0 else s.readLeg c c.curLeg va pa n

/-- The bytes of a range that stand in the open leg's buffer. -/
def Ctx.buffered (c : Ctx) (pa n : Nat) : List (Nat × Byte) :=
  if c.isTask then [] else c.curLeg.buf.filter (fun x => decide (pa ≤ x.1) && decide (x.1 < pa + n))

/-- VACTRAP or LOST of a WAITM's read, which come before WATCH and RACE (R488). -/
def State.waitStop (s : State) (c : Ctx) (va : BitVec 64) (n : Nat) : Option TrapRec :=
  match s.translate c va .read with
  | .ok pa s1 =>
    if s1.outside pa then none
    else
      match s1.waitRead c va pa n with
      | .trap t => some t
      | .ok _ _ => none
  | _ => none

/-- The writer of what a range reads: the recorded writer of its sector, where that has written some byte of it (R232). -/
def State.writerOf (s : State) (pa n : Nat) : Option Writer :=
  (s.shadow.find (pa / 64)).bind (fun h => if (h.mask &&& sectorMask (pa / 64) pa n) = 0 then none else some h.writer)

/-- The test of a WAITM on the word at its address as it translates now: it goes on, or leaves its waiter (R229, R488). `met` are the
flags of tests made under an earlier translation. -/
def waitTest (s : State) (c : Ctx) (m : MemF) (cond : WCond) (va : BitVec 64) (v : BitVec 64) (met : BitVec 5) : Res :=
  let n := MemF.bytes m
  s.scalarAccess c va n .read c.cls (s.waitStop c va n) (fun s1 pa =>
    if !c.isTask && s1.inFlight none (gransOf [pa]) then .stall s c
    else
    match s1.fetchFar c 0 [(pa, n)] with
    | (false, s2) => .stall (s.asking s2) c
    | (true, s2) =>
    match s2.waitRead c va pa n with
    | .trap t => .trap s2 t
    | .ok bs f =>
      if condTest cond (wordOfBytes 64 bs) v then .ok s2 (c.woken pa (s2.writerOf pa n) (f ||| met))
      else
        .stall s2 { c with waitm := some { pa := pa, size := m.size, cond := cond, val := v, own := c.buffered pa n,
                                           woke := none, by' := none, vac := (f ||| met) == stVAC, lost := false } })

/-- What the tests of a waiter have met in its word's unit: the flags of the reads, or the trap (R166, R176, R488). -/
def State.waiterMet (s : State) (c : Ctx) (va : BitVec 64) (w : Waiter) : Except TrapRec (BitVec 5) :=
  let read (u : UState) := ({ s with dram := s.dram.mark (w.pa / 64) u } : State).waitRead c va w.pa (w.size.bits / 8)
  match (if w.vac then read .vacated else .ok [] 0) with
  | .trap t => .error t
  | .ok _ f =>
    match (if w.lost then read .lost else .ok [] 0) with
    | .trap t => .error t
    | .ok _ _ => .ok f

/-- WAITM (R229, R488, R489). A write that has satisfied the condition ends it, whatever has become of the word and its translation
since; else it is translated again each time its word comes up, and a change of its address repeats the test. -/
def execWaitm (h : Hd) (m : MemF) (cond : WCond) (s : State) : Out :=
  runWord h 2 false s (fun s c => reading s c (valueRegs m ++ pairRegs m.base) (fun x =>
    let va := x.addr m.base m.off
    let n := MemF.bytes m
    let v := x.value m
    if va.toNat % n ≠ 0 then .trap s (alignTrap va .read)
    else
      match c.waitm with
      | none => waitTest s c m cond va v 0
      | some w =>
        match s.waiterMet c va w with
        | .error t => .trap s t
        | .ok f =>
          if w.woke.isSome then .ok s (c.woken w.pa w.by' f)
          else
            match s.translate c va .read with
            | .fault x => .trap s (xTrap s.free x va .read)
            | .busy => .stall s c
            | .ok pa s1 => if w.pa ≠ pa then waitTest s { c with waitm := none } m cond va v f else .stall s1 c))

end Sys2Proof.Machine
end

