-- ==== Sys2Proof/Machine/Shapes.lean ====
section
/-!
DEFINITION. Shape records (R185 to R188): their fields, their check, and the address of an element.
-/
namespace Sys2Proof.Machine

/-- The fields of a shape record (R185). -/
structure Shape where
  base  : Nat
  d0    : Nat
  d1    : Nat
  d2    : Nat
  d3    : Nat
  s1    : Nat
  s2    : Nat
  s3    : Nat
  absn  : Nat
  thr   : Nat
  accf  : Nat
  fmt   : BitVec 4
  promo : Nat
  swap  : Bool
  lay   : Nat
  deriving DecidableEq, Repr

/-- The eight words of a record. -/
def recWord (r : BitVec 512) (k : Nat) : BitVec 64 := r.extractLsb' (64 * k) 64

/-- Reads the fields. -/
def Shape.ofRec (r : BitVec 512) : Shape :=
  { base := ((recWord r 0).extractLsb' 0 49).toNat
    d0 := ((recWord r 1).extractLsb' 0 32).toNat, d1 := ((recWord r 1).extractLsb' 32 32).toNat
    d2 := ((recWord r 2).extractLsb' 40 16).toNat, d3 := ((recWord r 3).extractLsb' 40 16).toNat
    s1 := ((recWord r 2).extractLsb' 0 40).toNat, s2 := ((recWord r 3).extractLsb' 0 40).toNat
    s3 := ((recWord r 4).extractLsb' 0 40).toNat
    absn := ((recWord r 5).extractLsb' 32 32).toNat, thr := ((recWord r 5).extractLsb' 16 16).toNat
    accf := ((recWord r 5).extractLsb' 4 2).toNat, fmt := (recWord r 5).extractLsb' 0 4
    promo := ((recWord r 6).extractLsb' 0 49).toNat
    swap := (recWord r 7).getLsbD 2, lay := ((recWord r 7).extractLsb' 0 2).toNat }

/-- Reserved bits are zero (R185). -/
def reservedZero (r : BitVec 512) : Bool :=
  (recWord r 0).extractLsb' 49 15 == 0 && (recWord r 2).extractLsb' 56 8 == 0 && (recWord r 3).extractLsb' 56 8 == 0 &&
    (recWord r 4).extractLsb' 40 24 == 0 && (recWord r 5).extractLsb' 6 10 == 0 &&
    (recWord r 6).extractLsb' 49 15 == 0 && (recWord r 7).extractLsb' 3 61 == 0

/-- A power of two of at least 4. -/
def pow4 (n : Nat) : Bool := decide (4 ≤ n) && n == 2 ^ Nat.log2 n

/-- A record passes the check of R186. A type code that R104 does not give fails it (log 101). -/
def Shape.ok (r : BitVec 512) (x : Shape) : Bool :=
  reservedZero r && x.d0 != 0 && x.d1 != 0 && x.d2 != 0 && x.d3 != 0 && decide (x.lay ≤ 1) &&
    (match Fmt.ofCode x.fmt with
     | none => false
     | some f =>
       !((x.accf == 1 || x.accf == 3) && f != .bf16) && !(x.accf == 2 && f != .fp32) &&
         !(x.lay == 1 && (!(f.bits == 8 || f.bits == 16) || !pow4 x.d0 || !pow4 x.d1 || x.s1 != 0))) &&
    !(x.swap && x.lay == 0)

/-- The interleaved part of z, from bit `i` of the coordinates (R187). -/
def zHigh (d0 d1 x y : Nat) : Nat → Nat → Nat → Nat
  | 0, _, _ => 0
  | fuel + 1, i, bit =>
    let useX := decide (2 ^ i < d0)
    let useY := decide (2 ^ i < d1)
    let b1 := if useX then bit * 2 else bit
    let b2 := if useY then b1 * 2 else b1
    (if useX then bit * (x / 2 ^ i % 2) else 0) + (if useY then b1 * (y / 2 ^ i % 2) else 0) +
      zHigh d0 d1 x y fuel (i + 1) b2

/-- z of R187. -/
def zOrder (d0 d1 y x : Nat) : Nat := 4 * (y % 4) + x % 4 + zHigh d0 d1 x y 32 2 16

/-- Logical size of dimension 0: with SWAP the tensor is its transpose (R188). -/
def Shape.n0 (r : Shape) : Nat := if r.swap then r.d1 else r.d0

/-- Logical size of dimension 1 (R188). -/
def Shape.n1 (r : Shape) : Nat := if r.swap then r.d0 else r.d1

/-- The logical coordinates of element `x` in row-major order (R188, R429). -/
def Shape.coords (r : Shape) (x : Nat) : Nat × Nat × Nat × Nat :=
  (x % r.n0, x / r.n0 % r.n1, x / (r.n0 * r.n1) % r.d2, x / (r.n0 * r.n1 * r.d2))

/-- Address of logical element (j0, j1, j2, j3) with elements of `w` bytes (R187, R188). -/
def Shape.addr (r : Shape) (w j0 j1 j2 j3 : Nat) : Nat :=
  let (a, b) := if r.swap then (j1, j0) else (j0, j1)
  let plane := r.base + j2 * r.s2 + j3 * r.s3
  if r.lay = 1 then plane + w * zOrder r.d0 r.d1 b a else plane + a * w + b * r.s1

/-- SHAPE (R186). -/
def shapeTrap (va : BitVec 64) : TrapRec := memTrap 0x0D va 0

/-- The bytes of the 64-byte record. -/
def recOfBytes (bs : List Byte) : BitVec 512 := BitVec.ofNat 512 (natOfBytes bs)

/-- Address of element `x` at BASE, of `w` bytes. -/
def Shape.nearAddr (r : Shape) (w x : Nat) : Nat :=
  let (a, b, c, d) := r.coords x
  r.addr w a b c d

end Sys2Proof.Machine
end

