-- ==== Sys2Proof/Machine/Atomics.lean ====
section
/-!
DEFINITION. Atomics and reductions: AMO, AMOC (R357 to R360), RED, REDF, REDO (R426 to R430), and their arrival at the home
slice (R160, R161, R168, R223, R225, R226, R427).
-/
namespace Sys2Proof.Machine

/-- The release scope that a word's accesses carry. -/
def MemF.release (m : MemF) : Scope := if m.rel then m.scope else .core

/-- Issues an atomic: it ends the open leg, and the control sequencer waits for its value (R32, R36, R357). -/
def Ctx.startAtomic (c : Ctx) (idx : Nat) (d : BitVec 5) (a : Atomic) : Ctx :=
  { c.endLeg false (some a) with
    pend := some (.atomic idx d a c.curLeg.no false)
    hold := if a.rel then some (c.inb.issued, c.outb.issued) else none }

/-- The shared part of AMO and AMOC: `f` makes the atomic from the registers, the address and the physical address. -/
def atomicWord (h : Hd) (m : MemF) (rs : List (BitVec 5)) (s : State) (f : Seqr → BitVec 64 → Nat → Atomic) : Out :=
  accOut 2 <| runWord h 2 false s (fun s c => reading s c (rs ++ pairRegs m.base) (fun x =>
    let va := x.addr m.base m.off
    let n := MemF.bytes m
    if va.toNat % n ≠ 0 then .trap s (alignTrap va .both)
    else s.scalarAccess c va n .both c.atomicCls none (fun s1 pa =>
      match c.outstore va n with
      | some t => .trap s1 t
      | none => .ok s1 (c.startAtomic x.pc m.reg (f x va pa)))))

/-- AMO (R357, R358). -/
def execAmo (h : Hd) (m : MemF) (op : AmoOp) (s : State) : Out :=
  atomicWord h m (valueRegs m) s (fun x va pa =>
    { op := op, cmp := none, size := m.size, val := x.value m, va := va, pa := pa, rel := m.rel,
      scope := MemF.release m })

/-- The registers of AMOC: the expected value, then the new value (R360). -/
def amocRegs (m : MemF) : List (BitVec 5) :=
  if m.size = .b64 then [m.reg, m.reg + 1, m.reg + 2, m.reg + 3] else [m.reg, m.reg + 1]

/-- AMOC (R360). -/
def execAmoc (h : Hd) (m : MemF) (s : State) : Out :=
  atomicWord h m (amocRegs m) s (fun x va pa =>
    { op := .swp, cmp := some (x.value m), size := m.size
      val := if m.size = .b64 then x.pairAt (m.reg + 2) else (x.reg (m.reg + 1)).zeroExtend 64
      va := va, pa := pa, rel := m.rel, scope := MemF.release m })

/-! ## Sending reductions -/

/-- A reduction of a context, as it stands at issue. -/
def Ctx.red (c : Ctx) (m : MemF) (kind : Nat) (op : AmoOp) (ty : Fmt) (val va : BitVec 64) (pa : Nat) : Red :=
  { kind := kind, op := op, size := m.size, ty := ty, val := val, va := va, pa := pa, v1 := 0, e1 := 0, v2 := 0, e2 := 0,
    cid := c.cid, lid := c.lid, idx := c.idx, core := c.core, sup := c.sup, legno := c.legno, stamp := c.stamp
    scope := MemF.release m, tag := 0, stage := .here, reply := none, root := c.root }

/-- A leg holds a REDO. -/
def Leg.hasRedo (l : Leg) : Bool :=
  l.log.any (fun o => match o with
    | .redo _ => true
    | .store _ => false)

/-- Waits as an AMO with rel does (R358): for the reductions that have left the core, the REDOs of ended legs (log 54), and the copies. -/
def relWait (s : State) (m : MemF) (c : Ctx) (k : Ctx → Res) : Res :=
  if m.rel then (if s.unapplied c || c.ended.any Leg.hasRedo then .stall s c else holdCopies s c k) else k c

/-- The shared part of RED, the value form of REDF, and REDO: `k` sends it. One that waits has made no access yet. -/
def redWord (h : Hd) (m : MemF) (kind : Nat) (op : AmoOp) (ty : Fmt) (s : State) (k : State → Ctx → Red → Res) : Out :=
  accOut 2 <| runWord h 2 false s (fun s c =>
    if c.isTask then .trap s outctxTrap
    else reading s c (valueRegs m ++ pairRegs m.base) (fun x =>
      let va := x.addr m.base m.off
      let n := MemF.bytes m
      if va.toNat % n ≠ 0 then .trap s (alignTrap va .both)
      else s.scalarAccess c va n .both .atomic none (fun s1 pa =>
        escape s c (relWait s m c (fun c => k s1 c (c.red m kind op ty (x.value m) va pa))))))

/-- Sends a reduction to its home slice. -/
def sendRed (s : State) (c : Ctx) (r : Red) : Res := .ok (s.dispatchRed r) c

/-- RED (R426). -/
def execRed (h : Hd) (m : MemF) (op : AmoOp) (s : State) : Out := redWord h m 0 op .n32 s sendRed

/-- Enters a REDO into the open leg (R430). -/
def enterRedo (s : State) (c : Ctx) (r : Red) : Res :=
  let c1 := c.room 1
  let l := c1.curLeg
  .ok s { c1 with leg := some { l with log := l.log ++ [.redo { r with legno := c1.legno, stamp := c1.stamp }] } }

/-- REDO (R430). -/
def execRedo (h : Hd) (m : MemF) (ty : Fmt) (s : State) : Out := redWord h m 2 .add ty s enterRedo

/-- The element addresses of REDF in shape form (R429): e1, and e2 where the add may go to the promoted region. A tensor
that stands promoted has its elements at PROMO (log 21). -/
def Shape.targets (r : Shape) (x : Nat) : Nat × Option Nat :=
  let (j0, j1, j2, j3) := r.coords x
  let far := r.promo + 4 * x
  if r.accf = 3 then (far, some far)
  else (r.addr (if r.accf = 1 then 2 else 4) j0 j1 j2 j3, if r.accf = 1 ∧ r.thr ≠ 0xFFFF then some far else none)

/-- What the shape form of REDF does with its record, read in pieces `rs` with flags `f` (R429): SHAPE, LEN, the translations of the
element's addresses, WATCH, RACE; then it sends the add. One that waits has made no access yet: it stays in `s0`. -/
def shapeSend (m : MemF) (va : BitVec 64) (x : Seqr) (s0 s : State) (c : Ctx) (rs : List Piece) (bs : List Byte) (f : BitVec 5) : Res :=
  let r := recOfBytes bs
  let sh := Shape.ofRec r
  if !sh.ok r || sh.accf == 0 then .trap s (shapeTrap va)
  else if sh.d0 * sh.d1 * sh.d2 * sh.d3 ≤ (x.reg m.reg).toNat then .trap s (mkTrap 0x0C (x.reg m.reg))
  else
    let (a1, a2) := sh.targets (x.reg m.reg).toNat
    let v1 := BitVec.ofNat 64 a1
    let v2 := BitVec.ofNat 64 (a2.getD a1)
    match s.reach c none .both rs ((v1, if sh.accf = 1 then 2 else 4) :: (if a2.isSome then [(v2, 4)] else [])) with
    | .trap s1 t => .trap s1 t
    | .stall => .stall s c
    | .dead => .dead .deviceWindow
    | .ok s1 ps =>
      match (if c.ctl.once.watch then none else (s1.core c.core).watchPieces 2 ps) with
      | some t => .trap s1 t
      | none =>
        match s1.racePieces c .atomic 2 ps with
        | .error t => .trap s1 t
        | .ok s2 =>
          let at' (i : Nat) : Nat := ((ps.drop rs.length)[i]?.map (fun p => p.2.1)).getD 0
          escape s0 c (relWait s0 m c (fun c => sendRed s2 (c.flagAt .ctl none f)
            { c.red m 3 .add .fp32 ((x.reg (m.reg + 1)).zeroExtend 64) va ((rs.head?.map (fun p => p.2.1)).getD 0) with
              v1 := v1, e1 := at' 0, v2 := if a2.isSome then v2 else 0, e2 := if a2.isSome then at' 1 else 0 }))

/-- REDF in shape form (R429): OUTCTX, ALIGN, the record's translation and LOST, then what the record says. Where the record itself
is lost, the loss record's SHAPE is the record's address (R178; log 102). -/
def redfShape (h : Hd) (m : MemF) (s : State) : Out :=
  accOut 2 <| runWord h 2 false s (fun s c =>
    if c.isTask then .trap s outctxTrap
    else reading s c ([m.reg, m.reg + 1] ++ pairRegs m.base) (fun x =>
      let va := x.addr m.base m.off
      if va.toNat % 64 ≠ 0 then .trap s (alignTrap va .both)
      else
        match s.reach c none .both [] [(va, 64)] with
        | .trap s1 t => .trap s1 t
        | .stall => .stall s c
        | .dead => .dead .deviceWindow
        | .ok s0 rs =>
          match s0.fetchFar c 0 (rs.map (fun p => (p.2.1, p.2.2))) with
          | (false, s1) => .stall (s.asking s1) c
          | (true, s1) =>
          match s1.readPieces { c with dmode := 0 } (fun _ => true) va.toNat 0 rs with
          | .trap t => .trap s1 t
          | .ok bs f => shapeSend m va x s s1 c rs bs f))

/-- REDF (R428, R429). -/
def execRedf (h : Hd) (m : MemF) (shape : Bool) (ty : Fmt) (s : State) : Out :=
  if shape then redfShape h m s else redWord h m 1 .add ty s sendRed

/-! ## At the home slice -/

/-- Sets flags that a home slice returns, in a context that is resident or not (R427): in joined mode they land in the schedule cycle
that begins next (R374), and a schedule-cycle stop holds them back (R318). No squash takes them back. -/
def State.flagCtx (s : State) (cid : Nat) (f : BitVec 5) : State :=
  match s.ctx cid with
  | some c =>
    s.setCtx (if f ≠ 0 ∧ (c.joined ∨ c.stat = .stopped) then c.launchResult (c.flightOf .comp .none 0 0 f) else c.flag f)
  | none => s

/-- A reduction's target is lost: it is not applied; LOST, and a loss record to the harts (R427). -/
def State.redLost (s : State) (r : Red) (va : BitVec 64) (pa shape : Nat) : State :=
  let bs := lossRecord .global va.toNat 64 (s.stamps.get 0xFFFF (pa / 64)).toNat shape r.sup r.legno 0 r.core
  { s.flagCtx r.cid stLOST with events := s.events ++ [{ type := 2, bytes := bs, cid := none }] }

/-- Writes a reduction's result. A reduction counts among the atomics of R232 (log 121). -/
def State.redWrite (s : State) (r : Red) (pa n v : Nat) : State :=
  let bs := place pa (bytesOfNat n v)
  match s.ctx r.cid with
  | some c => s.writeAs c .atomic r.scope r.stamp bs
  | none => (s.note (gransOf (bs.map Prod.fst))).writeHome r.stamp bs

/-- The value form: RED, REDF, REDO (R426, R428, R430). -/
def State.applyValue (s : State) (r : Red) : State :=
  let n := r.size.bits / 8
  if s.dram.unit 64 r.pa = .lost then s.redLost r r.va r.pa 0
  else
    let old := s.dram.word r.pa n
    if r.kind = 0 then s.redWrite r r.pa n (atomicOp r.op r.size old r.val).toNat
    else
      let (v, f) := floatAdd r.ty old.toNat (r.val.toNat % 2 ^ (8 * n))
      (s.redWrite r r.pa n v).flagCtx r.cid f

/-- ABS after an add that was absorbed. -/
def countAbs (a : Nat) : Nat := if a < 0xFFFFFFFF then a + 1 else a

/-- The root words of the package's contexts, launches and queues. -/
def State.rootsKnown (s : State) : List (BitVec 64) :=
  (s.allCtxs.map (fun c => c.root) ++ s.launches.map (fun l => l.root) ++ s.queues.map (fun q => q.2.root)).eraseDups

/-- The address space in which a tensor is promoted: that of the context whose add has passed the threshold; for an add of another package,
which names none, one of this package in which an element of the tensor lies at both places that the add names (log 110). -/
def State.promoRoot (s : State) (r : Red) (sh : Shape) : Option (BitVec 64) :=
  if r.cid ≠ 0 then some r.root
  else s.rootsKnown.find? (fun k => (List.range (sh.d0 * sh.d1 * sh.d2 * sh.d3)).any (fun x =>
    peek s.dram k (BitVec.ofNat 64 (sh.nearAddr 2 x)) .read == .ok r.e1 &&
      peek s.dram k (BitVec.ofNat 64 (sh.promo + 4 * x)) .write == .ok r.e2))

/-- The promotion of a tensor starts (R161): the adds that have reached its slice are still applied in bf16. -/
def State.startPromo (s : State) (r : Red) (sh : Shape) : State :=
  if s.promos.any (fun p => p.1 == r.pa) then s
  else
    match s.promoRoot r sh with
    | none => s
    | some root =>
      { s with
        promos := s.promos ++ [(r.pa, root)]
        reds := s.reds.map (fun q => if q.kind = 3 ∧ q.pa = r.pa ∧ q.stage = .here then { q with early := true } else q) }

/-- The shape form (R160, R161, R429). -/
def State.applyShape (s : State) (r : Red) : State :=
  if s.dram.unit 64 r.pa = .lost then s.redLost r r.va r.pa r.va.toNat
  else
    let sh := Shape.ofRec (recOfBytes (s.dram.bytes r.pa 64))
    let far := sh.accf == 3 && r.e2 != 0
    let pa := if far then r.e2 else r.e1
    let va := if far then r.v2 else r.v1
    if s.dram.unit 64 pa = .lost then s.redLost r va pa r.va.toNat
    else
      let ty : Fmt := if sh.accf = 1 then .bf16 else .fp32
      let n := ty.bits / 8
      let old := (s.dram.word pa n).toNat
      let add := Fmt.fp32.num r.val.toNat
      let (v, f) := ty.ofNum .rne 0 ((ty.num old).add .rne add)
      let s1 := (s.redWrite r pa n v).flagCtx r.cid (Flags.sticky f)
      let absorbed := sh.accf == 1 && !(add.same (.fin false 0 0)) && add != .nan && !((ty.num old).same (.fin false 0 0)) &&
        !(ty.num old).nonFinite && v == old
      if absorbed then
        let a := countAbs sh.absn
        let s2 := s1.redWrite r (r.pa + 0x2C) 4 a
        if sh.thr ≠ 0xFFFF ∧ sh.thr < a then s2.startPromo r sh else s2
      else s1

/-- The granules that a reduction may write. -/
def Red.grans (r : Red) : List Nat := if r.kind = 3 then gransOf (r.pa :: r.e1 :: (if r.e2 = 0 then [] else [r.e2])) else gransOf [r.pa]

/-- Applies a reduction at its home slice, or leaves the state as it is where it must wait: behind a pinned leg (R217), or
for a promotion (R161). -/
def State.applyRed (s : State) (r : Red) : Option State :=
  if s.writeHeld (s.ctx r.cid) r.grans then none
  else if r.kind = 3 && !r.early && s.promos.any (fun p => p.1 == r.pa) then none
  else some (if r.kind = 3 then s.applyShape r else s.applyValue r)

/-- Two reductions have come over one link for one granule (R301). -/
def Red.sameWay (q r : Red) : Bool :=
  q.reply.isSome && q.reply.map Prod.fst == r.reply.map Prod.fst && q.pa / 64 == r.pa / 64

/-- The reduction at position `k` may be applied next: it has reached its home slice, REDOs go in the order of commit (R226), and what
one link has brought for one granule goes in the order of its arrival (R301, R303). -/
def redMayGo (k : Nat) (rs : List Red) : Bool :=
  match rs[k]? with
  | some r => r.stage == .here && (rs.take k).all (fun q => (r.kind != 2 || q.kind != 2 || q.stage == .done) &&
      !(q.stage == .here && q.sameWay r))
  | none => false

/-- REDUCTION_APPLY (R225, R226, R304, R427, R429). -/
def execReductionApply (k : Nat) (s : State) : Out :=
  match s.reds[k]? with
  | none => .next s
  | some r =>
    if redMayGo k s.reds then
      match s.applyRed r with
      | some s' => .next (s'.ackRed r)
      | none => .next s
    else .next s

end Sys2Proof.Machine
end

