-- ==== Sys2Proof/Machine/Commit.lean ====
section
/-!
DEFINITION. Ends, pins and commits of legs, atomics at their home slices, and barriers (R28, R29, R32, R36, R213 to R217,
R221, R223, R250, R341, R359, R495, R497).
-/
namespace Sys2Proof.Machine

/-! ## Atomics at the home slice -/

/-- The value of a pending step reaches its register and the latches; it is visible to the next word (R357, R360, R361). -/
def Ctx.gets (c : Ctx) (v : BitVec 64) : Ctx :=
  match c.pend with
  | some (.atomic _ d a _ _) =>
    let x := if a.size = .b64 then (c.ctl.setReg d (v.extractLsb' 0 32)).setReg (d + 1) (v.extractLsb' 32 32)
      else c.ctl.setReg d (v.extractLsb' 0 32)
    { c with ctl := x.latch { val := v.setWidth 1024, due := c.t }, pend := none, back := none }
  | some (.barrier _ _ _ _ _ d) =>
    { c with ctl := (c.ctl.setReg d (v.setWidth 32)).latch { val := v.setWidth 1024, due := c.t }, pend := none, back := none }
  | none => { c with back := none }

/-- The value of a pending step returns to its core; a schedule-cycle stop holds it back (R318). -/
def Ctx.returns (c : Ctx) (v : BitVec 64) : Ctx := if c.stat = .stopped then { c with back := some v } else c.gets v

/-- What a schedule-cycle stop has held back arrives (R318). -/
def Ctx.takeBack (c : Ctx) : Ctx :=
  match c.back with
  | some v => c.gets v
  | none => c

/-- An atomic is performed: the leg that it ends is complete (R35, R359), and its value returns (R357, R360). -/
def Ctx.deliver (c : Ctx) (old : BitVec 64) : Ctx :=
  ({ c with hold := none, again := false, legno := if c.isTask || c.isHandler then c.legno else c.legno + 1 }).returns old

/-- Performs an atomic for context `c` at its home slice, which holds no lost byte of it (R168, R223, R357, R360). -/
def State.doAtomic (s : State) (c : Ctx) (a : Atomic) : State × BitVec 64 :=
  let n := a.size.bits / 8
  let old := s.dram.word a.pa n
  let write := match a.cmp with
    | some e => old == e.setWidth 64
    | none => true
  let s1 := s.squash (gransOf [a.pa])
  if write then
    let bs := place a.pa (bytesOfNat n (atomicOp a.op a.size old a.val).toNat)
    (s1.writeAs c c.atomicCls a.scope c.stamp bs, old)
  else (s1, old)

/-- LOST at the home slice of an atomic (R359, R497). -/
def State.atomicLost (s : State) (c : Ctx) (idx : Nat) (a : Atomic) : State :=
  let g := a.pa / 64 * 64
  let t := lostTrap c .global [(g, 64)] (a.va &&& ~~~63#64) (s.stamps.get 0xFFFF (g / 64)).toNat 0 0 2 0
  s.suspend c .ctl false (some idx) t

/-- An atomic that meets LOST at its home slice (R359, R497): its context traps; one that is suspended for another reason performs
it again as it runs again, and one that aborts has no use for it. -/
def State.lostHere (s : State) (c : Ctx) (idx : Nat) (d : BitVec 5) (a : Atomic) (legNo : Nat) : State :=
  let c1 := { c with pend := some (.atomic idx d a legNo false) }
  if c.stat = .running ∨ c.stat = .inverse then s.atomicLost c1 idx a
  else if c.stat = .aborting then s.setCtx { c with pend := none }
  else s.setCtx { c1 with again := true }

/-- The pending atomic of a context is performed, or handed to the module or port that leads to its home (R36, R308, R341, R359).
None where it must wait behind a pinned leg at its home slice here (R217). Its TAG is 0: a core has one atomic on its way. -/
def State.performAtomic (s : State) (c : Ctx) (idx : Nat) (d : BitVec 5) (a : Atomic) (legNo : Nat) : Option State :=
  if s.homeDie a.pa ≠ dieOf c.core then
    some ((s.sendTo (dieOf c.core) a.pa (amoRequest a 0 c.core)).setCtx { c with pend := some (.atomic idx d a legNo true) })
  else if s.writeHeld (some c) (gransOf [a.pa]) then none
  else if s.dram.unit 64 a.pa = .lost then some (s.lostHere c idx d a legNo)
  else
    let (s1, old) := (s.setCtx c).doAtomic c a
    match s1.ctx c.cid with
    | some c1 => some (s1.setCtx (c1.deliver old))
    | none => some s1

/-- An atomic with .rel is sent only once its earlier copies and reductions are visible (R358). -/
def State.relOk (s : State) (c : Ctx) (a : Atomic) : Bool :=
  !a.rel || (!s.unapplied c && (match c.hold with
    | some h => decide (h.1 ≤ c.inb.retired) && decide (h.2 ≤ c.outb.retired)
    | none => true))

/-! ## Commit -/

/-- The granules that a leg writes at its commit (R215, R216). -/
def Leg.writeSet (l : Leg) : List Nat :=
  (l.grans ++ l.log.flatMap (fun o => match o with
    | .redo r => gransOf [r.pa]
    | .store _ => []) ++ (l.atomic.toList.flatMap (fun a => gransOf [a.pa]))).eraseDups

/-- A REDO is applied before its turn: one whose message is still on its way is acknowledged as that arrives. -/
def State.applyEarly (s : State) (r : Red) : State :=
  let s1 := s.applyValue r
  match r.stage with
  | .here => s1.ackRed r
  | .sent => { s1 with reds := s1.reds.replace r { r with stage := .done } }
  | .done => s

/-- Sent REDOs on the granules are applied, in order (R226, R430). -/
def State.flushRedos (s : State) (grans : List Nat) : List Red → State
  | [] => s
  | r :: rs =>
    State.flushRedos (if r.kind = 2 ∧ grans.contains (r.pa / 64) then s.applyEarly r else s) grans rs

/-- Entry `k` of the vector clock of die `d` of this package (R311). -/
def State.clock (s : State) (d k : Nat) : Word := s.clocks.get 0 (48 * d + k)

/-- The stores of one leg that are homed on one die of another package go out as one batch (R230, R311); `home` is 3 and the
domain number of that die. -/
def State.batchOut (s : State) (c : Ctx) (home : Nat) (bs : List (Nat × Byte)) : State :=
  let d := dieOf c.core
  let src := s.domainDie d
  let s1 := { s with clocks := s.clocks.put 0 (48 * d + src) (s.clock d src + 1) }
  { s1 with batches := s1.batches ++ [{ src := src, dst := home - 3, clock := (List.range 48).map (s1.clock d),
                                        stores := bs.map (fun p => (p.1, [p.2])) }] }

/-- A waiter as it stood before a store of a committing leg: what it met of the leg's single stores does not count (R209, R229). -/
def Ctx.calm (s0 : State) (c : Ctx) : Ctx :=
  match (s0.ctx c.cid).bind (fun d => d.waitm) with
  | some w => { c with waitm := c.waitm.map (fun x => { x with woke := w.woke, by' := w.by', vac := w.vac, lost := w.lost }) }
  | none => c

/-- Every waiter as it stood in `s0`. -/
def State.calmed (s s0 : State) : State := { s with ctxs := s.ctxs.map (fun kc => (kc.1, kc.2.calm s0)) }

/-- One write of a committing leg, but for its stores to other packages. -/
def State.commitOp (s : State) (c : Ctx) (stamp : BitVec 16) (o : LegOp) : State :=
  match o with
  | .redo r => s.dispatchRed r
  | .store bs =>
    let near := bs.filter (fun p => decide (s.homeDie p.1 < 3))
    let s1 := s.flushRedos (gransOf (near.map Prod.fst)) s.reds
    if near.isEmpty then s1 else (s1.writeAs c .leg .pkg stamp near).calmed s1

/-- The stamp of a leg's writes (R177). -/
def Leg.stamp (l : Leg) : BitVec 16 := l.sup.extractLsb' 0 8 ++ l.legno.extractLsb' 0 8

/-- The bytes that a leg stores, in program order. -/
def Leg.stores (l : Leg) : List (Nat × Byte) := l.log.flatMap (fun o => match o with
  | .store bs => bs
  | .redo _ => [])

/-- The writes of a leg become visible, all at once (R209, R214, R226): sent REDOs on what it stores to come first, and waiters
test the word after each REDO, and once the whole leg is there. Its stores to another package go out in one batch for each die (R230). -/
def State.commitLog (s : State) (c : Ctx) (l : Leg) : State :=
  let near := l.stores.filter (fun p => decide (s.homeDie p.1 < 3))
  let far := l.stores.filter (fun p => !decide (s.homeDie p.1 < 3))
  let s0 := s.flushRedos (gransOf (near.map Prod.fst)) s.reds
  let s1 := l.log.foldl (fun t o => t.commitOp c l.stamp o) s0
  let s2 := s1.wake (some c.writer) (near.map Prod.fst)
  ((far.map (fun p => s.homeDie p.1)).eraseDups).foldl
    (fun t d => t.batchOut c d (far.filter (fun p => s.homeDie p.1 == d))) s2

/-- A leg leaves its context: the flags it holds are applied (R217). -/
def Ctx.dropLeg (c : Ctx) (l : Leg) : Ctx :=
  { c.flag l.held with ended := c.ended.filter (fun e => e.no != l.no) }

/-- The granules that a leg writes at its commit, but for its atomic's. -/
def Leg.storeSet (l : Leg) : List Nat :=
  (l.grans ++ l.log.flatMap (fun o => match o with
    | .redo r => gransOf [r.pa]
    | .store _ => [])).eraseDups

/-- The leg's atomic keeps its place in the order of its word (R223, R341): one to another die may follow on the same module what
its own die has sent, and waits at the far slice itself; any other waits for what is on its way. -/
def State.atomicTurn (s : State) (c : Ctx) (a : Atomic) : Bool :=
  if s.homeDie a.pa = dieOf c.core then !s.inFlight none (gransOf [a.pa]) && !s.writeHeld (some c) (gransOf [a.pa])
  else !s.inFlight (some (dieOf c.core)) (gransOf [a.pa])

/-- The leg may commit now (R214, R217, R341, R495; in relaxed mode the head of the queue, R213). -/
def State.mayCommit (s : State) (c : Ctx) (l : Leg) : Bool :=
  s.safe c l && c.ended.all (fun e => !decide (e.no < l.no)) &&
    !s.writeHeld (some c) l.storeSet && !s.inFlight none l.storeSet &&
    (match l.atomic with
     | some a => s.atomicTurn c a && s.relOk c a
     | none => true)

/-- Commits a leg, but for its atomic: its write set, the atomic's target in it, is tested while the leg still counts as
uncommitted, so that every leg with a larger key that read it is squashed, the member's own among them (R216). -/
def State.commitLeg (s : State) (c : Ctx) (l : Leg) : State :=
  let s1 := (({ s with innq := s.innq.filter (fun q => !(q.1 == c.cid && q.2 == l.no)) }.setCtx c).commitLog c l).squash
    (match l.atomic with
     | some a => gransOf [a.pa]
     | none => [])
  match s1.ctx c.cid with
  | some c1 => s1.setCtx (c1.dropLeg l)
  | none => s1

/-- The trap of a context came from its own pending atomic or barrier (R497). -/
def Ctx.pendTrap (c : Ctx) : Bool := (c.trap.map (fun t => t.held && t.sq == .ctl)).getD false

/-- The atomic that a context waits for, if it has not been sent; one that has trapped, or is to be performed again, waits for its context to run
again (R359, R497). -/
def Ctx.pendingAtomic (c : Ctx) : Option (Nat × BitVec 5 × Atomic × Nat) :=
  match c.pend with
  | some (.atomic i d a n false) => if c.back.isNone && ((!c.again && !c.pendTrap) || c.stat == .running || c.stat == .inverse) then some (i, d, a, n)
      else none
  | _ => none

/-- The atomic of an already committed leg, or of a task, is performed (R36, R243, R359). -/
def State.atomicStep (s : State) (cid : Nat) : Option State :=
  match s.ctx cid with
  | none => none
  | some c =>
    match c.pendingAtomic with
    | none => none
    | some (i, d, a, n) =>
      if c.ended.any (fun l => l.no == n) ∨ s.relOk c a = false then none else s.performAtomic c i d a n

/-- LEG_COMMIT (R214, R36, R223, R226). -/
def execLegCommit (cid : Nat) (s : State) : Out :=
  match s.ctx cid with
  | none => .next s
  | some c =>
    match c.ended with
    | [] => .next ((s.atomicStep cid).getD s)
    | l :: _ =>
      if s.mayCommit c l then
        let s1 := s.commitLeg c l
        .next ((if l.atomic.isSome then s1.atomicStep cid else none).getD s1)
      else .next s

/-- LEG_PIN (R213): the leg at the head of the queue is pinned. -/
def execLegPin (s : State) : Out :=
  match s.innq with
  | [] => .next s
  | (cid, no) :: r =>
    match s.ctx cid with
    | none => .next { s with innq := r }
    | some c =>
      let pin (l : Leg) : Leg := if l.no = no then { l with pinned := true } else l
      .next (s.setCtx { c with leg := c.leg.map pin, ended := c.ended.map pin })

/-- LEG_COUNT_END (R32 case 1). -/
def execLegCountEnd (cid : Nat) (s : State) : Out :=
  match s.ctx cid with
  | some c => .next (if c.legFull then s.keep (c.endLeg false none) else s)
  | none => .next s

/-! ## Barriers -/

/-- The members of a company that have not retired, in logical-index order (R20). -/
def State.membersOf (s : State) (lid : BitVec 48) : List Ctx :=
  (s.allCtxs.filter (fun c => c.isRegular && c.lid == lid)).insertionSort (fun a b => a.idx ≤ b.idx)

/-- The barrier at which a member stands: its number, .comm, operation and operand. One that has failed it arrives again as it is
resumed (R497). -/
def Ctx.atBarrier (c : Ctx) : Option (Nat × Bool × BarOp × Word) :=
  match c.pend with
  | some (.barrier _ n comm op v _) => if c.again || c.back.isSome then none else some (n, comm, op, v)
  | _ => none

/-- A member's copy engine holds an XFER that has not landed (R30). -/
def Ctx.xferring (c : Ctx) : Bool :=
  (c.inb.active.toList ++ c.inb.shadow.toList ++ c.outb.active.toList ++ c.outb.shadow.toList).any
    (fun k => match k.word with
      | .xfer .. => true
      | _ => false)

/-- The conditions of R221, R30 and R250 hold. -/
def State.barrierReady (s : State) (lid : BitVec 48) (ms : List Ctx) (comm : Bool) : Bool :=
  ms.all (fun c => c.ended.isEmpty && !s.unapplied c && !(comm && c.xferring)) &&
    (match s.launch lid with
     | some l => l.tasks.isEmpty
     | none => true)

/-- The combined operand (R29). -/
def combine (op : BarOp) (ms : List Ctx) : Word :=
  ms.foldl (fun v c => match c.atBarrier with
    | some (_, _, _, w) => barOp op v w
    | none => v) (barUnit op)

/-- A member goes on after a barrier (R27, R361): the operand in s[d], the phase, SUPSTEP and LEGNO. -/
def Ctx.pass (c : Ctx) (v : Word) : Ctx :=
  match c.pend with
  | some (.barrier _ _ comm _ _ _) =>
    ({ c with
      phase := !comm, sup := if comm then c.sup + 1 else c.sup, legno := 0, listed := [], listOv := false }).returns (v.setWidth 64)
  | _ => c

/-- Puts contexts back. -/
def State.setAll (s : State) : List Ctx → State
  | [] => s
  | c :: r => State.setAll (s.setCtx c) r

/-- A member traps PHASE at its BARS, whose barrier has failed; one that does not run does so as it runs again (R28, R497). Its
arrival no longer counts. -/
def State.failOne (s : State) (c : Ctx) : State :=
  match c.pend with
  | some (.barrier idx ..) =>
    let c1 := { c with again := true }
    if c.stat = .running then s.suspend c1 .ctl false (some idx) (mkTrap 0x04 0) else s.setCtx c1
  | _ => s

/-- Every member of a failed barrier. -/
def State.failBarrier (s : State) : List Ctx → State
  | [] => s
  | c :: r => State.failBarrier (s.failOne c) r

/-- A running member whose barrier has failed, and that has not trapped yet. -/
def Ctx.failed (c : Ctx) : Bool :=
  c.again && c.stat == .running && (match c.pend with
    | some (.barrier ..) => true
    | _ => false)

/-- BARRIER_COMPLETE (R28, R29, R221, R250). -/
def execBarrierComplete (lid : BitVec 48) (s : State) : Out :=
  let ms := s.membersOf lid
  match ms with
  | [] => .next s
  | c :: _ =>
    if ms.any Ctx.failed then .next (s.failBarrier (ms.filter Ctx.failed))
    else
    match c.atBarrier with
    | none => .next s
    | some (n, comm, op, _) =>
      if ms.all (fun m => (m.atBarrier.map (fun b => b.1)) == some n) then
        if ms.all (fun m => (m.atBarrier.map (fun b => (b.2.1, b.2.2.1))) == some (comm, op)) then
          if s.barrierReady lid ms comm then .next (s.setAll (ms.map (fun m => m.pass (combine op ms)))) else .next s
        else .next (s.failBarrier ms)
      else .next s

end Sys2Proof.Machine
end

