-- ==== Sys2Proof/Machine/Launches.lean ====
section
/-!
DEFINITION. Launch records, their refusal, acceptance, dependences, completion and abortion (R15 to R19, R45, R254 to R258).
-/
namespace Sys2Proof.Machine

/-! ## The record -/

/-- Word `k` of a record. -/
def wordAt (bs : List Byte) (k : Nat) : BitVec 64 := wordOfBytes 64 ((bs.drop (8 * k)).take 8)

/-- The fields of a launch record (R15). -/
def LRec.ofBytes (bs : List Byte) : LRec :=
  let w := wordAt bs
  { image := w 0 &&& ~~~0xFFF#64
    entC := ((w 1).extractLsb' 48 16).toNat, entL := ((w 1).extractLsb' 32 16).toNat
    entS := ((w 1).extractLsb' 16 16).toNat, entX := ((w 1).extractLsb' 0 16).toNat
    s := ((w 2).extractLsb' 56 8).toNat, d := ((w 2).extractLsb' 40 8).toNat, c := ((w 2).extractLsb' 32 8).toNat
    k := ((w 2).extractLsb' 24 8).toNat, prio := (w 2).extractLsb' 22 2, cls := (w 2).getLsbD 21
    dmode := (w 2).extractLsb' 19 2, plots := ((w 3).extractLsb' 32 6).toNat
    noxf := (w 3).getLsbD 3, nocan := (w 3).getLsbD 2, novec := (w 3).getLsbD 1, nomx := (w 3).getLsbD 0
    param := w 4, hseq := w 5, deps := [w 6, w 7, w 8, w 9], pool := w 10 }

/-- Kind of a dependence word (R16). -/
def depKind (d : BitVec 64) : Nat := (d.extractLsb' 62 2).toNat

/-- Reserved bits of a dependence word are zero (R16). -/
def depClean (d : BitVec 64) : Bool :=
  match depKind d with
  | 0 => d.extractLsb' 0 62 == 0
  | 1 => d.extractLsb' 48 14 == 0
  | 2 => d.extractLsb' 49 13 == 0
  | _ => d.extractLsb' 0 62 == 0

/-- Reserved bits of a record are zero (R15, R18). -/
def recClean (bs : List Byte) : Bool :=
  let w := wordAt bs
  (w 0).extractLsb' 0 12 == 0 && (w 0).extractLsb' 49 15 == 0 && (w 2).extractLsb' 48 8 == 0 &&
    (w 2).extractLsb' 0 19 == 0 && (w 3).extractLsb' 38 26 == 0 && (w 3).extractLsb' 4 28 == 0 &&
    (w 4).extractLsb' 49 15 == 0 && (w 10).extractLsb' 49 15 == 0 &&
    w 11 == 0 && w 12 == 0 && w 13 == 0 && w 14 == 0 && w 15 == 0 && [w 6, w 7, w 8, w 9].all depClean

/-- Extents are in range (R15, R18). -/
def LRec.inRange (r : LRec) : Bool :=
  decide (1 ≤ r.s) && decide (1 ≤ r.d) && decide (r.d ≤ 3) && decide (1 ≤ r.c) && decide (r.c ≤ 8) && decide (1 ≤ r.k) &&
    decide (r.k ≤ 16) && decide (1 ≤ r.plots) && decide (r.plots ≤ 48) && r.dmode != 3 &&
    decide (r.s * r.d * r.c * r.k ≤ 384)

/-- Every 4 KiB piece of a region translates with the needed right. -/
def regionOk (m : Mem) (root : BitVec 64) (va : BitVec 64) (k : Need) (pieces : Nat) : Bool :=
  (List.range pieces).all (fun i => match peek m root (va + BitVec.ofNat 64 (4096 * i)) k with
    | .ok _ => true
    | .error _ => false)

/-- 4 KiB pieces of an image (R80). -/
def imagePieces : Nat := 113

/-- IMAGE translates (R18). -/
def imageOk (m : Mem) (root : BitVec 64) (image : BitVec 64) : Bool := regionOk m root image .exec imagePieces

/-- The translation test of R18. -/
def LRec.mapped (r : LRec) (m : Mem) (root : BitVec 64) : Bool :=
  imageOk m root r.image && regionOk m root r.param .read 1 &&
    (!r.cls || r.pool == 0 || (regionOk m root r.pool .both (2 * r.d * r.c)))

/-- A source number names a source (R17). -/
def sourceOk (src : Nat) : Bool := decide (src < 0x1000) || (decide (0xF000 ≤ src) && decide (src < 0xF000 + 384))

/-- The source that a launch identifier names. -/
def depSource (d : BitVec 64) : Nat := (d.extractLsb' 32 16).toNat

/-- A rendezvous word is aligned and translates (R18). -/
def rendezvousOk (m : Mem) (root d : BitVec 64) : Bool :=
  d.extractLsb' 0 3 == 0 && (match peek m root (d.extractLsb' 0 49 |>.setWidth 64) .read with
    | .ok _ => true
    | .error _ => false)

/-- The refusal code of a record, 0 where it is accepted (R18): the lowest that applies. -/
def refusal (m : Mem) (root : BitVec 64) (bs : List Byte) : BitVec 8 :=
  let r := LRec.ofBytes bs
  if !recClean bs then 1
  else if !r.inRange then 2
  else if !(decide (r.entC < 16384) && decide (r.entL < 8192) && decide (r.entS < 8192) && decide (r.entX < 16384)) then 3
  else if r.param.extractLsb' 0 6 != 0 || r.pool.extractLsb' 0 12 != 0 then 4
  else if !r.mapped m root then 5
  else if r.cls != (r.pool != 0) then 6
  else if r.deps.any (fun d => depKind d == 3) then 7
  else if r.deps.any (fun d => depKind d == 2 && !rendezvousOk m root d) then 8
  else if r.deps.any (fun d => depKind d == 1 && !sourceOk (depSource d)) then 9
  else 0

/-! ## Horizons and completion -/

/-- A launch is over. -/
def Launch.isDone (l : Launch) : Bool :=
  match l.stat with
  | .done _ => true
  | _ => false

/-- A launch has started. -/
def Launch.isRunning (l : Launch) : Bool := l.stat == .running

/-- A launch waits to start. -/
def Launch.waits (l : Launch) : Bool := !l.isDone && !l.isRunning

/-- How far a launch lies beyond the horizon of its source, modulo 2^64; a source without a horizon starts at HSEQ 0 (R396). -/
def State.pastHorizon (s : State) (l : Launch) : Nat :=
  (l.record.hseq - (s.horizons.find l.src).getD 0xFFFFFFFFFFFFFFFF).toNat

/-- A launch lies beyond the horizon of its source (R256). Those of an earlier binding of a slot that lie below do not. -/
def State.beyond (s : State) (l : Launch) : Bool := decide (1 ≤ s.pastHorizon l) && decide (s.pastHorizon l < 2 ^ 63)

/-- The horizon may move to a completed launch (R256): no launch of the source up to it is open. Only launches accepted since
the slot was last enabled extend it. -/
def State.mayPass (s : State) (l : Launch) : Bool :=
  l.isDone && !l.stale && s.beyond l &&
    s.launches.all (fun x => x.src != l.src || !s.beyond x || x.isDone || decide (s.pastHorizon l < s.pastHorizon x))

/-- The horizon of a source moves up as far as it may (R256). -/
def State.moveHorizon (s : State) (src : Nat) : State :=
  match (s.launches.filter (fun l => l.src == src && s.mayPass l)).foldl (fun m l => max m (s.pastHorizon l)) 0 with
  | 0 => s
  | n => { s with horizons := s.horizons.set src ((s.horizons.find src).getD 0xFFFFFFFFFFFFFFFF + BitVec.ofNat 64 n) }

/-- The launches of a source that are over and that the horizon has passed, or that can move it no more, are forgotten. -/
def State.dropPassed (s : State) (src : Nat) : State :=
  { s with launches := s.launches.filter (fun l => l.src != src || !l.isDone || (s.beyond l && !l.stale)) }

/-- Cycles from the start of the first member of a launch (R258). -/
def State.cyclesOf (s : State) (l : Launch) : BitVec 64 :=
  match l.began with
  | some t => s.cycle - t
  | none => 0

/-- A launch dependence is satisfied: the source's horizon has reached the number (R17). -/
def State.passed (s : State) (d : BitVec 64) : Bool :=
  match s.horizons.find (depSource d) with
  | none => false
  | some h => !(h.extractLsb' 0 32 - d.extractLsb' 0 32).getLsbD 31

/-- Dependence `k` of a launch is satisfied; a rendezvous by RENDEZVOUS_DEP_TEST (R16). -/
def State.depOk (s : State) (l : Launch) (k : Nat) : Bool :=
  match l.record.deps[k]? with
  | none => true
  | some d =>
    match depKind d with
    | 1 => s.passed d
    | 2 => l.depsOk.contains k
    | _ => true

/-- Every dependence is satisfied. -/
def State.depsDone (s : State) (l : Launch) : Bool := (List.range 4).all (s.depOk l)

/-- Launches whose dependences are satisfied become ready (R16, R262). -/
def State.markReady (s : State) : State :=
  { s with launches := s.launches.map (fun l =>
      if l.stat == .waiting && s.depsDone l then { l with stat := .ready, since := s.cycle } else l) }

/-- A launch is among the 16 most recent of its LNCH unit (R399). -/
def Core.recent (k : Core) (lid : BitVec 48) : Bool := decide ((k.lnchNext.extractLsb' 0 32 - 1 - lid.extractLsb' 0 32).toNat < 16)

/-- A launch is over with a status: a queue owes a completion record, an LNCH unit keeps the status (R45, R256, R258). -/
def State.finishLaunch (s : State) (l : Launch) (status : BitVec 8) : State :=
  let s1 := (s.setLaunch { l with stat := .done status }).moveHorizon l.src
  let s2 := s1.dropPassed l.src
  if l.src < 0x1000 then
    let q := s2.queues.get Queue.off l.src
    let d : Done := { hseq := l.record.hseq, status := status, lid := l.lid, cyc := s.cyclesOf l }
    State.markReady { s2 with queues := s2.queues.set l.src { q with waits := q.waits ++ [d] } }
  else
    let p := l.src - 0xF000
    let k := s2.core p
    (s2.setCore p { k with lnchDone := (l.lid, status) :: k.lnchDone.filter (fun x => k.recent x.1) }).markReady

/-- Accepts a record of a source (R254, R18): the launch waits, or it is refused at once. -/
def State.accept (s : State) (src : Nat) (root hseq : BitVec 64) (parents : List (BitVec 48)) (bs : List Byte) : State :=
  let code := refusal s.dram root bs
  let r := { LRec.ofBytes bs with hseq := hseq }
  let l : Launch :=
    { lid := BitVec.ofNat 16 src ++ hseq.extractLsb' 0 32, src := src, record := r, root := root, stat := .waiting,
      depsOk := [], since := s.cycle, aged := 0, reserve := false, started := 0, began := none, stale := false, retired := [], parents := parents, seq := 0,
      tasks := [], table := [], trapmiss := false, regs := [], missed := [], displaced := false }
  let s1 : State := { s with launches := s.launches ++ [l] }
  if code = 0 then s1.markReady else s1.finishLaunch l code

/-! ## Discarding contexts -/

/-- The core stands at a schedule-cycle stop. -/
def State.coreStopped (s : State) (p : Nat) : Bool := ((s.core p).dbg.get 0 0x1010).getLsbD 0

/-- The contexts of a launch: members, tasks, and their handlers. -/
def State.ctxsOf (s : State) (lid : BitVec 48) : List Ctx := s.allCtxs.filter (fun c => c.lid == lid)

/-- Takes a context out of the machine: its bank or slot, its legs in the queue, the answer it waits for. -/
def State.discardCtx (s : State) (c : Ctx) : State :=
  let k := s.core c.core
  let s1 := { s.dropCtx c.cid with
    innq := s.innq.filter (fun q => q.1 != c.cid)
    spill := (match c.loc with
      | .slot n => s.spill.filter (fun x => x != n)
      | .bank _ => s.spill)
    fresp := s.fresp.filter (fun p => p.2 != c.cid) }
  if k.active = some c.cid then s1.setCore c.core { k with active := none } else s1

/-- Takes out several contexts. -/
def State.discardAll (s : State) : List Ctx → State
  | [] => s
  | c :: r => State.discardAll (s.discardCtx c) r

/-- Aborts a launch with a status (R258): its contexts are discarded, its open legs do not commit. -/
def State.abortLaunch (s : State) (lid : BitVec 48) (status : BitVec 8) : State :=
  let s1 := s.discardAll (s.ctxsOf lid)
  match s1.launch lid with
  | some l => if l.isDone then s1 else s1.finishLaunch { l with tasks := [], regs := [] } status
  | none => s1

/-! ## Writes of harts -/

/-- Some hart of the package runs: a held hart executes nothing (R329). -/
def State.hartRuns (s : State) : Bool := s.harts.any (fun x => x.2.running && !s.dropped.contains (x.1 / 8))

/-- What a hart's write to a register does (R329). -/
def byHart (s : State) (o : Out) : Out := if s.hartRuns then o else .next s

end Sys2Proof.Machine
end

