-- ==== Sys2Proof/Machine/System.lean ====
section
/-!
DEFINITION. System words: TRAP, ERET, DBRK, TLBI, HINT, WCHA, WCHD, PLLD, PLSW, LNCH, LSTAT, CTXS, CTXL (R80 to R83, R198, R203,
R272, R275, R276, R316 to R322, R376, R377, R382, R388, R396, R399, R422 to R424, R452, R453, R490, R497), and ILLEGAL (R102).
-/
namespace Sys2Proof.Machine

/-! ## Records and resumption -/

/-- VADDR of a trap record (R201, R296): the address of a translation fault or of a loss, otherwise TVAL. -/
def recordVaddr (t : TrapRec) : BitVec 64 :=
  if t.cause = 0x11 ∨ (0x18 ≤ t.cause ∧ t.cause ≤ 0x1B) then t.vaddr else t.tval.zeroExtend 64

/-- The 32-byte fault record of a trap (R201) with a VADDR. -/
def recordAt (va : BitVec 64) (c : Ctx) (t : TrapRec) (q : Sq) (epc : Word) : List Byte :=
  bytesOfNat 8 va.toNat ++
  bytesOfNat 8 (rootAsid c.root ++ BitVec.ofNat 8 t.cause ++ Sq.num q ++ t.acc ++ t.lvl ++ BitVec.ofBool t.tlost ++ 0#23 ++
    BitVec.ofNat 9 c.core : BitVec 64).toNat ++
  bytesOfNat 4 epc.toNat ++ bytesOfNat 4 t.dc.toNat ++ bytesOfNat 8 c.lid.toNat

/-- The fault record that goes to the harts (R296). -/
def faultRecord (c : Ctx) (t : TrapRec) (q : Sq) (epc : Word) : List Byte := recordAt (recordVaddr t) c t q epc

/-- The fault record of a suspended context. -/
def Ctx.record (c : Ctx) : List Byte :=
  match c.trap with
  | some t =>
    if t.place then faultRecord c t .ctl (BitVec.ofNat 32 c.ctl.pc)
    else faultRecord c t (seqOf c.cause) (c.seqr (seqOf c.cause)).epc
  | none => bytesOfNat 32 0

/-- The fault record that a handler gets: VADDR of a WATCH holds the whole address (R322). -/
def Ctx.handlerRecord (c : Ctx) (t : TrapRec) : List Byte :=
  recordAt (if t.cause = 0x13 then t.vaddr else recordVaddr t) c t (seqOf c.cause) (c.seqr (seqOf c.cause)).epc

/-- A pending atomic is performed again before any word (R497). -/
def Ctx.redoPend (c : Ctx) : Bool :=
  match c.pend with
  | some (.atomic ..) => true
  | _ => false

/-- The context's atomic is on its way to a far home slice. -/
def Ctx.onLink (c : Ctx) : Bool :=
  match c.pend with
  | some (.atomic _ _ _ _ sent) => sent && c.back.isNone
  | _ => false

/-- An atomic of the context has been issued, or sent again, and has not ended: neither has its value returned, nor has it met LOST
(R343, R497). -/
def Ctx.outstanding (c : Ctx) : Bool := c.onLink || (c.redoPend && !c.again && !c.pendTrap)

/-- A sequencer goes on at its EPC. -/
def Seqr.atEpc (x : Seqr) : Seqr := { x with pc := x.epc.toNat }

/-- A suspended context as it runs again (R272, R273, R333, R382): every sequencer goes on at its EPC, but one whose resume point
lies elsewhere: a copy command goes on at its unit and its sequencer where it stood, and the others at their EPC (R333; log 104); latches are
lost. Its own pending atomic is performed again, its own barrier arrives again (R497). The fault of a
plane fill has set no EPC (R83). -/
def Ctx.resumed (c : Ctx) : Ctx :=
  let c1 := c.loseLatches
  let c2 := match c.trap with
    | some t => if t.place then c1 else if t.held then (c1.onAll Seqr.atEpc).setSeqr t.sq (c1.seqr t.sq) else c1.onAll Seqr.atEpc
    | none => c1.onAll Seqr.atEpc
  { c2 with again := if c.pendTrap then c.redoPend else c.again, stat := if c.inv.isSome then .inverse else .running, trap := none }

/-- The watch test is left out once (R322): of the word that trapped WATCH (a copy word's records are read at issue), or of the copy command
whose unit did. -/
def Ctx.skipWatch (c : Ctx) : Ctx :=
  match c.trap with
  | some t =>
    if t.cause = 0x13 then
      let once (k : Chan) : Chan := { k with active := k.active.map (fun x => { x with once := true }) }
      let word (q : Sq) : Ctx := c.onSeqr q (fun x => { x with once := { x.once with watch := true } })
      match seqOf c.cause with
      | .ctl => word .ctl
      | .load => if t.held then { c with inb := once c.inb } else word .load
      | .store => if t.held then { c with outb := once c.outb } else word .store
      | .comp => c
    else c
  | none => c

/-! ## TRAP, ILLEGAL -/

/-- TRAP (R453): the trap is taken after the word. -/
def execTrap (h : Hd) (code : BitVec 12) (s : State) : Out :=
  runWord h 1 false s (fun s c => escape s c (.after s c (mkTrap 0x30 (code.zeroExtend 32))))

/-- ILLEGAL of the sequencer in focus (R102, R103). -/
def execIllegalEncoding (tval : Word) (s : State) : Out :=
  match s.activeCtx s.focus.1 with
  | none => .fault .noContext
  | some c => .next (s.trapHere c s.focus.2 (mkTrap 0x01 tval))

/-! ## DBRK -/

/-- Schedule-cycle stops are on (R316). -/
def State.dbrkOn (s : State) (p : Nat) : Bool := ((s.core p).dbg.get 0 0x1000).getLsbD 0

/-- KIND of an entry of DUMP (R319); none for what has no entry (log 76). -/
def Flight.kind (f : Flight) : Option Nat :=
  match f.dest with
  | .reg _ => some 0
  | .pred _ => some 1
  | .vreg _ => some 2
  | .mask _ => some 3
  | .elems .. => some 4
  | .none => none

/-- The entries of DUMP, in issue order (R319). -/
def Ctx.dumped (c : Ctx) : List Flight := c.flight.filter (fun f => f.kind.isSome)

/-- A schedule-cycle stop of a core (R318); `src` is 0 for DBRK and 1 for a cycle match. -/
def State.stopCore (s : State) (c : Ctx) (q : Sq) (src : Nat) : State :=
  let k := s.core c.core
  let n := min 64 c.dumped.length
  let bytes := faultRecord c (mkTrap 0x2C 0) q (BitVec.ofNat 32 (c.seqr q).pc) ++ bytesOfNat 32 0
  { (s.setCtx { c with stat := .stopped }).setCore c.core
      { k with dbg := k.dbg.put 0 0x1010 (BitVec.ofNat 64 (1 + 2 * src + 256 * n)) } with
    events := s.events ++ [{ type := 1, bytes := bytes, cid := none }], last := .gone }

/-- A DBRK whose guard is true (R316, R317, R377): its header wait is performed, and it will act as NOP once. -/
def State.breakAt (s : State) (c : Ctx) (q : Sq) (h : Hd) : State :=
  let c1 := if h.wait = 0xFF then c else c.setSem h.wait (BitVec.ofNat 20 ((c.sem h.wait).toNat - 1))
  let c2 := c1.onSeqr q (fun x => { x with once := { x.once with dbrk := true } })
  if s.dbrkOn c.core then s.stopCore c2 q 0 else s.suspend c2 q false none (mkTrap 0x2C 0)

/-- DBRK (R316, R317, R377). -/
def execDbrk (h : Hd) (s : State) : Out :=
  match s.activeCtx s.focus.1 with
  | none => .fault .noContext
  | some c0 =>
    let q := s.focus.2
    if (c0.seqr q).once.dbrk then runWord { h with wait := 0xFF } 1 false s (fun s c => .ok s c)
    else runWord h 1 false s (fun s' c =>
      if s.dbrkOn c0.core || s.escapeOk c0 then .left (s.breakAt c0 q h) else .stall s' { c with want := true })

/-! ## ERET -/

/-- The open leg of a context, ended. -/
def Ctx.shut (c : Ctx) : Ctx := { c with leg := none, ended := c.ended ++ c.leg.toList }

/-- Ends a handler and resumes the trapped context (R272, R382); where CTXL has given it another image, a switch brings it back,
which fills and flips the planes first (R83). -/
def State.leaveHandler (s : State) (c : Ctx) (d : Ctx) : State :=
  let d1 := { d.skipWatch.resumed with sp := c.sp, can := c.can, sems := c.sems }
  let s1 := (s.dropCtx c.cid).setCtx d1
  let k := s1.core c.core
  { s1.setCore c.core { k with active := if (k.plane.map (fun pl => pl.image)) = some d1.image then some d.cid else none } with
    last := .gone }

/-- ERET (R272, R382). -/
def execEret (h : Hd) (s : State) : Out :=
  runWord h 1 false s (fun s c =>
    if c.inInverse then .trap s outctxTrap
    else
      match c.kind with
      | .handler k =>
        if c.ended.isEmpty && s.mayCommit c c.curLeg then
          let s1 := s.commitLeg c.shut c.curLeg
          match s1.ctx c.cid, s1.ctx k with
          | some c1, some d => .left (s1.leaveHandler c1 d)
          | _, _ => .stall s c
        else .stall s c
      | _ => .trap s modeTrap)

/-! ## TLBI, HINT -/

/-- An entry that a TLBI drops (R198). -/
def TlbEnt.dropped (t : TlbEnt) (asid : BitVec 16) (kind : TlbKind) (v : BitVec 64) : Bool :=
  match kind with
  | .page => v.toNat / 2 ^ 49 == 0 && v.toNat / 2 ^ t.bits * 2 ^ t.bits == t.vbase && (t.glob || t.asid == asid)
  | .asid => !t.glob && t.asid == v.extractLsb' 0 16
  | .all => true

/-- The translations that adapters hold (R299). -/
def State.adapterHolds (s : State) (drop : TlbEnt → Bool) : List (Nat × TlbEnt) :=
  s.atc.flatMap (fun x => (x.2.filter drop).map (fun t => (x.1, t)))

/-- Drops entries of every TLB of cores and harts, and sends the invalidations to the adapters that hold one (R293, R299). -/
def State.dropEverywhere (s : State) (drop : TlbEnt → Bool) : State :=
  { s with cores := s.cores.map (fun pk => (pk.1, pk.2.dropEntries drop))
           harts := s.harts.map (fun x => (x.1, { x.2 with tlb := x.2.tlb.filter (fun t => !drop t) }))
           invs := (s.invs ++ s.adapterHolds drop).eraseDups }

/-- Drops entries of every TLB of the package. -/
def State.dropTlbs (s : State) (asid : BitVec 16) (kind : TlbKind) (v : BitVec 64) : State :=
  s.dropEverywhere (fun t => t.dropped asid kind v)

/-- An access to the granules waits for a leg of `own`'s member that is pinned (R217). -/
def State.waitsPin (s : State) (own : Option Ctx) (grans : List Nat) : Bool :=
  match own with
  | some c => s.allCtxs.any (fun d => c.sameMember d && d.relaxed && d.allLegs.any (fun l => l.pinned && l.hit grans))
  | none => false

/-- The leg that an atomic of `d` ends comes behind the open leg of `own`'s member (R213, R214, R495). -/
def State.waitsTurn (s : State) (own : Option Ctx) (d : Ctx) (no : Nat) : Bool :=
  match own with
  | some c =>
    let m := match c.kind with
      | .handler k => (s.ctx k).getD c
      | _ => c
    d.ended.any (fun l => l.no == no && (if d.relaxed then !l.pinned && s.innq.any (fun q => q.1 == m.cid)
      else d.lid == m.lid && m.isRegular && keyLt m.openKey (d.keyOf l)))
  | none => false

/-- No access that may have used a dropped translation is on its way (R198): reductions, plane fills, accesses in other packages, those of
harts and adapters, and atomics, but for what itself waits for `own`, which drops them (log 115). -/
def State.quietTlb (s : State) (own : Option Ctx) (drop : TlbEnt → Bool) : Bool :=
  s.reds.all (fun r => r.stage == .done || s.waitsPin own r.grans || !([r.va, r.v1, r.v2].any (fun v => mayUse drop (rootAsid r.root) v.toNat))) &&
    s.cores.all (fun pk => pk.2.fill.isNone) && s.fars.all (fun r => r.done) &&
    s.bus.all (fun j => (j.via.map (fun x => !mayUse drop x.1 x.2)).getD true || s.waitsPin own (gransOf (j.units.map Prod.fst))) &&
    s.allCtxs.all (fun c => !c.outstanding || (match c.pend with
      | some (.atomic _ _ a no _) => !mayUse drop (rootAsid c.root) a.va.toNat || s.waitsPin own (gransOf [a.pa]) || s.waitsTurn own c no
      | _ => true))

/-- TLBI (R198, R299, R452): the entries are dropped once the member's earlier legs have committed; it then waits for what has used them, and
until the adapters have given them up. -/
def execTlbi (h : Hd) (pair : BitVec 4) (kind : TlbKind) (s : State) : Out :=
  runWord h 1 false s (fun s c => reading s c (pairRegs pair) (fun x => escape s c
    (let drop (t : TlbEnt) : Bool := t.dropped (rootAsid c.root) kind (x.pair pair)
     if !s.earlierDone c then .stall s c
     else if (s.adapterHolds drop).isEmpty && s.quietTlb (some c) drop then .ok (s.dropEverywhere drop) c
     else .stall (s.dropEverywhere drop) c)))

/-- What a HINT does with its page: .mig counts an access for the migration engine, .xl loads the translation into the control TLB
(R204, R388). The control data cache is not visible. -/
def State.hint (s : State) (c : Ctx) (va : Nat) (l : Leaf) (kind : HintKind) : State :=
  match kind with
  | .mig => { s with counts := s.counts.put 0 (ptePa l.pte) (s.counts.get 0 (ptePa l.pte) + 1) }
  | .xl =>
    let k := s.core c.core
    s.setCore c.core { k with tlb := (l.entry (rootAsid c.root) va l.pte :: k.tlb).take 256 }
  | .rd | .drop => s

/-- HINT (R203, R204, R388). -/
def execHint (h : Hd) (pair : BitVec 4) (kind : HintKind) (s : State) : Out :=
  runWord h 1 false s (fun s c => reading s c (pairRegs pair) (fun x =>
    let va := x.pair pair
    match peek s.dram c.root va .read, walk s.dram c.root va.toNat with
    | .ok _, .ok l => .ok (s.hint c va.toNat l kind) c
    | _, _ => .ok (s.bump c.core 0x200) c))

/-! ## Watch list -/

/-- The filter bits of a range (R320). -/
def Watch.bits (w : Watch) : List Nat :=
  (List.range (2 ^ w.len)).flatMap (fun i => [hash0 (w.key * 2 ^ w.len + i), hash1 (w.key * 2 ^ w.len + i)])

/-- The range that a pair and a length code name (R320). -/
def watchRange (v : BitVec 64) (len : BitVec 5) : Watch :=
  { key := (v.extractLsb' 6 43).toNat / 2 ^ len.toNat, len := len.toNat }

/-- WCHA on a core's list (R321). -/
def Core.watchAdd (k : Core) (w : Watch) : Core :=
  if k.watch.contains w then k
  else if 16 ≤ k.watch.length then { k with allOnes := true, overflow := true }
  else if 12 ≤ w.len then { k with watch := k.watch ++ [w], allOnes := true }
  else { k with watch := k.watch ++ [w], filter := (k.filter ++ w.bits).eraseDups }

/-- WCHD on a core's list (R321). -/
def Core.watchDrop (k : Core) (w : Watch) : Core :=
  let ws := k.watch.filter (fun x => x != w)
  let full := k.overflow && !ws.isEmpty
  { k with watch := ws, overflow := full, allOnes := full || ws.any (fun x => decide (12 ≤ x.len)),
           filter := ((ws.filter (fun x => decide (x.len < 12))).flatMap Watch.bits).eraseDups }

/-- A change of the core's watch list. -/
def watchWord (h : Hd) (pair : BitVec 4) (len : BitVec 5) (s : State) (f : Core → Watch → Core) : Out :=
  runWord h 1 false s (fun s c => reading s c (pairRegs pair) (fun x =>
    escape s c (.ok (s.setCore c.core (f (s.core c.core) (watchRange (x.pair pair) len))) c)))

/-- WCHA (R321, R490). -/
def execWcha (h : Hd) (pair : BitVec 4) (len : BitVec 5) (s : State) : Out := watchWord h pair len s Core.watchAdd

/-- WCHD (R321, R490). -/
def execWchd (h : Hd) (pair : BitVec 4) (len : BitVec 5) (s : State) : Out := watchWord h pair len s Core.watchDrop

/-! ## Planes -/

/-- What the translation of several pages gives. -/
inductive PRes where
  | ok (s : State) (pages : List (Nat × Nat))
  | trap (s : State) (t : TrapRec)
  | stall
  | dead
  deriving DecidableEq

/-- Translates the 4 KiB pieces of a region from offset `off` on: pairs of an offset and a physical address. -/
def State.pages (s : State) (c : Ctx) (va : BitVec 64) (k : Need) (off : Nat) (acc : List (Nat × Nat)) : Nat → PRes
  | 0 => .ok s acc
  | n + 1 =>
    let v := va + BitVec.ofNat 64 off
    match s.translate c v k with
    | .fault f => .trap s (xTrap s.free f v k)
    | .busy => .stall
    | .ok pa s1 => if s1.outside pa then .dead else s1.pages c va k (off + 4096) (acc ++ [(off, pa)]) n

/-- Starts a fill of the shadow plane (R81, R422). -/
def Core.startFill (k : Core) (image : BitVec 64) (pages : List (Nat × Nat)) (flip : Bool) (cid : Option Nat) : Core :=
  { k with shadow := none, fill := some { image := image, pages := pages, flip := flip, cid := cid } }

/-- XLBAD of a misaligned image (R422); no entry fails, so its level is free (log 16). -/
def imageTrap (free : Nat) (a : BitVec 64) : TrapRec := xTrap free ⟨xlBad, none, false⟩ a .exec

/-- Translates an image and starts its fill for a context. -/
def askFill (s : State) (c : Ctx) (a : BitVec 64) (k : State → Res) : Res :=
  match s.pages c a .exec 0 [] imagePieces with
  | .trap s1 t => .trap s1 t
  | .stall => .stall s c
  | .dead => .dead .deviceWindow
  | .ok s1 ps => k (s1.setCore c.core ((s1.core c.core).startFill a ps false (some c.cid)))

/-- PLLD (R81, R422). -/
def execPlld (h : Hd) (pair : BitVec 4) (s : State) : Out :=
  runWord h 1 false s (fun s c =>
    if c.isTask then .trap s outctxTrap
    else if c.isHandler then .trap s modeTrap
    else reading s c (pairRegs pair) (fun x => escape s c
      (if !c.ended.isEmpty || (s.core c.core).fill.isSome then .stall s c
       else
         let a := x.pair pair
         if a.toNat % 4096 ≠ 0 then .trap s (imageTrap s.free a)
         else askFill s c a (fun s1 => .ok s1 { c with pimage := some a }))))

/-- The descriptors of an image (R80). -/
def Plane.descs (p : Plane) : SMap (BitVec 256) :=
  (List.range 64).foldl (fun m k => m.put 0 k (BitVec.ofNat 256 (natOfBytes (p.read (0x70000 + 32 * k) 32)))) []

/-- The planes flip (R82). -/
def Core.flip (k : Core) : Core := { k with plane := k.shadow, shadow := none }

/-- PLSW (R82, R424): MODE, OUTCTX, PLANE (log 44). The planes flip as its word executes: the words of its long word that execute after it
use the new plane's descriptors (log 116). -/
def execPlsw (h : Hd) (s : State) : Out :=
  runWord h 1 false s (fun s c =>
    if !c.joined then .trap s modeTrap
    else if c.isTask then .trap s outctxTrap
    else
      match c.pimage with
      | none => .trap s (mkTrap 0x08 0)
      | some a => escape s c
        (let k := s.core c.core
         if k.fill.isSome then .stall s c
         else
           match k.shadow with
           | some p =>
             if p.image = a then
               if c.idleEngines && c.openBcasts.isEmpty then
                 .ok (s.setCore c.core k.flip) { c with image := a, pimage := none, desc := p.descs }
               else .stall s c
             else askFill s c a (fun s1 => .stall s1 c)
           | none => askFill s c a (fun s1 => .stall s1 c)))

/-! ## LNCH, LSTAT -/

/-- Launches of a source that wait to start. -/
def State.waitingOf (s : State) (src : Nat) : Nat := (s.launches.filter (fun l => l.src == src && l.waits)).length

/-- LNCH (R396). -/
def execLnch (h : Hd) (pair : BitVec 4) (s : State) : Out :=
  runWord h 1 false s (fun s c =>
    if c.isTask then .trap s outctxTrap
    else reading s c (pairRegs pair) (fun x =>
      let a := x.pair pair
      let src := 0xF000 + c.core
      if a.toNat % 128 ≠ 0 then .trap s (alignTrap a .read)
      else escape s c
        (if !s.earlierDone c then .stall s c
         else
           let plain := { c with dmode := 0 }
           match s.access plain true a 128 .read .bulk none with
           | .trap s1 t => .trap s1 t
           | .stall => .stall s c
           | .dead => .dead .deviceWindow
           | .ok s1 pa =>
             if 16 ≤ s1.waitingOf src then .stall s c
             else
               match s1.readDram plain a pa 128 0 0 with
               | .trap t => .trap s1 t
               | .ok bs f =>
                 let k := s1.core c.core
                 let n := k.lnchNext
                 let s2 := (s1.setCore c.core { k with lnchNext := n + 1 }).accept src c.root n (c.lid :: ((s1.launch c.lid).map (fun l => l.parents)).getD []) bs
                 .ok s2 (c.pairFlag s2.free .ctl (pair ++ 0#1) (BitVec.ofNat 32 src ++ n.extractLsb' 0 32) 1 f))))

/-- The answer of LSTAT (R399). -/
def State.launchAnswer (s : State) (d : BitVec 64) : Word :=
  let src := depSource d
  if !sourceOk src then 0x40000000
  else if !s.passed d then 0
  else if src < 0x1000 then 0x800000FF
  else
    let k := s.core (src - 0xF000)
    let st := if k.recent (d.extractLsb' 0 48) then ((k.lnchDone.find? (fun x => x.1 == d.extractLsb' 0 48)).map Prod.snd).getD 0xFF else 0xFF
    0x80000000 ||| st.zeroExtend 32

/-- LSTAT (R399). -/
def execLstat (h : Hd) (d : BitVec 5) (pair : BitVec 4) (s : State) : Out :=
  runWord h 1 false s (fun s c => reading s c (pairRegs pair) (fun x =>
    .ok s (c.scalar .ctl d (s.launchAnswer (x.pair pair)) 1)))

/-! ## Context images (R275) -/

/-- 4 KiB pieces of a context image. -/
def ctxPieces : Nat := 107

/-- Byte `i` of a number. -/
def byteOf (v i : Nat) : Byte := BitVec.ofNat 8 (v / 256 ^ i)

/-- Words of 4 bytes, byte `i`. -/
def word4 (f : Nat → Nat) (i : Nat) : Byte := byteOf (f (i / 4)) (i % 4)

/-- The visible bytes of one sequencer. -/
def Seqr.imageByte (x : Seqr) (internal : Byte) (i : Nat) : Byte :=
  if i < 0x80 then word4 (fun k => (x.reg (BitVec.ofNat 5 k)).toNat) i
  else if i < 0x84 then byteOf x.pc (i - 0x80)
  else if i < 0x88 then byteOf x.epc.toNat (i - 0x84)
  else if i < 0x8C then byteOf (x.preds ||| 1).toNat (i - 0x88)
  else if i < 0x90 then 0
  else if i < 0xA0 then word4 (fun k => (x.lcVal (BitVec.ofNat 2 k)).toNat) (i - 0x90)
  else internal

/-- The eight words at 0x1400. -/
def Ctx.imageWord (c : Ctx) (status : Word) (k : Nat) : Nat :=
  match k with
  | 0 => c.cbits.toNat
  | 1 => c.sticky.toNat
  | 2 => status.toNat
  | 3 => c.cause.toNat
  | 4 => c.tval.toNat
  | 5 => c.sup.toNat
  | 6 => c.legno.toNat
  | 7 => c.dmode.toNat
  | _ => c.phase.toNat

/-- Byte `i` of tile elements in rows of 64. -/
def Tile.imageByte (t : Tile) (i : Nat) : Byte := byteOf (t.elems.get 0 (i / 8)).toNat (i % 8)

/-- Byte `off` of the image of a context; the internal regions are those of image number `n` (log 14). -/
def Ctx.imageByte (c : Ctx) (status : Word) (n off : Nat) : Byte :=
  let internal := Config.imageInternal n off
  if off < 0x1000 then
    (c.seqr (if off < 0x400 then .ctl else if off < 0x800 then .load else if off < 0xC00 then .store else .comp)).imageByte
      internal (off % 0x400)
  else if off < 0x1400 then word4 (fun k => (c.sems.get 0 k).toNat) (off - 0x1000)
  else if off < 0x1424 then word4 (c.imageWord status) (off - 0x1400)
  else if off < 0x1440 then 0
  else if off < 0x1448 then byteOf c.root.toNat (off - 0x1440)
  else if off < 0x1450 then byteOf c.lid.toNat (off - 0x1448)
  else if off < 0x1458 then byteOf c.idx (off - 0x1450)
  else if off < 0x1460 then byteOf c.image.toNat (off - 0x1458)
  else if off < 0x1800 then 0
  else if off < 0x2000 then byteOf (c.desc.get 0 ((off - 0x1800) / 32)).toNat (off % 32)
  else if off < 0x3000 then byteOf (c.v.get 0 ((off - 0x2000) / 128)).toNat (off % 128)
  else if off < 0x3040 then byteOf (c.mreg (BitVec.ofNat 3 ((off - 0x3000) / 8))).toNat (off % 8)
  else if off < 0xA000 then internal
  else if off < 0x2A000 then (c.tile (BitVec.ofNat 2 ((off - 0xA000) / 0x8000))).imageByte ((off - 0xA000) % 0x8000)
  else if off < 0x2A200 then
    byteOf ((c.tile (BitVec.ofNat 2 ((off - 0x2A000) / 128))).exps.get 0 ((off - 0x2A000) % 128 / 2)).toNat (off % 2)
  else if off < 0x2B000 then 0
  else (c.bpTile ((off - 0x2B000) / 0x8000)).imageByte ((off - 0x2B000) % 0x8000)

/-- 4 KiB of an image as a write. -/
def Ctx.imagePiece (c : Ctx) (status : Word) (n off pa : Nat) : List (Nat × Byte) :=
  (List.range 4096).map (fun i => (pa + i, c.imageByte status n (off + i)))

/-- Reads the number of `n` bytes at an offset of an image, through `rd`. -/
def imageNum (rd : Nat → Byte) (off n : Nat) : Nat := natOfBytes ((List.range n).map (fun i => rd (off + i)))

/-- A sequencer with its visible fields from an image. -/
def Seqr.fromImage (x : Seqr) (rd : Nat → Byte) (b : Nat) : Seqr :=
  { x with
    regs := (List.range 32).foldl (fun m k => if k = 0 then m else m.put 0 k (BitVec.ofNat 32 (imageNum rd (b + 4 * k) 4))) []
    pc := imageNum rd (b + 0x80) 4
    epc := BitVec.ofNat 32 (imageNum rd (b + 0x84) 4)
    preds := rd (b + 0x88) ||| 1
    lc := (List.range 4).foldl (fun m k => m.put 0 k (BitVec.ofNat 32 (imageNum rd (b + 0x90 + 4 * k) 4))) [] }

/-- A tile from an image. An element of a class that is not finite keeps the N that the image gives it (R144 clears N for ALD only;
log 100). -/
def tileFrom (rd : Nat → Byte) (b e : Nat) (exps : Bool) : Tile :=
  { elems := (List.range 4096).foldl (fun m k => m.put 0 k (BitVec.ofNat 48 (imageNum rd (b + 8 * k) 6))) []
    exps := if exps then (List.range 64).foldl (fun m k => m.put 0 k (BitVec.ofNat 16 (imageNum rd (e + 2 * k) 2))) [] else [] }

/-- A context with its visible fields from an image; `c` gives the internal ones. DETMODE belongs to the launch. -/
def Ctx.fromImage (c : Ctx) (rd : Nat → Byte) : Ctx :=
  let w (k : Nat) : Nat := imageNum rd (0x1400 + 4 * k) 4
  let status : Word := BitVec.ofNat 32 (w 2)
  { c with
    ctl := c.ctl.fromImage rd 0, load := c.load.fromImage rd 0x400, store := c.store.fromImage rd 0x800
    comp := c.comp.fromImage rd 0xC00
    sems := (List.range 256).foldl (fun m k => m.put 0 k (BitVec.ofNat 20 (imageNum rd (0x1000 + 4 * k) 4))) []
    cbits := BitVec.ofNat 16 (w 0), sticky := BitVec.ofNat 5 (w 1)
    hen := status.getLsbD 25, hent := status.extractLsb' 0 14
    cause := BitVec.ofNat 32 (w 3) &&& 0xE00000FF, tval := BitVec.ofNat 32 (w 4), sup := BitVec.ofNat 32 (w 5)
    legno := BitVec.ofNat 32 (w 6), phase := (rd 0x1420).getLsbD 0
    root := BitVec.ofNat 64 (imageNum rd 0x1440 8), image := BitVec.ofNat 64 (imageNum rd 0x1458 8)
    desc := (List.range 64).foldl (fun m k => m.put 0 k (BitVec.ofNat 256 (imageNum rd (0x1800 + 32 * k) 32))) []
    v := (List.range 32).foldl (fun m k => m.put 0 k (BitVec.ofNat 1024 (imageNum rd (0x2000 + 128 * k) 128))) []
    m := (List.range 8).foldl (fun m k => m.put onesMask k (BitVec.ofNat 64 (imageNum rd (0x3000 + 8 * k) 8))) []
    acc := (List.range 4).foldl (fun m k =>
      m.put Tile.zero k (tileFrom rd (0xA000 + 0x8000 * k) (0x2A000 + 128 * k) true)) []
    bp := (List.range 8).foldl (fun m k => m.put Tile.zero k (tileFrom rd (0x2B000 + 0x8000 * k) 0 false)) [] }

/-- Offsets of the internal bytes of an image. -/
def internalOffs : List Nat :=
  (List.range 4).flatMap (fun q => (List.range 0x360).map (fun i => 0x400 * q + 0xA0 + i)) ++
    (List.range 0x6FC0).map (fun i => 0x3040 + i)

/-- The internal bytes are those that this part wrote for image number `n` (the check word of R275; log 14). -/
def internalIs (rd : Nat → Byte) (n : Nat) : Bool := internalOffs.all (fun i => rd i == Config.imageInternal n i)

/-- Every byte that the table of R275 marks reserved is zero. -/
def imageClean (rd : Nat → Byte) : Bool :=
  (imageNum rd 0x1420 4) / 2 == 0 && (List.range 0x1C).all (fun i => rd (0x1424 + i) == 0) &&
    (List.range 0x3A0).all (fun i => rd (0x1460 + i) == 0) && (List.range 0xE00).all (fun i => rd (0x2A200 + i) == 0)

/-- The newest image that the part wrote with these internal bytes. -/
def State.findImage (s : State) (rd : Nat → Byte) : Option Ctx :=
  (s.saved.reverse.find? (fun x => internalIs rd x.1)).map Prod.snd

/-- CTXBAD (R376). -/
def ctxbadTrap (a : BitVec 64) : TrapRec := memTrap 0x2A a 0

/-- The trapped context as its image shows it: its semaphores are those the handler has now. -/
def Ctx.asSeen (d c : Ctx) : Ctx := { d with sems := c.sems }

/-- Writes an image, piece by piece (R376). -/
def State.putImage (s : State) (d : Ctx) (status : Word) (n : Nat) (stamp : BitVec 16) : List (Nat × Nat) → State
  | [] => s
  | (off, pa) :: r => State.putImage (s.writeHome stamp (d.imagePiece status n off pa)) d status n stamp r

/-- The granules of some 4 KiB pieces. -/
def pieceGrans (ps : List (Nat × Nat)) : List Nat := ps.flatMap (fun p => (List.range 64).map (p.2 / 64 + ·))

/-- The shared checks of CTXS and CTXL: `k` gets the trapped context and the translated pages. CTXL, which reads, waits for the handler's
earlier legs before it translates (R376). -/
def imageWord (h : Hd) (pair : BitVec 4) (bank : BitVec 2) (need : Need) (s : State)
    (k : State → Ctx → Ctx → BitVec 64 → List (Nat × Nat) → Res) : Out :=
  accOut need.acc <| runWord h 1 false s (fun s c =>
    match c.kind with
    | .handler n =>
      match s.ctx n with
      | none => .stall s c
      | some d => reading s c (pairRegs pair) (fun x =>
          let a := x.pair pair
          if bank.toNat ≠ d.bank || a.toNat % 4096 ≠ 0 then .trap s (ctxbadTrap a)
          else escape s c
            (if need = .read ∧ !s.earlierDone c then .stall s c
             else match s.pages c a need 0 [] ctxPieces with
             | .trap s1 t => .trap s1 t
             | .stall => .stall s c
             | .dead => .dead .deviceWindow
             | .ok s1 ps => k s1 c d a ps))
    | _ => .trap s modeTrap)

/-- CTXS (R275, R276, R376). -/
def execCtxs (h : Hd) (pair : BitVec 4) (bank : BitVec 2) (s : State) : Out :=
  imageWord h pair bank .write s (fun s c d _ ps =>
    if s.writeHeld (some c) (pieceGrans ps) then .stall s c
    else
      let n := s.free + 1
      let d1 := d.asSeen c
      let s1 := { s with free := n, saved := s.saved.set n { d1 with ended := [], sp := Mem.empty, can := Mem.empty } }
      let s2 := s1.putImage d1 (s.status d) n c.stamp ps
      .ok s2 ((s2.ctx c.cid).getD c))

/-- Reads a byte of translated pages. -/
def State.pageByte (s : State) (ps : List (Nat × Nat)) (off : Nat) : Byte :=
  match ps[off / 4096]? with
  | some (_, pa) => s.dram.byte (pa + off % 4096)
  | none => 0

/-- The pages hold lost bytes, or vacated ones. -/
def State.pagesHold (s : State) (st : UState) (ps : List (Nat × Nat)) : Bool :=
  (pieceGrans ps).any (fun g => s.dram.unit 64 (64 * g) == st)

/-- The trapped context that CTXL puts in the place of `d` (R276). -/
def replaceCtx (d saved : Ctx) (rd : Nat → Byte) : Ctx :=
  { saved.fromImage rd with
    cid := d.cid, core := d.core, loc := d.loc, stat := d.stat, kind := d.kind, sp := d.sp, can := d.can, ended := [] }

/-- A handler of a context with the position of `d`: its legs stand immediately before the open leg of `d` (R495). -/
def Ctx.behind (c d : Ctx) : Ctx :=
  { c with
    sup := d.sup, phase := d.phase, legno := d.legno
    leg := c.leg.map (fun l => { l with sup := d.sup, phase := d.phase, legno := d.legno }) }

/-- CTXL (R275, R276, R376). -/
def execCtxl (h : Hd) (pair : BitVec 4) (bank : BitVec 2) (s : State) : Out :=
  imageWord h pair bank .read s (fun s c d a ps =>
      let rd := s.pageByte ps
      let flags := (if s.pagesHold .vacated ps then stVAC else 0) ||| (if s.pagesHold .lost ps then stLOST else 0)
      match s.findImage rd with
      | none => .trap s { ctxbadTrap a with flags := flags }
      | some saved =>
        if s.pagesHold .lost ps || !imageClean rd || imageNum rd 0x1448 8 ≠ d.lid.toNat || imageNum rd 0x1450 8 ≠ d.idx then
          .trap s { ctxbadTrap a with flags := flags }
        else
          let d1 := replaceCtx d saved rd
          let s1 := { s.setCtx d1 with innq := s.innq.filter (fun q => q.1 != d.cid) }
          .ok s1 { (c.flagAt .ctl none flags).behind d1 with sems := d1.sems })

end Sys2Proof.Machine
end

