-- ==== Sys2Proof/Machine/Contexts.lean ====
section
/-!
DEFINITION. Contexts and banks: switches, the spill area, plane fills, fault records, local handlers and the harts' answers
(R22, R26, R42, R43, R81 to R83, R200 to R202, R218, R260, R264, R271, R273, R274, R277, R295, R343, R423), and effective priority.
-/
namespace Sys2Proof.Machine

/-! ## A blank context -/

/-- A context at the start of a member (R22), with the fields that come from its launch record at their zero values. -/
def Ctx.blank (cid p : Nat) : Ctx :=
  { cid := cid, lid := 0, idx := 0, coord := (0, 0, 0, 0), kind := .regular, core := p, loc := .bank 0, stat := .running,
    bars := 0, root := 0, plots := 48, noxf := false, nocan := false, novec := false, nomx := false, dmode := 0, size := 1,
    param := 0, image := 0, pimage := none, sup := 0, phase := false, legno := 0, joined := true, t := 0, replay := 0,
    ctl := Seqr.start 0 [], load := Seqr.start 0 [], store := Seqr.start 0 [], comp := Seqr.start 0 [], sems := [],
    semT := [], semS := [], cbits := 0, cbitsT := 0, desc := [], v := [], m := [], acc := [], bp := [], sticky := 0, late := 0, landed := [], cause := 0,
    tval := 0, hen := false, hent := 0, flight := [], vno := 0, bno := 0, inb := Chan.empty, outb := Chan.empty,
    mx := MxChan.empty, offers := [], marks := [], wins := [], leg := none, legs := 0, ended := [], pend := none,
    again := false, back := none, waitm := none, hold := none, impr := [], trap := none, listed := [], listOv := false, halting := false, want := false,
    leaving := false, abop := false, fresh := false, seen := 0, sp := Mem.empty, can := Mem.empty, decl := none, bills := 0, inv := none }

/-! ## Banks and plots -/

/-- The contexts of a core, resident or streamed out. -/
def State.onCore (s : State) (p : Nat) : List Ctx := s.allCtxs.filter (fun c => c.core == p)

/-- A context stands in a bank. -/
def Ctx.resident (c : Ctx) : Bool :=
  match c.loc with
  | .bank _ => true
  | .slot _ => false

/-- A free bank of a core (R42). -/
def State.freeBank (s : State) (p : Nat) : Option Nat :=
  (List.range 3).find? (fun b => (s.onCore p).all (fun c => c.loc != .bank b))

/-- A core has room for a context (R26). A handler has no plots of its own, and the plots of a streamed-out context stay
allocated. -/
def State.roomFor (s : State) (p plots : Nat) (canopy : Bool) : Bool :=
  let cs := (s.onCore p).filter (fun c => !c.isHandler)
  decide (plots + (cs.map (fun c => c.plots)).sum ≤ 48) && (!canopy || cs.all (fun c => c.nocan))

/-! ## Effective priority (R260) -/

/-- Sequence number `a` is not later than `b` (R17). -/
def seqLe (a b : BitVec 32) : Bool := !(b - a).getLsbD 31

/-- Launch `w` waits on launch `l` through its dependence `k` (R260). -/
def State.depWaits (s : State) (w l : Launch) (k : Nat) : Bool :=
  match w.record.deps[k]? with
  | none => false
  | some d =>
    if s.depOk w k then false
    else if depKind d = 1 then
      depSource d == l.src && seqLe (l.record.hseq.extractLsb' 0 32) (d.extractLsb' 0 32)
    else if depKind d = 2 then
      let before (i : BitVec 48) : Bool :=
        depSource (i.zeroExtend 64) == w.src && i.extractLsb' 0 32 != w.record.hseq.extractLsb' 0 32 &&
          seqLe (i.extractLsb' 0 32) (w.record.hseq.extractLsb' 0 32)
      before l.lid || l.parents.any before
    else false

/-- Launch `w` waits on launch `l`. -/
def State.waitsOn (s : State) (w l : Launch) : Bool :=
  w.waits && !l.isDone && w.lid != l.lid && (List.range 4).any (s.depWaits w l)

/-- One round of inheritance. -/
def State.inherit (s : State) (ps : List (Launch × Nat)) : List (Launch × Nat) :=
  ps.map (fun lp => (lp.1, (ps.filter (fun wq => s.waitsOn wq.1 lp.1)).foldl (fun m wq => max m wq.2) lp.2))

/-- Effective priorities after `n` rounds. -/
def State.priorities (s : State) : Nat → List (Launch × Nat)
  | 0 => s.launches.map (fun l => (l, l.record.prio.toNat))
  | n + 1 => s.inherit (s.priorities n)

/-- The effective priority of a launch (R260). -/
def State.effPrio (s : State) (lid : BitVec 48) : Nat :=
  (((s.priorities s.launches.length).find? (fun x => x.1.lid == lid)).map Prod.snd).getD 0

/-! ## Who runs next -/

/-- A core holds a task that has not finished: it takes no other (R235, R340). -/
def State.taskOn (s : State) (p : Nat) : Bool := (s.onCore p).any (fun c => c.isTask && c.stat != .finished)

/-- Members of a company. -/
def LRec.extent (r : LRec) : Nat := r.s * r.d * r.c * r.k

/-- A core lies on no dropped die, fenced cluster or fenced core (R263 rule 1). -/
def State.schedulable (s : State) (p : Nat) : Bool :=
  !s.dropped.contains (dieOf p) && !s.fencedCl.contains (clusterOf p) && !(s.core p).fenced

/-- The launch of a context is one of those that `gone` names. -/
def State.goneCtx (s : State) (gone : Launch → Bool) (c : Ctx) : Bool := ((s.launch c.lid).map gone).getD false

/-- A core has room for a member of launch `w` beside contexts that stay (R26). -/
def roomBeside (w : Launch) (cs : List Ctx) : Bool :=
  decide (w.record.plots + (cs.map (fun c => c.plots)).sum ≤ 48) && (w.record.nocan || cs.all (fun c => c.nocan))

/-- A core will be able to take a member of launch `w` once the companies that `gone` names are displaced and their tasks have
left it (R26, R261, R263). -/
def State.coreTakes (s : State) (w : Launch) (gone : Launch → Bool) (p : Nat) : Bool :=
  s.schedulable p && (w.record.nomx || !s.fencedMx.contains (clusterOf p)) &&
    (s.onCore p).all (fun c => c.isHandler || s.goneCtx gone c) &&
    roomBeside w ((s.onCore p).filter (fun c => !c.isHandler && !c.isTask))

/-- A displaced company whose cores launch `w` may take: none is pre-empted by one of equal or lower effective priority (R261). -/
def State.yieldsTo (s : State) (w l : Launch) : Bool := l.displaced && decide (s.effPrio l.lid < s.effPrio w.lid)

/-- A core can take a member of launch `w` now: the displaced members of lower effective priority have left the active bank, no task runs there, a bank is
free (R26, R42, R261, R263). -/
def State.coreFree (s : State) (w : Launch) (p : Nat) : Bool :=
  s.schedulable p && (w.record.nomx || !s.fencedMx.contains (clusterOf p)) && !s.taskOn p &&
    (s.onCore p).all (fun c => !c.isRegular || s.goneCtx (s.yieldsTo w) c) && s.roomFor p w.record.plots (!w.record.nocan) &&
    (s.freeBank p).isSome

/-- Enough cores will be able to take members of launch `w` (R261). -/
def State.fits (s : State) (w : Launch) (gone : Launch → Bool) : Bool :=
  decide (w.record.extent ≤ ((List.range 384).filter (s.coreTakes w gone)).length)

/-- The cores that can take members of launch `w` now. -/
def State.freeCores (s : State) (w : Launch) : List Nat := (List.range 384).filter (s.coreFree w)

/-- Launch `w` can be placed now (R19, R262). -/
def State.fitsNow (s : State) (w : Launch) : Bool := decide (w.record.extent ≤ (s.freeCores w).length)

/-- A launch that is ready to start. -/
def Launch.isReady (l : Launch) : Bool := l.stat == .ready

/-- Launch `w` can be placed only with the company of lower effective priority `l` displaced (R261). -/
def State.needs (s : State) (w l : Launch) : Bool :=
  w.isReady && decide (s.effPrio l.lid < s.effPrio w.lid) &&
    !s.fits w (fun x => s.yieldsTo w x && x.lid != l.lid) &&
    s.fits w (fun x => decide (s.effPrio x.lid < s.effPrio w.lid))

/-- The cores of a company's members. -/
def State.coresOf (s : State) (lid : BitVec 48) : List Nat :=
  ((s.ctxsOf lid).filter Ctx.isRegular).map (fun c => c.core)

/-- A displaced company may run again: no other company holds a core of its members, none of higher effective priority that
shares one waits to return, and no ready launch needs its cores (log 33). -/
def State.mayReturn (s : State) (l : Launch) : Bool :=
  let ps := s.coresOf l.lid
  s.launches.all (fun x => x.lid == l.lid || !x.isRunning || !(s.coresOf x.lid).any (fun p => ps.contains p) ||
    (x.displaced && decide (s.effPrio x.lid ≤ s.effPrio l.lid))) &&
    s.launches.all (fun w => !s.needs w l)

/-- A regular member whose company is displaced does not run (R261). -/
def State.displaced (s : State) (c : Ctx) : Bool :=
  c.isRegular && ((s.launch c.lid).map (fun l => l.displaced && !s.mayReturn l)).getD false

/-- A member on a core of the company has an exposed leg (R218). -/
def State.anyExposed (s : State) (lid : BitVec 48) : Bool :=
  s.allCtxs.any (fun m => m.lid == lid && m.isRegular && (s.core m.core).active == some m.cid && !s.escapeOk m)

/-- A displaced member that still issues words: its leg is safe, and the exposed leg of another waits for it (R218; log 33). -/
def State.goesOn (s : State) (c : Ctx) : Bool := s.anyExposed c.lid && s.escapeOk c && s.safe c c.curLeg

/-- The context's core, and the matrix array that it may use, are not fenced (R263, R289). -/
def State.coreServes (s : State) (c : Ctx) : Bool :=
  s.schedulable c.core && (c.nomx || !s.fencedMx.contains (clusterOf c.core))

/-- A resident context that could run. -/
def State.couldRun (s : State) (c : Ctx) : Bool :=
  c.resident && s.coreServes c && (c.stat == .inverse || c.stat == .running) && !s.displaced c

/-- The order in which a core serves its contexts (log 72): the inverse of a victim (R340), the handler of a task or a victim
between two inverses, a task (R40, R235), another handler, and regular contexts by effective priority. -/
def State.rank (s : State) (c : Ctx) : Nat :=
  if c.inInverse then 7
  else if c.stat == .aborting then 6
  else
    match c.kind with
    | .handler k => if ((s.ctx k).map Ctx.isTask).getD false then 6 else 4
    | .task _ => 5
    | .regular => s.effPrio c.lid

/-- The active context may leave its core: the drain of R200 is over, its open leg is safe or unread (R218), its atomic has
returned (R343), and the core does not stand at a schedule-cycle stop (R318). -/
def State.mayLeave (s : State) (a : Ctx) : Bool :=
  a.mx.active.isNone && a.stat != .stopped && !a.outstanding &&
    (if a.stat == .running || a.stat == .inverse then !a.redoPend && s.escapeOk a else true) &&
    !(s.displaced a && s.anyExposed a.lid)

/-- A context as it leaves its core: forked results land, latches are lost (R43, R200). -/
def Ctx.parked (c : Ctx) (now : BitVec 64) : Ctx :=
  { (if c.joined then c else c.landIf (fun _ => true)).loseLatches with seen := now, leaving := false }

/-- The active context of a core leaves it. -/
def State.leave (s : State) (p : Nat) : State :=
  match s.activeCtx p with
  | some a => (s.setCtx (a.parked s.cycle)).setCore p { s.core p with active := none }
  | none => s.setCore p { s.core p with active := none }

/-- A context as it starts on the plane that holds its image: a fresh one takes its descriptors (R22). -/
def Ctx.boarded (c : Ctx) (pl : Plane) : Ctx := if c.fresh then { c with fresh := false, desc := pl.descs } else c

/-- The first member of a launch starts in this cycle (R258). -/
def State.memberBegins (s : State) (c : Ctx) : State :=
  match (if c.fresh then s.launch c.lid else none) with
  | some l => s.setLaunch { l with began := some (l.began.getD s.cycle) }
  | none => s

/-- The context becomes active, or the fill that it needs starts (R24, R83). The core has no active context. A plane is known by its
image address alone, whatever root word it was filled under (log 96). -/
def State.board (s : State) (c : Ctx) : Out :=
  let k := s.core c.core
  match (match k.plane with
    | some pl => if pl.image = c.image then some pl else none
    | none => none) with
  | some pl => .next (((s.memberBegins c).setCtx (c.boarded pl)).setCore c.core { k with active := some c.cid })
  | none =>
    match s.pages c c.image .exec 0 [] imagePieces with
    | .ok s1 ps => .next (s1.setCore c.core ((s1.core c.core).startFill c.image ps true (some c.cid)))
    | .trap s1 t => .next (s1.setCtx { c with stat := .trapped, trap := some { t with place := true } })
    | .stall => .next s
    | .dead => .fault .deviceWindow

/-- A task waits at its ABOP for the victims of its registration (R340). -/
def State.atAbop (s : State) (c : Ctx) : Bool :=
  c.abop && (match s.fetch c.core .ctl c.ctl.pc with
    | .ok (.abop .., _) => true
    | _ => false)

/-- The active context gives way to context `c`. A running task does to a victim's inverse alone, and only while it waits at an ABOP for victims
(R235, R340; log 72); a victim keeps its core between its inverses. -/
def State.givesWay (s : State) (a c : Ctx) : Bool :=
  if a.isTask && a.stat == .running && s.couldRun a then c.inInverse && s.atAbop a
  else (!s.couldRun a && a.stat != .aborting) || decide (s.rank a < s.rank c)

/-- The active context is to leave its core once its drain is over: from now on it issues no word, and no command of a shadow set
starts (R200, R274). -/
def State.drainOut (s : State) (a : Ctx) : State :=
  if a.stat == .running || a.stat == .inverse then
    s.keep { a with leaving := true, want := a.want || !s.escapeOk a }
  else s

/-- The context that a core serves before any other resident one. -/
def State.first (s : State) (c : Ctx) : Bool :=
  (s.onCore c.core).all (fun x => x.cid == c.cid || !s.couldRun x || decide (s.rank x ≤ s.rank c))

/-- Context `c` takes the place of the active context (R43, R274). -/
def State.switchTo (s : State) (c : Ctx) : Out :=
  match s.activeCtx c.core with
  | none => s.board c
  | some a =>
    if s.mayLeave a then (s.leave c.core).board c else .next (s.drainOut a)

/-- The company of a regular member is no longer displaced. -/
def State.restored (s : State) (c : Ctx) : State :=
  if c.isRegular then { s with launches := s.launches.map (fun l => if l.lid == c.lid then { l with displaced := false } else l) }
  else s

/-- CONTEXT_SWITCH (R42, R43, R83). An active context that no longer has to leave goes on. -/
def execContextSwitch (core : Nat) (cid : Nat) (s : State) : Out :=
  match s.ctx cid with
  | none => .next s
  | some c =>
    let wins : Bool := match s.activeCtx core with
      | none => true
      | some a => a.cid != cid && s.givesWay a c
    if c.core = core ∧ s.couldRun c ∧ s.first c ∧ (s.core core).fill.isNone ∧ !(s.core core).fenced ∧ !s.coreStopped core then
      if (s.core core).active = some cid ∧ c.leaving then .next ((s.restored c).setCtx { c with leaving := false })
      else if wins then (s.restored c).switchTo c
      else .next s
    else .next s

/-! ## The spill area (R277) -/

/-- Slots of the spill area. -/
def State.spillSlots (s : State) : Nat :=
  let n := (s.cspill.extractLsb' 4 5).toNat
  if s.cspill.getLsbD 0 && decide (1 ≤ n) && decide (n ≤ 16) then 2 ^ n else 0

/-- Physical address of a slot. -/
def State.slotAddr (s : State) (k : Nat) : Nat := (s.cspill.extractLsb' 12 40).toNat * 4096 + 0x6B000 * k

/-- The translated pages of a slot: no translation. -/
def State.slotPages (s : State) (k : Nat) : List (Nat × Nat) :=
  (List.range ctxPieces).map (fun i => (4096 * i, s.slotAddr k + 4096 * i))

/-- A shadow context that may be streamed out: it holds no bank that the harts or a handler name. A victim may be one, between its inverses and
inside one (R43, R340). -/
def State.mayStreamOut (s : State) (c : Ctx) : Bool :=
  c.resident && (s.core c.core).active != some c.cid &&
    (c.stat == .running || c.stat == .finished || c.stat == .aborting || c.stat == .inverse) && !c.isHandler

/-- Writes an image with no squash. -/
def State.putImageQuiet (s : State) (d : Ctx) (status : Word) (n : Nat) : List (Nat × Nat) → State
  | [] => s
  | (off, pa) :: r => State.putImageQuiet (s.writeQuiet 0xFFFF (d.imagePiece status n off pa)) d status n r

/-- CONTEXT_STREAM_OUT (R43, R277): the least recently active shadow context, where no bank is free. -/
def execContextStreamOut (cid : Nat) (slot : Nat) (s : State) : Out :=
  match s.ctx cid with
  | none => .next s
  | some c =>
    if s.mayStreamOut c ∧ (s.freeBank c.core).isNone ∧ slot < s.spillSlots ∧ !s.spill.contains slot ∧
        (s.onCore c.core).all (fun x => !s.mayStreamOut x || decide (c.seen.toNat ≤ x.seen.toNat)) then
      let n := s.free + 1
      let s1 := ({ s with free := n }).putImageQuiet c (s.status c) n (s.slotPages slot)
      .next { s1.setCtx { c with loc := .slot slot } with spill := s1.spill ++ [slot] }
    else .next s

/-- CONTEXT_STREAM_IN (R43, R277). -/
def execContextStreamIn (cid : Nat) (bank : Nat) (checkOk : Bool) (s : State) : Out :=
  match s.ctx cid with
  | none => .next s
  | some c =>
    match c.loc with
    | .bank _ => .next s
    | .slot k =>
      if bank < 3 ∧ (s.onCore c.core).all (fun x => x.loc != .bank bank) then
        if s.pagesHold .lost (s.slotPages k) ∨ checkOk = false then .next (s.abortLaunch c.lid 0x14)
        else .next { s.setCtx { c with loc := .bank bank, seen := s.cycle } with spill := s.spill.filter (fun x => x != k) }
      else .next s

/-! ## Plane fills -/

/-- The nonzero bytes of an image, by offset. -/
def imageBytes (m : Mem) (pages : List (Nat × Nat)) : SMap Byte :=
  (pages.flatMap (fun p => (m.cells.filter (fun x => decide (p.2 ≤ x.1) && decide (x.1 < p.2 + 4096))).map
    (fun x => (p.1 + (x.1 - p.2), x.2)))).filter (fun x => decide (x.1 < 0x70800))

/-- The granules of an image: number in the image, and physical number. -/
def imageGrans (pages : List (Nat × Nat)) : List (Nat × Nat) :=
  (pages.flatMap (fun p => (List.range 64).map (fun i => (p.1 / 64 + i, p.2 / 64 + i)))).filter (fun x => decide (64 * x.1 < 0x70800))

/-- The first lost granule of an image: its number in the image, and its physical number. -/
def lostInImage (m : Mem) (pages : List (Nat × Nat)) : Option (Nat × Nat) :=
  (imageGrans pages).find? (fun x => m.unit 64 (64 * x.2) == .lost)

/-- A fill ends on lost bytes, the granule `g` of the image and its run (R423). -/
def State.fillLost (s : State) (p : Nat) (f : Fill) (g pg : Nat) : State :=
  let k := s.core p
  let s1 := s.setCore p { k with fill := none, shadow := none }
  match f.cid.bind s.ctx with
  | none => s1
  | some c =>
    let gs := imageGrans f.pages
    let bytes := lossRecord .global (f.image.toNat + 64 * g) (64 * (lostChain s.dram gs gs.length g).length)
      (s.stamps.get 0xFFFF pg).toNat 0 c.sup c.legno (64 * g) p
    { s1.setCtx { c.flag stLOST with pimage := if f.flip then c.pimage else none } with
      events := s1.events ++ [{ type := 2, bytes := bytes, cid := none }] }

/-- PLANE_FILL_COMPLETE (R24, R81, R83, R423). -/
def execPlaneFillComplete (core : Nat) (s : State) : Out :=
  let k := s.core core
  match k.fill with
  | none => .next s
  | some f =>
    match lostInImage s.dram f.pages with
    | some (g, pg) => .next (s.fillLost core f g pg)
    | none =>
      let pl : Plane := { image := f.image, bytes := imageBytes s.dram f.pages }
      let k1 := { k with fill := none, shadow := some pl }
      .next (s.setCore core (if f.flip then k1.flip else k1))

/-! ## Fault records and handlers -/

/-- Causes that always go to the harts (R264). -/
def toHarts (cause : Nat) : Bool :=
  (decide (0x18 ≤ cause) && decide (cause ≤ 0x1B)) || cause == 0x29 || cause == 0x2A || cause == 0x2C

/-- The trap starts a local handler (R264, R271). -/
def Ctx.toHandler (c : Ctx) (t : TrapRec) : Bool :=
  c.hen && !c.isHandler && c.inv.isNone && !t.place && !toHarts t.cause

/-- A trap in an inverse that is no translation fault aborts the launch (R247). -/
def Ctx.killsLaunch (c : Ctx) (t : TrapRec) : Bool :=
  c.inv.isSome && !(decide (0x18 ≤ t.cause) && decide (t.cause ≤ 0x1B))

/-- FAULT_RECORD_SEND (R200, R201, R247, R273, R295). -/
def execFaultRecordSend (cid : Nat) (s : State) : Out :=
  match s.ctx cid with
  | none => .next s
  | some c =>
    match c.trap with
    | none => .next s
    | some t =>
      if c.stat = .trapped ∧ c.mx.active.isNone ∧ !c.outstanding ∧ !c.toHandler t then
        if c.killsLaunch t then .next (s.abortLaunch c.lid 0x11)
        else if (s.fresp.find c.core).isNone ∧ (s.pools.find c.core).isNone then
          let k := s.core c.core
          let s1 := s.setCtx { c with stat := .held }
          let s2 := { s1 with
            fresp := s1.fresp.set c.core cid
            events := s1.events ++ [{ type := 1, bytes := c.record ++ bytesOfNat 32 0, cid := some cid }] }
          .next (if k.active = some cid then s2.setCore c.core { k with active := none } else s2)
        else .next s
      else .next s

/-- The 32-bit words of a record. -/
def recordWords (bs : List Byte) : List Word :=
  (List.range (bs.length / 4)).map (fun i => wordOfBytes 32 ((bs.drop (4 * i)).take 4))

/-- Scalar registers s`n`, s`n + 1`, … from a list. -/
def putRegs (m : SMap Word) (n : Nat) : List Word → SMap Word
  | [] => m
  | w :: ws => putRegs (m.put 0 n w) (n + 1) ws

/-- The scalar registers of a handler (R178, R271). -/
def handlerRegs (d : Ctx) (t : TrapRec) : SMap Word :=
  let low := putRegs [] 1 ((List.range 5).map (fun i => d.ctl.reg (BitVec.ofNat 5 (i + 1))))
  putRegs low 8 (recordWords (t.loss.getD (d.handlerRecord t)))

/-- A sequencer that never runs. -/
def Seqr.off : Seqr := { Seqr.start 0 [] with run := .halted }

/-- The handler context of a trapped context (R271). -/
def handlerCtx (d : Ctx) (t : TrapRec) (cid bank : Nat) : Ctx :=
  { Ctx.blank cid d.core with
    lid := d.lid, idx := d.idx, coord := d.coord, kind := .handler d.cid, loc := .bank bank, root := d.root
    plots := d.plots, noxf := d.noxf, nocan := d.nocan, novec := d.novec, nomx := d.nomx, dmode := d.dmode, size := d.size
    param := d.param, image := d.image, sup := d.sup, phase := d.phase, legno := d.legno
    ctl := Seqr.start d.hent.toNat (handlerRegs d t), load := Seqr.off, store := Seqr.off, comp := Seqr.off
    sems := d.sems, sp := d.sp, can := d.can }

/-- HANDLER_START (R271). -/
def execHandlerStart (cid : Nat) (s : State) : Out :=
  match s.ctx cid with
  | none => .next s
  | some d =>
    match d.trap, s.freeBank d.core with
    | some t, some b =>
      if d.stat = .trapped ∧ d.mx.active.isNone ∧ !d.outstanding ∧ d.toHandler t ∧ d.resident then
        let k := s.core d.core
        let x := handlerCtx d t s.nextCid b
        let s1 := { (s.setCtx { d with stat := .handled }).setCtx x with nextCid := s.nextCid + 1 }
        let here := k.active == some cid || (k.active.isNone && !s.coreStopped d.core)
        let onPlane := (k.plane.map (fun pl => pl.image == d.image)).getD false
        .next (if here && onPlane then s1.setCore d.core { k with active := some x.cid }
          else if k.active = some cid then s1.setCore d.core { k with active := none } else s1)
      else .next s
    | _, _ => .next s

/-- The record of the context that a core's fault response would answer still waits at its source (R296). -/
def State.recordWaits (s : State) (core : Nat) : Bool :=
  match s.fresp.find core with
  | some cid => s.events.any (fun e => e.cid == some cid)
  | none => false

/-- The answer 0 of the harts (R83, R202, R233, R273, R377). -/
def State.answerResume (s : State) (core : Nat) : State :=
  let s0 := { s with pools := s.pools.del core }
  match s.fresp.find core with
  | none => s0
  | some cid =>
    let s1 := { s0 with fresp := s0.fresp.del core }
    match s1.ctx cid with
    | some c => s1.setCtx c.resumed
    | none => s1

/-- The answer 1 of the harts (R83, R202, R233, R258). -/
def State.answerAbort (s : State) (core : Nat) : State :=
  let s0 := match s.pools.find core with
    | some lid => { s with pools := s.pools.del core }.abortLaunch lid 0x10
    | none => s
  match s0.fresp.find core with
  | none => s0
  | some cid =>
    let s1 := { s0 with fresp := s0.fresp.del core }
    match s1.ctx cid with
    | some c => s1.abortLaunch c.lid 0x10
    | none => s1

/-- A fault response: it waits for the end of a schedule-cycle stop (R318). -/
def State.respond (s : State) (core : Nat) (abort : Bool) : State :=
  if s.recordWaits core then s
  else if s.coreStopped core then s.setCore core { s.core core with resp := some abort }
  else if abort then s.answerAbort core
  else s.answerResume core

/-- FRESP written with 0 (R202, R296, R318). -/
def execFrespResume (core : Nat) (s : State) : Out := byHart s <| .next (s.respond core false)

/-- FRESP written with 1 (R202, R296, R318). -/
def execFrespAbort (core : Nat) (s : State) : Out := byHart s <| .next (s.respond core true)

end Sys2Proof.Machine
end

