-- ==== Sys2Proof/Machine/Elements.lean ====
section
/-!
DEFINITION. Checks and reads of local elements by vector and matrix words (R25, R164, R166, R176, R182, R407, R458).
-/
namespace Sys2Proof.Machine

/-- STREAM of a descriptor (R264). -/
def streamTrap (n : BitVec 6) : TrapRec := mkTrap 0x0B (n.zeroExtend 32)

/-- The checks of R182 on a stream that needs elements of `w` bytes. -/
def streamBad (d : BitVec 256) (w : Nat) : Bool :=
  let al := if w = 6 then 2 else w
  d.extractLsb' 4 116 != 0 || !(d.extractLsb' 0 2 == 1 || d.extractLsb' 0 2 == 2) || stCount d == 0 || stWidth d != w ||
    stBase d % al != 0 || stStride d % (al : Int) != 0

/-- ENGINE of a stream in the canopy (R25). -/
def Ctx.canopyStream (c : Ctx) (n : BitVec 6) : Bool := c.nocan && (c.descr n).extractLsb' 0 2 == 2

/-- ENGINE or STREAM of a stream (R182). -/
def Ctx.streamTraps (c : Ctx) (n : BitVec 6) (w : Nat) : List (Option TrapRec) :=
  [ if c.canopyStream n then some engineTrap else none,
    if streamBad (c.descr n) w then some (streamTrap n) else none ]

/-- The limit of a local space (R164). -/
def Ctx.limitOf (c : Ctx) (sp : Space) : Nat :=
  match sp with
  | .can => 0x800000
  | _ => c.spLimit

/-- LOCALRANGE of an element: TVAL is the first address outside (R164). -/
def elemRange (limit : Nat) (a : Int) (w : Nat) (acc : BitVec 3) : Option TrapRec :=
  if 0 ≤ a ∧ a + w ≤ limit then none
  else some { mkTrap 0x0A (BitVec.ofInt 32 (if 0 ≤ a ∧ a < limit then (limit : Int) else a)) with acc := acc }

/-- LOCALRANGE of the elements `is` of an operand. -/
def Ctx.elemsRange (c : Ctx) (n : BitVec 6) (o w : Nat) (is : List Nat) (acc : BitVec 3) : Option TrapRec :=
  is.findSome? (fun i => elemRange (c.limitOf (stSpace (c.descr n))) (stAddr (c.descr n) o i) w acc)

/-- Elements that a word reads: their space, addresses and width. -/
structure Opnd where
  sp  : Space
  els : List Nat
  w   : Nat
  deriving DecidableEq, Repr

/-- The elements `is` of an operand, whose addresses are in range. -/
def opndOf (d : BitVec 256) (o w : Nat) (is : List Nat) : Opnd :=
  { sp := stSpace d, els := is.map (fun i => (stAddr d o i).toNat), w := w }

/-- A forked sequencer waits for elements that an earlier matrix word of its own has still to write (R58). -/
def Ctx.awaitsElems (c : Ctx) (o : Opnd) : Bool :=
  !c.joined && c.mxCmds.any (fun m => !m.chained && o.els.any (fun a => m.pending (localKey o.sp a) o.w))

/-- Some element has its pending bit set. -/
def Ctx.opStale (c : Ctx) (o : Opnd) : Bool := o.els.any (fun a => c.pendingAt (localKey o.sp a) o.w)

/-- The first byte of an operand whose unit has a state. -/
def Ctx.opFirst (c : Ctx) (st : UState) (o : Opnd) : Option Nat :=
  o.els.findSome? (fun a => (c.localMem o.sp).first 2 st a o.w)

/-- Some element touches the ECC word at `a`. -/
def Opnd.touches (o : Opnd) (a : Nat) : Bool := o.els.any (fun e => decide (e < a + 8) && decide (a < e + o.w))

/-- Length of the run of lost ECC words from `a` that an operand touches (R178). -/
def lostSpan (m : Mem) (o : Opnd) : Nat → Nat → Nat
  | 0, _ => 0
  | fuel + 1, a => if o.touches a ∧ m.unit 2 a = .lost then 8 + lostSpan m o fuel (a + 8) else 0

/-- The LOST that reading an operand raises, with the flags of the read. -/
def Ctx.opLost (c : Ctx) (o : Opnd) (flags : BitVec 5) : Option TrapRec :=
  (c.opFirst .lost o).map (fun x =>
    let w := x / 8 * 8
    lostTrap c o.sp [(w, lostSpan (c.localMem o.sp) o (o.els.length * o.w + 1) w)] (BitVec.ofNat 64 w) 0xFFFF 0 0 0 flags)

/-- VAC if an operand touches vacated space. -/
def Ctx.opsVac (c : Ctx) (os : List Opnd) : BitVec 5 := if os.any (fun o => (c.opFirst .vacated o).isSome) then stVAC else 0

/-- The examination of operands at issue: STALE, VACTRAP, LOST (R407, R458). -/
def Ctx.examine (c : Ctx) (stale : Bool) (os : List Opnd) : Option TrapRec :=
  if c.checkMode && (stale || os.any c.opStale) then some staleTrap
  else
    match (if c.checkMode then os.findSome? (c.opFirst .vacated) else none) with
    | some x => some (memTrap 0x10 (BitVec.ofNat 64 x) 0)
    | none => os.findSome? (fun o => c.opLost o (c.opsVac os))

/-- OUTSTORE of elements that a word writes into a task's undo stack (R242; log 43). -/
def Ctx.opUndo (c : Ctx) (o : Opnd) : Option TrapRec :=
  o.els.findSome? (fun a => (c.undoHit o.sp a o.w).map (fun i => outstoreTrap (BitVec.ofNat 64 (a + i))))

/-- The bits of an element. -/
def Ctx.elemBits (c : Ctx) (sp : Space) (a w : Nat) : Nat := natOfBytes ((c.localMem sp).bytes a w)

/-- Lanes of `w` bits side by side. -/
def packLanes (w : Nat) : List Nat → Nat
  | [] => 0
  | x :: r => x % pow2 w + pow2 w * packLanes w r

end Sys2Proof.Machine
end

