-- ==== Sys2Proof/Machine/Outrider.lean ====
section
/-!
DEFINITION. Outrider tasks (10, R233 to R251, R339, R340, R347 to R349, R375, R419, R421).
-/
namespace Sys2Proof.Machine

/-! ## Pools -/

/-- The number of the logical cluster of a member (R233). -/
def Launch.poolOf (l : Launch) (c : Ctx) : Nat := c.coord.2.1 * l.record.c + c.coord.2.2.1

/-- Virtual address of a pool slot (R233). -/
def Launch.slotVa (l : Launch) (pool slot : Nat) : BitVec 64 := l.record.pool + BitVec.ofNat 64 (8192 * pool + 32 * slot)

/-- A free slot of a pool. -/
def Launch.freeSlot (l : Launch) (pool : Nat) : Option Nat :=
  (List.range 256).find? (fun i => l.tasks.all (fun t => !(t.id.pool == pool && t.id.slot == i)))

/-- An access of the device to a pool slot for task `t`, made by core `p` (R233): its physical address, or the translation fault.
After a fault it waits for the harts' answer. -/
def State.poolAccess (s : State) (l : Launch) (t : TaskId) (p : Nat) : XRes :=
  if (s.pools.find p).isSome then .busy else s.reachPage l.root (l.slotVa t.pool t.slot) .both

/-- A faulting pool access sends a fault record, and waits for the answer (R233). -/
def State.poolFault (s : State) (l : Launch) (t : TaskId) (p : Nat) (f : XFault) : State :=
  if (s.pools.find p).isSome || (s.fresp.find p).isSome then s
  else
    let c := { Ctx.blank 0 p with lid := l.lid, root := l.root }
    let bytes := faultRecord c (xTrap s.free f (l.slotVa t.pool t.slot) .both) .ctl 0
    { s with pools := s.pools.set p l.lid, events := s.events ++ [{ type := 1, bytes := bytes ++ bytesOfNat 32 0, cid := none }] }

/-- The launch of a context, if it is of the outrider class. -/
def State.company (s : State) (c : Ctx) : Option Launch :=
  match s.launch c.lid with
  | some l => if l.record.cls then some l else none
  | none => none

/-- The wait of OTSK and CTBL for the commit order (R234, R239). -/
def State.inOrder (s : State) (c : Ctx) : Bool := c.ended.isEmpty && (c.relaxed || s.ready c c.curLeg)

/-! ## OTSK -/

/-- Queues a task (R234). -/
def Launch.queue (l : Launch) (pool slot : Nat) (record : List Byte) : Launch :=
  { l with seq := l.seq + 1, tasks := l.tasks ++
      [{ id := { seq := l.seq, pool := pool, slot := slot, record := record, aborts := 0 }, stat := .queued, cid := none }] }

/-- The task record in its pool slot. -/
def otskQueue (s : State) (c : Ctx) (l : Launch) (a : BitVec 64) (pa slot : Nat) : Res :=
  match s.readDram { c with dmode := 0 } a pa 32 0 0 with
  | .trap t => .trap s t
  | .ok bs f =>
    let va := l.slotVa (l.poolOf c) slot
    match s.translate c va .both with
    | .fault x => .trap s (xTrap s.free x va .both)
    | .busy => .stall s c
    | .ok p s1 =>
      if s1.outside p then .dead .deviceWindow
      else .ok ((s1.writeQuiet 0xFFFF (place p bs)).setLaunch (l.queue (l.poolOf c) slot bs)) (c.flagAt .ctl none f)

/-- OTSK (R234, R421). -/
def execOtsk (h : Hd) (pair : BitVec 4) (s : State) : Out :=
  accOut 2 <| runWord h 1 false s (fun s c =>
    match (if c.isRegular then s.company c else none) with
    | none => .trap s outctxTrap
    | some l => reading s c (pairRegs pair) (fun x =>
        let a := x.pair pair
        if a.toNat % 32 ≠ 0 then .trap s (alignTrap a .read)
        else escape s c
          (if !s.inOrder c then .stall s c
           else
             match s.access { c with dmode := 0 } true a 32 .read .bulk none with
             | .trap s1 t => .trap s1 t
             | .stall => .stall s c
             | .dead => .dead .deviceWindow
             | .ok s1 pa =>
               match l.freeSlot (l.poolOf c) with
               | none => .stall s c
               | some slot => otskQueue s1 c l a pa slot)))

/-! ## CTBL -/

/-- The row of a kind; an absent row is invalid. -/
def Launch.row (l : Launch) (k : Nat) : CRow := l.table.get { comm := 0, exact := 0, valid := false } k

/-- The rows of a table image (R237). -/
def tableOf (bs : List Byte) : SMap CRow :=
  (List.range 64).foldl (fun m k =>
    m.put { comm := 0, exact := 0, valid := false } k
      { comm := wordAt bs (4 * k), exact := wordAt bs (4 * k + 1), valid := (wordAt bs (4 * k + 2)).getLsbD 0 }) []

/-- Reserved bits of a table image are zero (R237). -/
def tableClean (bs : List Byte) : Bool :=
  (List.range 64).all (fun k => (wordAt bs (4 * k + 2)).extractLsb' 1 63 == 0 && wordAt bs (4 * k + 3) == 0) &&
    (wordAt bs 256).extractLsb' 1 63 == 0 && (List.range 7).all (fun i => wordAt bs (257 + i) == 0)

/-- The valid rows agree (R238). -/
def tableAgrees (t : SMap CRow) : Bool :=
  t.all (fun x => !x.2.valid || t.all (fun y => !y.2.valid ||
    ((!x.2.exact.getLsbD y.1 || x.2.comm.getLsbD y.1) && x.2.comm.getLsbD y.1 == y.2.comm.getLsbD x.1 &&
      x.2.exact.getLsbD y.1 == y.2.exact.getLsbD x.1)))

/-- CTBLBAD. -/
def ctblbadTrap : TrapRec := mkTrap 0x25 0

/-- CTBL (R237 to R239, R375). -/
def execCtbl (h : Hd) (pair : BitVec 4) (s : State) : Out :=
  runWord h 1 false s (fun s c =>
    match (if c.isRegular then s.company c else none) with
    | none => .trap s outctxTrap
    | some l => reading s c (pairRegs pair) (fun x =>
        let a := x.pair pair
        if a.toNat % 64 ≠ 0 then .trap s (alignTrap a .read)
        else escape s c
          (if !(l.tasks.isEmpty && s.inOrder c) then .stall s c
           else
             let plain := { c with dmode := 0 }
             match s.reach c none .read [] (splitPieces a 2 2112) with
             | .trap s1 t => .trap s1 t
             | .stall => .stall s c
             | .dead => .dead .deviceWindow
             | .ok s1 ps =>
               let bs := ps.flatMap (fun p => s1.dram.bytes p.2.1 p.2.2)
               let good := tableClean bs && tableAgrees (tableOf bs)
               match s1.readPieces plain (fun _ => true) 0 0 ps with
               | .trap t => .trap s1 (if good then t else { ctblbadTrap with flags := t.flags })
               | .ok _ f =>
                 if good then
                   .ok (s1.setLaunch { l with table := tableOf bs, trapmiss := (wordAt bs 256).getLsbD 0 }) (c.flagAt .ctl none f)
                 else .trap s1 { ctblbadTrap with flags := f })))

/-! ## ABOP -/

/-- The object of a registration shares a byte with another task's (R244). -/
def Reg.overlaps (a b : Reg) : Bool :=
  a.seq != b.seq && decide (a.base < b.base + b.size) && decide (b.base < a.base + a.size)

/-- Two kinds miss the table (R244). -/
def Launch.misses (l : Launch) (a b : Reg) : Bool := !(l.row a.kind).valid || !(l.row b.kind).valid

/-- Two overlapping registrations conflict (R244). -/
def Launch.conflicts (l : Launch) (a b : Reg) : Bool := l.misses a b || !(l.row a.kind).comm.getLsbD b.kind

/-- A kind fails the test of R245. -/
def Launch.nonexact (l : Launch) (k : Nat) : Bool :=
  !(l.row k).valid || (List.range 64).any (fun y =>
    (l.row y).valid && (l.row k).comm.getLsbD y && !(l.row k).exact.getLsbD y)

/-- An engine with no command. -/
def Chan.cleared (k : Chan) : Chan := { active := none, shadow := none, issued := k.issued, retired := k.issued }

/-- A sequencer that an abort has stopped. -/
def Seqr.stopped (x : Seqr) : Seqr := { x with run := .halted, bcast := none, armed := none, owed := 0xFF }

/-- A task begins to abort (R247): its commands and results are discarded; an atomic on a link is waited for (R343). -/
def Ctx.startAbort (c : Ctx) : Ctx :=
  { c.onAll Seqr.stopped with
    stat := .aborting, trap := none, leaving := false, abop := false, back := none, joined := true, flight := [], inb := c.inb.cleared, outb := c.outb.cleared
    mx := { active := none, shadow := none, issued := c.mx.issued, retired := c.mx.issued }
    offers := [], marks := [], waitm := none, hold := none, impr := [], decl := none, halting := false, replay := 0
    again := false
    pend := match c.pend with
      | some (.atomic i d a n true) => some (.atomic i d a n true)
      | _ => none }

/-- The task that a context runs has this sequence number. -/
def Ctx.hasSeq (c : Ctx) (seq : BitVec 64) : Bool :=
  match c.kind with
  | .task t => t.seq == seq
  | _ => false

/-- A context whose abort is under way: between or inside its inverses. -/
def Ctx.inAbort (c : Ctx) : Bool := c.stat == .aborting || c.stat == .inverse || c.inv.isSome

/-- A context that can begin to abort now; one with a running handler, or at a schedule-cycle stop, first goes on. -/
def Ctx.abortable (c : Ctx) : Bool :=
  c.inv.isNone && (c.stat == .running || c.stat == .finished || c.stat == .trapped || c.stat == .held)

/-- The task of a launch with a sequence number, as a context. -/
def State.taskCtxOf (s : State) (lid : BitVec 48) (seq : BitVec 64) : Option Ctx :=
  s.allCtxs.find? (fun c => c.lid == lid && c.hasSeq seq)

/-- Begins the abort of the tasks with these sequence numbers, the largest first (R340). One that cannot begin yet holds back those
with smaller numbers. -/
def State.markVictims (s : State) (lid : BitVec 48) : List (BitVec 64) → State
  | [] => s
  | seq :: r =>
    match s.taskCtxOf lid seq with
    | none => State.markVictims s lid r
    | some c =>
      if c.inAbort then State.markVictims s lid r
      else if c.abortable then
        State.markVictims { s.setCtx c.startAbort with fresp := s.fresp.filter (fun p => p.2 != c.cid) } lid r
      else s

/-- Adds the misses of a registration with the tasks `os` to the TBLMISS counter of a core; one that stands counted already, as the
ABOP waits, adds nothing (R244). `keep` says that they go on standing. -/
def State.countMisses (s : State) (p : Nat) (l : Launch) (seq : BitVec 64) (os : List (BitVec 64)) (keep : Bool) : State :=
  let fresh := (os.filter (fun o => !l.missed.contains (seq, o)))
  let rest := l.missed.filter (fun m => m.1 != seq)
  (s.setCore p ((s.core p).bump 0x228 fresh.length)).setLaunch
    { l with missed := if keep then l.missed ++ fresh.map (fun o => (seq, o)) else rest }

/-- The misses of a task that ends or is queued again no longer stand. -/
def Launch.dropMisses (l : Launch) (seq : BitVec 64) : Launch :=
  { l with missed := l.missed.filter (fun m => m.1 != seq && m.2 != seq) }

/-- The bytes of a waybill (R241). -/
def waybill (scls : BitVec 4) (obj : BitVec 64) (kind : BitVec 6) (inv a0 a1 a2 : Word) (seq : BitVec 64) : List Byte :=
  bytesOfNat 8 (scls ++ 0#11 ++ obj.extractLsb' 0 49 : BitVec 64).toNat ++
  bytesOfNat 8 (a0 ++ 0#10 ++ kind ++ 0#2 ++ inv.extractLsb' 0 14 : BitVec 64).toNat ++
  bytesOfNat 8 (a2 ++ a1 : BitVec 64).toNat ++ bytesOfNat 8 seq.toNat

/-- Local address of waybill `k` (R241). -/
def Ctx.billAddr (c : Ctx) (k : Nat) : Nat := c.spLimit - 32 * (k + 1)

/-- The waybill is pushed, the registration made, and the declaration opened (R240, steps 3 to 5). -/
def declare (s : State) (c : Ctx) (l : Launch) (r : Reg) (bill : List Byte) : Res :=
  .ok (s.setLaunch { l with regs := l.regs ++ [r], missed := l.missed.filter (fun m => m.1 != r.seq) })
    { c.localStore (place (c.billAddr c.bills) bill) with
      bills := c.bills + 1, decl := some { base := r.base, size := r.size }, abop := false }

/-- Conflicts of a new registration (R244, R246). -/
def resolve (s : State) (c : Ctx) (l : Launch) (r : Reg) (bill : List Byte) : Res :=
  let near := l.regs.filter r.overlaps
  let ms := (near.filter (l.misses r)).map (fun o => o.seq)
  let cs := near.filter (l.conflicts r)
  if l.trapmiss && !ms.isEmpty then .trap (s.countMisses c.core l r.seq ms false) (mkTrap 0x23 0)
  else if cs.any (fun o => decide (o.seq < r.seq)) then
    .left ((s.countMisses c.core l r.seq ms false).setCtx c.startAbort)
  else if cs.isEmpty then declare s c l r bill
  else
    let vs := (cs.map (fun o => o.seq)).eraseDups.insertionSort (fun a b => b ≤ a)
    .stall ((s.countMisses c.core l r.seq ms true).markVictims c.lid vs) { c with abop := true }

/-- ABOP (R240 to R246, R348, R349). -/
def execAbop (h : Hd) (pair : BitVec 4) (kind : BitVec 6) (scls : BitVec 4) (inv : BitVec 5) (s : State) : Out :=
  runWord h 1 false s (fun s c =>
    match c.kind with
    | .task t =>
      if c.inInverse || c.decl.isSome then .trap s outctxTrap
      else reading s c (pairRegs pair ++ [inv, inv + 1, inv + 2, inv + 3]) (fun x =>
        let a := x.pair pair
        let size := 2 ^ (6 + scls.toNat)
        if a.toNat % size ≠ 0 then .trap s (alignTrap a .read)
        else if 64 ≤ c.bills ∨ 16384 ≤ (x.reg inv).toNat then .trap s (mkTrap 0x24 0)
        else
          match s.launch c.lid with
          | none => .stall s c
          | some l =>
            if !c.relaxed && l.nonexact kind.toNat then .trap s (mkTrap 0x22 0)
            else resolve s c l { seq := t.seq, base := a.toNat, size := size, kind := kind.toNat }
              (waybill scls a kind (x.reg inv) (x.reg (inv + 1)) (x.reg (inv + 2)) (x.reg (inv + 3)) t.seq))
    | _ => .trap s outctxTrap)

/-! ## ABEND, OCMT, OABT -/

/-- The end of an inverse (R247, R347): the abort goes on with the next waybill down. -/
def Ctx.endInverse (c : Ctx) : Ctx :=
  { c.landIf (fun _ => true) with stat := .aborting, bills := c.inv.getD 0, inv := none, decl := none }

/-- ABEND (R243, R347). -/
def execAbend (h : Hd) (s : State) : Out :=
  runWord h 1 false s (fun s c =>
    if !c.isTask then .trap s outctxTrap
    else if c.inInverse then .ok s c.endInverse
    else .ok s { c with decl := none })

/-- OCMT (R248, R339, R419). -/
def execOcmt (h : Hd) (s : State) : Out :=
  runWord h 1 false s (fun s c => if !c.isTask || c.inInverse then .trap s outctxTrap else finishWord s c)

/-- OABT (R247, R419). -/
def execOabt (h : Hd) (s : State) : Out :=
  runWord h 1 false s (fun s c =>
    if !c.isTask || c.inInverse then .trap s outctxTrap else .left (s.setCtx c.startAbort))

/-! ## TASK_START -/

/-- The queued task of a pool with the smallest SEQ (R235). -/
def Launch.nextTask (l : Launch) (pool : Nat) : Option Task :=
  (l.tasks.filter (fun t => t.stat == .queued && t.id.pool == pool)).foldl
    (fun m t => match m with
      | some b => if b.id.seq ≤ t.id.seq then some b else some t
      | none => some t) none

/-- Scalar registers of R22 that every sequencer gets. -/
def startRegs (idx : Nat) (coord : Nat × Nat × Nat × Nat) (size : Nat) (param : BitVec 64) : SMap Word :=
  let s2 : Word := BitVec.ofNat 8 coord.1 ++ BitVec.ofNat 8 coord.2.1 ++ BitVec.ofNat 8 coord.2.2.1 ++
    BitVec.ofNat 8 coord.2.2.2
  putRegs [] 1 [BitVec.ofNat 32 idx, s2, BitVec.ofNat 32 size, param.extractLsb' 0 32, param.extractLsb' 32 32]

/-- The state of a member of a launch at its start (R22). -/
def Launch.startCtx (l : Launch) (cid p bank idx : Nat) (coord : Nat × Nat × Nat × Nat) : Ctx :=
  let r := l.record
  let size := r.s * r.d * r.c * r.k
  let regs := startRegs idx coord size r.param
  { Ctx.blank cid p with
    lid := l.lid, idx := idx, coord := coord, loc := .bank bank, root := l.root, plots := r.plots, noxf := r.noxf
    nocan := r.nocan, novec := r.novec, nomx := r.nomx, dmode := r.dmode, size := size, param := r.param, image := r.image
    ctl := Seqr.start r.entC regs, load := Seqr.start r.entL regs, store := Seqr.start r.entS regs
    comp := Seqr.start r.entX regs, fresh := true }

/-- What a task's sequencers hold beside the state of a member (R236). -/
def Seqr.forTask (t : TaskId) (x : Seqr) : Seqr :=
  { x with preds := 3, regs := putRegs (putRegs (putRegs x.regs 6 [t.seq.extractLsb' 0 32, t.seq.extractLsb' 32 32]) 8
      (recordWords t.record)) 16 [t.aborts] }

/-- The context of a task on the core of a member (R236). -/
def taskCtx (l : Launch) (m : Ctx) (t : TaskId) (cid bank : Nat) : Ctx :=
  { (l.startCtx cid m.core bank m.idx m.coord).onAll (Seqr.forTask t) with kind := .task t, nocan := true }

/-- Replaces a task of a launch. -/
def Launch.setTask (l : Launch) (t : Task) : Launch :=
  { l with tasks := l.tasks.map (fun x => if x.id.seq == t.id.seq then t else x) }

/-- The member of a launch on a core. -/
def State.memberOn (s : State) (lid : BitVec 48) (p : Nat) : Option Ctx :=
  (s.onCore p).find? (fun c => c.isRegular && c.lid == lid)

/-- TASK_START (R233, R235, R236). -/
def execTaskStart (lid : BitVec 48) (core : Nat) (s : State) : Out :=
  match s.launch lid, s.memberOn lid core, s.freeBank core with
  | some l, some m, some b =>
    if l.isRunning ∧ !l.displaced ∧ !s.taskOn core ∧ !(s.core core).fenced ∧ s.roomFor core l.record.plots false then
      match l.nextTask (l.poolOf m) with
      | none => .next s
      | some t =>
        match s.poolAccess l t.id core with
        | .fault f => .next (s.poolFault l t.id core f)
        | .busy => .next s
        | .ok pa s1 =>
          let id := { t.id with record := s1.dram.bytes pa 32 }
          let c := taskCtx l m id s1.nextCid b
          .next { (s1.setCtx c).setLaunch (l.setTask { t with id := id, stat := .running, cid := some c.cid }) with
                  nextCid := s1.nextCid + 1 }
    else .next s
  | _, _, _ => .next s

/-! ## TASK_ABORT -/

/-- The waybill `k` of a task, if its bytes are whole and its reserved fields zero (R247). -/
def Ctx.readBill (c : Ctx) (k : Nat) : Option (List Byte) :=
  let a := c.billAddr k
  let bs := c.sp.bytes a 32
  let ok := (c.sp.first 2 .vacated a 32).isNone && (c.sp.first 2 .lost a 32).isNone &&
    (wordAt bs 0).extractLsb' 49 11 == 0 && (wordAt bs 1).extractLsb' 22 10 == 0 && (wordAt bs 1).extractLsb' 14 2 == 0
  if ok then some bs else none

/-- A task as it enters the inverse of waybill `k` (R247). -/
def Ctx.enterInverse (c : Ctx) (k : Nat) (bs : List Byte) : Ctx :=
  let w := wordAt bs
  let obj := (w 0).extractLsb' 0 49
  let regs := putRegs c.ctl.regs 4
    [obj.extractLsb' 0 32, (obj.extractLsb' 32 17).zeroExtend 32, (w 3).extractLsb' 0 32, (w 3).extractLsb' 32 32,
     (w 1).extractLsb' 32 32, (w 2).extractLsb' 0 32, (w 2).extractLsb' 32 32]
  { c with
    ctl := { c.ctl with pc := ((w 1).extractLsb' 0 14).toNat, regs := regs, loops := [], latches := [], run := .running }
    stat := .inverse, inv := some k, decl := some { base := obj.toNat, size := 2 ^ (6 + ((w 0).extractLsb' 60 4).toNat) } }

/-- One more abort, up to the largest number (R236). -/
def moreAborts (n : Word) : Word := if n = 0xFFFFFFFF then n else n + 1

/-- The end of an abort: the registrations go, the plots are vacated, the task is queued again (R247). -/
def State.requeue (s : State) (c : Ctx) (l : Launch) (t : TaskId) : State :=
  match s.poolAccess l t c.core with
  | .fault f => s.poolFault l t c.core f
  | .busy => s
  | .ok _ s1 =>
    let task : Task := { id := { t with aborts := moreAborts t.aborts }, stat := .queued, cid := none }
    (s1.setLaunch ({ l.setTask task with regs := l.regs.filter (fun r => r.seq != t.seq) }.dropMisses t.seq)).discardCtx c

/-- The victims of a company run their inverses one at a time, the largest SEQ first (R340): one that comes to be marked later waits for the inverse
that runs. -/
def State.abortTurn (s : State) (lid : BitVec 48) (seq : BitVec 64) : Bool :=
  s.allCtxs.all (fun c => match c.kind with
    | .task t => !(c.lid == lid && c.inAbort && (decide (seq < t.seq) || (t.seq != seq && c.inv.isSome)))
    | _ => true)

/-- TASK_ABORT (R246, R247, R340): the next inverse starts, or the abort ends. -/
def execTaskAbort (cid : Nat) (s : State) : Out :=
  match s.ctx cid with
  | none => .next s
  | some c =>
    match c.kind, s.launch c.lid with
    | .task t, some l =>
      if c.stat = .aborting ∧ c.pend.isNone ∧ c.resident ∧ s.abortTurn c.lid t.seq then
        match c.bills with
        | 0 => .next (s.requeue c l t)
        | k + 1 =>
          match c.readBill k with
          | none => .next (s.abortLaunch c.lid 0x11)
          | some bs => .next (s.setCtx (c.enterInverse k bs))
      else .next s
    | _, _ => .next s

/-! ## TASK_COMMIT -/

/-- The uncommitted task with the smallest SEQ. -/
def Launch.oldest (l : Launch) : Option Task :=
  l.tasks.foldl (fun m t => match m with
    | some b => if b.id.seq ≤ t.id.seq then some b else some t
    | none => some t) none

/-- TASK_COMMIT (R249). -/
def execTaskCommit (lid : BitVec 48) (s : State) : Out :=
  match s.launch lid with
  | none => .next s
  | some l =>
    match l.oldest with
    | none => .next s
    | some t =>
      match t.cid.bind s.ctx with
      | none => .next s
      | some c =>
        if t.stat = .finished ∧ c.stat = .finished then
          match s.poolAccess l t.id c.core with
          | .fault f => .next (s.poolFault l t.id c.core f)
          | .busy => .next s
          | .ok _ s1 =>
            .next ((s1.setLaunch ({ l with
              tasks := l.tasks.filter (fun x => x.id.seq != t.id.seq)
              regs := l.regs.filter (fun r => r.seq != t.id.seq) }.dropMisses t.id.seq)).discardCtx c)
        else .next s

end Sys2Proof.Machine
end

