-- ==== Sys2Proof/Machine/Moves.lean ====
section
/-!
DEFINITION. Page moves of the migration engine and promotions (R161, R179, R204, R205).
-/
namespace Sys2Proof.Machine

/-! ## Following a page to its new place -/

/-- Where an address of a moved page lies after the move. -/
def moved (src dst size a : Nat) : Nat := if src ≤ a ∧ a < src + size then dst + (a - src) else a

/-- A map with its keys moved. -/
def mapKeys {α : Type} (f : Nat → Nat) (m : SMap α) : SMap α := m.foldl (fun r kv => r.set (f kv.1) kv.2) []

/-- A granule as it follows its addresses. -/
def movedGran (f : Nat → Nat) (g : Nat) : Nat := f (64 * g) / 64

/-- A reduction that follows a page. -/
def Red.follow (f : Nat → Nat) (r : Red) : Red := { r with pa := f r.pa, e1 := f r.e1, e2 := f r.e2 }

/-- A write of a leg that follows a page. -/
def LegOp.follow (f : Nat → Nat) (o : LegOp) : LegOp :=
  match o with
  | .store bs => .store (bs.map (fun p => (f p.1, p.2)))
  | .redo r => .redo (r.follow f)

/-- A leg that follows a page. -/
def Leg.follow (f : Nat → Nat) (l : Leg) : Leg :=
  { l with
    buf := mapKeys f l.buf, grans := l.grans.map (movedGran f), reads := l.reads.map (movedGran f)
    log := l.log.map (LegOp.follow f), atomic := l.atomic.map (fun a => { a with pa := f a.pa }) }

/-- A context whose accesses follow a page. -/
def Ctx.follow (f : Nat → Nat) (c : Ctx) : Ctx :=
  { c with
    leg := c.leg.map (Leg.follow f), ended := c.ended.map (Leg.follow f)
    waitm := c.waitm.map (fun w => { w with pa := f w.pa })
    pend := match c.pend with
      | some (.atomic i d a n sent) => some (.atomic i d { a with pa := f a.pa } n sent)
      | p => p }

/-- A memory after a page move (R179): the target holds the source's bytes and states, the source is vacated. -/
def Mem.movePage (m : Mem) (src dst size : Nat) : Mem :=
  let inR (b a : Nat) : Bool := decide (b ≤ a) && decide (a < b + size)
  let m1 : Mem := { m with
    cells := ((m.cells.filter (fun x => inR src x.1))).foldl (fun (r : SMap Byte) x => r.set (x.1 - src + dst) x.2)
      (m.cells.filter (fun x => !inR src x.1 && !inR dst x.1))
    units := ((m.units.filter (fun x => inR src (64 * x.1)))).foldl (fun r x => r.set ((64 * x.1 - src + dst) / 64) x.2)
      (m.units.filter (fun x => !inR src (64 * x.1) && !inR dst (64 * x.1))) }
  if m.goneAt src then
    (List.range (size / 64)).foldl (fun r i => (r.mark (dst / 64 + i) (m.unit 64 (src + 64 * i))).tell 64 (src + 64 * i)) m1
  else m1

/-- A map by granule after a page move: the target's entries are those of the source, which keeps its own. -/
def copyGrans {α : Type} (m : SMap α) (src dst size : Nat) : SMap α :=
  let inR (b a : Nat) : Bool := decide (b ≤ a) && decide (a < b + size)
  (m.filter (fun x => inR src (64 * x.1))).foldl (fun r x => r.set ((64 * x.1 - src + dst) / 64) x.2)
    (m.filter (fun x => !inR dst (64 * x.1)))

/-- The tier code of a leaf. -/
def tierCode : Tier → BitVec 2
  | .any => 0
  | .stacked => 1
  | .offstack => 2

/-- The tier of a code. -/
def tierOf (c : BitVec 2) : Tier := if c = 1 then .stacked else if c = 2 then .offstack else .any

/-- A message that waits at its home slice follows a page. -/
def followMsg (f : Nat → Nat) (m : List (BitVec 64)) : List (BitVec 64) :=
  match m with
  | h :: pa :: r => h :: BitVec.ofNat 64 (f pa.toNat) :: r
  | m => m

/-- An access of a hart or an adapter that is under way inside a page follows it. -/
def BusJob.follow (src dst size : Nat) (j : BusJob) : BusJob :=
  let inR (a : Nat) : Bool := decide (src ≤ a) && decide (a < src + size)
  let f := moved src dst size
  if inR j.base && j.units.all (fun u => inR u.1) then { j with base := f j.base, units := j.units.map (fun u => (f u.1, u.2)) } else j

/-- A core whose running plane fill follows a page. -/
def Core.follow (f : Nat → Nat) (k : Core) : Core :=
  { k with fill := k.fill.map (fun x => { x with pages := x.pages.map (fun p => (p.1, f p.2)) }) }

/-- The bits of a leaf that has BUSY set (R205 step 1). -/
def busyBit : BitVec 64 := 1#64 <<< 60

/-- The move of a page starts: BUSY stands in its leaf, and its new frame is taken (R205 step 1). -/
def State.startMove (s : State) (m : Move) (pte : BitVec 64) : State :=
  { s.writeQuiet 0xFFFF (place m.leaf (bytesOfNat 8 (pte ||| busyBit).toNat)) with
    moves := s.moves ++ [m], frames := s.frames.filter (fun x => x.1 != m.dst) }

/-- The move of a page ends (R179, R205 steps 2 to 5): its granules, what is on its way to them, and its leaf, whose A, D and G are
kept; then its translations are dropped. -/
def State.endMove (s : State) (m : Move) : State :=
  let size := 2 ^ m.bits
  let f := moved m.src m.dst size
  let old := s.dram.word m.leaf 8
  let pte := (old &&& 0x2FF0000000000FFF#64) ||| (BitVec.ofNat 64 m.dst) ||| ((tierCode m.tier).zeroExtend 64 <<< 62)
  let s2 : State := { s with
    dram := s.dram.movePage m.src m.dst size
    stamps := copyGrans s.stamps m.src m.dst size
    shadow := copyGrans s.shadow m.src m.dst size
    written := (copyGrans s.written m.src m.dst size).filter (fun x => !(decide (m.src ≤ 64 * x.1) && decide (64 * x.1 < m.src + size)))
    moves := (s.moves.erase m).map (fun x => { x with leaf := f x.leaf })
    frames := s.frames ++ [(m.src, m.bits, tierOf (old.extractLsb' 62 2))]
    reds := s.reds.map (Red.follow f)
    promos := s.promos.map (fun p => (f p.1, p.2))
    inbox := s.inbox.map (fun x => (x.1, x.2.1, followMsg f x.2.2))
    inbound := s.inbound.map (fun x => (x.1, { x.2 with stores := x.2.stores.map (fun y => (f y.1, y.2)) }))
    cores := s.cores.map (fun pk => (pk.1, pk.2.follow f))
    bus := s.bus.map (BusJob.follow m.src m.dst size)
    ctxs := s.ctxs.map (fun kc => (kc.1, kc.2.follow f)) }
  (s2.writeQuiet 0xFFFF (place (f m.leaf) (bytesOfNat 8 pte.toNat))).dropTlbs (rootAsid m.root) .page (BitVec.ofNat 64 m.va)

/-- What becomes of a page that is to move (R204, R205, R403): it need not move, or cannot; its move is under way; it starts. -/
inductive MoveRes where
  | none
  | busy
  | start (m : Move)
  deriving DecidableEq, Repr

/-- A free frame of a tier for a page of `bits` bits (log 4): it lies in that tier, in no stack that has left the package (R9, R14). -/
def State.freeFrame (s : State) (bits : Nat) (tier : Tier) : Option Nat :=
  (s.frames.find? (fun x => x.2.1 == bits && x.2.2 == tier && tierAt x.1 == tier && !s.dram.goneAt x.1)).map (fun x => x.1)

/-- Whether the page of a leaf moves. -/
def State.tryMove (s : State) (root : BitVec 64) (va : Nat) (l : Leaf) (tier : Tier) : MoveRes :=
  if !l.pte.getLsbD 61 || tierOf (l.pte.extractLsb' 62 2) == tier then .none
  else if l.pte.getLsbD 60 then .busy
  else
    match s.freeFrame l.bits tier with
    | some dst => .start { root := root, va := va, leaf := l.addr, bits := l.bits, src := ptePa l.pte, dst := dst, tier := tier }
    | none => .none

/-- MIGRATION_MOVE (R204, R205): a move that has started goes on to its end, once no adapter holds the old translation; the engine starts one of its own where the page's access
count passes its thresholds (log 4). -/
def execMigrationMove (root : BitVec 64) (va : Nat) (tier : Tier) (s : State) : Out :=
  match s.moves.find? (fun m => m.root == root && m.va == va && m.tier == tier) with
  | some m =>
    let drop (t : TlbEnt) : Bool := t.dropped (rootAsid m.root) .page (BitVec.ofNat 64 m.va)
    if (s.adapterHolds drop).isEmpty then .next (s.endMove m) else .next { s with invs := (s.invs ++ s.adapterHolds drop).eraseDups }
  | none =>
    match walk s.dram root va with
    | .error _ => .next s
    | .ok l =>
      match s.tryMove root va l tier with
      | .start m =>
        if Config.countsPass (s.counts.get 0 (ptePa l.pte)) s.free then .next (s.startMove m l.pte) else .next s
      | _ => .next s

/-! ## Promotion -/

/-- Converts one element exactly: a NaN keeps its payload. An element whose address does not translate is left out, and one that is lost
counts as zero (logs 110, 111). -/
def State.promoteOne (s : State) (root : BitVec 64) (r : Shape) (x : Nat) : State :=
  match peek s.dram root (BitVec.ofNat 64 (r.nearAddr 2 x)) .read, peek s.dram root (BitVec.ofNat 64 (r.promo + 4 * x)) .write with
  | .ok src, .ok dst =>
    let v := (s.dram.word src 2).toNat * 65536
    s.writeQuiet 0xFFFF (place dst (bytesOfNat 4 v))
  | _, _ => s

/-- The granules of the elements at BASE, by physical address, each once. -/
def State.baseBytes (s : State) (root : BitVec 64) (r : Shape) (n : Nat) : List Nat :=
  (List.range n).flatMap (fun x => match peek s.dram root (BitVec.ofNat 64 (r.nearAddr 2 x)) .read with
    | .ok pa => [pa, pa + 1]
    | .error _ => [])

/-- Vacates the granules that the bytes cover whole, lost ones among them, and zeroes the other bytes (log 111). -/
def Mem.takeBytes (m : Mem) (as : List Nat) : Mem :=
  (gransOf as).foldl (fun m g =>
    if (List.range 64).all (fun i => as.contains (64 * g + i)) then m.vacate 64 (64 * g)
    else as.foldl (fun k a => if a / 64 = g then k.poke a 0 else k) m) m

/-- The granules that a promotion writes: those of the record, of BASE and of the promoted region. -/
def State.promoGrans (s : State) (root : BitVec 64) (r : Shape) (pa n : Nat) : List Nat :=
  gransOf (pa :: s.baseBytes root r n ++ (List.range n).flatMap (fun x =>
    match peek s.dram root (BitVec.ofNat 64 (r.promo + 4 * x)) .write with
    | .ok d => [d, d + 3]
    | .error _ => []))

/-- PROMOTION_COMPLETE (R161, R177, R185, R217): once the adds that had reached the slice are applied, and no pinned leg or page move holds a
granule of it, every element of the tensor is converted exactly, BASE is vacated, ACCF becomes 0b11. -/
def execPromotionComplete (k : Nat) (s : State) : Out :=
  match s.promos[k]? with
  | none => .next s
  | some (pa, root) =>
    let r := Shape.ofRec (recOfBytes (s.dram.bytes pa 64))
    let n := r.d0 * r.d1 * r.d2 * r.d3
    let s0 := { s with promos := s.promos.eraseIdx k }
    if s.reds.any (fun q => q.kind == 3 && q.pa == pa && q.early) then .next s
    else if r.accf = 1 then
      if s.writeHeld none (s.promoGrans root r pa n) then .next s
      else
        let as := s0.baseBytes root r n
        let s1 := (List.range n).foldl (fun t x => t.promoteOne root r x) s0
        let d := s1.dram.takeBytes as
        let kept := (gransOf as).filter (fun g => d.unit 64 (64 * g) == .present)
        let s2 := { s1 with dram := d, stamps := stampAll 0xFFFF s1.stamps kept }
        let b := s2.dram.byte (pa + 0x28)
        .next (s2.writeQuiet 0xFFFF [(pa + 0x28, b ||| 0x30)])
    else .next s0

end Sys2Proof.Machine
end

