-- ==== Sys2Proof/Machine/Copy.lean ====
section
/-!
DEFINITION. The copy engine (R66 to R70, R79, R123, R163 to R184, R220, R364 to R369, R381, R385, R386, R403, R433 to R435,
R438, R446 to R448, R491, R494): the issue of copy words, the start of commands, their units, and their signals.
-/
namespace Sys2Proof.Machine

/-! ## Channels -/

/-- The channel of a sequencer (R66): inbound for load, outbound for store. -/
def Ctx.chan (c : Ctx) (e : Eng) : Chan :=
  match e with
  | .inb => c.inb
  | _ => c.outb

/-- Replaces a channel. -/
def Ctx.setChan (c : Ctx) (e : Eng) (k : Chan) : Ctx :=
  match e with
  | .inb => { c with inb := k }
  | _ => { c with outb := k }

/-- The engine that a sequencer's copy words use. -/
def engOf (q : Sq) : Eng := if q = .load then .inb else .outb

/-- The other channel of the core. -/
def otherEng : Eng → Eng
  | .inb => .outb
  | _ => .inb

/-- The sequencer that issues to a channel. -/
def sqOfEng : Eng → Sq
  | .inb => .load
  | _ => .store

/-- The number of a channel's accesses to other packages. -/
def engNo (e : Eng) : Nat := if e = .inb then 1 else 2

/-- The physical ranges of pieces. -/
def pieceRanges (ps : List Piece) : List (Nat × Nat) := ps.map (fun p => (p.2.1, p.2.2))

/-- The word that a command came from: its fields. -/
def copyOf : Instr → Option (Hd × CopyF)
  | .cpy h c | .dup h c | .gthr h c _ | .sctr h c _ | .xfer h c | .canf h c | .canr h c | .zfil h c | .sstr h c | .spf h c
  | .migr h c | .rqnt h c => some (h, c)
  | _ => none

/-- The command takes its source (R170). -/
def takes : Instr → Bool
  | .cpy .. | .canf .. | .canr .. | .xfer .. => true
  | .gthr _ _ dup | .sctr _ _ dup => !dup
  | _ => false

/-- Number of the broadcast that issues a word (0: none). -/
def Seqr.bcastId (x : Seqr) : Nat := (x.bcast.map (fun b => b.no)).getD 0

/-- A matrix word that rides with a copy word, as it is offered to the array (R70). -/
def offerOf (k : Chained) (idx bno : Nat) (cancel : Bool) : MCmd :=
  { op := k.op, f := k.f, wait := k.wait, sig := k.sig, da := 0, dm := 0, idx := idx, chained := true, cancel := cancel,
    bno := bno, no := 0, rows := false, exps := [], due := none, born := 0 }

/-! ## Issue -/

/-- The first local address of a range that lies outside `limit` (R164), with the kind of access. -/
def outOfRange (a : BitVec 64) (n limit : Nat) (acc : BitVec 3) : Option TrapRec :=
  if n = 0 ∨ a.toNat + n ≤ limit then none
  else some { rangeTrap (max a.toNat limit) with acc := acc }

/-- The range check of one side (R164); a global side has none. -/
def Ctx.sideTrap (c : Ctx) (sp : Space) (a : BitVec 64) (n : Nat) (acc : BitVec 3) : Option TrapRec :=
  if sp = .global then none else outOfRange a n (c.limitOf sp) acc

/-- ENGINE of a canopy side under NOCAN, or of a chained word under NOMX (R25, R70). -/
def Ctx.copyEngine (c : Ctx) (f : CopyF) (sides : List Space) : Option TrapRec :=
  if (c.nocan && sides.contains .can) || (c.nomx && f.chain.isSome) then some engineTrap else none

/-- The to address (R367). -/
def Seqr.toAddr (x : Seqr) (f : CopyF) : BitVec 64 := x.pair f.toP + f.toOff.signExtend 64

/-- The from address (R367). -/
def Seqr.fromAddr (x : Seqr) (f : CopyF) : BitVec 64 := x.pair f.fromP + f.fromOff.signExtend 64

/-- A command as a copy word writes it (R367). -/
def Ctx.cmd (c : Ctx) (q : Sq) (w : Instr) (dst src : BitVec 64) (len arg : Nat) (list : List Nat) : Cmd :=
  { word := w, idx := (c.seqr q).pc, dst := dst.toNat, src := src.toNat, len := len, arg := arg, list := list, dc := 0
    cancel := false, legs := c.legs, other := (c.chan (otherEng (engOf q))).issued, stamp := c.stamp
    bno := (c.seqr q).bcastId, once := false }

/-- Writes the shadow command registers (R66). -/
def Ctx.push (c : Ctx) (q : Sq) (k : Cmd) : Ctx :=
  let ch := c.chan (engOf q)
  c.setChan (engOf q) { ch with shadow := some k, issued := ch.issued + 1 }

/-- A cancelled copy word offers its chained word for its wait and its signal (R70, R79). -/
def offerCancelled (c0 : Ctx) (q : Sq) (f : CopyF) (o : Out) : Out :=
  match o, f.chain with
  | .next s, some k =>
    if c0.cancelled q ∧ s.last = .issued then
      match s.ctx c0.cid with
      | some c => .next (s.setCtx { c with offers := c.offers ++ [offerOf k (c0.seqr q).pc 0 true] })
      | none => .next s
    else .next s
  | o, _ => o

/-- The shared part of copy words, whose accesses are of kind `acc` (R296): `k` makes the checks of the issue and gives the trap or
the command. -/
def copyWord (acc : BitVec 3) (h : Hd) (f : CopyF) (s : State) (rs : List (BitVec 5))
    (k : State → Ctx → Seqr → (State → Cmd → Res) → Res) : Out :=
  accOut acc <| match s.activeCtx s.focus.1 with
  | none => .fault .noContext
  | some c0 =>
    let q := s.focus.2
    offerCancelled c0 q f (runWord h (if f.chain.isSome then 3 else 1) true s (fun s c =>
      if (c.chan (engOf q)).shadow.isSome then .stall s c
      else reading s c rs (fun x => k s c x (fun s1 cmd => .done s1 (c.push q cmd) .none true))))

/-- The first trap of a list of checks. -/
def firstTrap (ts : List (Option TrapRec)) : Option TrapRec := (ts.filterMap id).head?

/-- Goes on unless a check trapped. -/
def checked (s : State) (ts : List (Option TrapRec)) (k : Res) : Res :=
  match firstTrap ts with
  | some t => .trap s t
  | none => k

/-- CPY, DUP: the range checks, then ENGINE (R25, R164, R367, R369, R381; log 44). -/
def plainCopy (h : Hd) (f : CopyF) (w : Instr) (s : State) : Out :=
  copyWord 2 h f s (pairRegs f.toP ++ pairRegs f.fromP ++ [f.len]) (fun s c x k =>
    let n := (x.reg f.len).toNat
    checked s [c.sideTrap f.tsp (x.toAddr f) n 1, c.sideTrap f.fsp (x.fromAddr f) n 0, c.copyEngine f [f.tsp, f.fsp]]
      (k s (c.cmd s.focus.2 w (x.toAddr f) (x.fromAddr f) n 1 [])))

/-- CPY (R367 to R369). -/
def execCpy (h : Hd) (f : CopyF) (s : State) : Out := plainCopy h f (.cpy h f) s

/-- DUP (R381). -/
def execDup (h : Hd) (f : CopyF) (s : State) : Out := plainCopy h f (.dup h f) s

/-- ALIGN of a list address (R385, R438). -/
def listAlign (l : BitVec 64) : Option TrapRec := if l.toNat % 8 ≠ 0 then some (alignTrap l .read) else none

/-- LEN of `p` pieces of `b` bytes (R385, R438). -/
def listLen (b p : Nat) : Option TrapRec := if 2 ^ 32 - 1 < b * p then some (mkTrap 0x0C (BitVec.ofNat 32 b)) else none

/-- LOCALRANGE of the list and of the local data (R385, R438). -/
def listRange (c : Ctx) (sp : Space) (l d : BitVec 64) (b p : Nat) (acc : BitVec 3) : List (Option TrapRec) :=
  if b * p = 0 then [] else [outOfRange l (8 * p) c.spLimit 0, c.sideTrap sp d (b * p) acc]

/-- The registers of an even pair. -/
def lenPair (n : BitVec 5) : List (BitVec 5) := [n, n + 1]

/-- GTHR (R385, R386): ALIGN, LEN, LOCALRANGE, ENGINE (log 44). -/
def execGthr (h : Hd) (f : CopyF) (dup : Bool) (s : State) : Out :=
  copyWord 2 h f s (pairRegs f.toP ++ pairRegs f.fromP ++ lenPair f.len) (fun s c x k =>
    let b := (x.reg f.len).toNat
    let p := (x.reg (f.len + 1)).toNat
    checked s (listAlign (x.fromAddr f) :: listLen b p :: listRange c f.tsp (x.fromAddr f) (x.toAddr f) b p 1 ++
        [c.copyEngine f [f.tsp]])
      (k s (c.cmd s.focus.2 (.gthr h f dup) (x.toAddr f) (x.fromAddr f) b p [])))

/-- SCTR (R438): ALIGN, LEN, LOCALRANGE, ENGINE. -/
def execSctr (h : Hd) (f : CopyF) (dup : Bool) (s : State) : Out :=
  copyWord 2 h f s (pairRegs f.toP ++ pairRegs f.fromP ++ lenPair f.len) (fun s c x k =>
    let b := (x.reg f.len).toNat
    let p := (x.reg (f.len + 1)).toNat
    checked s (listAlign (x.toAddr f) :: listLen b p :: listRange c f.fsp (x.toAddr f) (x.fromAddr f) b p 0 ++
        [c.copyEngine f [f.fsp]])
      (k s (c.cmd s.focus.2 (.sctr h f dup) (x.toAddr f) (x.fromAddr f) b p [])))

/-- The canopy checks of CANF and CANR (R184, R364): LEN of the length rule, then LOCALRANGE of the bank extent. `tr` is TR. -/
def canopyTraps (tr : Bool) (a : BitVec 64) (n : Nat) : List (Option TrapRec) :=
  let bad : Bool := n % (if tr then 128 else 64) != 0
  let extent := if tr then 2 * (n / 128) else n / 64
  [ if bad then some (mkTrap 0x0C (BitVec.ofNat 32 n)) else none,
    if n != 0 && (a.toNat / 2 ^ 17 != 0 || decide (131072 < a.toNat % 2 ^ 17 + extent)) then
      some (mkTrap 0x0A (a.setWidth 32)) else none ]

/-- CANF (R184, R364, R365). -/
def execCanf (h : Hd) (f : CopyF) (s : State) : Out :=
  copyWord 2 h f s (pairRegs f.toP ++ pairRegs f.fromP ++ [f.len]) (fun s c x k =>
    let n := (x.reg f.len).toNat
    checked s (c.copyEngine f [.can] :: canopyTraps f.b6 (x.toAddr f) n ++ [c.sideTrap f.fsp (x.fromAddr f) n 0])
      (k s (c.cmd s.focus.2 (.canf h f) (x.toAddr f) (x.fromAddr f) n 1 [])))

/-- CANR (R184, R364, R365). -/
def execCanr (h : Hd) (f : CopyF) (s : State) : Out :=
  copyWord 2 h f s (pairRegs f.toP ++ pairRegs f.fromP ++ [f.len]) (fun s c x k =>
    let n := (x.reg f.len).toNat
    checked s (c.copyEngine f [.can] :: canopyTraps false (x.fromAddr f) n ++ [c.sideTrap f.tsp (x.toAddr f) n 1])
      (k s (c.cmd s.focus.2 (.canr h f) (x.toAddr f) (x.fromAddr f) n 1 [])))

/-- A member of the company that has not retired (R44). -/
def State.alive (s : State) (lid : BitVec 48) (idx : Nat) : Bool := (s.member lid idx).isSome

/-- XFER (R30, R491). -/
def execXfer (h : Hd) (f : CopyF) (s : State) : Out :=
  copyWord 2 h f s (pairRegs f.toP ++ pairRegs f.fromP ++ lenPair f.len) (fun s c x k =>
    let n := (x.reg f.len).toNat
    let t := (x.reg (f.len + 1)).toNat
    checked s
      [ if c.isTask then some outctxTrap else none,
        if c.isHandler then some modeTrap else none,
        if c.noxf then some engineTrap else none,
        if !c.phase then some (mkTrap 0x04 0) else none,
        if c.size ≤ t ∨ s.alive c.lid t = false then some (mkTrap 0x05 (BitVec.ofNat 32 t)) else none,
        c.sideTrap .sp (x.fromAddr f) n 0, c.sideTrap .sp (x.toAddr f) n 1 ]
      (k s (c.cmd s.focus.2 (.xfer h f) (x.toAddr f) (x.fromAddr f) n t [])))

/-- ZFIL (R494). -/
def execZfil (h : Hd) (f : CopyF) (s : State) : Out :=
  copyWord 1 h f s (pairRegs f.toP ++ [f.len]) (fun s c x k =>
    let n := (x.reg f.len).toNat
    checked s [c.sideTrap f.tsp (x.toAddr f) n 1, c.copyEngine f [f.tsp]]
      (k s (c.cmd s.focus.2 (.zfil h f) (x.toAddr f) 0 n 1 [])))

/-- SPF (R446). -/
def execSpf (h : Hd) (f : CopyF) (s : State) : Out :=
  copyWord 0 h f s (pairRegs f.fromP ++ [f.len]) (fun s c x k =>
    k s (c.cmd s.focus.2 (.spf h f) 0 (x.fromAddr f) (x.reg f.len).toNat 1 []))

/-- MIGR (R403). -/
def execMigr (h : Hd) (f : CopyF) (s : State) : Out :=
  copyWord 0 h f s (pairRegs f.fromP ++ [f.len]) (fun s c x k =>
    k s (c.cmd s.focus.2 (.migr h f) 0 (x.fromAddr f) (x.reg f.len).toNat 1 []))

/-- Translates the pieces of a bulk read at its word, so that a fault is precise (R199). -/
def touch (s : State) (c : Ctx) (k : State → Res) : List (BitVec 64 × Nat) → Res
  | [] => k s
  | (a, _) :: r =>
    match s.translate c a .read with
    | .fault x => .trap s (xTrap s.free x a .read)
    | .busy => .stall s c
    | .ok _ s1 => touch s1 c k r

/-- SSTR (R199, R447). -/
def execSstr (h : Hd) (f : CopyF) (s : State) : Out :=
  copyWord 0 h f s (pairRegs f.fromP) (fun s c x k =>
    let a := x.fromAddr f
    let go (s : State) : Res := k s (c.cmd s.focus.2 (.sstr h f) (f.toOff.zeroExtend 64) a 32 1 [])
    checked s [if a.toNat % 8 ≠ 0 then some (alignTrap a .read) else none, c.sideTrap f.fsp a 32 0]
      (if f.fsp = .global then touch s c go (splitPieces a 2 32) else go s))

/-- The class of a copy command's accesses (R232). -/
def Ctx.bulkCls (c : Ctx) : AccCls := if c.isTask then .outrider else .bulk

/-- RACE, then WATCH, of the pieces that an access reads or takes (`src`, of kind `acc`) and writes (`dst`); then OUTSTORE of
what a task writes (R232, R242, R322). -/
def State.bulkTests (s : State) (c : Ctx) (skip : Bool) (acc : BitVec 3) (src dst : List Piece) : Except TrapRec State :=
  match s.racePieces c c.bulkCls acc src with
  | .error t => .error t
  | .ok s1 =>
    match s1.racePieces c c.bulkCls 1 dst with
    | .error t => .error t
    | .ok s2 =>
      let k := s2.core c.core
      match (if skip then none else (k.watchPieces acc src).orElse (fun _ => k.watchPieces 1 dst)) with
      | some t => .error t
      | none =>
        match dst.findSome? (fun p => c.outstore p.1 p.2.2) with
        | some t => .error t
        | none => .ok s2

/-- A shape record read at issue by RQNT (R433): one 64-byte read. -/
def readRecord (s : State) (c : Ctx) (va : BitVec 64) (k : State → BitVec 512 → BitVec 5 → Res) : Res :=
  match s.reach c none .read [] [(va, 64)] with
  | .trap s1 t => .trap s1 t
  | .stall => .stall s c
  | .dead => .dead .deviceWindow
  | .ok s0 ps =>
    match s0.fetchFar c (engNo (engOf s.focus.2)) (pieceRanges ps) with
    | (false, s1) => .stall (s.asking s1) c
    | (true, s1) =>
    match s1.readPieces c (fun _ => true) va.toNat 0 ps with
    | .trap t => .trap s1 t
    | .ok bs f =>
      match s1.bulkTests c (c.seqr s.focus.2).once.watch 0 ps [] with
      | .error t => .trap s1 t
      | .ok s2 => k s2 (recOfBytes bs) f

/-- The check of RQNT's master record (R433). -/
def masterOk (r : BitVec 512) : Bool :=
  let m := Shape.ofRec r
  m.ok r && (m.fmt == Fmt.fp32.code || m.fmt == Fmt.fp16.code || m.fmt == Fmt.bf16.code) && m.d2 == 1 && m.d3 == 1

/-- The check of RQNT's target record against its master, on logical sizes (R188, R433; log 90). -/
def targetOk (rm r : BitVec 512) : Bool :=
  let m := Shape.ofRec rm
  let t := Shape.ofRec r
  t.ok r && (t.fmt == Fmt.e4m3.code || t.fmt == Fmt.e5m2.code || t.fmt == Fmt.i8.code) && t.d2 == 1 && t.d3 == 1 &&
    t.n0 == m.n1 && t.n1 == m.n0 && t.n0 % 32 == 0 && t.accf == 0 && t.promo != 0

/-- RQNT (R433): the records' 512 bits go into the command, the master's checked before the target is read. -/
def execRqnt (h : Hd) (f : CopyF) (s : State) : Out :=
  copyWord 2 h f s (pairRegs f.toP ++ pairRegs f.fromP) (fun s c x k =>
    let m := x.fromAddr f
    let t := x.toAddr f
    checked s [if m.toNat % 64 ≠ 0 then some (alignTrap m .read) else none,
               if t.toNat % 64 ≠ 0 then some (alignTrap t .read) else none]
      (readRecord s c m (fun s1 rm f1 =>
        if !masterOk rm then .trap s1 { shapeTrap m with flags := f1 }
        else readRecord s1 c t (fun s2 rt f2 =>
          if !targetOk rm rt then .trap s2 { shapeTrap t with flags := f1 ||| f2 }
          else
            match k s2 (c.cmd s.focus.2 (.rqnt h f) t m 0 1 [rm.toNat, rt.toNat]) with
            | .done s3 c3 j g => .done s3 (c3.flagAt s.focus.2 none (f1 ||| f2)) j g
            | r => r))))

/-! ## Units -/

/-- Units of one piece (R171). -/
def unitsOf (b : Nat) : Nat := (b + 1) / 2

/-- Units of a command (R171, R403, R435, R447); SPF counts as one. -/
def Cmd.units (k : Cmd) : Nat :=
  match k.word with
  | .gthr .. | .sctr .. => k.arg * unitsOf k.len
  | .sstr .. => 1
  | .spf .. => if k.len = 0 then 0 else 1
  | .migr .. => if k.len = 0 then 0 else k.dc + 1
  | .rqnt .. =>
    let t := Shape.ofRec (BitVec.ofNat 512 (k.list[1]?.getD 0))
    t.n1 * (t.n0 / 32)
  | _ => unitsOf k.len

/-- Every unit of the command is done. -/
def Cmd.finished (k : Cmd) : Bool := decide (k.units ≤ k.dc)

/-- The piece, the offset in it and the number of bytes of the next unit. -/
def Cmd.place (k : Cmd) : Nat × Nat × Nat :=
  let u := unitsOf k.len
  let j := k.dc % u
  (k.dc / u, 2 * j, min 2 (k.len - 2 * j))

/-- The canopy address of transfer byte `b` (R184, R365). -/
def canopyAt (tr : Bool) (o len b : Nat) : Nat :=
  if tr then (b / 2 % 64) * 2 ^ 17 + o + 2 * (b / 128) + b % 2
  else b / (len / 64) * 2 ^ 17 + o + b % (len / 64)

/-- The transfer byte that lies at canopy address `a` (the inverse of `canopyAt` for TR = 0). -/
def canopyByte (o len a : Nat) : Nat := a / 2 ^ 17 * (len / 64) + (a % 2 ^ 17 - o)

/-- One unit: the spaces and addresses of its source and destination bytes; which source bytes the command has taken before
this unit, and with it. -/
structure Job where
  fsp  : Space
  fro  : List Nat
  tsp  : Space
  dest : List Nat
  old  : Nat → Bool
  new  : Nat → Bool

/-- The bytes from an address on. -/
def run (a n : Nat) : List Nat := (List.range n).map (a + ·)

/-- A range holds an address. -/
def inRun (b n a : Nat) : Bool := decide (b ≤ a) && decide (a < b + n)

/-- A job whose source bytes are one range that starts at `src`; `done` bytes were taken before. -/
def lineJob (fsp tsp : Space) (src done n : Nat) (dest : List Nat) : Job :=
  { fsp := fsp, fro := run (src + done) n, tsp := tsp, dest := dest, old := inRun src done, new := inRun src (done + n) }

/-- A source byte of GTHR lies in a piece taken before piece `i`, or in the first `m` bytes of piece `i`. -/
def gatherTaken (es : List Nat) (b i m a : Nat) : Bool :=
  (es.take i).any (fun e => inRun e b a) || (match es[i]? with
    | some e => inRun e m a
    | none => false)

/-- The next unit of a plain command (R171, R365, R385, R386, R438). None for the commands of other kinds. -/
def Cmd.job (k : Cmd) : Option Job :=
  let (i, off, n) := k.place
  match k.word with
  | .cpy _ f | .dup _ f => some (lineJob f.fsp f.tsp k.src off n (run (k.dst + off) n))
  | .xfer .. => some (lineJob .sp .sp k.src off n (run (k.dst + off) n))
  | .zfil _ f => some (lineJob f.tsp f.tsp k.dst off n (run (k.dst + off) n))
  | .canf _ f =>
    some (lineJob f.fsp .can k.src off n ((run off n).map (canopyAt f.b6 (k.dst % 2 ^ 17) k.len)))
  | .canr _ f =>
    let o := k.src % 2 ^ 17
    some { fsp := .can, fro := (run off n).map (canopyAt false o k.len), tsp := f.tsp, dest := run (k.dst + off) n,
           old := fun a => decide (o ≤ a % 2 ^ 17) && decide (a % 2 ^ 17 < o + k.len / 64) && decide (canopyByte o k.len a < off)
           new := fun a => decide (o ≤ a % 2 ^ 17) && decide (a % 2 ^ 17 < o + k.len / 64) &&
             decide (canopyByte o k.len a < off + n) }
  | .gthr _ f _ =>
    let e := k.list[i]?.getD 0
    some { fsp := .global, fro := run (e + off) n, tsp := f.tsp, dest := run (k.dst + k.len * i + off) n,
           old := gatherTaken k.list k.len i off, new := gatherTaken k.list k.len i (off + n) }
  | .sctr _ f _ =>
    let e := k.list[i]?.getD 0
    some (lineJob f.fsp .global k.src (k.len * i + off) n (run (e + off) n))
  | _ => none

/-- The pieces of consecutive global addresses. -/
def piecesOf (as : List Nat) : List (BitVec 64 × Nat) :=
  match as with
  | [] => []
  | a :: _ => splitPieces (BitVec.ofNat 64 a) 2 as.length

/-- Local addresses that follow one another. -/
def consecutive : List Nat → Bool
  | [] => true
  | [_] => true
  | a :: b :: r => (b == a + 1) && consecutive (b :: r)

/-- Reads local bytes one after another. -/
def Ctx.readBytes (c : Ctx) (sp : Space) (dc : Nat) (bs : List Byte) (f : BitVec 5) : List Nat → Read
  | [] => .ok bs f
  | a :: r =>
    match c.readLocal sp a 1 0 dc with
    | .trap t => .trap t
    | .ok b g => Ctx.readBytes c sp dc (bs ++ b) (f ||| g) r

/-- Reads the local source bytes of a unit. -/
def Ctx.readUnit (c : Ctx) (sp : Space) (as : List Nat) (dc : Nat) : Read :=
  match as with
  | [] => .ok [] 0
  | a :: _ => if consecutive as then c.readLocal sp a as.length 0 dc else c.readBytes sp dc [] 0 as

/-- The take of one vacancy unit of `u` bytes (R170): `base` is its address as the command names it, `m` its memory, `a` its
address there, `as` the taken bytes there. With `fill` a vacated unit that is taken only in part becomes present with its taken
bytes zero, as a canopy unit does (R365). -/
def takeUnit (u : Nat) (fill : Bool) (new : Nat → Bool) (base : Nat) (m : Mem) (a : Nat) (as : List Nat) : Mem :=
  let all := (List.range u).all (fun i => new (base + i))
  match m.unit u a with
  | .present => if all then m.vacate u a else as.foldl (fun k x => if x / u = a / u then k.poke x 0 else k) m
  | .vacated => if fill && !all then m.mark (a / u) .present else if fill then m.vacate u a else m
  | .lost => m

/-- The take of local bytes. -/
def takeLocal (fill : Bool) (new : Nat → Bool) (as : List Nat) (m : Mem) : Mem :=
  ((as.map (· / 2)).eraseDups).foldl (fun k g => takeUnit 2 fill new (2 * g) k (2 * g) as) m

/-- The take of the bytes of a piece in DRAM. -/
def takePiece (new : Nat → Bool) (m : Mem) (p : Piece) : Mem :=
  let as := run p.2.1 p.2.2
  (gransOf as).foldl (fun k g => takeUnit 64 false new (p.1.toNat / 64 * 64 + (64 * g - p.2.1 / 64 * 64)) k (64 * g) as) m

/-- Changes a context. -/
def State.onCtx (s : State) (cid : Nat) (f : Ctx → Ctx) : State :=
  match s.ctx cid with
  | some c => s.setCtx (f c)
  | none => s

/-- Changes bytes of one local memory of a context. -/
def Ctx.onLocal (c : Ctx) (sp : Space) (as : List Nat) (f : Mem → Mem) : Ctx :=
  match sp with
  | .can => { c with can := f c.can }.unveil (as.map (localKey .can))
  | _ => { c with sp := f c.sp }.unveil as

/-- Changes bytes of the scratchpad of a member, and of the copy that its handler sees. -/
def State.onPlots (s : State) (lid : BitVec 48) (idx : Nat) (as : List Nat) (f : Mem → Mem) : State :=
  { s with ctxs := s.ctxs.map (fun kc =>
      (kc.1, if kc.2.lid == lid && kc.2.idx == idx && !kc.2.isTask then kc.2.onLocal .sp as f else kc.2)) }

/-- Makes lost words that a ZFIL covers whole present with zeros, once their last byte is written (R494): `lo` and `hi` bound
the bytes that the command has written. -/
def healLocal (lo hi : Nat) (as : List Nat) (m : Mem) : Mem :=
  ((as.map (· / 8)).eraseDups).foldl (fun k w =>
    if lo ≤ 8 * w ∧ 8 * w + 8 ≤ hi ∧ k.unit 2 (8 * w) = .lost then k.heal 2 8 (8 * w) else k) m

/-- The same for a piece in DRAM. -/
def healPiece (lo hi : Nat) (m : Mem) (p : Piece) : Mem :=
  (gransOf (run p.2.1 p.2.2)).foldl (fun k g =>
    let va := p.1.toNat / 64 * 64 + (64 * g - p.2.1 / 64 * 64)
    if lo ≤ va ∧ va + 64 ≤ hi ∧ k.unit 64 (64 * g) = .lost then k.heal 64 64 (64 * g) else k) m

/-- What a unit gives; `wait` has begun something that must end before the unit is done. -/
inductive UStep where
  | ok (s : State)
  | wait (s : State)
  | trap (s : State) (t : TrapRec)
  | stall
  | dead

/-- The physical bytes of pieces with their values. -/
def pieceBytes : List Piece → List Byte → List (Nat × Byte)
  | [], _ => []
  | (_, pa, n) :: r, bs => place pa (bs.take n) ++ pieceBytes r (bs.drop n)

/-- Physical granules of pieces. -/
def piecesGrans (ps : List Piece) : List Nat := (ps.flatMap (fun p => gransOf (run p.2.1 p.2.2))).eraseDups

/-- The release scope that a copy's writes carry. -/
def CopyF.release (f : CopyF) : Scope := if f.rel then f.scope else .core

/-- The write of a unit in DRAM (R167, R177, R216, R494). -/
def State.writePieces (s : State) (c : Ctx) (e : Eng) (k : Cmd) (f : CopyF) (ps : List Piece) (bs : List Byte) : State :=
  let w := pieceBytes ps bs
  let s1 := ((s.note (gransOf (w.map Prod.fst))).writeAs c c.bulkCls (CopyF.release f) k.stamp w).sendFar c (engNo e) w
  match k.word with
  | .zfil .. => { s1 with dram := ps.foldl (healPiece k.dst (k.dst + min k.len (2 * k.dc + 2))) s1.dram }
  | _ => s1

/-- The write of a unit in local memory. -/
def State.writeLocal (s : State) (c : Ctx) (k : Cmd) (sp : Space) (as : List Nat) (bs : List Byte) : State :=
  let w (m : Mem) : Mem := m.store 2 8 (as.zip bs)
  match k.word with
  | .xfer .. => s.onPlots c.lid k.arg as w
  | .zfil .. => s.onCtx c.cid (fun d => d.onLocal sp as (fun m => healLocal k.dst (k.dst + min k.len (2 * k.dc + 2)) as (w m)))
  | _ => s.onCtx c.cid (fun d => d.onLocal sp as w)

/-- The stream TLB of a channel's source or destination (R196). -/
def streamPort (e : Eng) (dest : Bool) : Nat := (if e = .inb then 0 else 2) + (if dest then 1 else 0)

/-- Translates one side of a unit, which has no pieces where it is local (R196, R199). -/
def State.reachSide (s : State) (c : Ctx) (port : Nat) (k : Need) (sp : Space) (as : List Nat) (go : State → List Piece → UStep) :
    UStep :=
  if sp = .global then
    match s.reach c (some port) k [] (piecesOf as) with
    | .trap s1 t => .trap s1 t
    | .stall => .stall
    | .dead => .dead
    | .ok s1 ps => go s1 ps
  else go s []

/-- OUTSTORE of local bytes that a unit of a task writes into its undo stack (R242). -/
def Ctx.undoUnit (c : Ctx) (sp : Space) (as : List Nat) : Option TrapRec :=
  (as.find? (fun a => (c.undoHit sp a 1).isSome)).map (fun a => outstoreTrap (BitVec.ofNat 64 a))

/-- OUTSTORE of the source that CPY takes in a task (R242, R381; log 105). -/
def Ctx.takeOut (c : Ctx) (k : Cmd) (j : Job) (src : List Piece) : Option TrapRec :=
  match k.word with
  | .cpy .. => if j.fsp = .global then src.findSome? (fun p => c.outstore p.1 p.2.2) else c.undoUnit j.fsp j.fro
  | _ => none

/-- What follows the reads of a unit: RACE, WATCH and OUTSTORE, and the waits of its writes (R205, R217, R232, R242, R322, R369).
`s0` is the state after the translation of the source. -/
def State.unitTests (s s0 : State) (c : Ctx) (k : Cmd) (take : Bool) (j : Job) (src dst : List Piece) (go : State → UStep) : UStep :=
  match s.bulkTests c k.once (if take then 2 else 0) src dst with
  | .error t => .trap s0 t
  | .ok s1 =>
    match (if j.tsp = .global then none else c.undoUnit j.tsp j.dest).orElse (fun _ => c.takeOut k j src) with
    | some t => .trap s0 t
    | none => if s1.writeHeld (some c) (piecesGrans ((if take then src else []) ++ dst)) then .stall else go s1

/-- The write of a unit. -/
def State.putUnit (s : State) (c : Ctx) (e : Eng) (k : Cmd) (f : CopyF) (j : Job) (dst : List Piece) (bs : List Byte) : State :=
  if j.tsp = .global then s.writePieces c e k f dst bs else s.writeLocal c k j.tsp j.dest bs

/-- The take of a unit's source in DRAM (R170, R175, R177): readers in legs are squashed, the take is recorded as a write, granules
that stay present carry the command's stamp, and waiters are tested. -/
def State.takePieces (s : State) (c : Ctx) (k : Cmd) (f : CopyF) (new : Nat → Bool) (ps : List Piece) : State :=
  let as := ps.flatMap (fun p => run p.2.1 p.2.2)
  let s1 := s.squash (piecesGrans ps)
  let d := ps.foldl (takePiece new) s1.dram
  let kept := (piecesGrans ps).filter (fun g => d.unit 64 (64 * g) == .present)
  (({ s1 with dram := d, stamps := stampAll k.stamp s1.stamps kept }.note kept).record c c.bulkCls (CopyF.release f) as).wake (some c.writer) as

/-- The take of a unit's source. -/
def State.takeSource (s : State) (c : Ctx) (k : Cmd) (f : CopyF) (j : Job) (src : List Piece) : State :=
  if !takes k.word then s
  else if j.fsp = .global then s.takePieces c k f j.new src
  else s.onCtx c.cid (fun d => d.onLocal j.fsp j.fro (takeLocal (j.fsp == .can) j.new j.fro))

/-- One unit of a plain command (R171): the translation of source and destination, the read, the tests, the write, the take. Bytes
that the command has taken before read as present zeros (R170). The write and the vacating are one step: no agent sees the unit at both places (R175;
log 119). -/
def State.plainUnit (s : State) (c : Ctx) (e : Eng) (k : Cmd) (f : CopyF) (j : Job) : UStep :=
  let take := takes k.word
  let zfil : Bool := match k.word with
    | .zfil .. => true
    | _ => false
  s.reachSide c (streamPort e false) (if take then .both else .read) j.fsp (if zfil then [] else j.fro) (fun s1 src =>
    s1.reachSide c (streamPort e true) .write j.tsp j.dest (fun s2x dst =>
      match s2x.fetchFar c (engNo e) (pieceRanges src) with
      | (false, s2) => .wait (s.asking s2)
      | (true, s2) =>
      match (if zfil then .ok (j.dest.map (fun _ => (0 : Byte))) 0
        else if j.fsp = .global then
          s2.readPieces c (fun x => !(take && j.old x.1)) 0 k.dc src
        else c.readUnit j.fsp j.fro k.dc) with
      | .trap t => .trap s1 t
      | .ok bs g =>
        s2.unitTests s1 c k take j src dst (fun s3 =>
          .ok (((s3.putUnit c e k f j dst bs).takeSource c k f j src).onCtx c.cid (fun d => d.flag g)))))

/-- A member to which an XFER still writes. While it is not resident the XFER waits (R492); once it has retired the XFER
traps (R30). -/
def State.xferReady (s : State) (c : Ctx) (k : Cmd) (go : UStep) : UStep :=
  match k.word with
  | .xfer .. =>
    match s.member c.lid k.arg with
    | none => .trap s { mkTrap 0x05 (BitVec.ofNat 32 k.arg) with acc := 2 }
    | some m => if m.resident then go else .stall
  | _ => go

/-- The unit of SSTR (R447, R448). -/
def State.sstrUnit (s : State) (c : Ctx) (e : Eng) (k : Cmd) (f : CopyF) : UStep :=
  let put (s : State) (bs : List Byte) (g : BitVec 5) : UStep :=
    .ok (s.onCtx c.cid (fun d => (d.setDescr (BitVec.ofNat 6 k.dst) (BitVec.ofNat 256 (natOfBytes bs))).flag g))
  if f.fsp = .global then
    match s.reach c (some (streamPort e false)) .read [] (splitPieces (BitVec.ofNat 64 k.src) 2 32) with
    | .trap s1 t => .trap s1 t
    | .stall => .stall
    | .dead => .dead
    | .ok s0 ps =>
      match s0.fetchFar c (engNo e) (pieceRanges ps) with
      | (false, s1) => .wait (s.asking s1)
      | (true, s1) =>
      match s1.readPieces c (fun _ => true) 0 0 ps with
      | .trap t => .trap s1 t
      | .ok bs g =>
        match s1.bulkTests c k.once 0 ps [] with
        | .error t => .trap s1 t
        | .ok s2 => put s2 bs g
  else
    match c.readLocal f.fsp k.src 32 0 0 with
    | .trap t => .trap s t
    | .ok bs g => put s bs g

/-- SPF's lookups of the pages from address `a` up to `stop` (R203, R446; log 106): the TLB entries of those that translate, and how
many do not or lack the right. -/
def State.lookups (s : State) (c : Ctx) (stop : Nat) : Nat → Nat → List TlbEnt × Nat
  | _, 0 => ([], 0)
  | a, fuel + 1 =>
    if stop ≤ a then ([], 0)
    else
      match (if a / 2 ^ 49 ≠ 0 then .error ⟨xlAddr, none, false⟩ else walk s.dram c.root a) with
      | .error _ =>
        let r := s.lookups c stop (a / 8192 * 8192 + 8192) fuel
        (r.1, r.2 + 1)
      | .ok l =>
        let r := s.lookups c stop (a / 2 ^ l.bits * 2 ^ l.bits + 2 ^ l.bits) fuel
        if allows l.pte .read then (l.entry (rootAsid c.root) a l.pte :: r.1, r.2) else (r.1, r.2 + 1)

/-- The unit of SPF (R446): its channel's stream TLB of the source holds the first two pages that translate (R196), and DISCARDXL
rises for those that do not (R203). -/
def State.spfUnit (s : State) (c : Ctx) (e : Eng) (k : Cmd) : State :=
  let r := s.lookups c (k.src + k.len) k.src (k.len / 8192 + 2)
  let k0 := s.core c.core
  s.setCore c.core ({ k0 with streams := k0.streams.set (streamPort e false) (r.1.take 2) }.bump 0x200 r.2)

/-- The unit of MIGR: the page that holds the cursor, whose move it starts and waits for (R403). The command's address and length then stand after it. -/
def State.migrUnit (s : State) (c : Ctx) (k : Cmd) (tier : Tier) : UStep × Cmd :=
  match s.translate c (BitVec.ofNat 64 k.src) .read with
  | .fault x => (.trap s (xTrap s.free x (BitVec.ofNat 64 k.src) .read), k)
  | .busy => (.stall, k)
  | .ok _ s1 =>
    match walk s1.dram c.root k.src with
    | .error x => (.trap s1 (xTrap s1.free x (BitVec.ofNat 64 k.src) .read), k)
    | .ok l =>
      match s1.tryMove c.root k.src l tier with
      | .busy => (.stall, k)
      | .start m => (.wait (s1.startMove m l.pte), k)
      | .none =>
        let step := 2 ^ l.bits - k.src % 2 ^ l.bits
        (.ok s1, { k with src := k.src + step, len := k.len - step })

/-! ## RQNT's blocks (R434) -/

/-- Virtual address, width and format of master element (j0, j1) (R185, R187; a promoted master, log 21). -/
def Shape.masterAt (m : Shape) (j0 j1 : Nat) : Nat × Fmt :=
  if m.accf = 3 then (m.promo + 4 * (j0 + m.n0 * j1), .fp32)
  else
    let ty := (Fmt.ofCode m.fmt).getD .fp32
    (m.addr (ty.bits / 8) j0 j1 0 0, ty)

/-- Largest finite value of a target format. -/
def maxFin (ty : Fmt) : Nat := if ty = .e4m3 then 448 else if ty = .e5m2 then 57344 else 127

/-- |x| ≤ maxf · 2^(s − 127). -/
def fits (ty : Fmt) (s : Nat) (x : Num) : Bool := !(Num.fin false (maxFin ty) ((s : Int) - 127)).lt x.abs

/-- The least scale from `s` on, of `n` left, at which every value fits; 254 if none does. -/
def leastScale (ty : Fmt) (xs : List Num) (s : Nat) : Nat → Nat
  | 0 => 254
  | n + 1 => if xs.all (fits ty s) then s else leastScale ty xs (s + 1) n

/-- The value shifted by a power of two. -/
def shiftNum (x : Num) (e : Int) : Num :=
  match x with
  | .fin n m k => .fin n m (k + e)
  | y => y

/-- The code of a saturated value of a target format. -/
def satCode (ty : Fmt) (neg : Bool) : Nat :=
  if ty = .i8 then (if neg then 129 else 127) else (if neg then 128 else 0) + (if ty = .e4m3 then 0x7E else 0x7B)

/-- One element of a block at scale `s`, with its random value: its code and flags. -/
def quantOne (ty : Fmt) (rnd : Rnd) (s : Nat) (x : Num × Nat) : Nat × Flags :=
  let y := shiftNum x.1 (127 - (s : Int))
  if (Num.fin false (maxFin ty) 0).lt y.abs then
    (satCode ty (y.lt (.fin false 0 0)), { ov := true, nf := false })
  else ty.ofNum rnd x.2 y

/-- A block: the scale byte, the codes and the sticky flags (R434; R473 with the word's rounding). -/
def quantBlock (ty : Fmt) (rnd : Rnd) (xs : List (Num × Nat)) : Nat × List Nat × BitVec 5 :=
  if xs.any (fun x => x.1.nonFinite) then
    (0xFF, xs.map (fun _ => if ty = .i8 then 0 else if ty = .e4m3 then 0x7F else 0x7E), stNF)
  else if xs.all (fun x => x.1.same (.fin false 0 0)) then (127, xs.map (fun _ => 0), 0)
  else
    let s := leastScale ty (xs.map Prod.fst) 0 255
    let qs := xs.map (quantOne ty rnd s)
    (s, qs.map Prod.fst, if qs.any (fun q => q.2.ov) then stOV else 0)

/-- Cuts bytes into numbers of `w` bytes, at most `n`. -/
def cutNums (w : Nat) (bs : List Byte) : Nat → List Nat
  | 0 => []
  | n + 1 => natOfBytes (bs.take w) :: cutNums w (bs.drop w) n

/-- The unit of RQNT: block `b` of row `y` (R434, R435); its reads are one access, and so are its writes. -/
def State.rqntUnit (s : State) (c : Ctx) (e : Eng) (k : Cmd) (f : CopyF) : UStep :=
  let m := Shape.ofRec (BitVec.ofNat 512 (k.list[0]?.getD 0))
  let t := Shape.ofRec (BitVec.ofNat 512 (k.list[1]?.getD 0))
  let ty := (Fmt.ofCode t.fmt).getD .e4m3
  let w := t.n0 / 32
  let y := k.dc / w
  let b := k.dc % w
  let els := (List.range 32).map (fun j => m.masterAt y (32 * b + j))
  let width := ((els.head?.map (fun x => x.2.bits)).getD 32) / 8
  let dest := (List.range 32).map (fun i => t.addr 1 (32 * b + i) y 0 0) ++ [t.promo + y * w + b]
  match s.reach c (some (streamPort e false)) .read [] (els.flatMap (fun x => splitPieces (BitVec.ofNat 64 x.1) 2 width)) with
  | .trap s1 t => .trap s1 t
  | .stall => .stall
  | .dead => .dead
  | .ok s1 src =>
    match s1.reach c (some (streamPort e true)) .write [] (dest.map (fun a => (BitVec.ofNat 64 a, 1))) with
    | .trap s2 t => .trap s2 t
    | .stall => .stall
    | .dead => .dead
    | .ok s2x dst =>
      match s2x.fetchFar c (engNo e) (pieceRanges src) with
      | (false, s2) => .wait (s.asking s2)
      | (true, s2) =>
      match s2.readPieces c (fun _ => true) k.src k.dc src with
      | .trap t => .trap s1 t
      | .ok bs g =>
        match s2.bulkTests c k.once 0 src dst with
        | .error t => .trap s1 t
        | .ok s3 =>
          if s3.writeHeld (some c) (piecesGrans dst) then .stall
          else
            let xs := (cutNums width bs 32).zip (els.map (fun x => x.2))
            let (sc, qs, fl) := quantBlock ty .rne (xs.map (fun x => (x.2.num x.1, 0)))
            .ok ((s3.writePieces c e k f dst ((qs ++ [sc]).map (BitVec.ofNat 8))).onCtx c.cid (fun d => d.flag (g ||| fl)))

/-! ## The device steps -/

/-- The engines of a context run (R172, R200, R274, R318): not while it is about to leave its core. -/
def State.enginesRun (s : State) (c : Ctx) : Bool :=
  (s.core c.core).active == some c.cid && (c.stat == .running || c.stat == .inverse) && (!c.leaving || s.goesOn c)

/-- Every leg that ended before the command issued has committed (R220). -/
def Ctx.legsBefore (c : Ctx) (n : Nat) : Bool := c.ended.all (fun l => !decide (l.no < n))

/-- The command's acquire and order are over (R220, R368). -/
def Ctx.mayStart (c : Ctx) (e : Eng) (k : Cmd) (f : CopyF) : Bool :=
  let ord := match k.word with
    | .canf .. | .zfil .. | .xfer .. | .sstr .. | .spf .. | .migr .. | .rqnt .. => false
    | _ => f.b6
  (!ord || decide (k.other ≤ (c.chan (otherEng e)).retired)) && (!f.acq || c.legsBefore k.legs)

/-- The address of the list entry that the next unit needs first (R386): at the first unit of a piece. -/
def Cmd.entry (k : Cmd) : Option Nat :=
  let i := k.dc / unitsOf k.len
  match k.word with
  | .gthr .. => if k.list.length ≤ i then some (k.src + 8 * i) else none
  | .sctr .. => if k.list.length ≤ i then some (k.dst + 8 * i) else none
  | _ => none

/-- Replaces the active command of a channel. -/
def Ctx.setActive (c : Ctx) (e : Eng) (k : Option Cmd) : Ctx := c.setChan e { c.chan e with active := k }

/-- A unit is done: dc rises, and after the last byte the chained word is offered (R70, R171). -/
def Ctx.afterUnit (c : Ctx) (e : Eng) (k : Cmd) (f : CopyF) : Ctx :=
  let k1 := { k with dc := k.dc + 1, once := false }
  let c1 := c.setActive e (some k1)
  match f.chain with
  | some w => if k1.finished then { c1 with offers := c1.offers ++ [offerOf w k.idx k.bno k.mxCancel] } else c1
  | none => c1

/-- A command stops with a trap (R172, R333). -/
def State.stopCmd (s : State) (cid : Nat) (e : Eng) (k : Cmd) (t : TrapRec) (s0 : State) : State :=
  match s.ctx cid with
  | none => s
  | some c =>
    if s.escapeOk c then s.suspend c (sqOfEng e) false (some k.idx) { t with dc := BitVec.ofNat 32 k.dc }
    else s0.waitSafe ((s0.ctx cid).getD c)

/-- The next unit of a command. -/
def State.unit (s : State) (c : Ctx) (e : Eng) (k : Cmd) (f : CopyF) : UStep × Cmd :=
  match k.word with
  | .sstr .. => (s.sstrUnit c e k f, k)
  | .spf .. => (.ok (s.spfUnit c e k), k)
  | .migr .. => s.migrUnit c k (tierOf (f.toOff.extractLsb' 0 2))
  | .rqnt .. => (s.rqntUnit c e k f, k)
  | _ =>
    match k.job with
    | some j => (s.xferReady c k (s.plainUnit c e k f j), k)
    | none => (.stall, k)

/-- COPY_UNIT (R171). -/
def execCopyUnit (cid : Nat) (e : Eng) (s : State) : Out :=
  match s.ctx cid with
  | none => .next s
  | some c =>
    match (c.chan e).active with
    | none => .next s
    | some k =>
      match copyOf k.word with
      | none => .next s
      | some (_, f) =>
        if e = .mx ∨ !s.enginesRun c ∨ k.cancel ∨ k.finished ∨ !c.mayStart e k f then .next s
        else
          match k.entry with
          | some a =>
            match c.readLocal .sp a 8 0 k.dc with
            | .trap t => .next (s.stopCmd cid e k t s)
            | .ok bs g => .next (s.setCtx ((c.flag g).setActive e (some { k with list := k.list ++ [natOfBytes bs] })))
          | none =>
            match s.unit c e k f with
            | (.ok s1, k1) => .next (s1.onCtx cid (fun d => d.afterUnit e k1 f))
            | (.wait s1, _) => .next s1
            | (.trap s1 t, _) => .next (s1.stopCmd cid e k t s)
            | (.stall, _) => .next s
            | (.dead, _) => .fault .deviceWindow

/-- The start of a copy command (R66). -/
def Chan.start (k : Chan) : Chan :=
  match k.active with
  | none => { k with active := k.shadow, shadow := none }
  | some _ => k

/-- A channel after its active command has retired (R66): the shadow set moves up in the same cycle. -/
def Chan.retire (k : Chan) : Chan := { k with active := k.shadow, shadow := none, retired := k.retired + 1 }

/-- The active command has nothing left to do but its signal: it is cancelled, or its units are done and its acquire and its
release are over (R69, R79, R220). -/
def Ctx.maySignal (c : Ctx) (e : Eng) (k : Cmd) (f : CopyF) : Bool :=
  k.cancel || (k.finished && c.mayStart e k f && (!f.rel || c.legsBefore k.legs))

/-- COMMAND_SIGNAL of a copy channel (R69), once its writes to other packages have been acknowledged (R303). A chained word of a cancelled copy, or of one with no units, is offered now. -/
def State.signalCopy (s : State) (c : Ctx) (e : Eng) : State :=
  match (c.chan e).active with
  | none => s
  | some k =>
    match copyOf k.word with
    | none => s
    | some (h, f) =>
      if s.enginesRun c ∧ c.maySignal e k f ∧ s.farDone c.cid (engNo e) then
        let c1 := c.setChan e (c.chan e).retire
        let c2 := match f.chain with
          | some w =>
            if k.cancel || k.units == 0 then { c1 with offers := c1.offers ++ [offerOf w k.idx k.bno (k.cancel || k.mxCancel)] } else c1
          | none => c1
        s.setCtx (c2.sigField h.sig)
      else s

end Sys2Proof.Machine
end

