-- ==== Sys2Proof/Machine/Elementary.lean ====
section
/-!
DEFINITION. VEXP2, VLOG2, VRCP and VRSQ (R157, R158): the exact result rounded once to at most 8 significant bits on
the destination's grid. VRCP and VRSQ are decided by integer arithmetic. 2^x and log2 x are enclosed between two
dyadic bounds; where both bounds round alike that is the result, and otherwise it is a free value (log 15).
-/
namespace Sys2Proof

/-- ⌊√n⌋ by bits from `b` − 1 down, `r` found so far. -/
def sqrtBits (n : Nat) : Nat → Nat → Nat
  | 0, r => r
  | b + 1, r => sqrtBits n b (if (r + pow2 b) * (r + pow2 b) ≤ n then r + pow2 b else r)

/-- ⌊√n⌋. -/
def isqrt (n : Nat) : Nat := sqrtBits n (Nat.log2 n / 2 + 1) 0

/-- Rounds m · 2^e, to which a positive rest below one unit may be added (`more`), to 8 significant bits on the grid of
a format, ties to even (R157); the range test follows (R141). -/
def round8 (f : FloatFmt) (width : Nat) (neg : Bool) (m : Nat) (e : Int) (more : Bool) : Nat × Flags :=
  -- two extra bits keep the rest apart from a tie
  let m' := 4 * m + (if more then 1 else 0)
  let e' := e - 2
  let qmin : Int := 1 - (f.bias : Int) - f.fbits
  let q := gridExp m' e' 7 qmin
  let k := if e' < q then roundShift .rne 0 neg m' (q - e').toNat else m' * pow2 (e' - q).toNat
  f.round width .rne 0 (.fin neg k q)

/-- 1 / (m · 2^e) (VRCP). -/
def recip (f : FloatFmt) (width : Nat) (neg : Bool) (m : Nat) (e : Int) : Nat × Flags :=
  let n := Nat.log2 m + 40
  round8 f width neg (pow2 n / m) (-(n : Int) - e) (pow2 n % m != 0)

/-- 1 / √(m · 2^e) (VRSQ). -/
def rsqrt (f : FloatFmt) (width : Nat) (m : Nat) (e : Int) : Nat × Flags :=
  -- make the exponent even: m · 2^e = m2 · 2^(2h)
  let odd := e % 2 != 0
  let m2 := if odd then 2 * m else m
  let h := (if odd then e - 1 else e) / 2
  let n := Nat.log2 m2 + 40
  let r := isqrt (pow2 (2 * n) / m2)
  round8 f width false r (-(n : Int) - h) (r * r * m2 != pow2 (2 * n))

/-- Working precision of the enclosures, in fraction bits. -/
def encl : Nat := 160

/-- Multiplies the bounds by 2^(2^−i) for every set bit of the fraction `x` (of `n` bits, most significant first);
`lo` and `hi` enclose 2^(2^−i). -/
def exp2Bits (x : Nat) : Nat → Nat → Nat → Nat → Nat → Nat × Nat
  | 0, _, _, a, b => (a, b)
  | n + 1, lo, hi, a, b =>
    let lo' := isqrt (lo * pow2 encl)
    let hi' := isqrt (hi * pow2 encl) + 1
    if x / pow2 n % 2 = 1 then
      exp2Bits x n lo' hi' (a * lo' / pow2 encl) (b * hi' / pow2 encl + 1)
    else exp2Bits x n lo' hi' a b

/-- 2^(±m · 2^e) rounded, or none where the bounds disagree. -/
def exp2Num (f : FloatFmt) (width : Nat) (neg : Bool) (m : Nat) (e : Int) : Option (Nat × Flags) :=
  let x := if neg then -(m : Int) else (m : Int)
  -- x · 2^e ≥ 2^10 in magnitude is far outside every range
  if 10 ≤ (Nat.log2 m : Int) + e then
    some (if neg then (0, Flags.none) else f.round width .rne 0 (.fin false 1 100000))
  else
    let y : Int := if e + 80 < 0 then x / (pow2 (-(e + 80)).toNat : Int) else x * (pow2 (e + 80).toNat : Int)
    let exact : Bool := if e + 80 < 0 then x % (pow2 (-(e + 80)).toNat : Int) = 0 else true
    let ip := y / (pow2 80 : Int)
    let fr := (y % (pow2 80 : Int)).toNat
    let lo := exp2Bits fr 80 (2 * pow2 encl) (2 * pow2 encl) (pow2 encl) (pow2 encl)
    -- an inexact fraction is at most 2^−80 larger, which multiplies by less than 1 + 2^−80
    let hi := if exact then lo.2 else lo.2 + lo.2 / pow2 80 + 1
    if exact && fr = 0 then some (round8 f width false 1 ip false)
    else
      let a := round8 f width false lo.1 (ip - encl) true
      let b := round8 f width false hi (ip - encl) true
      if a = b then some a else none

/-- The bits of log2 of a number in [1, 2) between `lo` and `hi`, most significant first; none where a bit is open. -/
def log2Bits : Nat → Nat → Nat → Nat → Option Nat
  | 0, _, _, acc => some acc
  | n + 1, lo, hi, acc =>
    let lo' := lo * lo / pow2 encl
    let hi' := hi * hi / pow2 encl + 1
    if 2 * pow2 encl ≤ lo' then log2Bits n (lo' / 2) (hi' / 2 + 1) (2 * acc + 1)
    else if hi' < 2 * pow2 encl then log2Bits n lo' hi' (2 * acc)
    else none

/-- log2 (m · 2^e) rounded, or none where the bounds disagree. -/
def log2Num (f : FloatFmt) (width : Nat) (m : Nat) (e : Int) : Option (Nat × Flags) :=
  let l := Nat.log2 m
  let ip : Int := (l : Int) + e
  if m = pow2 l then some (f.round width .rne 0 (Num.ofInt ip 0))
  else
    let y := m * pow2 encl / pow2 l
    match log2Bits 72 y (y + 1) 0 with
    | none => none
    | some fr =>
      -- the value lies strictly between z and z + 1 in units of 2^−72
      let z : Int := ip * (pow2 72 : Int) + fr
      if 0 ≤ z then
        let a := round8 f width false z.toNat (-72) true
        let b := round8 f width false (z.toNat + 1) (-72) false
        if a = b then some a else none
      else
        let a := round8 f width true (-z - 1).toNat (-72) true
        let b := round8 f width true (-z).toNat (-72) false
        if a = b then some a else none

/-- The four functions. -/
inductive Trans where
  | exp2 | log2 | rcp | rsq
  deriving DecidableEq, Repr

/-- Number of a function, for the free value. -/
def Trans.code : Trans → Nat
  | .exp2 => 0 | .log2 => 1 | .rcp => 2 | .rsq => 3

/-- A result that two bounds could not decide: the free value, brought into the width. -/
def Trans.freeLane (t : Trans) (ty : Fmt) (bits : Nat) : Nat × Flags :=
  (Config.transcendental t.code ty.code.toNat bits % pow2 ty.bits, Flags.none)

/-- A transcendental of one lane (R157, R158); `bits` is the operand's code. -/
def Trans.lane (t : Trans) (ty : Fmt) (bits : Nat) : Nat × Flags :=
  match ty.float with
  | none => (0, Flags.none)
  | some f =>
    let w := ty.bits
    let out (x : Num) : Nat × Flags := f.round w .rne 0 x
    match t, f.value w bits with
    | _, .nan => out .nan
    | .exp2, .inf neg => if neg then (0, Flags.none) else out (.inf false)
    | .exp2, .fin neg m e =>
      if m = 0 then out (.fin false 1 0) else (exp2Num f w neg m e).getD (t.freeLane ty bits)
    | .log2, .inf neg => if neg then out .nan else out (.inf false)
    | .log2, .fin neg m e =>
      if m = 0 then out (.inf true) else if neg then out .nan else (log2Num f w m e).getD (t.freeLane ty bits)
    | .rcp, .inf neg => out (.fin neg 0 0)
    | .rcp, .fin neg m e => if m = 0 then out (.inf neg) else recip f w neg m e
    | .rsq, .inf neg => if neg then out .nan else out (.fin false 0 0)
    | .rsq, .fin neg m e =>
      if m = 0 then out (.inf neg) else if neg then out .nan else rsqrt f w m e

end Sys2Proof
end

