-- ==== Sys2Proof/Machine/Matrix.lean ====
section
/-!
DEFINITION. The matrix array (R66, R70, R125 to R131, R143 to R155, R280 to R285, R350 to R356, R404 to R411, R418, R436,
R437, R442): operands and their checks at issue, the arithmetic of every matrix word, the array's order, and replay.
-/
namespace Sys2Proof.Machine

/-! ## Operands (R404, R410) -/

/-- Reduction indices of a K-step (R404, R410, R411). -/
def mxKx (op : MxOp) (f : MxF) : Nat :=
  let k := if f.af.bits = 16 then 128 else 256
  if op = .mmas then 2 * k else k

/-- Bank bytes of a K-step (R129). -/
def mxBank (op : MxOp) : Nat := if op = .mmas then 512 else 256

/-- N of the sparsity (R125). -/
def spN : Sparse → Nat
  | .n8 => 8
  | _ => 4

/-- A tile step or MMAB. -/
def mxSteps : MxOp → Bool
  | .mma | .mmas | .mmab | .mmts => true
  | _ => false

/-- The first stream: elements and bytes of each; none if the word names none. -/
def mxA (op : MxOp) (f : MxF) : Nat × Nat :=
  match op with
  | .mma | .mmab | .mmts => (64 * mxKx op f * f.ks.toNat, f.af.bits / 8)
  | .mmas => (64 * (mxKx op f / 16) * spN f.sp * f.ks.toNat, f.af.bits / 8)
  | .sca => (64 * f.ks.toNat, 1)
  | .acvt => if f.xsel then (0, 0) else (4096, f.af.bits / 8)
  | .ald | .ast => (4160, 6)
  | .setx => if f.xsel then (0, 0) else (64, 2)
  | .nrm | .aclr => (0, 0)

/-- The second stream (R127). -/
def mxM (op : MxOp) (f : MxF) : Nat × Nat :=
  match op with
  | .mmas => (64 * (mxKx op f / 16) * f.ks.toNat, 2)
  | .sca => (64 * f.ks.toNat, 1)
  | _ => (0, 0)

/-- The word writes its first stream. -/
def mxWrites (op : MxOp) : Bool := op == .ast || op == .acvt

/-- The operands that a word reads (R407): its streams, and its range of every canopy bank. -/
def mxOpnds (op : MxOp) (f : MxF) (da dm : BitVec 256) : List Opnd :=
  let (na, wa) := mxA op f
  let (nm, wm) := mxM op f
  (if na = 0 || mxWrites op then [] else [opndOf da f.aoff.toNat wa (List.range na)]) ++
    (if nm = 0 then [] else [opndOf dm f.moff.toNat wm (List.range nm)]) ++
    (if mxSteps op then
      [{ sp := .can, els := (List.range 64).map (fun j => j * 2 ^ 17 + f.bbase.toNat), w := f.ks.toNat * mxBank op }]
     else [])

/-- The kind of access of a matrix word (R296). -/
def mxAcc (op : MxOp) (f : MxF) : BitVec 3 := if mxWrites op && (mxA op f).1 != 0 then 1 else 0

/-- The trap of a matrix word at its issue (R25, R164, R182, R407). -/
def Ctx.mxTrap (c : Ctx) (op : MxOp) (f : MxF) : Option TrapRec :=
  let (na, wa) := mxA op f
  let (nm, wm) := mxM op f
  let acc : BitVec 3 := if mxWrites op then 1 else 0
  firstTrap
    [ if c.nomx || (c.nocan && mxSteps op) || (na != 0 && c.canopyStream f.adesc) || (nm != 0 && c.canopyStream f.mdesc) then
        some engineTrap else none,
      if na != 0 && streamBad (c.descr f.adesc) wa then some (streamTrap f.adesc) else none,
      if nm != 0 && streamBad (c.descr f.mdesc) wm then some (streamTrap f.mdesc) else none,
      c.elemsRange f.adesc f.aoff.toNat wa (List.range na) acc,
      c.elemsRange f.mdesc f.moff.toNat wm (List.range nm) 0,
      c.examine false (mxOpnds op f (c.descr f.adesc) (c.descr f.mdesc)),
      if mxWrites op && na != 0 then c.opUndo (opndOf (c.descr f.adesc) f.aoff.toNat wa (List.range na)) else none ]

/-- Advances the cursors of a word's streams; one stream named twice advances by the larger span (R181). -/
def Ctx.mxAdvance (c : Ctx) (op : MxOp) (f : MxF) : Ctx :=
  let na := (mxA op f).1
  let nm := (mxM op f).1
  if na ≠ 0 ∧ nm ≠ 0 ∧ f.adesc = f.mdesc then c.advance f.adesc (max na nm)
  else
    let c1 := if na = 0 then c else c.advance f.adesc na
    if nm = 0 then c1 else c1.advance f.mdesc nm

/-! ## Element arithmetic (R144, R145) -/

/-- N of an element. -/
def elN (x : BitVec 48) : Int := (x.extractLsb' 0 46).toInt

/-- The class of an element: a zero for finite. -/
def elClass (x : BitVec 48) : Num :=
  match (x.extractLsb' 46 2).toNat with
  | 0 => .fin false 0 0
  | 1 => .inf false
  | 2 => .inf true
  | _ => .nan

/-- An element is finite. -/
def elFinite (x : BitVec 48) : Bool := x.extractLsb' 46 2 == 0

/-- A finite element. -/
def elOf (n : Int) : BitVec 48 := 0#2 ++ BitVec.ofInt 46 n

/-- An element of a non-finite class. -/
def elNonFinite : Num → BitVec 48
  | .inf false => 1#2 ++ 0#46
  | .inf true => 2#2 ++ 0#46
  | _ => 3#2 ++ 0#46

/-- The row exponent of a tile. -/
def Tile.exp (t : Tile) (i : Nat) : Int := (t.exps.get 0 i).toInt

/-- An element of a tile. -/
def Tile.el (t : Tile) (i j : Nat) : BitVec 48 := t.elems.get 0 (64 * i + j)

/-- A map from the values at 0, 1, 2 and on; a default is not listed. -/
def listMap {α : Type} [DecidableEq α] (d : α) : Nat → List α → SMap α
  | _, [] => []
  | k, v :: r => if v = d then listMap d (k + 1) r else (k, v) :: listMap d (k + 1) r

/-- The values of all elements of a tile, in the order of their numbers. -/
def allEls {α : Type} (g : Nat → Nat → α) : List α := (List.range 4096).map (fun k => g (k / 64) (k % 64))

/-- The sum of products of one element: the integer sum, and the combined class of the products that are not finite (R146). -/
def sumTerm (e : Int) (a : Int × Num) (p : Num) : Int × Num :=
  match p with
  | .fin neg m k => (a.1 + roundNe (if neg then -(m : Int) else (m : Int)) (k - e), a.2)
  | x => (a.1, a.2.add .rne x)

/-- Largest magnitude of N (R146). -/
def elMax : Int := 2 ^ 45 - 1

/-- An element after a word's sum (R146): the part from `if ovw = 1`. -/
def elUpdate (ovw : Bool) (old : BitVec 48) (s : Int) (pc : Num) : BitVec 48 × BitVec 5 :=
  let k := (if ovw then .fin false 0 0 else elClass old).add .rne pc
  if k.nonFinite then (elNonFinite k, stNF)
  else
    let n := (if ovw then 0 else elN old) + s
    if elMax < n then (elOf elMax, stOV)
    else if n < -elMax then (elOf (-elMax), stOV)
    else (elOf n, 0)

/-- The product of R145, but zero where a TS8 weight is zero (R137). -/
def mxProduct (bf : Fmt) (a b : Num) : Num :=
  if bf = .ts8 ∧ b.same (.fin false 0 0) then .fin false 0 0 else a.mul b

/-- The flags of a list of results. -/
def flagsOf {α : Type} (xs : List (α × BitVec 5)) : BitVec 5 := xs.foldl (fun f x => f ||| x.2) 0

/-! ## Operand values -/

/-- What a word reads while it runs: its bits of the streams' elements and of the canopy. -/
structure MxRead where
  a : Nat → Nat
  m : Nat → Nat
  b : Nat → Nat → Nat

/-- The reads of a word, as memory stands (R408). -/
def Ctx.mxRead (c : Ctx) (x : MCmd) : MxRead :=
  { a := fun i => c.elemBits (stSpace x.da) (stAddr x.da x.f.aoff.toNat i).toNat (mxA x.op x.f).2
    m := fun i => c.elemBits (stSpace x.dm) (stAddr x.dm x.f.moff.toNat i).toNat (mxM x.op x.f).2
    b := fun j o => c.elemBits .can (j * 2 ^ 17 + x.f.bbase.toNat + o) (x.f.bf.bits / 8) }

/-- apos of R404. -/
def aPos (lay : ALay) (kx i k : Nat) : Nat :=
  match lay with
  | .row => kx * i + k
  | .z => zOrder kx 64 i k
  | .zs => zOrder 64 kx k i

/-- Set bits of a mask below bit `n`. -/
def bitsBelow (x : Nat) : Nat → Nat
  | 0 => 0
  | n + 1 => bitsBelow x n + x / pow2 n % 2

/-- A[i][k] (R154, R404, R410). -/
def aValue (op : MxOp) (f : MxF) (r : MxRead) (i k : Nat) : Num :=
  let kx := mxKx op f
  let s := k / kx
  let k' := k % kx
  if op = .mmas then
    let n := spN f.sp
    let gs := kx / 16
    let g := k' / 16
    let mask := r.m (s * 64 * gs + gs * i + g)
    let m := bitsBelow mask (k' % 16)
    if mask / pow2 (k' % 16) % 2 = 1 ∧ m < n then f.af.num (r.a (s * 64 * gs * n + gs * n * i + n * g + m))
    else .fin false 0 0
  else f.af.num (r.a (s * 64 * kx + aPos f.alay kx i k'))

/-- B[k][j] (R404, R410). -/
def bValue (op : MxOp) (f : MxF) (r : MxRead) (k j : Nat) : Num :=
  let kx := mxKx op f
  f.bf.num (r.b j (mxBank op * (k / kx) + f.bf.bits / 8 * (k % kx)))

/-- The product of indices (i, k, j). -/
def mxProd (op : MxOp) (f : MxF) (r : MxRead) (i j k : Nat) : Num := mxProduct f.bf (aValue op f r i k) (bValue op f r k j)

/-! ## The words on one tile -/

/-- The elements of a tile after a tile step (R146). -/
def stepEls (op : MxOp) (f : MxF) (r : MxRead) (t : Tile) : List (BitVec 48 × BitVec 5) :=
  allEls (fun i j =>
    let x := (List.range (f.ks.toNat * mxKx op f)).foldl (fun a k => sumTerm (t.exp i) a (mxProd op f r i j k))
      (0, .fin false 0 0)
    elUpdate f.ovw (t.el i j) x.1 x.2)

/-- gX of R151. -/
def lsbExp : Fmt → Int
  | .fp16 => -24
  | .bf16 => -133
  | .e4m3 => -9
  | .e5m2 => -16
  | _ => 0

/-- g of a format pair (R151). -/
def mxG (f : MxF) : Int := lsbExp f.af + lsbExp f.bf

/-- The NaN marker of a block partial (R152). -/
def bpMarker : BitVec 48 := 1#1 ++ 0#47

/-- Largest magnitude of a block partial (R151). -/
def bpMax : Int := 2 ^ 47 - 1

/-- Adds one block into a block partial (R151, R152): `x` is the exact sum in units of 2^g and the class of its products. -/
def bpAdd (old : BitVec 48) (x : Int × Num) : BitVec 48 × BitVec 5 :=
  if x.2.nonFinite then (bpMarker, stNF)
  else if old = bpMarker then (bpMarker, 0)
  else
    let p := old.toInt + x.1
    if bpMax ≤ p then (BitVec.ofInt 48 bpMax, stOV)
    else if p ≤ -bpMax then (BitVec.ofInt 48 (-bpMax), stOV)
    else (BitVec.ofInt 48 p, 0)

/-- Blocks of a word that go to block-partial tile `n`, in order (R409). -/
def blocksOf (f : MxF) (n : Nat) : List Nat :=
  (List.range (f.ks.toNat * mxKx .mmab f / 32)).filter (fun b => (f.bpb.toNat + b) % 8 == n)

/-- The elements of block-partial tile `n` after MMAB (R151, R152, R409). -/
def blockEls (f : MxF) (r : MxRead) (n : Nat) (t : Tile) : List (BitVec 48 × BitVec 5) :=
  allEls (fun i j =>
    (blocksOf f n).foldl (fun acc b =>
      let x := (List.range 32).foldl (fun a k => sumTerm (mxG f) a (mxProd .mmab f r i j (32 * b + k))) (0, .fin false 0 0)
      let y := bpAdd acc.1 x
      (y.1, acc.2 ||| y.2)) (if f.ovw then 0 else t.el i j, 0))

/-- One scaled block of SCA (R153). -/
def scaTerm (f : MxF) (p : BitVec 48) (rs cs : Nat) : Num :=
  if p = bpMarker ∨ rs = 0xFF ∨ cs = 0xFF then .nan
  else Num.ofInt p.toInt (mxG f + ((rs : Int) - 127) + ((cs : Int) - 127))

/-- The elements of a tile after SCA (R153, R437). -/
def scaEls (f : MxF) (r : MxRead) (bp : Nat → Tile) (t : Tile) : List (BitVec 48 × BitVec 5) :=
  allEls (fun i j =>
    let x := (List.range f.ks.toNat).foldl (fun a b =>
      sumTerm (t.exp i) a (scaTerm f ((bp ((f.bpb.toNat + b) % 8)).el i j) (r.a (64 * b + i)) (r.m (64 * b + j))))
      (0, .fin false 0 0)
    elUpdate f.ovw (t.el i j) x.1 x.2)

/-- Bit length of |N| (R149). -/
def bitLen (n : Int) : Nat := if n = 0 then 0 else Nat.log2 n.natAbs + 1

/-- The longest |N| of the finite elements of a row. -/
def rowLen (xs : List (BitVec 48)) : Nat := xs.foldl (fun m x => if elFinite x then max m (bitLen (elN x)) else m) 0

/-- Divides the finite elements of a row by 2^sh. -/
def rowShift (sh : Int) (xs : List (BitVec 48)) : List (BitVec 48) :=
  xs.map (fun x => if elFinite x then elOf (roundNe (elN x) (-sh)) else x)

/-- NRM of one row (R149): the elements, the exponent, the flag. -/
def nrmRow (xs : List (BitVec 48)) (e : Int) : List (BitVec 48) × Int × BitVec 5 :=
  let m := rowLen xs
  if m = 0 then (xs, e, 0)
  else
    let sh := max (-32768 - e) (min ((m : Int) - 38) (32767 - e))
    let ys := rowShift sh xs
    let e1 := e + sh
    let (zs, e2) := if rowLen ys = 39 ∧ e1 < 32767 then (rowShift 1 ys, e1 + 1) else (ys, e1)
    (zs, e2, if 38 < rowLen zs then stOV else 0)

/-- NRM of a tile. -/
def nrmTile (t : Tile) : Tile × BitVec 5 :=
  let rows := (List.range 64).map (fun i => nrmRow ((List.range 64).map (t.el i)) (t.exp i))
  ({ elems := listMap 0 0 (rows.flatMap (fun r => r.1)), exps := listMap 0 0 (rows.map (fun r => BitVec.ofInt 16 r.2.1)) },
    rows.foldl (fun f r => f ||| r.2.2) 0)

/-- The cleared tile of ACLR (R350). -/
def clearTile (imm : BitVec 16) : Tile := { elems := [], exps := listMap 0 0 (List.replicate 64 imm) }

/-- A tile with other row exponents (R442). -/
def Tile.withExps (t : Tile) (xs : List (BitVec 16)) : Tile := { t with exps := listMap 0 0 xs }

/-- An element as ALD stores it (R144): N of a non-finite class becomes 0. -/
def loadEl (x : Nat) : BitVec 48 :=
  let v := BitVec.ofNat 48 x
  if elFinite v then v else v.extractLsb' 46 2 ++ 0#46

/-- The tile of an image (R355). -/
def loadTile (a : Nat → Nat) : Tile :=
  { elems := listMap 0 0 ((List.range 4096).map (fun k => loadEl (a k)))
    exps := listMap 0 0 ((List.range 64).map (fun i => BitVec.ofNat 16 (a (4096 + i)))) }

/-- Element `k` of a tile's image (R355). -/
def imageEl (t : Tile) (k : Nat) : Nat :=
  if k < 4096 then (t.elems.get 0 k).toNat else (t.exps.get 0 (k - 4096)).toNat

/-! ## ACVT (R150, R351) -/

/-- An element as ACVT converts it. -/
def cvtEl (f : MxF) (t : Tile) (i j : Nat) : Nat × BitVec 5 :=
  let x := t.el i j
  let v : Num := if elFinite x then Num.ofInt (elN x) (t.exp i) else elClass x
  let (b, g) := f.af.ofNum f.rnd 0 v
  (b, Flags.sticky g)

/-- Registers' worth of columns of a row: the first column and the number of columns. -/
def cvtParts (f : MxF) : List (Nat × Nat) := if f.af.bits = 16 then [(0, 64)] else [(0, 32), (32, 32)]

/-- Where a part of row `i` goes (R351). -/
def cvtDest (x : MCmd) (i col n : Nat) : Option Dest :=
  if x.f.xsel then
    let r := if x.f.af.bits = 16 then x.f.imm.toNat + i else x.f.imm.toNat + 2 * i + col / 32
    let last := if x.f.af.bits = 16 then r else x.f.imm.toNat + 2 * i + 1
    if last ≤ 31 then some (.vreg (BitVec.ofNat 5 r)) else none
  else
    some (.elems (x.f.af.bits / 8) ((List.range n).map (fun l =>
      (l, localKey (stSpace x.da) (stAddr x.da x.f.aoff.toNat (64 * i + col + l)).toNat))))

/-- The results of row `i`: every part that has a destination (R351, R352). -/
def cvtRow (c : Ctx) (x : MCmd) (i : Nat) : List Flight :=
  (cvtParts x.f).filterMap (fun p =>
    (cvtDest x i p.1 p.2).map (fun d =>
      let vs := (List.range p.2).map (fun l => cvtEl x.f (c.tile x.f.acc) i (p.1 + l))
      { sq := .comp, dest := d, val := BitVec.ofNat 1024 (packLanes x.f.af.bits (vs.map Prod.fst)),
        mask := BitVec.allOnes 1024, due := c.t + 8 * (i / 8 + 1), sig := 0xFF, flags := flagsOf vs, leg := none, vno := 0 }))

/-- The results of ACVT, rows in ascending order. -/
def cvtRows (c : Ctx) (x : MCmd) : List Flight := (List.range 64).flatMap (cvtRow c x)

/-- A row of ACVT in flight: a result with a vector or stream destination that is no vector word's. -/
def Flight.isRow (f : Flight) : Bool :=
  f.vno == 0 && !f.early && (match f.dest with
    | .vreg _ | .elems _ _ => true
    | _ => false)

/-! ## The words on a context -/

/-- A tile by its number in the replay windows: 0 to 3 the accumulators, 16 to 23 the block partials. -/
def Ctx.tileAt (c : Ctx) (k : Nat) : Tile := if k < 16 then c.tile (BitVec.ofNat 2 k) else c.bpTile (k - 16)

/-- Replaces a tile by its number. -/
def Ctx.setTileAt (c : Ctx) (k : Nat) (t : Tile) : Ctx :=
  if k < 16 then c.setTile (BitVec.ofNat 2 k) t else c.setBp (k - 16) t

/-- The tiles that a word writes (R282, R409). -/
def mxTargets (x : MCmd) : List Nat :=
  match x.op with
  | .mmab => ((List.range 8).filter (fun n => !(blocksOf x.f n).isEmpty)).map (16 + ·)
  | .acvt | .ast => []
  | _ => [x.f.acc.toNat]

/-- A tile with new elements, and the flags they set. -/
def Ctx.putEls (c : Ctx) (k : Nat) (xs : List (BitVec 48 × BitVec 5)) : Ctx :=
  (c.setTileAt k { c.tileAt k with elems := listMap 0 0 (xs.map Prod.fst) }).flag (flagsOf xs)

/-- The exponents that SETX reads (R442). -/
def MCmd.readExps (x : MCmd) (r : MxRead) : MCmd :=
  if x.op = .setx ∧ x.exps = [] then
    { x with exps := (List.range 64).map (fun i => if x.f.xsel then x.f.imm else BitVec.ofNat 16 (r.a i)) }
  else x

/-- What a word does to tile `k` (R146, R148, R149, R151, R153, R355). -/
def Ctx.runOn (c : Ctx) (x : MCmd) (k : Nat) : Ctx :=
  let r := c.mxRead x
  let t := c.tileAt k
  match x.op with
  | .mma | .mmas | .mmts => c.putEls k (stepEls x.op x.f r t)
  | .mmab => c.putEls k (blockEls x.f r (k - 16) t)
  | .sca => c.putEls k (scaEls x.f r c.bpTile t)
  | .nrm => (c.setTileAt k (nrmTile t).1).flag (nrmTile t).2
  | .aclr => c.setTileAt k (clearTile x.f.imm)
  | .ald => (c.setTileAt k (loadTile r.a)).flag (if (loadTile r.a).elems.any (fun e => !elFinite e.2.toNat) then stNF else 0)
  | .setx => c.setTileAt k (t.withExps (x.readExps r).exps)
  | .acvt | .ast => c

/-- What a word writes to registers and local memory: the image of AST, the rows of ACVT that are not in flight. AST sets no NF for the
elements of its image that are not finite (log 118). -/
def Ctx.mxStore (c : Ctx) (x : MCmd) : Ctx :=
  match x.op with
  | .ast =>
    let bs := (List.range 4160).flatMap (fun k =>
      place (localKey (stSpace x.da) (stAddr x.da x.f.aoff.toNat k).toNat) (bytesOfNat 6 (imageEl (c.tile x.f.acc) k)))
    (c.localStore bs).unveil (bs.map Prod.fst)
  | .acvt => if x.rows then c else c.landAll (cvtRows c x)
  | _ => c

/-- Reads operands that have become vacated or lost since the issue (R408): flags, and loss records to the harts. -/
def Ctx.mxFlags (c : Ctx) (x : MCmd) : Ctx × List Event :=
  let os := mxOpnds x.op x.f x.da x.dm
  let lost := os.filterMap (fun o => c.opLost o 0)
  (c.flag (c.opsVac os ||| (if lost.isEmpty then 0 else stLOST)), lost.flatMap lossEvent)

/-! ## Replay windows (R282 to R285) -/

/-- The words that the windows of a context retain: the cycle, the context and the number of each. -/
def Ctx.retained (c : Ctx) : List (Nat × Nat × Nat) :=
  (c.wins.flatMap (fun w => w.2.words.map (fun m => (m.born, c.cid, m.no)))).eraseDups

/-- The retained word that was retained first. -/
def oldestWord : List (Nat × Nat × Nat) → Option (Nat × Nat × Nat)
  | [] => none
  | x :: r =>
    match oldestWord r with
    | none => some x
    | some y => if y.1 < x.1 ∨ (y.1 = x.1 ∧ y.2.1 = x.2.1 ∧ y.2.2 < x.2.2) then some y else some x

/-- A retained word is dropped, and its windows are broken (R282). -/
def Ctx.forget (c : Ctx) (n : Nat) : Ctx :=
  { c with wins := c.wins.map (fun kw => (kw.1, if kw.2.words.any (fun m => m.no == n) then
      { kw.2 with words := kw.2.words.filter (fun m => m.no != n), broken := true } else kw.2)) }

/-- At most 32 words are retained across all windows of a core (R282): the oldest is dropped. -/
def State.trimWindows (s : State) (p : Nat) : State :=
  let ws := (s.allCtxs.filter (fun c => c.core == p)).flatMap Ctx.retained
  if ws.length ≤ 32 then s
  else
    match oldestWord ws with
    | some (_, cid, n) =>
      match s.ctx cid with
      | some c => s.setCtx (c.forget n)
      | none => s
    | none => s

/-- A word opens or joins the window of tile `k` (R282): `t0` the tile before it. ACLR and ALD open theirs after the word. -/
def Ctx.join (c : Ctx) (x : MCmd) (k : Nat) (t0 : Tile) : Ctx :=
  if x.op = .aclr ∨ x.op = .ald then c
  else if x.f.tstart ∧ (mxSteps x.op ∨ x.op = .sca) then
    { c with wins := c.wins.set k { snap := t0, words := [x], broken := false } }
  else
    match c.wins.find k with
    | some w => { c with wins := c.wins.set k { w with words := w.words ++ [x] } }
    | none => c

/-- ACLR and ALD open a window with the tile after the word (R282). -/
def Ctx.openAfter (c : Ctx) (x : MCmd) (k : Nat) : Ctx :=
  if x.op = .aclr ∨ x.op = .ald then { c with wins := c.wins.set k { snap := c.tileAt k, words := [], broken := false } }
  else c

/-- Runs retained words again on tile `k` (R283): only that tile, and flags, change; operands of the words before `n`, which
have been read before, are read again as they stand (R284, R408), with the loss records that this makes. -/
def Ctx.rerun (c : Ctx) (k n : Nat) : List MCmd → Ctx × List Event
  | [] => (c, [])
  | x :: r =>
    let (c1, ev) := if x.no = n then (c, []) else c.mxFlags x
    let (c2, ev2) := Ctx.rerun (c1.runOn x k) k n r
    (c2, ev ++ ev2)

/-- A window that can be replayed (R285). A tile without a window has no snapshot. -/
def Ctx.replayable (c : Ctx) (x : MCmd) (k : Nat) : Bool :=
  x.op == .aclr || x.op == .ald || (match c.wins.find k with
    | some w => !w.broken
    | none => false)

/-- The replay of tile `k` up to word `x` (R283). -/
def Ctx.replayTile (c : Ctx) (x : MCmd) (k : Nat) : Ctx × List Event :=
  match c.wins.find k with
  | some w => if x.op = .aclr ∨ x.op = .ald then (c.runOn x k, []) else (c.setTileAt k w.snap).rerun k x.no w.words
  | none => (c.runOn x k, [])

/-- Every element NaN (R285). -/
def Ctx.ruin (c : Ctx) (k : Nat) : Ctx :=
  let e := if k < 16 then elNonFinite .nan else bpMarker
  { (c.setTileAt k { c.tileAt k with elems := listMap 0 0 (List.replicate 4096 e) }).flag stNF with
    impr := c.impr ++ [(0x29, BitVec.ofNat 32 k)] }

/-- What the drain of a word makes: the context, the loss records, the number of replays. -/
abbrev Drain := Ctx × List Event × Nat

/-- The check of a word on tile `k` fails, and the window is replayed where it can be (R283, R285). -/
def Ctx.failOn (c : Ctx) (x : MCmd) (k : Nat) : Drain :=
  if c.replayable x k then ((c.replayTile x k).1, (c.replayTile x k).2, 1) else (c.ruin k, [], 0)

/-- One tile at the drain of a word (R281): the update, the replay, or the ruin. -/
def Ctx.drainTile (x : MCmd) (check : MxCheck) (cn : Drain) (k : Nat) : Drain :=
  let c1 := cn.1.join x k (cn.1.tileAt k)
  let (c2, ev, n) : Drain :=
    match check with
    | .pass => (c1.runOn x k, [], 0)
    | .fail t => if t = k then c1.failOn x k else (c1.runOn x k, [], 0)
    | .failTwice t => if t = k then (c1.ruin k, [], 0) else (c1.runOn x k, [], 0)
  (if check = .failTwice k then c2 else c2.openAfter x k, cn.2.1 ++ ev, cn.2.2 + n)

/-- The check of a word that writes no tile: it reads its own accumulator (R281). -/
def Ctx.drainReader (c : Ctx) (x : MCmd) (check : MxCheck) : Drain :=
  match check with
  | .pass => (c, [], 0)
  | .fail _ => c.failOn x x.f.acc.toNat
  | .failTwice _ => (c.ruin x.f.acc.toNat, [], 0)

/-- The drain of a word (R281 to R285). -/
def Ctx.drain (c : Ctx) (x : MCmd) (check : MxCheck) : Drain :=
  let (c0, ev) := c.mxFlags x
  let x1 := x.readExps (c0.mxRead x)
  if mxTargets x1 = [] then
    let (c1, ev1, n) := c0.drainReader x1 check
    (c1.mxStore x1, ev ++ ev1, n)
  else
    (mxTargets x1).foldl (Ctx.drainTile x1 check) (c0, ev, 0)

/-- A word whose check fails again is a persistent fault of the array, which fences the matrix engines of the cluster (R285,
R288). -/
def State.arrayFault (s : State) (p : Nat) (check : MxCheck) : State :=
  match check with
  | .failTwice _ => if s.fencedMx.contains (clusterOf p) then s else { s with fencedMx := s.fencedMx ++ [clusterOf p] }
  | _ => s

/-! ## The array's order (R66, R406) -/

/-- The cycles that a word runs in the array, where the manual fixes them (R56, R350, R406, R418, R437, R442); ACVT's are those
of its last row group (R352). -/
def mxLatency (x : MCmd) : Option Nat :=
  let twice := if x.f.redun then 2 else 1
  match x.op with
  | .mma | .mmas | .mmts | .mmab => some (64 * x.f.ks.toNat * twice)
  | .sca => some (8 * x.f.ks.toNat * twice)
  | .nrm => some 6
  | .aclr | .setx => some 1
  | .acvt | .ald | .ast => none

/-- A word enters the active set. In joined mode ACVT puts its rows in flight (R352), and a word of fixed latency has its
schedule cycle. -/
def Ctx.mxStart (c : Ctx) (x : MCmd) : Ctx :=
  let y := { x with due := if c.joined && !x.cancel then (mxLatency x).map (c.t + ·) else none }
  if x.op = .acvt ∧ c.joined ∧ !x.cancel then
    { c with mx := { c.mx with active := some { y with rows := true }, shadow := none }, flight := c.flight ++ cvtRows c x }
  else { c with mx := { c.mx with active := some y, shadow := none } }

/-- A word issues to the array: its streams advance, and it enters the shadow set, or the active set of an idle array. -/
def Ctx.mxIssue (c : Ctx) (x : MCmd) : Ctx :=
  let y := { x with da := c.descr x.f.adesc, dm := c.descr x.f.mdesc, no := c.mx.issued }
  let c1 := c.mxAdvance x.op x.f
  let c2 := { c1 with mx := { c1.mx with issued := c1.mx.issued + 1 } }
  if c2.mx.active.isNone then c2.mxStart y else { c2 with mx := { c2.mx with shadow := some y } }

/-- The issue of a matrix word by the compute sequencer (R58, R66, R67, R406, R407). -/
def matrixWord (h : Hd) (op : MxOp) (f : MxF) (s : State) : Out :=
  accOut (mxAcc op f) <| runWord h 2 true s (fun s c =>
    if c.nomx then .trap s engineTrap
    else if c.mx.shadow.isSome || (mxOpnds op f (c.descr f.adesc) (c.descr f.mdesc)).any c.awaitsElems then .stall s c
    else
      match c.mxTrap op f with
      | some t => .trap s t
      | none =>
        .done s (c.mxIssue { op := op, f := f, wait := h.wait, sig := h.sig, da := 0, dm := 0, idx := c.comp.pc,
                             chained := false, cancel := false, bno := c.comp.bcastId, no := 0, rows := false,
                             exps := [], due := none, born := 0 }) .none true)

/-- MMA (R404 to R408). -/
def execMma (h : Hd) (f : MxF) (s : State) : Out := matrixWord h .mma f s
/-- MMAS (R410). -/
def execMmas (h : Hd) (f : MxF) (s : State) : Out := matrixWord h .mmas f s
/-- MMAB (R409). -/
def execMmab (h : Hd) (f : MxF) (s : State) : Out := matrixWord h .mmab f s
/-- MMTS (R411). -/
def execMmts (h : Hd) (f : MxF) (s : State) : Out := matrixWord h .mmts f s
/-- SCA (R436, R437). -/
def execSca (h : Hd) (f : MxF) (s : State) : Out := matrixWord h .sca f s
/-- NRM (R418). -/
def execNrm (h : Hd) (f : MxF) (s : State) : Out := matrixWord h .nrm f s
/-- ACLR (R350). -/
def execAclr (h : Hd) (f : MxF) (s : State) : Out := matrixWord h .aclr f s
/-- ACVT (R351, R352). -/
def execAcvt (h : Hd) (f : MxF) (s : State) : Out := matrixWord h .acvt f s
/-- ALD (R355, R356). -/
def execAld (h : Hd) (f : MxF) (s : State) : Out := matrixWord h .ald f s
/-- AST (R355, R356). -/
def execAst (h : Hd) (f : MxF) (s : State) : Out := matrixWord h .ast f s
/-- SETX (R442). -/
def execSetx (h : Hd) (f : MxF) (s : State) : Out := matrixWord h .setx f s

/-! ## Device steps -/

/-- The wait of an offered word, on the semaphores themselves: the word lies outside the joined schedule (R70). -/
def Ctx.offerWait (c : Ctx) (x : MCmd) : Option Ctx :=
  if x.wait = 0xFF then some c
  else if c.sem x.wait = 0 then none
  else some (c.setSem x.wait (c.sem x.wait - 1))

/-- The oldest offered matrix word (R70, R407): it waits, and enters the array, or traps with the copy word's index in EPC and
stays offered. Offers are served in the order of their copy words, and one that waits keeps back the later ones (log 97). -/
def State.offerOne (s : State) (c : Ctx) (x : MCmd) : State :=
  match c.offerWait x with
  | none => s
  | some c1 =>
    if x.cancel then s.setCtx ({ c1 with offers := c1.offers.tail }.sigField x.sig)
    else if c.mx.shadow.isSome then s
    else
      match c.mxTrap x.op x.f with
      | some t => if s.escapeOk c then s.suspend c .load false (some x.idx) (t.wordAcc (mxAcc x.op x.f)) else s.waitSafe c
      | none => s.setCtx ({ c1 with offers := c1.offers.tail }.mxIssue x)

/-- ENGINE_COMMAND_START (R66, R70). -/
def execEngineCommandStart (cid : Nat) (e : Eng) (s : State) : Out :=
  match s.ctx cid with
  | none => .next s
  | some c =>
    if !s.enginesRun c then .next s
    else
      match e with
      | .mx =>
        match c.mx.active, c.mx.shadow, c.offers with
        | none, some x, _ => .next (s.setCtx (c.mxStart x))
        | _, _, x :: _ => .next (s.offerOne c x)
        | _, _, [] => .next s
      | _ => .next (s.setCtx (c.setChan e (c.chan e).start))

/-- COMMAND_SIGNAL (R69). A matrix word signals at its retirement (R281). -/
def execCommandSignal (cid : Nat) (e : Eng) (s : State) : Out :=
  match s.ctx cid with
  | none => .next s
  | some c =>
    match e with
    | .mx => .next s
    | _ => .next (s.signalCopy c e)

/-- The array's active word retires in this schedule cycle, before the long word (R56, R406). -/
def Ctx.arrayDue (c : Ctx) : Bool :=
  match c.mx.active with
  | some x => (match x.due with
    | some d => decide (d ≤ c.t)
    | none => x.rows && c.flight.all (fun f => !f.isRow || decide (f.due ≤ c.t)))
  | none => false

/-- The joined schedule of a context stands still: its core's last long word did not issue, and not for the array's word that is due
(R496); or the context does not run. -/
def State.still (s : State) (c : Ctx) : Bool :=
  !c.joined || !(c.stat == .running || c.stat == .inverse) || (s.last == .stalled && s.focus.1 == c.core && !c.arrayDue)

/-- The active word has run its cycles, and the rows of ACVT have landed; a schedule that stands still does not hold the array
back (R56, R352, R406; log 32). -/
def State.rowsDown (s : State) (c : Ctx) (x : MCmd) : Bool :=
  (c.flight.all (fun f => !f.isRow || decide (f.due ≤ c.t)) && decide (x.due.getD 0 ≤ c.t)) || s.still c

/-- Lands the rows of ACVT. -/
def Ctx.landRows (c : Ctx) : Ctx :=
  let c1 := c.landIf (fun f => f.isRow && (!c.joined || decide (f.due ≤ c.t)))
  (sortFlights (c1.flight.filter Flight.isRow)).foldl Ctx.landEarly c1

/-- After a matrix word: the shadow set moves up, unless the context is being suspended or leaves its core (R66, R200, R274). -/
def Ctx.mxNext (c : Ctx) : Ctx :=
  let c1 := { c with mx := { c.mx with active := none, retired := c.mx.retired + 1 } }
  match c1.mx.shadow with
  | some x => if (c1.stat = .running ∨ c1.stat = .inverse) ∧ !c1.leaving then c1.mxStart x else c1
  | none => c1

/-- MATRIX_WORD_RETIRE (R281 to R285, R406). A started word runs to completion before its context leaves the core (R200); at a
schedule-cycle stop it stands still (R318). -/
def execMatrixWordRetire (cid : Nat) (check : MxCheck) (s : State) : Out :=
  match s.ctx cid with
  | none => .next s
  | some c =>
    match c.mx.active with
    | none => .next s
    | some x =>
      if (s.core c.core).active ≠ some cid ∨ c.stat = .stopped ∨ !s.rowsDown c x then .next s
      else
        let c0 := c.landRows
        let (c1, ev, n) : Drain := if x.cancel then (c0, [], 0) else c0.drain { x with born := s.cycle.toNat } check
        let s1 := { s with events := s.events ++ ev, cores := (s.setCore c.core ((s.core c.core).bump 0x218 n)).cores }
        .next (((s1.setCtx (c1.mxNext.sigField x.sig)).trimWindows c.core).arrayFault c.core check)

end Sys2Proof.Machine
end

