-- ==== Sys2Proof/Machine/Vector.lean ====
section
/-!
DEFINITION. The vector unit (R60, R61, R68, R120 to R122, R156 to R159, R162, R336, R432, R454 to R485): operands, lanes and
masks, the checks at issue, every vector word, and RESULT_LAND.
-/
namespace Sys2Proof.Machine

/-! ## Lanes and masks (R456) -/

/-- Lane `i` of `w` bits. -/
def lane (w : Nat) (v : VWord) (i : Nat) : Nat := (v.extractLsb' (w * i) w).toNat

/-- Lanes of a width. -/
def lanesOf (w : Nat) : Nat := 1024 / w

/-- Mask m0 makes lane `i` active (R456). -/
def laneOn (w : Nat) (m : BitVec 64) (i : Nat) : Bool :=
  if w = 16 then m.getLsbD i else if w = 32 then m.getLsbD (2 * i) else m.getLsbD (i / 2)

/-- A mask from the results of lanes (R456). -/
def maskOf (w : Nat) (r : Nat → Bool) : BitVec 64 :=
  BitVec.ofNat 64 (packLanes 1 ((List.range 64).map (fun k =>
    (if w = 16 then r k else if w = 32 then r (k / 2) else r (2 * k) && r (2 * k + 1)).toNat)))

/-- The active lanes of a word. -/
def Ctx.active (c : Ctx) (w : Nat) : List Nat := (List.range (lanesOf w)).filter (laneOn w (c.mreg 0))

/-- Every lane. -/
def allLanes (w : Nat) : List Nat := List.range (lanesOf w)

/-! ## Operands (R455, R457, R458) -/

/-- An operand as one word uses it: the field, the width of its elements in bytes, the lanes (or stream elements) touched, and
the span. -/
structure Use where
  op   : VOp
  w    : Nat
  els  : List Nat
  span : Nat
  deriving DecidableEq, Repr

/-- A latch as a word reads it, or none where it is lost or has not landed (R61); a forked sequencer waits for it (R58). -/
def Ctx.latchRead (c : Ctx) (k : Nat) : Option VWord :=
  if c.joined then c.comp.latchVal c.t k else (c.comp.latches[k]?).map (fun l => l.val)

/-- A latch is filled and has not landed. -/
def Ctx.latchOpen (c : Ctx) (k : Nat) : Bool := (c.comp.latches[k]?).isSome && (c.latchRead k).isNone

/-- Bits of lane or element `i` of an operand with lanes of `w` bits. `c` is the context as the schedule sees it. -/
def Ctx.vread (c : Ctx) (x : VOp) (w i : Nat) : Nat :=
  match x with
  | .reg .v _ n => lane w (c.vreg n) i
  | .reg .bl _ n => lane w ((c.latchRead n.toNat).getD 0) i
  | .reg .s _ n => (c.comp.reg n).toNat % pow2 w
  | .reg .m _ _ => 0
  | .stream st o => c.elemBits (stSpace (c.descr st)) (stAddr (c.descr st) o.toNat i).toNat (w / 8)

/-- A read of a register whose pending bit is set (R59, R61). -/
def Ctx.useStale (c : Ctx) (u : Use) : Bool :=
  !u.els.isEmpty && (match u.op with
    | .reg .v _ n => c.vPending n
    | .reg .bl _ n => c.latchOpen n.toNat
    | .reg .m _ n => c.maskPending (n.setWidth 3)
    | .reg .s _ n => c.regPending .comp n
    | .stream _ _ => false)

/-- LATCH if an operand reads a latch that is lost or has not landed (R61). -/
def Ctx.useLatch (c : Ctx) (u : Use) : BitVec 5 :=
  match u.op with
  | .reg .bl _ n => if !u.els.isEmpty && (c.latchRead n.toNat).isNone then stLATCH else 0
  | _ => 0

/-- The stream of an operand. -/
def streamNo : VOp → Option (BitVec 6)
  | .stream st _ => some st
  | _ => none

/-- The element offset of a stream operand. -/
def offOf : VOp → Nat
  | .stream _ o => o.toNat
  | _ => 0

/-- STREAM of an operand (R182). -/
def Ctx.useStream (c : Ctx) (u : Use) : Option TrapRec :=
  (streamNo u.op).bind (fun st => if streamBad (c.descr st) u.w then some (streamTrap st) else none)

/-- LOCALRANGE of an operand. -/
def Ctx.useRange (c : Ctx) (acc : BitVec 3) (u : Use) : Option TrapRec :=
  (streamNo u.op).bind (fun st => c.elemsRange st (offOf u.op) u.w u.els acc)

/-- The elements that an operand reads. -/
def Ctx.useOpnd (c : Ctx) (u : Use) : Option Opnd := (streamNo u.op).map (fun st => opndOf (c.descr st) (offOf u.op) u.w u.els)

/-- OUTSTORE of elements that a vector or matrix word writes into a task's undo stack (R242; log 43). -/
def Ctx.useUndo (c : Ctx) (u : Use) : Option TrapRec := (c.useOpnd u).bind c.opUndo

/-- The traps of a vector word after NOVEC, in the order of R458; OUTSTORE comes last (log 43). -/
def Ctx.vecTrap (c : Ctx) (dst : Option Use) (srcs : List Use) : Option TrapRec :=
  let us := dst.toList ++ srcs
  firstTrap
    ([if us.any (fun u => ((streamNo u.op).map c.canopyStream).getD false) then some engineTrap else none] ++
      us.map c.useStream ++ dst.toList.map (c.useRange 1) ++ srcs.map (c.useRange 0) ++
      [c.examine (srcs.any c.useStale) (srcs.filterMap c.useOpnd)] ++ dst.toList.map c.useUndo)

/-- Advances the stream of every operand, a stream named more than once by the largest span (R181). -/
def Ctx.advanceUses (c : Ctx) (us : List Use) : Ctx :=
  ((us.filterMap (fun u => (streamNo u.op))).eraseDups).foldl (fun d st =>
    d.advance st ((us.filterMap (fun u => if (streamNo u.op) = some st then some u.span else none)).foldl max 0)) c

/-! ## Results -/

/-- What a vector word makes: lanes of `w` bits (none: not written), with the stream element of each; a mask; a scalar;
nothing. -/
inductive VRes where
  | lanes (w : Nat) (xs : List (Nat × Nat × Nat))
  | mask (x : BitVec 64)
  | scalar (x : Word)
  | nothing
  deriving DecidableEq, Repr

/-- One vector word at its issue: its destination and sources, its latency, its result and flags, and the scalar that VQNT
also writes. -/
structure VAct where
  dst   : Option Use
  srcs  : List Use
  lat   : Nat
  res   : VRes
  flags : BitVec 5
  extra : Option (BitVec 5 × Word)

/-- Puts lanes into a vector word: (lane, value, element). -/
def putLanes (w : Nat) (v : VWord) : List (Nat × Nat × Nat) → VWord
  | [] => v
  | (i, x, _) :: r =>
    let m : VWord := BitVec.ofNat 1024 ((pow2 w - 1) * pow2 (w * i))
    putLanes w ((v &&& ~~~m) ||| BitVec.ofNat 1024 (x % pow2 w * pow2 (w * i))) r

/-- The 1,024-bit result of lanes into a destination (R459). -/
def Ctx.laneResult (c : Ctx) (d : Option Use) (w : Nat) (xs : List (Nat × Nat × Nat)) : VWord :=
  putLanes w (match d with
    | some ⟨.reg .v _ n, _, _, _⟩ => c.vreg n
    | _ => 0) xs

/-- What the latch holds (R455, R459; log 12). -/
def Ctx.latchResult (c : Ctx) (free : Nat) (a : VAct) : VWord :=
  match a.res with
  | .lanes w xs => c.laneResult a.dst w xs
  | .scalar x => x.setWidth 1024
  | .mask _ => Config.latchOther free
  | .nothing => 0

/-- The word is result-producing (R60, R459): it writes a register, or NW keeps it from writing. -/
def VAct.produces (a : VAct) (nw : Bool) : Bool :=
  a.extra.isSome || match a.dst with
  | some ⟨.reg _ _ _, _, _, _⟩ => true
  | some _ => nw
  | none => false

/-- Where the result lands, its value, and the bits it writes (R456, R457). -/
def Ctx.landing (c : Ctx) (a : VAct) (nw : Bool) : Dest × VWord × VWord :=
  if nw then (.none, 0, 0)
  else
    match a.dst, a.res with
    | some ⟨.reg .v _ n, _, _, _⟩, .lanes w xs =>
      (.vreg n, putLanes w 0 xs, putLanes w 0 (xs.map (fun x => (x.1, pow2 w - 1, x.2.2))))
    | some ⟨.reg .m _ n, _, _, _⟩, .mask x => (.mask (n.setWidth 3), x.setWidth 1024, BitVec.allOnes 1024)
    | some ⟨.reg .s _ n, _, _, _⟩, .scalar x => (.reg n, x.setWidth 1024, BitVec.allOnes 1024)
    | some ⟨.stream st o, _, _, _⟩, .lanes w xs =>
      (.elems (w / 8) (xs.map (fun x =>
        (x.1, localKey (stSpace (c.descr st)) (stAddr (c.descr st) o.toNat x.2.2).toNat))), putLanes w 0 xs,
        BitVec.allOnes 1024)
    | _, _ => (.none, 0, 0)

/-- The issue of a checked word (R59, R60, R68, R181, R336, R459). -/
def Ctx.vecIssue (c : Ctx) (free : Nat) (sig : BitVec 8) (nw : Bool) (a : VAct) (read : BitVec 5) : Ctx :=
  let (d, v, m) := c.landing a nw
  let f : Flight :=
    { sq := .comp, dest := d, val := v, mask := m, due := c.t + a.lat, sig := sig, flags := a.flags ||| read, leg := none
      vno := c.vno + 1 }
  let c1 := { c.advanceUses (a.dst.toList ++ a.srcs) with vno := c.vno + 1, flight := c.flight ++ [f] }
  let c2 := match (if nw then none else a.extra) with
    | some (n, x) => c1.launchResult (c.flightOf .comp (.reg n) (x.setWidth 1024) a.lat 0)
    | none => c1
  if a.produces nw then c2.latch .comp (c.latchResult free a) a.lat else c2

/-- The signal of a vector word that writes nothing: it lands at the latency of a simple operation (R336). -/
def Ctx.bareSignal (c : Ctx) (sig : BitVec 8) : Ctx :=
  { c with vno := c.vno + 1
           flight := c.flight ++ [{ sq := .comp, dest := .none, val := 0, mask := 0, due := c.t + 2, sig := sig, flags := 0, leg := none,
                                    vno := c.vno + 1 }] }

/-- A vector word of a cancelled broadcast performs its signal as a word that writes nothing (R79, R336). -/
def bareCancelled (c0 : Ctx) (q : Sq) (sig : BitVec 8) (o : Out) : Out :=
  match o with
  | .next s =>
    if c0.cancelled q ∧ s.last = .issued then
      match s.ctx c0.cid with
      | some c => .next (s.setCtx (c.bareSignal sig))
      | none => .next s
    else .next s
  | o => o

/-- A forked sequencer waits for what an earlier ACVT or AST of its own has still to write and a word reads (R58). -/
def Ctx.awaitsRows (c : Ctx) (u : Use) : Bool :=
  !c.joined && c.mxCmds.any (fun m => !m.chained && (match u.op with
    | .reg .v _ n => m.writesV n.toNat
    | .stream st o => u.els.any (fun i =>
        m.pending (localKey (stSpace (c.descr st)) (stAddr (c.descr st) o.toNat i).toNat) u.w)
    | _ => false))

/-- A header without a guard. -/
def Hd.noGuard (h : Hd) : Hd := { h with pred := 0, pneg := false }

/-- The kind of access of a vector word: its streams' (R296). -/
def vecAcc (x : VecF) : BitVec 3 :=
  let reads := (streamNo x.a).isSome || (streamNo x.b).isSome
  if !x.nw && (streamNo x.d).isSome then (if reads then 2 else 1) else 0

/-- A vector word (R458): NOVEC first, whatever the guard; a false guard leaves the wait and the signal, which every vector word
performs as its result lands (R336). -/
def vectorWord (h : Hd) (x : VecF) (s : State) (k : Ctx → VAct) : Out :=
  accOut (vecAcc x) <| match s.activeCtx s.focus.1 with
  | none => .fault .noContext
  | some c0 =>
    bareCancelled c0 s.focus.2 h.sig (runWord { (if c0.novec then Hd.noGuard h else h) with sig := 0xFF } 1 true s (fun s c =>
      if c.novec then .trap s engineTrap
      else if !c.comp.guard h then .ok s (c.bareSignal h.sig)
      else
        let d := c.view
        let a := k d
        if a.srcs.any c.awaitsRows then .stall s c
        else
          match d.vecTrap a.dst a.srcs with
          | some t => .trap s t
          | none =>
            let read := d.opsVac (a.srcs.filterMap d.useOpnd) ||| a.srcs.foldl (fun f u => f ||| d.useLatch u) 0
            .done s (c.vecIssue s.free h.sig x.nw a read) .none true))

/-! ## Building the operands of a word -/

/-- Latencies of the classes (R459). -/
def latSimple : Nat := 2
/-- FMA class. -/
def latFma : Nat := 4
/-- Transcendental class. -/
def latTrans : Nat := 8
/-- Gather class. -/
def latGather : Nat := 6

/-- The read of m0 by a masked word. -/
def useM0 : Use := { op := .reg .m 0 0, w := 0, els := [0], span := 0 }

/-- A source whose lanes are read. -/
def srcUse (op : VOp) (w : Nat) (els : List Nat) : Use := { op := op, w := w / 8, els := els, span := lanesOf w }

/-- A destination whose lanes are written; with NW = 1 none is. -/
def dstUse (x : VecF) (w : Nat) (els : List Nat) (span : Nat) : Use :=
  { op := x.d, w := w / 8, els := if x.nw then [] else els, span := span }

/-- A result with each lane at the element of its own number. -/
def laneRes (w : Nat) (is : List Nat) (f : Nat → Nat) : VRes := .lanes w (is.map (fun i => (i, f i, i)))

/-- Sticky flags of lanes. -/
def laneFlags (is : List Nat) (f : Nat → Flags) : BitVec 5 := is.foldl (fun g i => g ||| Flags.sticky (f i)) 0

/-- A masked word whose lanes each depend on the lanes of its sources: `g i` gives lane `i` and its flags. -/
def maskedAct (c : Ctx) (x : VecF) (srcs : List VOp) (lat : Nat) (g : Nat → Nat × Flags) : VAct :=
  let w := x.ty.bits
  let is := c.active w
  { dst := some (dstUse x w is (lanesOf w)), srcs := useM0 :: srcs.map (fun o => srcUse o w is), lat := lat,
    res := laneRes w is (fun i => (g i).1), flags := laneFlags is (fun i => (g i).2), extra := none }

/-- Lane `i` of an operand at the word's width. -/
def Ctx.at' (c : Ctx) (x : VecF) (o : VOp) (i : Nat) : Nat := c.vread o x.ty.bits i

/-- A masked word of one source: each active lane is `f` of its lane of A. -/
def unaryAct (x : VecF) (lat : Nat) (f : Nat → Nat × Flags) (c : Ctx) : VAct :=
  maskedAct c x [x.a] lat (fun i => f (c.at' x x.a i))

/-- A masked word of two sources: each active lane is `f` of its lanes of A and B. -/
def binaryAct (x : VecF) (lat : Nat) (f : Nat → Nat → Nat × Flags) (c : Ctx) : VAct :=
  maskedAct c x [x.a, x.b] lat (fun i => f (c.at' x x.a i) (c.at' x x.b i))

/-! ## Lane arithmetic (R460 to R468, R475, R485) -/

/-- A lane as an integer of its type. -/
def laneInt (ty : Fmt) (x : Nat) : Int := if ty.isSigned then signed ty.bits x else (x : Int)

/-- A lane with no flag. -/
def plainLane (x : Nat) : Nat × Flags := (x, Flags.none)

/-- A lane that is moved as it stands: a NaN or an infinity that is written sets NF (R141). -/
def movedLane (ty : Fmt) (x : Nat) : Nat × Flags := (x, { ov := false, nf := (ty.num x).nonFinite })

/-- The flags of lanes that are moved. -/
def movedFlags (ty : Fmt) (is : List Nat) (f : Nat → Nat) : BitVec 5 := laneFlags is (fun i => (movedLane ty (f i)).2)

/-- A float lane chosen exactly: a NaN is canonical, and a lane that is not finite sets NF (R135, R141). -/
def exactLane (ty : Fmt) (x : Nat) : Nat × Flags :=
  match ty.num x, ty.float with
  | .nan, some f => (f.nan, { ov := false, nf := true })
  | .inf _, _ => (x, { ov := false, nf := true })
  | _, _ => plainLane x

/-- The canonical NaN with NF. -/
def nanLane (ty : Fmt) : Nat × Flags := (((ty.float).map (fun f => f.nan)).getD 0, { ov := false, nf := true })

/-- VADD (R463). -/
def addLane (ty : Fmt) (rnd : Rnd) (a b : Nat) : Nat × Flags :=
  if ty.isF then ty.ofNum rnd 0 ((ty.num a).add rnd (ty.num b)) else plainLane ((a + b) % pow2 ty.bits)

/-- VSUB. -/
def subLane (ty : Fmt) (rnd : Rnd) (a b : Nat) : Nat × Flags :=
  if ty.isF then ty.ofNum rnd 0 ((ty.num a).add rnd (ty.num b).neg) else plainLane (wrap ty.bits ((a : Int) - b))

/-- VMUL. -/
def mulLane (ty : Fmt) (rnd : Rnd) (a b : Nat) : Nat × Flags :=
  if ty.isF then ty.ofNum rnd 0 ((ty.num a).mul (ty.num b)) else plainLane (a * b % pow2 ty.bits)

/-- VFMA and VFMS (R475). -/
def fmaLane (ty : Fmt) (rnd : Rnd) (minus : Bool) (d a b : Nat) : Nat × Flags :=
  if ty.isF then
    let p := (ty.num a).mul (ty.num b)
    ty.ofNum rnd 0 ((ty.num d).add rnd (if minus then p.neg else p))
  else plainLane (wrap ty.bits (if minus then (d : Int) - a * b else d + a * b))

/-- The smaller of two float lanes that are no NaN; −0 counts below +0. -/
def minBits (ty : Fmt) (a b : Nat) : Nat := if (ty.num b).below (ty.num a) then b else a

/-- The larger. -/
def maxBits (ty : Fmt) (a b : Nat) : Nat := if (ty.num a).below (ty.num b) then b else a

/-- Some operand is a NaN. -/
def anyNan (ty : Fmt) (a b : Nat) : Bool := ty.num a == .nan || ty.num b == .nan

/-- VMIN (R463). -/
def minLane (ty : Fmt) (a b : Nat) : Nat × Flags :=
  if ty.isF then (if anyNan ty a b then nanLane ty else exactLane ty (minBits ty a b))
  else plainLane (if laneInt ty b < laneInt ty a then b else a)

/-- VMAX. -/
def maxLane (ty : Fmt) (a b : Nat) : Nat × Flags :=
  if ty.isF then (if anyNan ty a b then nanLane ty else exactLane ty (maxBits ty a b))
  else plainLane (if laneInt ty a < laneInt ty b then b else a)

/-- The code with its sign bit inverted. -/
def flipSign (ty : Fmt) (a : Nat) : Nat := (a + pow2 (ty.bits - 1)) % pow2 ty.bits

/-- VCLMP (R467). -/
def clampLane (ty : Fmt) (a b : Nat) : Nat × Flags :=
  if ty.isF then
    (if anyNan ty a b then nanLane ty else exactLane ty (minBits ty (maxBits ty a (flipSign ty b)) b))
  else if ty.isSigned then
    plainLane (wrap ty.bits (min (max (laneInt ty a) (-laneInt ty b)) (laneInt ty b)))
  else plainLane (min a b)

/-- VABS (R462). -/
def absLane (ty : Fmt) (a : Nat) : Nat × Flags :=
  if ty.isF then exactLane ty (a % pow2 (ty.bits - 1))
  else if ty.isSigned then plainLane (wrap ty.bits (laneInt ty a).natAbs)
  else plainLane a

/-- VNEG (R462). -/
def negLane (ty : Fmt) (a : Nat) : Nat × Flags :=
  if ty.isF then exactLane ty (flipSign ty a) else plainLane (wrap ty.bits (-(a : Int)))

/-- VSHL (R485). -/
def shlLane (ty : Fmt) (a n : Nat) : Nat × Flags := plainLane (if n < ty.bits then a * pow2 n % pow2 ty.bits else 0)

/-- VSHR. -/
def shrLane (ty : Fmt) (a n : Nat) : Nat × Flags := plainLane (if n < ty.bits then a / pow2 n else 0)

/-- VSRA. -/
def sraLane (ty : Fmt) (a n : Nat) : Nat × Flags :=
  plainLane (wrap ty.bits (signed ty.bits a / (pow2 (min n (ty.bits - 1)) : Int)))

/-- The test of VCMP (R468): `cc` is its code. -/
def cmpLane (ty : Fmt) (cc : Nat) (a b : Nat) : Bool :=
  if ty.isF then
    let x := ty.num a
    let y := ty.num b
    let un := anyNan ty a b
    match cc with
    | 0 => x.same y
    | 1 => !x.same y
    | 2 => x.lt y
    | 3 => !un && !x.lt y
    | 4 => !un && !y.lt x
    | 5 => y.lt x
    | _ => un
  else
    let x := laneInt ty a
    let y := laneInt ty b
    match cc with
    | 0 => decide (x = y)
    | 1 => decide (x ≠ y)
    | 2 => decide (x < y)
    | 3 => decide (y ≤ x)
    | 4 => decide (x ≤ y)
    | 5 => decide (y < x)
    | _ => false

/-! ## The words of arithmetic and bits -/

/-- VADD (R463). -/
def execVadd (h : Hd) (x : VecF) (s : State) : Out := vectorWord h x s (binaryAct x latFma (addLane x.ty x.rnd))
/-- VSUB (R463). -/
def execVsub (h : Hd) (x : VecF) (s : State) : Out := vectorWord h x s (binaryAct x latFma (subLane x.ty x.rnd))
/-- VMUL (R463). -/
def execVmul (h : Hd) (x : VecF) (s : State) : Out := vectorWord h x s (binaryAct x latFma (mulLane x.ty x.rnd))
/-- VMIN (R463). -/
def execVmin (h : Hd) (x : VecF) (s : State) : Out := vectorWord h x s (binaryAct x latSimple (minLane x.ty))
/-- VMAX (R463). -/
def execVmax (h : Hd) (x : VecF) (s : State) : Out := vectorWord h x s (binaryAct x latSimple (maxLane x.ty))
/-- VCLMP (R467). -/
def execVclmp (h : Hd) (x : VecF) (s : State) : Out := vectorWord h x s (binaryAct x latSimple (clampLane x.ty))
/-- VABS (R462). -/
def execVabs (h : Hd) (x : VecF) (s : State) : Out := vectorWord h x s (unaryAct x latSimple (absLane x.ty))
/-- VNEG (R462). -/
def execVneg (h : Hd) (x : VecF) (s : State) : Out := vectorWord h x s (unaryAct x latSimple (negLane x.ty))
/-- VAND (R464). -/
def execVand (h : Hd) (x : VecF) (s : State) : Out := vectorWord h x s (binaryAct x latSimple (fun a b => plainLane (a &&& b)))
/-- VOR (R464). -/
def execVor (h : Hd) (x : VecF) (s : State) : Out := vectorWord h x s (binaryAct x latSimple (fun a b => plainLane (a ||| b)))
/-- VXOR (R464). -/
def execVxor (h : Hd) (x : VecF) (s : State) : Out := vectorWord h x s (binaryAct x latSimple (fun a b => plainLane (a ^^^ b)))
/-- VNOT (R464). -/
def execVnot (h : Hd) (x : VecF) (s : State) : Out :=
  vectorWord h x s (unaryAct x latSimple (fun a => plainLane (pow2 x.ty.bits - 1 - a)))
/-- VSHL (R485). -/
def execVshl (h : Hd) (x : VecF) (s : State) : Out := vectorWord h x s (binaryAct x latSimple (shlLane x.ty))
/-- VSHR (R485). -/
def execVshr (h : Hd) (x : VecF) (s : State) : Out := vectorWord h x s (binaryAct x latSimple (shrLane x.ty))
/-- VSRA (R485). -/
def execVsra (h : Hd) (x : VecF) (s : State) : Out := vectorWord h x s (binaryAct x latSimple (sraLane x.ty))
/-- VEXP2 (R157, R158, R474). -/
def execVexp2 (h : Hd) (x : VecF) (s : State) : Out := vectorWord h x s (unaryAct x latTrans (Trans.exp2.lane x.ty))
/-- VLOG2. -/
def execVlog2 (h : Hd) (x : VecF) (s : State) : Out := vectorWord h x s (unaryAct x latTrans (Trans.log2.lane x.ty))
/-- VRCP. -/
def execVrcp (h : Hd) (x : VecF) (s : State) : Out := vectorWord h x s (unaryAct x latTrans (Trans.rcp.lane x.ty))
/-- VRSQ. -/
def execVrsq (h : Hd) (x : VecF) (s : State) : Out := vectorWord h x s (unaryAct x latTrans (Trans.rsq.lane x.ty))

/-- VFMA and VFMS: D is read as a source (R475). -/
def fmaAct (x : VecF) (minus : Bool) (c : Ctx) : VAct :=
  maskedAct c x [x.d, x.a, x.b] latFma (fun i =>
    fmaLane x.ty x.rnd minus (c.at' x x.d i) (c.at' x x.a i) (c.at' x x.b i))

/-- VFMA and VFMS: D is read as a source (R475). -/
def fmaWord (h : Hd) (x : VecF) (s : State) (minus : Bool) : Out := vectorWord h x s (fmaAct x minus)

/-- VFMA (R475). -/
def execVfma (h : Hd) (x : VecF) (s : State) : Out := fmaWord h x s false
/-- VFMS (R475). -/
def execVfms (h : Hd) (x : VecF) (s : State) : Out := fmaWord h x s true

/-! ## Masks and choices -/

/-- VCMP (R468). -/
def vcmpAct (x : VecF) (c : Ctx) : VAct :=
  let w := x.ty.bits
  let is := c.active w
  { dst := some (dstUse x w [] 0), srcs := [useM0, srcUse x.a w is, srcUse x.b w is], lat := latSimple,
    res := .mask (maskOf w (fun i => laneOn w (c.mreg 0) i && cmpLane x.ty x.d.aux.toNat (c.at' x x.a i) (c.at' x x.b i)))
    flags := 0, extra := none }

/-- VCMP (R468). -/
def execVcmp (h : Hd) (x : VecF) (s : State) : Out := vectorWord h x s (vcmpAct x)

/-- VSEL (R484). -/
def vselAct (x : VecF) (c : Ctx) : VAct :=
  let w := x.ty.bits
  let on (i : Nat) : Bool := laneOn w (c.mreg 0) i
  let is := allLanes w
  let r (i : Nat) : Nat := if on i then c.at' x x.a i else c.at' x x.b i
  { dst := some (dstUse x w is (lanesOf w))
    srcs := [useM0, srcUse x.a w (is.filter on), srcUse x.b w (is.filter (fun i => !on i))], lat := latSimple
    res := laneRes w is r, flags := movedFlags x.ty is r, extra := none }

/-- VSEL (R484). -/
def execVsel (h : Hd) (x : VecF) (s : State) : Out := vectorWord h x s (vselAct x)

/-- VMSK's function (R480). -/
def maskFn (op : Nat) (a b : BitVec 64) : BitVec 64 :=
  match op with
  | 0 => a &&& b
  | 1 => a ||| b
  | 2 => a ^^^ b
  | 3 => a &&& ~~~b
  | 4 => ~~~a
  | 5 => onesMask
  | _ => 0

/-- A mask operand. -/
def Ctx.maskAt (c : Ctx) (o : VOp) : BitVec 64 := c.mreg (o.num.setWidth 3)

/-- A read of a mask register, and of nothing where the field is unused. -/
def useMask (o : VOp) : Use := { op := o, w := 0, els := if o.mask then [0] else [], span := 0 }

/-- VMSK (R480). -/
def vmskAct (x : VecF) (c : Ctx) : VAct :=
  { dst := some (dstUse x 32 [] 0), srcs := [useMask x.a, useMask x.b], lat := latSimple,
    res := .mask (maskFn x.d.aux.toNat (c.maskAt x.a) (c.maskAt x.b)), flags := 0, extra := none }

/-- VMSK (R480). -/
def execVmsk (h : Hd) (x : VecF) (s : State) : Out := vectorWord h x s (vmskAct x)

/-- VMOV (R479). -/
def vmovAct (x : VecF) (c : Ctx) : VAct :=
  if x.d.mask then
    { dst := some (dstUse x 32 [] 0), srcs := [useMask x.a], lat := latSimple, res := .mask (c.maskAt x.a), flags := 0,
      extra := none }
  else maskedAct c x [x.a] latSimple (fun i => movedLane x.ty (c.at' x x.a i))

/-- VMOV (R479). -/
def execVmov (h : Hd) (x : VecF) (s : State) : Out := vectorWord h x s (vmovAct x)

/-- VCNT (R469). -/
def vcntAct (x : VecF) (c : Ctx) : VAct :=
  { dst := some (dstUse x 32 [] 0), srcs := [useMask x.a], lat := latSimple,
    res := .scalar (BitVec.ofNat 32 ((allLanes x.ty.bits).filter (laneOn x.ty.bits (c.maskAt x.a))).length), flags := 0,
    extra := none }

/-- VCNT (R469). -/
def execVcnt (h : Hd) (x : VecF) (s : State) : Out := vectorWord h x s (vcntAct x)

/-- VCHK (R162, R466). -/
def vchkAct (x : VecF) (c : Ctx) : VAct :=
  let is := c.active x.ty.bits
  { dst := none, srcs := [useM0, srcUse x.a x.ty.bits is], lat := latSimple, res := .nothing,
    flags := if is.any (fun i => (x.ty.num (c.at' x x.a i)).nonFinite) then stNF else 0, extra := none }

/-- VCHK (R162, R466). -/
def execVchk (h : Hd) (x : VecF) (s : State) : Out := vectorWord h x s (vchkAct x)

/-! ## Moves between lanes -/

/-- VBCST (R465). -/
def vbcstAct (x : VecF) (c : Ctx) : VAct :=
  let w := x.ty.bits
  let is := c.active w
  let k := match x.a with
    | .stream _ _ => 0
    | a => a.aux.toNat
  { dst := some (dstUse x w is (lanesOf w))
    srcs := [useM0, { op := x.a, w := w / 8, els := if is.isEmpty then [] else [k], span := 1 }], lat := latSimple
    res := laneRes w is (fun _ => c.at' x x.a k), flags := movedFlags x.ty is (fun _ => c.at' x x.a k), extra := none }

/-- VBCST (R465). -/
def execVbcst (h : Hd) (x : VecF) (s : State) : Out := vectorWord h x s (vbcstAct x)

/-- VIDX (R478). -/
def vidxAct (x : VecF) (c : Ctx) : VAct :=
  maskedAct c x [x.a] latSimple (fun i =>
    plainLane (((c.comp.reg x.a.num).toNat + i * x.a.aux.toNat) % pow2 x.ty.bits))

/-- VIDX (R478). -/
def execVidx (h : Hd) (x : VecF) (s : State) : Out := vectorWord h x s (vidxAct x)

/-- A word that reads every lane of its sources and writes the active lanes (R481). -/
def shuffleAct (c : Ctx) (x : VecF) (srcs : List Use) (g : Nat → Nat) : VAct :=
  let w := x.ty.bits
  let is := c.active w
  { dst := some (dstUse x w is (lanesOf w)), srcs := useM0 :: srcs, lat := latSimple, res := laneRes w is g,
    flags := movedFlags x.ty is g, extra := none }

/-- VPERM (R481). -/
def vpermAct (x : VecF) (c : Ctx) : VAct :=
  let w := x.ty.bits
  shuffleAct c x [srcUse x.a w (allLanes w), srcUse x.b w (allLanes w)] (fun i =>
    c.at' x x.a (c.at' x x.b i % lanesOf w))

/-- VPERM (R481). -/
def execVperm (h : Hd) (x : VecF) (s : State) : Out := vectorWord h x s (vpermAct x)

/-- Lane `i` of VSHUF's result (R481). -/
def shufLane (pat : Shuf) (n : Nat) (a b : Nat → Nat) (i : Nat) : Nat :=
  let m := n / 2
  match pat with
  | .zlo => if i % 2 = 0 then a (i / 2) else b (i / 2)
  | .zhi => if i % 2 = 0 then a (m + i / 2) else b (m + i / 2)
  | .uev => if i < m then a (2 * i) else b (2 * (i - m))
  | .uod => if i < m then a (2 * i + 1) else b (2 * (i - m) + 1)

/-- VSHUF (R481). -/
def vshufAct (x : VecF) (pat : Shuf) (c : Ctx) : VAct :=
  let w := x.ty.bits
  shuffleAct c x [srcUse x.a w (allLanes w), srcUse x.b w (allLanes w)]
    (shufLane pat (lanesOf w) (c.at' x x.a) (c.at' x x.b))

/-- VSHUF (R481). -/
def execVshuf (h : Hd) (x : VecF) (pat : Shuf) (s : State) : Out := vectorWord h x s (vshufAct x pat)

/-- VSLD (R481). -/
def vsldAct (x : VecF) (c : Ctx) : VAct :=
  let w := x.ty.bits
  let m := (c.comp.reg x.b.num).toInt
  shuffleAct c x [srcUse x.a w (allLanes w), { op := x.b, w := 0, els := [0], span := 0 }] (fun i =>
    let j := (i : Int) + m
    if 0 ≤ j ∧ j < lanesOf w then c.at' x x.a j.toNat else 0)

/-- VSLD (R481). -/
def execVsld (h : Hd) (x : VecF) (s : State) : Out := vectorWord h x s (vsldAct x)

/-- The index lane of a gather or scatter (R476). -/
def Ctx.idxLane (c : Ctx) (x : VecF) (i : Nat) : Nat := c.at' x x.b i

/-- VGTH (R476, R477). -/
def vgthAct (x : VecF) (c : Ctx) : VAct :=
  let w := x.ty.bits
  let is := c.active w
  { dst := some (dstUse x w is (lanesOf w))
    srcs := [useM0, { op := x.a, w := w / 8, els := is.map (c.idxLane x), span := 0 }, srcUse x.b w is]
    lat := latGather, res := laneRes w is (fun i => c.at' x x.a (c.idxLane x i))
    flags := movedFlags x.ty is (fun i => c.at' x x.a (c.idxLane x i)), extra := none }

/-- VGTH (R476, R477). -/
def execVgth (h : Hd) (x : VecF) (s : State) : Out := vectorWord h x s (vgthAct x)

/-- VSCT (R476, R477). -/
def vsctAct (x : VecF) (c : Ctx) : VAct :=
  let w := x.ty.bits
  let is := c.active w
  { dst := some (dstUse x w (is.map (c.idxLane x)) 0), srcs := [useM0, srcUse x.a w is, srcUse x.b w is], lat := latGather,
    res := .lanes w (is.map (fun i => (i, c.at' x x.a i, c.idxLane x i))), flags := movedFlags x.ty is (c.at' x x.a), extra := none }

/-- VSCT (R476, R477). -/
def execVsct (h : Hd) (x : VecF) (s : State) : Out := vectorWord h x s (vsctAct x)

/-! ## Conversions -/

/-- The random value of lane `i` under sto (R470). -/
def Ctx.random (c : Ctx) (x : VecF) (i : Nat) : Nat :=
  if x.rnd != .sto then 0
  else
    match x.b with
    | .reg .v aux n => if i < 64 then c.vread x.b 16 i else c.vread (.reg .v aux (n + 1)) 16 (i - 64)
    | b => c.vread b 16 i

/-- The reads of the random source: its span is the word's lanes (R470). -/
def randomUses (x : VecF) (n : Nat) (is : List Nat) : List Use :=
  if x.rnd != .sto then []
  else
    { op := x.b, w := 2, els := is.filter (fun i => decide (i < 64) || x.b.isStream), span := n } ::
      (match x.b with
       | .reg .v aux k => [{ op := .reg .v aux (k + 1), w := 2, els := is.filter (fun i => decide (64 ≤ i)), span := n }]
       | _ => [])

/-- VCVT (R470, R471). -/
def vcvtAct (x : VecF) (c : Ctx) : VAct :=
  let st := x.stype.getD .fp32
  let w := max st.bits x.ty.bits
  let is := c.active w
  let g (i : Nat) : Nat × Flags := x.ty.ofNum x.rnd (c.random x i) (st.num (c.vread x.a st.bits i))
  { dst := some (dstUse x x.ty.bits is (lanesOf w))
    srcs := [useM0, srcUse x.a st.bits is] ++ randomUses x (lanesOf w) is, lat := latFma
    res := laneRes x.ty.bits is (fun i => (g i).1), flags := laneFlags is (fun i => (g i).2), extra := none }

/-- VCVT (R470, R471). -/
def execVcvt (h : Hd) (x : VecF) (s : State) : Out := vectorWord h x s (vcvtAct x)

/-- A value times 2^(sc − 127); NaN for a scale of 0xFF (R472, R483). -/
def scaled (x : Num) (sc : Nat) : Num := if sc = 255 then .nan else shiftNum x ((sc : Int) - 127)

/-- VSCL (R483). -/
def vsclAct (x : VecF) (c : Ctx) : VAct :=
  let w := x.ty.bits
  let is := c.active w
  let g (i : Nat) : Nat × Flags :=
    x.ty.ofNum x.rnd (c.random x i) (scaled (x.ty.num (c.at' x x.a i)) (x.a.aux.extractLsb' 0 8).toNat)
  { dst := some (dstUse x w is (lanesOf w)), srcs := [useM0, srcUse x.a w is] ++ randomUses x (lanesOf w) is, lat := latFma,
    res := laneRes w is (fun i => (g i).1), flags := laneFlags is (fun i => (g i).2), extra := none }

/-- VSCL (R483). -/
def execVscl (h : Hd) (x : VecF) (s : State) : Out := vectorWord h x s (vsclAct x)

/-- The scale register of VQNT and VDQN. -/
def VecF.sreg (x : VecF) : BitVec 5 := x.a.aux.extractLsb' 0 5

/-- VDQN (R472). -/
def vdqnAct (x : VecF) (c : Ctx) : VAct :=
  let st := x.stype.getD .e4m3
  let w := x.ty.bits
  let is := c.active w
  let g (i : Nat) : Nat × Flags :=
    x.ty.ofNum x.rnd 0 (scaled (st.num (c.vread x.a 8 i)) ((c.comp.reg (VecF.sreg x)).toNat / pow2 (8 * (i / 32)) % 256))
  { dst := some (dstUse x w is (lanesOf w))
    srcs := [useM0, srcUse x.a 8 is, { op := .reg .s 0 (VecF.sreg x), w := 0, els := is, span := 0 }], lat := latFma
    res := laneRes w is (fun i => (g i).1), flags := laneFlags is (fun i => (g i).2), extra := none }

/-- VDQN (R472). -/
def execVdqn (h : Hd) (x : VecF) (s : State) : Out := vectorWord h x s (vdqnAct x)

/-- VQNT (R473). -/
def vqntAct (x : VecF) (c : Ctx) : VAct :=
  let st := x.stype.getD .fp32
  let n := lanesOf st.bits
  let is := List.range n
  let blocks := (List.range (n / 32)).map (fun b => quantBlock x.ty x.rnd ((List.range 32).map (fun j =>
    (st.num (c.vread x.a st.bits (32 * b + j)), c.random x (32 * b + j)))))
  let qs := blocks.flatMap (fun k => k.2.1)
  { dst := some (dstUse x 8 is n), srcs := [srcUse x.a st.bits is] ++ randomUses x n is, lat := latFma
    res := laneRes 8 is (fun i => qs.getD i 0), flags := blocks.foldl (fun f k => f ||| k.2.2) 0
    extra := some (VecF.sreg x, BitVec.ofNat 32 (packLanes 8 (blocks.map Prod.fst))) }

/-- VQNT (R473). -/
def execVqnt (h : Hd) (x : VecF) (s : State) : Out := vectorWord h x s (vqntAct x)

/-! ## Reductions (R156, R482) -/

/-- One level of the tree. -/
def pairUp {α : Type} (f : α → α → α) : List α → List α
  | a :: b :: r => f a b :: pairUp f r
  | l => l

/-- The pairwise tree, by levels. -/
def tree {α : Type} (f : α → α → α) : Nat → List α → List α
  | 0, l => l
  | n + 1, l => tree f n (pairUp f l)

/-- One addition of VSUM, with the flags of its operands. -/
def sumPair (ty : Fmt) (rnd : Rnd) (a b : Nat × Flags) : Nat × Flags :=
  let r := addLane ty rnd a.1 b.1
  (r.1, (a.2.or b.2).or r.2)

/-- A word that writes one value to every lane (R482). -/
def reduceAct (c : Ctx) (x : VecF) (v : List Nat → Nat × Flags) : VAct :=
  let w := x.ty.bits
  let r := v (c.active w)
  { dst := some (dstUse x w (allLanes w) (lanesOf w)), srcs := [useM0, srcUse x.a w (c.active w)], lat := latFma,
    res := laneRes w (allLanes w) (fun _ => r.1), flags := Flags.sticky r.2, extra := none }

/-- VSUM (R156). -/
def vsumAct (x : VecF) (c : Ctx) : VAct :=
  reduceAct c x (fun is =>
    let zero := if x.ty.isF then pow2 (x.ty.bits - 1) else 0
    ((tree (sumPair x.ty x.rnd) 7 ((allLanes x.ty.bits).map (fun i =>
      plainLane (if is.contains i then c.at' x x.a i else zero)))).head?).getD (plainLane zero))

/-- VSUM (R156). -/
def execVsum (h : Hd) (x : VecF) (s : State) : Out := vectorWord h x s (vsumAct x)

/-- The value with which an inactive lane enters VRMX (R482). -/
def rmxStart (ty : Fmt) : Nat :=
  match ty.float with
  | some f => pow2 (ty.bits - 1) + f.inf.getD 0
  | none => wrap ty.bits ty.range.1

/-- VRMX (R482). -/
def vrmxAct (x : VecF) (c : Ctx) : VAct :=
  reduceAct c x (fun is =>
    let r := is.foldl (fun m i => (maxLane x.ty m (c.at' x x.a i)).1) (rmxStart x.ty)
    if x.ty.isF then exactLane x.ty r else plainLane r)

/-- VRMX (R482). -/
def execVrmx (h : Hd) (x : VecF) (s : State) : Out := vectorWord h x s (vrmxAct x)

/-! ## RNGB (R159, R432) -/

/-- The mixing function of R159. -/
def rngMix (index seed stream : BitVec 64) : BitVec 64 :=
  let x := index + seed * 0x9E3779B97F4A7C15 + stream * 0xD1B54A32D192ED03
  let y := (x ^^^ (x >>> 30)) * 0xBF58476D1CE4E5B9
  let z := (y ^^^ (y >>> 27)) * 0x94D049BB133111EB
  z ^^^ (z >>> 31)

/-- RNGB (R432). -/
def rngbAct (x : VecF) (c : Ctx) : VAct :=
  let w := x.ty.bits
  let is := allLanes w
  let pairUse (n : BitVec 5) : List Use :=
    [{ op := .reg .s 0 n, w := 0, els := [0], span := 0 }, { op := .reg .s 0 (n + 1), w := 0, els := [0], span := 0 }]
  { dst := some (dstUse x w is (lanesOf w)), srcs := pairUse x.a.num ++ pairUse x.b.num, lat := latFma
    res := laneRes w is (fun i => (rngMix (c.comp.pairAt x.a.num + BitVec.ofNat 64 i) (c.comp.pairAt x.b.num)
      (x.a.aux.zeroExtend 64)).toNat % pow2 w), flags := 0, extra := none }

/-- RNGB (R432). -/
def execRngb (h : Hd) (x : VecF) (s : State) : Out := vectorWord h x s (rngbAct x)

/-! ## RESULT_LAND -/

/-- The oldest vector result that has not landed. -/
def Ctx.oldestVector (c : Ctx) : Option Flight := (sortFlights (c.flight.filter (fun f => f.vno != 0))).head?

/-- RESULT_LAND (R56, R58, R336): what is due lands; a forked context's results land; while the joined schedule stands
still, the oldest vector result performs its signal (log 32). -/
def execResultLand (cid : Nat) (s : State) : Out :=
  match s.ctx cid with
  | none => .next s
  | some c =>
    if !s.enginesRun c then .next s
    else if !c.joined then .next (s.setCtx (c.landIf (fun _ => true)))
    else if c.hasDue none then
      .next (s.setCtx (if s.still c then { c.landDue none with landed := [] } else c.landDue none))
    else
      match c.oldestVector with
      | some f => if s.still c then .next (s.setCtx (c.landEarly f)) else .next s
      | none => .next s

end Sys2Proof.Machine
end

