-- ==== Sys2Proof/Machine/Scheduler.lean ====
section
/-!
DEFINITION. The scheduler (11; R16 to R24, R44, R45, R252 to R263, R274): queues and completion records, intake, dependences,
placement, pre-emption, and the retirement of members.
-/
namespace Sys2Proof.Machine

/-! ## Messages to the harts (R294, R332) -/

/-- A message interrupt: it is sent to the interrupt file that MSIA names, or waits while MSIA is not set. -/
def State.sendMsi (s : State) (id : Word) : State :=
  if s.msia = 0 then { s with msis := s.msis ++ [id] } else { s with msiOut := s.msiOut ++ [(s.msia, id)] }

/-! ## The queue control block (R253) -/

/-- Physical address of a queue's control block (R252). -/
def Queue.block (q : Queue) : Nat := (q.qcba.extractLsb' 6 46).toNat * 64

/-- A queue is bound to its control block and takes records. -/
def Queue.enabled (q : Queue) : Bool := q.qcba.getLsbD 0

/-- A word of a control block. -/
def State.blockWord (s : State) (q : Queue) (off : Nat) : BitVec 64 := s.dram.word (q.block + off) 8

/-- LTAIL, LHEAD, CTAIL, CHEAD, MSIID. -/
def State.ltail (s : State) (q : Queue) : Word := (s.blockWord q 0x18).extractLsb' 32 32
def State.lhead (s : State) (q : Queue) : Word := (s.blockWord q 0x18).extractLsb' 0 32
def State.ctail (s : State) (q : Queue) : Word := (s.blockWord q 0x20).extractLsb' 32 32
def State.chead (s : State) (q : Queue) : Word := (s.blockWord q 0x20).extractLsb' 0 32
def State.msiId (s : State) (q : Queue) : Word := (s.blockWord q 0x38).extractLsb' 32 32

/-- The size code of a ring is in range (R253). -/
def sizeOk (n : Nat) : Bool := decide (1 ≤ n) && decide (n ≤ 16)

/-- Size codes of the launch and the completion ring. -/
def State.lsz (s : State) (q : Queue) : Nat := ((s.blockWord q 0x08).extractLsb' 0 5).toNat
def State.csz (s : State) (q : Queue) : Nat := ((s.blockWord q 0x10).extractLsb' 0 5).toNat

/-- The control block is bad (R257). -/
def State.blockBad (s : State) (q : Queue) : Bool :=
  (s.blockWord q 0x08).extractLsb' 5 7 != 0 || (s.blockWord q 0x10).extractLsb' 5 7 != 0 ||
    (s.blockWord q 0x38).extractLsb' 16 16 != 0 || (s.blockWord q 0x38).extractLsb' 2 6 != 0 ||
    !sizeOk (s.lsz q) || !sizeOk (s.csz q) || badRoot (s.blockWord q 0)

/-- The control block holds lost bytes. -/
def State.blockLost (s : State) (q : Queue) : Bool := s.dram.unit 64 q.block == .lost

/-- The scheduler writes bytes of a control block. -/
def State.writeBlock (s : State) (q : Queue) (off : Nat) (bs : List Byte) : State :=
  s.writeHome 0xFFFF (place (q.block + off) bs)

/-- The scheduler's write of a control block waits behind a pinned leg (R217). -/
def State.blockHeld (s : State) (q : Queue) : Bool := s.writeHeld none [q.block / 64]

/-- Replaces a queue. -/
def State.setQueue (s : State) (n : Nat) (q : Queue) : State := { s with queues := s.queues.set n q }

/-- A queue slot. -/
def State.queue (s : State) (n : Nat) : Queue := s.queues.get Queue.off n

/-- The byte that holds QST, with a new QST. -/
def State.qstByte (s : State) (q : Queue) (st : BitVec 2) : Byte := (s.blockWord q 0x38).extractLsb' 2 6 ++ st

/-- A queue fault (R257); `held` where a completion record caused it. -/
def State.stopQueue (s : State) (n : Nat) (q : Queue) (code : BitVec 8) (held : Bool) : State :=
  let s1 := s.setQueue n { q with stopped := true, held := held }
  (s1.writeBlock q 0x38 [s.qstByte q 1, code]).sendMsi (s.msiId q)

/-- The fault of a control block as it stands, 0 where there is none (R257; log 34 gives the order). -/
def State.blockFault (s : State) (q : Queue) : BitVec 8 :=
  if s.blockLost q then 6 else if s.blockBad q then 4 else if 2 ^ s.lsz q < (q.ltail - s.lhead q).toNat then 3 else 0

/-! ## Binding a queue -/

/-- A queue starts, or starts again, from its control block as it stands: ROOT and LTAIL are read, QST is cleared. -/
def State.startQueue (s : State) (n : Nat) (q : Queue) : State :=
  let q1 := { q with root := s.blockWord q 0, ltail := s.ltail q, stopped := false, held := false }
  let code := s.blockFault q1
  if code = 0 then (s.setQueue n q1).writeBlock q 0x38 [s.qstByte q 0] else s.stopQueue n q1 code false

/-- The horizon of a slot starts below NHSEQ (R256), and the slot's earlier launches no longer extend it. While NHSEQ is lost
the slot has no horizon (log 24). -/
def State.startHorizon (s : State) (n : Nat) (q : Queue) : State :=
  let s1 := { s with launches := s.launches.map (fun (l : Launch) => if l.src = n then { l with stale := true } else l) }
  if s.blockLost q then { s1 with horizons := s1.horizons.del n }
  else ({ s1 with horizons := s1.horizons.set n (s.blockWord q 0x28 - 1) }.dropPassed n).markReady

/-- The bits of QCBA that are not reserved (R252). -/
def qcbaMask : BitVec 64 := 0x000FFFFFFFFFFFC1

/-- QCBA_ENABLE (R252, R256). -/
def execQcbaEnable (slot : Nat) (value : BitVec 64) (s : State) : Out := byHart s <|
  if slot < 0x1000 then
    let v := (value &&& qcbaMask) ||| 1
    let q := { s.queue slot with qcba := v, reg := v, closing := false }
    if s.blockHeld q then .next s else .next ((s.startHorizon slot q).startQueue slot q)
  else .next s

/-- Withdraws launches (R259). -/
def State.withdraw (s : State) : List Launch → State
  | [] => s
  | l :: r => State.withdraw (s.finishLaunch l 0x13) r

/-- QCBA_DISABLE (R252, R259): a queue that is being destroyed keeps to the control block it was bound to. -/
def execQcbaDisable (slot : Nat) (value : BitVec 64) (s : State) : Out := byHart s <|
  if slot < 0x1000 then
    let q := s.queue slot
    let v := value &&& qcbaMask &&& ~~~1#64
    if q.enabled then
      let s1 := s.setQueue slot { q with qcba := q.qcba &&& ~~~1#64, reg := v, closing := true, held := false }
      .next (s1.withdraw (s.launches.filter (fun l => l.src == slot && l.waits)))
    else if q.closing then .next (s.setQueue slot { q with reg := v })
    else .next (s.setQueue slot { q with qcba := v, reg := v })
  else .next s

/-- QDOOR_WRITE (R252, R254, R257). -/
def execQdoorWrite (slot : Nat) (s : State) : Out := byHart s <|
  let q := s.queue slot
  if slot < 0x1000 ∧ (q.enabled ∨ q.closing) then
    if s.blockHeld q then .next s
    else if q.stopped then
      .next ((if (s.horizons.find slot).isNone then s.startHorizon slot q else s).startQueue slot q)
    else if q.closing then .next s
    else
      let q1 := { q with ltail := s.ltail q }
      let code := s.blockFault q1
      .next (if code = 0 then s.setQueue slot q1 else s.stopQueue slot q1 code false)
  else .next s

/-! ## Intake -/

/-- The completion ring is full (R258). -/
def State.ringFull (s : State) (q : Queue) : Bool := (s.ctail q - s.chead q).toNat == 2 ^ s.csz q

/-- Virtual address of the record that a queue reads next (R253). -/
def State.recordVa (s : State) (q : Queue) : BitVec 64 :=
  ((s.blockWord q 0x08) &&& ~~~0xFFF#64) + BitVec.ofNat 64 (128 * ((s.lhead q).toNat % 2 ^ s.lsz q))

/-- The record at a physical address is taken, or the queue stops (R254, R255, R257). -/
def State.takeRecord (s : State) (slot : Nat) (q : Queue) (pa : Nat) : State :=
  let n := s.blockWord q 0x28
  let bs := s.dram.bytes pa 128
  if s.dram.unit 64 pa = .lost ∨ s.dram.unit 64 (pa + 64) = .lost then s.stopQueue slot q 6 false
  else if wordAt bs 5 ≠ n then s.stopQueue slot q 2 false
  else
    let s1 := s.writeBlock q 0x18 (bytesOfNat 4 (s.lhead q + 1).toNat)
    let s2 := s1.writeBlock q 0x28 (bytesOfNat 8 (n + 1).toNat)
    s2.accept slot q.root n [] bs

/-- LAUNCH_INTAKE (R254, R255, R257). -/
def execLaunchIntake (slot : Nat) (s : State) : Out :=
  let q := s.queue slot
  if q.enabled ∧ !q.stopped ∧ !s.blockHeld q then
    if s.blockFault q ≠ 0 then .next (s.stopQueue slot q (s.blockFault q) false)
    else if q.ltail = s.lhead q ∨ 16 ≤ s.waitingOf slot ∨ s.ringFull q then .next s
    else
      match s.reachPage q.root (s.recordVa q) .read with
      | .fault _ => .next (s.stopQueue slot q 1 false)
      | .busy => .next s
      | .ok pa s1 => .next (s1.takeRecord slot q pa)
  else .next s

/-! ## Completion records -/

/-- The 32 bytes of a completion record (R258). -/
def Done.bytes (d : Done) (dseq : BitVec 64) : List Byte :=
  bytesOfNat 8 d.hseq.toNat ++ bytesOfNat 8 dseq.toNat ++
    bytesOfNat 8 (d.status ++ 0#8 ++ d.lid : BitVec 64).toNat ++ bytesOfNat 8 d.cyc.toNat

/-- The last completion of a queue that is being destroyed has been recorded (R259). -/
def State.queueOver (s : State) (n : Nat) (q : Queue) : Bool :=
  q.closing && q.waits.isEmpty && s.launches.all (fun l => l.src != n || l.isDone)

/-- A completion record at a physical address, CTAIL, NDSEQ, and the interrupt. -/
def State.putDone (s : State) (n : Nat) (q : Queue) (d : Done) (pa : Nat) : State :=
  let k := s.blockWord q 0x30
  let s1 := s.writeHome 0xFFFF (place pa (d.bytes k))
  let s2 := s1.writeBlock q 0x24 (bytesOfNat 4 (s.ctail q + 1).toNat)
  let s3 := s2.writeBlock q 0x30 (bytesOfNat 8 (k + 1).toNat)
  (s3.setQueue n { q with waits := q.waits.tail }).sendMsi (s.msiId q)

/-- COMPLETION_RECORD_WRITE (R257 to R259). -/
def execCompletionRecordWrite (queue : Nat) (s : State) : Out :=
  let q := s.queue queue
  if q.held ∨ s.blockHeld q then .next s
  else
    match q.waits with
    | [] =>
      if s.queueOver queue q then
        .next ((s.writeBlock q 0x38 [s.qstByte q 2]).setQueue queue { Queue.off with qcba := q.reg, reg := q.reg } |>.sendMsi (s.msiId q))
      else .next s
    | d :: r =>
      if s.blockLost q then .next (s.stopQueue queue q 6 true)
      else if s.blockBad q then .next (s.stopQueue queue q 4 true)
      else if s.ringFull q then .next s
      else
        let va := ((s.blockWord q 0x10) &&& ~~~0xFFF#64) + BitVec.ofNat 64 (32 * ((s.ctail q).toNat % 2 ^ s.csz q))
        match s.reachPage q.root va .write with
        | .fault _ =>
          .next (if q.closing then s.setQueue queue { q with waits := r } else s.stopQueue queue q 5 true)
        | .busy => .next s
        | .ok pa s1 =>
          if s1.dram.unit 64 pa = .lost then .next (s1.stopQueue queue q 6 true)
          else if s1.writeHeld none [pa / 64] then .next s
          else .next (s1.putDone queue q d pa)

/-! ## Retirement and completion -/

/-- A member whose control sequencer has issued HALT may retire (R44). -/
def State.mayRetire (s : State) (c : Ctx) : Bool :=
  c.halting && c.stat == .running && c.idleEngines && c.leg.isNone && c.ended.isEmpty && c.pend.isNone &&
    c.impr.isEmpty && !s.unapplied c && s.farDone c.cid 0

/-- A member retires and keeps nothing (R45). -/
def State.retireMember (s : State) (c : Ctx) (l : Launch) : State :=
  (s.setLaunch { l with retired := l.retired ++ [c.idx] }).discardCtx c

/-- A task finishes: it leaves its core, and its context is kept until it commits (R248, R339). -/
def State.finishTask (s : State) (c : Ctx) (l : Launch) (t : TaskId) : State :=
  let c1 := { c.parked s.cycle with stat := .finished, decl := none, halting := false }
  let s1 := (s.setCtx c1).setLaunch
    { l with tasks := l.tasks.map (fun x => if x.id.seq == t.seq then { x with stat := .finished } else x) }
  let k := s1.core c.core
  if k.active = some c.cid then s1.setCore c.core { k with active := none } else s1

/-- MEMBER_RETIRE (R44, R45; the end of a task, R248, R339). -/
def execMemberRetire (cid : Nat) (s : State) : Out :=
  match s.ctx cid with
  | none => .next s
  | some c =>
    match s.launch c.lid with
    | none => .next s
    | some l =>
      if s.mayRetire c then
        match c.kind with
        | .regular => .next (s.retireMember c l)
        | .task t => .next (s.finishTask c l t)
        | .handler _ => .next s
      else .next s

/-- LAUNCH_COMPLETE (R45, R256): what is left of tasks is discarded (log 35). -/
def execLaunchComplete (lid : BitVec 48) (s : State) : Out :=
  match s.launch lid with
  | none => .next s
  | some l => if l.isRunning ∧ l.retired.length = l.record.extent then .next (s.abortLaunch lid 0) else .next s

/-! ## Dependences, ageing -/

/-- RENDEZVOUS_DEP_TEST (R16, R18). -/
def execRendezvousDepTest (lid : BitVec 48) (k : Nat) (s : State) : Out :=
  match s.launch lid with
  | none => .next s
  | some l =>
    match l.record.deps[k]? with
    | none => .next s
    | some d =>
      if l.stat = .waiting ∧ depKind d = 2 ∧ !l.depsOk.contains k then
        match s.reachPage l.root ((d.extractLsb' 0 49).setWidth 64) .read with
        | .fault _ => .next (s.finishLaunch l 8)
        | .busy => .next s
        | .ok pa s1 =>
          if s1.dram.word pa 8 = 0 then .next s1
          else .next (s1.setLaunch { l with depsOk := l.depsOk ++ [k] }).markReady
      else .next s

/-- Cycles that a ready launch has waited (R262). -/
def State.waited (s : State) (l : Launch) : Nat := if l.isReady then (s.cycle - l.since).toNat else 0

/-- LAUNCH_AGEING (R262). -/
def execLaunchAgeing (lid : BitVec 48) (s : State) : Out :=
  match s.launch lid with
  | none => .next s
  | some l =>
    if l.isReady ∧ l.aged < 3 ∧ 2 ^ 22 * (l.aged + 1) ≤ s.waited l then
      .next (s.setLaunch { l with aged := l.aged + 1 })
    else .next s

/-- LAUNCH_RESERVE (R262). -/
def execLaunchReserve (lid : BitVec 48) (s : State) : Out :=
  match s.launch lid with
  | none => .next s
  | some l => if l.isReady ∧ 2 ^ 24 ≤ s.waited l then .next (s.setLaunch { l with reserve := true }) else .next s

/-! ## The order of starting (R262) -/

/-- The level of a ready launch: its effective priority and its age, at most 3. -/
def State.level (s : State) (l : Launch) : Nat := min 3 (s.effPrio l.lid + l.aged)

/-- How far a source lies behind the one served last, in the round. -/
def State.roundPos (s : State) (src : Nat) : Nat := (src + 0x10000 - s.served - 1) % 0x10000

/-- Launch `r` comes before launch `l` in the order. -/
def State.precedes (s : State) (r l : Launch) : Bool :=
  decide (s.level l < s.level r) || (s.level l == s.level r &&
    (decide (s.roundPos r.src < s.roundPos l.src) || (r.src == l.src && r.lid != l.lid &&
      seqLe (r.record.hseq.extractLsb' 0 32) (l.record.hseq.extractLsb' 0 32))))

/-- Nothing earlier in the order holds a launch back: no earlier one can be placed, and none of equal or higher effective
priority has waited 2^24 cycles. -/
def State.turnOf (s : State) (l : Launch) : Bool :=
  s.launches.all (fun r => !r.isReady || !s.precedes r l ||
    (!s.fitsNow r && !(r.reserve && decide (s.effPrio l.lid ≤ s.effPrio r.lid))))

/-! ## Placement -/

/-- The coordinates of a member (R20). -/
def LRec.coord (r : LRec) (idx : Nat) : Nat × Nat × Nat × Nat :=
  (idx / (r.k * r.c * r.d), idx / (r.k * r.c) % r.d, idx / r.k % r.c, idx % r.k)

/-- A launch with NOMX = 1 takes the free cores of clusters with a fenced matrix engine before others (R263 rule 2). -/
def State.offeredFirst (s : State) (l : Launch) (cores : List Nat) : Bool :=
  !l.record.nomx || cores.all (fun p => s.fencedMx.contains (clusterOf p)) ||
    (s.freeCores l).all (fun p => !s.fencedMx.contains (clusterOf p) || cores.contains p)

/-- The cores are distinct, one for each member, and each can take its member now (R20, R26, R263). -/
def State.coresOk (s : State) (l : Launch) (cores : List Nat) : Bool :=
  decide (cores.length = l.record.extent) && decide cores.Nodup &&
    cores.all (fun p => decide (p < 384) && s.coreFree l p) && s.offeredFirst l cores

/-- Starts the members from index `idx` on (R22). -/
def State.startMembers (s : State) (l : Launch) (idx : Nat) : List Nat → State
  | [] => s
  | p :: r =>
    let c := l.startCtx s.nextCid p ((s.freeBank p).getD 0) idx (l.record.coord idx)
    State.startMembers { s.setCtx c with nextCid := s.nextCid + 1 } l (idx + 1) r

/-- LAUNCH_PLACE (R18 to R24, R26, R262, R263): `cores` names the core of each member in the order of logical indices. -/
def execLaunchPlace (lid : BitVec 48) (cores : List Nat) (s : State) : Out :=
  match s.launch lid with
  | none => .next s
  | some l =>
    if l.isReady ∧ s.turnOf l ∧ s.coresOk l cores then
      if imageOk s.dram l.root l.record.image then
        let s1 := s.setLaunch { l with stat := .running, started := s.cycle, retired := [], displaced := false }
        .next { s1.startMembers l 0 cores with served := l.src }
      else .next (s.finishLaunch l 5)
    else .next s

/-! ## Pre-emption (R200, R218, R261, R274) -/

/-- The company that is displaced first for launch `w`: the lowest effective priority, among equals the one started last. -/
def State.isVictim (s : State) (v w : Launch) : Bool :=
  v.isRunning && !v.displaced && s.needs w v &&
    s.launches.all (fun x => !x.isRunning || x.displaced || x.lid == v.lid ||
      decide (s.effPrio v.lid < s.effPrio x.lid) ||
      (s.effPrio v.lid == s.effPrio x.lid && decide (x.started.toNat ≤ v.started.toNat)))

/-- A member of a displaced company leaves its core, or its exposed leg is to become safe. -/
def State.evict (s : State) (c : Ctx) : State :=
  if (s.core c.core).active = some c.cid then
    if s.mayLeave c then s.leave c.core else s.drainOut c
  else s

/-- Evicts several members. -/
def State.evictAll (s : State) : List Nat → State
  | [] => s
  | cid :: r =>
    State.evictAll (match s.ctx cid with
      | some c => s.evict c
      | none => s) r

/-- PREEMPT (R200, R218, R261, R274): the company is displaced for launch `forLid`, or goes on leaving its cores. -/
def execPreempt (lid forLid : BitVec 48) (s : State) : Out :=
  match s.launch lid, s.launch forLid with
  | some v, some w =>
    if v.displaced ∨ s.isVictim v w then
      let s1 := s.setLaunch { v with displaced := true }
      .next (s1.evictAll ((s1.membersOf lid).map (fun c => c.cid)))
    else .next s
  | _, _ => .next s

end Sys2Proof.Machine
end

