-- ==== Sys2Proof/Machine/Window.lean ====
section
/-!
DEFINITION. The register windows (14, 15, 16): the event ring, shootdowns, harts' start registers, schedule-cycle stops, the
spill area, power caps and island clocks (R277, R293 to R296, R314 to R319, R324 to R326, R329, R332).
-/
namespace Sys2Proof.Machine

/-! ## The event ring (R294, R296, R332) -/

/-- The ring holds 2^EVSZ slots; 0 where it is not set up. -/
def State.evSlots (s : State) : Nat :=
  let n := (s.evbase.extractLsb' 0 5).toNat
  if sizeOk n then 2 ^ n else 0

/-- Physical address of the slot that the next event takes. -/
def State.evAddr (s : State) : Nat :=
  (s.evbase.extractLsb' 12 40).toNat * 4096 + 128 * (s.evtail.toNat % s.evSlots)

/-- The 128 bytes of an event (R296). -/
def Event.slot (e : Event) (eseq : BitVec 64) : List Byte :=
  bytesOfNat 8 e.type ++ bytesOfNat 8 eseq.toNat ++ bytesOfNat 48 0 ++ e.bytes

/-- An event can be written now: the ring is set up and has room, MSIA is set, and no pinned leg holds the write. -/
def State.evRoom (s : State) : Bool :=
  decide (s.evSlots ≠ 0) && (s.evtail - s.evhead).toNat != s.evSlots && s.msia != 0 &&
    !s.writeHeld none [s.evAddr / 64, s.evAddr / 64 + 1]

/-- Writes the oldest event, with its interrupt. -/
def State.writeEvent (s : State) : State :=
  match s.events with
  | [] => s
  | e :: r =>
    if s.evRoom then
      let s1 := s.writeHome 0xFFFF (place s.evAddr (e.slot s.evtail))
      { s1 with events := r, evtail := s.evtail + 1 }.sendMsi (s.evmsi.extractLsb' 32 32)
    else s

/-- Writes up to `n` events. -/
def State.writeEvents (s : State) : Nat → State
  | 0 => s
  | n + 1 => State.writeEvents s.writeEvent n

/-- EVENT_RING_WRITE (R296). -/
def execEventRingWrite (s : State) : Out := .next s.writeEvent

/-- EVBASE_WRITE (R294): waiting events are written. -/
def execEvbaseWrite (value : BitVec 64) (s : State) : Out := byHart s <|
  let s1 := { s with evbase := value &&& 0x000FFFFFFFFFF01F }
  .next (s1.writeEvents s.events.length)

/-- MSIA_WRITE (R294, R332): held messages and events are sent in order. -/
def execMsiaWrite (value : BitVec 64) (s : State) : Out := byHart s <|
  let a := value &&& 0x000FFFFFFFFFFFFC
  if a = 0 then .next { s with msia := 0 }
  else
    let s1 := { s with msia := a, msiOut := s.msiOut ++ s.msis.map (fun id => (a, id)), msis := [] }
    .next (s1.writeEvents s.events.length)

/-! ## Shootdowns (R293, R294, R198) -/

/-- The entries that a shootdown drops (R293), that of a page in every address space (log 36). -/
def shotBy (kind : BitVec 2) (va : BitVec 64) (t : TlbEnt) : Bool :=
  if kind = 0 then va.toNat / 2 ^ 49 == 0 && va.toNat / 2 ^ t.bits * 2 ^ t.bits == t.vbase
  else if kind = 1 then !t.glob && t.asid == va.extractLsb' 0 16
  else true

/-- A shootdown starts: the entries are dropped, the invalidations sent, BUSY is set (R293, R299). -/
def State.shoot (s : State) (kind : BitVec 2) : State :=
  if s.shbusy then s else ({ s with shkind := kind, shbusy := true, shfor := s.shva } : State).dropEverywhere (shotBy kind s.shva)

/-- The entries that the running shootdown drops. -/
def State.shotDown (s : State) : TlbEnt → Bool := shotBy s.shkind s.shfor

/-- SHGO_PAGE (R293). -/
def execShgoPage (s : State) : Out := byHart s <| .next (s.shoot 0)

/-- SHGO_ASID (R293). -/
def execShgoAsid (s : State) : Out := byHart s <| .next (s.shoot 1)

/-- SHGO_ALL (R293). -/
def execShgoAll (s : State) : Out := byHart s <| .next (s.shoot 2)

/-- SHOOTDOWN_COMPLETE (R198, R294, R299). -/
def execShootdownComplete (s : State) : Out :=
  if s.shbusy ∧ s.quietTlb none s.shotDown ∧ s.invs = [] then .next { s with shbusy := false } else .next s

/-! ## Harts (R329) -/

/-- A hart. -/
def State.hart (s : State) (h : Nat) : Hart := s.harts.get Hart.held h

/-- A hart of a die that is not dropped. -/
def State.hartThere (s : State) (h : Nat) : Bool := decide (h < 24) && !s.dropped.contains (h / 8)

/-- HSTART_GO (R329). -/
def execHstartGo (hart : Nat) (value : BitVec 64) (s : State) : Out := byHart s <|
  if s.hartThere hart ∧ !(s.hart hart).running then
    .next { s with harts := s.harts.put Hart.held hart { running := true, start := (value &&& 0x000FFFFFFFFFFFFC) ||| 1 } }
  else .next s

/-- HSTART_HOLD (R329): a hart holds itself. -/
def execHstartHold (hart : Nat) (s : State) : Out :=
  if s.hartThere hart ∧ (s.hart hart).running then .next { s with harts := s.harts.put Hart.held hart Hart.held } else .next s

/-! ## Fenced units (R263, R288, R289) -/

/-- The fenced cores of a die, those of its fenced clusters among them (R288; log 94). -/
def State.fencedOn (s : State) (d : Nat) : Nat :=
  ((List.range 128).filter (fun i => (s.core (128 * d + i)).fenced || s.fencedCl.contains (clusterOf (128 * d + i)))).length

/-- A die that is to be dropped (R288). -/
def State.doom (s : State) (d : Nat) : State :=
  if s.dropped.contains d || s.dooms.contains d then s else { s with dooms := s.dooms ++ [d] }

/-- The cores of a fenced unit. -/
def fenceHas (u : FenceUnit) (p : Nat) : Bool :=
  match u with
  | .core k => p == k
  | .cluster k | .matrix k => clusterOf p == k

/-- The unit exists. -/
def fenceOk (u : FenceUnit) : Bool :=
  match u with
  | .core p => decide (p < 384)
  | .cluster k | .matrix k => decide (k < 24)

/-- Marks a unit fenced. -/
def State.fence (s : State) (u : FenceUnit) : State :=
  match u with
  | .core p => s.setCore p { s.core p with fenced := true }
  | .cluster k => if s.fencedCl.contains k then s else { s with fencedCl := s.fencedCl ++ [k] }
  | .matrix k => if s.fencedMx.contains k then s else { s with fencedMx := s.fencedMx ++ [k] }

/-- A die with more than 16 fenced cores is to be dropped (R288). -/
def State.judgeDie (s : State) (u : FenceUnit) : State :=
  match u with
  | .core p => if 16 < s.fencedOn (dieOf p) then s.doom (dieOf p) else s
  | .cluster k => if 16 < s.fencedOn (k / 8) then s.doom (k / 8) else s
  | .matrix _ => s

/-- A context has to leave the cores of a fenced unit (R289). -/
def mustMove (u : FenceUnit) (c : Ctx) : Bool :=
  fenceHas u c.core && (match u with
    | .matrix _ => !c.nomx
    | _ => true)

/-- The contexts that have to leave their cores. -/
def State.movers (s : State) (u : FenceUnit) : List Nat := (s.allCtxs.filter (mustMove u)).map (fun c => c.cid)

/-- A persistent fault fences the unit: its contexts leave the active bank (R279, R288, R289). -/
def State.fenceOff (s : State) (u : FenceUnit) : State :=
  let s1 := (s.fence u).judgeDie u
  s1.evictAll (s1.movers u)

/-! ## Schedule-cycle stops (R316 to R319) -/

/-- The stopped context of a core. -/
def State.stopped (s : State) (p : Nat) : Option Ctx :=
  if s.coreStopped p then s.activeCtx p else none

/-- STOPGO_RESUME (R319): what the stop held back arrives now: results, a fault response, a fence (R318). -/
def execStopgoResume (core : Nat) (s : State) : Out := byHart s <|
  if s.coreStopped core then
    let k := s.core core
    let s1 := (match s.activeCtx core with
      | some c => s.setCtx { c.takeBack with stat := if c.inv.isSome then .inverse else .running }
      | none => s).setCore core { k with resp := none, fdue := false, dbg := k.dbg.put 0 0x1010 0 }
    let s2 := match k.resp with
      | some abort => s1.respond core abort
      | none => s1
    .next (if k.fdue then s2.fenceOff (.core core) else s2)
  else .next s

/-- Physical address that STOPIMG holds. -/
def State.stopImage (s : State) (p : Nat) : Nat := (((s.core p).dbg.get 0 0x1020).extractLsb' 12 40).toNat * 4096

/-- STOPGO_IMAGE (R275, R319). -/
def execStopgoImage (core : Nat) (s : State) : Out := byHart s <|
  match s.stopped core with
  | none => .next s
  | some c =>
    let ps := (List.range ctxPieces).map (fun i => (4096 * i, s.stopImage core + 4096 * i))
    if s.writeHeld none (pieceGrans ps) then .next s
    else
      let n := s.free + 1
      let s1 := { s with free := n, saved := s.saved.set n { c with ended := [], sp := Mem.empty, can := Mem.empty } }
      .next (s1.putImage c (s.status c) n 0xFFFF ps)

/-- The cycle match of a core is armed and reached (R317). -/
def State.cycleMatch (s : State) (p : Nat) : Bool :=
  ((s.core p).dbg.get 0 0x1000).getLsbD 1 && decide (((s.core p).dbg.get 0 0x1008).toNat ≤ s.cycle.toNat)

/-- CYCARM clears. -/
def Core.disarm (k : Core) : Core := { k with dbg := k.dbg.put 0 0x1000 (k.dbg.get 0 0x1000 &&& ~~~2#64) }

/-- CYCLE_MATCH_STOP (R317, R318). -/
def execCycleMatchStop (core : Nat) (s : State) : Out :=
  match s.activeCtx core with
  | none => .next s
  | some c =>
    if s.cycleMatch core ∧ (c.stat = .running ∨ c.stat = .inverse) then
      .next ((s.setCore core (s.core core).disarm).stopCore c .ctl 1)
    else .next s

/-! ## The spill area and power (R277, R324 to R326) -/

/-- CSPILL_WRITE (R277). -/
def execCspillWrite (value : BitVec 64) (s : State) : Out := byHart s <|
  if s.spill.isEmpty then .next { s with cspill := value &&& 0x000FFFFFFFFFF1F1 } else .next s

/-- PCAP_WRITE (R325). -/
def execPcapWrite (value : BitVec 64) (s : State) : Out := byHart s <| .next { s with pcap := value.extractLsb' 0 12 }

/-- The cap that PCAP sets, in watts (R325). -/
def State.capWatts (s : State) : Nat := max 600 (min 2700 s.pcap.toNat)

/-- An island with a fixed clock: a fabric half or the I/O ring (R324). -/
def fixedIsland (i : Nat) : Bool := i % 12 == 8 || i % 12 == 9 || i % 12 == 10

/-- ICAP_WRITE (R325). -/
def execIcapWrite (island : Nat) (value : BitVec 64) (s : State) : Out := byHart s <|
  if island < 36 ∧ !fixedIsland island then .next { s with icap := s.icap.put 1300 island (value.extractLsb' 0 11) }
  else .next s

/-- The ceiling of an island in MHz (R325). -/
def State.ceiling (s : State) (i : Nat) : Nat :=
  if fixedIsland i then 1300 else max 325 (min 1300 (s.icap.get 1300 i).toNat)

/-- What the islands draw together, in watts. -/
def totalWatts (m : SMap (BitVec 12)) : Nat := (m.map (fun x => x.2.toNat)).sum

/-- ISLAND_FREQUENCY_CHANGE (R13, R324 to R326): within the ceiling; within the cap, or no more than before (log 37). -/
def execIslandFrequencyChange (island : Nat) (mhz : BitVec 11) (watts : BitVec 12) (s : State) : Out :=
  let ip := s.ipwr.put 0 island watts
  let less := decide (mhz.toNat ≤ (s.ifrq.get 0 island).toNat) && decide (totalWatts ip ≤ totalWatts s.ipwr)
  if island < 36 ∧ !s.dropped.contains (island / 12) ∧ mhz.toNat ≤ s.ceiling island ∧
      (!fixedIsland island ∨ mhz.toNat = 1300) ∧ mhz ≠ 0 ∧ (totalWatts ip ≤ s.capWatts ∨ less) then
    .next { s with ifrq := s.ifrq.put 0 island mhz, ipwr := ip, pnow := BitVec.ofNat 12 (min 4095 (totalWatts ip)) }
  else .next s

/-! ## Registers with no row of their own (R294, R314) -/

/-- The bits of a debug register that a hart's write sets; 0 where it sets none (R314). -/
def debugMask (off : Nat) : BitVec 64 :=
  let count : BitVec 64 := 0x0000FFFFFFFFFFFF
  if off % 8 ≠ 0 then 0
  else if off < 0x80 then count
  else if 0x100 ≤ off ∧ off < 0x118 then count
  else if 0x200 ≤ off ∧ off < 0x230 then count
  else if 0x800 ≤ off ∧ off < 0x1000 then count
  else if off = 0x1000 then 3
  else if off = 0x1008 then ~~~0#64
  else if off = 0x1020 then 0x000FFFFFFFFFF000
  else if off = 0x1100 then 0x000FFFFFFFFFFFFF
  else if off = 0x1108 ∨ off = 0x1110 then count
  else if off = 0x1118 then count
  else if off = 0x1120 then 1
  else 0

/-- Replaces bits `[lo + 63 : lo]` of a result. -/
def setChunk (v : VWord) (lo : Nat) (x : BitVec 64) : VWord :=
  (v &&& ~~~((BitVec.allOnes 64).setWidth 1024 <<< lo)) ||| (x.setWidth 1024 <<< lo)

/-- Rewrites the latency or the value of an entry of DUMP (R319). Stream elements that stand early (log 32) are written again at the landing
with a rewritten value. -/
def Flight.rewrite (f : Flight) (t off : Nat) (v : BitVec 64) : Flight :=
  if off = 0 then { f with due := t + (v.extractLsb' 48 16).toNat }
  else if 0x10 ≤ off ∧ off < 0x90 ∧ off % 8 = 0 then
    { f with val := setChunk f.val (8 * (off - 0x10)) v, early := f.early && !(match f.dest with
        | .elems .. => true
        | _ => false) }
  else f

/-- A latch that holds the value of a flight follows its entry of DUMP (R60, R319). -/
def Seqr.relatch (x : Seqr) (f g : Flight) : Seqr :=
  { x with latches := x.latches.map (fun l => if l.due = f.due ∧ l.val = f.val then { val := g.val, due := g.due } else l) }

/-- Replaces entry `x` of DUMP. -/
def Ctx.redump (c : Ctx) (x : Nat) (g : Flight → Flight) : Ctx :=
  match c.dumped[x]? with
  | some f => { (c.onSeqr f.sq (fun s => s.relatch f (g f))) with flight := c.flight.replace f (g f) }
  | none => c

/-- A hart writes a register of DUMP while the core is stopped (R319). -/
def State.writeDump (s : State) (p x off : Nat) (v : BitVec 64) : State :=
  match s.stopped p with
  | some c => if x < 64 then s.setCtx (c.redump x (fun f => f.rewrite c.t off v)) else s
  | none => s

/-- A write to a debug window (R314). -/
def State.writeDebug (s : State) (p off : Nat) (v : BitVec 64) : State :=
  let m := debugMask off
  if 0x4000 ≤ off ∧ off < 0x8000 then s.writeDump p ((off - 0x4000) / 0x100) (off % 0x100) v
  else if m = 0 then s
  else
    let k := s.core p
    s.setCore p { k with dbg := k.dbg.put 0 off (v &&& m) }

/-- A write to a register of the device window that has no row of its own (R294). -/
def State.writeDevice (s : State) (off : Nat) (v : BitVec 64) : State :=
  if off = 0x20010 then { s with evhead := v }
  else if off = 0x20018 then { s with evmsi := v &&& 0xFFFFFFFF00000000 }
  else if off = 0x20040 then { s with shva := v }
  else if off = 0x20060 then { s with dctb := v &&& 0x000FFFFFFFFFF001 }
  else s

/-- Base addresses of the debug window and the device window (R294, R314). -/
def debugBase : Nat := 0xFFE0000000000
def deviceBase : Nat := 0xFFF0000000000

/-- REGISTER_WRITE (R294, R314): aligned 8-byte writes of harts. -/
def execRegisterWrite (pa : Nat) (value : BitVec 64) (s : State) : Out := byHart s <|
  if pa % 8 ≠ 0 then .next s
  else if deviceBase ≤ pa then .next (s.writeDevice (pa - deviceBase) value)
  else if debugBase ≤ pa ∧ pa < debugBase + 0x10000 * 384 then
    .next (s.writeDebug ((pa - debugBase) / 0x10000) ((pa - debugBase) % 0x10000) value)
  else .next s

/-! ## Reading the windows (R252, R294, R314, R319, R325) -/

/-- The number of a sequencer (R314). -/
def seqNo : Sq → Nat
  | .ctl => 0
  | .load => 1
  | .store => 2
  | .comp => 3

/-- DEST of an entry of DUMP: a register number, or the local byte address (of the first element; log 76). -/
def Flight.target (f : Flight) : Nat :=
  match f.dest with
  | .reg n | .vreg n => n.toNat
  | .pred n | .mask n => n.toNat
  | .elems _ ((_, a) :: _) => a
  | _ => 0

/-- A register of an entry of DUMP at schedule cycle `t` (R319). -/
def Flight.field (f : Flight) (t off : Nat) : BitVec 64 :=
  if off = 0 then
    BitVec.ofNat 64 ((f.due - t) % 2 ^ 16 * 2 ^ 48 + (f.kind.getD 0) * 2 ^ 40 + seqNo f.sq * 2 ^ 38)
  else if off = 8 then BitVec.ofNat 64 f.target
  else if off < 0x90 then (f.val >>> (8 * (off - 0x10))).setWidth 64
  else 0

/-- What a register of DUMP reads (R319). -/
def State.readDump (s : State) (p x off : Nat) : BitVec 64 :=
  match s.stopped p with
  | some c =>
    match (c.dumped.take 64)[x]? with
    | some f => f.field c.t off
    | none => 0
  | none => 0

/-- What a register of a core's debug window reads (R314): an offset that is not listed reads 0. -/
def State.readDebug (s : State) (p off : Nat) : BitVec 64 :=
  if 0x4000 ≤ off ∧ off < 0x8000 then s.readDump p ((off - 0x4000) / 0x100) (off % 0x100)
  else if off = 0x1010 ∨ debugMask off ≠ 0 then (s.core p).dbg.get 0 off
  else 0

/-- What HSTART reads (R329): 0 while the hart is held, and for the harts of a die that is out. -/
def State.readHstart (s : State) (h : Nat) : BitVec 64 :=
  if s.hartThere h && (s.hart h).running then (s.hart h).start else 0

/-- What a register of the device window reads (R252, R294): FRESP, QDOOR and an offset that is not listed read 0. LNKST of a module
that has not changed reads 64 lanes (log 18). -/
def State.readDevice (s : State) (off : Nat) : BitVec 64 :=
  if off < 0x10000 then (if off % 16 = 0 then (s.queue (off / 16)).reg else 0)
  else if off = 0x20000 then s.evbase
  else if off = 0x20008 then s.evtail
  else if off = 0x20010 then s.evhead
  else if off = 0x20018 then s.evmsi
  else if off = 0x20020 then s.msia
  else if off = 0x20040 then s.shva
  else if off = 0x20048 then s.shkind.setWidth 64
  else if off = 0x20050 then (if s.shbusy then 1 else 0)
  else if off = 0x20060 then s.dctb
  else if off = 0x20070 then s.cspill
  else if 0x30000 ≤ off ∧ off < 0x30000 + 8 * 36 then s.lnkst.get 2 ((off - 0x30000) / 8)
  else if 0x40000 ≤ off ∧ off < 0x40000 + 8 * 24 then s.readHstart ((off - 0x40000) / 8)
  else 0

/-- What a register of the power window reads (R325). PCAP reads the cap that acts (R13; log 37). -/
def State.readPower (s : State) (off : Nat) : BitVec 64 :=
  if off = 0 then BitVec.ofNat 64 s.capWatts
  else if off = 8 then s.pnow.setWidth 64
  else if 0x100 ≤ off ∧ off < 0x100 + 8 * 36 then (s.icap.get 1300 ((off - 0x100) / 8)).setWidth 64
  else if 0x400 ≤ off ∧ off < 0x400 + 8 * 36 then
    let i := (off - 0x400) / 8
    ((s.ipwr.get 0 i).setWidth 64 <<< 16) ||| (s.ifrq.get 0 i).setWidth 64
  else 0

/-- What an aligned 8-byte load of a hart from a window reads (R294, R314, R325). -/
def State.readWindow (s : State) (pa : Nat) : BitVec 64 :=
  if deviceBase ≤ pa then s.readDevice (pa - deviceBase)
  else if debugBase ≤ pa then
    (if pa < debugBase + 0x10000 * 384 then s.readDebug ((pa - debugBase) / 0x10000) ((pa - debugBase) % 0x10000) else 0)
  else s.readPower (pa - windowBase)

end Sys2Proof.Machine
end

