-- ==== Sys2Proof/Machine/Links.lean ====
section
/-!
DEFINITION. Links (14): flits, their check, acknowledgement and replay, the messages that they carry, retrains, disabled
modules, failed Varob links, clock messages and batches (R301 to R312, R341, R342, R359).
-/
namespace Sys2Proof.Machine

/-! ## Flits (R302, R303) -/

/-- One bit of the CRC. -/
def crcBit (c : BitVec 32) : BitVec 32 := if c.getLsbD 0 then (c >>> 1) ^^^ 0xEDB88320 else c >>> 1

/-- One byte of the CRC. -/
def crcByte (c : BitVec 32) (b : Byte) : BitVec 32 :=
  crcBit (crcBit (crcBit (crcBit (crcBit (crcBit (crcBit (crcBit (c ^^^ b.setWidth 32))))))))

/-- CRC-32 of some bytes (R302). -/
def crc32 (bs : List Byte) : BitVec 32 := ~~~(bs.foldl crcByte 0xFFFFFFFF)

/-- Bytes 0 to 251 of a flit. -/
def flitBytes (hdr : BitVec 32) (slots : List (BitVec 64)) : List Byte :=
  bytesOfNat 4 hdr.toNat ++ slots.flatMap (fun x => bytesOfNat 8 x.toNat)

/-- Fields of a flit's header. -/
def flitSeq (f : Flit) : BitVec 12 := f.hdr.extractLsb' 20 12
def flitAck (f : Flit) : BitVec 12 := f.hdr.extractLsb' 8 12
def flitType (f : Flit) : Nat := (f.hdr.extractLsb' 0 8).toNat

/-- A flit as a sender makes it: 31 slots, the CRC, and parities that pass. -/
def mkFlit (type : BitVec 8) (seq ack : BitVec 12) (slots : List (BitVec 64)) : Flit :=
  let ss := slots ++ List.replicate (31 - slots.length) 0
  { hdr := seq ++ ack ++ type, slots := ss, crc := crc32 (flitBytes (seq ++ ack ++ type) ss), par0 := true, par1 := true }

/-- Fields of a message header. -/
def msgType (h : BitVec 64) : Nat := (h.extractLsb' 58 6).toNat
def msgLen (h : BitVec 64) : Nat := (h.extractLsb' 53 5).toNat
def msgTag (h : BitVec 64) : Nat := (h.extractLsb' 37 16).toNat
def msgCore (h : BitVec 64) : Nat := (h.extractLsb' 28 9).toNat
def msgOp (h : BitVec 64) : BitVec 4 := h.extractLsb' 24 4
def msgSize (h : BitVec 64) : Size := Size.ofCode (h.extractLsb' 22 2)
def msgKind (h : BitVec 64) : Nat := (h.extractLsb' 18 4).toNat

/-- The length that a message's type gives it (R303, R304; log 39). -/
def msgLenOk (h : BitVec 64) : Bool :=
  let n := msgLen h
  match msgType h with
  | 1 => n == 2
  | 2 => decide (1 ≤ n)
  | 3 => decide (2 ≤ n)
  | 4 => n == 1
  | 5 => n == (if msgOp h = 0xF then 4 else 3)
  | 6 => n == 2
  | 7 => n == (if msgKind h = 3 then 5 else 3)
  | _ => decide (1 ≤ n)

/-- A message header is one of R303: its type is not reserved and its reserved fields are zero. -/
def msgOk (h : BitVec 64) : Bool :=
  decide (msgType h ≤ 15) && h.extractLsb' 0 14 == 0 && msgLenOk h &&
    (if msgType h = 7 then decide (msgKind h ≤ 3) else h.extractLsb' 14 8 == 0)

/-- The messages of a payload, or none where the payload breaks R303. -/
def parseMsgs : Nat → List (BitVec 64) → Option (List (List (BitVec 64)))
  | 0, ss => if ss.isEmpty then some [] else none
  | _, [] => some []
  | n + 1, h :: r =>
    if h = 0 then (if r.all (fun x => x == 0) then some [] else none)
    else if msgType h = 0 then none
    else if msgOk h && decide (msgLen h ≤ r.length + 1) then
      match parseMsgs n (r.drop (msgLen h - 1)) with
      | some ms => some ((h :: r.take (msgLen h - 1)) :: ms)
      | none => none
    else none

/-- A flit counts as a CRC failure (R302 to R304). -/
def crcBad (f : Flit) : Bool :=
  decide (f.slots.length ≠ 31) || crc32 (flitBytes f.hdr f.slots) != f.crc ||
    (match flitType f with
     | 1 => (parseMsgs 31 f.slots).isNone
     | 2 | 3 => flitSeq f != 0 || f.slots.any (fun x => x != 0)
     | _ => true)

/-! ## Ends of a link (R305 to R309) -/

/-- The flits that a sender may have unacknowledged (R307, R310). -/
def bufLimit (m : Nat) : Nat := if m < 64 then 64 else 128

/-- A module whose failing flits call for a retrain or for its end (R309). -/
def Dir.failing (d : Dir) : Bool := decide (4 ≤ d.fail0) || decide (4 ≤ d.fail1)

/-- No flit crosses the link (R309). -/
def Link.stuck (m : Nat) (l : Link) : Bool :=
  l.training || l.width == 0 || (decide (m < 64) && (l.up.failing || l.down.failing))

/-- ACK of a flit that the receiver of this direction sends (R306). -/
def Dir.ackOut (d : Dir) : BitVec 12 := d.exp - 1

/-- Puts a flit in the air. -/
def Dir.send (d : Dir) (f : Flit) : Dir := { d with air := d.air ++ [f] }

/-- The sender frees flits up to `a` (R307). -/
def Dir.free (d : Dir) (a : BitVec 12) : Dir :=
  let b := d.buf.dropWhile (fun e => decide ((a - e.1).toNat < 2048))
  { d with buf := b,
           resend := match d.resend with
             | none => none
             | some x => if b.any (fun e => e.1 == x) then some x else b.head?.map Prod.fst }

/-- The sender goes back to its oldest buffered flit (R307). -/
def Dir.goBack (d : Dir) : Dir := { d with resend := d.buf.head?.map Prod.fst }

/-- `process_ack` (R306, R307): the NAK of value x carries ACK x − 1. -/
def Dir.acked (d : Dir) (type : Nat) (a : BitVec 12) : Dir := if type = 3 then (d.free a).goBack else d.free a

/-- The waiting messages that fit in one flit, and the rest. -/
def packMsgs : Nat → List (List (BitVec 64)) → List (BitVec 64) × List (List (BitVec 64))
  | _, [] => ([], [])
  | room, m :: r =>
    if m.length ≤ room then
      let (ss, rest) := packMsgs (room - m.length) r
      (m ++ ss, rest)
    else ([], m :: r)

/-- The next DATA flit of a sender: a resent one first (R307). None where it has none to send or its buffer is full. -/
def Dir.nextData (d : Dir) (limit : Nat) : Option (BitVec 12 × List (BitVec 64) × Dir) :=
  match d.resend with
  | some x =>
    match d.buf.find? (fun e => e.1 == x) with
    | none => none
    | some (_, ss) =>
      let more := d.buf.any (fun e => e.1 == x + 1)
      some (x, ss, { d with resend := if more then some (x + 1) else none })
  | none =>
    if d.msgs.isEmpty ∨ limit ≤ d.buf.length then none
    else
      let (ss, rest) := packMsgs 31 d.msgs
      some (d.seq, ss, { d with seq := d.seq + 1, buf := d.buf ++ [(d.seq, ss)], msgs := rest })

/-- FLIT_TRANSMIT (R302, R303, R306, R307). -/
def execFlitTransmit (link : Nat) (up : Bool) (s : State) : Out :=
  let l := s.link link
  if l.stuck link then .next s
  else
    match (l.dir up).nextData (bufLimit link) with
    | none => .next s
    | some (x, ss, d) =>
      let back := l.dir (!up)
      .next (s.setLink link ((l.setDir up (d.send (mkFlit 1 x back.ackOut ss))).setDir (!up) { back with owes := 0 }))

/-- The receiver of direction `up` sends a flit of its own that is no DATA. -/
def Link.answer (l : Link) (up : Bool) (type : BitVec 8) : Link :=
  let d := l.dir up
  let back := l.dir (!up)
  (l.setDir (!up) (back.send (mkFlit type 0 d.ackOut []))).setDir up { d with owes := 0 }

/-- NAK_TIMER (R306): the time is the environment's. -/
def execNakTimer (link : Nat) (up : Bool) (s : State) : Out :=
  let l := s.link link
  if l.stuck link ∨ !(l.dir up).nakOut then .next s else .next (s.setLink link (l.answer up 3))

/-- IDLE_TIMER (R306): the receiving side has no DATA to send. -/
def execIdleTimer (link : Nat) (up : Bool) (s : State) : Out :=
  let l := s.link link
  if l.stuck link ∨ ((l.dir (!up)).nextData (bufLimit link)).isSome then .next s
  else .next (s.setLink link (l.answer up 2))

/-- REPLAY_TIMEOUT (R307). -/
def execReplayTimeout (link : Nat) (up : Bool) (s : State) : Out :=
  let l := s.link link
  let d := l.dir up
  if l.stuck link ∨ d.buf.isEmpty then .next s else .next (s.setLink link (l.setDir up d.goBack))

/-! ## Messages at their target (R303, R304, R308, R310, R341, R359) -/

/-- The bytes of a write message: SIZE gives those of each data slot (R303; log 39). -/
def msgBytes (h : BitVec 64) (args : List (BitVec 64)) : List (Nat × Byte) :=
  place (args.getD 0 0).toNat ((args.drop 1).flatMap (fun x => bytesOfNat ((msgSize h).bits / 8) x.toNat))

/-- The context of a core whose atomic is on its way. -/
def State.waiting (s : State) (core : Nat) : Option (Ctx × Nat × BitVec 5 × Atomic × Nat) :=
  s.allCtxs.findSome? (fun c =>
    match c.pend with
    | some (.atomic i d a n true) => if c.back.isNone ∧ c.core = core then some (c, i, d, a, n) else none
    | _ => none)

/-- A reduction of a core of this package that is on its way: to another package, or to another die of this one. -/
def State.redSent (s : State) (outside : Bool) (tag core : Nat) : Option Red :=
  s.reds.find? (fun r => r.cid != 0 && r.tag == tag && r.core == core && r.stage != .here && decide (3 ≤ s.homeDie r.pa) == outside)

/-- A read or a write of a core of this package in another one's memory. -/
def State.farOf (s : State) (write : Bool) (tag core : Nat) : Option Far :=
  s.fars.find? (fun r => r.write == write && !r.done && r.tag == tag && r.core == core)

/-- An AMO request of a core of this package at its home slice (R341, R359). -/
def State.atomicHere (s : State) (link : Nat) (back : Bool) (c : Ctx) (i : Nat) (d : BitVec 5) (a : Atomic) (n : Nat) : State :=
  if s.dram.unit 64 a.pa = .lost then s.lostHere c i d a n
  else
    let (s1, old) := s.doAtomic c a
    s1.answerOn link back a.pa (amoResponse 0 c.core (amoCode a) a.size old)

/-- The value that an atomic of OP `op` writes over `old`; none where it writes nothing (R303, R360). -/
def farValue (op : BitVec 4) (size : Size) (old v e : BitVec 64) : Option (BitVec 64) :=
  if op = 0xF then (if old = (e.extractLsb' 0 size.bits).setWidth 64 then some v else none)
  else (AmoOp.ofCode (op.setWidth 5)).map (fun o => atomicOp o size old v)

/-- An AMO request of another package (log 40). -/
def State.atomicFar (s : State) (link : Nat) (back : Bool) (h : BitVec 64) (args : List (BitVec 64)) : State :=
  let pa := (args.getD 0 0).toNat
  let size := msgSize h
  let n := size.bits / 8
  let old := s.dram.word pa n
  let lost := s.dram.unit 64 pa == .lost
  let s1 := match farValue (msgOp h) size old (args.getD 1 0) (args.getD 2 0) with
    | some w => if lost ∨ s.outside pa then s else (s.note [pa / 64]).writeHome 0xFFFF (place pa (bytesOfNat n w.toNat))
    | none => s
  s1.answerOn link back pa (amoResponse (msgTag h) (msgCore h) (msgOp h) size (if lost then 0 else old))

/-- The reduction that a message carries (R304). -/
def redOfMsg (h : BitVec 64) (args : List (BitVec 64)) (link : Nat) (back : Bool) : Red :=
  { kind := msgKind h, op := (AmoOp.ofCode ((msgOp h).setWidth 5)).getD .add, size := msgSize h
    ty := (Fmt.ofCode (h.extractLsb' 14 4)).getD .fp32
    val := args.getD (if msgKind h = 3 then 3 else 1) 0, va := args.getD 0 0, pa := (args.getD 0 0).toNat
    v1 := args.getD 1 0, e1 := (args.getD 1 0).toNat, v2 := args.getD 2 0, e2 := (args.getD 2 0).toNat
    cid := 0, lid := 0, idx := 0, core := msgCore h, sup := 0xFF, legno := 0xFF, stamp := 0xFFFF, scope := .pkg
    tag := msgTag h, stage := .here, reply := some (link, back) }

/-- A message header with another TAG. -/
def withTag (h : BitVec 64) (t : Nat) : BitVec 64 :=
  h.extractLsb' 53 11 ++ BitVec.ofNat 16 t ++ h.extractLsb' 0 37

/-- A request that another package makes of a third one goes on towards its home (R310), under a TAG of this package's, by which its
answer is known (log 109). -/
def State.forward (s : State) (link : Nat) (back : Bool) (h : BitVec 64) (args : List (BitVec 64)) (home : Nat) : State :=
  match s.portFor (home - 3) with
  | some p =>
    let t := s.tagFrom 1 (msgCore h)
    ({ s with relays := s.relays ++ [{ link := link, back := back, tag := msgTag h, core := msgCore h, out := t }] } : State).sendOn p true
      (withTag h t :: args)
  | none => s

/-- An answer of another package: of a request that this package has sent on, it goes back the way that the request came. -/
def State.sendBack (s : State) (h : BitVec 64) (args : List (BitVec 64)) : State :=
  match s.relays.find? (fun r => r.out == msgTag h && r.core == msgCore h) with
  | some r => ({ s with relays := s.relays.erase r } : State).answerOn r.link r.back 0 (withTag h r.tag :: args)
  | none => s

/-- An atomic's answer reaches its core (R308, R357). What one in another package has written there shows here (log 87). -/
def State.answered (s : State) (c : Ctx) (a : Atomic) (old : BitVec 64) : State :=
  let s1 := if s.homeDie a.pa < 3 then s
    else
      match farValue (amoCode a) a.size old a.val (a.cmp.getD 0) with
      | some w => s.writeQuiet 0xFFFF (place a.pa (bytesOfNat (a.size.bits / 8) w.toNat))
      | none => s
  s1.setCtx (((s1.ctx c.cid).getD c).deliver old)

/-- A reduction reaches its home slice over a module (R304). -/
def State.redArrives (s : State) (link : Nat) (back : Bool) (r : Red) : State :=
  match r.stage with
  | .sent => { s with reds := s.reds.replace r { r with stage := .here, reply := some (link, back) } }
  | _ => s.answerOn link back r.pa (ackMsg r.tag r.core)

/-- A reduction's acknowledge reaches its core (R72, R304). One applied in another package shows here (log 87). -/
def State.redAcked (s : State) (r : Red) : State :=
  let s1 := if r.stage = .sent then (if r.kind = 3 then s.applyShape r else s.applyValue r) else s
  { s1 with reds := s1.reds.erase r }

/-- A reduction at its home slice is applied at once where it may be (R303: in slot order). -/
def State.tryRed (s : State) (r : Red) : State :=
  match s.reds.findIdx? (fun q => q == r) with
  | some k => if redMayGo k s.reds then ((s.applyRed r).map (fun t => t.ackRed r)).getD s else s
  | none => s

/-- A reduction that arrives: of this package's own cores, or of another package. -/
def State.takeRed (s : State) (link : Nat) (back : Bool) (h : BitVec 64) (args : List (BitVec 64)) : State :=
  match (if 64 ≤ link then none else s.redSent false (msgTag h) (msgCore h)) with
  | some r => (s.redArrives link back r).tryRed { r with stage := .here, reply := some (link, back) }
  | none =>
    let r := redOfMsg h args link back
    if s.outside r.pa then s.answerOn link back r.pa (ackMsg r.tag r.core) else ({ s with reds := s.reds ++ [r] } : State).tryRed r

/-- The answer to a read of another package's memory: the word shows here (log 109). -/
def State.farRead (s : State) (r : Far) (v : BitVec 64) : State :=
  { s.storeHome 0xFFFF (place r.pa (bytesOfNat 8 v.toNat)) with fars := s.fars.replace r { r with done := true } }

/-- Performs one message that arrives on link `link`; `back` is the direction of the answer. Answers go to what is on its way from this
package over such a link, by TAG and CORE (R303, R308), or back to the package whose request this one has sent on (R310). -/
def State.performMsg (s : State) (link : Nat) (back : Bool) (m : List (BitVec 64)) : State :=
  match m with
  | [] => s
  | h :: args =>
    let pa := (args.getD 0 0).toNat
    let outside := decide (64 ≤ link)
    let request := msgType h == 1 || msgType h == 3 || msgType h == 5 || msgType h == 7
    let relayed (s : State) : State := if outside then s.sendBack h args else s
    if outside && request && decide (3 ≤ s.homeDie pa) then s.forward link back h args (s.homeDie pa)
    else
    match msgType h with
    | 1 =>
      let n := (msgSize h).bits / 8
      s.answerOn link back pa [msgHeader 2 2 (msgTag h) (msgCore h) 0 0 0 0, s.dram.word pa n]
    | 2 =>
      match (if outside then s.farOf false (msgTag h) (msgCore h) else none) with
      | some r => s.farRead r (args.getD 0 0)
      | none => relayed s
    | 3 =>
      let bs := s.inMem (msgBytes h args)
      ((s.note (gransOf (bs.map Prod.fst))).writeHome 0xFFFF bs).answerOn link back pa (ackMsg (msgTag h) (msgCore h))
    | 4 =>
      match (if outside then s.farOf true (msgTag h) (msgCore h) else none) with
      | some r => { s with fars := s.fars.erase r }
      | none =>
        match s.redSent outside (msgTag h) (msgCore h) with
        | some r => s.redAcked r
        | none => relayed s
    | 5 =>
      match (if outside then none else s.waiting (msgCore h)) with
      | some (c, i, d, a, n) => s.atomicHere link back c i d a n
      | none => s.atomicFar link back h args
    | 6 =>
      match (if outside ∧ msgTag h ≠ 0 then none else s.waiting (msgCore h)) with
      | some (c, _, _, a, _) => if outside = decide (3 ≤ s.homeDie a.pa) then s.answered c a (args.getD 0 0) else relayed s
      | none => relayed s
    | 7 => s.takeRed link back h args
    | _ => s

/-- The granules that a request is about: those of a write, else that of its address (R301). -/
def msgGrans (m : List (BitVec 64)) : List Nat :=
  match m with
  | [] => []
  | h :: args =>
    match msgType h with
    | 3 => gransOf ((msgBytes h args).map Prod.fst)
    | 1 | 5 | 7 => gransOf [(args.getD 0 0).toNat]
    | _ => []

/-- A message has to wait at its home slice: a write or an atomic behind a pinned leg (R213, R217), and what is no reduction behind one
that its link has brought for its granule and that still waits there (R301, R303). -/
def State.msgHeld (s : State) (link : Nat) (m : List (BitVec 64)) : Bool :=
  match m with
  | [] => false
  | h :: _ =>
    let by' := if msgType h = 5 ∧ link < 64 then (s.waiting (msgCore h)).map (fun x => x.1) else none
    ((msgType h == 3 || msgType h == 5) && s.writeHeld by' (msgGrans m)) ||
      (msgType h != 7 && s.reds.any (fun r => r.stage == .here && r.reply.map Prod.fst == some link && (msgGrans m).contains (r.pa / 64)))

/-- Performs the messages that wait, in order; one that is held keeps back those that follow it on its link for its granules (R301,
R303). -/
def State.serve (s : State) (held : List (Nat × Nat)) : List (Nat × Bool × List (BitVec 64)) → State
  | [] => s
  | (l, b, m) :: r =>
    let gs := (msgGrans m).map (fun g => (l, g))
    if gs.any held.contains || s.msgHeld l m then State.serve { s with inbox := s.inbox ++ [(l, b, m)] } (held ++ gs) r
    else State.serve (s.performMsg l b m) held r

/-- Performs the messages that have arrived and can be performed. -/
def State.serveInbox (s : State) : State :=
  match s.inbox with
  | [] => s
  | ms => State.serve { s with inbox := [] } [] ms

/-- The messages of an accepted flit reach their home slice, in slot order. -/
def State.receiveAll (s : State) (link : Nat) (back : Bool) (ms : List (List (BitVec 64))) : State :=
  { s with inbox := s.inbox ++ ms.map (fun m => (link, back, m)) }.serveInbox

/-! ## Receiving (R306, R309, R342) -/

/-- Counts a failing flit (R309). -/
def Dir.countFail (d : Dir) (f : Flit) : Dir :=
  if !f.par0 && f.par1 then { d with fail0 := d.fail0 + 1, fail1 := 0 }
  else if f.par0 && !f.par1 then { d with fail0 := 0, fail1 := d.fail1 + 1 }
  else { d with fail0 := 0, fail1 := 0 }

/-- The link after its failing flit. -/
def Link.recvBad (l : Link) (up : Bool) (f : Flit) : Link :=
  let d := (l.dir up).countFail f
  let l1 := l.setDir up { d with nakOut := true }
  if d.nakOut then l1 else l1.answer up 3

/-- The receiver takes a good flit: whether it accepts it, and the direction after it. -/
def Dir.recvGood (d : Dir) (f : Flit) : Bool × Dir :=
  if flitType f = 1 then
    if flitSeq f = d.exp then
      (true, { d with exp := d.exp + 1, nakOut := false, owes := d.owes + 1, fail0 := 0, fail1 := 0 })
    else (false, d)
  else (false, { d with fail0 := 0, fail1 := 0 })

/-- The flit can arrive: it is the oldest in the air, perhaps damaged; over an inbound Varob link the sender is outside. -/
def Dir.arrives (d : Dir) (outside : Bool) (f : Flit) : Bool :=
  outside || (match d.air with
    | [] => false
    | x :: _ => f == x || crcBad f)

/-- A far end of a link lies in another package: the messages that go there have no effect here. -/
def farSide (link : Nat) (up : Bool) : Bool := decide (64 ≤ link) && up

/-- A receiver that has accepted eight flits since it last sent, and has no DATA to send, sends an IDLE (R306). -/
def Link.owed (l : Link) (link : Nat) (up : Bool) : Link :=
  if 8 ≤ (l.dir up).owes ∧ ((l.dir (!up)).nextData (bufLimit link)).isNone then l.answer up 2 else l

/-- FLIT_RECEIVE (R306 to R309, R342). -/
def execFlitReceive (link : Nat) (up : Bool) (f : Flit) (s : State) : Out :=
  let l := s.link link
  if l.stuck link ∨ !(l.dir up).arrives (decide (64 ≤ link) && !up) f then .next s
  else
    let l0 := l.setDir up { l.dir up with air := (l.dir up).air.tail }
    if crcBad f then .next (s.setLink link (l0.recvBad up f))
    else
      let l1 := l0.setDir (!up) ((l0.dir (!up)).acked (flitType f) (flitAck f))
      let (ok, d) := (l1.dir up).recvGood f
      let s1 := s.setLink link ((l1.setDir up d).owed link up)
      .next (if ok && !farSide link up then s1.receiveAll link (!up) ((parseMsgs 31 f.slots).getD []) else s1)

/-! ## Retrains and disabled modules (R309) -/

/-- LNKST of a link. -/
def Link.status (l : Link) : BitVec 64 := l.retrains ++ 0#30 ++ l.width

/-- LNKST and the event of a width change (R294, R296). -/
def State.widthChange (s : State) (link : Nat) (num : BitVec 16) : State :=
  let l := s.link link
  { s with
    lnkst := if link < 36 then s.lnkst.set link l.status else s.lnkst
    events := s.events ++ [{ type := 4, bytes := bytesOfNat 2 num.toNat ++ [l.width.setWidth 8] ++ bytesOfNat 61 0, cid := none }] }

/-- LINK_RETRAIN (R309): the module retrains onto the half that did not fail. -/
def execLinkRetrain (link : Nat) (s : State) : Out :=
  let l := s.link link
  if link < 36 ∧ l.width = 2 ∧ !l.training ∧ (l.up.failing ∨ l.down.failing) then
    let low := decide (4 ≤ l.up.fail0) || decide (4 ≤ l.down.fail0)
    .next (s.setLink link { l with training := true, half := some low, up := { l.up with air := [] }
                                   down := { l.down with air := [] } })
  else .next s

/-- A sender as on a NAK of the far end's E; the counts start again. -/
def Dir.restart (d : Dir) : Dir := { (d.free (d.exp - 1)).goBack with fail0 := 0, fail1 := 0 }

/-- RETRAIN_COMPLETE (R309): 32 lanes. -/
def execRetrainComplete (link : Nat) (s : State) : Out :=
  let l := s.link link
  if l.training then
    .next ((s.setLink link { l with training := false, width := 1, retrains := l.retrains + 1, up := l.up.restart
                                    down := l.down.restart }).widthChange link (BitVec.ofNat 16 link))
  else .next s

/-- The messages of a direction that have not been accepted, oldest first (R309). -/
def Dir.unaccepted (d : Dir) : List (List (BitVec 64)) :=
  (d.buf.filter (fun e => decide ((e.1 - d.exp).toNat < 2048))).flatMap (fun e => (parseMsgs 31 e.2).getD []) ++ d.msgs

/-- The granule's address that a message is about: a request names it; an answer is about that of its request. -/
def State.msgPa (s : State) (m : List (BitVec 64)) : Nat :=
  match m with
  | [] => 0
  | h :: args =>
    match msgType h with
    | 4 => ((s.redSent false (msgTag h) (msgCore h)).map (fun r => r.pa)).getD 0
    | 6 => ((s.waiting (msgCore h)).map (fun x => x.2.2.2.1.pa)).getD 0
    | _ => (args.getD 0 0).toNat

/-- Puts a message ahead of the waiting ones of a link. -/
def State.sendAhead (s : State) (link : Nat) (up : Bool) (msg : List (BitVec 64)) : State :=
  let l := s.link link
  let d := l.dir up
  s.setLink link (l.setDir up { d with msgs := msg :: d.msgs })

/-- Moves messages, the last first, to the modules that now serve their granules. -/
def State.moveMsgs (s : State) (q : Nat) (up : Bool) : List (List (BitVec 64)) → State
  | [] => s
  | m :: r =>
    let s1 := State.moveMsgs s q up r
    match s1.moduleFor q (s1.msgPa m) with
    | some k => s1.sendAhead k up m
    | none => s1

/-- A direction with nothing in it. -/
def Dir.cleared (d : Dir) : Dir := { d with buf := [], air := [], msgs := [], resend := none, nakOut := false, owes := 0, fail0 := 0, fail1 := 0 }

/-- A link that carries nothing more. -/
def Link.off (l : Link) : Link := { l with width := 0, training := false, up := l.up.cleared, down := l.down.cleared }

/-- The die of a pair that is dropped when too few of the pair's modules work (R288): that with more fenced cores; on a tie the one
with the higher number. -/
def State.worse (s : State) (q : Nat) : Nat :=
  let a := q
  let b := (q + 1) % 3
  if s.fencedOn b < s.fencedOn a then a else if s.fencedOn a < s.fencedOn b then b else max a b

/-- A die of a pair with fewer than 6 working modules is to be dropped (R288). -/
def State.judgePair (s : State) (q : Nat) : State :=
  if (s.modules q).length < 6 ∧ !s.dropped.contains q ∧ !s.dropped.contains ((q + 1) % 3) then s.doom (s.worse q) else s

/-- MODULE_DISABLE (R288, R309). -/
def execModuleDisable (link : Nat) (s : State) : Out :=
  let l := s.link link
  if link < 36 ∧ l.width = 1 ∧ (l.up.failing ∨ l.down.failing) then
    let s1 := s.setLink link l.off
    let s2 := (s1.moveMsgs (link / 12) true l.up.unaccepted).moveMsgs (link / 12) false l.down.unaccepted
    .next ((s2.widthChange link (BitVec.ofNat 16 link)).judgePair (link / 12))
  else .next s

/-- LINK_FAIL_REROUTE (R310): the traffic of a failed Varob port goes over another of this package. -/
def execLinkFailReroute (link other : Nat) (s : State) : Out :=
  let l := s.link link
  if 64 ≤ link ∧ link < 76 ∧ 64 ≤ other ∧ other < 76 ∧ link ≠ other ∧ l.width ≠ 0 ∧ (s.link other).width ≠ 0 then
    let s1 := s.setLink link l.off
    let s2 := l.up.unaccepted.foldr (fun m t => t.sendAhead other true m) s1
    .next (s2.widthChange link (Config.portNumber link))
  else .next s

/-! ## Clock messages and batches (R311, R312) -/

/-- Count `a` is at least `b`, modulo 2^32 (R311). -/
def countGe (a b : Word) : Bool := !(a - b).getLsbD 31

/-- The count that die `t` has received from domain die `k`. -/
def State.received (s : State) (t k : Nat) : Word := s.got.get 0 (48 * t + k)

/-- A clock message reaches the dies of this package. -/
def State.clockArrives (s : State) (k : Nat) (n : Word) : List Nat → State
  | [] => s
  | t :: r =>
    State.clockArrives
      (if countGe n (s.received t k) then { s with got := s.got.put 0 (48 * t + k) n } else s) k n r

/-- A domain die of this package. -/
def State.isLocalDie (s : State) (d : Nat) : Bool := d / 3 == s.package

/-- CLOCK_MESSAGE_SEND (R311): `die` is a domain die; a die of this package sends its own count. -/
def execClockMessageSend (die : Nat) (count : BitVec 32) (s : State) : Out :=
  if die < 48 ∧ (!s.isLocalDie die ∨ count = s.clock (die % 3) die) then
    .next (s.clockArrives die count ((List.range 3).filter (fun t => s.domainDie t != die)))
  else .next s

/-- Nothing that die `t` has still to apply came from domain die `k` before a message with count `n` (R311; log 88). -/
def State.appliedUpTo (s : State) (t k : Nat) (n : Word) : Bool :=
  s.inbound.all (fun x => x.1 != t || x.2.src != k || !countGe n (x.2.clock.getD k 0))

/-- A batch that has arrived at die `t` of this package may be applied: the earlier ones of its source have been, and its causal
predecessors (R311). -/
def State.batchReady (s : State) (t : Nat) (b : Batch) : Bool :=
  (s.inbound.find? (fun x => x.1 == t && x.2.src == b.src)) == some (t, b) &&
    (List.range 48).all (fun k => k == b.src || (if k = s.domainDie t then countGe (s.clock t k) (b.clock.getD k 0)
      else countGe (s.received t k) (b.clock.getD k 0) && s.appliedUpTo t k (b.clock.getD k 0)))

/-- A batch reaches die `t` of this package (R311): of a die of another one, and not for the second time. -/
def State.batchNew (s : State) (t : Nat) (b : Batch) : Bool :=
  decide (b.clock.length = 48) && decide (b.src < 48) && !s.isLocalDie b.src &&
    !countGe (s.received t b.src) (b.clock.getD b.src 0)

/-- A batch that has arrived, with the count that it brings. -/
def State.batchArrives (s : State) (t : Nat) (b : Batch) : State :=
  { s with inbound := s.inbound ++ [(t, b)], got := s.got.put 0 (48 * t + b.src) (b.clock.getD b.src 0) }

/-- The larger of two counts. -/
def maxCount (a b : Word) : Word := if countGe a b then a else b

/-- The clock of die `t` after a batch. -/
def joinClock (t : Nat) (v : List Word) (m : SMap Word) : SMap Word :=
  (List.range 48).foldl (fun m k => m.put 0 (48 * t + k) (maxCount (m.get 0 (48 * t + k)) (v.getD k 0))) m

/-- The bytes of a batch, as one write. -/
def batchBytes (b : Batch) : List (Nat × Byte) := b.stores.flatMap (fun x => place x.1 x.2)

/-- A batch is applied at die `t` of this package, its stores together. The stores carry no stamp with them: they are stamped as
the writes of no leg of this package (log 89). -/
def State.applyBatch (s : State) (t : Nat) (b : Batch) : State :=
  let bs := s.inMem (batchBytes b)
  ({ s with clocks := joinClock t b.clock s.clocks, inbound := s.inbound.erase (t, b) }.note
    (gransOf (bs.map Prod.fst))).writeHome 0xFFFF bs

/-- The batch that a die of another package applies next of those of this one: in the order in which they went out, whatever die they come
from, so that one that happens before another is applied before it (R230; log 112). -/
def State.firstBatch (s : State) (die : Nat) (b : Batch) : Option OutBatch :=
  (s.batches.find? (fun o => o.dst == die)).bind
    (fun o => if o.src = b.src ∧ o.clock = b.clock ∧ o.stores = b.stores then some o else none)

/-- BATCH_APPLY (R230, R311, R312): `die` is a domain die. A batch reaches a die of this package, and is applied as soon as it may
be; a die of another package applies what this package has sent it, or what a third one has, and its bytes show here to what waits for
them (log 87). -/
def execBatchApply (die : Nat) (b : Batch) (s : State) : Out :=
  if s.isLocalDie die then
    let t := die % 3
    let s1 := if s.batchNew t b then s.batchArrives t b else s
    if s1.batchReady t b ∧ !s1.writeHeld none (gransOf ((batchBytes b).map Prod.fst)) then .next (s1.applyBatch t b)
    else .next s1
  else if s.isLocalDie b.src then
    match s.firstBatch die b with
    | some o => .next ({ s with batches := s.batches.erase o }.writeQuiet 0xFFFF (batchBytes b))
    | none => .next s
  else .next (s.writeQuiet 0xFFFF ((batchBytes b).filter (fun x => s.homeDie x.1 == 3 + die)))

end Sys2Proof.Machine
end

