-- ==== Sys2Proof/Machine/Reliability.lean ====
section
/-!
DEFINITION. Containment, adapters, harts' memory accesses and reset (13, 14, 16): R14, R176, R179, R224, R228, R232, R279,
R286 to R291, R297 to R300, R328.
-/
namespace Sys2Proof.Machine

/-! ## Scrubbing and repairs (R224, R286, R287) -/

/-- Marks the ECC word of a context's local memory lost. -/
def Ctx.loseLocal (c : Ctx) (sp : Space) (a : Nat) : Ctx :=
  match sp with
  | .sp => if a < c.spLimit then { c with sp := c.sp.lose 2 8 a } else c
  | .can => if a < limitOf c .can then { c with can := c.can.lose 2 8 a } else c
  | .global => c

/-- A word of an instruction memory holds an uncorrectable error: it is read again from the image when it is next to issue (R286). -/
def Core.spoil (k : Core) (off : Nat) : Core :=
  { k with plane := k.plane.map (fun pl => if off < 0x70000 then { pl with bad := (pl.bad ++ [off / 8 * 8]).eraseDups } else pl) }

/-- PATROL_SCRUB (R286, R287). A corrected error counts, one of DRAM or of a hart at the first core of its die (log 93); nothing is lost where no
data is. -/
def execPatrolScrub (place : ScrubAt) (space : Space) (addr : Nat) (found : Ecc) (s : State) : Out :=
  match place, found with
  | .dram, .corrected => if s.homeDie addr < 3 then .next (s.bump (128 * s.homeDie addr) 0x220) else .next s
  | .instr p _, .corrected => .next (s.bump p 0x220)
  | .instr p off, .uncorrectable => .next (s.setCore p ((s.core p).spoil off))
  | .tlb p n, .corrected => .next ((s.setCore p { s.core p with tlb := (s.core p).tlb.eraseIdx n }).bump p 0x220)
  | .streamTlb p i n, .corrected =>
    let k := s.core p
    .next ((s.setCore p { k with streams := k.streams.put [] i ((k.streams.get [] i).eraseIdx n) }).bump p 0x220)
  | .hartTlb h n, .corrected =>
    if s.hartThere h then
      .next (({ s with harts := s.harts.put Hart.held h { s.hart h with tlb := (s.hart h).tlb.eraseIdx n } } : State).bump (128 * (h / 8)) 0x220)
    else .next s
  | .tlb _ _, .uncorrectable | .streamTlb _ _ _, .uncorrectable | .hartTlb _ _, .uncorrectable => .next s
  | .dram, .uncorrectable => if space = .global then .next { s with dram := s.dram.lose 64 64 addr } else .next s
  | .spare p, .corrected => .next (s.bump p 0x220)
  | .spare _, .uncorrectable => .next s
  | .plots cid, f =>
    match s.ctx cid, f with
    | none, _ => .next s
    | some c, .corrected => .next (s.bump c.core 0x220)
    | some c, .uncorrectable => .next (s.setCtx (c.loseLocal space addr))

/-- BUS_REPAIR (R224): an atomic is one step of its home slice, so none is partly written. -/
def execBusRepair (die lane : Nat) (s : State) : Out :=
  if die < 3 ∧ !s.dropped.contains die then .next { s with repairs := s.repairs ++ [(die, lane)] } else .next s

/-! ## Fencing (R279, R288, R289) -/

/-- A core is free for a context that is taken to it (R289). -/
def State.takesIn (s : State) (c : Ctx) (p : Nat) : Bool :=
  s.schedulable p && (c.nomx || !s.fencedMx.contains (clusterOf p)) && s.roomFor p c.plots (!c.nocan) &&
    (if c.isTask then !s.taskOn p else (s.onCore p).all (fun x => !x.isRegular))

/-- Core `p` may take the context in: a free core of its cluster, or one of its die where the cluster has none (R289). -/
def State.mayTake (s : State) (c : Ctx) (p : Nat) : Bool :=
  decide (p < 384) && dieOf p == dieOf c.core && s.takesIn c p &&
    (clusterOf p == clusterOf c.core ||
      (List.range 16).all (fun i => !s.takesIn c (16 * clusterOf c.core + i)))

/-- Puts a context on another core; its local memory goes with it (R170, R289). -/
def State.relocate (s : State) (c : Ctx) (p b : Nat) : State :=
  s.setCtx { c with core := p, loc := if c.resident then .bank b else c.loc }

/-- Takes one context of a fenced unit to core `p` if it can go there; a handler follows its trapped context. -/
def State.moveCtx (s : State) (u : FenceUnit) (cid p : Nat) : State :=
  match s.ctx cid, s.freeBank p with
  | some c, some b =>
    if mustMove u c ∧ (s.core c.core).active ≠ some cid ∧ !s.coreStopped c.core then
      match c.kind with
      | .handler k =>
        match s.ctx k with
        | some d => if d.core = p then s.relocate c p b else s
        | none => s
      | _ => if s.mayTake c p then s.relocate c p b else s
    else s
  | _, _ => s

/-- Takes several contexts away. -/
def State.moveAll (s : State) (u : FenceUnit) : List (Nat × Nat) → State
  | [] => s
  | (cid, p) :: r => State.moveAll (s.moveCtx u cid p) u r

/-- CORE_FENCE (R279, R288, R289): a transient mismatch counts; a persistent fault fences the unit, and `moves` names the
cores that take its contexts in. A context that cannot go yet waits as a pre-empted one; what is aimed at a core at a schedule-cycle stop waits
for the resume (R318). -/
def execCoreFence (u : FenceUnit) (persistent : Bool) (moves : List (Nat × Nat)) (s : State) : Out :=
  if !fenceOk u then .next s
  else if persistent then
    match u with
    | .core p => if s.coreStopped p then .next (s.setCore p { s.core p with fdue := true }) else .next ((s.fenceOff u).moveAll u moves)
    | _ => .next ((s.fenceOff u).moveAll u moves)
  else
    match u with
    | .core p => .next (s.bump p 0x210)
    | _ => .next s

/-! ## Die drop (R14, R179, R290) -/

/-- The launches with a member on a die. -/
def State.hitBy (s : State) (d : Nat) : List (BitVec 48) :=
  ((s.allCtxs.filter (fun c => dieOf c.core == d)).map (fun c => c.lid)).eraseDups

/-- Aborts several launches. -/
def State.abortAll (s : State) (status : BitVec 8) : List (BitVec 48) → State
  | [] => s
  | l :: r => State.abortAll (s.abortLaunch l status) status r

/-- Every active context of a surviving company may leave its core. -/
def State.quiet (s : State) (d : Nat) : Bool :=
  let dead := s.hitBy d
  s.cores.all (fun pk => match s.activeCtx pk.1 with
    | some a => dead.contains a.lid || s.mayLeave a
    | none => true)

/-- The exposed legs of active contexts are to become safe. -/
def State.wantAll (s : State) : List Nat → State
  | [] => s
  | p :: r =>
    State.wantAll (match s.activeCtx p with
      | some a => if (a.stat == .running || a.stat == .inverse) && !s.escapeOk a then s.keep { a with want := true } else s
      | none => s) r

/-- Every active context leaves its core. -/
def State.leaveAll (s : State) : List Nat → State
  | [] => s
  | p :: r => State.leaveAll (s.leave p) r

/-- The granules that uncommitted legs and reductions on their way write. -/
def State.underway (s : State) : List Nat :=
  s.allCtxs.flatMap (fun c => c.allLegs.flatMap Leg.writeSet) ++ s.reds.flatMap Red.grans

/-- Marks granules lost. -/
def loseGrans (m : Mem) : List Nat → Mem
  | [] => m
  | g :: r => loseGrans (m.lose 64 64 (64 * g)) r

/-- The off-stack granules homed on a die that become lost with it: those that legs, atomics, reductions and copy units wrote (R290), though
they may have been vacated since (log 41). -/
def State.lostWith (s : State) (d : Nat) : List Nat :=
  ((s.written.filter Prod.snd).map Prod.fst ++ s.underway).eraseDups.filter
    (fun g => s.homeDie (64 * g) == d && tierAt (64 * g) == .offstack)

/-- A module or a port ends with a die. -/
def linkOf (d m : Nat) : Bool :=
  if m < 36 then m / 12 == d || (m / 12 + 1) % 3 == d else m / 4 == 16 + d

/-- The links of a dropped die carry nothing more. -/
def dropLinks (d : Nat) (ls : SMap Link) : SMap Link :=
  ((List.range 36 ++ (List.range 12).map (64 + ·)).filter (linkOf d)).foldl
    (fun m k => m.put Link.trained k (m.get Link.trained k).off) ls

/-- LNKST of the modules that a dropped die had (R294). -/
def dropStatus (d : Nat) (ls : SMap Link) (m : SMap (BitVec 64)) : SMap (BitVec 64) :=
  ((List.range 36).filter (linkOf d)).foldl (fun m k => m.set k (ls.get Link.trained k).status) m

/-- The way from a core of another die to the home of an address ends with die `d`. -/
def State.wayEnds (s : State) (d pa : Nat) : Bool :=
  let h := s.homeDie pa
  if h < 3 then h == d else ((s.portFor (h - 3)).map (linkOf d)).getD false

/-- An atomic whose message may have been lost with a die is sent again to its home. -/
def Ctx.resend (s : State) (d : Nat) (c : Ctx) : Ctx :=
  match c.pend with
  | some (.atomic i r a n true) => if s.wayEnds d a.pa then { c with pend := some (.atomic i r a n false) } else c
  | _ => c

/-- A ring of `bytes` bytes holds a lost granule (R257, R290). -/
def State.ringLost (s : State) (root base : BitVec 64) (bytes : Nat) : Bool :=
  (List.range (((base.toNat % 64) + bytes + 63) / 64)).any (fun i =>
    match peek s.dram root ((base &&& ~~~0x3F#64) + BitVec.ofNat 64 (64 * i)) .read with
    | .ok pa => s.dram.unit 64 pa == .lost
    | .error _ => false)

/-- A queue that a drop has hit stops; another is read again (R257, R290). -/
def State.recheck (s : State) (n : Nat) : State :=
  let q := s.queue n
  if !q.enabled ∨ q.stopped then s
  else if s.blockLost q || s.ringLost q.root (s.blockWord q 0x08) (128 * 2 ^ s.lsz q) ||
      s.ringLost q.root (s.blockWord q 0x10) (32 * 2 ^ s.csz q) then s.stopQueue n q 6 true
  else s.setQueue n { q with ltail := s.ltail q }

/-- Re-reads several queues. -/
def State.recheckAll (s : State) : List Nat → State
  | [] => s
  | n :: r => State.recheckAll (s.recheck n) r

/-- The launches with a context in a lost slot of the spill area (R277). -/
def State.lostSlots (s : State) : List (BitVec 48) :=
  ((s.allCtxs.filter (fun c => match c.loc with
    | .slot k => s.pagesHold .lost (s.slotPages k)
    | .bank _ => false)).map (fun c => c.lid)).eraseDups

/-- A reduction whose message may have been lost with a die stands at its home slice again; one that only waited for its acknowledge
is over. -/
def afterDrop (d : Nat) (s : State) (rs : List Red) : List Red :=
  (rs.filter (fun r => r.stage != .done)).map (fun r =>
    if s.homeDie r.pa = d ∨ dieOf r.core = d then { r with stage := .here, reply := if r.cid = 0 then r.reply else none } else r)

/-- A physical address lies in the stack of die `d`. -/
def inStack (d pa : Nat) : Bool := decide (stackBytes * d ≤ pa) && decide (pa < stackBytes * (d + 1))

/-- The moves of pages into the stack of die `d` end before it leaves: their pages stay where they are, without BUSY (R14, R205). -/
def State.stayPut (s : State) (d : Nat) : State :=
  { (s.moves.filter (fun m => inStack d m.dst)).foldl (fun t m =>
      t.writeQuiet 0xFFFF (place m.leaf (bytesOfNat 8 (t.dram.word m.leaf 8 &&& ~~~busyBit).toNat))) s with
    moves := s.moves.filter (fun m => !inStack d m.dst) }

/-- The die leaves the package (R290 steps 2 to 4). -/
def State.dropDie (s0 : State) (d : Nat) : State :=
  let s := s0.stayPut d
  let gone := s.lostWith d
  let s1 := s.abortAll 0x12 (s.hitBy d)
  let watts := s1.ipwr.filter (fun x => x.1 / 12 != d)
  { s1 with
    dram := (loseGrans s1.dram gone).dropStack (stackBytes * d) (stackBytes * (d + 1))
    dropped := s1.dropped ++ [d]
    dooms := s1.dooms.erase d
    cores := s1.cores.filter (fun pk => dieOf pk.1 != d)
    ctxs := s1.ctxs.map (fun kc => (kc.1, kc.2.resend s d))
    reds := afterDrop d s s1.reds
    inbox := s1.inbox.filter (fun x => !linkOf d x.1)
    fars := s1.fars.filter (fun r => dieOf r.core != d && !(s.wayEnds d r.pa && !r.done))
    links := dropLinks d s1.links
    lnkst := dropStatus d (dropLinks d s1.links) s1.lnkst
    bus := s1.bus.filter (fun j => !(j.who / 8 == d || (decide (64 ≤ j.who) && (j.who - 64) / 2 == d)))
    harts := s1.harts.filter (fun h => h.1 / 8 != d)
    ifrq := s1.ifrq.filter (fun x => x.1 / 12 != d)
    ipwr := watts
    pnow := BitVec.ofNat 12 (min 4095 (totalWatts watts)) }

/-- DIE_DROP (R14, R179, R277, R288, R290). -/
def execDieDrop (die : Nat) (s : State) : Out :=
  if 3 ≤ die ∨ s.dropped.contains die then .next s
  else if s.quiet die then
    let s1 := (s.leaveAll (s.cores.map Prod.fst)).dropDie die
    let s2 := s1.recheckAll (s1.queues.map Prod.fst)
    let s3 := s2.abortAll 0x14 s2.lostSlots
    .next { s3 with events := s3.events ++ [{ type := 3, bytes := bytesOfNat 64 die, cid := none }] }
  else .next (s.wantAll (s.cores.map Prod.fst))

/-! ## Adapters (R297 to R300) -/

/-- The record of an adapter fault (R297, R299). -/
def adapterRecord (addr : BitVec 64) (rid : BitVec 16) (port cause acc : Nat) : List Byte :=
  bytesOfNat 8 addr.toNat ++ bytesOfNat 2 rid.toNat ++ bytesOfNat 1 port ++ bytesOfNat 1 cause ++ bytesOfNat 1 acc ++ bytesOfNat 51 0

/-- An event of TYPE 0x05. -/
def State.adapterFault (s : State) (bs : List Byte) : State :=
  { s with events := s.events ++ [{ type := 5, bytes := bs, cid := none }] }

/-- A root port of a die that is not dropped: two ports a die (R14). -/
def State.portThere (s : State) (port : Nat) : Bool := decide (port < 6) && !s.dropped.contains (port / 2)

/-- Physical address of the adapter context table's entry (R299). -/
def State.tableEntry (s : State) (rid : BitVec 16) : Nat := (s.dctb.extractLsb' 12 40).toNat * 4096 + 16 * rid.toNat

/-- ACC and length of an access. -/
def busAcc (op : BusOp) : Nat :=
  match op with
  | .read _ => 0
  | .write _ => 1
def busLen (op : BusOp) : Nat :=
  match op with
  | .read n => n
  | .write bs => bs.length

/-- The granules of a write wait behind a pinned leg (R217). -/
def State.busHeld (s : State) (pa : Nat) (op : BusOp) : Bool :=
  match op with
  | .read _ => false
  | .write bs => s.writeHeld none (gransOf ((place pa bs).map Prod.fst))

/-- The aligned 8-byte units of an access (R209, R210): address and length. -/
def busUnits (a n : Nat) : List (Nat × Nat) :=
  if n = 0 then []
  else (List.range ((a + n - 1) / 8 + 1 - a / 8)).map (fun i =>
    let lo := max a (8 * (a / 8 + i))
    (lo, min (a + n) (8 * (a / 8 + i) + 8) - lo))

/-- The intervals that run: the launch and the SUPSTEP of every member. -/
def State.intervals (s : State) : List (BitVec 48 × Word) :=
  ((s.allCtxs.filter (fun c => c.isRegular)).map (fun c => (c.lid, c.sup))).eraseDups

/-- The shadow state of a hart's write: it lies in every interval that runs (log 42). -/
def hartShadow (hart : Nat) (now : List (BitVec 48 × Word)) (mask : BitVec 64) : Shadow :=
  { writer := 0x8000 + hart, lid := 0xFFFF00000000, sup := 0, also := now, scope := .pkg, mask := mask, cls := .host }

/-- Records a hart's write. -/
def State.recordHart (s : State) (hart : Nat) (as : List Nat) : State :=
  { s with shadow := recordAll (fun g =>
      hartShadow hart s.intervals (as.foldl (fun m a => if a / 64 = g then m ||| (1#64 <<< (a % 64)) else m) 0)) s.shadow (gransOf as) }

/-- Who has an access under way. -/
def State.busy (s : State) (who : Nat) : Bool := s.bus.any (fun j => j.who == who)

/-- What a hart or a port is told. -/
def State.reply (s : State) (who : Nat) (r : Reply) : State := { s with replies := s.replies.put .none who r }

/-- The bytes that a unit of a write writes. -/
def BusJob.piece (j : BusJob) (bs : List Byte) (u : Nat × Nat) : List (Nat × Byte) := place u.1 ((bs.drop (u.1 - j.base)).take u.2)

/-- One unit at its home slice (R167, R228, R232, R300): whether it is performed, and the access and the state after it. -/
def State.runUnit (s : State) (j : BusJob) (u : Nat × Nat) : BusJob × State :=
  match j.write with
  | some bs =>
    if s.writeHeld none (gransOf ((j.piece bs u).map Prod.fst)) then (j, s)
    else
      ({ j with units := j.units.erase u },
        if j.who < 24 then (s.writeHart j.who (j.piece bs u)).recordHart j.who ((j.piece bs u).map Prod.fst)
        else s.writeHome 0xFFFF (j.piece bs u))
  | none =>
    ({ j with units := j.units.erase u, got := (place u.1 (s.dram.bytes u.1 u.2)).foldl (fun m x => m.set x.1 x.2) j.got,
              lost := j.lost || s.dram.unit 64 u.1 == .lost }, s)

/-- What an access completes with (R292, R297, R300): a port's read of lost bytes is poisoned, a hart's finds zeros (R176). -/
def BusJob.answer (j : BusJob) : Reply :=
  match j.write with
  | some _ => .done
  | none => if j.lost && decide (64 ≤ j.who) then .poisoned else .data (j.got.map Prod.snd)

/-- An access goes on by one unit (R210; which one, log 91). -/
def State.runJob (s : State) (j : BusJob) : State :=
  match j.units with
  | [] => s.reply j.who j.answer
  | u0 :: _ =>
    let (j1, s1) := s.runUnit j (j.units.getD (Config.nextUnit s.free % j.units.length) u0)
    if j1.units.isEmpty then s1.reply j1.who j1.answer else { s1 with bus := s1.bus ++ [j1] }

/-- An access of a hart or a port starts; `via` is the address space and the virtual address that it was translated from. -/
def State.startJob (s : State) (who pa : Nat) (op : BusOp) (via : Option (BitVec 16 × Nat)) : State :=
  s.runJob { who := who, base := pa, via := via, units := busUnits pa (busLen op), got := [], lost := false
             write := match op with
               | .read _ => none
               | .write bs => some bs }

/-- The length of a request's access. -/
def reqLen (req : BusReq) : Nat :=
  match req with
  | .plain op | .ready op => busLen op
  | .ask _ | .invalidated => 0

/-- ACC of a request. -/
def reqAcc (req : BusReq) : Nat :=
  match req with
  | .plain op | .ready op => busAcc op
  | .ask w => if w then 1 else 0
  | .invalidated => 0

/-- A request is posted: a memory write, which gets no completion (R299). -/
def posted : BusReq → Bool
  | .plain (.write _) | .ready (.write _) => true
  | _ => false

/-- A request that the port does not perform (R299): Unsupported Request, or nothing where it is posted, and the record. -/
def State.refuseBus (s : State) (port : Nat) (addr : BitVec 64) (rid : BitVec 16) (cause : Nat) (req : BusReq) : State :=
  (if posted req then s else s.reply (64 + port) .unsupported).adapterFault (adapterRecord addr rid port cause (reqAcc req))

/-- A request to an address with no DRAM goes on to the root port whose adapter holds it (R298); what that answers is outside the package
(log 117). -/
def State.onToPeer (s : State) (port pa : Nat) (op : BusOp) : State := { s with peers := s.peers ++ [(port, pa, op)] }

/-- An adapter gives up the translations that it was told to (R299). -/
def State.invalidated (s : State) (rid : Nat) : State :=
  let out := (s.invs.filter (fun x => x.1 == rid)).map Prod.snd
  { s with invs := s.invs.filter (fun x => x.1 != rid), atc := s.atc.put [] rid ((s.atc.get [] rid).filter (fun t => !out.contains t)) }

/-- A translation that an adapter holds covers a physical access, with the right to it (R298). -/
def TlbEnt.permits (t : TlbEnt) (pa n : Nat) (write : Bool) : Bool :=
  decide (t.pbase ≤ pa) && decide (pa + n ≤ t.pbase + 2 ^ t.bits) &&
    (if write then t.flags.getLsbD 2 && t.flags.getLsbD 7 else t.flags.getLsbD 1)

/-- A translation request is answered (R299): the adapter holds what it is told. -/
def State.answerAsk (s : State) (port : Nat) (rid : BitVec 16) (root : BitVec 64) (va : Nat) : State :=
  match walk s.dram root va with
  | .error _ => s
  | .ok l =>
    let t := l.entry (rootAsid root) va l.pte
    { s with atc := s.atc.put [] rid.toNat (t :: s.atc.get [] rid.toNat) }.reply (64 + port) (.translated t.pbase t.bits t.flags)

/-- A request of an adapter that the context table lets pass. -/
def State.busRequest (s : State) (port : Nat) (rid : BitVec 16) (addr : BitVec 64) (req : BusReq) : Out :=
  let root := s.dram.word (s.tableEntry rid) 8
  match req with
  | .invalidated => .next s
  | .plain op =>
    match s.reachPage root addr (if busAcc op = 0 then .read else .write) with
    | .fault f => .next (s.refuseBus port addr rid f.cause req)
    | .busy => .next s
    | .ok pa s1 =>
      if s1.outside pa then .next (s1.onToPeer port pa op)
      else if s1.busHeld pa op then .next s
      else .next (s1.startJob (64 + port) pa op (some (rootAsid root, addr.toNat)))
  | .ask write =>
    if !(s.dram.word (s.tableEntry rid + 8) 8).getLsbD 1 then .next (s.reply (64 + port) .unsupported)
    else
      match s.reachPage root addr (if write then .write else .read) with
      | .fault f => .next (s.refuseBus port addr rid f.cause req)
      | .busy => .next s
      | .ok _ s1 => .next (s1.answerAsk port rid root addr.toNat)
  | .ready op =>
    match (s.atc.get [] rid.toNat).find? (fun t => t.permits addr.toNat (busLen op) (busAcc op == 1)) with
    | some t =>
      if s.outside addr.toNat then .next (s.onToPeer port addr.toNat op)
      else if s.busHeld addr.toNat op then .next s
      else .next (s.startJob (64 + port) addr.toNat op (some (t.asid, t.vbase + addr.toNat - t.pbase)))
    | none => .next (s.refuseBus port addr rid xlPerm req)

/-- ADAPTER_REQUEST (R167, R194, R195, R210, R228, R297 to R300): a request lies in one 4 KiB page; a port performs one at a time
(log 92). -/
def execAdapterRequest (port : Nat) (rid : BitVec 16) (addr : BitVec 64) (req : BusReq) (s : State) : Out :=
  if !s.portThere port ∨ 4096 < addr.toNat % 4096 + reqLen req ∨ s.busy (64 + port) then .next s
  else if req = .invalidated then .next (s.invalidated rid.toNat)
  else if !s.dctb.getLsbD 0 ∨ !(s.dram.word (s.tableEntry rid + 8) 8).getLsbD 0 then .next (s.refuseBus port addr rid 0 req)
  else s.busRequest port rid addr req

/-- AER_EVENT (R297). -/
def execAerEvent (port : Nat) (s : State) : Out :=
  if s.portThere port then .next (s.adapterFault (adapterRecord 0 0 port 0xFF 0)) else .next s

/-! ## Harts' accesses (R228, R232, R292, R294) -/

/-- The rights of a leaf serve a hart's access, by the RISC-V rules for U, R, W, X and SUM (R292). -/
def viaAllows (v : HartVia) (flags : BitVec 8) (op : BusOp) : Bool :=
  (if v.user then flags.getLsbD 4 else !flags.getLsbD 4 || (v.sum && !v.fetch)) &&
    (if v.fetch then flags.getLsbD 3 else if busAcc op = 1 then flags.getLsbD 2 else flags.getLsbD 1)

/-- A TLB entry of a hart serves an access: A and, for a write, D stand in its leaf (R195). -/
def TlbEnt.covers (t : TlbEnt) (asid : BitVec 16) (va : Nat) (op : BusOp) : Bool :=
  (t.glob || t.asid == asid) && t.vbase == va / 2 ^ t.bits * 2 ^ t.bits && t.flags.getLsbD 6 && (busAcc op == 0 || t.flags.getLsbD 7)

/-- Replaces a hart's TLB. -/
def State.setHartTlb (s : State) (h : Nat) (ts : List TlbEnt) : State :=
  { s with harts := s.harts.put Hart.held h { s.hart h with tlb := ts } }

/-- A hart translates an address (R193, R195, R205, R292): by its TLB, or by a walk, which a TLB may keep. -/
def State.hartReach (s : State) (h : Nat) (v : HartVia) (va : Nat) (op : BusOp) : XRes :=
  let ts := (s.hart h).tlb
  if va / 2 ^ 49 ≠ 0 then .fault ⟨xlAddr, none, false⟩
  else if badRoot v.root then .fault ⟨xlBad, none, false⟩
  else
    match ts.find? (fun t => t.covers (rootAsid v.root) va op) with
    | some t =>
      let pa := t.pbase + va % 2 ^ t.bits
      if !viaAllows v t.flags op then .fault ⟨xlPerm, none, false⟩
      else if busAcc op == 1 && s.moving [pa / 64] then .busy
      else .ok pa s
    | none =>
      match walk s.dram v.root va with
      | .error f => .fault f
      | .ok l =>
        if !viaAllows v (l.pte.setWidth 8) op then .fault ⟨xlPerm, none, false⟩
        else if l.pte.getLsbD 60 && busAcc op == 1 then .busy
        else
          let e := markPte l.pte (busAcc op == 1)
          let s1 := if e = l.pte then s else s.writeQuiet 0xFFFF (place l.addr (bytesOfNat 8 e.toNat))
          let s2 := { s1 with free := s1.free + 1 }
          .ok (ptePa e + va % 2 ^ l.bits)
            (s2.setHartTlb h (if Config.tlbKeeps s1.free then l.entry (rootAsid v.root) va e :: ts else ts))

/-- A hart's access to a physical address (R294): a window takes aligned 8-byte ones only, and its writes have rows of their own. -/
def State.hartAccess (s0 : State) (h pa : Nat) (op : BusOp) (via : Option (BitVec 16 × Nat)) (s : State) : Out :=
  if windowBase ≤ pa then
    (if pa % 8 = 0 ∧ busLen op = 8 then
       .next (if busAcc op = 0 then s.reply h (.data (bytesOfNat 8 (s.readWindow pa).toNat)) else s)
     else .next (s.reply h .accessFault))
  else if (List.range (busLen op)).any (fun i => s.outside (pa + i)) then .next (s.reply h .accessFault)
  else if s.busHeld pa op then .next s0
  else .next (s.startJob h pa op via)

/-- HART_MEMORY_ACCESS (R195, R205, R210, R228, R232, R292 to R294): an access with translation lies in one 4 KiB page; a hart performs
one at a time (log 92). Its SFENCE empties its own TLB, whatever becomes of the access (R293). -/
def execHartMemoryAccess (hart : Nat) (place : HartAddr) (op : BusOp) (s : State) : Out :=
  if !s.hartThere hart ∨ !(s.hart hart).running ∨ s.busy hart then .next s
  else
    match place with
    | .phys pa => s.hartAccess hart pa op none s
    | .virt v va =>
      if 4096 < va.toNat % 4096 + busLen op then .next s
      else
        let s0 := if v.fence then s.setHartTlb hart [] else s
        match s0.hartReach hart v va.toNat op with
        | .fault _ => .next (s0.reply hart .pageFault)
        | .busy => .next s0
        | .ok pa s1 => s0.hartAccess hart pa op (some (rootAsid v.root, va.toNat)) s1

/-! ## Reset (R328) -/

/-- A bit of the fence map of the flash (R330): 3 die bits, then 384 core bits, then 24 of clusters' matrix engines. -/
def State.mapBit (s : State) (i : Nat) : Bool := (s.flash.get 0 (0x100 + i / 8)).getLsbD (i % 8)

/-- The dies that the fence map fences. -/
def State.mapDies (s : State) : List Nat := (List.range 3).filter s.mapBit

/-- The boot hart (R328): hart 0 of the lowest die that the map leaves unfenced. -/
def State.bootHart (s : State) : Option Nat := ((List.range 3).find? (fun d => !s.mapBit d)).map (fun d => 8 * d)

/-- A die that the fence map fences is out of the package from the start (R288, R329, R330; log 95). -/
def State.fenceDie (s : State) (d : Nat) : State :=
  { s with
    dram := s.dram.dropStack (stackBytes * d) (stackBytes * (d + 1))
    dropped := s.dropped ++ [d]
    links := dropLinks d s.links
    lnkst := dropStatus d (dropLinks d s.links) s.lnkst
    ifrq := s.ifrq.filter (fun x => x.1 / 12 != d)
    harts := s.harts.filter (fun h => h.1 / 8 != d) }

/-- The fence map is applied (R328 step 4, R330): the units that it names are fenced. A map that fences all three dies leaves every
hart 0 waiting. -/
def State.applyMap (s : State) : State :=
  let ps := (List.range 384).filter (fun p => s.mapBit (3 + p))
  let s1 := s.mapDies.foldl State.fenceDie s
  let s2 := ps.foldl (fun t p => t.setCore p { t.core p with fenced := true }) s1
  let s3 := { s2 with fencedMx := (List.range 24).filter (fun k => s.mapBit (387 + k))
                      harts := if s.mapDies.length = 3 then s.harts else s2.harts }
  [0, 1, 2].foldl (fun t d => if 16 < t.fencedOn d then t.doom d else t) s3

/-- The flash from offset `lo` up to `hi`. -/
def State.flashPart (s : State) (lo hi : Nat) : SMap Byte := s.flash.filter (fun x => decide (lo ≤ x.1) && decide (x.1 < hi))

/-- The boot hart applies the repair map and writes the calibration (R328 step 4, R330; log 6). -/
def State.applyRepairs (s : State) : State :=
  { s with
    repairs := (Config.repairMap (s.flashPart 0x1000 0x5000)).filter (fun x => decide (x.1 < 3) && !s.dropped.contains x.1)
    calib := s.flashPart 0x5000 0x9000 }

/-- RESET_RELEASE (R324, R328, R330): the flash keeps its contents; every island starts at its ICAP reset value; the boot code applies
the fence and repair maps, where a hart boots. The other harts 0 then hold themselves (R329). -/
def execResetRelease (s : State) : Out :=
  let s1 := { State.reset with
    flash := s.flash, ifrq := (List.range 36).map (fun i => (i, 1300)), agenda := s.agenda, rr := s.rr, free := s.free }.applyMap
  .next (if s.bootHart.isSome then s1.applyRepairs else s1)

end Sys2Proof.Machine
end

