-- ==== Sys2Proof/Machine/Dispatch.lean ====
section
/-!
DEFINITION. The dispatch: one arm per row of the opcode table, each a direct call of the meaning of that instruction.
-/
namespace Sys2Proof.Machine

/-- What an instruction does in a state. -/
def exec (i : Instr) (s : State) : Host.Outcome State Fault Refusal :=
  match i with
  | .abend h => Sys2Proof.Machine.execAbend h s
  | .abop h pair kind scls inv => Sys2Proof.Machine.execAbop h pair kind scls inv s
  | .aclr h f => Sys2Proof.Machine.execAclr h f s
  | .acvt h f => Sys2Proof.Machine.execAcvt h f s
  | .add h d a b => Sys2Proof.Machine.execAdd h d a b s
  | .addi h d a imm => Sys2Proof.Machine.execAddi h d a imm s
  | .addp h d a b => Sys2Proof.Machine.execAddp h d a b s
  | .and h d a b => Sys2Proof.Machine.execAnd h d a b s
  | .andi h d a imm => Sys2Proof.Machine.execAndi h d a imm s
  | .clz h d a => Sys2Proof.Machine.execClz h d a s
  | .ald h f => Sys2Proof.Machine.execAld h f s
  | .ast h f => Sys2Proof.Machine.execAst h f s
  | .amo h m op => Sys2Proof.Machine.execAmo h m op s
  | .amoc h m => Sys2Proof.Machine.execAmoc h m s
  | .bars h comm op a d => Sys2Proof.Machine.execBars h comm op a d s
  | .br h disp => Sys2Proof.Machine.execBr h disp s
  | .bra h reg => Sys2Proof.Machine.execBra h reg s
  | .call h disp => Sys2Proof.Machine.execCall h disp s
  | .canf h c => Sys2Proof.Machine.execCanf h c s
  | .canr h c => Sys2Proof.Machine.execCanr h c s
  | .cmp h p cc a b => Sys2Proof.Machine.execCmp h p cc a b s
  | .cmpi h p cc a imm => Sys2Proof.Machine.execCmpi h p cc a imm s
  | .cpy h c => Sys2Proof.Machine.execCpy h c s
  | .cset h c value => Sys2Proof.Machine.execCset h c value s
  | .cwait h c value => Sys2Proof.Machine.execCwait h c value s
  | .csrr h d csr => Sys2Proof.Machine.execCsrr h d csr s
  | .csrw h a csr => Sys2Proof.Machine.execCsrw h a csr s
  | .ctbl h pair => Sys2Proof.Machine.execCtbl h pair s
  | .ctxl h pair bank => Sys2Proof.Machine.execCtxl h pair bank s
  | .ctxs h pair bank => Sys2Proof.Machine.execCtxs h pair bank s
  | .dbrk h => Sys2Proof.Machine.execDbrk h s
  | .div h d a b => Sys2Proof.Machine.execDiv h d a b s
  | .divn h d a b => Sys2Proof.Machine.execDivn h d a b s
  | .drain h => Sys2Proof.Machine.execDrain h s
  | .dup h c => Sys2Proof.Machine.execDup h c s
  | .eret h => Sys2Proof.Machine.execEret h s
  | .fence h scope => Sys2Proof.Machine.execFence h scope s
  | .fork h => Sys2Proof.Machine.execFork h s
  | .join h => Sys2Proof.Machine.execJoin h s
  | .gthr h c dup => Sys2Proof.Machine.execGthr h c dup s
  | .halt h => Sys2Proof.Machine.execHalt h s
  | .hint h pair kind => Sys2Proof.Machine.execHint h pair kind s
  | .jmp h disp => Sys2Proof.Machine.execJmp h disp s
  | .lbrd h count len mask skl sks skc => Sys2Proof.Machine.execLbrd h count len mask skl sks skc s
  | .ld h m sx => Sys2Proof.Machine.execLd h m sx s
  | .ldp h m => Sys2Proof.Machine.execLdp h m s
  | .lege h => Sys2Proof.Machine.execLege h s
  | .lexit h lc cancel => Sys2Proof.Machine.execLexit h lc cancel s
  | .lnch h pair => Sys2Proof.Machine.execLnch h pair s
  | .loop h lc count dist => Sys2Proof.Machine.execLoop h lc count dist s
  | .lstat h d pair => Sys2Proof.Machine.execLstat h d pair s
  | .madp h d a b => Sys2Proof.Machine.execMadp h d a b s
  | .mark h mask => Sys2Proof.Machine.execMark h mask s
  | .max h d a b => Sys2Proof.Machine.execMax h d a b s
  | .maxn h d a b => Sys2Proof.Machine.execMaxn h d a b s
  | .min h d a b => Sys2Proof.Machine.execMin h d a b s
  | .minn h d a b => Sys2Proof.Machine.execMinn h d a b s
  | .migr h c => Sys2Proof.Machine.execMigr h c s
  | .mma h f => Sys2Proof.Machine.execMma h f s
  | .mmab h f => Sys2Proof.Machine.execMmab h f s
  | .mmas h f => Sys2Proof.Machine.execMmas h f s
  | .mmts h f => Sys2Proof.Machine.execMmts h f s
  | .mod h d a b => Sys2Proof.Machine.execMod h d a b s
  | .modn h d a b => Sys2Proof.Machine.execModn h d a b s
  | .mov h d a => Sys2Proof.Machine.execMov h d a s
  | .movh h d imm => Sys2Proof.Machine.execMovh h d imm s
  | .movi h d imm => Sys2Proof.Machine.execMovi h d imm s
  | .mul h d a b => Sys2Proof.Machine.execMul h d a b s
  | .mulh h d a b => Sys2Proof.Machine.execMulh h d a b s
  | .mulhn h d a b => Sys2Proof.Machine.execMulhn h d a b s
  | .nop h => Sys2Proof.Machine.execNop h s
  | .not h d a => Sys2Proof.Machine.execNot h d a s
  | .nrm h f => Sys2Proof.Machine.execNrm h f s
  | .oabt h => Sys2Proof.Machine.execOabt h s
  | .ocmt h => Sys2Proof.Machine.execOcmt h s
  | .or h d a b => Sys2Proof.Machine.execOr h d a b s
  | .ori h d a imm => Sys2Proof.Machine.execOri h d a imm s
  | .otsk h pair => Sys2Proof.Machine.execOtsk h pair s
  | .plld h pair => Sys2Proof.Machine.execPlld h pair s
  | .plsw h => Sys2Proof.Machine.execPlsw h s
  | .popc h d a => Sys2Proof.Machine.execPopc h d a s
  | .red h m op => Sys2Proof.Machine.execRed h m op s
  | .redf h m shape ty => Sys2Proof.Machine.execRedf h m shape ty s
  | .redo h m ty => Sys2Proof.Machine.execRedo h m ty s
  | .ret h => Sys2Proof.Machine.execRet h s
  | .rngb h x => Sys2Proof.Machine.execRngb h x s
  | .rqnt h c => Sys2Proof.Machine.execRqnt h c s
  | .sca h f => Sys2Proof.Machine.execSca h f s
  | .sctr h c dup => Sys2Proof.Machine.execSctr h c dup s
  | .sel h d a b psel => Sys2Proof.Machine.execSel h d a b psel s
  | .semi h sem reg => Sys2Proof.Machine.execSemi h sem reg s
  | .semr h d sem => Sys2Proof.Machine.execSemr h d sem s
  | .setx h f => Sys2Proof.Machine.execSetx h f s
  | .shl h d a b => Sys2Proof.Machine.execShl h d a b s
  | .shli h d a imm => Sys2Proof.Machine.execShli h d a imm s
  | .shr h d a b => Sys2Proof.Machine.execShr h d a b s
  | .shri h d a imm => Sys2Proof.Machine.execShri h d a imm s
  | .sra h d a b => Sys2Proof.Machine.execSra h d a b s
  | .srai h d a imm => Sys2Proof.Machine.execSrai h d a imm s
  | .sig h sem rsrc amount => Sys2Proof.Machine.execSig h sem rsrc amount s
  | .spf h c => Sys2Proof.Machine.execSpf h c s
  | .sstr h c => Sys2Proof.Machine.execSstr h c s
  | .st h m => Sys2Proof.Machine.execSt h m s
  | .stp h m => Sys2Proof.Machine.execStp h m s
  | .sub h d a b => Sys2Proof.Machine.execSub h d a b s
  | .subi h d a imm => Sys2Proof.Machine.execSubi h d a imm s
  | .subp h d a b => Sys2Proof.Machine.execSubp h d a b s
  | .tlbi h pair kind => Sys2Proof.Machine.execTlbi h pair kind s
  | .trap h code => Sys2Proof.Machine.execTrap h code s
  | .vabs h x => Sys2Proof.Machine.execVabs h x s
  | .vneg h x => Sys2Proof.Machine.execVneg h x s
  | .vadd h x => Sys2Proof.Machine.execVadd h x s
  | .vsub h x => Sys2Proof.Machine.execVsub h x s
  | .vmul h x => Sys2Proof.Machine.execVmul h x s
  | .vmin h x => Sys2Proof.Machine.execVmin h x s
  | .vmax h x => Sys2Proof.Machine.execVmax h x s
  | .vand h x => Sys2Proof.Machine.execVand h x s
  | .vor h x => Sys2Proof.Machine.execVor h x s
  | .vxor h x => Sys2Proof.Machine.execVxor h x s
  | .vnot h x => Sys2Proof.Machine.execVnot h x s
  | .vbcst h x => Sys2Proof.Machine.execVbcst h x s
  | .vchk h x => Sys2Proof.Machine.execVchk h x s
  | .vclmp h x => Sys2Proof.Machine.execVclmp h x s
  | .vcmp h x => Sys2Proof.Machine.execVcmp h x s
  | .vcnt h x => Sys2Proof.Machine.execVcnt h x s
  | .vcvt h x => Sys2Proof.Machine.execVcvt h x s
  | .vdqn h x => Sys2Proof.Machine.execVdqn h x s
  | .vqnt h x => Sys2Proof.Machine.execVqnt h x s
  | .vexp2 h x => Sys2Proof.Machine.execVexp2 h x s
  | .vlog2 h x => Sys2Proof.Machine.execVlog2 h x s
  | .vrcp h x => Sys2Proof.Machine.execVrcp h x s
  | .vrsq h x => Sys2Proof.Machine.execVrsq h x s
  | .vfma h x => Sys2Proof.Machine.execVfma h x s
  | .vfms h x => Sys2Proof.Machine.execVfms h x s
  | .vgth h x => Sys2Proof.Machine.execVgth h x s
  | .vsct h x => Sys2Proof.Machine.execVsct h x s
  | .vidx h x => Sys2Proof.Machine.execVidx h x s
  | .vmov h x => Sys2Proof.Machine.execVmov h x s
  | .vmsk h x => Sys2Proof.Machine.execVmsk h x s
  | .vperm h x => Sys2Proof.Machine.execVperm h x s
  | .vshuf h x pat => Sys2Proof.Machine.execVshuf h x pat s
  | .vsld h x => Sys2Proof.Machine.execVsld h x s
  | .vrmx h x => Sys2Proof.Machine.execVrmx h x s
  | .vsum h x => Sys2Proof.Machine.execVsum h x s
  | .vscl h x => Sys2Proof.Machine.execVscl h x s
  | .vsel h x => Sys2Proof.Machine.execVsel h x s
  | .vshl h x => Sys2Proof.Machine.execVshl h x s
  | .vshr h x => Sys2Proof.Machine.execVshr h x s
  | .vsra h x => Sys2Proof.Machine.execVsra h x s
  | .wait h sem rsrc amount => Sys2Proof.Machine.execWait h sem rsrc amount s
  | .waitm h m cond => Sys2Proof.Machine.execWaitm h m cond s
  | .wcha h pair len => Sys2Proof.Machine.execWcha h pair len s
  | .wchd h pair len => Sys2Proof.Machine.execWchd h pair len s
  | .xfer h c => Sys2Proof.Machine.execXfer h c s
  | .xor h d a b => Sys2Proof.Machine.execXor h d a b s
  | .xori h d a imm => Sys2Proof.Machine.execXori h d a imm s
  | .zfil h c => Sys2Proof.Machine.execZfil h c s
  | .resultLand cid => Sys2Proof.Machine.execResultLand cid s
  | .engineCommandStart cid e => Sys2Proof.Machine.execEngineCommandStart cid e s
  | .copyUnit cid e => Sys2Proof.Machine.execCopyUnit cid e s
  | .commandSignal cid e => Sys2Proof.Machine.execCommandSignal cid e s
  | .matrixWordRetire cid check => Sys2Proof.Machine.execMatrixWordRetire cid check s
  | .legCountEnd cid => Sys2Proof.Machine.execLegCountEnd cid s
  | .legPin => Sys2Proof.Machine.execLegPin s
  | .legCommit cid => Sys2Proof.Machine.execLegCommit cid s
  | .barrierComplete lid => Sys2Proof.Machine.execBarrierComplete lid s
  | .memberRetire cid => Sys2Proof.Machine.execMemberRetire cid s
  | .launchComplete lid => Sys2Proof.Machine.execLaunchComplete lid s
  | .completionRecordWrite queue => Sys2Proof.Machine.execCompletionRecordWrite queue s
  | .qcbaEnable slot value => Sys2Proof.Machine.execQcbaEnable slot value s
  | .qcbaDisable slot value => Sys2Proof.Machine.execQcbaDisable slot value s
  | .qdoorWrite slot => Sys2Proof.Machine.execQdoorWrite slot s
  | .launchIntake slot => Sys2Proof.Machine.execLaunchIntake slot s
  | .rendezvousDepTest lid k => Sys2Proof.Machine.execRendezvousDepTest lid k s
  | .launchPlace lid cores => Sys2Proof.Machine.execLaunchPlace lid cores s
  | .launchAgeing lid => Sys2Proof.Machine.execLaunchAgeing lid s
  | .launchReserve lid => Sys2Proof.Machine.execLaunchReserve lid s
  | .preempt lid forLid => Sys2Proof.Machine.execPreempt lid forLid s
  | .contextSwitch core cid => Sys2Proof.Machine.execContextSwitch core cid s
  | .contextStreamOut cid slot => Sys2Proof.Machine.execContextStreamOut cid slot s
  | .contextStreamIn cid bank checkOk => Sys2Proof.Machine.execContextStreamIn cid bank checkOk s
  | .planeFillComplete core => Sys2Proof.Machine.execPlaneFillComplete core s
  | .faultRecordSend cid => Sys2Proof.Machine.execFaultRecordSend cid s
  | .handlerStart cid => Sys2Proof.Machine.execHandlerStart cid s
  | .frespResume core => Sys2Proof.Machine.execFrespResume core s
  | .frespAbort core => Sys2Proof.Machine.execFrespAbort core s
  | .eventRingWrite => Sys2Proof.Machine.execEventRingWrite s
  | .shgoPage => Sys2Proof.Machine.execShgoPage s
  | .shgoAsid => Sys2Proof.Machine.execShgoAsid s
  | .shgoAll => Sys2Proof.Machine.execShgoAll s
  | .shootdownComplete => Sys2Proof.Machine.execShootdownComplete s
  | .hstartGo hart value => Sys2Proof.Machine.execHstartGo hart value s
  | .hstartHold hart => Sys2Proof.Machine.execHstartHold hart s
  | .stopgoResume core => Sys2Proof.Machine.execStopgoResume core s
  | .stopgoImage core => Sys2Proof.Machine.execStopgoImage core s
  | .cycleMatchStop core => Sys2Proof.Machine.execCycleMatchStop core s
  | .pcapWrite value => Sys2Proof.Machine.execPcapWrite value s
  | .icapWrite island value => Sys2Proof.Machine.execIcapWrite island value s
  | .cspillWrite value => Sys2Proof.Machine.execCspillWrite value s
  | .msiaWrite value => Sys2Proof.Machine.execMsiaWrite value s
  | .evbaseWrite value => Sys2Proof.Machine.execEvbaseWrite value s
  | .registerWrite pa value => Sys2Proof.Machine.execRegisterWrite pa value s
  | .flitTransmit link up => Sys2Proof.Machine.execFlitTransmit link up s
  | .flitReceive link up f => Sys2Proof.Machine.execFlitReceive link up f s
  | .nakTimer link up => Sys2Proof.Machine.execNakTimer link up s
  | .idleTimer link up => Sys2Proof.Machine.execIdleTimer link up s
  | .replayTimeout link up => Sys2Proof.Machine.execReplayTimeout link up s
  | .linkRetrain link => Sys2Proof.Machine.execLinkRetrain link s
  | .retrainComplete link => Sys2Proof.Machine.execRetrainComplete link s
  | .moduleDisable link => Sys2Proof.Machine.execModuleDisable link s
  | .linkFailReroute link other => Sys2Proof.Machine.execLinkFailReroute link other s
  | .clockMessageSend die count => Sys2Proof.Machine.execClockMessageSend die count s
  | .batchApply die b => Sys2Proof.Machine.execBatchApply die b s
  | .reductionApply k => Sys2Proof.Machine.execReductionApply k s
  | .promotionComplete k => Sys2Proof.Machine.execPromotionComplete k s
  | .migrationMove root va tier => Sys2Proof.Machine.execMigrationMove root va tier s
  | .taskStart lid core => Sys2Proof.Machine.execTaskStart lid core s
  | .taskAbort cid => Sys2Proof.Machine.execTaskAbort cid s
  | .taskCommit lid => Sys2Proof.Machine.execTaskCommit lid s
  | .patrolScrub place space addr found => Sys2Proof.Machine.execPatrolScrub place space addr found s
  | .busRepair die lane => Sys2Proof.Machine.execBusRepair die lane s
  | .coreFence u persistent moves => Sys2Proof.Machine.execCoreFence u persistent moves s
  | .dieDrop die => Sys2Proof.Machine.execDieDrop die s
  | .adapterRequest port rid addr req => Sys2Proof.Machine.execAdapterRequest port rid addr req s
  | .aerEvent port => Sys2Proof.Machine.execAerEvent port s
  | .hartMemoryAccess hart place op => Sys2Proof.Machine.execHartMemoryAccess hart place op s
  | .resetRelease => Sys2Proof.Machine.execResetRelease s
  | .illegalEncoding tval => Sys2Proof.Machine.execIllegalEncoding tval s
  | .islandFrequencyChange island mhz watts => Sys2Proof.Machine.execIslandFrequencyChange island mhz watts s

end Sys2Proof.Machine
end

