-- ==== Sys2Proof/Machine/Issue.lean ====
section
/-!
DEFINITION. Issuing words (R49 to R59, R76, R102, R103, R108, R264 to R269): the next word of a sequencer, one word of a
forked sequencer, one long word of a joined context; and the choice of the next turn.
-/
namespace Sys2Proof

/-- The header of a word; a device step has none. -/
def Instr.header (i : Instr) : Option Hd :=
  match i with
  | .abend h .. | .abop h .. | .aclr h .. | .acvt h .. | .add h .. | .addi h .. | .addp h .. | .and h ..
  | .andi h .. | .clz h .. | .ald h .. | .ast h .. | .amo h .. | .amoc h .. | .bars h .. | .br h .. | .bra h ..
  | .call h .. | .canf h .. | .canr h .. | .cmp h .. | .cmpi h .. | .cpy h .. | .cset h .. | .cwait h ..
  | .csrr h .. | .csrw h .. | .ctbl h .. | .ctxl h .. | .ctxs h .. | .dbrk h .. | .div h .. | .divn h ..
  | .drain h .. | .dup h .. | .eret h .. | .fence h .. | .fork h .. | .join h .. | .gthr h .. | .halt h ..
  | .hint h .. | .jmp h .. | .lbrd h .. | .ld h .. | .ldp h .. | .lege h .. | .lexit h .. | .lnch h .. | .loop h ..
  | .lstat h .. | .madp h .. | .mark h .. | .max h .. | .maxn h .. | .min h .. | .minn h .. | .migr h .. | .mma h ..
  | .mmab h .. | .mmas h .. | .mmts h .. | .mod h .. | .modn h .. | .mov h .. | .movh h .. | .movi h .. | .mul h ..
  | .mulh h .. | .mulhn h .. | .nop h .. | .not h .. | .nrm h .. | .oabt h .. | .ocmt h .. | .or h .. | .ori h ..
  | .otsk h .. | .plld h .. | .plsw h .. | .popc h .. | .red h .. | .redf h .. | .redo h .. | .ret h .. | .rngb h ..
  | .rqnt h .. | .sca h .. | .sctr h .. | .sel h .. | .semi h .. | .semr h .. | .setx h .. | .shl h .. | .shli h ..
  | .shr h .. | .shri h .. | .sra h .. | .srai h .. | .sig h .. | .spf h .. | .sstr h .. | .st h .. | .stp h ..
  | .sub h .. | .subi h .. | .subp h .. | .tlbi h .. | .trap h .. | .vabs h .. | .vneg h .. | .vadd h ..
  | .vsub h .. | .vmul h .. | .vmin h .. | .vmax h .. | .vand h .. | .vor h .. | .vxor h .. | .vnot h ..
  | .vbcst h .. | .vchk h .. | .vclmp h .. | .vcmp h .. | .vcnt h .. | .vcvt h .. | .vdqn h .. | .vqnt h ..
  | .vexp2 h .. | .vlog2 h .. | .vrcp h .. | .vrsq h .. | .vfma h .. | .vfms h .. | .vgth h .. | .vsct h ..
  | .vidx h .. | .vmov h .. | .vmsk h .. | .vperm h .. | .vshuf h .. | .vsld h .. | .vrmx h .. | .vsum h ..
  | .vscl h .. | .vsel h .. | .vshl h .. | .vshr h .. | .vsra h .. | .wait h .. | .waitm h .. | .wcha h ..
  | .wchd h .. | .xfer h .. | .xor h .. | .xori h .. | .zfil h .. => some h
  | _ => none

/-- The semaphores that a word takes from: its header's, and that of a WAIT. -/
def Instr.takesFrom (i : Instr) : List (BitVec 8) :=
  let hdr := match i.header with
    | some h => if h.wait = 0xFF then [] else [h.wait]
    | none => []
  match i with
  | .wait _ sem _ _ => sem :: hdr
  | _ => hdr

/-- A matrix word. -/
def Instr.isMatrix (i : Instr) : Bool :=
  match i with
  | .mma .. | .mmab .. | .mmas .. | .mmts .. | .sca .. | .nrm .. | .aclr .. | .acvt .. | .ald .. | .ast .. | .setx .. => true
  | _ => false

end Sys2Proof

namespace Sys2Proof.Machine

/-- What stands next in a sequencer. -/
inductive NextWord where
  /-- The sequencer issues nothing. -/
  | empty
  /-- An empty slot of a broadcast's skew (R76). -/
  | skew
  /-- The sequencer has run past the last index (R108). -/
  | past
  /-- The bits are no instruction (R102). -/
  | illegal (tval : Word)
  /-- A word. -/
  | word (i : Instr)
  deriving DecidableEq, Repr

/-- The next word of a sequencer of the context that core `p` runs. -/
def State.nextWord (s : State) (p : Nat) (c : Ctx) (q : Sq) : NextWord :=
  let x := c.seqr q
  if x.run != .running then .empty
  else if (match x.bcast with
      | some b => decide (0 < b.skew)
      | none => false) then .skew
  else if q.limit ≤ x.pc then .past
  else
    match s.fetch p q x.pc with
    | .ok (i, _) => .word i
    | .error r => .illegal r.tval

/-- The trap of a sequencer that has run past the last index (R108). -/
def targetTrap (pc : Nat) : TrapRec := mkTrap 0x0F (BitVec.ofNat 32 pc)

/-- Takes one skew slot off a broadcast. -/
def Seqr.skewOne (x : Seqr) : Seqr := { x with bcast := x.bcast.map (fun b => { b with skew := b.skew - 1 }) }

/-- The oldest pending imprecise trap is raised (R264, R269). -/
def State.imprecise (s : State) (c : Ctx) (k : Nat × Word) : State :=
  if s.escapeOk c then s.suspend { c with impr := c.impr.tail } .ctl true none (mkTrap k.1 k.2) else s.waitSafe c

/-- The next word of a forked sequencer (R51, R58). -/
def forkedWord (s : State) (p : Nat) (q : Sq) (c0 : Ctx) : Out :=
  let c := c0.landDue (some q)
  let s1 := { s.setCtx c with focus := (p, q) }
  match s1.nextWord p c q with
  | .empty => .next s1.stalled
  | .skew => .next (s1.issued (c.onSeqr q Seqr.skewOne))
  | .past => .next (s1.trapHere c q (targetTrap (c.seqr q).pc))
  | .illegal tval => exec (.illegalEncoding tval) s1
  | .word i => exec i s1

/-- The word issued. -/
def Out.issued (o : Out) : Bool :=
  match o with
  | .next s => s.last == .issued
  | _ => false

/-- The sequencer's word has issued in the running clock cycle, so that its next one belongs to a later cycle. -/
def State.justIssued (s : State) (p : Nat) (q : Sq) : Bool := s.last == .issued && s.focus == (p, q)

/-- The waits of the next word of forked sequencer `k` come before those of sequencer `q` (R49, R65). -/
def State.waitsFirst (s : State) (p : Nat) (k q : Sq) : Bool :=
  k != q && !s.justIssued p k && (s.justIssued p q || decide ((Sq.num k).toNat < (Sq.num q).toNat))

/-- The next word of forked sequencer `k` would issue, and the test holds of it. -/
def State.wordNext (s : State) (p : Nat) (c : Ctx) (k : Sq) (test : Instr → Bool) : Bool :=
  match s.nextWord p c k with
  | .word i => test i && (forkedWord s p k c).issued
  | _ => false

/-- The next word of a forked sequencer leaves a semaphore to another sequencer that waits for it too, and whose wait comes first
(R65, R487). -/
def State.yields (s : State) (p : Nat) (q : Sq) (c : Ctx) : Bool :=
  match s.nextWord p c q with
  | .word i => [Sq.ctl, .load, .store, .comp].any (fun k => s.waitsFirst p k q &&
      s.wordNext p c k (fun j => j.takesFrom.any i.takesFrom.contains))
  | _ => false

/-- A word of a forked sequencer has issued: it counts for the markers of its own cycle, and closes those of earlier ones
(R401; log 108). -/
def State.coverMarks (s : State) (cid : Nat) (q : Sq) (same : Bool) : State :=
  match s.ctx cid with
  | some c => s.setCtx { c with marks := c.marks.map (c.coverMark q same) }
  | none => s

/-- One issue of a forked sequencer (R51, R58, R65, R401, R487). A later control word closes the markers. -/
def runForked (s : State) (p : Nat) (q : Sq) (c0 : Ctx) : Out :=
  let c := if q = .ctl then { c0 with marks := c0.marks.map Marker.close } else c0
  let s0 := s.setCtx c
  if s0.yields p q c then .next { s0 with focus := (p, q) }.stalled
  else
    match forkedWord s0 p q c with
    | .next s' =>
      .next (if s'.last = .issued ∧ q ≠ .ctl then s'.coverMarks c.cid q (Config.sameCycle s.free) else s')
    | o => o

/-- A long word that does not issue leaves only the waiter of a WAITM (one that has woken stays woken, R489), the wish of an escape, the wait of an ABOP, and
what a control word, the first of the long word, has asked of the rest of the machine (PLSW a fill, ABOP an abort) behind. The signals
that have landed are of an earlier clock cycle from then on (R65). -/
def discard (s0 : State) (c : Ctx) (q : Sq) (s' : State) : State :=
  match s'.ctx c.cid with
  | some d => ((if q = .ctl then s' else s0).keep { c with waitm := d.waitm <|> c.waitm, want := d.want, hold := d.hold, abop := d.abop, landed := [] }).stalled
  | none => s0.stalled

/-- A precise trap of one word stops the whole long word (R267): the trap is taken on the state before any of its words
issued. What a control word, the first, has counted elsewhere stands. -/
def adopt (s0 : State) (c : Ctx) (q : Sq) (s' : State) : State :=
  match (s'.ctx c.cid).bind (fun d => d.trap) with
  | some t => (if q = .ctl then { s' with events := s0.events } else s0).suspend c q false none t
  | none => s0.stalled

/-- A DBRK of a long word stops the context before the long word (R317); any other word that takes its context off the
core is a control word, the first of its long word. -/
def adoptGone (s0 : State) (c : Ctx) (q : Sq) (i : Instr) (s' : State) : State :=
  match i with
  | .dbrk h => { s0.breakAt c q h with last := .gone }
  | _ => s'

/-- A context whose FORK has been executed stays joined for the rest of its long word (R52). -/
def State.keepJoined (s : State) (cid : Nat) : State :=
  match s.ctx cid with
  | some c => s.setCtx { c with joined := true }
  | none => s

/-- The context has executed FORK. -/
def State.hasForked (s : State) (cid : Nat) : Bool :=
  match s.ctx cid with
  | some c => !c.joined
  | none => false

/-- With schedule-cycle stops on, a DBRK among the words `ws` that stops the context before its long word, whatever other trap the
long word raises (R317). `s` is the state in which they come up. With stops off a DBRK raises BREAK in its place in R49 (R269). -/
def breakIn (s0 : State) (p : Nat) (c : Ctx) : List (Sq × Instr) → State → Option State
  | [], _ => none
  | (q, i) :: r, s =>
    match exec i { s with focus := (p, q) } with
    | .next s' =>
      match s'.last with
      | .issued => breakIn s0 p c r (s'.keepJoined c.cid)
      | .trapped => breakIn s0 p c r s
      | .stalled => none
      | .gone => if s0.dbrkOn p then (match i with
          | .dbrk _ => some (adoptGone s0 c q i s')
          | _ => none) else none
    | _ => none

/-- What a word that is no control word has asked of other packages stands, although its long word does not issue (R303). -/
def askedBy (s0 : State) (p : Nat) (q : Sq) (i : Instr) : State :=
  match exec i { s0 with focus := (p, q) } with
  | .next u => if u.last = .stalled then s0.asking u else s0
  | _ => s0

/-- The words of one long word in the order of R49. `s0`, `c` are the state and context before any of them; `forked`
says that its control word was a FORK. The answer keeps `forked`. -/
def longWord (s0 : State) (p : Nat) (c : Ctx) : List (Sq × Instr) → Bool → State → Out × Bool
  | [], forked, s => (.next s, forked)
  | (q, i) :: r, forked, s =>
    match exec i { s with focus := (p, q) } with
    | .next s' =>
      match s'.last with
      | .issued => longWord s0 p c r (forked || s'.hasForked c.cid) (s'.keepJoined c.cid)
      | .stalled => (.next (discard (if q = .ctl then s0 else askedBy s0 p q i) c q s'), forked)
      | .trapped => (.next ((breakIn s0 p c r s).getD (adopt s0 c q s')), forked)
      | .gone => (.next (adoptGone s0 c q i s'), forked)
    | .fault f => (.fault f, forked)
    | .refused f => (.refused f, forked)

/-- A sequencer that a LBRD of this long word named starts its broadcast (R76). -/
def Seqr.startBcast (x : Seqr) (pl : Plane) (q : Sq) : Seqr :=
  match x.armed with
  | none => x
  | some b =>
    if b.left = 0 then { x with armed := none, pc := skipWords pl q b.len x.pc }
    else { x with armed := none, bcast := some { b with first := x.pc } }

/-- Performs the signal that a WS word with JOIN still owes (R384). -/
def Ctx.payOwed (c : Ctx) (q : Sq) : Ctx :=
  (c.onSeqr q (fun x => { x with owed := 0xFF })).sigField (c.seqr q).owed

/-- The long words that a control sequencer still re-executes alone: once it has halted again, the rest of them are over at once (R387). -/
def Ctx.afterReplay (c : Ctx) : Ctx :=
  if c.ctl.run = .running then { c with t := c.t + 1, replay := c.replay - 1 } else { c with t := c.t + 1 + (c.replay - 1), replay := 0 }

/-- The end of a long word that issued: the semaphores' takes, the signals that JOIN owes, the next schedule cycle, the
broadcasts that start. -/
def State.endLong (s : State) (p cid : Nat) (forked : Bool) : State :=
  match s.ctx cid with
  | none => s
  | some c0 =>
    let pl := (s.core p).plane.getD ⟨0, [], []⟩
    let c := ((((c0.payOwed .load).payOwed .store).payOwed .comp).applyTakes s.free c0.semS).afterReplay
    s.setCtx { c with marks := c.marks.map c.closeMark, late := 0, landed := [], joined := !forked,
                      load := c.load.startBcast pl .load, store := c.store.startBcast pl .store,
                      comp := c.comp.startBcast pl .comp }

/-- The word is TRAP, which is taken after its long word (R453). -/
def isTrapWord : Instr → Bool
  | .trap .. => true
  | _ => false

/-- The words of the long word, and the empty slots of skews taken off. -/
def State.slots (s : State) (p : Nat) (c : Ctx) : List (Sq × NextWord) :=
  if 0 < c.replay ∧ c.ctl.run = .running then [(.ctl, s.nextWord p c .ctl)]
  else [(.ctl, s.nextWord p c .ctl), (.load, s.nextWord p c .load), (.store, s.nextWord p c .store),
        (.comp, s.nextWord p c .comp)]

/-- The first illegal word (R103). -/
def firstIllegal : List (Sq × NextWord) → Option (Sq × Word)
  | [] => none
  | (q, .illegal t) :: _ => some (q, t)
  | _ :: r => firstIllegal r

/-- The first sequencer that has run past its last index (R108). -/
def firstPast : List (Sq × NextWord) → Option Sq
  | [] => none
  | (q, .past) :: _ => some q
  | _ :: r => firstPast r

/-- The words among the slots. -/
def slotWords : List (Sq × NextWord) → List (Sq × Instr)
  | [] => []
  | (q, .word i) :: r => (q, i) :: slotWords r
  | _ :: r => slotWords r

/-- Takes the skew slots of this long word. -/
def Ctx.takeSkews (c : Ctx) : List (Sq × NextWord) → Ctx
  | [] => c
  | (q, .skew) :: r => Ctx.takeSkews (c.onSeqr q Seqr.skewOne) r
  | _ :: r => Ctx.takeSkews c r

/-- The words of one long word, TRAP after the others (R453), and its end. `s0`, `c` are the state and context before it, `s1` the state
in which its words begin. -/
def longWords (s0 : State) (p : Nat) (c : Ctx) (ws : List (Sq × Instr)) (s1 : State) : Out :=
  match ws.find? (fun x => isTrapWord x.2) with
  | some (_, w) =>
    match longWord s0 p c (ws.filter (fun x => !isTrapWord x.2)) false s1 with
    | (.next s2, _) =>
      if s2.last = .issued then
        match exec w { s2.endLong p c.cid false with focus := (p, .ctl) } with
        | .next s3 => if s3.last = .stalled then .next (discard s0 c .comp s3) else .next s3
        | o => o
      else .next s2
    | (o, _) => o
  | none =>
    match longWord s0 p c ws false s1 with
    | (.next s2, f) => if s2.last = .issued then .next (s2.endLong p c.cid f) else .next s2
    | (o, _) => o

/-- A sequencer `q` of a joined context has run past its last index: TARGET, unless a word of a sequencer before it traps first, or a
DBRK stops the long word (R108, R269, R317). -/
def pastTrap (s0 : State) (p : Nat) (c : Ctx) (q : Sq) (ws : List (Sq × Instr)) (s1 : State) : Out :=
  let ws1 := ws.filter (fun x => !isTrapWord x.2)
  let target := s0.trapHere c q (targetTrap (c.seqr q).pc)
  match breakIn s0 p c ws1 s1 with
  | some s' => .next s'
  | none =>
    match longWord s0 p c (ws1.filter (fun x => decide ((Sq.num x.1).toNat < (Sq.num q).toNat))) false s1 with
    | (.next s2, _) => .next (if s2.last = .trapped ∨ s2.last = .gone then s2 else target)
    | (o, _) => o

/-- One long word of a joined context (R50). A word that is no instruction is reported before a sequencer that has run past its last
index (R103, R108; log 50). -/
def runJoined (s : State) (p : Nat) (cOld : Ctx) : Out :=
  let c := cOld.landDue none
  let s0 := { s.setCtx c with focus := (p, .ctl) }
  let sl := s0.slots p c
  let s1 := { s0.setCtx { c.takeSkews sl with semT := c.sems, semS := c.sems, cbitsT := c.cbits } with last := .issued }
  match firstIllegal sl with
  | some (q, tval) => exec (.illegalEncoding tval) { s0 with focus := (p, q) }
  | none =>
    match firstPast sl with
    | some q => pastTrap s0 p c q (slotWords sl) s1
    | none =>
      if sl.all (fun x => x.2 == .empty) || c.arrayDue then .next (s0.setCtx { c with landed := [] }).stalled
      else longWords s0 p c (slotWords sl) s1

/-- The context has trapped ILLEGAL. -/
def State.isIllegal (s : State) (cid : Nat) : Bool :=
  match (s.ctx cid).bind (fun c => c.trap) with
  | some t => t.cause == 1
  | none => false

/-- The erroneous words of the instruction memory that a sequencer is about to read (R286). -/
def State.spoiltAt (s : State) (p : Nat) (c : Ctx) (q : Sq) : List Nat :=
  match (s.core p).plane with
  | some pl =>
    let lo := Sq.offset q + q.unit * (c.seqr q).pc
    if (c.seqr q).run = .running then pl.bad.filter (fun o => decide (o < lo + 3 * q.unit) && decide (lo < o + 8)) else []
  | none => []

/-- The first such word of the sequencers that may issue. -/
def State.spoilt (s : State) (p : Nat) (c : Ctx) (qs : List Sq) : Option (Sq × Nat) :=
  qs.findSome? (fun q => (s.spoiltAt p c q).head?.map (fun o => (q, o)))

/-- Reads a word of the instruction memory again from the image: LOST at the word where the image's data is lost (R286). -/
def State.reread (s : State) (p : Nat) (c : Ctx) (q : Sq) (off : Nat) : State :=
  match (s.core p).plane with
  | none => s
  | some pl =>
    let va := pl.image + BitVec.ofNat 64 off
    match peek s.dram c.root va .exec with
    | .error f => s.trapHere c q (xTrap s.free f va .exec)
    | .ok pa =>
      if s.dram.unit 64 pa = .lost then
        s.trapHere c q (lostTrap c .global [(pa / 64 * 64, 64)] (va &&& ~~~63#64) (s.stamps.get 0xFFFF (pa / 64)).toNat 0 0 3 stLOST)
      else
        let bs := (place off (s.dram.bytes pa 8)).foldl (fun m x => m.put 0 x.1 x.2) pl.bytes
        { s.setCore p { s.core p with plane := some { pl with bytes := bs, bad := pl.bad.erase off } } with last := .issued }

/-- The words that a context issues in its turn, once those that the checks of the instruction memories found in error are read again; a cycle match stops it before a word that would issue (R317). -/
def runWords (s : State) (p : Nat) (q : Sq) (c : Ctx) : Out :=
  match s.spoilt p c (if c.joined then [.ctl, .load, .store, .comp] else [q]) with
  | some (q', off) => .next (s.reread p c q' off)
  | none =>
  let o := if c.joined then runJoined s p c else runForked s p q c
  if s.cycleMatch p then
    match o with
    | .next s' => if s'.last = .stalled ∨ s'.isIllegal c.cid then o else exec (.cycleMatchStop p) s
    | _ => o
  else o

/-- The context may issue words: it runs, its core serves it, and it is not to leave its core. -/
def State.mayIssue (s : State) (c : Ctx) : Bool :=
  (c.stat == .running || c.stat == .inverse) && s.coreServes c && (!(c.leaving || s.displaced c) || s.goesOn c)

/-- The words that a core would issue next meet a test: those of its long word, or the next ones of its forked sequencers, but for a
sequencer (in joined mode: a long word) that has issued in the running cycle. -/
def State.issuesNext (s : State) (c : Ctx) (test : Sq → Instr → Bool) : Bool :=
  let p := c.core
  s.mayIssue c && c.impr.isEmpty && (if c.joined then
      !(s.last == .issued && s.focus.1 == p) && (slotWords (s.slots p c)).any (fun x => test x.1 x.2) && (runJoined s p c).issued
    else [Sq.ctl, .load, .store, .comp].any (fun q => !s.justIssued p q && s.wordNext p c q (test q)))

/-- An offered matrix word gives way to words of the sequencers: its wait comes after theirs (R65), and a matrix word of the compute
sequencer enters the shadow set first (R70). -/
def State.offerYields (s : State) (cid : Nat) : Bool :=
  match s.ctx cid with
  | some c =>
    (match c.offers with
    | x :: _ => (s.core c.core).active == some cid && s.issuesNext c (fun q i =>
        (x.wait != 0xFF && i.takesFrom.contains x.wait) || (q == .comp && i.isMatrix && !x.cancel))
    | [] => false)
  | none => false

/-- A core's next long word, or the next word of one of its sequencers, would issue (R317). -/
def State.wouldIssue (s : State) (p : Nat) : Bool :=
  match s.activeCtx p with
  | none => false
  | some c =>
    let goes (o : Out) : Bool := match o with
      | .next s' => s'.last != .stalled && !s'.isIllegal c.cid
      | _ => false
    s.mayIssue c && c.impr.isEmpty && (if c.joined then (s.spoilt p c [.ctl, .load, .store, .comp]).isNone && goes (runJoined s p c)
      else [Sq.ctl, .load, .store, .comp].any (fun q => (s.spoilt p c [q]).isNone && goes (runForked s p q c)))

/-- One turn. -/
def runTurn (t : Turn) (s : State) : Out :=
  match t with
  | .event (.cycleMatchStop p) => if s.wouldIssue p then exec (.cycleMatchStop p) s else .next s
  | .event (.engineCommandStart cid .mx) => if s.offerYields cid then .next s else exec (.engineCommandStart cid .mx) s
  | .event i => exec i s
  | .issue p q =>
    match s.activeCtx p with
    | none => .next s.stalled
    | some c =>
      if s.mayIssue c then
        match c.impr with
        | k :: _ => .next (s.imprecise c k)
        | [] => runWords s p q c
      else .next s.stalled

/-! ## The choice of the next turn -/

/-- A turn that would do something. -/
def worthwhile (s : State) (t : Turn) : Bool :=
  match runTurn t s with
  | .next s' =>
    match t with
    | .event _ => s' != s
    | .issue _ _ => s'.last != .stalled || s'.ctxs != s.ctxs || s'.last != s.last || s'.focus != s.focus
  | _ => true

/-- The issues of a core. -/
def State.issueTurns (s : State) (p : Nat) : List Turn :=
  match s.activeCtx p with
  | some c =>
    if c.joined then [.issue p .ctl] else [.issue p .ctl, .issue p .load, .issue p .store, .issue p .comp]
  | none => []

/-- The steps of a context's engines, legs, retirement and trap. -/
def ctxEvents (c : Ctx) : List Instr :=
  let n := c.cid
  [.resultLand n, .engineCommandStart n .inb, .engineCommandStart n .outb, .engineCommandStart n .mx, .copyUnit n .inb,
   .copyUnit n .outb, .commandSignal n .inb, .commandSignal n .outb, .matrixWordRetire n .pass, .legCountEnd n, .legCommit n,
   .memberRetire n, .faultRecordSend n, .handlerStart n, .taskAbort n]

/-- A new context waits for a bank of a core: a handler, a task, or a member of a ready launch (R43). -/
def State.wantsBank (s : State) (p : Nat) : Bool :=
  (s.onCore p).any (fun c => c.stat == .trapped && (match c.trap with
    | some t => c.toHandler t
    | none => false)) ||
  s.launches.any (fun l => (l.isReady && !s.taskOn p && s.coreTakes l Launch.displaced p) || (match s.memberOn l.lid p with
    | some m => !s.taskOn p && (l.nextTask (l.poolOf m)).isSome
    | none => false))

/-- A streamed-out context that is to come back: a victim with inverses to run (R340), or one that could run where no resident
one can. -/
def State.comesBack (s : State) (c : Ctx) : Bool :=
  !c.resident && (c.stat == .aborting || c.stat == .inverse ||
    (s.couldRun { c with loc := .bank 0 } && (s.onCore c.core).all (fun x => !s.couldRun x)))

/-- A context moves to or from the spill area (R43, R277). -/
def State.spillEvents (s : State) (p : Nat) : List Instr :=
  let cs := s.onCore p
  let back := cs.filter s.comesBack
  match s.freeBank p with
  | some b => if s.wantsBank p then [] else (back ++ cs.filter (fun c => !c.resident)).map (fun c => .contextStreamIn c.cid b true)
  | none =>
    if s.wantsBank p || !back.isEmpty then
      match (List.range s.spillSlots).find? (fun k => !s.spill.contains k) with
      | some k => cs.map (fun c => .contextStreamOut c.cid k)
      | none => []
    else []

/-- The steps of a core: its contexts, its planes and switches, its tasks. -/
def State.coreEvents (s : State) (p : Nat) : List Instr :=
  (s.onCore p).flatMap (fun c => ctxEvents c ++ [.contextSwitch p c.cid]) ++ [.planeFillComplete p] ++
    s.launches.map (fun l => .taskStart l.lid p) ++ s.spillEvents p

/-- `n` of the cores `cs`, from one unit (`unit` numbers it) that has so many free, or the first ones where none has. -/
def pickFrom (unit : Nat → Nat) (n : Nat) (cs : List Nat) : List Nat :=
  match cs.find? (fun p => decide (n ≤ (cs.filter (fun q => unit q == unit p)).length)) with
  | some p => cs.filter (fun q => unit q == unit p)
  | none => cs

/-- Cores for `n` clusters' worth of `k` members each, a cluster for each where one has so many free (R263). -/
def pickClusters (k : Nat) (cs : List Nat) : Nat → List Nat
  | 0 => []
  | n + 1 =>
    let g := (pickFrom clusterOf k cs).take k
    g ++ pickClusters k (cs.filter (fun p => !g.contains p)) n

/-- Cores for `n` groups of the members with one stage and one die coordinate, each on one die where one has so many free. -/
def pickDies (c k : Nat) (cs : List Nat) : Nat → List Nat
  | 0 => []
  | n + 1 =>
    let g := pickClusters k (pickFrom dieOf (c * k) cs) c
    g ++ pickDies c k (cs.filter (fun p => !g.contains p)) n

/-- Cores for a launch that is ready, in the order of logical indices, by the preferences of R263. -/
def State.pickCores (s : State) (l : Launch) : List Nat :=
  let cs := s.freeCores l
  let r := l.record
  let bare := cs.filter (fun p => s.fencedMx.contains (clusterOf p))
  if r.nomx && !bare.isEmpty then (bare ++ cs.filter (fun p => !bare.contains p)).take r.extent
  else pickDies r.c r.k cs (r.s * r.d)

/-- The steps of a launch. -/
def State.launchEvents (s : State) (l : Launch) : List Instr :=
  let n := l.lid
  [.barrierComplete n, .launchComplete n, .taskCommit n, .rendezvousDepTest n 0, .rendezvousDepTest n 1,
   .rendezvousDepTest n 2, .rendezvousDepTest n 3, .launchAgeing n, .launchReserve n] ++
    (if l.isReady then .launchPlace n (s.pickCores l) :: s.launches.map (fun v => .preempt v.lid n) else [])

/-- The steps of a link that need no time to pass. -/
def linkEvents (m : Nat) (l : Link) : List Instr :=
  let dir (up : Bool) : List Instr :=
    [.flitTransmit m up] ++ ((l.dir up).air.take 1).map (fun f => .flitReceive m up f) ++
      (if (l.dir up).owes = 0 then [] else [.idleTimer m up])
  dir true ++ dir false ++ [.linkRetrain m, .retrainComplete m, .moduleDisable m]

/-- The steps of the scheduler, the memory side, the windows and the links. -/
def State.deviceEvents (s : State) : List Instr :=
  [.legPin, .eventRingWrite, .shootdownComplete] ++ (List.range s.promos.length).map .promotionComplete ++
    (List.range s.reds.length).map .reductionApply ++ s.moves.map (fun m => .migrationMove m.root m.va m.tier) ++ s.inbound.map (fun x => .batchApply (s.domainDie x.1) x.2) ++
    s.launches.flatMap s.launchEvents ++ s.queues.flatMap (fun x => [.launchIntake x.1, .completionRecordWrite x.1]) ++
    s.links.flatMap (fun x => linkEvents x.1 x.2) ++ s.dooms.map .dieDrop ++
    (s.harts.filter (fun h => h.2.boot && s.bootHart.isSome && s.bootHart != some h.1)).map (fun h => .hstartHold h.1)

/-- The cores that hold anything. -/
def State.busyCores (s : State) : List Nat := (s.cores.map Prod.fst ++ s.allCtxs.map (fun c => c.core)).eraseDups

/-- The turns that could come next with nothing from outside: for each core its issues before its other steps (log 32). -/
def State.turns (s : State) : List Turn :=
  s.busyCores.flatMap (fun p => s.issueTurns p ++ (s.coreEvents p).map Turn.event) ++ s.deviceEvents.map Turn.event

/-- The first worthwhile turn, from position `k` on. -/
def pick (s : State) : Nat → List Turn → Option (Turn × Nat)
  | _, [] => none
  | k, t :: r => if worthwhile s t then some (t, k) else pick s (k + 1) r

/-- The next turn by round robin (log 30), and its position. -/
def State.choose (s : State) : Option (Turn × Nat) :=
  let ts := s.turns
  let k := if s.rr < ts.length then s.rr else 0
  match pick s k (ts.drop k) with
  | some x => some x
  | none => pick s 0 (ts.take k)

/-- The clock advances by a cycle and by what the turn takes beyond it (R496, R373; log 11). Messages that a pinned leg no longer
holds back are performed (R217), and accesses of harts and adapters that are under way go on by a unit (R210). -/
def State.tick (s : State) : State :=
  let s1 := { s with cycle := s.cycle + 1 + BitVec.ofNat 64 (Config.openCycles s.free), free := s.free + 1 }.serveInbox
  s1.bus.foldl State.runJob { s1 with bus := [] }

/-- One step with nothing on the agenda. -/
def stepFree (s : State) : Out :=
  match s.choose with
  | some (t, k) => runTurn t { s with rr := k + 1 }.tick
  | none => .next s.tick

end Sys2Proof.Machine
end

