-- ==== Sys2Proof/Machine/Place.lean ====
section
/-!
DEFINITION. Placing a context by hand: a machine that is about to run one word.
-/
namespace Sys2Proof.Machine

/-- The bytes of a word at index `tableIdx` of the control memory, or of the compute memory for a longer row. -/
def wordPlane (q : Sq) (bs : List Byte) : Plane :=
  { image := 0, bytes := (place (Sq.offset q + q.unit * tableIdx) bs).foldl (fun m p => m.put 0 p.1 p.2) [] }

/-- The sequencer of a table row (log 31). -/
def rowSq (nbits : Nat) : Sq := if nbits ≤ 64 then .ctl else .comp

/-- Places on core 0 a member that is about to issue the word (log 31). Every sequencer but the word's own is halted. -/
def placeWord (s : State) (nbits w : Nat) : State :=
  let q := rowSq nbits
  let off (x : Seqr) : Seqr := { x with run := .halted }
  let c0 := { (Ctx.blank s.nextCid 0).onAll off with stat := .running }
  let c := c0.setSeqr q (Seqr.start tableIdx [])
  { (s.setCtx c).setCore 0 { s.core 0 with active := some c.cid, plane := some (wordPlane q (bytesOfNat 36 w)) } with
    nextCid := s.nextCid + 1, agenda := [.issue 0 q] }

end Sys2Proof.Machine
end

