-- ==== Sys2Proof/Machine/Step.lean ====
section
/-!
DEFINITION. The step, and the host's question: a state whose next step runs a given instruction.
-/
namespace Sys2Proof.Machine

/-- One step: the turn at the head of the agenda, or the next turn by choice. -/
def step (s : State) : Host.Outcome State Fault Refusal :=
  match s.agenda with
  | t :: r => runTurn t { s with agenda := r }.tick
  | [] => stepFree s

/-- A state whose next step runs the instruction whose bits are `w` (log 31). -/
def State.withFetchWord (s : State) (nbits w : Nat) : State := placeWord s nbits w

end Sys2Proof.Machine
end

