-- ==== Sys2Proof/Safety.lean ====
section
/-!
DEFINITION. What counts as a safe step, and the invariant of the machine's memories.
-/
namespace Sys2Proof.Safety

open Sys2Proof.Machine

/-- The step from a state stops with no fault and no refusal. -/
def Safe (s : State) : Prop := ∃ s', step s = .next s'

/-- The local memories of a context have lost no stack (R14 speaks of DRAM alone). -/
def LocalWhole (c : Ctx) : Prop := c.sp.gone = [] ∧ c.can.gone = []

/-- Memory in canonical form: the package's DRAM and the local memories of every context. -/
def MemOk (s : State) : Prop :=
  s.dram.wf = true ∧ ∀ c ∈ s.allCtxs, c.sp.wf = true ∧ c.can.wf = true ∧ LocalWhole c

/-- Every context stands under its own number, once. -/
def Keyed (s : State) : Prop := s.ctxs.sorted = true ∧ ∀ x ∈ s.ctxs, x.2.cid = x.1

end Sys2Proof.Safety
end

