-- ==== Sys2Proof/Certificates/Slice0/Obligations.lean ====
section
/-!
DEFINITION. The statements for the provers, one `def Obligations.<Name> : Prop` each, and before them the words that they
share. A statement about one word is in two halves: its own effect as an equation (`exec i s = .next …`, so that everything
the right side does not name is unchanged), and the statements WordRetires, WordTraps, AdvanceRules and ScalarResultLands,
which say what the shared retirement, traps and landings do.
-/
namespace Sys2Proof.Claims
open Sys2Proof.Machine

/-- A word with header `h` comes to its body in context `c` with a true guard (R50, R63, R79, R106). -/
def Runs (s : State) (c : Ctx) (h : Hd) : Prop := s.reaches c h ∧ (c.seqr s.focus.2).guard h = true

/-- The same of SIG and WAIT, which a cancelled broadcast body does not pass over (R79). -/
def RunsAnyhow (s : State) (c : Ctx) (h : Hd) : Prop :=
  s.activeCtx s.focus.1 = some c ∧ c.blocked s.focus.2 = false ∧ (h.wait = 0xFF ∨ c.waitOk h.wait 1 = true) ∧
    (c.checkMode && c.predPending s.focus.2 h.pred) = false ∧ (c.seqr s.focus.2).guard h = true

/-- The registers can be read: outside check mode all, under it those that no result in flight will write (R59). -/
def Readable (s : State) (c : Ctx) (rs : List (BitVec 5)) : Prop :=
  c.checkMode = false ∨ ∀ r ∈ rs, c.regPending s.focus.2 r = false

/-- A control word that is an escape may issue: no leg of the member is exposed (R217). -/
def EscapeFree (s : State) (c : Ctx) : Prop := s.focus.2 = .ctl → s.escapeOk c = true

/-- The word's sequencer runs no broadcast (R77). -/
def NoBroadcast (s : State) (c : Ctx) : Prop := (c.seqr s.focus.2).bcast = none

/-- The word completes: `f` of the context as it stood at issue (header wait taken, a control word's leg open) retires, with
the word's transfer `j` and its header signal, in the state `s'`. -/
def CompletesIn (i : Instr) (s s' : State) (c : Ctx) (h : Hd) (j : Jump) (f : Ctx → Ctx) : Prop :=
  exec i s = .next (s'.issued ((f (c.begun s.focus.2 h)).retire s.focus.2 i.len j h.sig))

/-- The word completes and changes nothing but its context. -/
def Completes (i : Instr) (s : State) (c : Ctx) (h : Hd) (j : Jump) (f : Ctx → Ctx) : Prop := CompletesIn i s s c h j f

/-- The word completes with a scalar result `v` for register `d` that lands after `lat` schedule cycles. -/
def Gives (i : Instr) (s : State) (c : Ctx) (h : Hd) (d : BitVec 5) (v : Word) (lat : Nat) : Prop :=
  Completes i s c h .none (fun b => b.scalar s.focus.2 d v lat)

/-- The word completes with a pair result. -/
def GivesPair (i : Instr) (s : State) (c : Ctx) (h : Hd) (d : BitVec 5) (v : DWord) (lat : Nat) : Prop :=
  Completes i s c h .none (fun b => b.pairFlag s.free s.focus.2 d v lat 0)

/-- The word traps: it has no effect, and the trap is taken as soon as the member's legs let it. -/
def Traps (i : Instr) (s : State) (c : Ctx) (t : TrapRec) : Prop :=
  exec i s = .next (s.trapHere c s.focus.2 t)

/-- The core in focus runs this very context (it follows from `Safety.Keyed`, which every step keeps: StepKeepsMemoryForm). -/
def OnCore (s : State) (c : Ctx) : Prop := (s.core s.focus.1).active = some c.cid

/-- A vector word that writes nothing: its signal lands at the latency of a simple operation (R336). -/
def bare (sig : BitVec 8) (k : Ctx) : Ctx :=
  { k with vno := k.vno + 1
           flight := k.flight ++ [{ sq := .comp, dest := .none, val := 0, mask := 0, due := k.t + 2, sig := sig, flags := 0
                                    leg := none, vno := k.vno + 1 }] }

/-- The word does not issue and nothing changes. -/
def Waits (i : Instr) (s : State) : Prop := exec i s = .next s.stalled

end Sys2Proof.Claims

namespace Sys2Proof.Claims
open Sys2Proof.Machine

/-- The header of a word; a device step has none. -/
abbrev header (i : Instr) : Option Hd := i.header

/-- A word whose guard does not gate its body: copy and matrix words have none, LBRD reads it itself. -/
def guardless (i : Instr) : Bool :=
  match i with
  | .lbrd .. | .cpy .. | .dup .. | .gthr .. | .sctr .. | .xfer .. | .canf .. | .canr .. | .zfil .. | .sstr .. | .spf .. | .migr ..
  | .rqnt .. | .mma .. | .mmab .. | .mmas .. | .mmts .. | .sca .. | .nrm .. | .aclr .. | .acvt .. | .ald .. | .ast ..
  | .setx .. => true
  | _ => false

/-- A vector word. -/
def isVector (i : Instr) : Bool :=
  match i with
  | .rngb .. | .vabs .. | .vneg .. | .vadd .. | .vsub .. | .vmul .. | .vmin .. | .vmax .. | .vand .. | .vor ..
  | .vxor .. | .vnot .. | .vbcst .. | .vchk .. | .vclmp .. | .vcmp .. | .vcnt .. | .vcvt .. | .vdqn .. | .vqnt ..
  | .vexp2 .. | .vlog2 .. | .vrcp .. | .vrsq .. | .vfma .. | .vfms .. | .vgth .. | .vsct .. | .vidx .. | .vmov ..
  | .vmsk .. | .vperm .. | .vshuf .. | .vsld .. | .vrmx .. | .vsum .. | .vscl .. | .vsel .. | .vshl .. | .vshr ..
  | .vsra .. => true
  | _ => false

/-- What a context holds apart from its sequencers' positions, its semaphores, its leg, and its pending imprecise traps. -/
def SameData (a b : Ctx) : Prop :=
  (∀ q, (a.seqr q).regs = (b.seqr q).regs ∧ (a.seqr q).preds = (b.seqr q).preds ∧ (a.seqr q).epc = (b.seqr q).epc ∧
    (a.seqr q).latches = (b.seqr q).latches) ∧
  a.v = b.v ∧ a.m = b.m ∧ a.acc = b.acc ∧ a.bp = b.bp ∧ a.desc = b.desc ∧ a.sticky = b.sticky ∧ a.cause = b.cause ∧
  a.tval = b.tval ∧ a.hen = b.hen ∧ a.hent = b.hent ∧ a.cbits = b.cbits ∧ a.flight = b.flight ∧ a.inb = b.inb ∧
  a.outb = b.outb ∧ a.mx = b.mx ∧ a.sp = b.sp ∧ a.can = b.can ∧ a.sup = b.sup ∧ a.phase = b.phase ∧ a.legno = b.legno ∧
  a.ended = b.ended ∧ a.stat = b.stat ∧ a.pend = b.pend

end Sys2Proof.Claims

namespace Sys2Proof.Claims
open Sys2Proof.Machine

/-- The word does not issue: its context keeps everything (header wait not taken), and the machine says `stalled`. -/
def Holds (i : Instr) (s : State) (c : Ctx) : Prop := exec i s = .next (s.keep c).stalled

/-- The amount of SIG and WAIT: the immediate, or a register as an unsigned number (R444, R486). -/
def amountOf (x : Seqr) (rsrc : Bool) (amount : BitVec 13) : Nat :=
  if rsrc then (x.reg (amount.setWidth 5)).toNat else amount.toNat

/-- The index that a displacement names. -/
def displaced (c : Ctx) (q : Sq) (disp : Int) : Nat := (((c.seqr q).pc : Int) + disp).toNat

end Sys2Proof.Claims

namespace Sys2Proof.Claims
open Sys2Proof.Machine

/-- The address pair(base) + sext(off24) of a memory word of the control sequencer (R391). -/
def address (c : Ctx) (m : MemF) : BitVec 64 :=
  BitVec.ofInt 64 (((c.ctl.reg (m.base ++ 1#1)).toNat * 2 ^ 32 + (c.ctl.reg (m.base ++ 0#1)).toNat : Nat) + m.off.toInt)

/-- Bytes of a memory word's access. -/
def width (m : MemF) : Nat := m.size.bits / 8

/-- The operand of a store, an atomic or a reduction: s[reg], or the pair s[reg+1]:s[reg] of size 64 (R449). -/
def operand (c : Ctx) (m : MemF) : BitVec 64 :=
  if m.size = .b64 then c.ctl.reg (m.reg + 1) ++ c.ctl.reg m.reg else (c.ctl.reg m.reg).zeroExtend 64

/-- A global access at `va` passes the page tables, the watch filter and the race test, and reaches physical address `pa` in
state `s1` (the walker's marks and the TLB are the only changes). -/
def Reaches (s : State) (b : Ctx) (va : BitVec 64) (n : Nat) (k : Need) (cls : AccCls) (s1 : State) (pa : Nat) : Prop :=
  s.access b b.ctl.once.watch va n k cls none = .ok s1 pa

/-- The registers that a memory word reads. -/
def memRegs (m : MemF) : List (BitVec 5) := [m.reg, m.reg + 1, m.base ++ 0#1, m.base ++ 1#1]

/-- A loaded value is on its way: s[reg], extended, or the pair of LDP (R392, R393). `bs` are the bytes, lowest address first. -/
def withLoad (k : Ctx) (free : Nat) (m : MemF) (sx : Bool) (bs : List Byte) (lat : Nat) (flags : BitVec 5) : Ctx :=
  if m.size = .b64 then k.pairFlag free .ctl m.reg (BitVec.ofNat 64 (natOfBytes bs)) lat flags
  else k.scalarFlag .ctl m.reg (if sx then (BitVec.ofNat m.size.bits (natOfBytes bs)).signExtend 32
    else BitVec.ofNat 32 (natOfBytes bs)) lat flags

end Sys2Proof.Claims

open Sys2Proof Sys2Proof.Machine Sys2Proof.Claims

/-! ## Scalar words -/

/-- R353, R417, R420, R451, R493: sums, differences and bitwise words, modulo 2^32, landing after one schedule cycle. -/
def Obligations.SumsAndLogic : Prop :=
  ∀ (s : State) (c : Ctx) (h : Hd) (d a b : BitVec 5) (imm : BitVec 12), Runs s c h → Readable s c [a, b] →
    let x := (c.seqr s.focus.2).reg a
    let y := (c.seqr s.focus.2).reg b
    Gives (.add h d a b) s c h d (BitVec.ofNat 32 (x.toNat + y.toNat)) 1 ∧
    Gives (.sub h d a b) s c h d (BitVec.ofInt 32 (x.toInt - y.toInt)) 1 ∧
    Gives (.addi h d a imm) s c h d (BitVec.ofInt 32 (x.toInt + imm.toInt)) 1 ∧
    Gives (.subi h d a imm) s c h d (BitVec.ofInt 32 (x.toInt - imm.toInt)) 1 ∧
    Gives (.and h d a b) s c h d (x &&& y) 1 ∧ Gives (.or h d a b) s c h d (x ||| y) 1 ∧
    Gives (.xor h d a b) s c h d (x ^^^ y) 1 ∧
    Gives (.andi h d a imm) s c h d (x &&& BitVec.ofNat 32 imm.toNat) 1 ∧
    Gives (.ori h d a imm) s c h d (x ||| BitVec.ofNat 32 imm.toNat) 1 ∧
    Gives (.xori h d a imm) s c h d (x ^^^ BitVec.ofNat 32 imm.toNat) 1 ∧
    Gives (.not h d a) s c h d (BitVec.ofNat 32 (0xFFFFFFFF - x.toNat)) 1

/-- R443: shifts by any amount, as products and quotients by powers of two. -/
def Obligations.ShiftsArePowers : Prop :=
  ∀ (s : State) (c : Ctx) (h : Hd) (d a b : BitVec 5) (n : BitVec 5), Runs s c h → Readable s c [a, b] →
    let x := (c.seqr s.focus.2).reg a
    let y := ((c.seqr s.focus.2).reg b).toNat
    Gives (.shl h d a b) s c h d (if 32 ≤ y then 0 else BitVec.ofNat 32 (x.toNat * 2 ^ y)) 1 ∧
    Gives (.shr h d a b) s c h d (if 32 ≤ y then 0 else BitVec.ofNat 32 (x.toNat / 2 ^ y)) 1 ∧
    Gives (.sra h d a b) s c h d
      (if 32 ≤ y then (if x.toInt < 0 then 0xFFFFFFFF else 0) else BitVec.ofInt 32 (x.toInt / 2 ^ y)) 1 ∧
    Gives (.shli h d a n) s c h d (BitVec.ofNat 32 (x.toNat * 2 ^ n.toNat)) 1 ∧
    Gives (.shri h d a n) s c h d (BitVec.ofNat 32 (x.toNat / 2 ^ n.toNat)) 1 ∧
    Gives (.srai h d a n) s c h d (BitVec.ofInt 32 (x.toInt / 2 ^ n.toNat)) 1

/-- R378, R379, R412: division truncates toward zero; its results land after 12 schedule cycles; no divisor traps. -/
def Obligations.DivisionTruncates : Prop :=
  ∀ (s : State) (c : Ctx) (h : Hd) (d a b : BitVec 5), Runs s c h → Readable s c [a, b] →
    let x := (c.seqr s.focus.2).reg a
    let y := (c.seqr s.focus.2).reg b
    Gives (.div h d a b) s c h d (if y = 0 then 0xFFFFFFFF else BitVec.ofInt 32 (x.toInt.tdiv y.toInt)) 12 ∧
    Gives (.divn h d a b) s c h d (if y = 0 then 0xFFFFFFFF else BitVec.ofNat 32 (x.toNat / y.toNat)) 12 ∧
    Gives (.mod h d a b) s c h d (if y = 0 then x else BitVec.ofInt 32 (x.toInt.tmod y.toInt)) 12 ∧
    Gives (.modn h d a b) s c h d (if y = 0 then x else BitVec.ofNat 32 (x.toNat % y.toNat)) 12

/-- R415: the two halves of the product, after three schedule cycles. -/
def Sys2Proof.Claims.productHalves : Prop :=
  ∀ (s : State) (c : Ctx) (h : Hd) (d a b : BitVec 5), Runs s c h → Readable s c [a, b] →
    let x := (c.seqr s.focus.2).reg a
    let y := (c.seqr s.focus.2).reg b
    Gives (.mul h d a b) s c h d (BitVec.ofNat 32 (x.toNat * y.toNat)) 3 ∧
    Gives (.mulh h d a b) s c h d (BitVec.ofInt 32 (x.toInt * y.toInt / 2 ^ 32)) 3 ∧
    Gives (.mulhn h d a b) s c h d (BitVec.ofNat 32 (x.toNat * y.toNat / 2 ^ 32)) 3

/-- R402, R413, R414, R353, R425: choices, moves and counts. -/
def Obligations.ChoicesMovesCounts : Prop :=
  ∀ (s : State) (c : Ctx) (h : Hd) (d a b : BitVec 5) (imm : BitVec 16), Runs s c h → Readable s c [a, b, d] →
    let x := (c.seqr s.focus.2).reg a
    let y := (c.seqr s.focus.2).reg b
    Gives (.min h d a b) s c h d (BitVec.ofInt 32 (min x.toInt y.toInt)) 1 ∧
    Gives (.max h d a b) s c h d (BitVec.ofInt 32 (max x.toInt y.toInt)) 1 ∧
    Gives (.minn h d a b) s c h d (BitVec.ofNat 32 (min x.toNat y.toNat)) 1 ∧
    Gives (.maxn h d a b) s c h d (BitVec.ofNat 32 (max x.toNat y.toNat)) 1 ∧
    Gives (.mov h d a) s c h d x 1 ∧
    Gives (.movi h d imm) s c h d (BitVec.ofInt 32 imm.toInt) 1 ∧
    Gives (.movh h d imm) s c h d (BitVec.ofNat 32 (imm.toNat * 65536 + ((c.seqr s.focus.2).reg d).toNat % 65536)) 1 ∧
    (∃ n : Nat, Gives (.clz h d a) s c h d (BitVec.ofNat 32 n) 1 ∧ n ≤ 32 ∧ x.toNat < 2 ^ (32 - n) ∧
      (n < 32 → 2 ^ (31 - n) ≤ x.toNat)) ∧
    Gives (.popc h d a) s c h d (BitVec.ofNat 32 ((List.range 32).countP (fun i => x.getLsbD i))) 1

/-- R354, R400, R451: the pair s(d+1):s(d) and 32-bit operands, modulo 2^64. -/
def Sys2Proof.Claims.pairArithmetic : Prop :=
  ∀ (s : State) (c : Ctx) (h : Hd) (d a b : BitVec 5), Runs s c h → Readable s c [d, d + 1, a, a + 1, b] →
    let x := c.seqr s.focus.2
    let p (n : BitVec 5) : Nat := (x.reg (n + 1)).toNat * 2 ^ 32 + (x.reg n).toNat
    GivesPair (.addp h d a b) s c h d (BitVec.ofInt 64 (p a + (x.reg b).toInt)) 1 ∧
    GivesPair (.subp h d a b) s c h d (BitVec.ofInt 64 (p a - (x.reg b).toInt)) 1 ∧
    GivesPair (.madp h d a b) s c h d (BitVec.ofInt 64 (p d + (x.reg a).toInt * (x.reg b).toInt)) 3

/-- Products and 64-bit pairs (R354, R400, R415, R451). -/
def Obligations.ProductsAndPairs : Prop := Claims.productHalves ∧ Claims.pairArithmetic

/-- R366, R439: the tests of CMP and CMPI, signed and unsigned, and SEL. What the latch of a predicate result reads is a free
value (log 12). -/
def Obligations.ComparesAndSelects : Prop :=
  ∀ (s : State) (c : Ctx) (h : Hd) (p psel : BitVec 3) (cc : Cc) (d a b : BitVec 5) (imm : BitVec 11), Runs s c h →
    Readable s c [a, b] → (c.checkMode = false ∨ c.predPending s.focus.2 psel = false) →
    let x := (c.seqr s.focus.2).reg a
    let y := (c.seqr s.focus.2).reg b
    let test (k : Cc) (u v : Word) : Prop := match k with
      | .eq => u = v
      | .ne => u ≠ v
      | .lt => u.toInt < v.toInt
      | .ge => v.toInt ≤ u.toInt
      | .ltn => u.toNat < v.toNat
      | .gen => v.toNat ≤ u.toNat
    (∃ r, Completes (.cmp h p cc a b) s c h .none (fun k => k.predResult s.free s.focus.2 p r 1) ∧
      (r = true ↔ test cc x y)) ∧
    (∃ r, Completes (.cmpi h p cc a imm) s c h .none (fun k => k.predResult s.free s.focus.2 p r 1) ∧
      (r = true ↔ test cc x (BitVec.ofInt 32 imm.toInt))) ∧
    Gives (.sel h d a b psel) s c h d (if (c.seqr s.focus.2).pred psel then x else y) 1

/-! ## What words share -/

/-- R63, R445, R50: a word that its sequencer holds, or whose header wait finds too little, does not issue, and nothing
changes (the DBRK that a resume passes over, R377, has made its wait before); with no context on the core there is no word (the model's one stop of a word, fault noContext). Copy and matrix words
included. -/
def Sys2Proof.Claims.wordWaits : Prop :=
  ∀ (s : State) (i : Instr) (h : Hd), header i = some h →
    (s.activeCtx s.focus.1 = none → exec i s = .fault .noContext) ∧
    ∀ c, s.activeCtx s.focus.1 = some c → (i = .dbrk h → (c.seqr s.focus.2).once.dbrk = false) →
      (c.blocked s.focus.2 = true ∨ (h.wait ≠ 0xFF ∧ c.waitOk h.wait 1 = false)) → Waits i s

/-- R48, R106, R336: a word whose guard is false has no effect but its header's wait and signal: it retires; the signal of a vector
word lands at the latency of a simple operation. (A vector word of a member without vectors traps ENGINE whatever its guard.) -/
def Sys2Proof.Claims.falseGuardSkips : Prop :=
  ∀ (s : State) (c : Ctx) (i : Instr) (h : Hd), header i = some h → guardless i = false →
    (i = .dbrk h → (c.seqr s.focus.2).once.dbrk = false) →
    s.reaches c h → (c.seqr s.focus.2).guard h = false →
    (isVector i = false → Completes i s c h .none id) ∧
    (isVector i = true → s.focus.2 = .comp → c.novec = false → Completes i s c { h with sig := 0xFF } .none (bare h.sig))

/-- R64, R34, R63: retirement signals the header's semaphore, saturating with an imprecise SEMOVF, counts a control word in
its leg, moves the word's own sequencer as AdvanceRules says, and changes nothing else. -/
def Obligations.WordRetires : Prop :=
  ∀ (c : Ctx) (q : Sq) (len : Nat) (j : Jump) (sig : BitVec 8),
    let r := c.retire q len j sig
    SameData r c ∧ (∀ p, p ≠ q → r.seqr p = c.seqr p) ∧
    (j ≠ .stay → (r.seqr q).pc = ((c.seqr q).advance len j).pc ∧ (r.seqr q).loops = ((c.seqr q).advance len j).loops ∧
      (r.seqr q).lc = ((c.seqr q).advance len j).lc ∧ (r.seqr q).bcast = ((c.seqr q).advance len j).bcast) ∧
    (sig = 0xFF → r.sems = c.sems ∧ r.impr = c.impr) ∧
    (sig ≠ 0xFF → ∀ n, n ≠ sig → r.sem n = c.sem n) ∧
    (sig ≠ 0xFF → (c.sem sig).toNat < 0xFFFFF → (r.sem sig).toNat = (c.sem sig).toNat + 1 ∧ r.impr = c.impr) ∧
    (sig ≠ 0xFF → (c.sem sig).toNat = 0xFFFFF → r.sem sig = c.sem sig ∧ r.impr = c.impr ++ [(0x28, sig.zeroExtend 32)]) ∧
    (q = .ctl → ∀ l, c.leg = some l → l.preset = none → c.isHandler = false →
      r.leg = some { l with count := l.count + 1 }) ∧
    (q ≠ .ctl → r.leg = c.leg)

/-- R73, R74, R75, R76: where a sequencer goes. Outside broadcasts: the next word, the target (a branch leaves the loops that
do not hold it, a CALL and the end of a loop by LEXIT leave none), or, at the last word of the innermost loop, its first word while the
counter is above 1; a transfer there goes to its target once no loop goes on. Of two loops that share their last word the inner one is
tested first, and the outer one where the inner has ended.
In a broadcast: the next word of the body, its first word again, or the word after it; a loop of which the word is the last has its
test there too (log 83). That a loop left by a count of 0 or by LEXIT ends no other is log 56. -/
def Obligations.AdvanceRules : Prop :=
  ∀ (x : Seqr) (len : Nat) (j : Jump),
    (x.bcast = none → (∀ l ∈ x.loops, l.last ≠ x.pc) →
      let y := x.advance len j
      y.lc = x.lc ∧
      (j = .none → y.pc = x.pc + len ∧ y.loops = x.loops) ∧
      (∀ t, j = .branch t → y.pc = t ∧ y.loops = x.loops.filter (fun l => l.first ≤ t ∧ t ≤ l.last)) ∧
      (∀ t, j = .call t ∨ j = .leave t → y.pc = t ∧ y.loops = x.loops)) ∧
    (∀ l ls, x.bcast = none → x.loops = l :: ls → l.last = x.pc → 1 < (x.lcVal l.lc).toNat →
      let y := x.advance len j
      y.pc = l.first ∧ y.loops = x.loops ∧ y.lcVal l.lc = x.lcVal l.lc - 1) ∧
    (∀ l ls, x.bcast = none → x.loops = l :: ls → l.last = x.pc → (x.lcVal l.lc).toNat ≤ 1 → (∀ k ∈ ls, k.last ≠ x.pc) →
      let y := x.advance len j
      y.lcVal l.lc = 0 ∧ (j = .none → y.pc = x.pc + len ∧ y.loops = ls) ∧
      (∀ t, j = .branch t → y.pc = t ∧ y.loops = ls.filter (fun l => l.first ≤ t ∧ t ≤ l.last)) ∧
      (∀ t, j = .call t ∨ j = .leave t → y.pc = t ∧ y.loops = ls)) ∧
    (∀ l m ls, x.bcast = none → x.loops = l :: m :: ls → l.last = x.pc → m.last = x.pc → l.lc ≠ m.lc → (x.lcVal l.lc).toNat ≤ 1 →
      let y := x.advance len j
      y.lcVal l.lc = 0 ∧
      (1 < (x.lcVal m.lc).toNat → y.pc = m.first ∧ y.loops = m :: ls ∧ y.lcVal m.lc = x.lcVal m.lc - 1) ∧
      ((x.lcVal m.lc).toNat ≤ 1 → (∀ k ∈ ls, k.last ≠ x.pc) → y.lcVal m.lc = 0 ∧ (j = .none → y.pc = x.pc + len ∧ y.loops = ls))) ∧
    (∀ b l ls, x.bcast = some b → x.loops = l :: ls → l.last = x.pc → 1 < (x.lcVal l.lc).toNat →
      let y := x.advance len j
      y.loops = x.loops ∧ y.lcVal l.lc = x.lcVal l.lc - 1) ∧
    (∀ b, x.bcast = some b → (∀ l ∈ x.loops, l.last ≠ x.pc) →
      let y := x.advance len j
      y.loops = x.loops ∧ y.lc = x.lc ∧
      (b.pos + 1 < b.len → y.pc = x.pc + len ∧ y.bcast = some { b with pos := b.pos + 1 }) ∧
      (b.pos + 1 = b.len → 1 < b.left → y.pc = b.first ∧ y.bcast = some { b with pos := 0, left := b.left - 1 }) ∧
      (b.pos + 1 = b.len → b.left ≤ 1 → y.pc = x.pc + len ∧ y.bcast = none))

/-- R56, R57, R109: a scalar result lands in its register after its latency (a result for s0 is discarded), a predicate
result in its predicate, a vector result in its lanes; until then the register keeps its old value; nothing else of the
registers changes. -/
def Sys2Proof.Claims.resultsLand : Prop :=
  ∀ (c : Ctx) (q : Sq) (d : BitVec 5) (v : Word) (lat : Nat) (f : Flight),
    f = c.flightOf q (.reg d) (v.setWidth 1024) lat 0 →
    (c.scalar q d v lat).flight = c.flight ++ [f] ∧
    (∀ k, ((c.scalar q d v lat).seqr q).reg k = (c.seqr q).reg k) ∧
    f.due = c.t + lat ∧
    ((∀ k : BitVec 5, ((c.landOne f).seqr q).reg k = if k = d ∧ d ≠ 0 then v else (c.seqr q).reg k) ∧
      (∀ p, p ≠ q → (c.landOne f).seqr p = c.seqr p) ∧ (c.landOne f).v = c.v ∧ (c.landOne f).sp = c.sp ∧
      (c.landOne f).sems = c.sems ∧ (c.landOne f).sticky = c.sticky) ∧
    (∀ g : Flight, g.sig = 0xFF → g.flags = 0 →
      (∀ n, g.dest = .vreg n → ∀ i, ((c.landOne g).vreg n).getLsbD i =
        if g.mask.getLsbD i then g.val.getLsbD i else (c.vreg n).getLsbD i) ∧
      (∀ n, g.dest = .pred n → n ≠ 0 → ((c.landOne g).seqr g.sq).pred n = g.val.getLsbD 0) ∧
      (∀ n, g.dest = .mask n → (c.landOne g).mreg n = g.val.setWidth 64))

/-- R56, R109, R354: a pair result is two results for s[d] and s[d + 1], which land together after its latency, the low half in s[d], the
high half in s[d + 1] (of either, what goes to s0 is discarded); its flags are the sticky bits that it sets. What its latch reads is a
free value (log 12). -/
def Sys2Proof.Claims.pairResultLands : Prop :=
  ∀ (c : Ctx) (free : Nat) (q : Sq) (d : BitVec 5) (v : DWord) (lat : Nat) (flags : BitVec 5),
    let e := c.pairFlag free q d v lat flags
    ∃ f g : Flight, e.flight = c.flight ++ [f, g] ∧ f.due = c.t + lat ∧ g.due = c.t + lat ∧ f.sq = q ∧ g.sq = q ∧
      f.flags = flags ∧ g.flags = 0 ∧ (∀ k, (e.seqr q).reg k = (c.seqr q).reg k) ∧ (∀ p, p ≠ q → e.seqr p = c.seqr p) ∧
      let r := (e.landOne f).landOne g
      (∀ k : BitVec 5, (r.seqr q).reg k = if k = 0 then 0 else if k = d then v.extractLsb' 0 32
        else if k = d + 1 then v.extractLsb' 32 32 else (c.seqr q).reg k) ∧
      (∀ p, p ≠ q → r.seqr p = c.seqr p) ∧ r.sticky = c.sticky ||| flags ∧ r.v = c.v ∧ r.m = c.m ∧ r.sp = c.sp ∧ r.sems = c.sems

/-- How results land: scalar, predicate, vector and mask results, and register pairs (R56, R57, R109, R354). -/
def Obligations.ScalarResultLands : Prop := Claims.resultsLand ∧ Claims.pairResultLands

/-- R200, R265, R266, R102, R217: a precise trap whose member has no exposed leg suspends the context: CAUSE holds IMPR, SEQ and
the code, TVAL the trap's value, each EPC its own sequencer's next index; in joined mode no result lands and no register
changes; memory and every other context stay as they were. -/
def Sys2Proof.Claims.wordTraps : Prop :=
  ∀ (s : State) (c : Ctx) (q : Sq) (t : TrapRec), s.escapeOk c = true → t.lost = [] → t.flags = 0 → t.cause < 256 →
    ∃ d, (s.trapHere c q t).ctx c.cid = some d ∧ (s.trapHere c q t).last = .trapped ∧
      d.stat = .trapped ∧ d.tval = t.tval ∧ d.trap = some { t with sq := q, held := false } ∧
      d.cause.extractLsb' 0 8 = BitVec.ofNat 8 t.cause ∧ d.cause.extractLsb' 8 21 = 0 ∧ d.cause.extractLsb' 29 2 = Sq.num q ∧
      d.cause.getLsbD 31 = false ∧
      (c.joined = true → (∀ r, (d.seqr r).epc = BitVec.ofNat 32 (c.seqr r).pc ∧ (d.seqr r).pc = (c.seqr r).pc ∧
        (d.seqr r).regs = (c.seqr r).regs) ∧ d.flight = c.flight ∧ d.v = c.v ∧ d.sp = c.sp ∧ d.sems = c.sems ∧
        d.sticky = c.sticky) ∧
      (c.joined = false → d.flight = [] ∧ ∀ r, (d.seqr r).epc = BitVec.ofNat 32 (d.seqr r).pc) ∧
      (s.trapHere c q t).dram = s.dram ∧ (∀ n, n ≠ c.cid → (s.trapHere c q t).ctx n = s.ctx n) ∧
      (s.trapHere c q t).cores = s.cores ∧ (s.trapHere c q t).launches = s.launches

/-- R217, R218: while a leg of the member is exposed the trap waits: the context's registers, pc and memory stay. -/
def Sys2Proof.Claims.trapWaitsForLegs : Prop :=
  ∀ (s : State) (c : Ctx) (q : Sq) (t : TrapRec), s.escapeOk c = false →
    ∃ d, (s.trapHere c q t).ctx c.cid = some d ∧ d = { c with want := true } ∧ (s.trapHere c q t).last = .stalled ∧
      (s.trapHere c q t).dram = s.dram ∧ (s.trapHere c q t).events = s.events ∧
      ∀ n, n ≠ c.cid → (s.trapHere c q t).ctx n = s.ctx n

/-- What a precise trap of a word saves, and that it waits while a leg of the member is exposed (R200, R217, R218, R265, R266). -/
def Obligations.WordTrapsOrWaits : Prop := Claims.wordTraps ∧ Claims.trapWaitsForLegs

/-! ## Transfers, loops, broadcasts -/

/-- R362, R389, R431, R108, R77: BR, JMP, CALL, BRA and RET transfer at once; BRA and RET trap TARGET with the target in TVAL
where it lies outside the instruction memory; otherwise all five trap LOOPBODY in a broadcast body. -/
def Obligations.TransfersGoToTargets : Prop :=
  ∀ (s : State) (c : Ctx) (h : Hd) (disp : BitVec 22) (far : BitVec 26) (reg : BitVec 5), Runs s c h →
    let q := s.focus.2
    let x := c.seqr q
    (Readable s c [reg] → q.limit ≤ (x.reg reg).toNat → Traps (.bra h reg) s c (mkTrap 0x0F (x.reg reg))) ∧
    (Readable s c [31] → q.limit ≤ (x.reg 31).toNat → Traps (.ret h) s c (mkTrap 0x0F (x.reg 31))) ∧
    (NoBroadcast s c →
      Completes (.br h disp) s c h (.branch (displaced c q disp.toInt)) id ∧
      Completes (.jmp h far) s c h (.branch (displaced c q far.toInt)) id ∧
      Completes (.call h disp) s c h (.call (displaced c q disp.toInt))
        (fun b => b.scalar q 31 (BitVec.ofNat 32 (x.pc + 1)) 1) ∧
      (Readable s c [reg] → (x.reg reg).toNat < q.limit → Completes (.bra h reg) s c h (.branch (x.reg reg).toNat) id) ∧
      (Readable s c [31] → (x.reg 31).toNat < q.limit → Completes (.ret h) s c h (.branch (x.reg 31).toNat) id)) ∧
    (¬ NoBroadcast s c →
      Traps (.br h disp) s c (mkTrap 0x07 0) ∧ Traps (.jmp h far) s c (mkTrap 0x07 0) ∧
      Traps (.call h disp) s c (mkTrap 0x07 0) ∧ (Readable s c [reg] → (x.reg reg).toNat < q.limit → Traps (.bra h reg) s c (mkTrap 0x07 0)) ∧
      (Readable s c [31] → (x.reg 31).toNat < q.limit → Traps (.ret h) s c (mkTrap 0x07 0)))

/-- R73, R75, R77, R78, R395, R398: LOOP starts its loop with the count, skips the body of a count of zero, and traps LOOPNEST
where its counter is active; LEXIT ends the loop and those inside it and goes on after the body, and an inactive one does
nothing. -/
def Sys2Proof.Claims.loopsStartAndEnd : Prop :=
  ∀ (s : State) (c : Ctx) (h : Hd) (lc : BitVec 2) (count : BitVec 5) (dist : BitVec 15), Runs s c h → NoBroadcast s c →
    let q := s.focus.2
    let x := c.seqr q
    let n := x.reg count
    (Readable s c [count] →
      ((∀ l ∈ x.loops, l.lc ≠ lc) → n ≠ 0 → Completes (.loop h lc count dist) s c h .none (fun b => b.onSeqr q (fun y =>
        { y.setLc lc n with loops := { lc := lc, first := x.pc + 1, last := x.pc + dist.toNat } :: y.loops }))) ∧
      ((∀ l ∈ x.loops, l.lc ≠ lc) → n = 0 →
        Completes (.loop h lc count dist) s c h (.leave (s.after q (x.pc + dist.toNat))) (fun b => b.onSeqr q (fun y =>
          y.setLc lc 0))) ∧
      ((∃ l ∈ x.loops, l.lc = lc) → Traps (.loop h lc count dist) s c (mkTrap 0x06 (lc.zeroExtend 32)))) ∧
    ((∀ l ∈ x.loops, l.lc ≠ lc) → Completes (.lexit h lc false) s c h .none id) ∧
    (∀ pre l post, x.loops = pre ++ l :: post → (∀ k ∈ pre, k.lc ≠ lc) → l.lc = lc →
      Completes (.lexit h lc false) s c h (.leave (s.after q l.last)) (fun b => b.onSeqr q (fun y =>
        { y.setLc lc 0 with loops := post })) ∧
      (q ≠ .ctl → Completes (.lexit h lc true) s c h (.leave (s.after q l.last)) (fun b => b.onSeqr q (fun y =>
        { y.setLc lc 0 with loops := post }))))

/-- A command after a LEXIT .cancel: of a cancelled broadcast, it is cancelled if it has not started, and its chained matrix word is
(R79). -/
def Sys2Proof.Claims.Struck (hit : Nat → Prop) (k k' : Cmd) : Prop :=
  k' = { k with cancel := k'.cancel, mxCancel := k'.mxCancel } ∧ (¬ hit k.bno → k' = k) ∧
    (hit k.bno → k'.mxCancel = true ∧ (k'.cancel = true ↔ k.cancel = true ∨ k.dc = 0))

/-- R79, R217, R395: LEXIT .cancel on the control sequencer, once no leg of the member is exposed, cancels every broadcast that runs or is
armed, with those of its commands that have not started (copies that have moved no unit, matrix words in the shadow set or offered), and
ends its loop as LEXIT does. It changes nothing else; a matrix word in the shadow set keeps what it has advanced (log 120). -/
def Sys2Proof.Claims.lexitCancels : Prop :=
  ∀ (s : State) (c : Ctx) (h : Hd) (lc : BitVec 2), Runs s c h → s.focus.2 = .ctl → NoBroadcast s c →
    let w : Instr := .lexit h lc true
    let b := c.begun .ctl h
    let runs (x : Seqr) (n : Nat) : Prop := ∃ k, (x.bcast = some k ∨ x.armed = some k) ∧ k.no = n
    let hit (n : Nat) : Prop := runs c.load n ∨ runs c.store n ∨ runs c.comp n
    let off (x : Seqr) : Seqr := { x with bcast := x.bcast.map (fun k => { k with cancel := true })
                                          armed := x.armed.map (fun k => { k with cancel := true }) }
    let both (o o' : Option Cmd) : Prop := (o = none ∧ o' = none) ∨ ∃ k k', o = some k ∧ o' = some k' ∧ Claims.Struck hit k k'
    (s.escapeOk c = false → exec w s = .next (s.keep { c with want := true }).stalled) ∧
    (s.escapeOk c = true → ∃ d : Ctx,
      d = { b with load := off c.load, store := off c.store, comp := off c.comp,
                   inb := { c.inb with active := d.inb.active, shadow := d.inb.shadow },
                   outb := { c.outb with active := d.outb.active, shadow := d.outb.shadow },
                   mx := { c.mx with shadow := d.mx.shadow }, offers := d.offers } ∧
      both c.inb.active d.inb.active ∧ both c.inb.shadow d.inb.shadow ∧ both c.outb.active d.outb.active ∧
      both c.outb.shadow d.outb.shadow ∧
      (c.mx.shadow = none → d.mx.shadow = none) ∧
      (∀ k, c.mx.shadow = some k → (hit k.bno → d.mx.shadow = some { k with cancel := true }) ∧
        (¬ hit k.bno → d.mx.shadow = some k)) ∧
      d.offers.length = c.offers.length ∧
      (∀ (n : Nat) (k : MCmd), c.offers[n]? = some k → (hit k.bno → d.offers[n]? = some { k with cancel := true }) ∧
        (¬ hit k.bno → d.offers[n]? = some k)) ∧
      ((∀ l ∈ c.ctl.loops, l.lc ≠ lc) → exec w s = .next (s.issued (d.retire .ctl 1 .none h.sig))) ∧
      (∀ pre l post, c.ctl.loops = pre ++ l :: post → (∀ k ∈ pre, k.lc ≠ lc) → l.lc = lc →
        exec w s = .next (s.issued ((d.onSeqr .ctl (fun y => { y.setLc lc 0 with loops := post })).retire .ctl 1
          (.leave (s.after .ctl l.last)) h.sig))))

/-- LOOP and LEXIT, the cancelling LEXIT of the control sequencer too (R73, R75, R78, R79, R395, R398). That a loop left so ends no loop that
holds it is log 56. -/
def Obligations.LoopsStartAndEnd : Prop := Claims.loopsStartAndEnd ∧ Claims.lexitCancels

/-- R76, R337, R390, R344: LBRD in a joined context arms a broadcast of `len + 1` words on each named sequencer that has not
halted, with the count (0 under a false guard) and the skew; it waits while a named one still runs a broadcast; elsewhere it traps
MODE. At the end of the long word an armed sequencer starts with its next word, or passes over the body of a count of zero. -/
def Obligations.BroadcastsArmAndStart : Prop :=
  (∀ (s : State) (c : Ctx) (h : Hd) (count : BitVec 5) (len : BitVec 8) (mask : BitVec 3) (skl sks skc : BitVec 6),
    s.reaches c h → s.focus.2 = .ctl →
    let w : Instr := .lbrd h count len mask skl sks skc
    let go := c.ctl.guard h
    let busy (i : Nat) (x : Seqr) : Prop := mask.getLsbD i = true ∧ x.bcast ≠ none
    let arm (i : Nat) (sk : BitVec 6) (x : Seqr) : Seqr :=
      if mask.getLsbD i = true ∧ x.run ≠ .halted then
        { x with armed := some { no := c.bno + 1, first := 0, len := len.toNat + 1, pos := 0
                                 left := if go then (c.ctl.reg count).toNat else 0, skew := sk.toNat, cancel := false } }
      else x
    (c.joined = true → c.isHandler = false → c.inInverse = false → (go = true → Readable s c [count]) → s.escapeOk c = true →
      (¬ busy 0 c.load ∧ ¬ busy 1 c.store ∧ ¬ busy 2 c.comp →
        Completes w s c h .none (fun b => { b with bno := c.bno + 1, load := arm 0 skl b.load, store := arm 1 sks b.store
                                                   comp := arm 2 skc b.comp })) ∧
      (busy 0 c.load ∨ busy 1 c.store ∨ busy 2 c.comp → Holds w s c)) ∧
    (c.joined = false ∨ c.isHandler = true ∨ c.inInverse = true → Traps w s c (mkTrap 0x03 0))) ∧
  (∀ (x : Seqr) (pl : Plane) (q : Sq) (b : Bcast), x.armed = some b →
    (b.left ≠ 0 → x.startBcast pl q = { x with armed := none, bcast := some { b with first := x.pc } }) ∧
    (b.left = 0 → x.startBcast pl q = { x with armed := none, pc := skipWords pl q b.len x.pc }))

/-- R79, R336: a word of a cancelled broadcast performs only its wait and its signal, whatever it is (a copy word that
carries a matrix word apart: that word makes its own wait and signal, R70; SIG and WAIT, whose waits and signals are more than their
headers': semaphoreWords says what they do there); the signal of a vector word lands as that of one that writes nothing. -/
def Sys2Proof.Claims.cancelledWordsOnlySignal : Prop :=
  ∀ (s : State) (c : Ctx) (i : Instr) (h : Hd), header i = some h → s.activeCtx s.focus.1 = some c →
    (∀ h' f, i = .cpy h' f ∨ i = .dup h' f ∨ (∃ d, i = .gthr h' f d) → f.chain = none) →
    (∀ sem r n, i ≠ .sig h sem r n ∧ i ≠ .wait h sem r n) →
    (i = .dbrk h → (c.seqr s.focus.2).once.dbrk = false) →
    c.blocked s.focus.2 = false → (h.wait = 0xFF ∨ c.waitOk h.wait 1 = true) → c.cancelled s.focus.2 = true →
    (isVector i = false → Completes i s c h .none id) ∧
    (isVector i = true → Completes i s c { h with sig := 0xFF } .none (bare h.sig))

/-- The scalar registers that a word of the scalar arithmetic, a transfer, LOOP, SEMI or CSRW reads (R47, R104). -/
def Sys2Proof.Claims.readsOf (i : Instr) : List (BitVec 5) :=
  match i with
  | .add _ _ a b | .sub _ _ a b | .mul _ _ a b | .mulh _ _ a b | .mulhn _ _ a b | .div _ _ a b | .divn _ _ a b | .mod _ _ a b
  | .modn _ _ a b | .and _ _ a b | .or _ _ a b | .xor _ _ a b | .shl _ _ a b | .shr _ _ a b | .sra _ _ a b | .min _ _ a b
  | .minn _ _ a b | .max _ _ a b | .maxn _ _ a b | .cmp _ _ _ a b | .sel _ _ a b _ => [a, b]
  | .not _ _ a | .clz _ _ a | .popc _ _ a | .mov _ _ a | .addi _ _ a _ | .subi _ _ a _ | .andi _ _ a _ | .ori _ _ a _
  | .xori _ _ a _ | .shli _ _ a _ | .shri _ _ a _ | .srai _ _ a _ | .cmpi _ _ _ a _ => [a]
  | .movh _ d _ => [d]
  | .addp _ _ a b | .subp _ _ a b => [a, a + 1, b]
  | .madp _ d a b => [d, d + 1, a, b]
  | .bra _ reg | .loop _ _ reg _ | .semi _ _ reg | .csrw _ reg _ => [reg]
  | .ret _ => [31]
  | .sig _ _ true n | .wait _ _ true n => [n.setWidth 5]
  | _ => []

/-- R59: under check mode a word that reads a scalar register, a predicate operand, or a guard that a result in flight of its sequencer
will write traps STALE before it issues. -/
def Sys2Proof.Claims.staleReadsTrap : Prop :=
  ∀ (s : State) (c : Ctx) (i : Instr) (h : Hd), header i = some h → c.checkMode = true →
    let q := s.focus.2
    let willWrite (d : Dest) : Prop := ∃ f ∈ c.flight, f.sq = q ∧ f.dest = d
    (Runs s c h → (∃ r ∈ Claims.readsOf i, r ≠ 0 ∧ willWrite (.reg r)) → Traps i s c (mkTrap 0x09 0)) ∧
    (∀ d a b p, i = .sel h d a b p → Runs s c h → p ≠ 0 → willWrite (.pred p) → Traps i s c (mkTrap 0x09 0)) ∧
    (s.activeCtx s.focus.1 = some c → c.blocked q = false → (h.wait = 0xFF ∨ c.waitOk h.wait 1 = true) → c.cancelled q = false →
      guardless i = false → isVector i = false → (i = .dbrk h → (c.seqr q).once.dbrk = false) → OnCore s c → h.pred ≠ 0 →
      willWrite (.pred h.pred) → ∃ a, Traps i s c { mkTrap 0x09 0 with acc := a })

/-- When a word does not issue and when it has no effect: its sequencer held, its header wait, its guard, a stale operand (R48, R50, R59,
R63, R106). -/
def Obligations.GuardsAndWaits : Prop :=
  Claims.wordWaits ∧ Claims.falseGuardSkips ∧ Claims.cancelledWordsOnlySignal ∧ Claims.staleReadsTrap

/-! ## Synchronisation -/

/-- R416, R63, R79, R444, R486, R440, R441: NOP; SIG adds, saturating at 0xF_FFFF with an imprecise SEMOVF, after its own header wait
has taken from a semaphore that it signals; WAIT takes its amount when the semaphore holds it, and else holds the word; SEMI sets, before
the signals of results that land in its cycle (`landed`: the semaphore, and whether it rose); SEMR reads the value before those signals.
In a joined long word a wait tests and takes from the values at the long word's start (`semT`). -/
def Sys2Proof.Claims.semaphoreWords : Prop :=
  ∀ (s : State) (c : Ctx) (h : Hd) (sem : BitVec 8) (rsrc : Bool) (amount : BitVec 13) (reg d : BitVec 5),
    let q := s.focus.2
    let x := c.seqr q
    let b := c.begun q h
    let n := amountOf x rsrc amount
    let v := (x.reg reg).toNat
    let held := if c.joined then (b.semT.get 0 sem.toNat).toNat else (b.sems.get 0 sem.toNat).toNat
    let ovf : Nat × Word := (0x28, sem.zeroExtend 32)
    let own : Prop := c.joined = true ∧ h.wait ≠ 0xFF ∧ (h.wait = sem ∨ h.wait = h.sig) ∧ b.sem h.wait ≠ 0
    let took (k : Ctx) : Ctx :=
      { k.setSem h.wait (k.sem h.wait - 1) with semS := k.semS.put 0 h.wait.toNat (k.semS.get 0 h.wait.toNat - 1) }
    (Runs s c h → Completes (.nop h) s c h .none id ∧
      Gives (.semr h d sem) s c h d (BitVec.ofNat 32 ((b.sem sem).toNat - c.landed.count (sem, true))) 1) ∧
    (RunsAnyhow s c h → EscapeFree s c → (rsrc = true → Readable s c [amount.setWidth 5]) →
      (∀ f : Ctx → Ctx, (own → f = took) → (¬ own → f = id) →
        (((f b).sem sem).toNat + n ≤ 0xFFFFF → Completes (.sig h sem rsrc amount) s c h .none (fun k =>
          (f k).setSem sem (BitVec.ofNat 20 (((f b).sem sem).toNat + n)))) ∧
        (0xFFFFF < ((f b).sem sem).toNat + n → Completes (.sig h sem rsrc amount) s c h .none (fun k =>
          { (f k).setSem sem 0xFFFFF with impr := k.impr ++ [ovf] }))) ∧
      (n ≠ 0 → n ≤ held → c.joined = false → Completes (.wait h sem rsrc amount) s c h .none (fun k =>
        k.setSem sem (BitVec.ofNat 20 (held - n)))) ∧
      (n ≠ 0 → n ≤ held → c.joined = true → Completes (.wait h sem rsrc amount) s c h .none (fun k =>
        { k with semT := k.semT.put 0 sem.toNat (BitVec.ofNat 20 (held - n)) })) ∧
      (n = 0 → Completes (.wait h sem rsrc amount) s c h .none id) ∧
      (held < n → Holds (.wait h sem rsrc amount) s c)) ∧
    (Runs s c h → EscapeFree s c → Readable s c [reg] →
      ((∀ x ∈ c.landed, x.1 ≠ sem) → v ≤ 0xFFFFF → Completes (.semi h sem reg) s c h .none (fun k => k.setSem sem (BitVec.ofNat 20 v))) ∧
      (c.landed = [(sem, true)] → v < 0xFFFFF → Completes (.semi h sem reg) s c h .none (fun k =>
        (k.setSem sem (BitVec.ofNat 20 v)).setSem sem (BitVec.ofNat 20 (v + 1)))) ∧
      (∀ pre post, c.landed = [(sem, false)] → c.impr = pre ++ ovf :: post → ovf ∉ post → v < 0xFFFFF →
        Completes (.semi h sem reg) s c h .none (fun k =>
          { (k.setSem sem (BitVec.ofNat 20 v)).setSem sem (BitVec.ofNat 20 (v + 1)) with impr := pre ++ post })) ∧
      ((∀ x ∈ c.landed, x.1 ≠ sem) → 0xFFFFF < v → Completes (.semi h sem reg) s c h .none (fun k =>
        { k.setSem sem 0xFFFFF with impr := k.impr ++ [ovf] })))

/-- R65: the takes of a joined long word apply to the values its signals have left: each semaphore falls by what was taken. (`start`
is what the semaphores held before the long word, less what a SIG's own wait has taken at once, R444.) -/
def Sys2Proof.Claims.takesApplyAfterSignals : Prop :=
  ∀ (free : Nat) (c : Ctx) (start : SMap (BitVec 20)), start.sorted = true →
    (∀ kv ∈ start, kv.2.toNat - (c.semT.get 0 kv.1).toNat ≤ (c.sems.get 0 kv.1).toNat) →
    let d := c.applyTakes free start
    (∀ kv ∈ start, (d.sems.get 0 kv.1).toNat =
      (c.sems.get 0 kv.1).toNat - (kv.2.toNat - (c.semT.get 0 kv.1).toNat)) ∧
    (∀ k, (∀ kv ∈ start, kv.1 ≠ k) → d.sems.get 0 k = c.sems.get 0 k) ∧
    d = { c with sems := d.sems }

/-- R54, R370: CSET writes its bit and no other; CWAIT issues when the bit, as the cycle found it, has the value, and else
holds the word. -/
def Sys2Proof.Claims.cbitWords : Prop :=
  ∀ (s : State) (c : Ctx) (h : Hd) (n : BitVec 4) (value : Bool), Runs s c h →
    let bit := if c.joined then c.cbitsT.getLsbD n.toNat else c.cbits.getLsbD n.toNat
    (EscapeFree s c → ∃ bits : BitVec 16, Completes (.cset h n value) s c h .none (fun k => { k with cbits := bits }) ∧
      ∀ i : Nat, i < 16 → bits.getLsbD i = if i = n.toNat then value else c.cbits.getLsbD i) ∧
    (bit = value → Completes (.cwait h n value) s c h .none id) ∧
    (bit ≠ value → Holds (.cwait h n value) s c)

/-- Semaphores and cluster bits: the order of takes and signals, and every word that acts on them (R63 to R65). -/
def Obligations.SemaphoreAndCbitWords : Prop := Claims.takesApplyAfterSignals ∧ Claims.semaphoreWords ∧ Claims.cbitWords

/-- R52, R53, R55, R384, R77, R344: FORK makes the context forked and loses the latches; a JOIN in joined mode only loses them;
in forked mode it sets the sequencer's arrival bit and stops it, and the last of the four to arrive joins the context again.
In a handler or an inverse routine both trap MODE, in a broadcast body LOOPBODY. That the latches are lost as the control word executes,
and that forked results land as the last of the four joins, is log 57. -/
def Obligations.ForkAndJoin : Prop :=
  ∀ (s : State) (c : Ctx) (h : Hd), Runs s c h →
    let q := s.focus.2
    let lost (k : Ctx) : Ctx := k.onAll (fun x => { x with latches := [] })
    (c.isHandler = true ∨ c.inInverse = true → Traps (.fork h) s c (mkTrap 0x03 0) ∧ Traps (.join h) s c (mkTrap 0x03 0)) ∧
    (c.isHandler = false → c.inInverse = false → ¬ NoBroadcast s c →
      Traps (.fork h) s c (mkTrap 0x07 0) ∧ Traps (.join h) s c (mkTrap 0x07 0)) ∧
    (c.isHandler = false → c.inInverse = false → NoBroadcast s c → EscapeFree s c →
      Completes (.fork h) s c h .none (fun b => { lost b with joined := false }) ∧
      (c.joined = true → Completes (.join h) s c h .none lost) ∧
      (c.joined = false → ∃ d : Ctx, exec (.join h) s = .next (s.issued (d.retire q 1 .stay 0xFF)) ∧ (d.seqr q).owed = h.sig ∧
        ((∃ p, p ≠ q ∧ (c.seqr p).run = .running) → (d.seqr q).run = .arrived ∧ d.joined = false ∧
          d.cbits = c.cbits ||| (1#16 <<< (12 + (Sq.num q).toNat)) ∧ ∀ p, p ≠ q → (d.seqr p).run = (c.seqr p).run) ∧
        ((∀ p, p ≠ q → (c.seqr p).run ≠ .running) → d.joined = true ∧ d.flight = [] ∧ d.cbits = c.cbits &&& 0x0FFF ∧
          (d.seqr q).run = .running ∧ ∀ p, p ≠ q → (d.seqr p).run =
            if (c.seqr p).run = .arrived then .running else (c.seqr p).run)))

/-- R44, R387, R272, R419: HALT stops its sequencer; on the control sequencer of a member it ends the open leg, and the member
retires when its work is done (MemberRetires), as a task does, whose open declaration closes and whose HALT issues at once (logs 71, 84). In
a handler it traps MODE, in an inverse routine OUTCTX. -/
def Sys2Proof.Claims.haltStopsSequencer : Prop :=
  ∀ (s : State) (c : Ctx) (h : Hd), Runs s c h →
    let q := s.focus.2
    let stop (k : Ctx) : Ctx := k.onSeqr q (fun x => { x with run := .halted })
    (c.isHandler = true → Traps (.halt h) s c (mkTrap 0x03 0)) ∧
    (c.isHandler = false → c.inInverse = true → Traps (.halt h) s c (mkTrap 0x21 0)) ∧
    (c.isHandler = false → c.inInverse = false → (q = .ctl → c.isTask = false) →
      let mk (k : Ctx) : Ctx := if q = .ctl then { (stop k).endLeg false none with halting := true } else stop k
      (c.joined = true ∨ (∃ p, p ≠ q ∧ (c.seqr p).run = .running) ∨ (∀ p, p ≠ q → (c.seqr p).run = .halted) →
        Completes (.halt h) s c h .none mk) ∧
      (c.joined = false → (∀ p, p ≠ q → (c.seqr p).run ≠ .running) → (∃ p, p ≠ q ∧ (c.seqr p).run = .arrived) →
        ∃ d : Ctx, exec (.halt h) s = .next (s.issued (d.retire q 1 .none h.sig)) ∧ d.joined = true ∧ d.flight = [] ∧
          d.halting = (mk c).halting ∧ (d.seqr q).run = .halted ∧ ∀ p, p ≠ q → (d.seqr p).run =
            if (c.seqr p).run = .arrived then .running else .halted)) ∧
    (c.isHandler = false → c.inInverse = false → q = .ctl → c.isTask = true →
      Completes (.halt h) s c h .none (fun k => { stop k with halting := true, decl := none }))

/-- R71, R72, R231, R383, R394, R35, R401: MARK places one marker per selected engine after the commands issued so far; DRAIN
waits until every marker has retired and every reduction of the core is acknowledged, but not for REDOs of legs that have not committed
(log 54); FENCE waits until every ended leg of the member has committed, no reduction is unapplied and its own stores to other packages
are acknowledged (with dom, until no batch of its die waits); LEGE ends the open leg and raises LEGNO, but not in a task or a handler. A
marker of a joined long word covers the words of the other sequencers in that long word (`live`; of a forked cycle, log 108). -/
def Sys2Proof.Claims.markDrainFenceLege : Prop :=
  ∀ (s : State) (c : Ctx) (h : Hd) (mask : BitVec 4) (scope : Scope), Runs s c h → s.focus.2 = .ctl →
    let unacked := ∃ r ∈ s.reds, r.cid ≠ 0 ∧ r.core = c.core
    let unapplied := (∃ r ∈ s.reds, r.cid ≠ 0 ∧ r.stage ≠ .done ∧
      (r.cid = c.cid ∨ c.kind = .regular ∧ r.lid = c.lid ∧ r.idx = c.idx)) ∨ ∃ r ∈ s.fars, r.cid = c.cid ∧ r.eng = 0 ∧ r.write = true
    (s.escapeOk c = true →
      (∃ ms : List Marker, Completes (.mark h mask) s c h .none (fun k => { k with marks := k.marks ++ ms }) ∧
        (ms.map (fun m => m.eng) = (List.range 4).filter (fun e => mask.getLsbD e)) ∧
        ∀ m ∈ ms, m.live = [.load, .store, .comp] ∧ (m.eng = 0 → m.upTo = c.inb.issued) ∧ (m.eng = 1 → m.upTo = c.outb.issued) ∧
          (m.eng = 2 → m.upTo = c.vno) ∧ (m.eng = 3 → m.upTo = c.mx.issued)) ∧
      ((∀ m ∈ c.marks, c.markDone m = true) → ¬ unacked →
        Completes (.drain h) s c h .none (fun k => { k with marks := [] })) ∧
      ((∃ m ∈ c.marks, c.markDone m = false) ∨ unacked → Holds (.drain h) s c)) ∧
    ((c.ended = [] → ¬ unapplied → (scope = .dom → ∀ b ∈ s.batches, b.src ≠ s.domainDie (dieOf c.core)) →
        Completes (.fence h scope) s c h .none id) ∧
      (c.ended ≠ [] ∨ unapplied ∨ (scope = .dom ∧ ∃ b ∈ s.batches, b.src = s.domainDie (dieOf c.core)) →
        Holds (.fence h scope) s c)) ∧
    (c.isTask = true → Completes (.lege h) s c h .none id) ∧
    (c.isTask = false → ∀ l, (c.begun .ctl h).leg = some l →
      Completes (.lege h) s c h .none (fun k => { k with leg := none, want := false, legs := k.legs + 1
                                                         ended := k.ended ++ [{ l with atomic := none }]
                                                         legno := if c.isHandler then k.legno else k.legno + 1 }))

/-- R27, R28, R35, R250, R271, R361: BARS ends the open leg without raising LEGNO and waits at the member's next barrier; it traps
PHASE in the communication phase without .comm, OUTCTX in a task, MODE in a handler, in this order. -/
def Sys2Proof.Claims.barsArrives : Prop :=
  ∀ (s : State) (c : Ctx) (h : Hd) (comm : Bool) (op : BarOp) (a d : BitVec 5), Runs s c h → s.focus.2 = .ctl →
    let w : Instr := .bars h comm op a d
    (c.phase = true → comm = false → Traps w s c (mkTrap 0x04 0)) ∧
    ((c.phase = true → comm = true) → c.isTask = true → Traps w s c (mkTrap 0x21 0)) ∧
    ((c.phase = true → comm = true) → c.isTask = false → c.isHandler = true → Traps w s c (mkTrap 0x03 0)) ∧
    (c.isTask = false → c.isHandler = false → (c.phase = true → comm = true) → Readable s c [a] → s.escapeOk c = true →
      ∀ l, (c.begun .ctl h).leg = some l →
      Completes w s c h .none (fun k => { k with leg := none, want := false, legs := k.legs + 1
                                                 ended := k.ended ++ [{ l with atomic := none }], bars := k.bars + 1
                                                 pend := some (.barrier c.ctl.pc c.bars comm op (c.ctl.reg a) d) }))

/-- MARK, DRAIN, FENCE, LEGE and BARS. -/
def Obligations.MarksFencesAndBars : Prop := Claims.markDrainFenceLege ∧ Claims.barsArrives

/-- R265, R266, R270, R372, R373: what CSRR returns for each status register, after one schedule cycle; CYCLE also latches its
high half; in a handler CAUSE, TVAL and EPC are the trapped context's. -/
def Sys2Proof.Claims.csrrReads : Prop :=
  ∀ (s : State) (c : Ctx) (h : Hd) (d : BitVec 5) (n : BitVec 2), Runs s c h →
    let q := s.focus.2
    let is (r : Csr) (v : Word) : Prop := Gives (.csrr h d r) s c h d v 1
    let open' := match (c.begun q h).leg with
      | some l => l.count
      | none => 0
    is .legno c.legno ∧ is .supstep c.sup ∧ is .detmode (BitVec.ofNat 32 c.dmode.toNat) ∧
    is (.lc n) ((c.seqr q).lc.get 0 n.toNat) ∧ is .cycleh (c.seqr q).cycHi ∧ is .lcnt (BitVec.ofNat 32 open') ∧
    Completes (.csrr h d .cycle) s c h .none (fun k =>
      (k.onSeqr q (fun x => { x with cycHi := s.cycle.extractLsb' 32 32 })).scalar q d (s.cycle.extractLsb' 0 32) 1) ∧
    (EscapeFree s c → c.leg = none → c.ended = [] → is .sticky (BitVec.ofNat 32 c.sticky.toNat)) ∧
    (∃ v : Word, is .status v ∧ v.extractLsb' 0 14 = c.hent ∧ v.extractLsb' 14 11 = 0 ∧ v.getLsbD 25 = c.hen ∧
      v.getLsbD 26 = c.isTask ∧ v.getLsbD 27 = c.isHandler ∧ (c.isHandler = false → v.extractLsb' 28 2 = 3) ∧
      (∀ k e m, c.kind = .handler k → s.ctx k = some e → e.loc = .bank m → m < 4 → (v.extractLsb' 28 2).toNat = m) ∧
      (∀ k, c.loc = .bank k → k < 4 → (v.extractLsb' 30 2).toNat = k)) ∧
    (c.isHandler = false → is .cause c.cause ∧ is .tval c.tval ∧ is .epc (c.seqr q).epc) ∧
    (∀ k e, c.kind = .handler k → s.ctx k = some e → is .cause e.cause ∧ is .tval e.tval ∧
      (e.cause.extractLsb' 29 2 = 0 → is .epc e.ctl.epc) ∧ (e.cause.extractLsb' 29 2 = 1 → is .epc e.load.epc) ∧
      (e.cause.extractLsb' 29 2 = 2 → is .epc e.store.epc) ∧ (e.cause.extractLsb' 29 2 = 3 → is .epc e.comp.epc))

/-- R115, R265, R270, R372: what CSRW writes: HEN and HENT of STATUS (nothing in a handler), the fields of CAUSE, TVAL, EPC of the
context or of the context that a handler serves, STICKY, LCNT, the loop counters; the read-only registers stay. -/
def Sys2Proof.Claims.csrwWrites : Prop :=
  ∀ (s : State) (c : Ctx) (h : Hd) (a : BitVec 5) (n : BitVec 2), Runs s c h → Readable s c [a] → EscapeFree s c →
    let q := s.focus.2
    let v := (c.seqr q).reg a
    let does (r : Csr) (f : Ctx → Ctx) : Prop := Completes (.csrw h a r) s c h .none f
    does .legno id ∧ does .detmode id ∧ does .supstep id ∧ does .cycle id ∧ does .cycleh id ∧
    does (.lc n) (fun k => k.onSeqr q (fun x => { x with lc := x.lc.put 0 n.toNat v })) ∧
    does .sticky (fun k => { k with sticky := v.extractLsb' 0 5 ||| k.late, leg := k.leg.map (fun l => { l with held := 0 })
                                    ended := k.ended.map (fun l => { l with held := 0 }) }) ∧
    does .lcnt (fun k => { k with leg := k.leg.map (fun l =>
      if q = .ctl then { l with preset := some (v.toNat % 2048) } else { l with count := v.toNat % 2048 }) }) ∧
    (c.isHandler = true → does .status id) ∧
    (c.isHandler = false → does .status (fun k => { k with hen := v.getLsbD 25, hent := v.extractLsb' 0 14 }) ∧
      does .cause (fun k => { k with cause := v &&& 0xE00000FF }) ∧ does .tval (fun k => { k with tval := v }) ∧
      does .epc (fun k => k.onSeqr q (fun x => { x with epc := v }))) ∧
    (∀ k e, c.kind = .handler k → s.ctx k = some e →
      CompletesIn (.csrw h a .cause) s (s.setCtx { e with cause := v &&& 0xE00000FF }) c h .none id ∧
      CompletesIn (.csrw h a .tval) s (s.setCtx { e with tval := v }) c h .none id ∧
      (e.cause.extractLsb' 29 2 = 0 →
        CompletesIn (.csrw h a .epc) s (s.setCtx { e with ctl := { e.ctl with epc := v } }) c h .none id))

/-- CSRR and CSRW for every register that they name (R115). -/
def Obligations.CsrWords : Prop := Claims.csrrReads ∧ Claims.csrwWrites

/-! ## Scalar memory words -/

/-- R391, R164: the top byte of a scalar address selects its space: 0x00 DRAM, 0xF0 the scratchpad within the context's plots,
0xF1 the canopy (ENGINE under NOCAN, ahead of the range check), anything else faults XLADDR; local addresses out of range trap LOCALRANGE with the
low 32 bits of the address. -/
def Sys2Proof.Claims.addressesSelectSpaces : Prop :=
  ∀ (c : Ctx) (free : Nat) (a : BitVec 64) (n : Nat) (k : Need),
    let top := a.toNat / 2 ^ 56
    let range := memTrap 0x0A a k.acc
    (top = 0 → c.select free a n k = .global) ∧
    (top = 0xF0 → a.toNat % 2 ^ 56 + n ≤ c.plots * 65536 → c.plots ≤ 256 → 0 < n →
      c.select free a n k = .here .sp (a.toNat % 2 ^ 56)) ∧
    (top = 0xF0 → 2 ^ 24 ≤ a.toNat % 2 ^ 56 ∨ c.plots * 65536 < a.toNat % 2 ^ 24 + n → c.select free a n k = .bad range) ∧
    (top = 0xF1 → c.nocan = true → c.select free a n k = .bad (mkTrap 0x02 0)) ∧
    (top = 0xF1 → c.nocan = false → a.toNat % 2 ^ 56 < 2 ^ 23 → c.select free a n k = .here .can (a.toNat % 2 ^ 56)) ∧
    (top = 0xF1 → c.nocan = false → 2 ^ 23 ≤ a.toNat % 2 ^ 56 → c.select free a n k = .bad range) ∧
    (top ≠ 0 → top ≠ 0xF0 → top ≠ 0xF1 → ∃ t, c.select free a n k = .bad t ∧ t.cause = 0x18 ∧ t.vaddr = a ∧
      t.tval = a.setWidth 32)

/-- R392, R449, R357, R360, R488, R426: an address that is no multiple of the access width traps ALIGN, with the address in TVAL
and VADDR and the kind of the access, before any walk. -/
def Sys2Proof.Claims.misalignedWordsTrap : Prop :=
  ∀ (s : State) (c : Ctx) (h : Hd) (m : MemF) (sx : Bool) (op : AmoOp) (ty : Fmt) (cond : WCond), Runs s c h →
    OnCore s c → s.focus.2 = .ctl → c.checkMode = false → (address c m).toNat % width m ≠ 0 →
    let trap (k : BitVec 3) (i : Instr) : Prop := Traps i s c (memTrap 0x0E (address c m) k)
    trap 0 (.ld h m sx) ∧ trap 0 (.ldp h m) ∧ trap 1 (.st h m) ∧ trap 1 (.stp h m) ∧ trap 0 (.waitm h m cond) ∧
    trap 2 (.amo h m op) ∧ trap 2 (.amoc h m) ∧
    (c.isTask = false → trap 2 (.red h m op) ∧ trap 2 (.redf h m false ty) ∧ trap 2 (.redo h m ty))

/-- Which memory a scalar address selects, and the ALIGN traps of scalar memory words (R164, R391, R392). -/
def Obligations.AddressesAndAlignment : Prop := Claims.addressesSelectSpaces ∧ Claims.misalignedWordsTrap

/-- R392, R393, R166: LD and LDP of local memory read the bytes as the schedule sees them, lowest address first, into s[reg]
(zero- or sign-extended) or the pair after four schedule cycles, with VAC where a byte is vacated. -/
def Sys2Proof.Claims.localLoads : Prop :=
  ∀ (s : State) (c : Ctx) (h : Hd) (m : MemF) (sx : Bool) (sp : Space) (a : Nat), Runs s c h → s.focus.2 = .ctl →
    c.checkMode = false → (address c m).toNat % width m = 0 → (m.acq = true → s.earlierDone c = true) →
    (c.begun .ctl h).select s.free (address c m) (width m) .read = .here sp a →
    let mem := if sp = .can then (c.begun .ctl h).view.can else (c.begun .ctl h).view.sp
    (∀ i < width m, mem.unit 2 (a + i) ≠ .lost) →
    let bs := (List.range (width m)).map (fun i => mem.byte (a + i))
    let flags : BitVec 5 := if ∃ i < width m, mem.unit 2 (a + i) = .vacated then 4 else 0
    (m.size ≠ .b64 → Completes (.ld h m sx) s c h .none (fun k => withLoad k s.free m sx bs 4 flags)) ∧
    (m.size = .b64 → Completes (.ldp h m) s c h .none (fun k => withLoad k s.free m false bs 4 flags))

/-- An address whose word this package is the home of, on whose granule no atomic is on its way to a far home slice. -/
def Sys2Proof.Claims.AtHome (s : State) (pa n : Nat) : Prop :=
  (∀ i < n, s.homeDie ((pa + i) / 8 * 8) < 3) ∧
    ∀ x ∈ s.allCtxs, ∀ i d a no, x.pend = some (.atomic i d a no true) → x.back = none → a.pa / 64 ≠ pa / 64

/-- R215, R217, R392, R393: LD and LDP of DRAM of this package in a leg read the leg's own buffer first and then memory, and enter the
granule in the leg's read signature; the value lands after one schedule cycle, or six with loc 1, and its flags then stand with the leg.
While an atomic is on its way to the granule the word waits (R39, R341). (A word of another package is asked for first: log 109.) -/
def Sys2Proof.Claims.globalLoads : Prop :=
  ∀ (s s1 : State) (c : Ctx) (h : Hd) (m : MemF) (sx : Bool) (pa : Nat) (l : Leg), Runs s c h → s.focus.2 = .ctl →
    c.checkMode = false → (address c m).toNat % width m = 0 → (m.acq = true → s.earlierDone c = true) →
    (address c m).toNat / 2 ^ 56 = 0 → c.isTask = false → (c.begun .ctl h).leg = some l →
    Reaches s (c.begun .ctl h) (address c m) (width m) .read .leg s1 pa →
    (∀ i < width m, l.buf.find (pa + i) = none → s1.dram.unit 64 (pa + i) ≠ .lost) → Claims.AtHome s1 pa (width m) →
    let bs := (List.range (width m)).map (fun i => (l.buf.find (pa + i)).getD (s1.dram.byte (pa + i)))
    let flags : BitVec 5 := if ∃ i < width m, l.buf.find (pa + i) = none ∧ s1.dram.unit 64 (pa + i) = .vacated then 4 else 0
    let r := { l with reads := (l.reads ++ [pa / 64]).eraseDups }
    let lat := if m.loc = 1 then 6 else 1
    let done (k : Ctx) : Ctx :=
      let k1 := withLoad { k with leg := some r } s1.free m sx bs lat flags
      { k1 with flight := k.flight ++ (k1.flight.drop k.flight.length).map (fun f => { f with leg := some l.no }) }
    (m.size ≠ .b64 → CompletesIn (.ld h m sx) s s1 c h .none done) ∧
    (m.size = .b64 → sx = false → CompletesIn (.ldp h m) s s1 c h .none done)

/-- A LOST trap of a load (R176, R178): its record names the ECC word `at'` of `len` bytes in space `sp`, with the write stamp; the word is
to be vacated as the trap is taken. -/
def Sys2Proof.Claims.LostAt (c : Ctx) (sp : Space) (code at' phys len stamp : Nat) (t : TrapRec) : Prop :=
  t.cause = 0x11 ∧ t.tval = BitVec.ofNat 32 at' ∧ t.vaddr = BitVec.ofNat 64 at' ∧ t.acc = 0 ∧ t.dc = 0 ∧ t.flags.getLsbD 3 = true ∧
    t.lost = [(sp, phys, len)] ∧ ∃ bs, t.loss = some bs ∧ bs.length = 64 ∧
    (let field (off n : Nat) : Nat := natOfBytes ((bs.drop off).take n)
     field 0 8 = at' ∧ field 8 4 = len ∧ field 12 4 = code * 2 ^ 30 + stamp ∧ field 0x10 8 = 0 ∧ field 0x18 4 = c.sup.toNat ∧
       field 0x1C 4 = c.legno.toNat ∧ field 0x20 4 = 0 ∧ field 0x24 4 = c.core % 512 ∧ field 0x28 24 = 0)

/-- R166, R176, R178, R392: under check mode a scalar load of local memory or DRAM traps VACTRAP precisely at its word, with the address
of the first vacated byte in TVAL; a load of lost bytes traps LOST precisely, with the loss record of the ECC word (8 bytes of local memory,
a granule of DRAM). -/
def Sys2Proof.Claims.loadFaults : Prop :=
  ∀ (s : State) (c : Ctx) (h : Hd) (m : MemF) (sx : Bool) (word : Instr), Runs s c h → s.focus.2 = .ctl →
    (m.size ≠ .b64 ∧ word = .ld h m sx) ∨ (m.size = .b64 ∧ word = .ldp h m) →
    Readable s c [m.base ++ 0#1, m.base ++ 1#1] → (address c m).toNat % width m = 0 → (m.acq = true → s.earlierDone c = true) →
    let b := c.begun .ctl h
    (∀ sp a, b.select s.free (address c m) (width m) .read = .here sp a →
      (c.checkMode = true → c.flight = [] ∧ c.mx.active = none ∧ c.mx.shadow = none) →
      let mem := if sp = .can then b.view.can else b.view.sp
      (∀ i < width m, c.checkMode = true → mem.unit 2 (a + i) = .vacated → (∀ j < i, mem.unit 2 (a + j) ≠ .vacated) →
        Traps word s c (memTrap 0x10 (BitVec.ofNat 64 (a + i)) 0)) ∧
      (∀ i < width m, (c.checkMode = true → ∀ j < width m, mem.unit 2 (a + j) ≠ .vacated) → mem.unit 2 (a + i) = .lost →
        mem.unit 2 (a / 8 * 8) = .lost → ∃ t, Traps word s c t ∧ Claims.LostAt c sp (if sp = .can then 2 else 1) (a / 8 * 8) (a / 8 * 8) 8 0xFFFF t)) ∧
    (∀ s1 pa l, (address c m).toNat / 2 ^ 56 = 0 → c.isTask = false → b.leg = some l →
      Reaches s b (address c m) (width m) .read .leg s1 pa → Claims.AtHome s1 pa (width m) → pa % 64 = (address c m).toNat % 64 →
      let u := s1.dram.unit 64 pa
      (∀ i < width m, c.checkMode = true → u = .vacated → l.buf.find (pa + i) = none → (∀ j < i, l.buf.find (pa + j) ≠ none) →
        exec word s = .next (if s.escapeOk c then s1.suspend c .ctl false none
          (memTrap 0x10 (BitVec.ofNat 64 ((address c m).toNat + i)) 0) else s.waitSafe c)) ∧
      (u = .lost → (∃ i < width m, l.buf.find (pa + i) = none) →
        ∃ t, exec word s = .next (if s.escapeOk c then s1.suspend c .ctl false none t else s.waitSafe c) ∧
          Claims.LostAt c .global 0 ((address c m).toNat / 64 * 64) (pa / 64 * 64) 64 (s1.stamps.get 0xFFFF (pa / 64)).toNat t))

/-- LD and LDP of local memory and of DRAM, and their VACTRAP and LOST (R166, R176, R178, R391 to R393). -/
def Obligations.LoadWords : Prop := Claims.localLoads ∧ Claims.globalLoads ∧ Claims.loadFaults

/-- R449, R450, R217: ST and STP of local memory write the operand's low bytes at the start of the next schedule cycle, once no
leg of the member is exposed. -/
def Sys2Proof.Claims.localStores : Prop :=
  ∀ (s : State) (c : Ctx) (h : Hd) (m : MemF) (sp : Space) (a : Nat), Runs s c h → s.focus.2 = .ctl → c.checkMode = false →
    (address c m).toNat % width m = 0 → c.isTask = false → m.ord = false → s.escapeOk c = true →
    (c.begun .ctl h).select s.free (address c m) (width m) .write = .here sp a →
    let key := if sp = .can then 0x1000000 + a else a
    let f : Flight := { sq := .ctl, dest := .elems (width m) [(0, key)], val := (operand c m).setWidth 1024
                        mask := BitVec.allOnes 1024, due := c.t + 1, sig := 0xFF, flags := 0, leg := none, vno := 0 }
    (m.size ≠ .b64 → Completes (.st h m) s c h .none (fun k => { k with flight := k.flight ++ [f] })) ∧
    (m.size = .b64 → Completes (.stp h m) s c h .none (fun k => { k with flight := k.flight ++ [f] })) ∧
    (∀ i < width m, (elemWrites (width m) f.val [(0, key)])[i]? = some (key + i, (operand c m).extractLsb' (8 * i) 8))

/-- R32, R33, R215, R449: ST and STP of DRAM in a leg enter their bytes in the open leg's buffer, its granules and its write log,
and touch no memory. -/
def Sys2Proof.Claims.globalStores : Prop :=
  ∀ (s s1 : State) (c : Ctx) (h : Hd) (m : MemF) (pa : Nat) (l : Leg), Runs s c h → s.focus.2 = .ctl →
    c.checkMode = false → (address c m).toNat % width m = 0 → (address c m).toNat / 2 ^ 56 = 0 → c.isTask = false →
    m.ord = false → (c.begun .ctl h).leg = some l → Reaches s (c.begun .ctl h) (address c m) (width m) .write .leg s1 pa →
    l.entries + (if pa / 64 ∈ l.grans then 0 else 1) ≤ 256 → pa / 64 = (pa + width m - 1) / 64 → l.grans.Nodup →
    ∃ l' : Leg,
      (m.size ≠ .b64 → CompletesIn (.st h m) s s1 c h .none (fun k => { k with leg := some l' })) ∧
      (m.size = .b64 → CompletesIn (.stp h m) s s1 c h .none (fun k => { k with leg := some l' })) ∧
      l'.log = l.log ++ [.store ((List.range (width m)).map (fun i => (pa + i, (operand c m).extractLsb' (8 * i) 8)))] ∧
      l'.grans = (if pa / 64 ∈ l.grans then l.grans else l.grans ++ [pa / 64]) ∧
      (∀ x, l'.buf.find x = if pa ≤ x ∧ x < pa + width m then some ((operand c m).extractLsb' (8 * (x - pa)) 8)
        else l.buf.find x) ∧
      l'.reads = l.reads ∧ l'.no = l.no ∧ l'.count = l.count ∧ l'.held = l.held

/-- R32, R33, R35, R215: where a store would make a 257th entry of the open leg, that leg ends, LEGNO rises (in a handler it does not), and
the store opens the next leg and is its first entry. -/
def Sys2Proof.Claims.fullLegStores : Prop :=
  ∀ (s s1 : State) (c : Ctx) (h : Hd) (m : MemF) (pa : Nat) (l : Leg), Runs s c h → s.focus.2 = .ctl →
    c.checkMode = false → (address c m).toNat % width m = 0 → (address c m).toNat / 2 ^ 56 = 0 → c.isTask = false →
    m.ord = false → (c.begun .ctl h).leg = some l → Reaches s (c.begun .ctl h) (address c m) (width m) .write .leg s1 pa →
    256 < l.entries + 1 → pa / 64 ∉ l.grans → pa / 64 = (pa + width m - 1) / 64 →
    ∃ n : Leg,
      let next (k : Ctx) : Ctx := { k with leg := some n, want := false, legs := k.legs + 1, ended := k.ended ++ [{ l with atomic := none }]
                                           legno := if c.isHandler then k.legno else k.legno + 1 }
      (m.size ≠ .b64 → CompletesIn (.st h m) s s1 c h .none next) ∧ (m.size = .b64 → CompletesIn (.stp h m) s s1 c h .none next) ∧
      n.log = [.store ((List.range (width m)).map (fun i => (pa + i, (operand c m).extractLsb' (8 * i) 8)))] ∧
      n.grans = [pa / 64] ∧ n.reads = [] ∧ n.no = c.legs + 1 ∧ n.count = 0 ∧ n.sup = c.sup ∧ n.phase = c.phase ∧
      n.legno = (if c.isHandler then c.legno else c.legno + 1) ∧ n.held = 0 ∧ n.atomic = none ∧ n.pinned = false ∧
      (∀ x, n.buf.find x = if pa ≤ x ∧ x < pa + width m then some ((operand c m).extractLsb' (8 * (x - pa)) 8) else none) ∧
      ∃ k, n.check = some k ∧ k.seqr = c.ctl ∧ k.flights = c.flight.filter (fun f => f.sq = .ctl) ∧ k.t = c.t ∧ k.bars = c.bars

/-- ST and STP of local memory and of DRAM in a leg, a full one too (R32, R33, R215, R449, R450). -/
def Obligations.StoreWords : Prop := Claims.localStores ∧ Claims.globalStores ∧ Claims.fullLegStores

/-- R229, R232, R488, R489: WAITM whose value satisfies its test when it looks completes, and its read enters the leg; one whose value
does not holds the word and leaves a waiter, which keeps what the leg's own buffer holds of the word. A waiter that a write has woken
completes the word, whatever memory and the translation hold since; one that has not is translated again, and where its word has moved
the test is made anew. A value that it met in a vacated unit sets VAC, also after such a move, and one in a lost unit traps
LOST. Every write of the word is tested, on the member's own bytes first, and the first that satisfies wakes it, even if memory has
changed since. -/
def Obligations.WaitmWaitsForItsValue : Prop :=
  (∀ (s s1 : State) (c : Ctx) (h : Hd) (m : MemF) (cond : WCond) (pa : Nat) (l : Leg), Runs s c h → s.focus.2 = .ctl →
    c.checkMode = false → (address c m).toNat % width m = 0 → c.isTask = false → (c.begun .ctl h).leg = some l →
    let word : Instr := .waitm h m cond
    let w := (operand c m).toNat
    let past (pa : Nat) (met : Bool) (b : Ctx) : Ctx :=
      let d := { b with waitm := none, leg := some { l with reads := (l.reads ++ [pa / 64]).eraseDups } }
      if met then d.flagAt .ctl (some l.no) stVAC else d
    let plain (x : Waiter) : Prop := x.vac = true ∨ x.lost = true → l.buf = [] ∧ s.dram.gone = [] ∧ x.pa % 64 + x.size.bits / 8 ≤ 64
    (∀ met : Bool, (c.waitm = none → met = false) →
      (∀ x, c.waitm = some x → x.pa ≠ pa ∧ x.woke = none ∧ x.lost = false ∧ plain x ∧ met = x.vac) →
      Reaches s (c.begun .ctl h) (address c m) (width m) .read .leg s1 pa → Claims.AtHome s1 pa (width m) →
      (∀ i < width m, l.buf.find (pa + i) = none → s1.dram.unit 64 (pa + i) = .present) →
      let v := natOfBytes ((List.range (width m)).map (fun i => (l.buf.find (pa + i)).getD (s1.dram.byte (pa + i))))
      let ok : Prop := match cond with
        | .eq => v = w
        | .ne => v ≠ w
        | .gen => w ≤ v
        | .ltn => v < w
      let waits : Waiter := { pa := pa, size := m.size, cond := cond, val := operand c m
                              own := l.buf.filter (fun x => decide (pa ≤ x.1) && decide (x.1 < pa + width m))
                              woke := none, by' := none, vac := met, lost := false }
      (ok → CompletesIn word s s1 c h .none (past pa met)) ∧
      (¬ ok → exec word s = .next (s1.keep { c with waitm := some waits }).stalled)) ∧
    (∀ x, c.waitm = some x → plain x →
      (x.lost = false → x.woke ≠ none → Completes word s c h .none (past x.pa x.vac)) ∧
      (x.lost = false → x.woke = none → s.translate (c.begun .ctl h) (address c m) .read = .ok x.pa s1 →
        exec word s = .next (s1.keep c).stalled) ∧
      (x.lost = true → ∃ t, t.cause = 0x11 ∧ exec word s = .next (if s.escapeOk c then s.suspend c .ctl false none t
        else s.waitSafe c)))) ∧
  (∀ (mem : Mem) (who : Option Writer) (as : List Nat) (w : Waiter), w.woke = none → w.lost = false →
    let n := w.size.bits / 8
    let v := BitVec.ofNat 64 (natOfBytes ((List.range n).map (fun i => (SMap.find w.own (w.pa + i)).getD (mem.byte (w.pa + i)))))
    let hit := ∃ a ∈ as, w.pa ≤ a ∧ a < w.pa + n
    let meets (u : UState) : Prop := ∃ i < n, SMap.find w.own (w.pa + i) = none ∧ mem.unit 64 (w.pa + i) = u
    (hit → meets .lost → w.test mem who as = { w with lost := true }) ∧
    (hit → ¬ meets .lost → ∃ b, (b = true ↔ w.vac = true ∨ meets .vacated) ∧
      (condTest w.cond v w.val = true → w.test mem who as = { w with woke := some v, by' := who, vac := b }) ∧
      (condTest w.cond v w.val = false → w.test mem who as = { w with vac := b })) ∧
    (¬ hit → w.test mem who as = w))

/-- R32, R36, R357, R358, R360: AMO and AMOC read their operands, check the address for reading and writing, and end the open leg;
the control sequencer then waits for the value (`pend`), and LEGNO rises as the atomic completes (log 45). In a task, which opens no leg, the
object declared open must hold the word. With rel, the copies the channels hold are remembered. -/
def Sys2Proof.Claims.atomicsEndTheirLeg : Prop :=
  ∀ (s s1 : State) (c : Ctx) (h : Hd) (m : MemF) (op : AmoOp) (pa : Nat) (l : Leg), Runs s c h → s.focus.2 = .ctl →
    c.checkMode = false → (address c m).toNat % width m = 0 →
    Reaches s (c.begun .ctl h) (address c m) (width m) .both (if c.isTask then .taskAtomic else .atomic) s1 pa →
    let a (op : AmoOp) (cmp : Option (BitVec 64)) (v : BitVec 64) : Atomic :=
      { op := op, cmp := cmp, size := m.size, val := v, va := address c m, pa := pa, rel := m.rel
        scope := if m.rel then m.scope else .core }
    let ends (x : Atomic) (k : Ctx) : Ctx :=
      { k with leg := none, want := false, legs := k.legs + 1, ended := k.ended ++ [{ l with atomic := some x }]
               pend := some (.atomic c.ctl.pc m.reg x l.no false)
               hold := if m.rel then some (c.inb.issued, c.outb.issued) else none }
    let new : BitVec 64 := if m.size = .b64 then c.ctl.reg (m.reg + 2 + 1) ++ c.ctl.reg (m.reg + 2)
      else (c.ctl.reg (m.reg + 1)).zeroExtend 64
    let waits (x : Atomic) (k : Ctx) : Ctx :=
      { k with pend := some (.atomic c.ctl.pc m.reg x c.legs false), hold := if m.rel then some (c.inb.issued, c.outb.issued) else none }
    (c.isTask = false → (c.begun .ctl h).leg = some l →
      CompletesIn (.amo h m op) s s1 c h .none (ends (a op none (operand c m))) ∧
      CompletesIn (.amoc h m) s s1 c h .none (ends (a .swp (some (operand c m)) new))) ∧
    (c.isTask = true → c.leg = none → c.outside (address c m) (width m) = none →
      CompletesIn (.amo h m op) s s1 c h .none (waits (a op none (operand c m))) ∧
      CompletesIn (.amoc h m) s s1 c h .none (waits (a .swp (some (operand c m)) new)))

/-- R168, R357, R360, R116: at the home slice an atomic reads the old value, and writes f(op, old, operand) in the low bits of its
size (a compare that fails writes nothing, and leaves the memory as it was); the old value is the answer. -/
def Sys2Proof.Claims.atomicsAtTheHomeSlice : Prop :=
  ∀ (s : State) (c : Ctx) (a : Atomic),
    let n := a.size.bits / 8
    let old := natOfBytes ((List.range n).map (fun i => s.dram.byte (a.pa + i)))
    let v := a.val.toNat % 2 ^ (8 * n)
    let signed (x : Nat) : Int := if x < 2 ^ (8 * n - 1) then x else (x : Int) - 2 ^ (8 * n)
    let new : Nat := match a.op with
      | .add => (old + v) % 2 ^ (8 * n)
      | .and => old &&& v
      | .or => old ||| v
      | .xor => old ^^^ v
      | .min => if signed old < signed v then old else v
      | .max => if signed old < signed v then v else old
      | .minn => min old v
      | .maxn => max old v
      | .swp => v
    let r := s.doAtomic c a
    r.2 = BitVec.ofNat 64 old ∧
    ((a.cmp = none ∨ ∃ e, a.cmp = some e ∧ e.toNat = old) →
      (∀ i < n, s.dram.unit 64 (a.pa + i) ≠ .lost ∧ s.dram.goneAt (a.pa + i) = false ∧ s.outside (a.pa + i) = false) →
      (∀ i < n, r.1.dram.byte (a.pa + i) = BitVec.ofNat 8 (new / 256 ^ i)) ∧
      (∀ x, x < a.pa ∨ a.pa + n ≤ x → r.1.dram.byte x = s.dram.byte x)) ∧
    (∀ e, a.cmp = some e → e.toNat ≠ old → r.1.dram = s.dram ∧ r.1.stamps = s.stamps)

/-- AMO and AMOC as they issue, and at the home slice (R357 to R361). -/
def Obligations.AtomicWords : Prop := Claims.atomicsEndTheirLeg ∧ Claims.atomicsAtTheHomeSlice

/-- R72, R217, R304, R358, R426 to R430: RED and REDF (value form) send one reduction, to a home slice of the own die or as a message to
another, and REDO enters one in the open leg, once no leg of the member is exposed; none of them waits for the home slice. With rel they
wait until the member's earlier reductions are applied, the REDOs of its ended legs among them (log 54), and the copies that the channels
held as the word came up have retired. The shape form of REDF sends the add with its record, the element's address, and the address of
its place in the promoted region where the add may go there (else 0). In a task all trap OUTCTX. -/
def Obligations.ReductionsAreSent : Prop :=
  ∀ (s s1 : State) (c : Ctx) (h : Hd) (m : MemF) (op : AmoOp) (ty : Fmt) (pa : Nat) (l : Leg), Runs s c h →
    OnCore s c → s.focus.2 = .ctl → c.checkMode = false →
    let trap (cause : Nat) (tval : Word) : TrapRec := { mkTrap cause tval with acc := 2 }
    let b := c.begun .ctl h
    let held := c.hold.getD (c.inb.issued, c.outb.issued)
    let copied := held.1 ≤ c.inb.retired ∧ held.2 ≤ c.outb.retired
    let earlier := (∃ r ∈ s.reds, r.cid ≠ 0 ∧ r.stage ≠ .done ∧
      (r.cid = c.cid ∨ c.kind = .regular ∧ r.lid = c.lid ∧ r.idx = c.idx)) ∨ ∃ e ∈ c.ended, ∃ r, LegOp.redo r ∈ e.log
    let freed (k : Ctx) : Ctx := if m.rel then { k with hold := none } else k
    let go := m.rel = true → ¬ earlier ∧ copied
    let red (kind : Nat) (op : AmoOp) (ty : Fmt) : Red :=
      { kind := kind, op := op, size := m.size, ty := ty, val := operand c m, va := address c m, pa := pa, v1 := 0, e1 := 0
        v2 := 0, e2 := 0, cid := c.cid, lid := c.lid, idx := c.idx, core := c.core, sup := c.sup, legno := c.legno
        stamp := c.stamp, scope := if m.rel then m.scope else .core, tag := 0, stage := .here, reply := none, root := c.root }
    let sends (i : Instr) (t : State) (r : Red) : Prop :=
      let far : Red := { r with tag := t.freeTag c.core, stage := .sent }
      (t.homeDie pa = dieOf c.core → CompletesIn i s { t with reds := t.reds ++ [r] } c h .none freed) ∧
      (t.homeDie pa ≠ dieOf c.core → CompletesIn i s
        (({ t with reds := t.reds ++ [far] } : State).sendTo (dieOf c.core) pa (redMsg far)) c h .none freed)
    (c.isTask = true → Traps (.red h m op) s c (trap 0x21 0) ∧ Traps (.redo h m ty) s c (trap 0x21 0) ∧
      Traps (.redf h m false ty) s c (trap 0x21 0) ∧ Traps (.redf h m true ty) s c (trap 0x21 0)) ∧
    (c.isTask = false → (address c m).toNat % width m = 0 → b.leg = some l →
      Reaches s b (address c m) (width m) .both .atomic s1 pa → s.escapeOk b = true →
      (∀ i, i = .red h m op ∨ i = .redf h m false ty ∨ i = .redo h m ty → m.rel = true →
        (earlier → Holds i s c) ∧ (¬ earlier → ¬ copied → exec i s = .next (s.keep { c with hold := some held }).stalled)) ∧
      (go → sends (.red h m op) s1 (red 0 op .n32) ∧ sends (.redf h m false ty) s1 (red 1 .add ty) ∧
        (l.entries + 1 ≤ 256 → CompletesIn (.redo h m ty) s s1 c h .none (fun k =>
          freed { k with leg := some { l with log := l.log ++ [.redo (red 2 .add ty)] } })))) ∧
    (c.isTask = false → (address c m).toNat % 64 = 0 → Reaches s b (address c m) 64 .both .atomic s1 pa →
      (∀ i < 64, s1.dram.unit 64 (pa + i) = .present ∧ s1.homeDie ((pa + i) / 8 * 8) < 3) →
      let rec' := recOfBytes ((List.range 64).map (fun i => s1.dram.byte (pa + i)))
      let sh := Shape.ofRec rec'
      let x := (c.ctl.reg m.reg).toNat
      let e := (sh.targets x).1
      let add (e1 e2 : Nat) (v2 : BitVec 64) : Red :=
        { red 3 .add .fp32 with val := (c.ctl.reg (m.reg + 1)).zeroExtend 64, v1 := BitVec.ofNat 64 e, e1 := e1, v2 := v2, e2 := e2 }
      let near (s2 : State) (p1 : Nat) : Prop := Reaches s1 b (BitVec.ofNat 64 e) (if sh.accf = 1 then 2 else 4) .both .atomic s2 p1
      (¬ (sh.ok rec' = true ∧ sh.accf ≠ 0) → exec (.redf h m true ty) s =
        .next (if s.escapeOk c then s1.suspend c .ctl false none (shapeTrap (address c m)) else s.waitSafe c)) ∧
      (sh.ok rec' = true → sh.accf ≠ 0 → sh.d0 * sh.d1 * sh.d2 * sh.d3 ≤ x → exec (.redf h m true ty) s =
        .next (if s.escapeOk c then s1.suspend c .ctl false none (trap 0x0C (c.ctl.reg m.reg)) else s.waitSafe c)) ∧
      (sh.ok rec' = true → sh.accf ≠ 0 → x < sh.d0 * sh.d1 * sh.d2 * sh.d3 → s.escapeOk b = true → go → ∀ s2 p1, near s2 p1 →
        ((sh.targets x).2 = none → sends (.redf h m true ty) s2 (add p1 0 0)) ∧
        (∀ f s3 p2, (sh.targets x).2 = some f → Reaches s2 b (BitVec.ofNat 64 f) 4 .both .atomic s3 p2 →
          sends (.redf h m true ty) s3 (add p1 p2 (BitVec.ofNat 64 f)))))

/-! ## System words -/

/-- R102, R264, R453: TRAP issues, retires, and is then taken as cause TRAP (0x30) with its code in TVAL; a word that is no
instruction traps ILLEGAL (1) with its 32 bits in TVAL, before anything of it takes effect. -/
def Sys2Proof.Claims.trapAndIllegal : Prop :=
  ∀ (s : State) (c : Ctx) (h : Hd) (code : BitVec 12) (tval : Word),
    (Runs s c h → EscapeFree s c → exec (.trap h code) s = .next (s.suspend
      ((c.begun s.focus.2 h).retire s.focus.2 1 .none h.sig) s.focus.2 false none (mkTrap 0x30 (code.zeroExtend 32)))) ∧
    (Runs s c h → s.focus.2 = .ctl → s.escapeOk c = false →
      exec (.trap h code) s = .next (s.keep { c with want := true }).stalled) ∧
    (s.activeCtx s.focus.1 = some c → Traps (.illegalEncoding tval) s c (mkTrap 0x01 tval)) ∧
    (s.activeCtx s.focus.1 = some c → s.escapeOk c = true → ∃ t d, exec (.illegalEncoding tval) s = .next t ∧
      t.ctx c.cid = some d ∧ d.stat = .trapped ∧ d.cause.extractLsb' 0 8 = 1 ∧ d.tval = tval)

/-- R264, R316, R317, R377: DBRK makes its header wait and stops: with schedule-cycle stops on the core stops, says so in
its debug status and to the harts; otherwise BREAK (0x2C) suspends the context with EPC at the DBRK. After the resume the DBRK acts as NOP
once, without waiting again. -/
def Sys2Proof.Claims.dbrkBreaksOnce : Prop :=
  ∀ (s : State) (c : Ctx) (h : Hd),
    let q := s.focus.2
    let on := ((s.core c.core).dbg.get 0 0x1000).getLsbD 0 = true
    let waited : Ctx := if h.wait = 0xFF then c
      else { c with sems := c.sems.put 0 h.wait.toNat (BitVec.ofNat 20 ((c.sem h.wait).toNat - 1)) }
    let b : Ctx := waited.onSeqr q (fun x => { x with once := { x.once with dbrk := true } })
    (Runs s c h → (c.seqr q).once.dbrk = false → on → ∃ t, exec (.dbrk h) s = .next t ∧ t.last = .gone ∧
      t.ctx c.cid = some { b with stat := .stopped } ∧ ((t.core c.core).dbg.get 0 0x1010).getLsbD 0 = true ∧
      ((t.core c.core).dbg.get 0 0x1010).extractLsb' 1 2 = 0 ∧ t.events.length = s.events.length + 1 ∧ t.dram = s.dram) ∧
    (Runs s c h → (c.seqr q).once.dbrk = false → ¬ on → s.escapeOk c = true →
      exec (.dbrk h) s = .next { s.suspend b q false none (mkTrap 0x2C 0) with last := .gone }) ∧
    (Runs s c { h with wait := 0xFF } → (c.seqr q).once.dbrk = true → exec (.dbrk h) s =
      .next (s.issued ((c.begun q { h with wait := 0xFF }).retire q 1 .none h.sig)))

/-- HALT stops its sequencer, DBRK its context (R317, R376, R377, R384). -/
def Obligations.HaltAndDbrk : Prop := Claims.haltStopsSequencer ∧ Claims.dbrkBreaksOnce

/-- R272, R382, R333: ERET commits the handler's own leg, ends the handler, and makes the trapped context the active one (where its
image is in the active plane; else a switch brings it back, R83): it runs again, every sequencer at its EPC, but one whose command or pending
step trapped where it stood (log 104), its latches lost, with the handler's local memory and semaphores (log 58). Outside a handler it traps MODE, in an inverse routine OUTCTX. -/
def Sys2Proof.Claims.eretResumesTrapped : Prop :=
  ∀ (s : State) (c : Ctx) (h : Hd), Runs s c h → s.focus.2 = .ctl →
    (c.inInverse = true → Traps (.eret h) s c (mkTrap 0x21 0)) ∧
    (c.inInverse = false → c.isHandler = false → Traps (.eret h) s c (mkTrap 0x03 0)) ∧
    (∀ k l c1 d, c.inInverse = false → c.kind = .handler k → (c.begun .ctl h).leg = some l → c.ended = [] →
      s.mayCommit (c.begun .ctl h) l = true → k ≠ c.cid → d.cid = k →
      (s.commitLeg { c.begun .ctl h with leg := none, ended := [l] } l).ctx c.cid = some c1 → c1.cid = c.cid →
      (s.commitLeg { c.begun .ctl h with leg := none, ended := [l] } l).ctx k = some d →
      ∃ t e, exec (.eret h) s = .next t ∧ t.last = .gone ∧ t.ctx c.cid = none ∧
        (t.core c1.core).active = (if (t.core c1.core).plane.map (fun p => p.image) = some d.image then some k else none) ∧
        t.ctx k = some e ∧ e.stat = (if d.inv.isSome then .inverse else .running) ∧ e.trap = none ∧ e.sp = c1.sp ∧
        e.can = c1.can ∧ e.sems = c1.sems ∧ e.v = d.v ∧ e.flight = d.flight ∧ (∀ q, (e.seqr q).latches = []) ∧
        (∀ q, (e.seqr q).regs = (d.seqr q).regs) ∧
        (∀ x q, d.trap = some x → x.place = false → x.held = false ∨ q ≠ x.sq → (e.seqr q).pc = (d.seqr q).epc.toNat) ∧
        (∀ x, d.trap = some x → x.place = false → x.held = true → (e.seqr x.sq).pc = (d.seqr x.sq).pc) ∧
        (∀ x q, d.trap = some x → x.place = true → (e.seqr q).pc = (d.seqr q).pc))

/-- TRAP, illegal encodings and ERET (R102, R200, R453). -/
def Obligations.TrapWordsAndEret : Prop := Claims.trapAndIllegal ∧ Claims.eretResumesTrapped

/-- R198, R203, R204, R293, R299, R388, R452: TLBI, once the member's ended legs have committed, drops exactly the entries its kind
names from every TLB of cores, copy channels and harts, and asks back those that adapters hold; it then waits until nothing that may have
used them is on its way (but for what waits for the member itself, log 115) and the adapters have given them up. HINT of a page that does not
translate for reading (log 67) adds to the core's DISCARDXL; else .mig counts an access of the page, .xl loads its translation, and .rd
and .drop change nothing. -/
def Obligations.TlbiAndHint : Prop :=
  ∀ (s : State) (c : Ctx) (h : Hd) (pair : BitVec 4) (kind : TlbKind) (hint : HintKind), Runs s c h → s.focus.2 = .ctl →
    c.checkMode = false →
    let a := c.ctl.pair pair
    let k := s.core c.core
    let gone (t : TlbEnt) : Prop := match kind with
      | .page => a.toNat < 2 ^ 49 ∧ a.toNat / 2 ^ t.bits * 2 ^ t.bits = t.vbase ∧ (t.glob = true ∨ t.asid = rootAsid c.root)
      | .asid => t.glob = false ∧ t.asid = a.extractLsb' 0 16
      | .all => True
    let held (x : Nat × TlbEnt) : Prop := ∃ y ∈ s.atc, y.1 = x.1 ∧ x.2 ∈ y.2 ∧ gone x.2
    (s.escapeOk c = true → s.earlierDone c = true → ∀ drop : TlbEnt → Bool, (∀ t, drop t = true ↔ gone t) →
      ∃ s', ((∀ x, ¬ held x) → s.quietTlb (some (c.begun .ctl h)) drop = true → CompletesIn (.tlbi h pair kind) s s' c h .none id) ∧
        ((∃ x, held x) ∨ s.quietTlb (some (c.begun .ctl h)) drop = false →
          exec (.tlbi h pair kind) s = .next (s'.keep c).stalled) ∧
        s' = { s with cores := s'.cores, harts := s'.harts, invs := s'.invs } ∧
        (∀ p t, t ∈ (s'.core p).tlb ↔ t ∈ (s.core p).tlb ∧ ¬ gone t) ∧
        (∀ p n t, t ∈ (s'.core p).streams.get [] n ↔ t ∈ (s.core p).streams.get [] n ∧ ¬ gone t) ∧
        (∀ n t, t ∈ (s'.hart n).tlb ↔ t ∈ (s.hart n).tlb ∧ ¬ gone t) ∧
        (∀ x, x ∈ s'.invs ↔ x ∈ s.invs ∨ held x)) ∧
    (s.escapeOk c = true → s.earlierDone c = false → Holds (.tlbi h pair kind) s c) ∧
    (s.reds = [] → s.fars = [] → s.bus = [] → (∀ p ∈ s.cores, p.2.fill = none) → (∀ d ∈ s.allCtxs, d.pend = none) →
      ∀ own drop, s.quietTlb own drop = true) ∧
    (∀ own drop, (∃ p ∈ s.cores, p.2.fill ≠ none) ∨ (∃ f ∈ s.fars, f.done = false) → s.quietTlb own drop = false) ∧
    (∀ pa l, peek s.dram c.root a .read = .ok pa → walk s.dram c.root a.toNat = .ok l →
      (hint = .rd ∨ hint = .drop → Completes (.hint h pair hint) s c h .none id) ∧
      (hint = .mig → CompletesIn (.hint h pair hint) s { s with
        counts := s.counts.put 0 (ptePa l.pte) (s.counts.get 0 (ptePa l.pte) + 1) } c h .none id) ∧
      (hint = .xl → ∃ t : TlbEnt, t.asid = rootAsid c.root ∧ t.bits = l.bits ∧ t.vbase = a.toNat / 2 ^ l.bits * 2 ^ l.bits ∧
        t.pbase = ptePa l.pte ∧
        CompletesIn (.hint h pair hint) s (s.setCore c.core { k with tlb := (t :: k.tlb).take 256 }) c h .none id)) ∧
    (∀ f, peek s.dram c.root a .read = .error f → CompletesIn (.hint h pair hint) s (s.bump c.core 0x200) c h .none id)

/-- R320, R321, R490: WCHA lists a range that is not listed (a full list sets overflow instead, and every filter bit is set for
it or for a range of 2^12 lines or more); WCHD removes its range; overflow clears as the list empties. Nothing but the core's list changes. -/
def Obligations.WatchListWords : Prop :=
  ∀ (s : State) (c : Ctx) (h : Hd) (pair : BitVec 4) (len : BitVec 5), Runs s c h → s.focus.2 = .ctl →
    c.checkMode = false → s.escapeOk c = true →
    let w : Watch := { key := (c.ctl.pair pair).toNat % 2 ^ 49 / 64 / 2 ^ len.toNat, len := len.toNat }
    let k := s.core c.core
    (∃ k' : Core, CompletesIn (.wcha h pair len) s (s.setCore c.core k') c h .none id ∧
      (w ∈ k.watch → k' = k) ∧
      (w ∉ k.watch → 16 ≤ k.watch.length → k' = { k with allOnes := true, overflow := true }) ∧
      (w ∉ k.watch → k.watch.length < 16 → k'.watch = k.watch ++ [w] ∧ k'.overflow = k.overflow ∧
        (12 ≤ w.len → k'.allOnes = true) ∧
        (w.len < 12 → k'.allOnes = k.allOnes ∧ ∀ i, i < 2 ^ w.len → k'.hits (w.key * 2 ^ w.len + i) = true) ∧
        ∀ i, k.hits i = true → k'.hits i = true)) ∧
    (∃ k' : Core, CompletesIn (.wchd h pair len) s (s.setCore c.core k') c h .none id ∧
      (∀ x, x ∈ k'.watch ↔ x ∈ k.watch ∧ x ≠ w) ∧ (k'.overflow = true ↔ k.overflow = true ∧ k'.watch ≠ []) ∧
      (k'.allOnes = true ↔ k'.overflow = true ∨ ∃ x ∈ k'.watch, 12 ≤ x.len) ∧
      (∀ x ∈ k'.watch, x.len < 12 → ∀ i, i < 2 ^ x.len → k'.hits (x.key * 2 ^ x.len + i) = true) ∧
      k'.tlb = k.tlb ∧ k'.active = k.active)

/-- R80, R81, R82, R422, R424: PLLD translates the image's pages, invalidates the shadow plane and starts its fill; PLSW flips
to the filled shadow plane of the context's pending image, which brings its descriptors; both trap OUTCTX in a task, PLLD
MODE in a handler and XLBAD for an image that is not 4 KiB aligned, PLSW MODE in forked mode and PLANE without a pending image. The order of PLSW's checks is log 44; that the descriptors change as its word
executes is log 116. -/
def Obligations.PlanesLoadAndSwitch : Prop :=
  ∀ (s : State) (c : Ctx) (h : Hd) (pair : BitVec 4), Runs s c h → s.focus.2 = .ctl → c.checkMode = false →
    let a := c.ctl.pair pair
    let k := s.core c.core
    (c.isTask = true → Traps (.plld h pair) s c (mkTrap 0x21 0)) ∧
    (c.isTask = false → c.isHandler = true → Traps (.plld h pair) s c (mkTrap 0x03 0)) ∧
    (c.joined = false → Traps (.plsw h) s c (mkTrap 0x03 0)) ∧
    (c.isTask = true → c.joined = true → Traps (.plsw h) s c (mkTrap 0x21 0)) ∧
    (c.isTask = false → c.joined = true → c.pimage = none → Traps (.plsw h) s c (mkTrap 0x08 0)) ∧
    (c.isTask = false → c.isHandler = false → s.escapeOk c = true → c.ended = [] → k.fill = none →
      (a.toNat % 4096 ≠ 0 → Traps (.plld h pair) s c (memTrap 0x1B a 3)) ∧
      (a.toNat % 4096 = 0 → ∀ s1 ps, s.pages (c.begun .ctl h) a .exec 0 [] 113 = .ok s1 ps →
        CompletesIn (.plld h pair) s (s1.setCore c.core { s1.core c.core with
          shadow := none, fill := some { image := a, pages := ps, flip := false, cid := some c.cid } }) c h .none
          (fun b => { b with pimage := some a }))) ∧
    (∀ img p, c.isTask = false → c.joined = true → s.escapeOk c = true → c.pimage = some img → k.fill = none →
      k.shadow = some p → p.image = img → c.idleEngines = true → c.openBcasts = [] →
      CompletesIn (.plsw h) s (s.setCore c.core { k with plane := some p, shadow := none }) c h .none
        (fun b => { b with image := img, pimage := none, desc := p.descs }))

/-- A condition list: the code of the first one that holds, 0 where none does. -/
def Sys2Proof.Claims.firstOf : List (Prop × Nat) → BitVec 8 → Prop
  | [], c => c = 0
  | (p, n) :: r, c => (p → c = BitVec.ofNat 8 n) ∧ (¬ p → Claims.firstOf r c)

/-- The checks of R18 on the 128 bytes of a launch record, in the order of their codes. -/
def Sys2Proof.Claims.recordChecks (mem : Mem) (root : BitVec 64) (bs : List Byte) : List (Prop × Nat) :=
  let w (k : Nat) : BitVec 64 := BitVec.ofNat 64 (natOfBytes ((bs.drop (8 * k)).take 8))
  let f (k lo n : Nat) : Nat := (w k).toNat / 2 ^ lo % 2 ^ n
  let s := f 2 56 8
  let d := f 2 40 8
  let c := f 2 32 8
  let k := f 2 24 8
  let outrider := f 2 21 1 = 1
  let deps (p : Nat → BitVec 64 → Prop) : Prop := ∃ i, i < 4 ∧ p (f (6 + i) 62 2) (w (6 + i))
  let maps (va : BitVec 64) (need : Need) (pages : Nat) : Prop :=
    ∀ i < pages, ∃ pa, peek mem root (va + BitVec.ofNat 64 (4096 * i)) need = .ok pa
  [(f 0 0 12 ≠ 0 ∨ f 0 49 15 ≠ 0 ∨ f 2 48 8 ≠ 0 ∨ f 2 0 19 ≠ 0 ∨ f 3 38 26 ≠ 0 ∨ f 3 4 28 ≠ 0 ∨ f 4 49 15 ≠ 0 ∨ f 10 49 15 ≠ 0 ∨
      (∃ i, 11 ≤ i ∧ i < 16 ∧ w i ≠ 0) ∨ deps (fun kind x => if kind = 1 then x.toNat / 2 ^ 48 % 2 ^ 14 ≠ 0
        else if kind = 2 then x.toNat / 2 ^ 49 % 2 ^ 13 ≠ 0 else x.toNat % 2 ^ 62 ≠ 0), 1),
    (s < 1 ∨ d < 1 ∨ 3 < d ∨ c < 1 ∨ 8 < c ∨ k < 1 ∨ 16 < k ∨ f 3 32 6 < 1 ∨ 48 < f 3 32 6 ∨ f 2 19 2 = 3 ∨ 384 < s * d * c * k, 2),
    (16384 ≤ f 1 48 16 ∨ 8192 ≤ f 1 32 16 ∨ 8192 ≤ f 1 16 16 ∨ 16384 ≤ f 1 0 16, 3),
    (f 4 0 6 ≠ 0 ∨ f 10 0 12 ≠ 0, 4),
    (¬ (maps (w 0) .exec 113 ∧ maps (w 4) .read 1 ∧ (outrider → w 10 ≠ 0 → maps (w 10) .both (2 * d * c))), 5),
    ((outrider ∧ w 10 = 0) ∨ (¬ outrider ∧ w 10 ≠ 0), 6),
    (deps (fun kind _ => kind = 3), 7),
    (deps (fun kind x => kind = 2 ∧ (x.toNat % 8 ≠ 0 ∨ ¬ ∃ pa, peek mem root (BitVec.ofNat 64 (x.toNat % 2 ^ 49)) .read = .ok pa)), 8),
    (deps (fun kind x => kind = 1 ∧ let from' := x.toNat / 2 ^ 32 % 2 ^ 16
      0x1000 ≤ from' ∧ (from' < 0xF000 ∨ 0xF180 ≤ from')), 9)]

/-- R17, R18, R254, R396, R397, R399: LNCH submits the 128-byte record under the next number of its core's unit and writes the
identifier to its pair; LSTAT answers 0x4000_0000 for no source, 0 until the horizon has passed the launch, and then its status or 0xFF.
A record that fails a check of R18 is accepted and ends at once with the check's code. -/
def Obligations.LaunchWords : Prop :=
  ∀ (s s1 : State) (c : Ctx) (h : Hd) (pair : BitVec 4) (d : BitVec 5) (pa : Nat), Runs s c h → s.focus.2 = .ctl →
    c.checkMode = false →
    let a := c.ctl.pair pair
    let plain := { c.begun .ctl h with dmode := 0 }
    let src := 0xF000 + c.core
    let bs := (List.range 128).map (fun i => s1.dram.byte (pa + i))
    let n := (s1.core c.core).lnchNext
    let up := match s1.launch c.lid with
      | some l => l.parents
      | none => []
    let t := (s1.setCore c.core { s1.core c.core with lnchNext := n + 1 }).accept src c.root n (c.lid :: up) bs
    (c.isTask = true → Traps (.lnch h pair) s c (mkTrap 0x21 0)) ∧
    (c.isTask = false → a.toNat % 128 ≠ 0 → Traps (.lnch h pair) s c (memTrap 0x0E a 0)) ∧
    (c.isTask = false → a.toNat % 128 = 0 → s.escapeOk c = true → s.earlierDone c = true →
      s.access plain true a 128 .read .bulk none = .ok s1 pa → s1.waitingOf src < 16 →
      (∀ i < 128, s1.dram.unit 64 (pa + i) = .present) →
      CompletesIn (.lnch h pair) s t c h .none (fun b =>
        b.pairFlag t.free .ctl (pair ++ 0#1) (BitVec.ofNat 32 src ++ n.extractLsb' 0 32) 1 0) ∧
      ∃ code, Claims.firstOf (Claims.recordChecks s1.dram c.root bs) code ∧
        (code ≠ 0 → ((t.core c.core).lnchDone).head? = some (BitVec.ofNat 16 src ++ n.extractLsb' 0 32, code))) ∧
    (let w := a.extractLsb' 0 48
     let from' := w.toNat / 2 ^ 32
     ∃ v : Word, Gives (.lstat h d pair) s c h d v 1 ∧
      (0x1000 ≤ from' → from' < 0xF000 ∨ 0xF180 ≤ from' → v = 0x40000000) ∧
      (from' < 0x1000 ∨ (0xF000 ≤ from' ∧ from' < 0xF180) →
        (s.passed a = false → v = 0) ∧ (s.passed a = true → from' < 0x1000 → v = 0x800000FF) ∧
        (s.passed a = true → 0xF000 ≤ from' → v.extractLsb' 8 24 = 0x800000)))

/-- R275, R276, R376: CTXS and CTXL outside a handler trap MODE, and with a bank that is not the trapped context's or an unaligned
address CTXBAD; CTXS writes the trapped context as an image of R275 at the address; CTXL of an image this part wrote puts the context
it holds in the trapped context's place, keeping its bank, core and local memory: the legs of the replaced context are discarded, and the
open leg is the image's (R276), which the part knows by its memory of the image (log 14); the handler then stands at the position of the
new context. CTXL first waits for the handler's earlier legs. -/
def Obligations.ContextImages : Prop :=
  ∀ (s s1 : State) (c d : Ctx) (h : Hd) (pair : BitVec 4) (bank : BitVec 2) (k : Nat) (ps : List (Nat × Nat)), Runs s c h →
    OnCore s c → s.focus.2 = .ctl → c.checkMode = false →
    let a := c.ctl.pair pair
    (c.isHandler = false → Traps (.ctxs h pair bank) s c { mkTrap 0x03 0 with acc := 1 } ∧ Traps (.ctxl h pair bank) s c (mkTrap 0x03 0)) ∧
    (c.kind = .handler k → s.ctx k = some d → bank.toNat ≠ d.bank ∨ a.toNat % 4096 ≠ 0 →
      Traps (.ctxs h pair bank) s c (memTrap 0x2A a 0) ∧ Traps (.ctxl h pair bank) s c (memTrap 0x2A a 0)) ∧
    (c.kind = .handler k → s.ctx k = some d → bank.toNat = d.bank → a.toNat % 4096 = 0 → s.escapeOk c = true →
      (s.pages (c.begun .ctl h) a .write 0 [] 107 = .ok s1 ps → s1.writeHeld (some (c.begun .ctl h)) (pieceGrans ps) = false →
        ∃ t e, exec (.ctxs h pair bank) s = .next t ∧ t.last = .issued ∧ t.ctx c.cid = some e ∧ t.free = s1.free + 1 ∧
          t.saved.find (s1.free + 1) =
            some { d with sems := (c.begun .ctl h).sems, ended := [], sp := Mem.empty, can := Mem.empty } ∧
          ∀ x, (∀ p ∈ ps, x < p.2 ∨ p.2 + 4096 ≤ x) → t.dram.byte x = s1.dram.byte x) ∧
      (s.earlierDone (c.begun .ctl h) = false → Holds (.ctxl h pair bank) s c) ∧
      (∀ saved, s.pages (c.begun .ctl h) a .read 0 [] 107 = .ok s1 ps → s.earlierDone (c.begun .ctl h) = true →
        s1.findImage (s1.pageByte ps) = some saved → s1.pagesHold .lost ps = false → s1.pagesHold .vacated ps = false →
        imageClean (s1.pageByte ps) = true → imageNum (s1.pageByte ps) 0x1448 8 = d.lid.toNat →
        imageNum (s1.pageByte ps) 0x1450 8 = d.idx → d.cid = k → k ≠ c.cid →
        ∃ t e, exec (.ctxl h pair bank) s = .next t ∧ t.last = .issued ∧ t.dram = s1.dram ∧ t.ctx k = some e ∧
          e.cid = d.cid ∧ e.core = d.core ∧ e.loc = d.loc ∧ e.sp = d.sp ∧ e.can = d.can ∧ e.ended = [] ∧ e.leg = saved.leg ∧ e.flight = saved.flight ∧
          e.ctl.pc = imageNum (s1.pageByte ps) 0x80 4 ∧ (∀ r : BitVec 5, r ≠ 0 →
            e.ctl.reg r = BitVec.ofNat 32 (imageNum (s1.pageByte ps) (4 * r.toNat) 4)) ∧
          e.root = BitVec.ofNat 64 (imageNum (s1.pageByte ps) 0x1440 8) ∧
          ∃ b, t.ctx c.cid = some b ∧ b.sup = e.sup ∧ b.phase = e.phase ∧ b.legno = e.legno))

/-! ## Outrider tasks -/

/-- R240 to R246, R348, R349: the checks of ABOP in their order; without a conflict it pushes its waybill, registers its object
and kind, and opens the declaration; an older task that conflicts makes it abort at the ABOP; younger ones that conflict begin to
abort, where all of them can, and the ABOP waits (`abop`: while it does, its task may give way to their inverses, log 72). -/
def Sys2Proof.Claims.abopDeclares : Prop :=
  ∀ (s : State) (c : Ctx) (h : Hd) (pair : BitVec 4) (kind : BitVec 6) (scls : BitVec 4) (n : BitVec 5), Runs s c h →
    s.focus.2 = .ctl → Readable s c [pair ++ 0#1, pair ++ 1#1, n, n + 1, n + 2, n + 3] →
    let w : Instr := .abop h pair kind scls n
    let a := c.ctl.pair pair
    let x := c.ctl
    let size := 2 ^ (6 + scls.toNat)
    ((c.isTask = false ∨ c.inInverse = true ∨ c.decl ≠ none) → exec w s = .next (s.trapHere c .ctl (mkTrap 0x21 0))) ∧
    ∀ t, c.kind = .task t → c.inInverse = false → c.decl = none →
      (a.toNat % size ≠ 0 → Traps w s c (memTrap 0x0E a 0)) ∧
      (a.toNat % size = 0 → 64 ≤ c.bills ∨ 16384 ≤ (x.reg n).toNat → Traps w s c (mkTrap 0x24 0)) ∧
      (a.toNat % size = 0 → c.bills < 64 → (x.reg n).toNat < 16384 → ∀ l, s.launch c.lid = some l →
        let row (k : Nat) : CRow := l.table.get { comm := 0, exact := 0, valid := false } k
        let inexact := (row kind.toNat).valid = false ∨ ∃ y < 64, (row y).valid = true ∧
          (row kind.toNat).comm.getLsbD y = true ∧ (row kind.toNat).exact.getLsbD y = false
        let near (o : Reg) : Prop := o ∈ l.regs ∧ o.seq ≠ t.seq ∧ a.toNat < o.base + o.size ∧ o.base < a.toNat + size
        let miss (o : Reg) : Prop := near o ∧ ((row kind.toNat).valid = false ∨ (row o.kind).valid = false)
        let conflict (o : Reg) : Prop := miss o ∨ (near o ∧ (row kind.toNat).comm.getLsbD o.kind = false)
        let others := l.missed.filter (fun m => m.1 != t.seq)
        (c.dmode ≠ 2 → inexact → Traps w s c (mkTrap 0x22 0)) ∧
        (c.dmode = 2 ∨ ¬ inexact →
          (l.trapmiss = true → (∃ o, miss o) → s.escapeOk c = true → ∃ k : Core,
            exec w s = .next (((s.setCore c.core k).setLaunch { l with missed := others }).suspend c .ctl false none
              (mkTrap 0x23 0)) ∧
            k = { s.core c.core with dbg := k.dbg }) ∧
          ((∀ o, ¬ conflict o) → ∃ bill : List Byte,
            CompletesIn w s (s.setLaunch { l with
              regs := l.regs ++ [{ seq := t.seq, base := a.toNat, size := size, kind := kind.toNat }], missed := others }) c h .none (fun b =>
              { b.localStore (place (c.plots * 65536 - 32 * (c.bills + 1)) bill) with
                bills := c.bills + 1, decl := some { base := a.toNat, size := size }, abop := false }) ∧ bill.length = 32 ∧
            natOfBytes (bill.take 8) = scls.toNat * 2 ^ 60 + a.toNat % 2 ^ 49 ∧
            natOfBytes ((bill.drop 8).take 8) = (x.reg (n + 1)).toNat * 2 ^ 32 + kind.toNat * 2 ^ 16 + (x.reg n).toNat ∧
            natOfBytes ((bill.drop 16).take 8) = (x.reg (n + 3)).toNat * 2 ^ 32 + (x.reg (n + 2)).toNat ∧
            natOfBytes ((bill.drop 24).take 8) = t.seq.toNat) ∧
          (¬ (l.trapmiss = true ∧ ∃ o, miss o) → (∃ o, conflict o ∧ o.seq < t.seq) → ∃ u d, exec w s = .next u ∧
            u.last = .gone ∧ u.ctx c.cid = some d ∧ d.stat = .aborting ∧ d.bills = c.bills ∧ d.flight = [] ∧ d.sp = c.sp ∧
            d.inb.active = none ∧ d.outb.active = none ∧ d.mx.active = none ∧ (∀ q, (d.seqr q).run = .halted) ∧
            u.launches = (s.setLaunch { l with missed := others }).launches ∧ u.dram = s.dram) ∧
          (¬ (l.trapmiss = true ∧ ∃ o, miss o) → (∃ o, conflict o) → (∀ o, conflict o → t.seq ≤ o.seq) →
            ∃ u ms, exec w s = .next u ∧ u.last = .stalled ∧ u.ctx c.cid = some { c with abop := true } ∧
              u.launches = (s.setLaunch { l with missed := ms }).launches ∧ u.dram = s.dram ∧
              let victim (v : Ctx) : Prop := ∃ o, conflict o ∧ s.taskCtxOf c.lid o.seq = some v
              (Sys2Proof.Safety.Keyed s → (∀ v, victim v → v.inv = none ∧
                  (v.stat = .running ∨ v.stat = .finished ∨ v.stat = .trapped ∨ v.stat = .held)) →
                ∀ v, victim v → ∃ v', u.ctx v.cid = some v' ∧ v'.stat = .aborting ∧ v'.bills = v.bills ∧ v'.sp = v.sp))))

/-- R243, R247, R248, R347, R419: ABEND closes the declaration, and in an inverse routine ends it, so that the abort goes on with
the next waybill down, the routine's results landed (log 72); OCMT closes it and ends the control sequencer at once as HALT does
(MemberRetires finishes the task; logs 71, 84); OABT aborts it at once. Outside a
task all three trap OUTCTX, OCMT and OABT also in an inverse routine. -/
def Sys2Proof.Claims.taskEndWords : Prop :=
  ∀ (s : State) (c : Ctx) (h : Hd), Runs s c h → s.focus.2 = .ctl →
    (c.isTask = false → Traps (.abend h) s c (mkTrap 0x21 0)) ∧
    (c.isTask = false ∨ c.inInverse = true →
      Traps (.ocmt h) s c (mkTrap 0x21 0) ∧ Traps (.oabt h) s c (mkTrap 0x21 0)) ∧
    (c.isTask = true → c.inInverse = false →
      Completes (.abend h) s c h .none (fun b => { b with decl := none }) ∧
      Completes (.ocmt h) s c h .none (fun b =>
        { b with ctl := { b.ctl with run := .halted }, halting := true, decl := none }) ∧
      (∃ t d, exec (.oabt h) s = .next t ∧ t.last = .gone ∧ t.ctx c.cid = some d ∧ d.stat = .aborting ∧ d.bills = c.bills ∧
        d.sp = c.sp ∧ d.flight = [] ∧ d.inb.active = none ∧ d.outb.active = none ∧ d.mx.active = none ∧
        (∀ q, (d.seqr q).run = .halted) ∧ t.launches = s.launches ∧ t.dram = s.dram)) ∧
    (∀ k, c.isTask = true → c.inInverse = true → c.inv = some k → Completes (.abend h) s c h .none (fun b =>
      { b.landIf (fun _ => true) with stat := .aborting, bills := k, inv := none, decl := none }))

/-- The words of outriders: ABOP, ABEND, OCMT, OABT (R237 to R249). -/
def Obligations.OutriderWords : Prop := Claims.abopDeclares ∧ Claims.taskEndWords

/-- R233, R234, R237 to R239, R375, R421: OTSK, in commit order, writes the 32-byte record to a free slot of the member's pool and
queues a task under the company's next SEQ (the record's write stamp is 0xFFFF, log 73); a full pool holds it. CTBL, in commit order and with no task uncommitted, replaces the
table and TRAPMISS by a clean image that agrees with itself, and traps CTBLBAD on any other; both trap OUTCTX outside a regular context
of an outrider launch, and ALIGN. -/
def Obligations.CompanyWords : Prop :=
  ∀ (s : State) (c : Ctx) (h : Hd) (pair : BitVec 4), Runs s c h → OnCore s c → s.focus.2 = .ctl → c.checkMode = false →
    let a := c.ctl.pair pair
    let b := c.begun .ctl h
    let plain := { b with dmode := 0 }
    let whole (t : State) (pa n : Nat) : Prop := ∀ i < n, t.dram.unit 64 (pa + i) = .present
    let read (t : State) (pa n : Nat) : List Byte := (List.range n).map (fun i => t.dram.byte (pa + i))
    ((c.isRegular = false ∨ ∀ l, s.launch c.lid = some l → l.record.cls = false) →
      Traps (.otsk h pair) s c { mkTrap 0x21 0 with acc := 2 } ∧ Traps (.ctbl h pair) s c (mkTrap 0x21 0)) ∧
    ∀ l, c.isRegular = true → s.launch c.lid = some l → l.record.cls = true →
      (a.toNat % 32 ≠ 0 → Traps (.otsk h pair) s c (memTrap 0x0E a 0)) ∧
      (a.toNat % 64 ≠ 0 → Traps (.ctbl h pair) s c (memTrap 0x0E a 0)) ∧
      (s.escapeOk c = true →
        (s.inOrder b = false → (a.toNat % 32 = 0 → Holds (.otsk h pair) s c) ∧
          (a.toNat % 64 = 0 → Holds (.ctbl h pair) s c)) ∧
        (l.tasks ≠ [] → a.toNat % 64 = 0 → Holds (.ctbl h pair) s c) ∧
        (∀ s1 pa, s.inOrder b = true → a.toNat % 32 = 0 → s.access plain true a 32 .read .bulk none = .ok s1 pa →
          let pool := c.coord.2.1 * l.record.c + c.coord.2.2.1
          let taken (i : Nat) : Prop := ∃ t ∈ l.tasks, t.id.pool = pool ∧ t.id.slot = i
          ((∀ i < 256, taken i) → Holds (.otsk h pair) s c) ∧
          (whole s1 pa 32 → (∃ i < 256, ¬ taken i) → ∃ i < 256, ¬ taken i ∧ ∀ s2 p,
            s1.translate b (l.record.pool + BitVec.ofNat 64 (8192 * pool + 32 * i)) .both = .ok p s2 → s2.outside p = false →
            CompletesIn (.otsk h pair) s ((s2.writeQuiet 0xFFFF (place p (read s1 pa 32))).setLaunch { l with
              seq := l.seq + 1, tasks := l.tasks ++ [{ stat := .queued, cid := none, id :=
                { seq := l.seq, pool := pool, slot := i, record := read s1 pa 32, aborts := 0 } }] }) c h .none id)) ∧
        (s.inOrder b = true → l.tasks = [] → a.toNat % 64 = 0 →
          let load (t : State) (bs : List Byte) : Prop :=
            let word (i : Nat) : BitVec 64 := BitVec.ofNat 64 (natOfBytes ((bs.drop (8 * i)).take 8))
            let row (x : Nat) : CRow := { comm := word (4 * x), exact := word (4 * x + 1), valid := (word (4 * x + 2)).getLsbD 0 }
            let clean := (∀ x < 64, (word (4 * x + 2)).toNat < 2 ∧ word (4 * x + 3) = 0) ∧ (word 256).toNat < 2 ∧
              ∀ i < 7, word (257 + i) = 0
            let agrees := ∀ x < 64, ∀ y < 64, (row x).valid = true → (row y).valid = true →
              ((row x).exact.getLsbD y = true → (row x).comm.getLsbD y = true) ∧
              (row x).comm.getLsbD y = (row y).comm.getLsbD x ∧ (row x).exact.getLsbD y = (row y).exact.getLsbD x
            (clean → agrees → ∃ tab : SMap CRow,
              CompletesIn (.ctbl h pair) s (t.setLaunch { l with table := tab, trapmiss := (word 256).getLsbD 0 }) c h .none id ∧
              ∀ x < 64, tab.get { comm := 0, exact := 0, valid := false } x = row x) ∧
            (¬ (clean ∧ agrees) → exec (.ctbl h pair) s = .next (t.suspend c .ctl false none (mkTrap 0x25 0)))
          ∀ s1 ps, s.reach b none .read [] (splitPieces a 2 2112) = .ok s1 ps →
            (∀ p ∈ ps, ∀ i < p.2.2, s1.dram.unit 64 (p.2.1 + i) = .present) →
            load s1 (ps.flatMap (fun p => read s1 p.2.1 p.2.2))))

namespace Sys2Proof.Claims
open Sys2Proof.Machine

/-- The word issues to an engine: `f` of the context at issue retires, and the header signal stays for the command (R69, R283). -/
def Issues (i : Instr) (s s' : State) (c : Ctx) (h : Hd) (f : Ctx → Ctx) : Prop :=
  exec i s = .next (s'.issued ((f (c.begun s.focus.2 h)).retire s.focus.2 i.len .none 0xFF))

/-- Checks in order: the first one that is bad traps; if none is, the word does as `done` says. -/
def Checks (i : Instr) (s : State) (c : Ctx) (done : Prop) : List (Prop × TrapRec) → Prop
  | [] => done
  | (bad, t) :: r => (bad → Traps i s c t) ∧ (¬ bad → Checks i s c done r)

/-- The command of a copy word, in the shadow registers of its channel (R66, R123, R367): the addresses, the length, the second
length value and the words read at issue; what an acquire (`legs`) and an order (`other`) wait for; the write stamp. -/
def withCommand (w : Instr) (q : Sq) (dst src : BitVec 64) (len arg : Nat) (list : List Nat) (b : Ctx) : Ctx :=
  let k (other : Chan) : Cmd :=
    { word := w, idx := (b.seqr q).pc, dst := dst.toNat, src := src.toNat, len := len, arg := arg, list := list, dc := 0,
      cancel := false, legs := b.legs, other := other.issued, stamp := b.stamp, once := false
      bno := match (b.seqr q).bcast with
        | some x => x.no
        | none => 0 }
  if q = .load then { b with inb := { b.inb with shadow := some (k b.outb), issued := b.inb.issued + 1 } }
  else { b with outb := { b.outb with shadow := some (k b.inb), issued := b.outb.issued + 1 } }

/-- First address past a local space (R22, R164). -/
def limit (c : Ctx) (sp : Space) : Nat := if sp = .can then 0x800000 else c.plots * 65536

/-- The range check of one side: a local range that leaves its space traps LOCALRANGE with its first address outside (R164). -/
def inSpace (c : Ctx) (sp : Space) (a : BitVec 64) (n : Nat) (acc : BitVec 3) : Prop × TrapRec :=
  (sp ≠ .global ∧ n ≠ 0 ∧ limit c sp < a.toNat + n,
    { mkTrap 0x0A (BitVec.ofNat 32 (max a.toNat (limit c sp))) with acc := acc })

/-- A shape record that R433 admits as RQNT's master. -/
def isMaster (r : BitVec 512) : Prop :=
  let m := Shape.ofRec r
  m.ok r = true ∧ (m.fmt = Fmt.fp32.code ∨ m.fmt = Fmt.fp16.code ∨ m.fmt = Fmt.bf16.code) ∧ m.d2 = 1 ∧ m.d3 = 1

/-- A shape record that R433 admits as RQNT's target for a master, on their logical sizes (R188; log 90). -/
def isTarget (rm r : BitVec 512) : Prop :=
  let m := Shape.ofRec rm
  let t := Shape.ofRec r
  let rows (x : Shape) : Nat := if x.swap then x.d0 else x.d1
  let cols (x : Shape) : Nat := if x.swap then x.d1 else x.d0
  t.ok r = true ∧ (t.fmt = Fmt.e4m3.code ∨ t.fmt = Fmt.e5m2.code ∨ t.fmt = Fmt.i8.code) ∧ t.d2 = 1 ∧ t.d3 = 1 ∧
    cols t = rows m ∧ rows t = cols m ∧ cols t % 32 = 0 ∧ t.accf = 0 ∧ t.promo ≠ 0

end Sys2Proof.Claims

/-- R25, R66, R164, R184, R364, R367, R381, R385, R438, R446, R494, R403: a copy word waits while its channel's shadow registers are
full (before its checks, log 51); then it makes the checks of its entry's Traps row in their order (of CPY and DUP the destination's
range, the source's, then ENGINE: logs 44, 68), and a word that passes them completes: it writes its command into the shadow registers. -/
def Sys2Proof.Claims.copyWordsIssue : Prop :=
  ∀ (s : State) (c : Ctx) (h : Hd) (f : CopyF) (dup : Bool), s.reaches c h → OnCore s c → s.focus.2 = .load ∨ s.focus.2 = .store →
    let q := s.focus.2
    let x := c.seqr q
    let dst := x.pair f.toP + f.toOff.signExtend 64
    let src := x.pair f.fromP + f.fromOff.signExtend 64
    let n := (x.reg f.len).toNat
    let p := (x.reg (f.len + 1)).toNat
    let shadow := if q = .load then c.inb.shadow else c.outb.shadow
    let engine (sides : List Space) (acc : BitVec 3) : Prop × TrapRec :=
      ((c.nocan = true ∧ .can ∈ sides) ∨ (c.nomx = true ∧ f.chain ≠ none), { mkTrap 0x02 0 with acc := acc })
    let align (l : BitVec 64) : Prop × TrapRec := (l.toNat % 8 ≠ 0, memTrap 0x0E l 0)
    let len : Prop × TrapRec := (2 ^ 32 - 1 < n * p, { mkTrap 0x0C (BitVec.ofNat 32 n) with acc := 2 })
    let ranges (l d : BitVec 64) (sp : Space) (acc : BitVec 3) : List (Prop × TrapRec) :=
      [inSpace c .sp l (if n * p = 0 then 0 else 8 * p) 0, inSpace c sp d (n * p) acc]
    let canopy (tr : Bool) (a : BitVec 64) : List (Prop × TrapRec) :=
      [(n % (if tr then 128 else 64) ≠ 0, { mkTrap 0x0C (BitVec.ofNat 32 n) with acc := 2 }),
        (n ≠ 0 ∧ (a.toNat / 2 ^ 17 ≠ 0 ∨ 131072 < a.toNat % 2 ^ 17 + (if tr then 2 * (n / 128) else n / 64)),
          mkTrap 0x0A (a.setWidth 32))]
    let go (w : Instr) (dst src : BitVec 64) (len arg : Nat) : Prop :=
      Issues w s s c h (withCommand w q dst src len arg [])
    (shadow ≠ none → Holds (.cpy h f) s c ∧ Holds (.dup h f) s c ∧ Holds (.gthr h f dup) s c ∧ Holds (.sctr h f dup) s c ∧
      Holds (.canf h f) s c ∧ Holds (.canr h f) s c ∧ Holds (.zfil h f) s c ∧ Holds (.spf h f) s c ∧ Holds (.migr h f) s c ∧
      Holds (.sstr h f) s c ∧ Holds (.xfer h f) s c ∧ Holds (.rqnt h f) s c) ∧
    (shadow = none → Readable s c [f.toP ++ 0#1, f.toP ++ 1#1, f.fromP ++ 0#1, f.fromP ++ 1#1, f.len, f.len + 1] →
      (∀ w, w = Instr.cpy h f ∨ w = Instr.dup h f → Checks w s c (go w dst src n 1)
        [inSpace c f.tsp dst n 1, inSpace c f.fsp src n 0, engine [f.tsp, f.fsp] 2]) ∧
      Checks (.gthr h f dup) s c (go (.gthr h f dup) dst src n p) (align src :: len :: ranges src dst f.tsp 1 ++ [engine [f.tsp] 2]) ∧
      (f.chain = none →
        Checks (.sctr h f dup) s c (go (.sctr h f dup) dst src n p) (align dst :: len :: ranges dst src f.fsp 0 ++ [engine [f.fsp] 2]) ∧
        Checks (.canf h f) s c (go (.canf h f) dst src n 1)
          (engine [.can] 2 :: canopy f.b6 dst ++ [inSpace c f.fsp src n 0]) ∧
        Checks (.canr h f) s c (go (.canr h f) dst src n 1)
          (engine [.can] 2 :: canopy false src ++ [inSpace c f.tsp dst n 1]) ∧
        Checks (.zfil h f) s c (go (.zfil h f) dst 0 n 1) [inSpace c f.tsp dst n 1, engine [f.tsp] 1] ∧
        go (.spf h f) 0 src n 1 ∧ go (.migr h f) 0 src n 1))

/-- R30, R180, R243, R433, R447, R491: the copy words with records and members. XFER makes the checks of R491 in their order; SSTR
checks its address, and a global one's translation; RQNT reads both shape records, which stay with its command, and checks them,
the master first, the target on logical sizes (log 90). (A record in another package's memory is asked for first: log 109.) -/
def Sys2Proof.Claims.recordCopyWordsIssue : Prop :=
  ∀ (s : State) (c : Ctx) (h : Hd) (f : CopyF), s.reaches c h → OnCore s c → s.focus.2 = .load ∨ s.focus.2 = .store →
    f.chain = none →
    let q := s.focus.2
    let x := c.seqr q
    let dst := x.pair f.toP + f.toOff.signExtend 64
    let src := x.pair f.fromP + f.fromOff.signExtend 64
    let n := (x.reg f.len).toNat
    let p := (x.reg (f.len + 1)).toNat
    let b := c.begun q h
    let moving (cause : Nat) (tval : Word) : TrapRec := { mkTrap cause tval with acc := 2 }
    (if q = .load then c.inb.shadow else c.outb.shadow) = none →
    Readable s c [f.toP ++ 0#1, f.toP ++ 1#1, f.fromP ++ 0#1, f.fromP ++ 1#1, f.len, f.len + 1] →
    Checks (.xfer h f) s c (Issues (.xfer h f) s s c h (withCommand (.xfer h f) q dst src n p []))
      [(c.isTask = true, moving 0x21 0), (c.isHandler = true, moving 0x03 0), (c.noxf = true, moving 0x02 0),
        (c.phase = false, moving 0x04 0),
        (c.size ≤ p ∨ (∀ m ∈ s.allCtxs, m.kind = .regular → m.lid = c.lid → m.idx ≠ p), moving 0x05 (BitVec.ofNat 32 p)),
        inSpace c .sp src n 0, inSpace c .sp dst n 1] ∧
    (let sstr (s' : State) : Prop :=
       Issues (.sstr h f) s s' c h (withCommand (.sstr h f) q (f.toOff.zeroExtend 64) src 32 1 [])
     (f.fsp ≠ .global → Checks (.sstr h f) s c (sstr s) [(src.toNat % 8 ≠ 0, memTrap 0x0E src 0), inSpace c f.fsp src 32 0]) ∧
     (f.fsp = .global → src.toNat % 8 ≠ 0 → Traps (.sstr h f) s c (memTrap 0x0E src 0)) ∧
     (f.fsp = .global → src.toNat % 8 = 0 → ∀ pa s1, s.translate b src .read = .ok pa s1 →
       (src.toNat % 4096 ≤ 4064 → sstr s1) ∧
       (4064 < src.toNat % 4096 → ∀ pb s2, s1.translate b (src + BitVec.ofNat 64 (4096 - src.toNat % 4096)) .read = .ok pb s2 →
         sstr s2))) ∧
    (src.toNat % 64 ≠ 0 → Traps (.rqnt h f) s c (memTrap 0x0E src 0)) ∧
    (src.toNat % 64 = 0 → dst.toNat % 64 ≠ 0 → Traps (.rqnt h f) s c (memTrap 0x0E dst 0)) ∧
    (src.toNat % 64 = 0 → dst.toNat % 64 = 0 →
      let whole (t : State) (pa : Nat) : Prop :=
        t.dram.unit 64 pa = .present ∧ pa % 64 = 0 ∧ ∀ i < 8, t.homeDie (pa + 8 * i) < 3
      let record (t : State) (pa : Nat) : BitVec 512 :=
        BitVec.ofNat 512 (natOfBytes ((List.range 64).map (fun i => t.dram.byte (pa + i))))
      ∀ pa s1 s2, s.reach b none .read [] [(src, 64)] = .ok s1 [(src, pa, 64)] → whole s1 pa →
        s1.bulkTests b x.once.watch 0 [(src, pa, 64)] [] = .ok s2 →
        let rm := record s1 pa
        (s.escapeOk c = true → ¬ isMaster rm → exec (.rqnt h f) s = .next (s2.suspend c q false none (memTrap 0x0D src 0))) ∧
        (isMaster rm → ∀ pb s3 s4, s2.reach b none .read [] [(dst, 64)] = .ok s3 [(dst, pb, 64)] → whole s3 pb →
          s3.bulkTests b x.once.watch 0 [(dst, pb, 64)] [] = .ok s4 →
          let rt := record s3 pb
          (isTarget rm rt →
            Issues (.rqnt h f) s s4 c h (withCommand (.rqnt h f) q dst src 0 1 [rm.toNat, rt.toNat])) ∧
          (s.escapeOk c = true → ¬ isTarget rm rt →
            exec (.rqnt h f) s = .next (s4.suspend c q false none (memTrap 0x0D dst 0)))))

/-- How every copy word issues its command (R66 to R71, R123). -/
def Obligations.CopyWords : Prop := Claims.copyWordsIssue ∧ Claims.recordCopyWordsIssue

/-! ## Matrix and vector words -/

namespace Sys2Proof.Claims
open Sys2Proof.Machine

/-- The matrix words. -/
def matrixWord (i : Instr) : Option (MxOp × Hd × MxF) :=
  match i with
  | .mma h f => some (.mma, h, f)
  | .mmab h f => some (.mmab, h, f)
  | .mmas h f => some (.mmas, h, f)
  | .mmts h f => some (.mmts, h, f)
  | .sca h f => some (.sca, h, f)
  | .nrm h f => some (.nrm, h, f)
  | .aclr h f => some (.aclr, h, f)
  | .acvt h f => some (.acvt, h, f)
  | .ald h f => some (.ald, h, f)
  | .ast h f => some (.ast, h, f)
  | .setx h f => some (.setx, h, f)
  | _ => none

/-- The vector words: header, fields, and what the word does with the context as the schedule sees it. -/
def vectorWord (i : Instr) : Option (Hd × VecF × (Ctx → VAct)) :=
  let of' (h : Hd) (x : VecF) (k : VecF → Ctx → VAct) : Option (Hd × VecF × (Ctx → VAct)) := some (h, x, k x)
  let two (h : Hd) (x : VecF) (lat : Nat) (g : Nat → Nat → Nat × Flags) : Option (Hd × VecF × (Ctx → VAct)) :=
    some (h, x, binaryAct x lat g)
  let one (h : Hd) (x : VecF) (lat : Nat) (g : Nat → Nat × Flags) : Option (Hd × VecF × (Ctx → VAct)) :=
    some (h, x, unaryAct x lat g)
  match i with
  | .vadd h x => two h x 4 (addLane x.ty x.rnd)
  | .vsub h x => two h x 4 (subLane x.ty x.rnd)
  | .vmul h x => two h x 4 (mulLane x.ty x.rnd)
  | .vmin h x => two h x 2 (minLane x.ty)
  | .vmax h x => two h x 2 (maxLane x.ty)
  | .vclmp h x => two h x 2 (clampLane x.ty)
  | .vand h x => two h x 2 (fun a b => (a &&& b, Flags.none))
  | .vor h x => two h x 2 (fun a b => (a ||| b, Flags.none))
  | .vxor h x => two h x 2 (fun a b => (a ^^^ b, Flags.none))
  | .vshl h x => two h x 2 (shlLane x.ty)
  | .vshr h x => two h x 2 (shrLane x.ty)
  | .vsra h x => two h x 2 (sraLane x.ty)
  | .vabs h x => one h x 2 (absLane x.ty)
  | .vneg h x => one h x 2 (negLane x.ty)
  | .vnot h x => one h x 2 (fun a => (2 ^ x.ty.bits - 1 - a, Flags.none))
  | .vexp2 h x => one h x 8 (Trans.exp2.lane x.ty)
  | .vlog2 h x => one h x 8 (Trans.log2.lane x.ty)
  | .vrcp h x => one h x 8 (Trans.rcp.lane x.ty)
  | .vrsq h x => one h x 8 (Trans.rsq.lane x.ty)
  | .vfma h x => some (h, x, fmaAct x false)
  | .vfms h x => some (h, x, fmaAct x true)
  | .vcmp h x => of' h x vcmpAct
  | .vsel h x => of' h x vselAct
  | .vmsk h x => of' h x vmskAct
  | .vmov h x => of' h x vmovAct
  | .vcnt h x => of' h x vcntAct
  | .vchk h x => of' h x vchkAct
  | .vbcst h x => of' h x vbcstAct
  | .vidx h x => of' h x vidxAct
  | .vperm h x => of' h x vpermAct
  | .vshuf h x pat => some (h, x, vshufAct x pat)
  | .vsld h x => of' h x vsldAct
  | .vgth h x => of' h x vgthAct
  | .vsct h x => of' h x vsctAct
  | .vcvt h x => of' h x vcvtAct
  | .vscl h x => of' h x vsclAct
  | .vdqn h x => of' h x vdqnAct
  | .vqnt h x => of' h x vqntAct
  | .vsum h x => of' h x vsumAct
  | .vrmx h x => of' h x vrmxAct
  | .rngb h x => of' h x rngbAct
  | _ => none

/-- Lane `i` of `w` bits. -/
def laneAt (w : Nat) (v : VWord) (i : Nat) : Nat := v.toNat / 2 ^ (w * i) % 2 ^ w

/-- Lane `i` is active under mask `m` (R456). -/
def laneLive (w : Nat) (m : BitVec 64) (i : Nat) : Prop :=
  (w = 8 → m.getLsbD (i / 2) = true) ∧ (w = 16 → m.getLsbD i = true) ∧ (w = 32 → m.getLsbD (2 * i) = true)

/-- A lane as a number of an integer type. -/
def laneNum (ty : Fmt) (x : Nat) : Int :=
  if ty = .i8 ∨ ty = .i16 ∨ ty = .i32 then (BitVec.ofNat ty.bits x).toInt else (x : Int)

/-- Words of integer lanes: latency, and a lane of the result from the lanes of D, A and B (R460, R462 to R464, R475, R485). -/
def integerWord (i : Instr) : Option (Hd × VecF × Nat × (Nat → Nat → Nat → Int)) :=
  match i with
  | .vadd h x => some (h, x, 4, fun _ a b => (a : Int) + b)
  | .vsub h x => some (h, x, 4, fun _ a b => (a : Int) - b)
  | .vmul h x => some (h, x, 4, fun _ a b => (a : Int) * b)
  | .vfma h x => some (h, x, 4, fun d a b => (d : Int) + a * b)
  | .vfms h x => some (h, x, 4, fun d a b => (d : Int) - a * b)
  | .vmin h x => some (h, x, 2, fun _ a b => min (laneNum x.ty a) (laneNum x.ty b))
  | .vmax h x => some (h, x, 2, fun _ a b => max (laneNum x.ty a) (laneNum x.ty b))
  | .vabs h x => some (h, x, 2, fun _ a _ => (laneNum x.ty a).natAbs)
  | .vneg h x => some (h, x, 2, fun _ a _ => -(a : Int))
  | .vand h x => some (h, x, 2, fun _ a b => (a &&& b : Nat))
  | .vor h x => some (h, x, 2, fun _ a b => (a ||| b : Nat))
  | .vxor h x => some (h, x, 2, fun _ a b => (a ^^^ b : Nat))
  | .vnot h x => some (h, x, 2, fun _ a _ => -1 - (a : Int))
  | .vshl h x => some (h, x, 2, fun _ a b => (a : Int) * 2 ^ b)
  | .vshr h x => some (h, x, 2, fun _ a b => (a / 2 ^ b : Nat))
  | .vsra h x => some (h, x, 2, fun _ a b => (BitVec.ofNat x.ty.bits a).toInt / 2 ^ b)
  | _ => none

end Sys2Proof.Claims

/-- R25, R56, R58, R66, R67, R181, R406, R407: a matrix word traps ENGINE under NOMX, waits while the shadow set is full, or (forked)
while a word of its sequencer has still to write what it reads, makes its checks (after the wait, log 51), and then enters the array,
the active set if that is free and the shadow set if not: its streams advance, it keeps their
descriptors as they stood (log 46), and no tile, register or memory changes. Its signal comes at its retirement, which a joined schedule fixes
(MatrixArraySteps): 64·KS schedule cycles after its start for a tile step, twice that with REDUN, 6 for NRM. -/
def Obligations.MatrixWordsIssue : Prop :=
  ∀ (s : State) (c : Ctx) (i : Instr) (op : MxOp) (h : Hd) (f : MxF), Claims.matrixWord i = some (op, h, f) →
    s.reaches c h → OnCore s c → s.focus.2 = .comp →
    let b := c.begun .comp h
    let acc : BitVec 3 := if op = .ast ∨ (op = .acvt ∧ f.xsel = false) then 1 else 0
    (c.nomx = true → Traps i s c { mkTrap 0x02 0 with acc := acc }) ∧
    let late := (mxOpnds op f (c.descr f.adesc) (c.descr f.mdesc)).any b.awaitsElems
    (c.nomx = false → c.mx.shadow ≠ none ∨ late = true → Holds i s c) ∧
    (∀ t, c.nomx = false → c.mx.shadow = none → late = false → b.mxTrap op f = some t → Traps i s c (t.wordAcc acc)) ∧
    (c.nomx = false → c.mx.shadow = none → late = false → b.mxTrap op f = none → ∃ (e : Ctx) (x : MCmd),
      exec i s = .next (s.issued (e.retire .comp 2 .none 0xFF)) ∧
      x.op = op ∧ x.f = f ∧ x.wait = h.wait ∧ x.sig = h.sig ∧ x.idx = c.comp.pc ∧ x.da = c.descr f.adesc ∧
      x.dm = c.descr f.mdesc ∧ x.chained = false ∧ x.cancel = false ∧ x.no = c.mx.issued ∧
      e.mx.issued = c.mx.issued + 1 ∧ e.mx.retired = c.mx.retired ∧
      (c.mx.active ≠ none → e.mx.active = c.mx.active ∧ e.mx.shadow = some x ∧ e.flight = c.flight) ∧
      (c.mx.active = none → e.mx.shadow = none ∧ ∃ rows due, e.mx.active = some { x with rows := rows, due := due } ∧
        (op ≠ .acvt ∨ c.joined = false → rows = x.rows ∧ e.flight = c.flight) ∧ (c.joined = false → due = none) ∧
        (c.joined = true → (op = .nrm → due = some (c.t + 6)) ∧
          (op = .mma ∨ op = .mmas ∨ op = .mmts ∨ op = .mmab →
            due = some (c.t + 64 * f.ks.toNat * (if f.redun then 2 else 1))))) ∧
      (∀ st, e.descr st = (b.mxAdvance op f).descr st) ∧ (∀ st, st ≠ f.adesc → st ≠ f.mdesc → e.descr st = c.descr st) ∧
      e.acc = c.acc ∧ e.bp = c.bp ∧ e.v = c.v ∧ e.m = c.m ∧ e.sp = c.sp ∧ e.can = c.can ∧ e.sticky = c.sticky ∧
      ∀ q, e.seqr q = c.seqr q)

/-- R25, R56, R59, R68, R181, R336, R455 to R459: a vector word traps ENGINE under NOVEC whatever its guard; it makes its
checks; a word that passes them has its result in flight, which lands, with its signal and flags, after the latency of its class; its
streams advance; nothing else of registers or memory changes at the issue. -/
def Obligations.VectorWordsIssue : Prop :=
  ∀ (s : State) (c : Ctx) (i : Instr) (h : Hd) (x : VecF) (k : Ctx → VAct), Claims.vectorWord i = some (h, x, k) →
    OnCore s c → s.focus.2 = .comp →
    let b := c.begun .comp h
    let act := k b.view
    let late := act.srcs.any b.awaitsRows
    (c.novec = true → s.reaches c { h with pred := 0 } → Traps i s c ((mkTrap 0x02 0).wordAcc (vecAcc x))) ∧
    (c.novec = false → Runs s c h → late = true → Holds i s c) ∧
    (∀ t, c.novec = false → Runs s c h → late = false → b.view.vecTrap act.dst act.srcs = some t →
      Traps i s c (t.wordAcc (vecAcc x))) ∧
    (c.novec = false → Runs s c h → late = false → b.view.vecTrap act.dst act.srcs = none →
      ∃ (e : Ctx) (f : Flight) (rest : List Flight),
      exec i s = .next (s.issued (e.retire .comp 1 .none 0xFF)) ∧ e.vno = c.vno + 1 ∧ e.flight = c.flight ++ f :: rest ∧
      f.sq = .comp ∧ f.due = c.t + act.lat ∧ f.sig = h.sig ∧ f.vno = c.vno + 1 ∧ (∀ j, act.flags.getLsbD j → f.flags.getLsbD j) ∧
      (x.nw = true → f.dest = .none ∧ rest = []) ∧ (∀ g ∈ rest, ∃ n v, act.extra = some (n, v) ∧ g.dest = .reg n) ∧
      (∀ n aux, x.nw = false → (∃ w ls, act.res = .lanes w ls) → (act.dst.map (fun u => u.op)) = some (.reg .v aux n) →
        f.dest = .vreg n) ∧
      (∀ st, (∀ u ∈ act.dst.toList ++ act.srcs, ∀ o, u.op ≠ .stream st o) → e.descr st = c.descr st) ∧
      e.acc = c.acc ∧ e.v = c.v ∧ e.m = c.m ∧ e.sp = c.sp ∧ e.can = c.can ∧ e.sticky = c.sticky ∧ e.sems = b.sems ∧
      ∀ q, (e.seqr q).regs = (c.seqr q).regs ∧ (e.seqr q).preds = (c.seqr q).preds ∧ (e.seqr q).pc = (c.seqr q).pc)

/-- R455, R456, R459, R460, R462 to R464, R475, R485: a word of integer or bitwise lanes between vector registers gives each active
lane its function modulo 2^w, keeps the other lanes of the destination, and sets no flag. (A forked word first waits for the rows of an
ACVT that its registers are to receive, R58.) -/
def Sys2Proof.Claims.integerLanes : Prop :=
  ∀ (s : State) (c : Ctx) (i : Instr) (h : Hd) (x : VecF) (lat : Nat) (g : Nat → Nat → Nat → Int) (d a b : BitVec 5)
    (ad aa ab : BitVec 12), integerWord i = some (h, x, lat, g) → Runs s c h → s.focus.2 = .comp → c.novec = false →
    c.checkMode = false → x.ty.isI = true → x.nw = false → x.d = .reg .v ad d → x.a = .reg .v aa a → x.b = .reg .v ab b →
    (∀ m ∈ c.mx.active.toList ++ c.mx.shadow.toList, c.joined = false → m.chained = false → ∀ n ∈ [d, a, b], m.writesV n.toNat = false) →
    ∃ (e : Ctx) (f : Flight), exec i s = .next (s.issued (e.retire .comp 1 .none 0xFF)) ∧ e.flight = c.flight ++ [f] ∧
      f.due = c.t + lat ∧ f.flags = 0 ∧ e.v = c.v ∧
      (∀ n, n ≠ d → (e.landOne f).vreg n = c.vreg n) ∧
      ∀ j < 1024 / x.ty.bits,
        let w := x.ty.bits
        (laneLive w (c.mreg 0) j → (laneAt w ((e.landOne f).vreg d) j : Int) =
          g (laneAt w (c.vreg d) j) (laneAt w (c.vreg a) j) (laneAt w (c.vreg b) j) % 2 ^ w) ∧
        (¬ laneLive w (c.mreg 0) j → laneAt w ((e.landOne f).vreg d) j = laneAt w (c.vreg d) j)

namespace Sys2Proof.Claims
open Sys2Proof.Machine

/-- Words of float lanes: latency, and a lane of the result, with its flags, from the lanes of D, A and B (R139 to R141, R460, R462, R463,
R467, R475): the exact value rounded once, or a lane moved as it stands, a NaN as the canonical one. -/
def floatWord (i : Instr) : Option (Hd × VecF × Nat × (Nat → Nat → Nat → Nat × Flags)) :=
  let nan (x : VecF) : Nat × Flags := x.ty.ofNum .rne 0 .nan
  let exact (x : VecF) (v : Num) : Nat × Flags := x.ty.ofNum x.rnd 0 v
  let moved (x : VecF) (v : Nat) : Nat × Flags :=
    if x.ty.num v = .nan then nan x else (v, { ov := false, nf := (x.ty.num v).nonFinite })
  let either (x : VecF) (a b v : Nat) : Nat × Flags := if x.ty.num a = .nan ∨ x.ty.num b = .nan then nan x else moved x v
  let less (x : VecF) (a b : Nat) : Nat := if (x.ty.num b).below (x.ty.num a) then b else a
  let more (x : VecF) (a b : Nat) : Nat := if (x.ty.num a).below (x.ty.num b) then b else a
  let flip (x : VecF) (a : Nat) : Nat := (a + 2 ^ (x.ty.bits - 1)) % 2 ^ x.ty.bits
  match i with
  | .vadd h x => some (h, x, 4, fun _ a b => exact x ((x.ty.num a).add x.rnd (x.ty.num b)))
  | .vsub h x => some (h, x, 4, fun _ a b => exact x ((x.ty.num a).add x.rnd (x.ty.num b).neg))
  | .vmul h x => some (h, x, 4, fun _ a b => exact x ((x.ty.num a).mul (x.ty.num b)))
  | .vfma h x => some (h, x, 4, fun d a b => exact x ((x.ty.num d).add x.rnd ((x.ty.num a).mul (x.ty.num b))))
  | .vfms h x => some (h, x, 4, fun d a b => exact x ((x.ty.num d).add x.rnd ((x.ty.num a).mul (x.ty.num b)).neg))
  | .vmin h x => some (h, x, 2, fun _ a b => either x a b (less x a b))
  | .vmax h x => some (h, x, 2, fun _ a b => either x a b (more x a b))
  | .vclmp h x => some (h, x, 2, fun _ a b => either x a b (less x (more x a (flip x b)) b))
  | .vabs h x => some (h, x, 2, fun _ a _ => moved x (a % 2 ^ (x.ty.bits - 1)))
  | .vneg h x => some (h, x, 2, fun _ a _ => moved x (flip x a))
  | _ => none

end Sys2Proof.Claims

/-- R139 to R141, R455, R456, R459, R460, R462, R463, R467, R475: a word of float lanes between vector registers gives each active lane its
exact value rounded once, or the lane that it chooses, and keeps the other lanes; NF comes with a result that is not finite, OV with an
overflow. -/
def Sys2Proof.Claims.floatLanes : Prop :=
  ∀ (s : State) (c : Ctx) (i : Instr) (h : Hd) (x : VecF) (lat : Nat) (g : Nat → Nat → Nat → Nat × Flags) (d a b : BitVec 5)
    (ad aa ab : BitVec 12), floatWord i = some (h, x, lat, g) → Runs s c h → s.focus.2 = .comp → c.novec = false →
    c.checkMode = false → x.ty.isF = true → x.nw = false → x.d = .reg .v ad d → x.a = .reg .v aa a → x.b = .reg .v ab b →
    (∀ m ∈ c.mx.active.toList ++ c.mx.shadow.toList, c.joined = false → m.chained = false → ∀ n ∈ [d, a, b], m.writesV n.toNat = false) →
    ∃ (e : Ctx) (f : Flight), exec i s = .next (s.issued (e.retire .comp 1 .none 0xFF)) ∧ e.flight = c.flight ++ [f] ∧
      f.due = c.t + lat ∧ e.v = c.v ∧ (∀ n, n ≠ d → (e.landOne f).vreg n = c.vreg n) ∧
      let w := x.ty.bits
      let lane (j : Nat) : Nat × Flags := g (laneAt w (c.vreg d) j) (laneAt w (c.vreg a) j) (laneAt w (c.vreg b) j)
      (f.flags.getLsbD 0 = true ↔ ∃ j < 1024 / w, laneLive w (c.mreg 0) j ∧ (lane j).2.nf = true) ∧
      (f.flags.getLsbD 1 = true ↔ ∃ j < 1024 / w, laneLive w (c.mreg 0) j ∧ (lane j).2.ov = true) ∧
      (∀ n, 2 ≤ n → f.flags.getLsbD n = false) ∧
      ∀ j < 1024 / w,
        (laneLive w (c.mreg 0) j → laneAt w ((e.landOne f).vreg d) j = (lane j).1 % 2 ^ w) ∧
        (¬ laneLive w (c.mreg 0) j → laneAt w ((e.landOne f).vreg d) j = laneAt w (c.vreg d) j)

/-- The lanes of the vector words between registers: integer and bitwise ones, and float ones (R139 to R141, R456, R459, R460, R462 to R464,
R467, R475, R485). -/
def Obligations.IntegerLanes : Prop := Claims.integerLanes ∧ Claims.floatLanes

/-! ## Device steps of a core and its engines -/

namespace Sys2Proof.Claims
open Sys2Proof.Machine

/-- A context that its core runs, under its own number. -/
def Live (s : State) (cid : Nat) (c : Ctx) : Prop :=
  s.ctx cid = some c ∧ c.cid = cid ∧ (s.core c.core).active = some cid ∧ (c.stat = .running ∨ c.stat = .inverse)

/-- The channel of an engine (0 inbound). -/
def chanOf (c : Ctx) (e : Eng) : Chan := if e = .inb then c.inb else c.outb

/-- A context with another state of one channel. -/
def withChan (c : Ctx) (e : Eng) (k : Chan) : Ctx := if e = .inb then { c with inb := k } else { c with outb := k }

/-- Byte `a` of a scratchpad. -/
def spByte (c : Ctx) (a : Nat) : Byte := c.sp.byte a

/-- State of the vacancy unit of scratchpad address `a`. -/
def spUnit (c : Ctx) (a : Nat) : UState := c.sp.unit 2 a

end Sys2Proof.Claims

/-- R56, R58, R66, R69, R170, R171, R174, R220, R303: results land when they are due (in forked mode, all at once); a command moves from
the shadow to the active registers of an idle channel; one unit of a scratchpad copy moves two bytes and counts, a CPY vacating its source
unit and a DUP leaving it; a finished command whose release is over, and whose writes to other packages are acknowledged, retires, its
shadow moves up, and its signal is made. -/
def Sys2Proof.Claims.channelSteps : Prop :=
  ∀ (s : State) (c : Ctx) (cid : Nat) (e : Eng), Live s cid c → c.leaving = false → e ≠ .mx →
    let ch := chanOf c e
    (c.joined = false → exec (.resultLand cid) s = .next (s.setCtx (c.landIf (fun _ => true)))) ∧
    (c.joined = true → (∃ f ∈ c.flight, f.due ≤ c.t) →
      exec (.resultLand cid) s = .next (s.setCtx (c.landIf (fun f => decide (f.due ≤ c.t))))) ∧
    (∀ k, ch.active = none → ch.shadow = some k →
      exec (.engineCommandStart cid e) s = .next (s.setCtx (withChan c e { ch with active := some k, shadow := none }))) ∧
    (∀ h f k (dup : Bool), ch.active = some k → k.word = (if dup then Instr.dup h f else Instr.cpy h f) → f.fsp = .sp →
      f.tsp = .sp → f.acq = false → f.b6 = false → f.chain = none → k.cancel = false → c.isTask = false →
      c.flight = [] → (c.checkMode = true → c.mx.active = none ∧ c.mx.shadow = none) → Safety.LocalWhole c →
      k.len % 2 = 0 → k.src % 2 = 0 → 2 * k.dc < k.len →
      let a := k.src + 2 * k.dc
      let b := k.dst + 2 * k.dc
      (b + 1 < a ∨ a + 1 < b) → spUnit c a = .present → (∀ i < 2, spUnit c (b + i) ≠ .lost) →
      ∃ t d, exec (.copyUnit cid e) s = .next t ∧ t.ctx cid = some d ∧
        (chanOf d e).active = some { k with dc := k.dc + 1, once := false } ∧ (chanOf d e).shadow = ch.shadow ∧
        spByte d b = spByte c a ∧ spByte d (b + 1) = spByte c (a + 1) ∧
        (∀ x, x ≠ a → x ≠ a + 1 → x / 2 ≠ b / 2 → x / 2 ≠ (b + 1) / 2 → spByte d x = spByte c x ∧ spUnit d x = spUnit c x) ∧
        (b % 2 = 0 → spUnit d b = .present) ∧
        (dup = true → b % 2 = 0 → spByte d a = spByte c a ∧ spByte d (a + 1) = spByte c (a + 1) ∧ spUnit d a = .present) ∧
        (dup = false → b % 2 = 0 → spByte d a = 0 ∧ spByte d (a + 1) = 0 ∧ spUnit d a = .vacated) ∧
        d.sticky = c.sticky ∧ d.v = c.v ∧ d.can = c.can ∧ d.sems = c.sems ∧ (∀ q, d.seqr q = c.seqr q) ∧
        t.dram = s.dram ∧ ∀ n, n ≠ cid → t.ctx n = s.ctx n) ∧
    (∀ h f k, ch.active = some k → k.word = .cpy h f → f.acq = false → f.b6 = false → f.chain = none → k.cancel = false →
      (k.len + 1) / 2 ≤ k.dc → (f.rel = true → ∀ l ∈ c.ended, k.legs ≤ l.no) →
      (∀ r ∈ s.fars, r.cid = cid → r.eng = (if e = .inb then 1 else 2) → r.write = false) →
      exec (.commandSignal cid e) s = .next (s.setCtx ((withChan c e
        { ch with active := ch.shadow, shadow := none, retired := ch.retired + 1 }).sigField h.sig)))

namespace Sys2Proof.Claims
open Sys2Proof.Machine

/-- One of the two local memories. -/
def memOf (c : Ctx) (sp : Space) : Mem := if sp = .can then c.can else c.sp

/-- The command takes its source (R170). -/
def taking (w : Instr) : Bool :=
  match w with
  | .cpy .. | .canf .. | .canr .. | .xfer .. => true
  | .gthr _ _ dup | .sctr _ _ dup => !dup
  | _ => false

/-- Local source and destination of byte `b` of a command's transfer (R184, R365, R367). -/
def localPlan (k : Cmd) : Option (Space × (Nat → Nat) × Space × (Nat → Nat)) :=
  let slices (o b : Nat) : Nat := b / (k.len / 64) * 2 ^ 17 + o + b % (k.len / 64)
  match k.word with
  | .cpy _ f | .dup _ f => some (f.fsp, (k.src + ·), f.tsp, (k.dst + ·))
  | .canf _ f =>
    let o := k.dst % 2 ^ 17
    some (f.fsp, (k.src + ·), .can, fun b => if f.b6 then b / 2 % 64 * 2 ^ 17 + o + 2 * (b / 2 / 64) + b % 2 else slices o b)
  | .canr _ f => some (.can, slices (k.src % 2 ^ 17), f.tsp, (k.dst + ·))
  | _ => none

/-- Source, destination and length of the next unit of a command between local memory and global addresses (R171, R367, R386, R438):
of GTHR and SCTR, whose transfer is the concatenation of the pieces. -/
def globalPlan (k : Cmd) : Option (Space × Nat × Space × Nat × Nat) :=
  let u := (k.len + 1) / 2
  let i := k.dc / u
  let off := 2 * (k.dc % u)
  let n := min 2 (k.len - off)
  let some' (total : Nat) (x : Space × Nat × Space × Nat × Nat) : Option (Space × Nat × Space × Nat × Nat) :=
    if k.dc < total then some x else none
  match k.word with
  | .cpy _ f | .dup _ f => some' u (f.fsp, k.src + off, f.tsp, k.dst + off, n)
  | .gthr _ f _ => k.list[i]?.bind (fun a => some' (k.arg * u) (.global, a + off, f.tsp, k.dst + k.len * i + off, n))
  | .sctr _ f _ => k.list[i]?.bind (fun a => some' (k.arg * u) (f.fsp, k.src + k.len * i + off, .global, a + off, n))
  | _ => none

/-- The active command of a channel may run its next unit: it is not cancelled, waits for nothing and has no chained word. -/
def MayMove (c : Ctx) (e : Eng) (k : Cmd) : Prop :=
  (chanOf c e).active = some k ∧ k.cancel = false ∧ c.isTask = false ∧ c.flight = [] ∧ Safety.LocalWhole c ∧
    (c.checkMode = true → c.mx.active = none ∧ c.mx.shadow = none) ∧
    ∃ h f, copyOf k.word = some (h, f) ∧ f.acq = false ∧ f.chain = none ∧
      (f.b6 = false ∨ (∃ h f, k.word = .canf h f) ∨ ∃ h f, k.word = .zfil h f)

/-- The unit of a channel's command is done: the count rises; `p` holds of the state and the context after it. -/
def Moves (s : State) (cid : Nat) (e : Eng) (k : Cmd) (p : State → Ctx → Prop) : Prop :=
  ∃ t d, exec (.copyUnit cid e) s = .next t ∧ t.ctx cid = some d ∧
    (chanOf d e).active = some { k with dc := k.dc + 1, once := false } ∧ p t d

/-- One unit of CPY, DUP, CANF and CANR between local memories, of ZFIL in local memory and of XFER (R170, R171, R184, R365, R491, R494):
each byte goes where the word's layout puts it, and the destination's units become present; a take leaves zeros; ZFIL makes a
lost ECC word that it has covered whole present with zeros; XFER writes the target member's scratchpad. -/
def localUnits : Prop :=
  ∀ (s : State) (c : Ctx) (cid : Nat) (e : Eng) (k : Cmd), Live s cid c → c.leaving = false → e ≠ .mx → MayMove c e k →
    2 * k.dc < k.len →
    let lo := 2 * k.dc
    let n := min 2 (k.len - lo)
    (∀ fsp from' tsp to', localPlan k = some (fsp, from', tsp, to') → fsp ≠ .global → tsp ≠ .global →
      (∀ i < n, (memOf c fsp).unit 2 (from' (lo + i)) = .present ∧ (memOf c tsp).unit 2 (to' (lo + i)) ≠ .lost) →
      (∀ i < n, ∀ j < n, fsp = tsp → from' (lo + i) / 2 ≠ to' (lo + j) / 2) → (n = 2 → to' lo ≠ to' (lo + 1)) →
      Moves s cid e k (fun t d => t.dram = s.dram ∧ d.sticky = c.sticky ∧ (∀ m, m ≠ cid → t.ctx m = s.ctx m) ∧ ∀ i < n,
        (memOf d tsp).byte (to' (lo + i)) = (memOf c fsp).byte (from' (lo + i)) ∧
        (memOf d tsp).unit 2 (to' (lo + i)) = .present ∧
        (memOf d fsp).byte (from' (lo + i)) = if taking k.word then 0 else (memOf c fsp).byte (from' (lo + i)))) ∧
    (∀ h f, k.word = .zfil h f → f.tsp ≠ .global →
      Moves s cid e k (fun t d => t.dram = s.dram ∧ d.sticky = c.sticky ∧ ∀ i < n,
        let a := k.dst + lo + i
        let w := a / 8 * 8
        ((memOf c f.tsp).unit 2 a ≠ .lost → (memOf d f.tsp).unit 2 a = .present ∧ (memOf d f.tsp).byte a = 0) ∧
        ((∀ x < 4, (memOf c f.tsp).unit 2 (w + 2 * x) = .lost) → k.dst ≤ w → w + 8 ≤ k.dst + lo + n → ∀ x < 8,
          (memOf d f.tsp).unit 2 (w + x) = .present ∧ (memOf d f.tsp).byte (w + x) = 0))) ∧
    (∀ h f m, k.word = .xfer h f → Safety.Keyed s → s.member c.lid k.arg = some m → m.resident = true → Safety.LocalWhole m →
      (∀ i < n, c.sp.unit 2 (k.src + lo + i) = .present ∧ m.sp.unit 2 (k.dst + lo + i) ≠ .lost) →
      (∀ i < n, ∀ j < n, (k.src + lo + i) / 2 ≠ (k.dst + lo + j) / 2) →
      Moves s cid e k (fun t d => t.dram = s.dram ∧ ∃ x, t.ctx m.cid = some x ∧ ∀ i < n,
        x.sp.byte (k.dst + lo + i) = c.sp.byte (k.src + lo + i) ∧ x.sp.unit 2 (k.dst + lo + i) = .present ∧
        d.sp.byte (k.src + lo + i) = 0))

/-- One unit of CPY, DUP, GTHR and SCTR between local memory and DRAM of this package, and of ZFIL in it (R167, R170, R171, R199, R386,
R438, R494): the side in DRAM is translated through the channel's stream TLB and tested for races and watches; the bytes go over; a take
leaves zeros. GTHR and SCTR first read the list entry of each piece, as the piece begins. -/
def globalUnits : Prop :=
  ∀ (s : State) (c : Ctx) (cid : Nat) (e : Eng) (k : Cmd), Live s cid c → c.leaving = false → e ≠ .mx → MayMove c e k →
    let port : Nat := if e = .inb then 0 else 2
    let acc : BitVec 3 := if taking k.word then 2 else 0
    let near (t : State) (pa n : Nat) : Prop :=
      ∀ i < n, t.homeDie ((pa + i) / 8 * 8) < 3 ∧ t.homeDie (pa + i) < 3 ∧ t.outside (pa + i) = false
    let grans (pa n : Nat) : List Nat := ((List.range n).map (fun i => (pa + i) / 64)).eraseDups
    (∀ a tsp b n s1 va pa s2, globalPlan k = some (.global, a, tsp, b, n) → tsp ≠ .global →
      s.reach c (some port) (if taking k.word then .both else .read) [] (splitPieces (BitVec.ofNat 64 a) 2 n) = .ok s1 [(va, pa, n)] →
      near s1 pa n → (∀ i < n, s1.dram.unit 64 (pa + i) = .present ∧ (memOf c tsp).unit 2 (b + i) ≠ .lost) →
      s1.bulkTests c k.once acc [(va, pa, n)] [] = .ok s2 → s2.ctx cid = some c →
      (taking k.word = true → s2.writeHeld (some c) (grans pa n) = false) →
      Moves s cid e k (fun t d => (taking k.word = false → t.dram = s2.dram) ∧ ∀ i < n,
        (memOf d tsp).byte (b + i) = s1.dram.byte (pa + i) ∧ (memOf d tsp).unit 2 (b + i) = .present ∧
        (taking k.word = true → t.dram.byte (pa + i) = 0))) ∧
    (∀ fsp a b n s1 va pa s2, globalPlan k = some (fsp, a, .global, b, n) → fsp ≠ .global →
      s.reach c (some (port + 1)) .write [] (splitPieces (BitVec.ofNat 64 b) 2 n) = .ok s1 [(va, pa, n)] → near s1 pa n →
      (∀ i < n, (memOf c fsp).unit 2 (a + i) = .present) →
      s1.bulkTests c k.once acc [] [(va, pa, n)] = .ok s2 → s2.ctx cid = some c → near s2 pa n →
      s2.writeHeld (some c) (grans pa n) = false → (∀ i < n, s2.dram.unit 64 (pa + i) ≠ .lost) → s2.dram.gone = [] →
      Moves s cid e k (fun t d =>
        (∀ i < n, t.dram.byte (pa + i) = (memOf c fsp).byte (a + i) ∧ t.dram.unit 64 (pa + i) = .present ∧
          (memOf d fsp).byte (a + i) = if taking k.word then 0 else (memOf c fsp).byte (a + i)) ∧
        ∀ x, (∀ i < n, x / 64 ≠ (pa + i) / 64) → t.dram.byte x = s2.dram.byte x)) ∧
    (∀ h f s1 va pa s2, k.word = .zfil h f → f.tsp = .global → 2 * k.dc < k.len →
      let n := min 2 (k.len - 2 * k.dc)
      s.reach c (some (port + 1)) .write [] (splitPieces (BitVec.ofNat 64 (k.dst + 2 * k.dc)) 2 n) = .ok s1 [(va, pa, n)] →
      s1.bulkTests c k.once 0 [] [(va, pa, n)] = .ok s2 → s2.ctx cid = some c → near s2 pa n →
      s2.writeHeld (some c) (grans pa n) = false → s2.dram.gone = [] → (∀ i < n, s2.dram.unit 64 (pa + i) ≠ .lost) →
      Moves s cid e k (fun t _ => (∀ i < n, t.dram.byte (pa + i) = 0 ∧ t.dram.unit 64 (pa + i) = .present) ∧
        ∀ x, (∀ i < n, x / 64 ≠ (pa + i) / 64) → t.dram.byte x = s2.dram.byte x)) ∧
    (∀ h f (dup : Bool), k.word = .gthr h f dup ∨ k.word = .sctr h f dup →
      let u := (k.len + 1) / 2
      let a := (if k.word = .gthr h f dup then k.src else k.dst) + 8 * (k.dc / u)
      k.dc < k.arg * u → k.list.length ≤ k.dc / u → (∀ i < 8, c.sp.unit 2 (a + i) = .present) →
      exec (.copyUnit cid e) s = .next (s.setCtx (withChan c e { chanOf c e with
        active := some { k with list := k.list ++ [natOfBytes ((List.range 8).map (fun i => c.sp.byte (a + i)))] } })))

/-- A block of RQNT (R434): its scale and its codes, for the exact values `xs` of the master in order. -/
def BlockOf (ty : Fmt) (xs : List Num) (sc : Nat) (qs : List Nat) : Prop :=
  let top : Nat := if ty = .e4m3 then 448 else if ty = .e5m2 then 57344 else 127
  let within (x : Num) (n : Nat) : Prop := (Num.fin false top ((n : Int) - 127)).lt x.abs = false
  let scaled (x : Num) : Num := match x with
    | .fin neg m e => .fin neg m (e + 127 - sc)
    | y => y
  let bad : Prop := ∃ x ∈ xs, x.nonFinite = true
  let zero : Prop := ∀ x ∈ xs, ∃ neg e, x = .fin neg 0 e
  qs.length = xs.length ∧
  (bad → sc = 0xFF ∧ ∀ q ∈ qs, q = if ty = .i8 then 0 else if ty = .e4m3 then 0x7F else 0x7E) ∧
  (¬ bad → zero → sc = 127 ∧ ∀ q ∈ qs, q = 0) ∧
  (¬ bad → ¬ zero → (∀ n < sc, ∃ x ∈ xs, ¬ within x n) ∧ sc ≤ 254 ∧ (sc < 254 → ∀ x ∈ xs, within x sc) ∧
    ∀ (j : Nat) (x : Num) (q : Nat), xs[j]? = some x → qs[j]? = some q →
      let neg := (scaled x).lt (.fin false 0 0)
      (within (scaled x) 127 → q = (ty.ofNum .rne 0 (scaled x)).1) ∧
      (¬ within (scaled x) 127 → q = if ty = .i8 then (if neg then 129 else 127)
        else (if neg then 128 else 0) + (if ty = .e4m3 then 0x7E else 0x7B)))

/-- The unit of RQNT (R434, R435): block `b` of the target's row `y` has the 32 master elements of column `y` from row `32·b` on; its
codes go to the target and its scale to the scale array, in one write. -/
def requantUnits : Prop :=
  ∀ (s : State) (c : Ctx) (cid : Nat) (e : Eng) (k : Cmd) (h : Hd) (f : CopyF), Live s cid c → c.leaving = false → e ≠ .mx →
    MayMove c e k → k.word = .rqnt h f → ∀ rm rt, k.list = [rm, rt] →
    let m := Shape.ofRec (BitVec.ofNat 512 rm)
    let t := Shape.ofRec (BitVec.ofNat 512 rt)
    k.dc < t.n1 * (t.n0 / 32) → ∀ ty mty, Fmt.ofCode t.fmt = some ty → Fmt.ofCode m.fmt = some mty →
    ty = .e4m3 ∨ ty = .e5m2 ∨ ty = .i8 → mty = .fp32 ∨ mty = .fp16 ∨ mty = .bf16 → m.accf ≠ 3 →
    let y := k.dc / (t.n0 / 32)
    let b := k.dc % (t.n0 / 32)
    let w := mty.bits / 8
    let port : Nat := if e = .inb then 0 else 2
    let dest := (List.range 32).map (fun i => t.addr 1 (32 * b + i) y 0 0) ++ [t.promo + y * (t.n0 / 32) + b]
    let near (u : State) (ps : List Piece) : Prop := ∀ p ∈ ps, ∀ i < p.2.2,
      u.homeDie ((p.2.1 + i) / 8 * 8) < 3 ∧ u.homeDie (p.2.1 + i) < 3
    ∀ s1 s2 s3 src dst,
      s.reach c (some port) .read [] ((List.range 32).flatMap (fun i =>
        splitPieces (BitVec.ofNat 64 (m.addr w y (32 * b + i) 0 0)) 2 w)) = .ok s1 src →
      s1.reach c (some (port + 1)) .write [] (dest.map (fun a => (BitVec.ofNat 64 a, 1))) = .ok s2 dst → near s2 src →
      (∀ p ∈ src, ∀ i < p.2.2, s2.dram.unit 64 (p.2.1 + i) = .present) →
      s2.bulkTests c k.once 0 src dst = .ok s3 → s3.ctx cid = some c → near s3 dst →
      s3.writeHeld (some c) ((dst.map (fun p => p.2.1 / 64)).eraseDups) = false →
      let bytes := src.flatMap (fun p => (List.range p.2.2).map (fun i => s2.dram.byte (p.2.1 + i)))
      let xs := (List.range 32).map (fun i => mty.num (natOfBytes ((bytes.drop (w * i)).take w)))
      ∃ sc qs, BlockOf ty xs sc qs ∧ Moves s cid e k (fun u _ => u.dram = s3.dram.store 64 64
        (((dst.map (fun p => p.2.1)).zip ((qs ++ [sc]).map (BitVec.ofNat 8))).filter (fun z => !s3.outside z.1)))

end Sys2Proof.Claims

/-- The copy engine: its channels and their commands' units (R66, R69, R170, R171, R184, R220, R303, R365, R386, R434, R438, R491,
R494). -/
def Obligations.CopyEngineSteps : Prop := Claims.channelSteps ∧ Claims.localUnits ∧ Claims.globalUnits ∧ Claims.requantUnits

namespace Sys2Proof.Claims
open Sys2Proof.Machine

/-- The integer that finite values add to an element on the grid 2^e, each rounded to it (R146). -/
def onGrid (e : Int) (ps : List Num) : Int :=
  (ps.map (fun p => match p with
    | .fin neg m k => roundNe (if neg then -(m : Int) else m) (k - e)
    | _ => 0)).sum

/-- The class of an element after a word: its own, unless the word overwrites it, with those of the word's products (R145, R146). -/
def classAfter (ovw : Bool) (old : BitVec 48) (ps : List Num) : Num :=
  (if ovw then .fin false 0 0 else elClass old).add .rne ((ps.filter Num.nonFinite).foldl (Num.add .rne) (.fin false 0 0))

/-- N of an element after a word, before saturation (R146). -/
def numberAfter (ovw : Bool) (old : BitVec 48) (e : Int) (ps : List Num) : Int := (if ovw then 0 else elN old) + onGrid e ps

/-- `new` is `old` with the products `ps` added on the grid 2^e (R144, R146). -/
def Accumulated (ovw : Bool) (old new : BitVec 48) (e : Int) (ps : List Num) : Prop :=
  let n := numberAfter ovw old e ps
  ((classAfter ovw old ps).nonFinite = true → elClass new = classAfter ovw old ps ∧ elN new = 0) ∧
  ((classAfter ovw old ps).nonFinite = false → elFinite new = true ∧ elN new = max (1 - 2 ^ 45) (min (2 ^ 45 - 1) n))

/-- A block partial with one more block added (R151, R152): `p` is the block's exact sum, `bad` that a product is not finite. -/
def blockAdded (old : BitVec 48) (p : Int) (bad : Bool) : BitVec 48 :=
  if bad ∨ old = 1#1 ++ 0#47 then 1#1 ++ 0#47
  else BitVec.ofInt 48 (max (1 - 2 ^ 47) (min (2 ^ 47 - 1) (old.toInt + p)))

/-- The longest |N| of the finite elements of a row (R149). -/
def longest (row : Nat → BitVec 48) : Nat :=
  ((List.range 64).filter (fun j => elFinite (row j))).foldl (fun m j => max m (bitLen (elN (row j)))) 0

/-- A row whose finite elements are divided by 2^sh (R149). -/
def divided (sh : Int) (row : Nat → BitVec 48) (j : Nat) : BitVec 48 :=
  if elFinite (row j) then elOf (roundNe (elN (row j)) (-sh)) else row j

/-- An element as ACVT gives it, with its flags (R150). -/
def converted (f : MxF) (t : Tile) (i j : Nat) : Nat × Flags :=
  f.af.ofNum f.rnd 0 (if elFinite (t.el i j) then Num.ofInt (elN (t.el i j)) (t.exp i) else elClass (t.el i j))

/-- The array's word passes its checks and retires; `k` holds of its context after it. -/
def Retires (s : State) (c : Ctx) (cid : Nat) (k : Ctx → Prop) : Prop :=
  ∃ t d, exec (.matrixWordRetire cid .pass) s = .next t ∧ t.ctx cid = some d ∧ d.mx.active = none ∧
    d.mx.retired = c.mx.retired + 1 ∧ t.dram = s.dram ∧ d.m = c.m ∧ (∀ q, d.seqr q = c.seqr q) ∧ k d

/-- What a matrix word gives its tile (R143 to R155, R404, R409 to R411, R418, R436, R437, R442, R355): a tile step and SCA add their
products to each element, MMAB its blocks to the block partials, NRM renormalises each row, SETX sets the row exponents, and ALD loads an
image; of the flags, NF comes with an element that is not finite, OV with a saturation. No other tile changes. -/
def matrixValues : Prop :=
  ∀ (s : State) (c : Ctx) (cid : Nat) (x : MCmd), Live s cid c → Safety.Keyed s → c.mx.active = some x → x.cancel = false →
    (∀ d, x.due = some d → d ≤ c.t) → c.flight = [] → c.mx.shadow = none → x.exps = [] →
    let r := c.mxRead x
    let t0 := c.tile x.f.acc
    let kx := if x.op = .mmas then (if x.f.af.bits = 16 then 256 else 512) else if x.f.af.bits = 16 then 128 else 256
    let prods (i j lo n : Nat) : List Num := (List.range n).map (fun k => mxProd x.op x.f r i j (lo + k))
    let whole : Prop := ∀ o ∈ mxOpnds x.op x.f x.da x.dm, c.opFirst .vacated o = none ∧ c.opFirst .lost o = none
    let frame (d : Ctx) : Prop :=
      (∀ k, k ≠ x.f.acc → d.tile k = c.tile k) ∧ d.v = c.v ∧ d.sp = c.sp ∧ d.can = c.can
    let flags (d : Ctx) (nf ov : Prop) : Prop := whole →
      (d.sticky.getLsbD 0 = true ↔ c.sticky.getLsbD 0 = true ∨ nf) ∧ (d.sticky.getLsbD 1 = true ↔ c.sticky.getLsbD 1 = true ∨ ov) ∧
      ∀ j, 2 ≤ j → d.sticky.getLsbD j = c.sticky.getLsbD j
    let added (ps : Nat → Nat → List Num) : Prop := Retires s c cid (fun d =>
      frame d ∧ d.bp = c.bp ∧ (d.tile x.f.acc).exps = t0.exps ∧
      (∀ i < 64, ∀ j < 64, Accumulated x.f.ovw (t0.el i j) ((d.tile x.f.acc).el i j) (t0.exp i) (ps i j)) ∧
      flags d (∃ i < 64, ∃ j < 64, (classAfter x.f.ovw (t0.el i j) (ps i j)).nonFinite = true)
        (∃ i < 64, ∃ j < 64, (classAfter x.f.ovw (t0.el i j) (ps i j)).nonFinite = false ∧
          2 ^ 45 ≤ (numberAfter x.f.ovw (t0.el i j) (t0.exp i) (ps i j)).natAbs))
    let g := lsbExp x.f.af + lsbExp x.f.bf
    (x.op = .mma ∨ x.op = .mmas ∨ x.op = .mmts → added (fun i j => prods i j 0 (x.f.ks.toNat * kx))) ∧
    (x.op = .sca → added (fun i j => (List.range x.f.ks.toNat).map (fun b =>
      let p := (c.bpTile ((x.f.bpb.toNat + b) % 8)).el i j
      let rs := r.a (64 * b + i)
      let cs := r.m (64 * b + j)
      if p = 1#1 ++ 0#47 ∨ rs = 0xFF ∨ cs = 0xFF then Num.nan else Num.ofInt p.toInt (g + ((rs : Int) - 127) + ((cs : Int) - 127))))) ∧
    (x.op = .mmab → Retires s c cid (fun d => d.acc = c.acc ∧ d.v = c.v ∧ d.sp = c.sp ∧ d.can = c.can ∧
      ∀ n < 8,
        let blocks := (List.range (x.f.ks.toNat * kx / 32)).filter (fun b => (x.f.bpb.toNat + b) % 8 = n)
        (blocks = [] → d.bpTile n = c.bpTile n) ∧
        (blocks ≠ [] → ∀ i < 64, ∀ j < 64, (d.bpTile n).el i j = blocks.foldl (fun old b =>
            blockAdded old (onGrid g (prods i j (32 * b) 32)) ((prods i j (32 * b) 32).any Num.nonFinite))
          (if x.f.ovw then 0 else (c.bpTile n).el i j)))) ∧
    (x.op = .nrm → Retires s c cid (fun d => frame d ∧ d.bp = c.bp ∧ ∀ i < 64,
      let row := t0.el i
      let e := t0.exp i
      let m := longest row
      let sh := max (-32768 - e) (min ((m : Int) - 38) (32767 - e))
      let one := divided sh row
      let again : Prop := longest one = 39 ∧ e + sh < 32767
      (m = 0 → (∀ j < 64, (d.tile x.f.acc).el i j = row j) ∧ (d.tile x.f.acc).exp i = e) ∧
      (m ≠ 0 → ¬ again → (∀ j < 64, (d.tile x.f.acc).el i j = one j) ∧ (d.tile x.f.acc).exp i = e + sh) ∧
      (m ≠ 0 → again → (∀ j < 64, (d.tile x.f.acc).el i j = divided 1 one j) ∧ (d.tile x.f.acc).exp i = e + sh + 1) ∧
      (m ≠ 0 → 38 < longest ((d.tile x.f.acc).el i) → d.sticky.getLsbD 1 = true))) ∧
    (x.op = .setx → Retires s c cid (fun d => frame d ∧ d.bp = c.bp ∧ (d.tile x.f.acc).elems = t0.elems ∧ flags d False False ∧
      ∀ i < 64, (d.tile x.f.acc).exps.get 0 i = if x.f.xsel then x.f.imm else BitVec.ofNat 16 (r.a i))) ∧
    (x.op = .ald → Retires s c cid (fun d => frame d ∧ d.bp = c.bp ∧
      (∀ i < 64, (d.tile x.f.acc).exps.get 0 i = BitVec.ofNat 16 (r.a (4096 + i))) ∧
      ∀ i < 64, ∀ j < 64,
        let v := BitVec.ofNat 48 (r.a (64 * i + j))
        (d.tile x.f.acc).el i j = if elFinite v then v else v.extractLsb' 46 2 ++ 0#46))

/-- What AST and ACVT write (R150, R181, R351, R352, R355): AST the image of its tile, ACVT the converted elements to its stream or its
vector registers, the later element where several map to one place; the tiles stay. (ACVT here: forked, or moved up from the shadow set
with none of its rows in flight.) -/
def tileReaders : Prop :=
  ∀ (s : State) (c : Ctx) (cid : Nat) (x : MCmd), Live s cid c → Safety.Keyed s → c.mx.active = some x → x.cancel = false →
    (∀ d, x.due = some d → d ≤ c.t) → c.flight = [] → c.mx.shadow = none → Safety.LocalWhole c →
    let t0 := c.tile x.f.acc
    let place (k : Nat) : Int := stAddr x.da x.f.aoff.toNat k
    let mem (d : Ctx) : Mem := if stSpace x.da = .can then d.can else d.sp
    let fits (n w : Nat) : Prop := ∀ k < n, 0 ≤ place k ∧ place k + w ≤ 0x800000 ∧
      ∀ b < w, (mem c).unit 2 ((place k).toNat + b) ≠ .lost
    let written (d : Ctx) (n w : Nat) (v : Nat → Nat) : Prop :=
      (∀ k < n, ∀ b < w, (∀ k' < n, k < k' → place k + b < place k' ∨ place k' + w ≤ place k + b) →
        (mem d).byte ((place k).toNat + b) = BitVec.ofNat 8 (v k / 2 ^ (8 * b))) ∧
      (∀ a : Nat, (∀ k < n, (a : Int) + 2 ≤ place k / 2 * 2 ∨ place k + w + 1 ≤ (a : Int)) → (mem d).byte a = (mem c).byte a)
    let kept (d : Ctx) : Prop := d.acc = c.acc ∧ d.bp = c.bp
    (x.op = .ast → fits 4160 6 → Retires s c cid (fun d => kept d ∧ d.v = c.v ∧ written d 4160 6 (fun k =>
      if k < 4096 then (t0.elems.get 0 k).toNat else (t0.exps.get 0 (k - 4096)).toNat))) ∧
    (x.op = .acvt → x.rows = false → x.f.xsel = false → fits 4096 (x.f.af.bits / 8) → Retires s c cid (fun d =>
      kept d ∧ d.v = c.v ∧ written d 4096 (x.f.af.bits / 8) (fun k => (converted x.f t0 (k / 64) (k % 64)).1))) ∧
    (x.op = .acvt → x.rows = false → x.f.xsel = true → Retires s c cid (fun d => kept d ∧ d.sp = c.sp ∧ d.can = c.can ∧
      let n := x.f.imm.toNat
      let lane (w m j : Nat) : Nat := (d.vreg (BitVec.ofNat 5 m)).toNat / 2 ^ (w * j) % 2 ^ w
      (∀ m < 32, m < n → d.vreg (BitVec.ofNat 5 m) = c.vreg (BitVec.ofNat 5 m)) ∧
      (x.f.af.bits = 16 → ∀ i, n + i ≤ 31 → ∀ j < 64, lane 16 (n + i) j = (converted x.f t0 i j).1 % 2 ^ 16) ∧
      (x.f.af.bits = 32 → ∀ i, n + 2 * i + 1 ≤ 31 → ∀ j < 64,
        lane 32 (n + 2 * i + j / 32) (j % 32) = (converted x.f t0 i j).1 % 2 ^ 32)))

end Sys2Proof.Claims

/-- R56, R66, R144, R200, R281, R282, R318, R350, R406: the matrix array takes its shadow word up when it is idle; a word stays in it
until its schedule cycle has come (a schedule that stands still holds nothing back, log 32), and while its core is stopped; a word
that passes its checks retires, signals, and the next word moves up; after ACLR every element of its tile is finite zero, every row
exponent is the immediate, the window starts with that tile, and no other tile, register or memory changes. (A word acts in one step, at its
retirement: log 46.) -/
def Sys2Proof.Claims.arrayOrder : Prop :=
  (∀ (s : State) (c : Ctx) (cid : Nat) (check : MxCheck), s.ctx cid = some c → c.stat = .stopped →
    exec (.matrixWordRetire cid check) s = .next s) ∧
  ∀ (s : State) (c : Ctx) (cid : Nat), Live s cid c → Safety.Keyed s →
    ((s.allCtxs.filter (fun k => k.core == c.core)).flatMap Ctx.retained).length ≤ 32 →
    (∀ x, c.mx.active = none → c.mx.shadow = some x → c.leaving = false → (c.joined = false ∨ x.op ≠ .acvt ∨ x.cancel = true) →
      ∃ due, exec (.engineCommandStart cid .mx) s =
          .next (s.setCtx { c with mx := { c.mx with active := some { x with due := due }, shadow := none } }) ∧
        (c.joined = false ∨ x.cancel = true → due = none) ∧
        (c.joined = true → x.cancel = false → (x.op = .nrm → due = some (c.t + 6)) ∧
          (x.op = .mma ∨ x.op = .mmas ∨ x.op = .mmts ∨ x.op = .mmab →
            due = some (c.t + 64 * x.f.ks.toNat * (if x.f.redun then 2 else 1))))) ∧
    (∀ x check d, c.mx.active = some x → c.joined = true → x.due = some d → c.t < d → s.last ≠ .stalled →
      exec (.matrixWordRetire cid check) s = .next s) ∧
    (∀ x, c.mx.active = some x → x.cancel = true → (∀ d, x.due = some d → d ≤ c.t) → c.flight = [] → c.mx.shadow = none →
      exec (.matrixWordRetire cid .pass) s = .next ((s.setCore c.core ((s.core c.core).bump 0x218 0)).setCtx
        ({ c with mx := { c.mx with active := none, retired := c.mx.retired + 1 } }.sigField x.sig))) ∧
    (∀ x, c.mx.active = some x → x.op = .aclr → x.cancel = false → (∀ d, x.due = some d → d ≤ c.t) → c.flight = [] →
      c.mx.shadow = none →
      ∃ t d, exec (.matrixWordRetire cid .pass) s = .next t ∧ t.ctx cid = some d ∧ d.mx.active = none ∧
        d.mx.retired = c.mx.retired + 1 ∧ (x.sig ≠ 0xFF → (c.sem x.sig).toNat < 0xFFFFF →
          (d.sem x.sig).toNat = (c.sem x.sig).toNat + 1) ∧
        (∀ i < 64, ∀ j < 64, (d.tile x.f.acc).elems.get 0 (64 * i + j) = 0) ∧
        (∀ i < 64, (d.tile x.f.acc).exps.get 0 i = x.f.imm) ∧
        (∀ k, k ≠ x.f.acc → d.tile k = c.tile k) ∧ d.bp = c.bp ∧ d.v = c.v ∧ d.m = c.m ∧ d.sp = c.sp ∧ d.can = c.can ∧
        d.sticky = c.sticky ∧ (d.wins.find x.f.acc.toNat).map (fun w => w.snap) = some (d.tile x.f.acc) ∧
        t.dram = s.dram ∧ ∀ n, n ≠ cid → t.ctx n = s.ctx n)

/-- The matrix array: its order, and what each word gives (R66, R143 to R155, R281, R350 to R356, R404 to R411, R418, R437, R442; a word
acts in one step, at its retirement: log 46). -/
def Obligations.MatrixArraySteps : Prop := Claims.arrayOrder ∧ Claims.matrixValues ∧ Claims.tileReaders

/-! ## Legs, barriers, members, launches -/

namespace Sys2Proof.Claims
open Sys2Proof.Machine

/-- The combined operand of a barrier over the operands in logical-index order (R29). -/
def combined (op : BarOp) (vs : List Word) : Word := vs.foldl (barOp op) (barUnit op)

/-- What a member holds after its barrier (R27, R29, R35, R361); a schedule-cycle stop holds its operand back (R318). -/
def Passed (comm : Bool) (v : Word) (m d : Ctx) : Prop :=
  (m.stat = .stopped → d.pend = m.pend ∧ d.back = some (v.setWidth 64) ∧ d.ctl = m.ctl) ∧
  (m.stat ≠ .stopped → d.pend = none ∧ d.back = none ∧
    ∀ i n k o w r, m.pend = some (.barrier i n k o w r) → r ≠ 0 → d.ctl.reg r = v) ∧
  d.phase = !comm ∧ d.sup = (if comm then m.sup + 1 else m.sup) ∧ d.legno = 0 ∧ d.listed = [] ∧ d.listOv = false ∧
    d.v = m.v ∧ d.sp = m.sp ∧ d.can = m.can ∧
    d.sems = m.sems ∧ d.flight = m.flight ∧ d.ctl.pc = m.ctl.pc ∧ d.load = m.load ∧ d.store = m.store

/-- A launch of this state has ended with a status: what its queue owes, or what its LNCH unit keeps (R256, R258). -/
def Ended (s t : State) (l : Launch) (status : BitVec 8) : Prop :=
  (∀ k, t.launch l.lid = some k → k.stat = .done status) ∧
  (l.src < 0x1000 → (t.queue l.src).waits = (s.queue l.src).waits ++
    [{ hseq := l.record.hseq, status := status, lid := l.lid
       cyc := match l.began with
         | some x => s.cycle - x
         | none => 0 }]) ∧
  (0x1000 ≤ l.src → ((t.core (l.src - 0xF000)).lnchDone).head? = some (l.lid, status)) ∧ t.dram = s.dram

end Sys2Proof.Claims

namespace Sys2Proof.Claims
open Sys2Proof.Machine

/-- A member restored to the start of its leg `l`, whose checkpoint is `k` (R216): the control sequencer, its results in flight, LEGNO and
barrier count are those of the leg's start, its buffer and read signature and every later leg are gone; in joined mode the control sequencer
then runs alone up to where it was (log 20). Nothing else of the member changes. -/
def Restored (c : Ctx) (l : Leg) (k : Checkpoint) (d : Ctx) : Prop :=
  d.leg = some { l with count := 0, preset := none, buf := [], grans := [], reads := [], log := [], held := 0, atomic := none,
                        pinned := false } ∧
  d.ctl = k.seqr ∧ d.legno = l.legno ∧ d.bars = k.bars ∧ d.legs = l.no ∧ d.ended = c.ended.filter (fun e => e.no < l.no) ∧
  d.flight = c.flight.filter (fun f => f.sq != .ctl) ++ k.flights ∧
  (c.joined = true → d.t = k.t ∧ d.replay = c.t + c.replay - k.t) ∧ (c.joined = false → d.t = c.t ∧ d.replay = 0) ∧
  d.pend = none ∧ d.again = false ∧ d.back = none ∧ d.waitm = none ∧ d.hold = none ∧ d.want = false ∧ d.halting = false ∧
  d = { c with leg := d.leg, ctl := d.ctl, legno := d.legno, bars := d.bars, legs := d.legs, ended := d.ended, flight := d.flight, t := d.t
               replay := d.replay, pend := none, again := false, back := none, waitm := none, hold := none, want := false, halting := false }

/-- Leg `l` is the first exposed one of its context that has read one of the granules; `k` is its checkpoint. -/
def FirstHit (s : State) (gs : List Nat) (c : Ctx) (l : Leg) (k : Checkpoint) : Prop :=
  l.check = some k ∧ s.exposed c l = true ∧ (∃ g ∈ l.reads, g ∈ gs) ∧ ∃ a b, c.ended ++ c.leg.toList = a ++ l :: b ∧
    ∀ e ∈ a, s.exposed c e = true → ∀ g ∈ e.reads, g ∉ gs

/-- No exposed leg of a context has read one of the granules. -/
def Unhit (s : State) (gs : List Nat) (c : Ctx) : Prop :=
  ∀ l ∈ c.ended ++ c.leg.toList, s.exposed c l = true → ∀ g ∈ l.reads, g ∉ gs

/-- LEGREPLAY of a core rises by one (R314). -/
def Replays (s t : State) (p : Nat) : Prop :=
  ((t.core p).dbg.get 0 0x208).toNat = (((s.core p).dbg.get 0 0x208).toNat + 1) % 2 ^ 48

/-- R216, R217: a write to granules squashes the first exposed leg of a member that has read one of them, and with it the member's later
legs; it leaves safe legs, and a machine none of whose exposed legs has read them, as they are. The store of a leg that commits is such a
write. -/
def squashes : Prop :=
  (∀ (s : State) (gs : List Nat), (∀ x ∈ s.allCtxs, Unhit s gs x) → s.squash gs = s) ∧
  (∀ (s : State) (gs : List Nat) (c : Ctx) (l : Leg) (k : Checkpoint), Safety.Keyed s → s.ctx c.cid = some c → FirstHit s gs c l k →
    (∀ x ∈ s.allCtxs, x.cid ≠ c.cid → Unhit s gs x) → ∃ d, (s.squash gs).ctx c.cid = some d ∧ Restored c l k d ∧
      Replays s (s.squash gs) c.core ∧ (s.squash gs).dram = s.dram ∧ ∀ n, n ≠ c.cid → (s.squash gs).ctx n = s.ctx n) ∧
  (∀ (s : State) (w c : Ctx) (e l : Leg) (r : List Leg) (bs : List (Nat × Byte)) (k : Checkpoint), Safety.Keyed s → s.ctx w.cid = some w →
    s.ctx c.cid = some c → c.cid ≠ w.cid → w.ended = e :: r → s.mayCommit w e = true → e.atomic = none → e.log = [.store bs] →
    (∀ q ∈ s.reds, q.kind ≠ 2) → (∀ p ∈ bs, s.homeDie p.1 < 3) → bs ≠ [] →
    let gs := (bs.map (fun p => p.1 / 64)).eraseDups
    FirstHit s gs c l k → (∀ x ∈ s.allCtxs, x.cid ≠ c.cid → Unhit s gs x) →
    ∃ t d, exec (.legCommit w.cid) s = .next t ∧ t.ctx c.cid = some d ∧ Restored c l k d ∧ Replays s t c.core)

end Sys2Proof.Claims

/-- R32, R35, R213, R214, R215, R216, R217: a leg of 2,048 words ends; the queue's head is pinned; the oldest ended leg, once it may
commit, leaves its context, and its stores become visible, each byte at its address, in one step, and its reductions of REDO leave
for their home. A leg that may not commit yet stays. -/
def Sys2Proof.Claims.legOrder : Prop :=
  ∀ (s : State) (c : Ctx) (cid : Nat), s.ctx cid = some c → c.cid = cid →
    (∀ l, c.leg = some l → 2048 ≤ l.count → c.isTask = false → exec (.legCountEnd cid) s = .next (s.keep
      { c with leg := none, want := false, legs := c.legs + 1, ended := c.ended ++ [{ l with atomic := none }]
               legno := if c.isHandler then c.legno else c.legno + 1 })) ∧
    ((∀ l, c.leg = some l → l.count < 2048) → exec (.legCountEnd cid) s = .next s) ∧
    (∀ no r, s.innq = (cid, no) :: r → ∃ d, exec .legPin s = .next (s.setCtx d) ∧
      d = { c with leg := d.leg, ended := d.ended } ∧
      (∀ l, c.leg = some l → d.leg = some (if l.no = no then { l with pinned := true } else l)) ∧
      d.ended = c.ended.map (fun l => if l.no = no then { l with pinned := true } else l)) ∧
    (∀ l r, c.ended = l :: r → s.mayCommit c l = false → exec (.legCommit cid) s = .next s) ∧
    (∀ l r bs, c.ended = l :: r → s.mayCommit c l = true → l.atomic = none → l.log = [.store bs] →
      (∀ q ∈ s.reds, q.kind ≠ 2) → (∀ p ∈ bs, s.homeDie p.1 < 3) → bs ≠ [] →
      ∃ t d, exec (.legCommit cid) s = .next t ∧ t.dram = s.dram.store 64 64 (bs.filter (fun p => !s.outside p.1)) ∧ t.ctx cid = some d ∧
        (∀ e ∈ d.ended, e.no ≠ l.no) ∧ t.launches = s.launches ∧ t.reds = s.reds ∧ t.innq ⊆ s.innq ∧
        (∀ g, (∀ p ∈ bs, p.1 / 64 ≠ g) → t.stamps.get 0xFFFF g = s.stamps.get 0xFFFF g) ∧
        (∀ p ∈ bs, s.outside p.1 = false → t.stamps.get 0xFFFF (p.1 / 64) = l.sup.extractLsb' 0 8 ++ l.legno.extractLsb' 0 8) ∧
        (∀ p ∈ bs, t.written.get false (p.1 / 64) = true)) ∧
    (∀ l r x, c.ended = l :: r → s.mayCommit c l = true → l.atomic = none → l.log = [.redo x] →
      s.homeDie x.pa = dieOf x.core → ∃ t, exec (.legCommit cid) s = .next t ∧ t.dram = s.dram ∧ t.reds = s.reds ++ [x] ∧
        ∃ d, t.ctx cid = some d ∧ ∀ e ∈ d.ended, e.no ≠ l.no) ∧
    (∀ l r, Safety.Keyed s → c.ended = l :: r → s.mayCommit c l = true → l.atomic = none → l.log = [] →
      exec (.legCommit cid) s = .next { s.setCtx { c with ended := c.ended.filter (fun e => e.no != l.no),
                                                          sticky := c.sticky ||| l.held } with
        innq := s.innq.filter (fun q => !(q.1 == cid && q.2 == l.no)) })

/-- Legs: how they end and commit (R32, R35, R213 to R215), and their squash (R216, R217). -/
def Obligations.LegSteps : Prop := Claims.legOrder ∧ Claims.squashes

/-- R28, R29, R45, R221, R248, R249, R361: when every member that has not retired stands at the same barrier with the same .comm and operation, and
no leg, reduction, XFER or task is left, all pass it with the combined operand; where they disagree each member traps PHASE, one that does
not run as it runs again (R497), and arrives anew; a member
whose HALT has issued and whose work is over retires; a company whose members have all retired completes with status 0. -/
def Obligations.BarriersAndRetirement : Prop :=
  (∀ (s : State) (lid : BitVec 48) (n : Nat) (comm : Bool) (op : BarOp), let ms := s.membersOf lid
    ms ≠ [] → (∀ m ∈ ms, s.ctx m.cid = some m) → (ms.map (fun m => m.cid)).Nodup →
    (∀ m ∈ ms, ∃ v, m.atBarrier = some (n, comm, op, v)) → s.barrierReady lid ms comm = true →
    let v := combined op (ms.map (fun m => match m.atBarrier with
      | some (_, _, _, w) => w
      | none => 0))
    ∃ t, exec (.barrierComplete lid) s = .next t ∧ t.dram = s.dram ∧
      (∀ m ∈ ms, ∃ d, t.ctx m.cid = some d ∧ Passed comm v m d) ∧ ∀ k, (∀ m ∈ ms, m.cid ≠ k) → t.ctx k = s.ctx k) ∧
  (∀ (s : State) (lid : BitVec 48) (n : Nat) (m : Ctx) (r : List Ctx) (a b : Bool × BarOp), s.membersOf lid = m :: r →
    (∀ x ∈ m :: r, x.atBarrier.map (fun k => k.1) = some n) →
    (∃ x ∈ m :: r, ∃ y ∈ m :: r, x.atBarrier.map (fun k => (k.2.1, k.2.2.1)) = some a ∧
      y.atBarrier.map (fun k => (k.2.1, k.2.2.1)) = some b ∧ a ≠ b) →
    exec (.barrierComplete lid) s = .next (s.failBarrier (m :: r))) ∧
  (∀ (s : State) (m : Ctx) (i : Nat) (v : Word) (d : BitVec 5) (n : Nat) (k : Bool) (op : BarOp),
    m.pend = some (.barrier i n k op v d) →
    (m.stat = .running → s.failBarrier [m] = s.suspend { m with again := true } .ctl false (some i) (mkTrap 0x04 0)) ∧
    (m.stat ≠ .running → s.failBarrier [m] = s.setCtx { m with again := true })) ∧
  (∀ (s : State) (lid : BitVec 48) (x : Ctx), x ∈ s.membersOf lid → x.failed = true →
    exec (.barrierComplete lid) s = .next (s.failBarrier ((s.membersOf lid).filter Ctx.failed))) ∧
  (∀ (s : State) (c : Ctx) (l : Launch), s.ctx c.cid = some c → s.launch c.lid = some l → c.stat = .running → c.halting = true →
    c.idleEngines = true → c.leg = none → c.ended = [] → c.pend = none → c.impr = [] → s.unapplied c = false →
    (∀ r ∈ s.fars, r.cid = c.cid → r.eng = 0 → r.write = false) →
    (c.kind = .regular → ∃ t, exec (.memberRetire c.cid) s = .next t ∧ t.ctx c.cid = none ∧
      t.launch c.lid = some { l with retired := l.retired ++ [c.idx] } ∧ t.dram = s.dram ∧
      ((s.core c.core).active = some c.cid → (t.core c.core).active = none) ∧ ∀ n, n ≠ c.cid → t.ctx n = s.ctx n) ∧
    (∀ k, c.kind = .task k → ∃ t d, exec (.memberRetire c.cid) s = .next t ∧ t.ctx c.cid = some d ∧ d.stat = .finished ∧
      d.decl = none ∧ d.bills = c.bills ∧ ((s.core c.core).active = some c.cid → (t.core c.core).active = none) ∧
      t.dram = s.dram)) ∧
  (∀ (s : State) (c : Ctx), s.ctx c.cid = some c → c.halting = false → exec (.memberRetire c.cid) s = .next s) ∧
  (∀ (s : State) (lid : BitVec 48) (l : Launch), s.launch lid = some l → l.stat = .running → l.retired.length = l.record.extent →
    ∃ t, exec (.launchComplete lid) s = .next t ∧ Ended s t l 0)

/-! ## Queues and the scheduler -/

namespace Sys2Proof.Claims
open Sys2Proof.Machine

/-- The queue control block of a queue: eight words at the address in QCBA (R252, R253). -/
def block (s : State) (q : Queue) (off : Nat) : BitVec 64 :=
  BitVec.ofNat 64 (natOfBytes ((List.range 8).map (fun i => s.dram.byte ((q.qcba.extractLsb' 6 46).toNat * 64 + off + i))))

/-- The scheduler stops a queue with a fault code: QST and QFC are written, the interrupt is sent (R257). -/
def Stopped (s t : State) (n : Nat) (q : Queue) (code : BitVec 8) : Prop :=
  ∃ held, t = (((s.setQueue n { q with stopped := true, held := held }).writeHome 0xFFFF
    (place ((q.qcba.extractLsb' 6 46).toNat * 64 + 0x38) [(block s q 0x38).extractLsb' 2 6 ++ 1#2, code])).sendMsi
      ((block s q 0x38).extractLsb' 32 32))

end Sys2Proof.Claims

/-- R252, R253, R254, R256, R257, R259: ENABLE binds the slot to its control block: ROOT and LTAIL are read, the horizon stands below NHSEQ, and a bad
block stops the queue; QCBA holds what was written last, and an ENABLE binds a closing slot again (log 24); a disable withdraws what has not started and the slot closes; a doorbell reads
LTAIL, and starts a stopped queue again; while no record may be taken
nothing changes; a record whose HSEQ is not NHSEQ stops the queue with code 2, and one that is advances LHEAD and NHSEQ and is accepted.
The registers are written by a hart that runs (R329). -/
def Sys2Proof.Claims.queueSteps : Prop :=
  ∀ (s : State) (n : Nat) (v : BitVec 64), n < 0x1000 →
    let q := s.queue n
    let hart := s.hartRuns
    let reg := (v &&& 0x000FFFFFFFFFFFC1) ||| 1
    let off := v &&& 0x000FFFFFFFFFFFC0
    let q1 : Queue := { q with qcba := reg, reg := reg, closing := false }
    let start (q : Queue) : Queue :=
      { q with root := block s q 0, ltail := (block s q 0x18).extractLsb' 32 32, stopped := false, held := false }
    (hart = true → s.blockHeld q1 = false → s.blockLost q1 = false → ∃ t, exec (.qcbaEnable n v) s = .next t ∧
      t.horizons.find n = some (block s q1 0x28 - 1) ∧
      (s.blockFault (start q1) = 0 → t.queue n = start q1) ∧
      (s.blockFault (start q1) ≠ 0 → (t.queue n).stopped = true ∧
        t.msis.length + t.msiOut.length = s.msis.length + s.msiOut.length + 1)) ∧
    (hart = true → s.blockHeld q1 = false → s.blockLost q1 = true → ∃ t, exec (.qcbaEnable n v) s = .next t ∧ t.horizons.find n = none ∧
      (t.queue n).stopped = true) ∧
    (hart = true → s.blockHeld q1 = true → exec (.qcbaEnable n v) s = .next s) ∧
    (hart = true → q.enabled = true → (∀ l ∈ s.launches, l.src = n → l.waits = false) → exec (.qcbaDisable n v) s =
      .next (s.setQueue n { q with qcba := q.qcba &&& ~~~1#64, reg := off, closing := true, held := false })) ∧
    (hart = true → q.enabled = false → q.closing = true → exec (.qcbaDisable n v) s = .next (s.setQueue n { q with reg := off })) ∧
    (hart = true → q.enabled = false → q.closing = false → exec (.qcbaDisable n v) s = .next (s.setQueue n { q with qcba := off, reg := off })) ∧
    (hart = true → q.enabled = true ∨ q.closing = true → s.blockHeld q = false → q.stopped = true → s.horizons.find n ≠ none →
      s.blockFault (start q) = 0 → ∃ t, exec (.qdoorWrite n) s = .next t ∧ t.queue n = start q) ∧
    (hart = true → q.enabled = true → s.blockHeld q = false → q.stopped = false → q.closing = false →
      let q3 : Queue := { q with ltail := (block s q 0x18).extractLsb' 32 32 }
      (s.blockFault q3 = 0 → exec (.qdoorWrite n) s = .next (s.setQueue n q3)) ∧
      (s.blockFault q3 ≠ 0 → ∃ t, exec (.qdoorWrite n) s = .next t ∧ Stopped s t n q3 (s.blockFault q3))) ∧
    (hart = false → exec (.qcbaEnable n v) s = .next s ∧ exec (.qcbaDisable n v) s = .next s ∧ exec (.qdoorWrite n) s = .next s) ∧
    (q.enabled = false ∨ q.stopped = true ∨ s.blockHeld q = true → exec (.launchIntake n) s = .next s) ∧
    (q.enabled = true → q.stopped = false → s.blockHeld q = false →
      (s.blockFault q ≠ 0 → ∃ t, exec (.launchIntake n) s = .next t ∧ Stopped s t n q (s.blockFault q)) ∧
      (s.blockFault q = 0 →
        let head := (block s q 0x18).extractLsb' 0 32
        (q.ltail = head ∨ 16 ≤ s.waitingOf n ∨ s.ringFull q = true → exec (.launchIntake n) s = .next s) ∧
        (q.ltail ≠ head → s.waitingOf n < 16 → s.ringFull q = false → ∀ pa s1,
          s.reachPage q.root ((block s q 0x08 &&& ~~~0xFFF#64) +
            BitVec.ofNat 64 (128 * (head.toNat % 2 ^ ((block s q 0x08).extractLsb' 0 5).toNat))) .read = .ok pa s1 →
          s1.dram.unit 64 pa ≠ .lost → s1.dram.unit 64 (pa + 64) ≠ .lost →
          let bs := (List.range 128).map (fun i => s1.dram.byte (pa + i))
          let next := block s1 q 0x28
          let at' := (q.qcba.extractLsb' 6 46).toNat * 64
          (wordAt bs 5 ≠ next → ∃ t, exec (.launchIntake n) s = .next t ∧ Stopped s1 t n q 2) ∧
          (wordAt bs 5 = next → exec (.launchIntake n) s = .next
            (((s1.writeHome 0xFFFF (place (at' + 0x18) (bytesOfNat 4 ((block s1 q 0x18).extractLsb' 0 32 + 1).toNat))).writeHome 0xFFFF
              (place (at' + 0x28) (bytesOfNat 8 (next + 1).toNat))).accept n q.root next [] bs)))))

/-- R253, R258, R259: a completion record of 32 bytes (HSEQ, its number, status and launch, cycles) goes to the completion ring; CTAIL and NDSEQ
advance, and the queue's interrupt is sent; a full ring waits. -/
def Sys2Proof.Claims.completionRecords : Prop :=
  ∀ (s : State) (n : Nat) (d : Done) (r : List Done), let q := s.queue n
    q.waits = d :: r → q.held = false → s.blockHeld q = false → s.blockLost q = false → s.blockBad q = false →
    (s.ringFull q = true → exec (.completionRecordWrite n) s = .next s) ∧
    (s.ringFull q = false → ∀ pa s1, s.reachPage q.root ((block s q 0x10 &&& ~~~0xFFF#64) + BitVec.ofNat 64
        (32 * (((block s q 0x20).extractLsb' 32 32).toNat % 2 ^ ((block s q 0x10).extractLsb' 0 5).toNat))) .write = .ok pa s1 →
      s1.dram.unit 64 pa ≠ .lost → s1.writeHeld none [pa / 64] = false →
      let no := block s1 q 0x30
      let at' := (q.qcba.extractLsb' 6 46).toNat * 64
      exec (.completionRecordWrite n) s = .next (((((s1.writeHome 0xFFFF (place pa (bytesOfNat 8 d.hseq.toNat ++ bytesOfNat 8 no.toNat ++
        bytesOfNat 6 d.lid.toNat ++ [0, d.status] ++ bytesOfNat 8 d.cyc.toNat))).writeHome 0xFFFF
        (place (at' + 0x24) (bytesOfNat 4 ((block s1 q 0x20).extractLsb' 32 32 + 1).toNat))).writeHome 0xFFFF
        (place (at' + 0x30) (bytesOfNat 8 (no + 1).toNat))).setQueue n { q with waits := r }).sendMsi
        ((block s1 q 0x38).extractLsb' 32 32)))

/-- Queue slots, their doorbells and their completion records (R251 to R259). -/
def Obligations.QueueAndCompletionSteps : Prop := Claims.queueSteps ∧ Claims.completionRecords

/-- R16, R18, R22, R24, R261, R262, R274: a rendezvous word that is not zero satisfies its dependence; a ready launch ages by one level each 2^22 cycles, up to 3, and
reserves after 2^24; in its turn it is placed, each member at the start state of R22 on its core, in logical order; an image that no longer
translates ends it with code 5; the company to be displaced is marked, and its members leave their cores. -/
def Obligations.LaunchSteps : Prop :=
  ∀ (s : State) (lid : BitVec 48) (l : Launch), s.launch lid = some l →
    (∀ k d pa s1, l.record.deps[k]? = some d → l.stat = .waiting → depKind d = 2 → k ∉ l.depsOk →
      s.reachPage l.root ((d.extractLsb' 0 49).setWidth 64) .read = .ok pa s1 →
      (s1.dram.word pa 8 = 0 → exec (.rendezvousDepTest lid k) s = .next s1) ∧
      (s1.dram.word pa 8 ≠ 0 → exec (.rendezvousDepTest lid k) s =
        .next (s1.setLaunch { l with depsOk := l.depsOk ++ [k] }).markReady)) ∧
    (l.stat = .ready →
      let waited := (s.cycle - l.since).toNat
      (l.aged < 3 → 2 ^ 22 * (l.aged + 1) ≤ waited → exec (.launchAgeing lid) s = .next (s.setLaunch { l with aged := l.aged + 1 })) ∧
      (3 ≤ l.aged ∨ waited < 2 ^ 22 * (l.aged + 1) → exec (.launchAgeing lid) s = .next s) ∧
      (2 ^ 24 ≤ waited → exec (.launchReserve lid) s = .next (s.setLaunch { l with reserve := true })) ∧
      (waited < 2 ^ 24 → exec (.launchReserve lid) s = .next s) ∧
      (∀ cores, s.turnOf l = true → s.coresOk l cores = true → imageOk s.dram l.root l.record.image = false →
        exec (.launchPlace lid cores) s = .next (s.finishLaunch l 5)) ∧
      (∀ cores, s.turnOf l = true → s.coresOk l cores = true → imageOk s.dram l.root l.record.image = true →
        ∃ t, exec (.launchPlace lid cores) s = .next t ∧ t.dram = s.dram ∧ t.served = l.src ∧
          t.launch lid = some { l with stat := .running, started := s.cycle, retired := [], displaced := false } ∧
          ∀ i p, cores[i]? = some p → ∃ c, t.ctx (s.nextCid + i) = some c ∧ c.core = p ∧ c.idx = i ∧ c.lid = l.lid ∧
            c.kind = .regular ∧ c.stat = .running ∧ c.joined = true ∧ c.sup = 0 ∧ c.phase = false ∧ c.legno = 0 ∧ c.leg = none ∧
            c.v = [] ∧ c.m = [] ∧ c.sems = [] ∧ c.sp = Mem.empty ∧ c.can = Mem.empty ∧ c.image = l.record.image ∧
            c.ctl.pc = l.record.entC ∧ c.load.pc = l.record.entL ∧ c.store.pc = l.record.entS ∧ c.comp.pc = l.record.entX ∧
            ∀ q, (c.seqr q).reg 1 = BitVec.ofNat 32 i ∧
              (c.seqr q).reg 3 = BitVec.ofNat 32 (l.record.s * l.record.d * l.record.c * l.record.k) ∧
              (c.seqr q).reg 4 = l.record.param.extractLsb' 0 32 ∧ (c.seqr q).reg 5 = l.record.param.extractLsb' 32 32 ∧
              (∀ r : BitVec 5, 5 < r → (c.seqr q).reg r = 0) ∧ (c.seqr q).run = .running)) ∧
    (∀ other w, s.launch other = some w → l.displaced = true ∨ s.isVictim l w = true →
      exec (.preempt lid other) s = .next ((s.setLaunch { l with displaced := true }).evictAll
        (((s.setLaunch { l with displaced := true }).membersOf lid).map (fun c => c.cid))))

/-- R233, R235, R236, R246, R247, R249, R340: a member's core takes the queued task of its pool with the smallest SEQ; the abort of a victim runs the
inverse of its top waybill, with the object and arguments in s4 to s10, and with none left queues the task again, one abort more; a finished task
that is the oldest commits, its registrations and pool slot free. -/
def Obligations.TaskSteps : Prop :=
  (∀ (s s1 : State) (lid : BitVec 48) (l : Launch) (m : Ctx) (p b pa : Nat) (t : Task), s.launch lid = some l →
    s.memberOn lid p = some m → s.freeBank p = some b → l.stat = .running → l.displaced = false → s.taskOn p = false →
    (s.core p).fenced = false → s.roomFor p l.record.plots false = true → s.pools.find p = none →
    l.nextTask (m.coord.2.1 * l.record.c + m.coord.2.2.1) = some t →
    s.reachPage l.root (l.record.pool + BitVec.ofNat 64 (8192 * t.id.pool + 32 * t.id.slot)) .both = .ok pa s1 →
    ∃ u c, exec (.taskStart lid p) s = .next u ∧ u.ctx s1.nextCid = some c ∧ c.core = m.core ∧ c.idx = m.idx ∧
      c.kind = .task { t.id with record := s1.dram.bytes pa 32 } ∧ c.stat = .running ∧ c.nocan = true ∧ c.sp = Mem.empty ∧
      c.bills = 0 ∧ c.decl = none ∧ c.ctl.pc = l.record.entC ∧
      ∀ q, (c.seqr q).reg 6 = t.id.seq.extractLsb' 0 32 ∧ (c.seqr q).reg 7 = t.id.seq.extractLsb' 32 32 ∧
        (c.seqr q).reg 16 = t.id.aborts ∧ (c.seqr q).pred 1 = true) ∧
  (∀ (s : State) (c : Ctx) (t : TaskId) (l : Launch), s.ctx c.cid = some c → c.kind = .task t → s.launch c.lid = some l →
    c.stat = .aborting → c.pend = none → c.resident = true → s.abortTurn c.lid t.seq = true →
    (∀ k bs, c.bills = k + 1 → c.readBill k = some bs →
      let w := wordAt bs
      ∃ d, exec (.taskAbort c.cid) s = .next (s.setCtx d) ∧ d.stat = .inverse ∧ d.inv = some k ∧ d.ctl.run = .running ∧
        d.ctl.pc = ((w 1).extractLsb' 0 14).toNat ∧ d.ctl.reg 4 = (w 0).extractLsb' 0 32 ∧
        d.ctl.reg 5 = ((w 0).extractLsb' 32 17).zeroExtend 32 ∧ d.ctl.reg 6 = (w 3).extractLsb' 0 32 ∧
        d.ctl.reg 7 = (w 3).extractLsb' 32 32 ∧ d.ctl.reg 8 = (w 1).extractLsb' 32 32 ∧ d.ctl.reg 9 = (w 2).extractLsb' 0 32 ∧
        d.ctl.reg 10 = (w 2).extractLsb' 32 32 ∧ d.decl = some { base := ((w 0).extractLsb' 0 49).toNat
                                                                 size := 2 ^ (6 + ((w 0).extractLsb' 60 4).toNat) } ∧
        d.load = c.load ∧ d.store = c.store ∧ d.comp = c.comp ∧ d.sp = c.sp) ∧
    (∀ k, c.bills = k + 1 → c.readBill k = none → exec (.taskAbort c.cid) s = .next (s.abortLaunch c.lid 0x11)) ∧
    (∀ pa s1, c.bills = 0 → s.pools.find c.core = none → s.reachPage l.root (l.record.pool + BitVec.ofNat 64 (8192 * t.pool + 32 * t.slot)) .both = .ok pa s1 →
      ∃ u k, exec (.taskAbort c.cid) s = .next u ∧ u.ctx c.cid = none ∧ u.launch c.lid = some k ∧
        (∀ r ∈ k.regs, r.seq ≠ t.seq) ∧ (∀ x ∈ k.tasks, x.id.seq = t.seq → x.stat = .queued ∧ x.cid = none ∧
          x.id.aborts = (if t.aborts = 0xFFFFFFFF then t.aborts else t.aborts + 1)))) ∧
  (∀ (s s1 : State) (lid : BitVec 48) (l : Launch) (t : Task) (c : Ctx) (pa : Nat), s.launch lid = some l → l.oldest = some t →
    t.cid = some c.cid → s.ctx c.cid = some c → t.stat = .finished → c.stat = .finished → s.pools.find c.core = none →
    s.reachPage l.root (l.record.pool + BitVec.ofNat 64 (8192 * t.id.pool + 32 * t.id.slot)) .both = .ok pa s1 →
    ∃ u k, exec (.taskCommit lid) s = .next u ∧ u.ctx c.cid = none ∧ u.launch lid = some k ∧
      (∀ x, x ∈ k.tasks ↔ x ∈ l.tasks ∧ x.id.seq ≠ t.id.seq) ∧ (∀ r, r ∈ k.regs ↔ r ∈ l.regs ∧ r.seq ≠ t.id.seq) ∧
      u.dram = s1.dram)

/-! ## Contexts, faults, handlers -/

/-- R22, R24, R42, R43, R81, R83, R277, R423: a context that goes before the active one takes its core, if the plane holds its image, or starts the fill it needs; the
one that leaves keeps its results and loses its latches, and until it may leave it issues nothing more (log 72: a running task gives
way to an inverse alone, and only while it waits at an ABOP); the first start of a fresh member starts its launch's cycles (R258); the least
recently active context goes to a slot of the spill area and back (the image in the slot is kept as data, log 74); a fill, in one step
(log 75), makes the shadow plane, or the active one, and a plane is known by its image's address (log 96). At a schedule-cycle stop the core
keeps its context (R318). -/
def Obligations.ContextSteps : Prop :=
  ∀ (s : State) (c : Ctx) (cid : Nat), s.ctx cid = some c → c.cid = cid →
    let p := c.core
    let k := s.core p
    let boarded (pl : Plane) : Ctx := if c.fresh then { c with fresh := false, desc := pl.descs } else c
    (s.coreStopped p = true → exec (.contextSwitch p cid) s = .next s) ∧
    (s.couldRun c = true → s.first c = true → k.fill = none → k.fenced = false → s.coreStopped p = false →
      (k.active = none →
        (∀ pl, k.plane = some pl → pl.image = c.image → ∃ t, exec (.contextSwitch p cid) s = .next t ∧
          (t.core p).active = some cid ∧ (t.core p).plane = some pl ∧ t.ctx cid = some (boarded pl) ∧ t.dram = s.dram ∧
          (∀ l, c.fresh = true → s.launch c.lid = some l → ∃ w, t.launch c.lid = some w ∧ w.began = some (l.began.getD s.cycle)) ∧
          ∀ n, n ≠ cid → t.ctx n = s.ctx n) ∧
        (∀ s1 ps, (∀ pl, k.plane = some pl → pl.image ≠ c.image) → (s.restored c).pages c c.image .exec 0 [] 113 = .ok s1 ps →
          exec (.contextSwitch p cid) s = .next (s1.setCore p { s1.core p with
            shadow := none, fill := some { image := c.image, pages := ps, flip := true, cid := some cid } }))) ∧
      (∀ a, s.activeCtx p = some a → a.cid ≠ cid → a.core = p → s.rank a < s.rank c →
        (a.isTask = true ∧ a.stat = .running ∧ s.couldRun a = true → c.stat = .inverse ∧ s.atAbop a = true) →
        (∀ pl, (s.restored c).mayLeave a = true → k.plane = some pl → pl.image = c.image → ∃ t d, exec (.contextSwitch p cid) s = .next t ∧
          (t.core p).active = some cid ∧ t.ctx cid = some (boarded pl) ∧ t.ctx a.cid = some d ∧ d.stat = a.stat ∧
          (∀ q, (d.seqr q).latches = []) ∧ (a.joined = true → d.flight = a.flight ∧ d.v = a.v ∧ ∀ q, (d.seqr q).regs = (a.seqr q).regs) ∧
          (a.joined = false → d.flight = []) ∧ t.dram = s.dram) ∧
        ((s.restored c).mayLeave a = false → a.stat = .running ∨ a.stat = .inverse → ∃ t d, exec (.contextSwitch p cid) s = .next t ∧
          t.ctx a.cid = some d ∧ d.leaving = true ∧ (∀ q, d.seqr q = a.seqr q) ∧ (t.core p).active = k.active ∧ t.dram = s.dram)) ∧
      (∀ a, s.activeCtx p = some a → a.cid ≠ cid → a.isTask = true → a.stat = .running → s.couldRun a = true → c.stat ≠ .inverse →
        exec (.contextSwitch p cid) s = .next s)) ∧
    (∀ slot, s.mayStreamOut c = true → s.freeBank p = none → slot < s.spillSlots → slot ∉ s.spill →
      (∀ x ∈ s.onCore p, s.mayStreamOut x = true → c.seen.toNat ≤ x.seen.toNat) →
      ∃ t, exec (.contextStreamOut cid slot) s = .next t ∧ t.ctx cid = some { c with loc := .slot slot } ∧
        t.spill = s.spill ++ [slot] ∧
        let a := (s.cspill.extractLsb' 12 40).toNat * 4096 + 0x6B000 * slot
        ∀ x, x < a ∨ a + 0x6B000 ≤ x → t.dram.byte x = s.dram.byte x) ∧
    (∀ slot bank, c.loc = .slot slot → bank < 3 → (∀ x ∈ s.onCore p, x.loc ≠ .bank bank) →
      (s.pagesHold .lost (s.slotPages slot) = false → exec (.contextStreamIn cid bank true) s = .next
        { s.setCtx { c with loc := .bank bank, seen := s.cycle } with spill := s.spill.filter (fun x => x != slot) }) ∧
      exec (.contextStreamIn cid bank false) s = .next (s.abortLaunch c.lid 0x14)) ∧
    (∀ f, k.fill = some f → lostInImage s.dram f.pages = none →
      let pl : Plane := { image := f.image, bytes := imageBytes s.dram f.pages }
      exec (.planeFillComplete p) s = .next (s.setCore p { k with
        fill := none, plane := if f.flip then some pl else k.plane, shadow := if f.flip then none else some pl })) ∧
    (k.fill = none → exec (.planeFillComplete p) s = .next s)

/-- R178, R200, R201, R202, R264, R271, R273, R295, R296: a trap for the harts sends its record, with the core, cause and resume index, and holds the context; the answer 0
resumes it at its EPC, the answer 1 aborts its launch with code 0x10; a trap for the local handler starts one: its control sequencer alone,
at HENT, with s1 to s5 of the trapped context and the record from s8 on (of a WATCH with the whole address, R322), and the trapped context's
local memory and semaphores, of which the handler holds a copy (log 58). Neither goes before an outstanding atomic has returned (R343); an answer
changes nothing while the record still waits at its source, and waits itself for the end of a stop (R318); it also answers a fault of a pool
(R233). Where a sequencer resumes is log 104. An answer is the write of a hart that runs (R329). -/
def Obligations.FaultsAndHandlers : Prop :=
  ∀ (s : State) (d : Ctx) (cid : Nat), s.ctx cid = some d → d.cid = cid →
    let k := s.core d.core
    (∀ t, d.trap = some t → d.stat = .trapped → d.mx.active = none → d.outstanding = false → d.toHandler t = false → d.killsLaunch t = false →
      s.fresp.find d.core = none → s.pools.find d.core = none →
      ∃ u, exec (.faultRecordSend cid) s = .next u ∧ u.ctx cid = some { d with stat := .held } ∧ u.fresp.find d.core = some cid ∧
        (∃ bs, u.events = s.events ++ [{ type := 1, bytes := bs, cid := some cid }] ∧ bs.length = 64 ∧
          (t.place = false → (bs.drop 16).take 4 = bytesOfNat 4 (d.seqr (seqOf d.cause)).epc.toNat ∧
            (natOfBytes ((bs.drop 8).take 8)) / 2 ^ 40 % 256 = t.cause % 256 ∧ natOfBytes ((bs.drop 8).take 8) % 512 = d.core % 512)) ∧
        (k.active = some cid → (u.core d.core).active = none) ∧ u.dram = s.dram) ∧
    (∀ t, d.trap = some t → d.stat = .trapped → d.mx.active = none → d.outstanding = false → d.toHandler t = false → d.killsLaunch t = true →
      exec (.faultRecordSend cid) s = .next (s.abortLaunch d.lid 0x11)) ∧
    (∀ t b, d.trap = some t → d.stat = .trapped → d.mx.active = none → d.outstanding = false → d.toHandler t = true → d.loc = .bank d.bank →
      s.freeBank d.core = some b → s.nextCid ≠ cid → ∃ u x, exec (.handlerStart cid) s = .next u ∧
        u.ctx cid = some { d with stat := .handled } ∧ u.ctx s.nextCid = some x ∧ x.kind = .handler cid ∧ x.core = d.core ∧
        x.loc = .bank b ∧ x.stat = .running ∧ x.ctl.pc = d.hent.toNat ∧ x.ctl.run = .running ∧ x.load.run = .halted ∧
        x.store.run = .halted ∧ x.comp.run = .halted ∧ (∀ r : BitVec 5, 1 ≤ r → r ≤ 5 → x.ctl.reg r = d.ctl.reg r) ∧
        (t.loss = none → (∀ i < 8, 2 ≤ i ∨ t.cause ≠ 0x13 → x.ctl.reg (BitVec.ofNat 5 (8 + i)) =
            BitVec.ofNat 32 (natOfBytes ((d.record.drop (4 * i)).take 4))) ∧
          (t.cause = 0x13 → x.ctl.reg 8 = t.vaddr.extractLsb' 0 32 ∧ x.ctl.reg 9 = t.vaddr.extractLsb' 32 32)) ∧
        (∀ r : BitVec 3, r ≠ 0 → x.ctl.pred r = false) ∧ x.sp = d.sp ∧ x.can = d.can ∧ x.sems = d.sems ∧ x.leg = none ∧
        u.dram = s.dram ∧ u.nextCid = s.nextCid + 1) ∧
    (s.hartRuns = true → (k.dbg.get 0 0x1010).getLsbD 0 = false → s.fresp.find d.core = some cid → (∀ e ∈ s.events, e.cid ≠ some cid) →
      (∃ u e, exec (.frespResume d.core) s = .next u ∧ u.ctx cid = some e ∧ u.fresp.find d.core = none ∧ e.trap = none ∧
        e.stat = (if d.inv.isSome then .inverse else .running) ∧ (∀ q, (e.seqr q).regs = (d.seqr q).regs ∧ (e.seqr q).latches = []) ∧
        (∀ t, d.trap = some t → t.place = false →
          (∀ q, t.held = false ∨ q ≠ t.sq → (e.seqr q).pc = (d.seqr q).epc.toNat) ∧
          (t.held = true → (e.seqr t.sq).pc = (d.seqr t.sq).pc)) ∧
        (∀ t, d.trap = some t → t.place = true → ∀ q, (e.seqr q).pc = (d.seqr q).pc) ∧ e.flight = d.flight ∧ u.dram = s.dram) ∧
      (s.pools.find d.core = none → exec (.frespAbort d.core) s =
        .next ({ s with fresp := s.fresp.del d.core }.abortLaunch d.lid 0x10))) ∧
    (s.hartRuns = true → (k.dbg.get 0 0x1010).getLsbD 0 = false → s.fresp.find d.core = none → s.pools.find d.core = none →
      exec (.frespResume d.core) s = .next { s with pools := s.pools.del d.core } ∧ exec (.frespAbort d.core) s = .next s) ∧
    (∀ lid, s.hartRuns = true → (k.dbg.get 0 0x1010).getLsbD 0 = false → s.fresp.find d.core = none → s.pools.find d.core = some lid →
      exec (.frespResume d.core) s = .next { s with pools := s.pools.del d.core } ∧
      exec (.frespAbort d.core) s = .next ({ s with pools := s.pools.del d.core }.abortLaunch lid 0x10)) ∧
    (s.hartRuns = false → exec (.frespResume d.core) s = .next s ∧ exec (.frespAbort d.core) s = .next s) ∧
    ((∃ e ∈ s.events, e.cid = some cid) → s.fresp.find d.core = some cid →
      exec (.frespResume d.core) s = .next s ∧ exec (.frespAbort d.core) s = .next s) ∧
    (s.hartRuns = true → (k.dbg.get 0 0x1010).getLsbD 0 = true → (∀ n e, s.fresp.find d.core = some n → e ∈ s.events → e.cid ≠ some n) →
      exec (.frespResume d.core) s = .next (s.setCore d.core { k with resp := some false }) ∧
      exec (.frespAbort d.core) s = .next (s.setCore d.core { k with resp := some true }))

/-! ## The register windows -/

/-- R293, R294, R296, R332: the oldest event goes to its slot of the ring: TYPE, the number, 48 zero bytes, the record; EVTAIL rises and the interrupt EVMSI is sent, once
EVBASE and MSIA are set and the ring has room; MSIA sends what was held, in order; a shootdown drops the entries its kind names, of cores, copy engines and harts, tells the adapters that hold one, and is busy
until nothing uses what it drops (log 36: a page's entries in every address space) and the adapters have given theirs up (R299); writes
keep the bits of R294 (MSIA is set when its address is not 0, log 19). Registers are written by a hart that runs (R329). -/
def Sys2Proof.Claims.eventsAndShootdowns : Prop :=
  ∀ (s : State) (v : BitVec 64),
    (let n := (s.evbase.extractLsb' 0 5).toNat
     let a := (s.evbase.extractLsb' 12 40).toNat * 4096 + 128 * (s.evtail.toNat % 2 ^ n)
     (∀ e r, s.events = e :: r → 1 ≤ n → n ≤ 16 → (s.evtail - s.evhead).toNat ≠ 2 ^ n → s.msia ≠ 0 →
        s.writeHeld none [a / 64, a / 64 + 1] = false → ∃ t, exec .eventRingWrite s = .next t ∧ t.events = r ∧
        t.evtail = s.evtail + 1 ∧ t.msiOut = s.msiOut ++ [(s.msia, s.evmsi.extractLsb' 32 32)] ∧
        t.dram = s.dram.store 64 64 ((place a (bytesOfNat 8 e.type ++ bytesOfNat 8 s.evtail.toNat ++ bytesOfNat 48 0 ++ e.bytes)).filter
          (fun x => !s.outside x.1)) ∧
        t.launches = s.launches ∧ t.queues = s.queues) ∧
     (s.events = [] ∨ n < 1 ∨ 16 < n ∨ s.msia = 0 ∨ (s.evtail - s.evhead).toNat = 2 ^ n → exec .eventRingWrite s = .next s)) ∧
    (s.hartRuns = false → exec (.evbaseWrite v) s = .next s ∧ exec (.msiaWrite v) s = .next s ∧ exec .shgoPage s = .next s ∧
      exec .shgoAsid s = .next s ∧ exec .shgoAll s = .next s) ∧
    (s.hartRuns = true → s.events = [] →
      exec (.evbaseWrite v) s = .next { s with evbase := v &&& 0x000FFFFFFFFFF01F } ∧
      (v &&& 0x000FFFFFFFFFFFFC ≠ 0 → exec (.msiaWrite v) s = .next { s with
        msia := v &&& 0x000FFFFFFFFFFFFC, msis := [], msiOut := s.msiOut ++ s.msis.map (fun i => (v &&& 0x000FFFFFFFFFFFFC, i)) })) ∧
    (s.hartRuns = true → v &&& 0x000FFFFFFFFFFFFC = 0 → exec (.msiaWrite v) s = .next { s with msia := 0 }) ∧
    (s.shbusy = true → exec .shgoPage s = .next s ∧ exec .shgoAsid s = .next s ∧ exec .shgoAll s = .next s) ∧
    (s.hartRuns = true → s.shbusy = false →
      let busy (i : Instr) (kind : BitVec 2) (gone : TlbEnt → Prop) : Prop := ∃ t, exec i s = .next t ∧ t.shbusy = true ∧
        t.shkind = kind ∧ t = { s with cores := t.cores, harts := t.harts, invs := t.invs, shbusy := true, shkind := kind, shfor := s.shva } ∧
        (∀ p x, x ∈ (t.core p).tlb ↔ x ∈ (s.core p).tlb ∧ ¬ gone x) ∧
        (∀ p n x, x ∈ (t.core p).streams.get [] n ↔ x ∈ (s.core p).streams.get [] n ∧ ¬ gone x) ∧
        (∀ h x, x ∈ (t.hart h).tlb ↔ x ∈ (s.hart h).tlb ∧ ¬ gone x) ∧
        ∀ port x, (port, x) ∈ t.invs ↔ (port, x) ∈ s.invs ∨ (∃ l, (port, l) ∈ s.atc ∧ x ∈ l ∧ gone x)
      busy .shgoPage 0 (fun x => s.shva.toNat < 2 ^ 49 ∧ s.shva.toNat / 2 ^ x.bits * 2 ^ x.bits = x.vbase) ∧
      busy .shgoAsid 1 (fun x => x.glob = false ∧ x.asid = s.shva.extractLsb' 0 16) ∧ busy .shgoAll 2 (fun _ => True)) ∧
    (s.shbusy = true → s.quietTlb none s.shotDown = true → s.invs = [] → exec .shootdownComplete s = .next { s with shbusy := false }) ∧
    (s.shbusy = false ∨ s.quietTlb none s.shotDown = false ∨ s.invs ≠ [] → exec .shootdownComplete s = .next s)

/-- R277, R314, R316 to R319, R324 to R326, R329: a held hart starts at the written address and a running hart holds itself; a stopped core
resumes (a fence that came meanwhile then acts), or writes its context's image, which the part remembers (log 14), and keeps the context; a
cycle match stops the core before its next word; CSPILL is set while no slot is in use; PCAP and ICAP set the cap and
the ceilings, which bound every frequency change (log 37); a debug or device register keeps its writable bits. The writes are those of a hart
that runs: while every hart is held they do nothing. -/
def Sys2Proof.Claims.stopsAndRegisters : Prop :=
  ∀ (s : State) (v : BitVec 64),
    (s.hartRuns = false → exec (.pcapWrite v) s = .next s ∧ exec (.cspillWrite v) s = .next s ∧ (∀ h, exec (.hstartGo h v) s = .next s) ∧
      (∀ i, exec (.icapWrite i v) s = .next s) ∧ (∀ pa, exec (.registerWrite pa v) s = .next s) ∧
      ∀ p, exec (.stopgoResume p) s = .next s ∧ exec (.stopgoImage p) s = .next s) ∧
    (∀ h, h < 24 → h / 8 ∉ s.dropped →
      (s.hartRuns = true → (s.hart h).running = false → ∃ t, exec (.hstartGo h v) s = .next t ∧ t = { s with harts := t.harts } ∧
        t.hart h = { running := true, start := (v &&& 0x000FFFFFFFFFFFFC) ||| 1 } ∧ ∀ j, j ≠ h → t.hart j = s.hart j) ∧
      ((s.hart h).running = true → exec (.hstartGo h v) s = .next s) ∧
      ((s.hart h).running = false → exec (.hstartHold h) s = .next s) ∧
      ((s.hart h).running = true → ∃ t, exec (.hstartHold h) s = .next t ∧ t = { s with harts := t.harts } ∧ (t.hart h).running = false ∧
        ∀ j, j ≠ h → t.hart j = s.hart j)) ∧
    (∀ p c, s.activeCtx p = some c → c.core = p →
      ((s.hartRuns = true → ((s.core p).dbg.get 0 0x1010).getLsbD 0 = true →
        ((s.core p).resp = none → (s.core p).fdue = true → ∃ t, exec (.stopgoResume p) s = .next t ∧ (t.core p).fenced = true) ∧
        ((s.core p).resp = none → (s.core p).fdue = false → ∃ t d, exec (.stopgoResume p) s = .next t ∧ t.ctx c.cid = some d ∧
          ((t.core p).dbg.get 0 0x1010) = 0 ∧ t.dram = s.dram ∧ d.stat = (if c.inv.isSome then .inverse else .running) ∧
          (c.back = none → d = { c with stat := d.stat }) ∧ (c.back.isSome = true → d.back = none ∧ d.pend = none)) ∧
        (let a := (((s.core p).dbg.get 0 0x1020).extractLsb' 12 40).toNat * 4096
         s.writeHeld none (pieceGrans ((List.range 107).map (fun i => (4096 * i, a + 4096 * i)))) = false →
         ∃ t, exec (.stopgoImage p) s = .next t ∧ t.free = s.free + 1 ∧
          t.saved.find (s.free + 1) = some { c with ended := [], sp := Mem.empty, can := Mem.empty } ∧
          ∀ x, x < a ∨ a + 0x6B000 ≤ x → t.dram.byte x = s.dram.byte x))) ∧
      (((s.core p).dbg.get 0 0x1000).getLsbD 1 = true → ((s.core p).dbg.get 0 0x1008).toNat ≤ s.cycle.toNat →
        c.stat = .running ∨ c.stat = .inverse →
        ∃ t d, exec (.cycleMatchStop p) s = .next t ∧ t.ctx c.cid = some d ∧ d = { c with stat := .stopped } ∧
          ((t.core p).dbg.get 0 0x1000).getLsbD 1 = false ∧ ((t.core p).dbg.get 0 0x1010).getLsbD 0 = true ∧
          ((t.core p).dbg.get 0 0x1010).extractLsb' 1 2 = 1 ∧ t.dram = s.dram)) ∧
    (s.hartRuns = true → s.spill = [] → exec (.cspillWrite v) s = .next { s with cspill := v &&& 0x000FFFFFFFFFF1F1 }) ∧
    (s.spill ≠ [] → exec (.cspillWrite v) s = .next s) ∧
    (s.hartRuns = true → exec (.pcapWrite v) s = .next { s with pcap := v.extractLsb' 0 12 }) ∧
    (∀ i, s.hartRuns = true → i < 36 → (i % 12 < 8 ∨ i % 12 = 11) → exec (.icapWrite i v) s = .next { s with icap := s.icap.put 1300 i (v.extractLsb' 0 11) }) ∧
    (∀ i, (8 ≤ i % 12 ∧ i % 12 ≤ 10) ∨ 36 ≤ i → exec (.icapWrite i v) s = .next s) ∧
    (∀ i mhz w t, exec (.islandFrequencyChange i mhz w) s = .next t → t ≠ s →
      t.ifrq.get 0 i = mhz ∧ (8 ≤ i % 12 ∧ i % 12 ≤ 10 → mhz = 1300) ∧
      ((i % 12 < 8 ∨ i % 12 = 11) → mhz.toNat ≤ max 325 (min 1300 (s.icap.get 1300 i).toNat)) ∧
      (t.pnow.toNat ≤ max 600 (min 2700 s.pcap.toNat) ∨
        (mhz.toNat ≤ (s.ifrq.get 0 i).toNat ∧ (t.ipwr.map (fun x => x.2.toNat)).sum ≤ (s.ipwr.map (fun x => x.2.toNat)).sum))) ∧
    (∀ i mhz w, i < 36 → i / 12 ∉ s.dropped → (i % 12 < 8 ∨ i % 12 = 11) → mhz ≠ 0 →
      mhz.toNat ≤ max 325 (min 1300 (s.icap.get 1300 i).toNat) →
      (let total (m : SMap (BitVec 12)) : Nat := (m.map (fun x => x.2.toNat)).sum
       total (s.ipwr.put 0 i w) ≤ max 600 (min 2700 s.pcap.toNat) ∨
         (mhz.toNat ≤ (s.ifrq.get 0 i).toNat ∧ total (s.ipwr.put 0 i w) ≤ total s.ipwr)) →
      ∃ t, exec (.islandFrequencyChange i mhz w) s = .next t ∧ t.ifrq.get 0 i = mhz ∧ t.ipwr.get 0 i = w) ∧
    (s.hartRuns = true → exec (.registerWrite 0xFFF0000020010 v) s = .next { s with evhead := v } ∧
    exec (.registerWrite 0xFFF0000020018 v) s = .next { s with evmsi := v &&& 0xFFFFFFFF00000000 } ∧
    exec (.registerWrite 0xFFF0000020040 v) s = .next { s with shva := v } ∧
    exec (.registerWrite 0xFFF0000020060 v) s = .next { s with dctb := v &&& 0x000FFFFFFFFFF001 } ∧
    (∀ p, p < 384 → exec (.registerWrite (0xFFE0000000000 + 0x10000 * p + 0x1008) v) s =
      .next (s.setCore p { s.core p with dbg := (s.core p).dbg.put 0 0x1008 v })))

/-- Event ring, shootdowns, harts, stops and window registers (R198, R294, R314 to R319, R325, R329). -/
def Obligations.EventsStopsAndRegisters : Prop := Claims.eventsAndShootdowns ∧ Claims.stopsAndRegisters

/-! ## Links -/

namespace Sys2Proof.Claims
open Sys2Proof.Machine

/-- Flits cross the link now: it is neither training nor disabled, and no four failures wait for their retrain (R309). -/
def Open (s : State) (m : Nat) : Prop :=
  let l := s.link m
  l.training = false ∧ l.width ≠ 0 ∧ (m < 64 → l.up.fail0 < 4 ∧ l.up.fail1 < 4 ∧ l.down.fail0 < 4 ∧ l.down.fail1 < 4)

/-- Nothing but one link changes, and of it only the two directions. -/
def OnlyLink (s t : State) (m : Nat) : Prop :=
  t = { s with links := t.links } ∧ (∀ k, k ≠ m → t.link k = s.link k) ∧
    t.link m = { s.link m with up := (t.link m).up, down := (t.link m).down }

end Sys2Proof.Claims

/-- R302, R306, R307, R310: a sender resends from the point of a NAK, or sends waiting messages under the next SEQ and keeps the flit until it is acknowledged, at
most 64 on a module and 128 on a Varob port; a receiver takes the flit it expects and no other, answers the first bad flit with NAK E, and
every flit that its side sends carries ACK E − 1; the eighth flit that it takes without having sent any makes it send an IDLE if it has
no DATA; the timers send NAK and IDLE, and go back to the oldest flit. -/
def Obligations.LinkSteps : Prop :=
  ∀ (s : State) (m : Nat) (up : Bool), Open s m →
    let l := s.link m
    let d := if up then l.up else l.down
    let back := if up then l.down else l.up
    let dir (t : State) : Dir := if up then (t.link m).up else (t.link m).down
    let rev (t : State) : Dir := if up then (t.link m).down else (t.link m).up
    let limit := if m < 64 then 64 else 128
    (∀ x r, d.resend = none → d.msgs = x :: r → x.length ≤ 31 → (∀ y, r.head? = some y → 31 < x.length + y.length) →
      d.buf.length < limit → ∃ t, exec (.flitTransmit m up) s = .next t ∧ OnlyLink s t m ∧
        dir t = { d with seq := d.seq + 1, buf := d.buf ++ [(d.seq, x)], msgs := r, air := d.air ++ [mkFlit 1 d.seq (back.exp - 1) x] } ∧
        rev t = { back with owes := 0 }) ∧
    (∀ x ss, d.resend = some x → d.buf.find? (fun e => e.1 == x) = some (x, ss) →
      ∃ t, exec (.flitTransmit m up) s = .next t ∧ OnlyLink s t m ∧ (dir t).seq = d.seq ∧ (dir t).buf = d.buf ∧ (dir t).msgs = d.msgs ∧
        (dir t).air = d.air ++ [mkFlit 1 x (back.exp - 1) ss] ∧
        (dir t).resend = if d.buf.any (fun e => e.1 == x + 1) then some (x + 1) else none) ∧
    (d.resend = none → d.msgs = [] ∨ limit ≤ d.buf.length → exec (.flitTransmit m up) s = .next s) ∧
    (∀ f r, d.air = f :: r → crcBad f = true → ∃ t, exec (.flitReceive m up f) s = .next t ∧ OnlyLink s t m ∧
      (dir t).exp = d.exp ∧ (dir t).air = r ∧ (dir t).nakOut = true ∧ (rev t).buf = back.buf ∧
      (rev t).air = (if d.nakOut then back.air else back.air ++ [mkFlit 3 0 (d.exp - 1) []])) ∧
    (∀ f r, d.air = f :: r → crcBad f = false → flitType f = 1 → flitSeq f ≠ d.exp →
      ∃ t, exec (.flitReceive m up f) s = .next t ∧ OnlyLink s t m ∧ (dir t).exp = d.exp ∧ (dir t).air = r ∧ (dir t).nakOut = d.nakOut) ∧
    (∀ f r ms, d.air = f :: r → crcBad f = false → flitType f = 1 → flitSeq f = d.exp → parseMsgs 31 f.slots = some ms →
      ∃ u, OnlyLink s u m ∧ (dir u).exp = d.exp + 1 ∧ (dir u).air = r ∧ (dir u).nakOut = false ∧ (dir u).fail0 = 0 ∧ (dir u).fail1 = 0 ∧
        (rev u).buf = back.buf.dropWhile (fun e => decide ((flitAck f - e.1).toNat < 2048)) ∧
        (d.owes + 1 < 8 → (dir u).owes = d.owes + 1 ∧ (rev u).air = back.air) ∧
        (8 ≤ d.owes + 1 → back.resend = none → back.msgs = [] → (dir u).owes = 0 ∧ (rev u).air = back.air ++ [mkFlit 2 0 d.exp []]) ∧
        exec (.flitReceive m up f) s = .next (if 64 ≤ m ∧ up = true then u else u.receiveAll m (!up) ms)) ∧
    (d.nakOut = true → ∃ t, exec (.nakTimer m up) s = .next t ∧ OnlyLink s t m ∧ dir t = { d with owes := 0 } ∧
      rev t = { back with air := back.air ++ [mkFlit 3 0 (d.exp - 1) []] }) ∧
    (d.nakOut = false → exec (.nakTimer m up) s = .next s) ∧
    (back.resend = none → back.msgs = [] → ∃ t, exec (.idleTimer m up) s = .next t ∧ OnlyLink s t m ∧ dir t = { d with owes := 0 } ∧
      rev t = { back with air := back.air ++ [mkFlit 2 0 (d.exp - 1) []] }) ∧
    (∀ e r, d.buf = e :: r → ∃ t, exec (.replayTimeout m up) s = .next t ∧ OnlyLink s t m ∧ dir t = { d with resend := some e.1 } ∧
      rev t = back) ∧
    (d.buf = [] → exec (.replayTimeout m up) s = .next s)

/-- R294, R296, R309, R310, R311: four failures on one half retrain a module to the other half, its unacknowledged flits kept; four more disable it; a failed Varob port's
messages go ahead of another's (log 79); LNKST and an event say so; with fewer than 6 modules left, the die of the pair with more fenced cores, on a tie the one with the higher number,
is to be dropped (R288). A clock message raises what each die has received; a batch that arrives is kept until its predecessors (log 88)
have all been applied and then applied as one write; one that another package applies, of this package's in the order in which they went out
(log 112) or of a third package's, shows here (log 87). -/
def Obligations.LinkRecovery : Prop :=
  ∀ (s : State) (m : Nat),
    let l := s.link m
    let failing := 4 ≤ l.up.fail0 ∨ 4 ≤ l.up.fail1 ∨ 4 ≤ l.down.fail0 ∨ 4 ≤ l.down.fail1
    let told (t : State) : Prop := t.lnkst.find m = some ((t.link m).retrains ++ 0#30 ++ (t.link m).width) ∧
      ∃ e, t.events = s.events ++ [e] ∧ e.type = 4
    (m < 36 → l.width = 2 → l.training = false → failing → ∃ t, exec (.linkRetrain m) s = .next t ∧
      t = { s with links := t.links } ∧ (∀ k, k ≠ m → t.link k = s.link k) ∧ (t.link m).width = 2 ∧ (t.link m).training = true ∧ (t.link m).up = { l.up with air := [] } ∧ (t.link m).down = { l.down with air := [] } ∧
      (t.link m).half = some (decide (4 ≤ l.up.fail0 ∨ 4 ≤ l.down.fail0))) ∧
    (¬ failing → exec (.linkRetrain m) s = .next s ∧ exec (.moduleDisable m) s = .next s) ∧
    (m < 36 → l.training = true → ∃ t, exec (.retrainComplete m) s = .next t ∧ told t ∧ (t.link m).training = false ∧
      (t.link m).width = 1 ∧ (t.link m).retrains = l.retrains + 1 ∧ (t.link m).up.exp = l.up.exp ∧ (t.link m).up.seq = l.up.seq ∧
      (t.link m).up.msgs = l.up.msgs ∧ (t.link m).up.fail0 = 0 ∧ (t.link m).up.fail1 = 0 ∧
      (t.link m).up.buf = l.up.buf.dropWhile (fun e => decide ((l.up.exp - 1 - e.1).toNat < 2048)) ∧
      (t.link m).up.resend = ((t.link m).up.buf.head?).map (fun e => e.1) ∧ t.dram = s.dram) ∧
    (m < 36 → l.width = 1 → failing → ∃ t, exec (.moduleDisable m) s = .next t ∧ told t ∧ (t.link m).width = 0 ∧
      (t.link m).up.buf = [] ∧ (t.link m).up.msgs = [] ∧ (t.link m).down.msgs = [] ∧ t.dram = s.dram ∧
      (let a := m / 12
       let b := (a + 1) % 3
       let work := ((List.range 12).filter (fun i => (t.link (12 * a + i)).width != 0)).length
       (6 ≤ work → t.dooms = s.dooms) ∧
       (work < 6 → a ∉ s.dropped → b ∉ s.dropped →
        (if s.fencedOn b < s.fencedOn a then a else if s.fencedOn a < s.fencedOn b then b else max a b) ∈ t.dooms))) ∧
    (∀ o, 64 ≤ m → m < 76 → 64 ≤ o → o < 76 → m ≠ o → l.width ≠ 0 → (s.link o).width ≠ 0 →
      ∃ t, exec (.linkFailReroute m o) s = .next t ∧ (t.link m).width = 0 ∧ (t.link o).width = (s.link o).width ∧
        (t.link o).up.msgs = l.up.unaccepted ++ (s.link o).up.msgs ∧ t.dram = s.dram ∧ t.events.length = s.events.length + 1) ∧
    (∀ die (n : Word), die < 48 → die / 3 ≠ s.package → ∃ t, exec (.clockMessageSend die n) s = .next t ∧ t = { s with got := t.got } ∧
      (∀ k < 3, t.got.get 0 (48 * k + die) = if (n - s.got.get 0 (48 * k + die)).getLsbD 31 then s.got.get 0 (48 * k + die) else n) ∧
      ∀ k e, k < 3 → e < 48 → e ≠ die → t.got.get 0 (48 * k + e) = s.got.get 0 (48 * k + e)) ∧
    (∀ die b, die / 3 = s.package →
      let n := die % 3
      let u := if s.batchNew n b then s.batchArrives n b else s
      let bs := b.stores.flatMap (fun x => place x.1 x.2)
      (u.batchReady n b = true → u.writeHeld none (gransOf (bs.map Prod.fst)) = false → ∃ t, exec (.batchApply die b) s = .next t ∧
        t.dram = s.dram.store 64 64 (bs.filter (fun x => !s.outside x.1)) ∧ t.launches = s.launches ∧ t.inbound = u.inbound.erase (n, b)) ∧
      (u.batchReady n b = false → exec (.batchApply die b) s = .next u)) ∧
    (∀ die b o a r, die / 3 ≠ s.package → b.src / 3 = s.package → s.batches = a ++ o :: r → (∀ x ∈ a, x.dst ≠ die) → o.dst = die →
      (o.src = b.src → o.clock = b.clock → o.stores = b.stores → ∃ t, exec (.batchApply die b) s = .next t ∧ t.batches = a ++ r ∧
        t.launches = s.launches ∧
        t.dram = s.dram.store 64 64 ((b.stores.flatMap (fun x => place x.1 x.2)).filter (fun x => !s.outside x.1))) ∧
      (o.src ≠ b.src ∨ o.clock ≠ b.clock ∨ o.stores ≠ b.stores → exec (.batchApply die b) s = .next s)) ∧
    (∀ die b, die / 3 ≠ s.package → b.src / 3 ≠ s.package → ∃ t, exec (.batchApply die b) s = .next t ∧ t.launches = s.launches ∧
      t.dram = s.dram.store 64 64 (((b.stores.flatMap (fun x => place x.1 x.2)).filter (fun x => s.homeDie x.1 == 3 + die)).filter
        (fun x => !s.outside x.1)))

/-! ## The memory side, containment, reset -/

namespace Sys2Proof.Claims
open Sys2Proof.Machine

/-- A write of a hart or a port (`who`) has started: one of its aligned 8-byte units has been written, all of it where it is one; the
rest is under way (R210). No byte goes where no DRAM is (R9). -/
def WritesUnits (s t : State) (who pa : Nat) (bs : List Byte) (via : Option (BitVec 16 × Nat)) : Prop :=
  let held (x : List (Nat × Byte)) : List (Nat × Byte) := x.filter (fun y => !s.outside y.1)
  ∃ u, u ∈ busUnits pa bs.length ∧ t.dram = s.dram.store 64 64 (held (place u.1 ((bs.drop (u.1 - pa)).take u.2))) ∧
    (pa % 8 + bs.length ≤ 8 → t.dram = s.dram.store 64 64 (held (place pa bs)) ∧ t.replies.get .none who = .done ∧ t.bus = s.bus) ∧
    (8 < pa % 8 + bs.length → t.bus = s.bus ++ [{ who := who, base := pa, write := some bs, units := (busUnits pa bs.length).erase u
                                                  got := [], lost := false, via := via }])

end Sys2Proof.Claims

/-- R161, R203, R204, R205, R225, R228, R298 to R300, R426: a RED is applied at its home slice; a promotion that is complete makes ACCF 0b11; a page moves only with its mark, to a free frame of the asked
tier, once its access count passes: BUSY first, then, when no adapter holds the old translation, its granules and its leaf at once, and its
translations are dropped (log 4); an adapter's write lands where its table maps it and its read changes no data; what does not map is an
event of TYPE 0x05, with a reply unless it is posted (R299), and what is homed at another root port goes on to it (R298; log 117); a hart's
access lands at its physical address, or where the shared tables map it, with A and D set there (R195, R292);
each goes by aligned units of 8 bytes (R210; the order of the units is free, log 91). What harts and adapters are told is logs 27 and 92. -/
def Obligations.MemorySideSteps : Prop :=
  ∀ (s : State),
    (∀ (r : Red) (rs : List Red), s.reds = r :: rs → r.kind = 0 → r.stage = .here → s.writeHeld (s.ctx r.cid) (gransOf [r.pa]) = false →
      r.pa % (r.size.bits / 8) = 0 → s.outside r.pa = false → s.dram.unit 64 r.pa ≠ .lost → s.dram.goneAt r.pa = false → ∃ t, exec (.reductionApply 0) s = .next t ∧
        (r.reply = none → t.reds = rs) ∧
        (∀ m up, r.reply = some (m, up) → t.reds = (if r.cid = 0 then rs else { r with stage := .done } :: rs) ∧
          ((t.link (s.liveLink m r.pa)).dir up).msgs = ((s.link (s.liveLink m r.pa)).dir up).msgs ++ [ackMsg r.tag r.core]) ∧
        (let n := r.size.bits / 8
         let old : BitVec 64 := BitVec.ofNat 64 (natOfBytes ((List.range n).map (fun i => s.dram.byte (r.pa + i))))
         (r.op = .add → natOfBytes ((List.range n).map (fun i => t.dram.byte (r.pa + i))) = (old.toNat + r.val.toNat) % 2 ^ (8 * n)) ∧
         (∀ x, x < r.pa ∨ r.pa + n ≤ x → t.dram.byte x = s.dram.byte x))) ∧
    (∀ k, s.reds.length ≤ k → exec (.reductionApply k) s = .next s) ∧
    (∀ pa root r, s.promos = (pa, root) :: r → (∃ q ∈ s.reds, q.kind = 3 ∧ q.pa = pa ∧ q.early = true) →
      exec (.promotionComplete 0) s = .next s) ∧
    (∀ pa root r, s.promos = (pa, root) :: r → (∀ q ∈ s.reds, q.kind = 3 → q.pa = pa → q.early = false) → pa % 64 = 0 →
      s.dram.unit 64 pa = .present → s.outside pa = false → s.dram.gone = [] →
      let sh := Shape.ofRec (recOfBytes ((List.range 64).map (fun i => s.dram.byte (pa + i))))
      (sh.accf ≠ 1 → exec (.promotionComplete 0) s = .next { s with promos := r }) ∧
      (sh.accf = 1 → (∀ gs, s.writeHeld none gs = false) → ∃ t, exec (.promotionComplete 0) s = .next t ∧ t.promos = r ∧ (t.dram.byte (pa + 0x28)).extractLsb' 4 2 = 3)) ∧
    (∀ root va l tier, walk s.dram root va = .ok l → (∀ m ∈ s.moves, ¬ (m.root = root ∧ m.va = va ∧ m.tier = tier)) →
      let pass := Config.countsPass (s.counts.get 0 (ptePa l.pte)) s.free
      (l.pte.getLsbD 61 = false ∨ tierOf (l.pte.extractLsb' 62 2) = tier ∨ l.pte.getLsbD 60 = true ∨ s.freeFrame l.bits tier = none ∨
        pass = false → exec (.migrationMove root va tier) s = .next s) ∧
      (∀ dst, l.pte.getLsbD 61 = true → tierOf (l.pte.extractLsb' 62 2) ≠ tier → l.pte.getLsbD 60 = false →
        s.freeFrame l.bits tier = some dst → pass = true → ∃ t, exec (.migrationMove root va tier) s = .next t ∧
          t.moves = s.moves ++ [{ root := root, va := va, leaf := l.addr, bits := l.bits, src := ptePa l.pte, dst := dst, tier := tier }] ∧
          t.frames = s.frames.filter (fun x => x.1 != dst) ∧
          t.dram = s.dram.store 64 64 ((place l.addr (bytesOfNat 8 (l.pte ||| (1#64 <<< 60)).toNat)).filter (fun x => !s.outside x.1)))) ∧
    (∀ m, s.moves.find? (fun x => x.root == m.root && x.va == m.va && x.tier == m.tier) = some m → m.dst < 2 ^ 52 →
      let holds (rid : Nat) (x : TlbEnt) : Prop := ∃ l, (rid, l) ∈ s.atc ∧ x ∈ l ∧
        x.dropped (rootAsid m.root) .page (BitVec.ofNat 64 m.va) = true
      ((∃ rid x, holds rid x) → ∃ t, exec (.migrationMove m.root m.va m.tier) s = .next t ∧ t = { s with invs := t.invs } ∧
        ∀ rid x, (rid, x) ∈ t.invs ↔ (rid, x) ∈ s.invs ∨ holds rid x) ∧
      ((¬ ∃ rid x, holds rid x) → ∃ t bs, exec (.migrationMove m.root m.va m.tier) s = .next t ∧ t.moves.length + 1 = s.moves.length ∧
        t.frames = s.frames ++ [(m.src, m.bits, tierOf ((s.dram.word m.leaf 8).extractLsb' 62 2))] ∧ bs.length = 8 ∧
        t.dram = (s.dram.movePage m.src m.dst (2 ^ m.bits)).store 64 64 ((place (moved m.src m.dst (2 ^ m.bits) m.leaf) bs).filter
          (fun x => !s.outside x.1)) ∧
        (wordOfBytes 64 bs).getLsbD 60 = false ∧ (wordOfBytes 64 bs).extractLsb' 62 2 = tierCode m.tier ∧
        ∀ p x, x ∈ (t.core p).tlb → x.dropped (rootAsid m.root) .page (BitVec.ofNat 64 m.va) = false)) ∧
    (∀ port rid (addr : BitVec 64) bs n, port < 6 → port / 2 ∉ s.dropped → s.busy (64 + port) = false →
      let entry := (s.dctb.extractLsb' 12 40).toNat * 4096 + 16 * rid.toNat
      let on := s.dctb.getLsbD 0 = true ∧ (s.dram.word (entry + 8) 8).getLsbD 0 = true
      let refused (write : Bool) (t : State) : Prop := ∃ e : Event, e.type = 5 ∧ t = { s with
        events := s.events ++ [e], replies := if write then s.replies else s.replies.put .none (64 + port) .unsupported }
      (addr.toNat % 4096 + bs.length ≤ 4096 → ¬ on → ∃ t, exec (.adapterRequest port rid addr (.plain (.write bs))) s = .next t ∧
        refused true t) ∧
      (addr.toNat % 4096 + n ≤ 4096 → ¬ on → ∃ t, exec (.adapterRequest port rid addr (.plain (.read n))) s = .next t ∧
        refused false t) ∧
      (on → ∀ pa s1,
        (addr.toNat % 4096 + bs.length ≤ 4096 → s.reachPage (s.dram.word entry 8) addr .write = .ok pa s1 → s1.outside pa = false →
          s1.writeHeld none (gransOf ((place pa bs).map Prod.fst)) = false → bs ≠ [] →
          ∃ t, exec (.adapterRequest port rid addr (.plain (.write bs))) s = .next t ∧ Claims.WritesUnits s1 t (64 + port) pa bs
            (some (rootAsid (s.dram.word entry 8), addr.toNat))) ∧
        (∀ op, (op = .write bs ∧ addr.toNat % 4096 + bs.length ≤ 4096) ∨ (op = .read n ∧ addr.toNat % 4096 + n ≤ 4096) →
          s.reachPage (s.dram.word entry 8) addr (if op = .read n then .read else .write) = .ok pa s1 → s1.outside pa = true →
          exec (.adapterRequest port rid addr (.plain op)) s = .next { s1 with peers := s1.peers ++ [(port, pa, op)] }) ∧
        (addr.toNat % 4096 + n ≤ 4096 → s.reachPage (s.dram.word entry 8) addr .read = .ok pa s1 → s1.outside pa = false →
          ∃ t, exec (.adapterRequest port rid addr (.plain (.read n))) s = .next t ∧ t.dram = s1.dram ∧ t.events = s.events ∧
          (0 < n → pa % 8 + n ≤ 8 → t.replies.get .none (64 + port) =
            if s1.dram.unit 64 pa = .lost then .poisoned else .data ((List.range n).map (fun i => s1.dram.byte (pa + i))))) ∧
        (∀ (write : Bool) (f : XFault), s.reachPage (s.dram.word entry 8) addr (if write then .write else .read) = .fault f →
          ∃ t, exec (.adapterRequest port rid addr (.plain (if write then .write [] else .read 0))) s = .next t ∧ refused write t)) ∧
      (∃ t, exec (.adapterRequest port rid addr .invalidated) s = .next t ∧ (∀ x, (rid.toNat, x) ∉ t.invs) ∧
        t = { s with invs := t.invs, atc := t.atc } ∧
        ∀ x, (rid.toNat, x) ∈ s.invs → x ∉ t.atc.get [] rid.toNat) ∧
      (∃ e, exec (.aerEvent port) s = .next { s with events := s.events ++ [e] } ∧ e.type = 5)) ∧
    (∀ h pa bs n, h < 24 → h / 8 ∉ s.dropped → (s.hart h).running = true → s.busy h = false →
      (pa + bs.length ≤ windowBase → (∀ i < bs.length, s.outside (pa + i) = false) → s.writeHeld none (gransOf ((place pa bs).map Prod.fst)) = false → bs ≠ [] →
        ∃ t, exec (.hartMemoryAccess h (.phys pa) (.write bs)) s = .next t ∧ Claims.WritesUnits s t h pa bs none) ∧
      (∀ i < n, pa < windowBase → s.outside (pa + i) = true →
        exec (.hartMemoryAccess h (.phys pa) (.read n)) s = .next { s with replies := s.replies.put .none h .accessFault }) ∧
      (pa + n ≤ windowBase → (∀ i < n, s.outside (pa + i) = false) → ∃ t, exec (.hartMemoryAccess h (.phys pa) (.read n)) s = .next t ∧ t.dram = s.dram ∧
        (0 < n → pa % 8 + n ≤ 8 → t.replies.get .none h = .data ((List.range n).map (fun i => s.dram.byte (pa + i))))) ∧
      (∀ (via : HartVia) (va : BitVec 64), let empty : State := { s with harts := s.harts.put Hart.held h { s.hart h with tlb := [] } }
        via.fence = true → va.toNat % 4096 + n ≤ 4096 → va.toNat < 2 ^ 49 →
        (∀ f, walk s.dram via.root va.toNat = .error f →
          exec (.hartMemoryAccess h (.virt via va) (.read n)) s = .next { empty with replies := s.replies.put .none h .pageFault }) ∧
        (∀ l, walk s.dram via.root va.toNat = .ok l →
          let legal := (if via.user then l.pte.getLsbD 4 = true else l.pte.getLsbD 4 = false ∨ (via.sum = true ∧ via.fetch = false)) ∧
            (if via.fetch then l.pte.getLsbD 3 = true else l.pte.getLsbD 1 = true)
          let e := markPte l.pte false
          (¬ legal → exec (.hartMemoryAccess h (.virt via va) (.read n)) s = .next { empty with replies := s.replies.put .none h .pageFault }) ∧
          (legal → ptePa e + va.toNat % 2 ^ l.bits + n ≤ windowBase →
            (∀ i < n, s.outside (ptePa e + va.toNat % 2 ^ l.bits + i) = false) →
            ∃ t, exec (.hartMemoryAccess h (.virt via va) (.read n)) s = .next t ∧
              t.dram = if e = l.pte then s.dram else s.dram.store 64 64 ((place l.addr (bytesOfNat 8 e.toNat)).filter
                (fun x => !s.outside x.1)))))) ∧
    (∀ h pa, h < 24 → h / 8 ∉ s.dropped → (s.hart h).running = true → s.busy h = false → windowBase ≤ pa → pa % 8 = 0 →
      exec (.hartMemoryAccess h (.phys pa) (.read 8)) s =
        .next { s with replies := s.replies.put .none h (.data (bytesOfNat 8 (s.readWindow pa).toNat)) })

/-- R14, R176, R224, R279, R286 to R290, R328: an uncorrectable error makes its ECC word lost, a corrected one in a core's memory is counted, one
of DRAM at the first core of its home die (log 93), and drops an entry of a TLB; a lane repair changes no
value; a transient mismatch is counted and a persistent fault fences its core, at a schedule-cycle stop once it is over (R318); a die that drops
is no longer there, what was homed on it is lost as far as it was written (log 41), and the harts are told; a reset gives the state of R328 with
every island at 1300 MHz (log 26), applies the fence map (log 95) and the repair map (log 6), and keeps the flash. -/
def Obligations.ContainmentSteps : Prop :=
  ∀ (s : State) (cid addr : Nat),
    (s.homeDie addr < 3 → ∃ t, exec (.patrolScrub .dram .global addr .corrected) s = .next t ∧ t = { s with cores := t.cores } ∧
      ((t.core (128 * s.homeDie addr)).dbg.get 0 0x220).toNat = (((s.core (128 * s.homeDie addr)).dbg.get 0 0x220).toNat + 1) % 2 ^ 48) ∧
    (3 ≤ s.homeDie addr → exec (.patrolScrub .dram .global addr .corrected) s = .next s) ∧
    (∀ p pl, (s.core p).plane = some pl → addr < 0x70000 → ∃ t x, exec (.patrolScrub (.instr p addr) .global addr .uncorrectable) s = .next t ∧
      (t.core p).plane = some x ∧ addr / 8 * 8 ∈ x.bad ∧ x.bytes = pl.bytes ∧ x.image = pl.image ∧ t.dram = s.dram) ∧
    (∀ p n, ∃ t, exec (.patrolScrub (.tlb p n) .global addr .corrected) s = .next t ∧ t = { s with cores := t.cores } ∧
      (t.core p).tlb = (s.core p).tlb.eraseIdx n) ∧
    (∀ p i n, ∃ t, exec (.patrolScrub (.streamTlb p i n) .global addr .corrected) s = .next t ∧ t = { s with cores := t.cores } ∧
      (t.core p).streams.get [] i = ((s.core p).streams.get [] i).eraseIdx n) ∧
    (∀ h n, h < 24 → h / 8 ∉ s.dropped → ∃ t, exec (.patrolScrub (.hartTlb h n) .global addr .corrected) s = .next t ∧
      t = { s with cores := t.cores, harts := t.harts } ∧ (t.hart h).tlb = (s.hart h).tlb.eraseIdx n) ∧
    exec (.patrolScrub .dram .global addr .uncorrectable) s = .next { s with dram := s.dram.lose 64 64 addr } ∧
    (∀ c, s.ctx cid = some c → c.cid = cid → Safety.LocalWhole c → addr < c.plots * 65536 →
      (∃ t d, exec (.patrolScrub (.plots cid) .sp addr .uncorrectable) s = .next t ∧ t.ctx cid = some d ∧ d.sp.unit 2 addr = .lost ∧
        d.sp.byte addr = 0 ∧ (∀ x, x / 8 ≠ addr / 8 → d.sp.byte x = c.sp.byte x ∧ d.sp.unit 2 x = c.sp.unit 2 x) ∧ t.dram = s.dram) ∧
      (∃ t, exec (.patrolScrub (.plots cid) .sp addr .corrected) s = .next t ∧ t.ctx cid = some c ∧
        ((t.core c.core).dbg.get 0 0x220).toNat = (((s.core c.core).dbg.get 0 0x220).toNat + 1) % 2 ^ 48)) ∧
    (∀ die lane, die < 3 → die ∉ s.dropped → exec (.busRepair die lane) s = .next { s with repairs := s.repairs ++ [(die, lane)] }) ∧
    (∀ p moves, p < 384 → (∃ t, exec (.coreFence (.core p) false moves) s = .next t ∧ t = { s with cores := t.cores } ∧
        ((t.core p).dbg.get 0 0x210).toNat = (((s.core p).dbg.get 0 0x210).toNat + 1) % 2 ^ 48) ∧
      (s.coreStopped p = true →
        exec (.coreFence (.core p) true moves) s = .next (s.setCore p { s.core p with fdue := true })) ∧
      (s.coreStopped p = false → (∀ c ∈ s.allCtxs, c.core ≠ p) → ∃ t, exec (.coreFence (.core p) true []) s = .next t ∧ (t.core p).fenced = true ∧
        t = { s with cores := t.cores, dooms := t.dooms } ∧ (∀ k, k ≠ p → t.core k = s.core k) ∧
        (t.fencedOn (p / 128) ≤ 16 → t.dooms = s.dooms) ∧ (16 < t.fencedOn (p / 128) → p / 128 ∈ t.dooms ∨ p / 128 ∈ s.dropped))) ∧
    (∀ k, k < 24 → (∀ c ∈ s.allCtxs, c.core / 16 ≠ k) → k ∉ s.fencedCl → k ∉ s.fencedMx →
      (∃ t, exec (.coreFence (.cluster k) true []) s = .next t ∧
        t = { s with fencedCl := s.fencedCl ++ [k], dooms := t.dooms } ∧
        (t.fencedOn (k / 8) ≤ 16 → t.dooms = s.dooms) ∧ (16 < t.fencedOn (k / 8) → k / 8 ∈ t.dooms ∨ k / 8 ∈ s.dropped)) ∧
      exec (.coreFence (.matrix k) true []) s = .next { s with fencedMx := s.fencedMx ++ [k] }) ∧
    (∀ die, die < 3 → die ∉ s.dropped → s.quiet die = true → ∃ t, exec (.dieDrop die) s = .next t ∧ t.dropped = s.dropped ++ [die] ∧
      (∃ e, t.events.getLast? = some e ∧ e.type = 3 ∧ natOfBytes e.bytes = die) ∧
      (s.queues = [] → s.ctxs = [] → s.launches = [] → s.moves = [] → ∀ g,
        let stack := 96 * 2 ^ 30
        let off := 3 * stack ≤ 64 * g
        (stack * die ≤ 64 * g → 64 * g < stack * (die + 1) → t.dram.unit 64 (64 * g) = .lost ∧ ∀ i < 64, t.dram.byte (64 * g + i) = 0) ∧
        (off → s.homeDie (64 * g) = die → s.written.get false g = true → t.dram.unit 64 (64 * g) = .lost) ∧
        ((off ∧ (s.homeDie (64 * g) ≠ die ∨ (s.written.get false g = false ∧ s.reds = []))) ∨
            64 * g < stack * die ∨ (stack * (die + 1) ≤ 64 * g ∧ ¬ off) →
          t.dram.unit 64 (64 * g) = s.dram.unit 64 (64 * g) ∧ ∀ i < 64, t.dram.byte (64 * g + i) = s.dram.byte (64 * g + i)))) ∧
    (∀ die, 3 ≤ die ∨ die ∈ s.dropped → exec (.dieDrop die) s = .next s) ∧
    (let r : State := { State.reset with
       flash := s.flash, ifrq := (List.range 36).map (fun i => (i, 1300)), agenda := s.agenda, rr := s.rr, free := s.free }
     ((∀ i, i < 411 → s.mapBit i = false) → exec .resetRelease s = .next { r with
       repairs := (Config.repairMap (s.flash.filter (fun x => decide (0x1000 ≤ x.1) && decide (x.1 < 0x5000)))).filter (fun x => decide (x.1 < 3))
       calib := s.flash.filter (fun x => decide (0x5000 ≤ x.1) && decide (x.1 < 0x9000)) }) ∧
     (∃ t, exec .resetRelease s = .next t ∧ t.flash = s.flash ∧ t.ctxs = [] ∧ t.queues = [] ∧ t.launches = [] ∧ t.events = [] ∧
       (∀ d, d ∈ t.dropped ↔ d < 3 ∧ s.mapBit d = true) ∧ (∀ p, p < 384 → (t.core p).fenced = s.mapBit (3 + p)) ∧
       (∀ k, k ∈ t.fencedMx ↔ k < 24 ∧ s.mapBit (387 + k) = true) ∧ ∀ d, d < 3 → s.mapBit d = false → (t.hart (8 * d)).running = true))

/-! ## Steps, decoding, reset -/

namespace Sys2Proof.Claims
open Sys2Proof.Machine

/-- Core `p` issues from its active context `c`: the context runs, is not to leave its core, has no imprecise trap to raise, the
core's cycle match is off, and no word of its plane was found in error (R200, R269, R286, R317). -/
def Serving (s : State) (p : Nat) (c : Ctx) : Prop :=
  s.activeCtx p = some c ∧ (c.stat = .running ∨ c.stat = .inverse) ∧ s.coreServes c = true ∧
    ((c.leaving || s.displaced c) && !s.goesOn c) = false ∧ c.impr = [] ∧ s.cycleMatch p = false ∧
    ∀ pl, (s.core p).plane = some pl → pl.bad = []

/-- The words of a long word one after another: each sees what the ones before it have done, each issues, and the context
counts as joined to the end of the long word (R49, R52). `f` says that the control word was a FORK. -/
def InOrder (p cid : Nat) : List (Sq × Instr) → State → Bool → State → Bool → Prop
  | [], s, f, t, g => t = s ∧ g = f
  | (q, i) :: r, s, f, t, g => ∃ u, exec i { s with focus := (p, q) } = .next u ∧ u.last = .issued ∧
      InOrder p cid r (u.keepJoined cid) (f || u.hasForked cid) t g

/-- The bytes that sequencer `q` of core `p` reads at index `pc` (R80, R108). -/
def bytesAt (s : State) (p : Nat) (q : Sq) (pc : Nat) : List Byte :=
  (List.range (q.unit * min 3 (q.limit - pc))).map (fun i =>
    ((s.core p).plane.getD ⟨0, [], []⟩).bytes.get 0 (Sq.offset q + q.unit * pc + i))

end Sys2Proof.Claims

/-- R49 to R51, R56, R65, R70, R102, R103, R108, R401, R453, R487: a step is a turn. The turn of a device event runs that event (a cycle match
stops a core only where a word would issue, R317; an offered matrix word gives way to the words that R65 and R70 put before it). A pending
imprecise trap is raised before any word (R269). A turn of a forked sequencer gives way where another one's wait for its semaphore comes first,
and else lands the results that are due, then runs the word that the bytes at its pc decode to, which the markers of its cycle then count
(log 108); bits that are no instruction trap ILLEGAL, an index past the last TARGET. A turn of a joined context runs one word of each sequencer in the order control, load, store,
compute, TRAP after the others, and then ends the long word. -/
def Obligations.StepRunsTheDecodedWord : Prop :=
  (∀ (s : State) (t : Turn) (r : List Turn), s.agenda = t :: r → step s = runTurn t { s with agenda := r }.tick) ∧
  (∀ (s : State) (i : Instr), (∀ p, i ≠ .cycleMatchStop p) → (∀ n, i ≠ .engineCommandStart n .mx) → runTurn (.event i) s = exec i s) ∧
  (∀ (s : State) (n : Nat), runTurn (.event (.engineCommandStart n .mx)) s =
    if s.offerYields n then .next s else exec (.engineCommandStart n .mx) s) ∧
  (∀ (s : State) (p : Nat), runTurn (.event (.cycleMatchStop p)) s =
    if s.wouldIssue p then exec (.cycleMatchStop p) s else .next s) ∧
  (∀ (s : State) (p : Nat) (c : Ctx) (q : Sq) (k : Nat × Word) (r : List (Nat × Word)), s.activeCtx p = some c →
    c.stat = .running ∨ c.stat = .inverse → s.coreServes c = true → ((c.leaving || s.displaced c) && !s.goesOn c) = false →
    c.impr = k :: r → s.escapeOk c = true → runTurn (.issue p q) s = .next (s.suspend { c with impr := r } .ctl true none (mkTrap k.1 k.2))) ∧
  (∀ (s : State) (p : Nat) (q : Sq), s.activeCtx p = none → runTurn (.issue p q) s = .next s.stalled) ∧
  (∀ (s : State) (p : Nat) (q : Sq) (c : Ctx), Serving s p c → c.joined = false →
    let c1 := if q = .ctl then { c with marks := c.marks.map Marker.close } else c
    let s0 := s.setCtx c1
    let d := c1.landDue (some q)
    let s1 := { s0.setCtx d with focus := (p, q) }
    let x := d.seqr q
    (s0.yields p q c1 = true → runTurn (.issue p q) s = .next { s0 with focus := (p, q) }.stalled) ∧
    (s0.yields p q c1 = false → x.run ≠ .running → runTurn (.issue p q) s = .next s1.stalled) ∧
    (s0.yields p q c1 = false → x.run = .running → x.bcast = none →
      (q.limit ≤ x.pc → runTurn (.issue p q) s = .next (s1.trapHere d q (mkTrap 0x0F (BitVec.ofNat 32 x.pc)))) ∧
      (x.pc < q.limit →
        (∀ i n, decode q x.pc (bytesAt s p q x.pc) = .ok (i, n) → runTurn (.issue p q) s = match exec i s1 with
          | .next t => .next (if t.last = .issued ∧ q ≠ .ctl then t.coverMarks c.cid q (Config.sameCycle s.free) else t)
          | o => o) ∧
        (∀ e, decode q x.pc (bytesAt s p q x.pc) = .error e → runTurn (.issue p q) s = exec (.illegalEncoding e.tval) s1)))) ∧
  (∀ (s : State) (p : Nat) (c : Ctx) (qs : List (Sq × Instr)), Serving s p c → c.joined = true →
    let d := c.landDue none
    let s0 := s.setCtx { d with semT := d.sems, semS := d.sems, cbitsT := d.cbits }
    let s1 := { s0 with focus := (p, .ctl), last := .issued }
    (∀ q, (d.seqr q).bcast = none) → d.replay = 0 → d.arrayDue = false → qs ≠ [] →
    (∀ q, (d.seqr q).run = .running → (d.seqr q).pc < q.limit) →
    qs = [Sq.ctl, .load, .store, .comp].filterMap (fun q => if (d.seqr q).run = .running then
      (match decode q (d.seqr q).pc (bytesAt s p q (d.seqr q).pc) with
        | .ok (i, _) => some (q, i)
        | .error _ => none) else none) →
    (∀ q, (d.seqr q).run = .running → ∃ i n, decode q (d.seqr q).pc (bytesAt s p q (d.seqr q).pc) = .ok (i, n)) →
    (∀ t g, (∀ w r, qs = (.ctl, w) :: r → isTrapWord w = false) → InOrder p c.cid qs s1 false t g → t.last = .issued →
      runTurn (.issue p .ctl) s = .next (t.endLong p c.cid g)) ∧
    (∀ w r t g u, qs = (.ctl, w) :: r → isTrapWord w = true → InOrder p c.cid r s1 false t g → t.last = .issued →
      exec w { t.endLong p c.cid false with focus := (p, .ctl) } = .next u → u.last ≠ .stalled →
      runTurn (.issue p .ctl) s = .next u))

/-- R106 to R119, R132: a control word and a word of a stream are the bits of their encoding and no others: decoding what `encode` writes gives
the instruction back, whatever bytes follow, and what decodes is exactly what `encode` writes, with every reserved bit zero.
Here the words of the control sequencer. -/
def Obligations.ControlWordsRoundTrip : Prop :=
  (∀ (idx : Nat) (i : Instr) (rest : List Byte), i.wf .ctl idx = true →
    (encode .ctl i).length = 4 * i.len ∧ decode .ctl idx (encode .ctl i ++ rest) = .ok (i, i.len)) ∧
  (∀ (idx : Nat) (bs : List Byte) (i : Instr) (n : Nat), decode .ctl idx bs = .ok (i, n) →
    n = i.len ∧ i.wf .ctl idx = true ∧ encode .ctl i = bs.take (4 * n))

/-- R100, R118 to R132: the same of the 96-bit and 192-bit words of the streams, chained copies and embedded control words included. -/
def Obligations.StreamWordsRoundTrip : Prop :=
  (∀ (q : Sq) (idx : Nat) (i : Instr) (rest : List Byte), q ≠ .ctl → i.wf q idx = true →
    (encode q i).length = 12 * i.len ∧ decode q idx (encode q i ++ rest) = .ok (i, i.len)) ∧
  (∀ (q : Sq) (idx : Nat) (bs : List Byte) (i : Instr) (n : Nat), q ≠ .ctl → decode q idx bs = .ok (i, n) →
    n = i.len ∧ i.wf q idx = true ∧ encode q i = bs.take (12 * n))

/-- Words that the manual encodes: MUL (R415), LD (R392), ST (05), AMO (R357), LBRD, the 96-bit NOP and HALT (R119),
CPY (R365), MMA (R410), VCHK (18): each decodes to what its text says. -/
def Obligations.DecodeSamples : Prop :=
  let h0 : Hd := { wide := false, pneg := false, pred := 0, wait := 0xFF, sig := 0xFF }
  let hw (w s : BitVec 8) : Hd := { wide := true, pneg := false, pred := 0, wait := w, sig := s }
  let mem (reg : BitVec 5) (base : BitVec 4) (off : BitVec 24) : MemF :=
    { reg := reg, base := base, size := .b32, scope := .core, ord := false, acq := false, rel := false, off := off
      tier := .any, loc := 0 }
  decode .ctl 0 (bytesOfNat 4 0x040C7402) = .ok (.mul h0 6 7 8, 1) ∧
  decode .ctl 0 (bytesOfNat 8 0x0000000060165000) = .ok (.ld h0 (mem 11 2 0) false, 2) ∧
  decode .ctl 0 (bytesOfNat 8 0x0000080064125000) = .ok (.st h0 (mem 9 2 8), 2) ∧
  decode .ctl 0 (bytesOfNat 8 0x00200000700C5000) = .ok (.amo h0 (mem 6 2 0x2000) .add, 2) ∧
  decode .ctl 0 (bytesOfNat 8 0x000000005C160900) = .ok (.lbrd h0 11 4 4 0 0 0, 2) ∧
  decode .load 0 (bytesOfNat 12 0x010FFFF000000000F8000000) = .ok (.nop (hw 0xFF 0xFF), 1) ∧
  decode .store 0 (bytesOfNat 12 0x010FFFF000000000F8010000) = .ok (.halt (hw 0xFF 0xFF), 1) ∧
  decode .load 0 (bytesOfNat 12 0x10103145000040400000_03A2) = .ok (.cpy (hw 3 0x14)
    { tsp := .global, fsp := .sp, toP := 5, toOff := 0x40, fromP := 4, fromOff := 0, len := 7, b6 := false, acq := true
      rel := false, scope := .cl, chain := none }, 1) ∧
  decode .comp 0 (bytesOfNat 24 0x80220DFF4010000010000400) = .ok (.mma (hw 0x0D 0xFF)
    { af := .bf16, bf := .bf16, acc := 1, redun := false, tstart := false, alay := .row, ovw := false, xsel := false
      adesc := 4, aoff := 0, bbase := 0x100, ks := 1, mdesc := 0, sp := .dense, moff := 0, bpb := 0, rnd := .rne, imm := 0 }, 2) ∧
  decode .comp 0 (bytesOfNat 12 0x641FF0900000800000000000) = .ok (.vchk (hw 0xFF 9)
    { ty := .fp16, d := .reg .v 0 0, a := .stream 0 0, b := .reg .v 0 0, nw := false, rnd := .rne }, 1)

/-! ## The memories' canonical form -/

/-- R3, R166, R167, R176 (the form of the data is the model's): every step keeps the memories in canonical form: the DRAM, and the scratchpad and canopy of every
context list no byte that is zero, no unit that is vacated, and no address twice. And every step keeps the contexts under their own
numbers. -/
def Obligations.StepKeepsMemoryForm : Prop :=
  (∀ (s t : State), Sys2Proof.Safety.MemOk s → step s = .next t → Sys2Proof.Safety.MemOk t) ∧
  (∀ (s t : State), Sys2Proof.Safety.Keyed s → step s = .next t → Sys2Proof.Safety.Keyed t)

/-- The state after reset has the memories in canonical form, and contexts under their own numbers. -/
def Obligations.ResetHasMemoryForm : Prop := Sys2Proof.Safety.MemOk State.reset ∧ Sys2Proof.Safety.Keyed State.reset

/-- R169, R294, R314, R325, R328, R329: after reset every core is idle with both planes invalid, every queue slot is disabled, every DRAM granule vacated
and reads zero, no context exists, hart 0 of each die runs and the other harts are held, and the device, debug and power
registers hold their reset values. -/
def Obligations.ResetValues : Prop :=
  let r := State.reset
  (∀ p, (r.core p).active = none ∧ (r.core p).plane = none ∧ (r.core p).shadow = none ∧ (r.core p).fill = none ∧
    (r.core p).fenced = false ∧ ∀ off, (r.core p).dbg.get 0 off = 0) ∧
  (∀ n, (r.queue n).enabled = false ∧ (r.queue n).qcba = 0) ∧ r.launches = [] ∧ (∀ n, r.ctx n = none) ∧
  (∀ a, r.dram.unit 64 a = .vacated ∧ r.dram.byte a = 0) ∧
  (∀ h, (r.hart h).running = true ↔ h = 0 ∨ h = 8 ∨ h = 16) ∧
  r.evbase = 0 ∧ r.evtail = 0 ∧ r.evhead = 0 ∧ r.evmsi = 0 ∧ r.msia = 0 ∧ r.shva = 0 ∧ r.shbusy = false ∧ r.dctb = 0 ∧
  r.cspill = 0 ∧ r.pcap = 2700 ∧ r.pnow = 0 ∧ ∀ i, r.icap.get 1300 i = 1300 ∧ r.ipwr.get 0 i = 0 ∧ r.ifrq.get 0 i = 0

/-! ## Frames -/

namespace Sys2Proof.Claims
open Sys2Proof.Machine

/-- The registers that a scalar word's results go to. -/
def targets (i : Instr) : Option (List Dest) :=
  match i with
  | .add _ d .. | .sub _ d .. | .mul _ d .. | .mulh _ d .. | .mulhn _ d .. | .div _ d .. | .divn _ d .. | .mod _ d ..
  | .modn _ d .. | .and _ d .. | .or _ d .. | .xor _ d .. | .not _ d .. | .shl _ d .. | .shr _ d .. | .sra _ d ..
  | .min _ d .. | .minn _ d .. | .max _ d .. | .maxn _ d .. | .clz _ d .. | .popc _ d .. | .mov _ d .. | .sel _ d ..
  | .addi _ d .. | .subi _ d .. | .andi _ d .. | .ori _ d .. | .xori _ d .. | .shli _ d .. | .shri _ d .. | .srai _ d ..
  | .movi _ d .. | .movh _ d .. => some [.reg d]
  | .addp _ d .. | .subp _ d .. | .madp _ d .. => some [.reg d, .reg (d + 1)]
  | .cmp _ p .. | .cmpi _ p .. => some [.pred p]
  | .nop .. => some []
  | _ => none

/-- What no scalar word and no store changes at once: registers, special registers and memory of the context. -/
def Kept (d c : Ctx) : Prop :=
  (∀ q, (d.seqr q).regs = (c.seqr q).regs ∧ (d.seqr q).preds = (c.seqr q).preds ∧ (d.seqr q).epc = (c.seqr q).epc) ∧
    d.v = c.v ∧ d.m = c.m ∧ d.acc = c.acc ∧ d.bp = c.bp ∧ d.desc = c.desc ∧ d.sticky = c.sticky ∧ d.cause = c.cause ∧
    d.tval = c.tval ∧ d.hen = c.hen ∧ d.cbits = c.cbits ∧ d.sp = c.sp ∧ d.can = c.can ∧ d.sup = c.sup ∧ d.phase = c.phase ∧
    d.inb = c.inb ∧ d.outb = c.outb ∧ d.mx = c.mx

end Sys2Proof.Claims

/-- R56, R57, R106, R353: a scalar word that issues changes no register at once, no memory and no other context; the results that it puts in
flight are of its own sequencer, without flags, and for its destination alone (ScalarResultLands says what their landing
writes); of the semaphores only the header's change, and of the sequencers only its own moves on. -/
def Obligations.ScalarWordFrame : Prop :=
  ∀ (s t : State) (c : Ctx) (i : Instr) (h : Hd) (ts : List Dest), header i = some h → targets i = some ts →
    s.activeCtx s.focus.1 = some c → exec i s = .next t → t.last = .issued →
    t = { s with ctxs := t.ctxs, innq := t.innq, last := .issued } ∧ (∀ n, n ≠ c.cid → t.ctx n = s.ctx n) ∧
    (∀ x, t.dram.byte x = s.dram.byte x) ∧
    ∃ d fs, t.ctx c.cid = some d ∧ Kept d c ∧ d.legno = c.legno ∧ d.ended = c.ended ∧ d.flight = c.flight ++ fs ∧
      (∀ f ∈ fs, f.sq = s.focus.2 ∧ f.flags = 0 ∧ f.sig = 0xFF ∧ f.dest ∈ ts) ∧
      (∀ q, q ≠ s.focus.2 → d.seqr q = c.seqr q) ∧ (∀ n, n ≠ h.wait → n ≠ h.sig → d.sem n = c.sem n)

/-- R391, R449, R450, R195, R215: the frame of ST and STP. A store of local memory leaves all memory as it is until its bytes land, and then changes
only the `width` bytes from the address on. A store of DRAM in a leg changes no byte but the walker's marks in the page's
leaf; in a task it changes besides only the `width` bytes from the physical address on. No register changes. (The race log of
R323, where it is on, is a write of its own.) -/
def Obligations.StoreWordFrame : Prop :=
  ∀ (s t : State) (c : Ctx) (h : Hd) (m : MemF) (i : Instr), i = .st h m ∨ i = .stp h m → Runs s c h → s.focus.2 = .ctl →
    c.cancelled .ctl = false → exec i s = .next t → t.last = .issued →
    let k := c.begun .ctl h
    let va := address c m
    let n := width m
    (∃ d, t.ctx c.cid = some d ∧ Kept d c ∧
      ∀ sp a, k.select s.free va n .write = .here sp a → (∀ x, t.dram.byte x = s.dram.byte x) ∧
        ∃ f, d.flight = c.flight ++ [f] ∧ f.due = c.t + 1 ∧
          (∀ x, (sp = .sp ∧ a ≤ x ∧ x < a + n) ∨ (d.landOne f).sp.byte x = d.sp.byte x) ∧
          (∀ x, (sp = .can ∧ a ≤ x ∧ x < a + n) ∨ (d.landOne f).can.byte x = d.can.byte x)) ∧
    (k.select s.free va n .write = .global → ∀ s1 pa, Reaches s k va n .write k.cls s1 pa →
      (∀ x, (c.isTask = true ∧ pa ≤ x ∧ x < pa + n) ∨ t.dram.byte x = s1.dram.byte x) ∧
      (((s.core c.core).dbg.get 0 0x1120).getLsbD 0 = false →
        ∀ x, s1.dram.byte x ≠ s.dram.byte x → ∃ l, walk s.dram c.root va.toNat = .ok l ∧ l.addr ≤ x ∧ x < l.addr + 8))
end

