-- ==== Sys2Proof/Laws/Exec.lean ====
section
/-!
SUPPORT. The dispatch, one equation per constructor, so that no proof unfolds the whole of it.
-/
namespace Sys2Proof.Machine

theorem exec_abend h (s : State) : exec (.abend h) s = execAbend h s := rfl
theorem exec_abop h pair kind scls inv (s : State) : exec (.abop h pair kind scls inv) s = execAbop h pair kind scls inv s := rfl
theorem exec_aclr h f (s : State) : exec (.aclr h f) s = execAclr h f s := rfl
theorem exec_acvt h f (s : State) : exec (.acvt h f) s = execAcvt h f s := rfl
theorem exec_add h d a b (s : State) : exec (.add h d a b) s = execAdd h d a b s := rfl
theorem exec_addi h d a imm (s : State) : exec (.addi h d a imm) s = execAddi h d a imm s := rfl
theorem exec_addp h d a b (s : State) : exec (.addp h d a b) s = execAddp h d a b s := rfl
theorem exec_and h d a b (s : State) : exec (.and h d a b) s = execAnd h d a b s := rfl
theorem exec_andi h d a imm (s : State) : exec (.andi h d a imm) s = execAndi h d a imm s := rfl
theorem exec_clz h d a (s : State) : exec (.clz h d a) s = execClz h d a s := rfl
theorem exec_ald h f (s : State) : exec (.ald h f) s = execAld h f s := rfl
theorem exec_ast h f (s : State) : exec (.ast h f) s = execAst h f s := rfl
theorem exec_amo h m op (s : State) : exec (.amo h m op) s = execAmo h m op s := rfl
theorem exec_amoc h m (s : State) : exec (.amoc h m) s = execAmoc h m s := rfl
theorem exec_bars h comm op a d (s : State) : exec (.bars h comm op a d) s = execBars h comm op a d s := rfl
theorem exec_br h disp (s : State) : exec (.br h disp) s = execBr h disp s := rfl
theorem exec_bra h reg (s : State) : exec (.bra h reg) s = execBra h reg s := rfl
theorem exec_call h disp (s : State) : exec (.call h disp) s = execCall h disp s := rfl
theorem exec_canf h c (s : State) : exec (.canf h c) s = execCanf h c s := rfl
theorem exec_canr h c (s : State) : exec (.canr h c) s = execCanr h c s := rfl
theorem exec_cmp h p cc a b (s : State) : exec (.cmp h p cc a b) s = execCmp h p cc a b s := rfl
theorem exec_cmpi h p cc a imm (s : State) : exec (.cmpi h p cc a imm) s = execCmpi h p cc a imm s := rfl
theorem exec_cpy h c (s : State) : exec (.cpy h c) s = execCpy h c s := rfl
theorem exec_cset h c value (s : State) : exec (.cset h c value) s = execCset h c value s := rfl
theorem exec_cwait h c value (s : State) : exec (.cwait h c value) s = execCwait h c value s := rfl
theorem exec_csrr h d csr (s : State) : exec (.csrr h d csr) s = execCsrr h d csr s := rfl
theorem exec_csrw h a csr (s : State) : exec (.csrw h a csr) s = execCsrw h a csr s := rfl
theorem exec_ctbl h pair (s : State) : exec (.ctbl h pair) s = execCtbl h pair s := rfl
theorem exec_ctxl h pair bank (s : State) : exec (.ctxl h pair bank) s = execCtxl h pair bank s := rfl
theorem exec_ctxs h pair bank (s : State) : exec (.ctxs h pair bank) s = execCtxs h pair bank s := rfl
theorem exec_dbrk h (s : State) : exec (.dbrk h) s = execDbrk h s := rfl
theorem exec_div h d a b (s : State) : exec (.div h d a b) s = execDiv h d a b s := rfl
theorem exec_divn h d a b (s : State) : exec (.divn h d a b) s = execDivn h d a b s := rfl
theorem exec_drain h (s : State) : exec (.drain h) s = execDrain h s := rfl
theorem exec_dup h c (s : State) : exec (.dup h c) s = execDup h c s := rfl
theorem exec_eret h (s : State) : exec (.eret h) s = execEret h s := rfl
theorem exec_fence h scope (s : State) : exec (.fence h scope) s = execFence h scope s := rfl
theorem exec_fork h (s : State) : exec (.fork h) s = execFork h s := rfl
theorem exec_join h (s : State) : exec (.join h) s = execJoin h s := rfl
theorem exec_gthr h c dup (s : State) : exec (.gthr h c dup) s = execGthr h c dup s := rfl
theorem exec_halt h (s : State) : exec (.halt h) s = execHalt h s := rfl
theorem exec_hint h pair kind (s : State) : exec (.hint h pair kind) s = execHint h pair kind s := rfl
theorem exec_jmp h disp (s : State) : exec (.jmp h disp) s = execJmp h disp s := rfl
theorem exec_lbrd h count len mask skl sks skc (s : State) : exec (.lbrd h count len mask skl sks skc) s = execLbrd h count len mask skl sks skc s := rfl
theorem exec_ld h m sx (s : State) : exec (.ld h m sx) s = execLd h m sx s := rfl
theorem exec_ldp h m (s : State) : exec (.ldp h m) s = execLdp h m s := rfl
theorem exec_lege h (s : State) : exec (.lege h) s = execLege h s := rfl
theorem exec_lexit h lc cancel (s : State) : exec (.lexit h lc cancel) s = execLexit h lc cancel s := rfl
theorem exec_lnch h pair (s : State) : exec (.lnch h pair) s = execLnch h pair s := rfl
theorem exec_loop h lc count dist (s : State) : exec (.loop h lc count dist) s = execLoop h lc count dist s := rfl
theorem exec_lstat h d pair (s : State) : exec (.lstat h d pair) s = execLstat h d pair s := rfl
theorem exec_madp h d a b (s : State) : exec (.madp h d a b) s = execMadp h d a b s := rfl
theorem exec_mark h mask (s : State) : exec (.mark h mask) s = execMark h mask s := rfl
theorem exec_max h d a b (s : State) : exec (.max h d a b) s = execMax h d a b s := rfl
theorem exec_maxn h d a b (s : State) : exec (.maxn h d a b) s = execMaxn h d a b s := rfl
theorem exec_min h d a b (s : State) : exec (.min h d a b) s = execMin h d a b s := rfl
theorem exec_minn h d a b (s : State) : exec (.minn h d a b) s = execMinn h d a b s := rfl
theorem exec_migr h c (s : State) : exec (.migr h c) s = execMigr h c s := rfl
theorem exec_mma h f (s : State) : exec (.mma h f) s = execMma h f s := rfl
theorem exec_mmab h f (s : State) : exec (.mmab h f) s = execMmab h f s := rfl
theorem exec_mmas h f (s : State) : exec (.mmas h f) s = execMmas h f s := rfl
theorem exec_mmts h f (s : State) : exec (.mmts h f) s = execMmts h f s := rfl
theorem exec_mod h d a b (s : State) : exec (.mod h d a b) s = execMod h d a b s := rfl
theorem exec_modn h d a b (s : State) : exec (.modn h d a b) s = execModn h d a b s := rfl
theorem exec_mov h d a (s : State) : exec (.mov h d a) s = execMov h d a s := rfl
theorem exec_movh h d imm (s : State) : exec (.movh h d imm) s = execMovh h d imm s := rfl
theorem exec_movi h d imm (s : State) : exec (.movi h d imm) s = execMovi h d imm s := rfl
theorem exec_mul h d a b (s : State) : exec (.mul h d a b) s = execMul h d a b s := rfl
theorem exec_mulh h d a b (s : State) : exec (.mulh h d a b) s = execMulh h d a b s := rfl
theorem exec_mulhn h d a b (s : State) : exec (.mulhn h d a b) s = execMulhn h d a b s := rfl
theorem exec_nop h (s : State) : exec (.nop h) s = execNop h s := rfl
theorem exec_not h d a (s : State) : exec (.not h d a) s = execNot h d a s := rfl
theorem exec_nrm h f (s : State) : exec (.nrm h f) s = execNrm h f s := rfl
theorem exec_oabt h (s : State) : exec (.oabt h) s = execOabt h s := rfl
theorem exec_ocmt h (s : State) : exec (.ocmt h) s = execOcmt h s := rfl
theorem exec_or h d a b (s : State) : exec (.or h d a b) s = execOr h d a b s := rfl
theorem exec_ori h d a imm (s : State) : exec (.ori h d a imm) s = execOri h d a imm s := rfl
theorem exec_otsk h pair (s : State) : exec (.otsk h pair) s = execOtsk h pair s := rfl
theorem exec_plld h pair (s : State) : exec (.plld h pair) s = execPlld h pair s := rfl
theorem exec_plsw h (s : State) : exec (.plsw h) s = execPlsw h s := rfl
theorem exec_popc h d a (s : State) : exec (.popc h d a) s = execPopc h d a s := rfl
theorem exec_red h m op (s : State) : exec (.red h m op) s = execRed h m op s := rfl
theorem exec_redf h m shape ty (s : State) : exec (.redf h m shape ty) s = execRedf h m shape ty s := rfl
theorem exec_redo h m ty (s : State) : exec (.redo h m ty) s = execRedo h m ty s := rfl
theorem exec_ret h (s : State) : exec (.ret h) s = execRet h s := rfl
theorem exec_rngb h x (s : State) : exec (.rngb h x) s = execRngb h x s := rfl
theorem exec_rqnt h c (s : State) : exec (.rqnt h c) s = execRqnt h c s := rfl
theorem exec_sca h f (s : State) : exec (.sca h f) s = execSca h f s := rfl
theorem exec_sctr h c dup (s : State) : exec (.sctr h c dup) s = execSctr h c dup s := rfl
theorem exec_sel h d a b psel (s : State) : exec (.sel h d a b psel) s = execSel h d a b psel s := rfl
theorem exec_semi h sem reg (s : State) : exec (.semi h sem reg) s = execSemi h sem reg s := rfl
theorem exec_semr h d sem (s : State) : exec (.semr h d sem) s = execSemr h d sem s := rfl
theorem exec_setx h f (s : State) : exec (.setx h f) s = execSetx h f s := rfl
theorem exec_shl h d a b (s : State) : exec (.shl h d a b) s = execShl h d a b s := rfl
theorem exec_shli h d a imm (s : State) : exec (.shli h d a imm) s = execShli h d a imm s := rfl
theorem exec_shr h d a b (s : State) : exec (.shr h d a b) s = execShr h d a b s := rfl
theorem exec_shri h d a imm (s : State) : exec (.shri h d a imm) s = execShri h d a imm s := rfl
theorem exec_sra h d a b (s : State) : exec (.sra h d a b) s = execSra h d a b s := rfl
theorem exec_srai h d a imm (s : State) : exec (.srai h d a imm) s = execSrai h d a imm s := rfl
theorem exec_sig h sem rsrc amount (s : State) : exec (.sig h sem rsrc amount) s = execSig h sem rsrc amount s := rfl
theorem exec_spf h c (s : State) : exec (.spf h c) s = execSpf h c s := rfl
theorem exec_sstr h c (s : State) : exec (.sstr h c) s = execSstr h c s := rfl
theorem exec_st h m (s : State) : exec (.st h m) s = execSt h m s := rfl
theorem exec_stp h m (s : State) : exec (.stp h m) s = execStp h m s := rfl
theorem exec_sub h d a b (s : State) : exec (.sub h d a b) s = execSub h d a b s := rfl
theorem exec_subi h d a imm (s : State) : exec (.subi h d a imm) s = execSubi h d a imm s := rfl
theorem exec_subp h d a b (s : State) : exec (.subp h d a b) s = execSubp h d a b s := rfl
theorem exec_tlbi h pair kind (s : State) : exec (.tlbi h pair kind) s = execTlbi h pair kind s := rfl
theorem exec_trap h code (s : State) : exec (.trap h code) s = execTrap h code s := rfl
theorem exec_vabs h x (s : State) : exec (.vabs h x) s = execVabs h x s := rfl
theorem exec_vneg h x (s : State) : exec (.vneg h x) s = execVneg h x s := rfl
theorem exec_vadd h x (s : State) : exec (.vadd h x) s = execVadd h x s := rfl
theorem exec_vsub h x (s : State) : exec (.vsub h x) s = execVsub h x s := rfl
theorem exec_vmul h x (s : State) : exec (.vmul h x) s = execVmul h x s := rfl
theorem exec_vmin h x (s : State) : exec (.vmin h x) s = execVmin h x s := rfl
theorem exec_vmax h x (s : State) : exec (.vmax h x) s = execVmax h x s := rfl
theorem exec_vand h x (s : State) : exec (.vand h x) s = execVand h x s := rfl
theorem exec_vor h x (s : State) : exec (.vor h x) s = execVor h x s := rfl
theorem exec_vxor h x (s : State) : exec (.vxor h x) s = execVxor h x s := rfl
theorem exec_vnot h x (s : State) : exec (.vnot h x) s = execVnot h x s := rfl
theorem exec_vbcst h x (s : State) : exec (.vbcst h x) s = execVbcst h x s := rfl
theorem exec_vchk h x (s : State) : exec (.vchk h x) s = execVchk h x s := rfl
theorem exec_vclmp h x (s : State) : exec (.vclmp h x) s = execVclmp h x s := rfl
theorem exec_vcmp h x (s : State) : exec (.vcmp h x) s = execVcmp h x s := rfl
theorem exec_vcnt h x (s : State) : exec (.vcnt h x) s = execVcnt h x s := rfl
theorem exec_vcvt h x (s : State) : exec (.vcvt h x) s = execVcvt h x s := rfl
theorem exec_vdqn h x (s : State) : exec (.vdqn h x) s = execVdqn h x s := rfl
theorem exec_vqnt h x (s : State) : exec (.vqnt h x) s = execVqnt h x s := rfl
theorem exec_vexp2 h x (s : State) : exec (.vexp2 h x) s = execVexp2 h x s := rfl
theorem exec_vlog2 h x (s : State) : exec (.vlog2 h x) s = execVlog2 h x s := rfl
theorem exec_vrcp h x (s : State) : exec (.vrcp h x) s = execVrcp h x s := rfl
theorem exec_vrsq h x (s : State) : exec (.vrsq h x) s = execVrsq h x s := rfl
theorem exec_vfma h x (s : State) : exec (.vfma h x) s = execVfma h x s := rfl
theorem exec_vfms h x (s : State) : exec (.vfms h x) s = execVfms h x s := rfl
theorem exec_vgth h x (s : State) : exec (.vgth h x) s = execVgth h x s := rfl
theorem exec_vsct h x (s : State) : exec (.vsct h x) s = execVsct h x s := rfl
theorem exec_vidx h x (s : State) : exec (.vidx h x) s = execVidx h x s := rfl
theorem exec_vmov h x (s : State) : exec (.vmov h x) s = execVmov h x s := rfl
theorem exec_vmsk h x (s : State) : exec (.vmsk h x) s = execVmsk h x s := rfl
theorem exec_vperm h x (s : State) : exec (.vperm h x) s = execVperm h x s := rfl
theorem exec_vshuf h x pat (s : State) : exec (.vshuf h x pat) s = execVshuf h x pat s := rfl
theorem exec_vsld h x (s : State) : exec (.vsld h x) s = execVsld h x s := rfl
theorem exec_vrmx h x (s : State) : exec (.vrmx h x) s = execVrmx h x s := rfl
theorem exec_vsum h x (s : State) : exec (.vsum h x) s = execVsum h x s := rfl
theorem exec_vscl h x (s : State) : exec (.vscl h x) s = execVscl h x s := rfl
theorem exec_vsel h x (s : State) : exec (.vsel h x) s = execVsel h x s := rfl
theorem exec_vshl h x (s : State) : exec (.vshl h x) s = execVshl h x s := rfl
theorem exec_vshr h x (s : State) : exec (.vshr h x) s = execVshr h x s := rfl
theorem exec_vsra h x (s : State) : exec (.vsra h x) s = execVsra h x s := rfl
theorem exec_wait h sem rsrc amount (s : State) : exec (.wait h sem rsrc amount) s = execWait h sem rsrc amount s := rfl
theorem exec_waitm h m cond (s : State) : exec (.waitm h m cond) s = execWaitm h m cond s := rfl
theorem exec_wcha h pair len (s : State) : exec (.wcha h pair len) s = execWcha h pair len s := rfl
theorem exec_wchd h pair len (s : State) : exec (.wchd h pair len) s = execWchd h pair len s := rfl
theorem exec_xfer h c (s : State) : exec (.xfer h c) s = execXfer h c s := rfl
theorem exec_xor h d a b (s : State) : exec (.xor h d a b) s = execXor h d a b s := rfl
theorem exec_xori h d a imm (s : State) : exec (.xori h d a imm) s = execXori h d a imm s := rfl
theorem exec_zfil h c (s : State) : exec (.zfil h c) s = execZfil h c s := rfl
theorem exec_resultLand cid (s : State) : exec (.resultLand cid) s = execResultLand cid s := rfl
theorem exec_engineCommandStart cid e (s : State) : exec (.engineCommandStart cid e) s = execEngineCommandStart cid e s := rfl
theorem exec_copyUnit cid e (s : State) : exec (.copyUnit cid e) s = execCopyUnit cid e s := rfl
theorem exec_commandSignal cid e (s : State) : exec (.commandSignal cid e) s = execCommandSignal cid e s := rfl
theorem exec_matrixWordRetire cid check (s : State) : exec (.matrixWordRetire cid check) s = execMatrixWordRetire cid check s := rfl
theorem exec_legCountEnd cid (s : State) : exec (.legCountEnd cid) s = execLegCountEnd cid s := rfl
theorem exec_legPin (s : State) : exec .legPin s = execLegPin s := rfl
theorem exec_legCommit cid (s : State) : exec (.legCommit cid) s = execLegCommit cid s := rfl
theorem exec_barrierComplete lid (s : State) : exec (.barrierComplete lid) s = execBarrierComplete lid s := rfl
theorem exec_memberRetire cid (s : State) : exec (.memberRetire cid) s = execMemberRetire cid s := rfl
theorem exec_launchComplete lid (s : State) : exec (.launchComplete lid) s = execLaunchComplete lid s := rfl
theorem exec_completionRecordWrite queue (s : State) : exec (.completionRecordWrite queue) s = execCompletionRecordWrite queue s := rfl
theorem exec_qcbaEnable slot value (s : State) : exec (.qcbaEnable slot value) s = execQcbaEnable slot value s := rfl
theorem exec_qcbaDisable slot value (s : State) : exec (.qcbaDisable slot value) s = execQcbaDisable slot value s := rfl
theorem exec_qdoorWrite slot (s : State) : exec (.qdoorWrite slot) s = execQdoorWrite slot s := rfl
theorem exec_launchIntake slot (s : State) : exec (.launchIntake slot) s = execLaunchIntake slot s := rfl
theorem exec_rendezvousDepTest lid k (s : State) : exec (.rendezvousDepTest lid k) s = execRendezvousDepTest lid k s := rfl
theorem exec_launchPlace lid cores (s : State) : exec (.launchPlace lid cores) s = execLaunchPlace lid cores s := rfl
theorem exec_launchAgeing lid (s : State) : exec (.launchAgeing lid) s = execLaunchAgeing lid s := rfl
theorem exec_launchReserve lid (s : State) : exec (.launchReserve lid) s = execLaunchReserve lid s := rfl
theorem exec_preempt lid forLid (s : State) : exec (.preempt lid forLid) s = execPreempt lid forLid s := rfl
theorem exec_contextSwitch core cid (s : State) : exec (.contextSwitch core cid) s = execContextSwitch core cid s := rfl
theorem exec_contextStreamOut cid slot (s : State) : exec (.contextStreamOut cid slot) s = execContextStreamOut cid slot s := rfl
theorem exec_contextStreamIn cid bank checkOk (s : State) : exec (.contextStreamIn cid bank checkOk) s = execContextStreamIn cid bank checkOk s := rfl
theorem exec_planeFillComplete core (s : State) : exec (.planeFillComplete core) s = execPlaneFillComplete core s := rfl
theorem exec_faultRecordSend cid (s : State) : exec (.faultRecordSend cid) s = execFaultRecordSend cid s := rfl
theorem exec_handlerStart cid (s : State) : exec (.handlerStart cid) s = execHandlerStart cid s := rfl
theorem exec_frespResume core (s : State) : exec (.frespResume core) s = execFrespResume core s := rfl
theorem exec_frespAbort core (s : State) : exec (.frespAbort core) s = execFrespAbort core s := rfl
theorem exec_eventRingWrite (s : State) : exec .eventRingWrite s = execEventRingWrite s := rfl
theorem exec_shgoPage (s : State) : exec .shgoPage s = execShgoPage s := rfl
theorem exec_shgoAsid (s : State) : exec .shgoAsid s = execShgoAsid s := rfl
theorem exec_shgoAll (s : State) : exec .shgoAll s = execShgoAll s := rfl
theorem exec_shootdownComplete (s : State) : exec .shootdownComplete s = execShootdownComplete s := rfl
theorem exec_hstartGo hart value (s : State) : exec (.hstartGo hart value) s = execHstartGo hart value s := rfl
theorem exec_hstartHold hart (s : State) : exec (.hstartHold hart) s = execHstartHold hart s := rfl
theorem exec_stopgoResume core (s : State) : exec (.stopgoResume core) s = execStopgoResume core s := rfl
theorem exec_stopgoImage core (s : State) : exec (.stopgoImage core) s = execStopgoImage core s := rfl
theorem exec_cycleMatchStop core (s : State) : exec (.cycleMatchStop core) s = execCycleMatchStop core s := rfl
theorem exec_pcapWrite value (s : State) : exec (.pcapWrite value) s = execPcapWrite value s := rfl
theorem exec_icapWrite island value (s : State) : exec (.icapWrite island value) s = execIcapWrite island value s := rfl
theorem exec_cspillWrite value (s : State) : exec (.cspillWrite value) s = execCspillWrite value s := rfl
theorem exec_msiaWrite value (s : State) : exec (.msiaWrite value) s = execMsiaWrite value s := rfl
theorem exec_evbaseWrite value (s : State) : exec (.evbaseWrite value) s = execEvbaseWrite value s := rfl
theorem exec_registerWrite pa value (s : State) : exec (.registerWrite pa value) s = execRegisterWrite pa value s := rfl
theorem exec_flitTransmit link up (s : State) : exec (.flitTransmit link up) s = execFlitTransmit link up s := rfl
theorem exec_flitReceive link up f (s : State) : exec (.flitReceive link up f) s = execFlitReceive link up f s := rfl
theorem exec_nakTimer link up (s : State) : exec (.nakTimer link up) s = execNakTimer link up s := rfl
theorem exec_idleTimer link up (s : State) : exec (.idleTimer link up) s = execIdleTimer link up s := rfl
theorem exec_replayTimeout link up (s : State) : exec (.replayTimeout link up) s = execReplayTimeout link up s := rfl
theorem exec_linkRetrain link (s : State) : exec (.linkRetrain link) s = execLinkRetrain link s := rfl
theorem exec_retrainComplete link (s : State) : exec (.retrainComplete link) s = execRetrainComplete link s := rfl
theorem exec_moduleDisable link (s : State) : exec (.moduleDisable link) s = execModuleDisable link s := rfl
theorem exec_linkFailReroute link other (s : State) : exec (.linkFailReroute link other) s = execLinkFailReroute link other s := rfl
theorem exec_clockMessageSend die count (s : State) : exec (.clockMessageSend die count) s = execClockMessageSend die count s := rfl
theorem exec_batchApply die b (s : State) : exec (.batchApply die b) s = execBatchApply die b s := rfl
theorem exec_reductionApply k (s : State) : exec (.reductionApply k) s = execReductionApply k s := rfl
theorem exec_promotionComplete k (s : State) : exec (.promotionComplete k) s = execPromotionComplete k s := rfl
theorem exec_migrationMove root va tier (s : State) : exec (.migrationMove root va tier) s = execMigrationMove root va tier s := rfl
theorem exec_taskStart lid core (s : State) : exec (.taskStart lid core) s = execTaskStart lid core s := rfl
theorem exec_taskAbort cid (s : State) : exec (.taskAbort cid) s = execTaskAbort cid s := rfl
theorem exec_taskCommit lid (s : State) : exec (.taskCommit lid) s = execTaskCommit lid s := rfl
theorem exec_patrolScrub place space addr found (s : State) : exec (.patrolScrub place space addr found) s = execPatrolScrub place space addr found s := rfl
theorem exec_busRepair die lane (s : State) : exec (.busRepair die lane) s = execBusRepair die lane s := rfl
theorem exec_coreFence u persistent moves (s : State) : exec (.coreFence u persistent moves) s = execCoreFence u persistent moves s := rfl
theorem exec_dieDrop die (s : State) : exec (.dieDrop die) s = execDieDrop die s := rfl
theorem exec_adapterRequest port rid addr op (s : State) : exec (.adapterRequest port rid addr op) s = execAdapterRequest port rid addr op s := rfl
theorem exec_aerEvent port (s : State) : exec (.aerEvent port) s = execAerEvent port s := rfl
theorem exec_hartMemoryAccess hart pa op (s : State) : exec (.hartMemoryAccess hart pa op) s = execHartMemoryAccess hart pa op s := rfl
theorem exec_resetRelease (s : State) : exec .resetRelease s = execResetRelease s := rfl
theorem exec_illegalEncoding tval (s : State) : exec (.illegalEncoding tval) s = execIllegalEncoding tval s := rfl
theorem exec_islandFrequencyChange island mhz watts (s : State) : exec (.islandFrequencyChange island mhz watts) s = execIslandFrequencyChange island mhz watts s := rfl

end Sys2Proof.Machine
end

