-- ==== Sys2Proof/Laws/Maps.lean ====
section
/-!
SUPPORT. The laws of sorted maps: reading after writing, and the canonical form kept by every write.
-/
namespace Sys2Proof

variable {α : Type}

/-- Every key of the map is greater than `n`. -/
def SMap.above (n : Nat) (m : SMap α) : Prop := ∀ kv ∈ m, n < kv.1

theorem SMap.sorted_cons (k : Nat) (v : α) (r : SMap α) :
    SMap.sorted ((k, v) :: r) = true ↔ SMap.above k r ∧ SMap.sorted r = true := by
  induction r generalizing k v with
  | nil => simp [SMap.sorted, SMap.above]
  | cons p r ih =>
    obtain ⟨k', v'⟩ := p
    rw [SMap.sorted, Bool.and_eq_true, decide_eq_true_eq]
    constructor
    · rintro ⟨hk, hs⟩
      refine ⟨?_, hs⟩
      intro kv hkv
      rcases List.mem_cons.mp hkv with rfl | h
      · exact hk
      · exact Nat.lt_trans hk (((ih k' v').mp hs).1 kv h)
    · rintro ⟨ha, hs⟩
      exact ⟨ha _ (List.mem_cons_self ..), hs⟩

theorem SMap.get_above (d : α) {n k : Nat} {m : SMap α} (h : SMap.above n m) (hk : k ≤ n) : SMap.get d m k = d := by
  induction m with
  | nil => rfl
  | cons p r ih =>
    have h1 := h p (List.mem_cons_self ..)
    simp only [SMap.get]
    rw [if_neg (by omega)]
    exact ih (fun kv hkv => h kv (List.mem_cons_of_mem _ hkv))

theorem SMap.find_above {n k : Nat} {m : SMap α} (h : SMap.above n m) (hk : k ≤ n) : SMap.find m k = none := by
  induction m with
  | nil => rfl
  | cons p r ih =>
    have h1 := h p (List.mem_cons_self ..)
    simp only [SMap.find]
    rw [if_neg (by omega)]
    exact ih (fun kv hkv => h kv (List.mem_cons_of_mem _ hkv))

/-- Reading the key just set. -/
@[simp] theorem SMap.get_set_self (d : α) (m : SMap α) (k : Nat) (v : α) : SMap.get d (m.set k v) k = v := by
  induction m with
  | nil => simp [SMap.set, SMap.get]
  | cons p r ih =>
    simp only [SMap.set]
    split
    · simp [SMap.get]
    · split
      · simp [SMap.get]
      · rename_i h; simp [SMap.get, h, ih]

/-- Reading another key than the one just set. -/
theorem SMap.get_set_other (d : α) (m : SMap α) {k j : Nat} (v : α) (hj : j ≠ k) :
    SMap.get d (m.set k v) j = SMap.get d m j := by
  induction m with
  | nil => simp [SMap.set, SMap.get, Ne.symm hj]
  | cons p r ih =>
    simp only [SMap.set]
    split
    · simp [SMap.get, Ne.symm hj]
    · split
      · rename_i h; subst h; simp [SMap.get, Ne.symm hj]
      · simp [SMap.get, ih]

@[simp] theorem SMap.find_set_self (m : SMap α) (k : Nat) (v : α) : SMap.find (m.set k v) k = some v := by
  induction m with
  | nil => simp [SMap.set, SMap.find]
  | cons p r ih =>
    simp only [SMap.set]
    split
    · simp [SMap.find]
    · split
      · simp [SMap.find]
      · rename_i h; simp [SMap.find, h, ih]

theorem SMap.find_set_other (m : SMap α) {k j : Nat} (v : α) (hj : j ≠ k) : SMap.find (m.set k v) j = SMap.find m j := by
  induction m with
  | nil => simp [SMap.set, SMap.find, Ne.symm hj]
  | cons p r ih =>
    simp only [SMap.set]
    split
    · simp [SMap.find, Ne.symm hj]
    · split
      · rename_i h; subst h; simp [SMap.find, Ne.symm hj]
      · simp [SMap.find, ih]

@[simp] theorem SMap.get_del_self (d : α) (m : SMap α) (k : Nat) : SMap.get d (m.del k) k = d := by
  induction m with
  | nil => rfl
  | cons p r ih =>
    simp only [SMap.del]
    split
    · exact ih
    · rename_i h; simp [SMap.get, h, ih]

theorem SMap.get_del_other (d : α) (m : SMap α) {k j : Nat} (hj : j ≠ k) : SMap.get d (m.del k) j = SMap.get d m j := by
  induction m with
  | nil => rfl
  | cons p r ih =>
    simp only [SMap.del]
    split
    · rename_i h; subst h; simp [SMap.get, Ne.symm hj, ih]
    · simp [SMap.get, ih]

@[simp] theorem SMap.find_del_self (m : SMap α) (k : Nat) : SMap.find (m.del k) k = none := by
  induction m with
  | nil => rfl
  | cons p r ih =>
    simp only [SMap.del]
    split
    · exact ih
    · rename_i h; simp [SMap.find, h, ih]

theorem SMap.find_del_other (m : SMap α) {k j : Nat} (hj : j ≠ k) : SMap.find (m.del k) j = SMap.find m j := by
  induction m with
  | nil => rfl
  | cons p r ih =>
    simp only [SMap.del]
    split
    · rename_i h; subst h; simp [SMap.find, Ne.symm hj, ih]
    · simp [SMap.find, ih]

/-- Reading the key just written. -/
@[simp] theorem SMap.get_put_self [DecidableEq α] (d : α) (m : SMap α) (k : Nat) (v : α) :
    SMap.get d (m.put d k v) k = v := by
  unfold SMap.put
  split
  · rename_i h; rw [h]; exact SMap.get_del_self d m k
  · exact SMap.get_set_self d m k v

/-- Reading another key than the one just written. -/
theorem SMap.get_put_other [DecidableEq α] (d : α) (m : SMap α) {k j : Nat} (v : α) (hj : j ≠ k) :
    SMap.get d (m.put d k v) j = SMap.get d m j := by
  unfold SMap.put
  split
  · exact SMap.get_del_other d m hj
  · exact SMap.get_set_other d m v hj

theorem SMap.mem_set {m : SMap α} {k : Nat} {v : α} {kv : Nat × α} (h : kv ∈ m.set k v) : kv = (k, v) ∨ kv ∈ m := by
  induction m with
  | nil => exact .inl (by simpa [SMap.set] using h)
  | cons p r ih =>
    simp only [SMap.set] at h
    split at h
    · rcases List.mem_cons.mp h with h | h
      · exact .inl h
      · exact .inr h
    · split at h
      · rcases List.mem_cons.mp h with h | h
        · exact .inl h
        · exact .inr (List.mem_cons_of_mem _ h)
      · rcases List.mem_cons.mp h with h | h
        · exact .inr (h ▸ List.mem_cons_self ..)
        · exact (ih h).imp id (List.mem_cons_of_mem _)

theorem SMap.mem_del {m : SMap α} {k : Nat} {kv : Nat × α} (h : kv ∈ m.del k) : kv ∈ m := by
  induction m with
  | nil => exact h
  | cons p r ih =>
    simp only [SMap.del] at h
    split at h
    · exact List.mem_cons_of_mem _ (ih h)
    · rcases List.mem_cons.mp h with h | h
      · exact h ▸ List.mem_cons_self ..
      · exact List.mem_cons_of_mem _ (ih h)

theorem SMap.sorted_set {m : SMap α} (k : Nat) (v : α) (h : m.sorted = true) : (m.set k v).sorted = true := by
  induction m with
  | nil => rfl
  | cons p r ih =>
    obtain ⟨k', v'⟩ := p
    obtain ⟨ha, hs⟩ := (SMap.sorted_cons k' v' r).mp h
    simp only [SMap.set]
    split
    · rename_i hlt
      refine (SMap.sorted_cons k v _).mpr ⟨?_, h⟩
      intro kv hkv
      rcases List.mem_cons.mp hkv with rfl | hm
      · exact hlt
      · exact Nat.lt_trans hlt (ha kv hm)
    · split
      · rename_i he; subst he; exact (SMap.sorted_cons _ v r).mpr ⟨ha, hs⟩
      · rename_i h1 h2
        refine (SMap.sorted_cons k' v' _).mpr ⟨?_, ih hs⟩
        intro kv hkv
        rcases SMap.mem_set hkv with rfl | hm
        · simp only at h1 h2 ⊢; omega
        · exact ha kv hm

theorem SMap.sorted_del {m : SMap α} (k : Nat) (h : m.sorted = true) : (m.del k).sorted = true := by
  induction m with
  | nil => rfl
  | cons p r ih =>
    obtain ⟨k', v'⟩ := p
    obtain ⟨ha, hs⟩ := (SMap.sorted_cons k' v' r).mp h
    simp only [SMap.del]
    split
    · exact ih hs
    · exact (SMap.sorted_cons k' v' _).mpr ⟨fun kv hkv => ha kv (SMap.mem_del hkv), ih hs⟩

theorem SMap.canon_iff [DecidableEq α] (d : α) (m : SMap α) :
    m.canon d = true ↔ m.sorted = true ∧ ∀ kv ∈ m, kv.2 ≠ d := by
  simp [SMap.canon]

/-- A write keeps the canonical form. -/
theorem SMap.canon_put [DecidableEq α] (d : α) {m : SMap α} (k : Nat) (v : α) (h : m.canon d = true) :
    (m.put d k v).canon d = true := by
  obtain ⟨hs, hn⟩ := (SMap.canon_iff d m).mp h
  unfold SMap.put
  split
  · exact (SMap.canon_iff d _).mpr ⟨SMap.sorted_del k hs, fun kv hkv => hn kv (SMap.mem_del hkv)⟩
  · rename_i hv
    refine (SMap.canon_iff d _).mpr ⟨SMap.sorted_set k v hs, fun kv hkv => ?_⟩
    rcases SMap.mem_set hkv with rfl | hm
    · exact hv
    · exact hn kv hm

/-- Two maps in canonical form that read alike are equal. -/
theorem SMap.canon_ext [DecidableEq α] (d : α) {m n : SMap α} (hm : m.canon d = true) (hn : n.canon d = true)
    (h : ∀ k, SMap.get d m k = SMap.get d n k) : m = n := by
  induction m generalizing n with
  | nil =>
    cases n with
    | nil => rfl
    | cons p r =>
      have := h p.1
      simp only [SMap.get, if_true] at this
      exact absurd this.symm (((SMap.canon_iff d _).mp hn).2 p (List.mem_cons_self ..))
  | cons p r ih =>
    obtain ⟨k, v⟩ := p
    obtain ⟨hs, hv⟩ := (SMap.canon_iff d _).mp hm
    obtain ⟨ha, hs'⟩ := (SMap.sorted_cons k v r).mp hs
    have hvk := hv (k, v) (List.mem_cons_self ..)
    cases n with
    | nil =>
      have := h k
      simp only [SMap.get, if_true] at this
      exact absurd this hvk
    | cons p' r' =>
      obtain ⟨k', v'⟩ := p'
      obtain ⟨hsn, hvn⟩ := (SMap.canon_iff d _).mp hn
      obtain ⟨ha', hsn'⟩ := (SMap.sorted_cons k' v' r').mp hsn
      have hvk' := hvn (k', v') (List.mem_cons_self ..)
      have hk : k = k' := by
        rcases Nat.lt_trichotomy k k' with hlt | he | hlt
        · have := h k
          simp only [SMap.get, if_true, if_neg (Nat.ne_of_gt hlt)] at this
          rw [SMap.get_above d ha' (Nat.le_of_lt hlt)] at this
          exact absurd this hvk
        · exact he
        · have := h k'
          simp only [SMap.get, if_true, if_neg (Nat.ne_of_gt hlt)] at this
          rw [SMap.get_above d ha (Nat.le_of_lt hlt)] at this
          exact absurd this.symm hvk'
      subst hk
      have hvv : v = v' := by simpa [SMap.get] using h k
      subst hvv
      congr 1
      refine ih ((SMap.canon_iff d _).mpr ⟨hs', fun kv hkv => hv kv (List.mem_cons_of_mem _ hkv)⟩)
        ((SMap.canon_iff d _).mpr ⟨hsn', fun kv hkv => hvn kv (List.mem_cons_of_mem _ hkv)⟩) ?_
      intro j
      have hj := h j
      simp only [SMap.get] at hj
      split at hj
      · rename_i he; subst he
        rw [SMap.get_above d ha (Nat.le_refl _), SMap.get_above d ha' (Nat.le_refl _)]
      · exact hj

end Sys2Proof
end

