-- ==== Sys2Proof/Laws/Memory.lean ====
section
/-!
SUPPORT. The laws of one memory: every operation keeps the canonical form (Mem.wf), and what each operation writes reads
back, and nothing else changes.
-/
namespace Sys2Proof.Machine

theorem Mem.wf_iff (m : Mem) : m.wf = true ↔
    (SMap.canon (0 : Byte) m.cells = true ∧ m.units.canon UState.vacated = true) ∧ m.told.canon false = true := by
  simp [Mem.wf]

theorem Mem.empty_wf : Mem.empty.wf = true := rfl

theorem Mem.poke_wf {m : Mem} (a : Nat) (b : Byte) (h : m.wf = true) : (m.poke a b).wf = true := by
  rw [Mem.wf_iff] at h ⊢
  exact ⟨⟨SMap.canon_put 0 a b h.1.1, h.1.2⟩, h.2⟩

theorem Mem.mark_wf {m : Mem} (k : Nat) (st : UState) (h : m.wf = true) : (m.mark k st).wf = true := by
  rw [Mem.wf_iff] at h ⊢
  exact ⟨⟨h.1.1, SMap.canon_put UState.vacated k st h.1.2⟩, h.2⟩

theorem Mem.zero_wf {m : Mem} (a n : Nat) (h : m.wf = true) : (m.zero a n).wf = true := by
  induction n generalizing m a with
  | zero => exact h
  | succ n ih => exact ih (a + 1) (Mem.poke_wf a 0 h)

theorem Mem.markAll_wf {m : Mem} (k : Nat) (st : UState) (n : Nat) (h : m.wf = true) : (m.markAll k st n).wf = true := by
  induction n generalizing m k with
  | zero => exact h
  | succ n ih => exact ih (k + 1) (Mem.mark_wf k st h)

theorem Mem.store1_wf (u e : Nat) (as : List Nat) {m : Mem} (a : Nat) (b : Byte) (h : m.wf = true) :
    (m.store1 u e as a b).wf = true := by
  unfold Mem.store1
  split
  · exact Mem.poke_wf a b h
  · split
    · exact h
    · exact Mem.poke_wf a b (Mem.mark_wf _ _ h)
  · split
    · exact Mem.poke_wf a b (Mem.mark_wf _ _ h)
    · exact h

theorem Mem.storeAll_wf (u e : Nat) (as : List Nat) {m : Mem} (bs : List (Nat × Byte)) (h : m.wf = true) :
    (m.storeAll u e as bs).wf = true := by
  induction bs generalizing m with
  | nil => exact h
  | cons p r ih => exact ih (Mem.store1_wf u e as p.1 p.2 h)

theorem Mem.store_wf (u e : Nat) {m : Mem} (bs : List (Nat × Byte)) (h : m.wf = true) : (m.store u e bs).wf = true :=
  Mem.storeAll_wf u e _ bs h

theorem Mem.vacate_wf (u : Nat) {m : Mem} (a : Nat) (h : m.wf = true) : (m.vacate u a).wf = true :=
  Mem.mark_wf _ _ (Mem.zero_wf _ _ h)

theorem Mem.lose_wf (u e : Nat) {m : Mem} (a : Nat) (h : m.wf = true) : (m.lose u e a).wf = true :=
  Mem.markAll_wf _ _ _ (Mem.zero_wf _ _ h)

theorem Mem.heal_wf (u e : Nat) {m : Mem} (a : Nat) (h : m.wf = true) : (m.heal u e a).wf = true :=
  Mem.markAll_wf _ _ _ (Mem.zero_wf _ _ h)

theorem Mem.tell_wf (u : Nat) {m : Mem} (a : Nat) (h : m.wf = true) : (m.tell u a).wf = true := by
  unfold Mem.tell
  split
  · rw [Mem.wf_iff] at h ⊢
    exact ⟨h.1, SMap.canon_put false (a / u) true h.2⟩
  · exact h

theorem Mem.vacateWord_wf (u e : Nat) {m : Mem} (a : Nat) (h : m.wf = true) : (m.vacateWord u e a).wf = true :=
  Mem.tell_wf u a (Mem.markAll_wf _ _ _ (Mem.zero_wf _ _ h))

theorem vacateRange_wf (u e : Nat) {m : Mem} (a n : Nat) (h : m.wf = true) : (vacateRange u e m a n).wf = true := by
  induction n generalizing m a with
  | zero => exact h
  | succ n ih => exact ih (a + e) (Mem.vacateWord_wf u e a h)

theorem veilBack_wf (base : Nat) {m : Mem} (old : List (Nat × Byte × UState)) (h : m.wf = true) :
    (veilBack base m old).wf = true := by
  induction old generalizing m with
  | nil => exact h
  | cons o r ih =>
    obtain ⟨a, b, st⟩ := o
    simp only [veilBack]
    split
    · exact ih (Mem.poke_wf _ _ (Mem.mark_wf _ _ h))
    · exact ih h

/-! ## Reading after writing -/

@[simp] theorem Mem.byte_poke_self (m : Mem) (a : Nat) (b : Byte) : (m.poke a b).byte a = b :=
  SMap.get_put_self 0 m.cells a b

theorem Mem.byte_poke_other (m : Mem) {a x : Nat} (b : Byte) (hx : x ≠ a) : (m.poke a b).byte x = m.byte x :=
  SMap.get_put_other 0 m.cells b hx

@[simp] theorem Mem.byte_mark (m : Mem) (k : Nat) (st : UState) (x : Nat) : (m.mark k st).byte x = m.byte x := rfl

@[simp] theorem Mem.unit_poke (u : Nat) (m : Mem) (a : Nat) (b : Byte) (x : Nat) : (m.poke a b).unit u x = m.unit u x := rfl

@[simp] theorem Mem.goneAt_poke (m : Mem) (a : Nat) (b : Byte) (x : Nat) : (m.poke a b).goneAt x = m.goneAt x := rfl

@[simp] theorem Mem.goneAt_mark (m : Mem) (k : Nat) (st : UState) (x : Nat) : (m.mark k st).goneAt x = m.goneAt x := rfl

@[simp] theorem Mem.goneAt_zero (m : Mem) (a n x : Nat) : (m.zero a n).goneAt x = m.goneAt x := by
  induction n generalizing m a with
  | zero => rfl
  | succ n ih => rw [Mem.zero, ih, Mem.goneAt_poke]

theorem Mem.unit_mark_self (u : Nat) (m : Mem) (st : UState) (x : Nat) (hg : m.goneAt x = false) :
    (m.mark (x / u) st).unit u x = st := by
  simp only [Mem.unit, Mem.goneAt_mark, hg, Bool.false_eq_true, if_false]
  exact SMap.get_put_self UState.vacated m.units (x / u) st

theorem Mem.unit_mark_other (u : Nat) (m : Mem) {k : Nat} (st : UState) {x : Nat} (h : x / u ≠ k) :
    (m.mark k st).unit u x = m.unit u x := by
  have hu : (m.mark k st).units.get .vacated (x / u) = m.units.get .vacated (x / u) := SMap.get_put_other UState.vacated m.units st h
  simp only [Mem.unit, Mem.goneAt_mark, hu]
  rfl

/-- A write of one byte changes no other byte (R167, R176). -/
theorem Mem.store1_other (u e : Nat) (as : List Nat) (m : Mem) {a x : Nat} (b : Byte) (hx : x ≠ a) :
    (m.store1 u e as a b).byte x = m.byte x := by
  unfold Mem.store1
  split
  · exact Mem.byte_poke_other m b hx
  · split
    · rfl
    · rw [Mem.byte_poke_other _ b hx, Mem.byte_mark]
  · split
    · rw [Mem.byte_poke_other _ b hx, Mem.byte_mark]
    · rfl

/-- A write changes no byte outside its addresses. -/
theorem Mem.storeAll_other (u e : Nat) (as : List Nat) (m : Mem) (bs : List (Nat × Byte)) {x : Nat}
    (hx : x ∉ bs.map Prod.fst) : (m.storeAll u e as bs).byte x = m.byte x := by
  induction bs generalizing m with
  | nil => rfl
  | cons p r ih =>
    simp only [List.map_cons, List.mem_cons, not_or] at hx
    rw [Mem.storeAll, ih _ hx.2, Mem.store1_other u e as m p.2 hx.1]

theorem Mem.store_other (u e : Nat) (m : Mem) (bs : List (Nat × Byte)) {x : Nat} (hx : x ∉ bs.map Prod.fst) :
    (m.store u e bs).byte x = m.byte x := Mem.storeAll_other u e _ m bs hx

theorem Mem.zero_other (m : Mem) (a n : Nat) {x : Nat} (hx : x < a ∨ a + n ≤ x) : (m.zero a n).byte x = m.byte x := by
  induction n generalizing m a with
  | zero => rfl
  | succ n ih =>
    rw [Mem.zero, ih (m.poke a 0) (a + 1) (by omega), Mem.byte_poke_other m 0 (by omega)]

theorem Mem.zero_self (m : Mem) (a n : Nat) {x : Nat} (h1 : a ≤ x) (h2 : x < a + n) : (m.zero a n).byte x = 0 := by
  induction n generalizing m a with
  | zero => omega
  | succ n ih =>
    rw [Mem.zero]
    by_cases hx : x = a
    · subst hx; rw [Mem.zero_other _ _ _ (by omega), Mem.byte_poke_self]
    · exact ih (m.poke a 0) (a + 1) (by omega) (by omega)

@[simp] theorem Mem.byte_markAll (m : Mem) (k : Nat) (st : UState) (n x : Nat) : (m.markAll k st n).byte x = m.byte x := by
  induction n generalizing m k with
  | zero => rfl
  | succ n ih => rw [Mem.markAll, ih, Mem.byte_mark]

/-- Vacating a unit reads as zero there (R166, R170). -/
theorem Mem.vacate_self (u : Nat) (m : Mem) (a : Nat) {x : Nat} (hu : 0 < u) (hx : x / u = a / u) (hg : m.goneAt x = false) :
    (m.vacate u a).byte x = 0 ∧ (m.vacate u a).unit u x = .vacated := by
  have h1 : u * (x / u) + x % u = x := Nat.div_add_mod x u
  have h2 : x % u < u := Nat.mod_lt x hu
  have h3 : x / u * u = u * (x / u) := Nat.mul_comm ..
  refine ⟨?_, ?_⟩
  · unfold Mem.vacate
    rw [Mem.byte_mark, Mem.zero_self _ _ _ (by rw [← hx]; omega) (by rw [← hx]; omega)]
  · unfold Mem.vacate
    rw [← hx, Mem.unit_mark_self _ _ _ _ (by simpa using hg)]

theorem place_fst (a : Nat) (bs : List Byte) : (place a bs).map Prod.fst = (List.range bs.length).map (a + ·) := by
  induction bs generalizing a with
  | nil => rfl
  | cons b r ih =>
    simp only [place, List.map_cons, List.length_cons, List.range_succ_eq_map, List.map_map, Nat.add_zero, ih]
    congr 1
    apply List.map_congr_left
    intro x _
    simp only [Function.comp]
    omega

theorem mem_place {a x : Nat} {bs : List Byte} : x ∈ (place a bs).map Prod.fst ↔ a ≤ x ∧ x < a + bs.length := by
  rw [place_fst]
  simp only [List.mem_map, List.mem_range]
  constructor
  · rintro ⟨y, hy, rfl⟩; omega
  · rintro ⟨h1, h2⟩; exact ⟨x - a, by omega, by omega⟩

end Sys2Proof.Machine
end

