-- ==== Sys2Proof/Laws/State.lean ====
section
/-!
SUPPORT. Reading a field after an update: one lemma per field that an update leaves alone, one for the field it writes.
-/
namespace Sys2Proof.Machine

/-! ### State.setCtx -/

@[simp] theorem State.setCtx_cycle (s : State) (c : Ctx) : (s.setCtx c).cycle = s.cycle := rfl
@[simp] theorem State.setCtx_dram (s : State) (c : Ctx) : (s.setCtx c).dram = s.dram := rfl
@[simp] theorem State.setCtx_stamps (s : State) (c : Ctx) : (s.setCtx c).stamps = s.stamps := rfl
@[simp] theorem State.setCtx_shadow (s : State) (c : Ctx) : (s.setCtx c).shadow = s.shadow := rfl
@[simp] theorem State.setCtx_homes (s : State) (c : Ctx) : (s.setCtx c).homes = s.homes := rfl
@[simp] theorem State.setCtx_written (s : State) (c : Ctx) : (s.setCtx c).written = s.written := rfl
@[simp] theorem State.setCtx_frames (s : State) (c : Ctx) : (s.setCtx c).frames = s.frames := rfl
@[simp] theorem State.setCtx_moves (s : State) (c : Ctx) : (s.setCtx c).moves = s.moves := rfl
@[simp] theorem State.setCtx_counts (s : State) (c : Ctx) : (s.setCtx c).counts = s.counts := rfl
@[simp] theorem State.setCtx_reds (s : State) (c : Ctx) : (s.setCtx c).reds = s.reds := rfl
@[simp] theorem State.setCtx_promos (s : State) (c : Ctx) : (s.setCtx c).promos = s.promos := rfl
@[simp] theorem State.setCtx_innq (s : State) (c : Ctx) : (s.setCtx c).innq = s.innq := rfl
@[simp] theorem State.setCtx_launches (s : State) (c : Ctx) : (s.setCtx c).launches = s.launches := rfl
@[simp] theorem State.setCtx_queues (s : State) (c : Ctx) : (s.setCtx c).queues = s.queues := rfl
@[simp] theorem State.setCtx_horizons (s : State) (c : Ctx) : (s.setCtx c).horizons = s.horizons := rfl
@[simp] theorem State.setCtx_served (s : State) (c : Ctx) : (s.setCtx c).served = s.served := rfl
@[simp] theorem State.setCtx_cores (s : State) (c : Ctx) : (s.setCtx c).cores = s.cores := rfl
@[simp] theorem State.setCtx_ctxs (s : State) (c : Ctx) : (s.setCtx c).ctxs = s.ctxs.set c.cid c := rfl
@[simp] theorem State.setCtx_nextCid (s : State) (c : Ctx) : (s.setCtx c).nextCid = s.nextCid := rfl
@[simp] theorem State.setCtx_links (s : State) (c : Ctx) : (s.setCtx c).links = s.links := rfl
@[simp] theorem State.setCtx_clocks (s : State) (c : Ctx) : (s.setCtx c).clocks = s.clocks := rfl
@[simp] theorem State.setCtx_got (s : State) (c : Ctx) : (s.setCtx c).got = s.got := rfl
@[simp] theorem State.setCtx_batches (s : State) (c : Ctx) : (s.setCtx c).batches = s.batches := rfl
@[simp] theorem State.setCtx_inbound (s : State) (c : Ctx) : (s.setCtx c).inbound = s.inbound := rfl
@[simp] theorem State.setCtx_inbox (s : State) (c : Ctx) : (s.setCtx c).inbox = s.inbox := rfl
@[simp] theorem State.setCtx_relays (s : State) (c : Ctx) : (s.setCtx c).relays = s.relays := rfl
@[simp] theorem State.setCtx_fars (s : State) (c : Ctx) : (s.setCtx c).fars = s.fars := rfl
@[simp] theorem State.setCtx_fresp (s : State) (c : Ctx) : (s.setCtx c).fresp = s.fresp := rfl
@[simp] theorem State.setCtx_pools (s : State) (c : Ctx) : (s.setCtx c).pools = s.pools := rfl
@[simp] theorem State.setCtx_evbase (s : State) (c : Ctx) : (s.setCtx c).evbase = s.evbase := rfl
@[simp] theorem State.setCtx_evtail (s : State) (c : Ctx) : (s.setCtx c).evtail = s.evtail := rfl
@[simp] theorem State.setCtx_evhead (s : State) (c : Ctx) : (s.setCtx c).evhead = s.evhead := rfl
@[simp] theorem State.setCtx_evmsi (s : State) (c : Ctx) : (s.setCtx c).evmsi = s.evmsi := rfl
@[simp] theorem State.setCtx_msia (s : State) (c : Ctx) : (s.setCtx c).msia = s.msia := rfl
@[simp] theorem State.setCtx_shva (s : State) (c : Ctx) : (s.setCtx c).shva = s.shva := rfl
@[simp] theorem State.setCtx_shkind (s : State) (c : Ctx) : (s.setCtx c).shkind = s.shkind := rfl
@[simp] theorem State.setCtx_shfor (s : State) (c : Ctx) : (s.setCtx c).shfor = s.shfor := rfl
@[simp] theorem State.setCtx_shbusy (s : State) (c : Ctx) : (s.setCtx c).shbusy = s.shbusy := rfl
@[simp] theorem State.setCtx_dctb (s : State) (c : Ctx) : (s.setCtx c).dctb = s.dctb := rfl
@[simp] theorem State.setCtx_cspill (s : State) (c : Ctx) : (s.setCtx c).cspill = s.cspill := rfl
@[simp] theorem State.setCtx_spill (s : State) (c : Ctx) : (s.setCtx c).spill = s.spill := rfl
@[simp] theorem State.setCtx_saved (s : State) (c : Ctx) : (s.setCtx c).saved = s.saved := rfl
@[simp] theorem State.setCtx_lnkst (s : State) (c : Ctx) : (s.setCtx c).lnkst = s.lnkst := rfl
@[simp] theorem State.setCtx_events (s : State) (c : Ctx) : (s.setCtx c).events = s.events := rfl
@[simp] theorem State.setCtx_msis (s : State) (c : Ctx) : (s.setCtx c).msis = s.msis := rfl
@[simp] theorem State.setCtx_msiOut (s : State) (c : Ctx) : (s.setCtx c).msiOut = s.msiOut := rfl
@[simp] theorem State.setCtx_harts (s : State) (c : Ctx) : (s.setCtx c).harts = s.harts := rfl
@[simp] theorem State.setCtx_flash (s : State) (c : Ctx) : (s.setCtx c).flash = s.flash := rfl
@[simp] theorem State.setCtx_bus (s : State) (c : Ctx) : (s.setCtx c).bus = s.bus := rfl
@[simp] theorem State.setCtx_peers (s : State) (c : Ctx) : (s.setCtx c).peers = s.peers := rfl
@[simp] theorem State.setCtx_replies (s : State) (c : Ctx) : (s.setCtx c).replies = s.replies := rfl
@[simp] theorem State.setCtx_atc (s : State) (c : Ctx) : (s.setCtx c).atc = s.atc := rfl
@[simp] theorem State.setCtx_invs (s : State) (c : Ctx) : (s.setCtx c).invs = s.invs := rfl
@[simp] theorem State.setCtx_dropped (s : State) (c : Ctx) : (s.setCtx c).dropped = s.dropped := rfl
@[simp] theorem State.setCtx_dooms (s : State) (c : Ctx) : (s.setCtx c).dooms = s.dooms := rfl
@[simp] theorem State.setCtx_fencedCl (s : State) (c : Ctx) : (s.setCtx c).fencedCl = s.fencedCl := rfl
@[simp] theorem State.setCtx_fencedMx (s : State) (c : Ctx) : (s.setCtx c).fencedMx = s.fencedMx := rfl
@[simp] theorem State.setCtx_repairs (s : State) (c : Ctx) : (s.setCtx c).repairs = s.repairs := rfl
@[simp] theorem State.setCtx_calib (s : State) (c : Ctx) : (s.setCtx c).calib = s.calib := rfl
@[simp] theorem State.setCtx_pcap (s : State) (c : Ctx) : (s.setCtx c).pcap = s.pcap := rfl
@[simp] theorem State.setCtx_icap (s : State) (c : Ctx) : (s.setCtx c).icap = s.icap := rfl
@[simp] theorem State.setCtx_pnow (s : State) (c : Ctx) : (s.setCtx c).pnow = s.pnow := rfl
@[simp] theorem State.setCtx_ipwr (s : State) (c : Ctx) : (s.setCtx c).ipwr = s.ipwr := rfl
@[simp] theorem State.setCtx_ifrq (s : State) (c : Ctx) : (s.setCtx c).ifrq = s.ifrq := rfl
@[simp] theorem State.setCtx_focus (s : State) (c : Ctx) : (s.setCtx c).focus = s.focus := rfl
@[simp] theorem State.setCtx_agenda (s : State) (c : Ctx) : (s.setCtx c).agenda = s.agenda := rfl
@[simp] theorem State.setCtx_rr (s : State) (c : Ctx) : (s.setCtx c).rr = s.rr := rfl
@[simp] theorem State.setCtx_last (s : State) (c : Ctx) : (s.setCtx c).last = s.last := rfl
@[simp] theorem State.setCtx_free (s : State) (c : Ctx) : (s.setCtx c).free = s.free := rfl

/-! ### State.setCore -/

@[simp] theorem State.setCore_cycle (s : State) (p : Nat) (k : Core) : (s.setCore p k).cycle = s.cycle := rfl
@[simp] theorem State.setCore_dram (s : State) (p : Nat) (k : Core) : (s.setCore p k).dram = s.dram := rfl
@[simp] theorem State.setCore_stamps (s : State) (p : Nat) (k : Core) : (s.setCore p k).stamps = s.stamps := rfl
@[simp] theorem State.setCore_shadow (s : State) (p : Nat) (k : Core) : (s.setCore p k).shadow = s.shadow := rfl
@[simp] theorem State.setCore_homes (s : State) (p : Nat) (k : Core) : (s.setCore p k).homes = s.homes := rfl
@[simp] theorem State.setCore_written (s : State) (p : Nat) (k : Core) : (s.setCore p k).written = s.written := rfl
@[simp] theorem State.setCore_frames (s : State) (p : Nat) (k : Core) : (s.setCore p k).frames = s.frames := rfl
@[simp] theorem State.setCore_moves (s : State) (p : Nat) (k : Core) : (s.setCore p k).moves = s.moves := rfl
@[simp] theorem State.setCore_counts (s : State) (p : Nat) (k : Core) : (s.setCore p k).counts = s.counts := rfl
@[simp] theorem State.setCore_reds (s : State) (p : Nat) (k : Core) : (s.setCore p k).reds = s.reds := rfl
@[simp] theorem State.setCore_promos (s : State) (p : Nat) (k : Core) : (s.setCore p k).promos = s.promos := rfl
@[simp] theorem State.setCore_innq (s : State) (p : Nat) (k : Core) : (s.setCore p k).innq = s.innq := rfl
@[simp] theorem State.setCore_launches (s : State) (p : Nat) (k : Core) : (s.setCore p k).launches = s.launches := rfl
@[simp] theorem State.setCore_queues (s : State) (p : Nat) (k : Core) : (s.setCore p k).queues = s.queues := rfl
@[simp] theorem State.setCore_horizons (s : State) (p : Nat) (k : Core) : (s.setCore p k).horizons = s.horizons := rfl
@[simp] theorem State.setCore_served (s : State) (p : Nat) (k : Core) : (s.setCore p k).served = s.served := rfl
@[simp] theorem State.setCore_cores (s : State) (p : Nat) (k : Core) : (s.setCore p k).cores = s.cores.set p k := rfl
@[simp] theorem State.setCore_ctxs (s : State) (p : Nat) (k : Core) : (s.setCore p k).ctxs = s.ctxs := rfl
@[simp] theorem State.setCore_nextCid (s : State) (p : Nat) (k : Core) : (s.setCore p k).nextCid = s.nextCid := rfl
@[simp] theorem State.setCore_links (s : State) (p : Nat) (k : Core) : (s.setCore p k).links = s.links := rfl
@[simp] theorem State.setCore_clocks (s : State) (p : Nat) (k : Core) : (s.setCore p k).clocks = s.clocks := rfl
@[simp] theorem State.setCore_got (s : State) (p : Nat) (k : Core) : (s.setCore p k).got = s.got := rfl
@[simp] theorem State.setCore_batches (s : State) (p : Nat) (k : Core) : (s.setCore p k).batches = s.batches := rfl
@[simp] theorem State.setCore_inbound (s : State) (p : Nat) (k : Core) : (s.setCore p k).inbound = s.inbound := rfl
@[simp] theorem State.setCore_inbox (s : State) (p : Nat) (k : Core) : (s.setCore p k).inbox = s.inbox := rfl
@[simp] theorem State.setCore_relays (s : State) (p : Nat) (k : Core) : (s.setCore p k).relays = s.relays := rfl
@[simp] theorem State.setCore_fars (s : State) (p : Nat) (k : Core) : (s.setCore p k).fars = s.fars := rfl
@[simp] theorem State.setCore_fresp (s : State) (p : Nat) (k : Core) : (s.setCore p k).fresp = s.fresp := rfl
@[simp] theorem State.setCore_pools (s : State) (p : Nat) (k : Core) : (s.setCore p k).pools = s.pools := rfl
@[simp] theorem State.setCore_evbase (s : State) (p : Nat) (k : Core) : (s.setCore p k).evbase = s.evbase := rfl
@[simp] theorem State.setCore_evtail (s : State) (p : Nat) (k : Core) : (s.setCore p k).evtail = s.evtail := rfl
@[simp] theorem State.setCore_evhead (s : State) (p : Nat) (k : Core) : (s.setCore p k).evhead = s.evhead := rfl
@[simp] theorem State.setCore_evmsi (s : State) (p : Nat) (k : Core) : (s.setCore p k).evmsi = s.evmsi := rfl
@[simp] theorem State.setCore_msia (s : State) (p : Nat) (k : Core) : (s.setCore p k).msia = s.msia := rfl
@[simp] theorem State.setCore_shva (s : State) (p : Nat) (k : Core) : (s.setCore p k).shva = s.shva := rfl
@[simp] theorem State.setCore_shkind (s : State) (p : Nat) (k : Core) : (s.setCore p k).shkind = s.shkind := rfl
@[simp] theorem State.setCore_shfor (s : State) (p : Nat) (k : Core) : (s.setCore p k).shfor = s.shfor := rfl
@[simp] theorem State.setCore_shbusy (s : State) (p : Nat) (k : Core) : (s.setCore p k).shbusy = s.shbusy := rfl
@[simp] theorem State.setCore_dctb (s : State) (p : Nat) (k : Core) : (s.setCore p k).dctb = s.dctb := rfl
@[simp] theorem State.setCore_cspill (s : State) (p : Nat) (k : Core) : (s.setCore p k).cspill = s.cspill := rfl
@[simp] theorem State.setCore_spill (s : State) (p : Nat) (k : Core) : (s.setCore p k).spill = s.spill := rfl
@[simp] theorem State.setCore_saved (s : State) (p : Nat) (k : Core) : (s.setCore p k).saved = s.saved := rfl
@[simp] theorem State.setCore_lnkst (s : State) (p : Nat) (k : Core) : (s.setCore p k).lnkst = s.lnkst := rfl
@[simp] theorem State.setCore_events (s : State) (p : Nat) (k : Core) : (s.setCore p k).events = s.events := rfl
@[simp] theorem State.setCore_msis (s : State) (p : Nat) (k : Core) : (s.setCore p k).msis = s.msis := rfl
@[simp] theorem State.setCore_msiOut (s : State) (p : Nat) (k : Core) : (s.setCore p k).msiOut = s.msiOut := rfl
@[simp] theorem State.setCore_harts (s : State) (p : Nat) (k : Core) : (s.setCore p k).harts = s.harts := rfl
@[simp] theorem State.setCore_flash (s : State) (p : Nat) (k : Core) : (s.setCore p k).flash = s.flash := rfl
@[simp] theorem State.setCore_bus (s : State) (p : Nat) (k : Core) : (s.setCore p k).bus = s.bus := rfl
@[simp] theorem State.setCore_peers (s : State) (p : Nat) (k : Core) : (s.setCore p k).peers = s.peers := rfl
@[simp] theorem State.setCore_replies (s : State) (p : Nat) (k : Core) : (s.setCore p k).replies = s.replies := rfl
@[simp] theorem State.setCore_atc (s : State) (p : Nat) (k : Core) : (s.setCore p k).atc = s.atc := rfl
@[simp] theorem State.setCore_invs (s : State) (p : Nat) (k : Core) : (s.setCore p k).invs = s.invs := rfl
@[simp] theorem State.setCore_dropped (s : State) (p : Nat) (k : Core) : (s.setCore p k).dropped = s.dropped := rfl
@[simp] theorem State.setCore_dooms (s : State) (p : Nat) (k : Core) : (s.setCore p k).dooms = s.dooms := rfl
@[simp] theorem State.setCore_fencedCl (s : State) (p : Nat) (k : Core) : (s.setCore p k).fencedCl = s.fencedCl := rfl
@[simp] theorem State.setCore_fencedMx (s : State) (p : Nat) (k : Core) : (s.setCore p k).fencedMx = s.fencedMx := rfl
@[simp] theorem State.setCore_repairs (s : State) (p : Nat) (k : Core) : (s.setCore p k).repairs = s.repairs := rfl
@[simp] theorem State.setCore_calib (s : State) (p : Nat) (k : Core) : (s.setCore p k).calib = s.calib := rfl
@[simp] theorem State.setCore_pcap (s : State) (p : Nat) (k : Core) : (s.setCore p k).pcap = s.pcap := rfl
@[simp] theorem State.setCore_icap (s : State) (p : Nat) (k : Core) : (s.setCore p k).icap = s.icap := rfl
@[simp] theorem State.setCore_pnow (s : State) (p : Nat) (k : Core) : (s.setCore p k).pnow = s.pnow := rfl
@[simp] theorem State.setCore_ipwr (s : State) (p : Nat) (k : Core) : (s.setCore p k).ipwr = s.ipwr := rfl
@[simp] theorem State.setCore_ifrq (s : State) (p : Nat) (k : Core) : (s.setCore p k).ifrq = s.ifrq := rfl
@[simp] theorem State.setCore_focus (s : State) (p : Nat) (k : Core) : (s.setCore p k).focus = s.focus := rfl
@[simp] theorem State.setCore_agenda (s : State) (p : Nat) (k : Core) : (s.setCore p k).agenda = s.agenda := rfl
@[simp] theorem State.setCore_rr (s : State) (p : Nat) (k : Core) : (s.setCore p k).rr = s.rr := rfl
@[simp] theorem State.setCore_last (s : State) (p : Nat) (k : Core) : (s.setCore p k).last = s.last := rfl
@[simp] theorem State.setCore_free (s : State) (p : Nat) (k : Core) : (s.setCore p k).free = s.free := rfl

/-! ### State.dropCtx -/

@[simp] theorem State.dropCtx_cycle (s : State) (n : Nat) : (s.dropCtx n).cycle = s.cycle := rfl
@[simp] theorem State.dropCtx_dram (s : State) (n : Nat) : (s.dropCtx n).dram = s.dram := rfl
@[simp] theorem State.dropCtx_stamps (s : State) (n : Nat) : (s.dropCtx n).stamps = s.stamps := rfl
@[simp] theorem State.dropCtx_shadow (s : State) (n : Nat) : (s.dropCtx n).shadow = s.shadow := rfl
@[simp] theorem State.dropCtx_homes (s : State) (n : Nat) : (s.dropCtx n).homes = s.homes := rfl
@[simp] theorem State.dropCtx_written (s : State) (n : Nat) : (s.dropCtx n).written = s.written := rfl
@[simp] theorem State.dropCtx_frames (s : State) (n : Nat) : (s.dropCtx n).frames = s.frames := rfl
@[simp] theorem State.dropCtx_moves (s : State) (n : Nat) : (s.dropCtx n).moves = s.moves := rfl
@[simp] theorem State.dropCtx_counts (s : State) (n : Nat) : (s.dropCtx n).counts = s.counts := rfl
@[simp] theorem State.dropCtx_reds (s : State) (n : Nat) : (s.dropCtx n).reds = s.reds := rfl
@[simp] theorem State.dropCtx_promos (s : State) (n : Nat) : (s.dropCtx n).promos = s.promos := rfl
@[simp] theorem State.dropCtx_innq (s : State) (n : Nat) : (s.dropCtx n).innq = s.innq := rfl
@[simp] theorem State.dropCtx_launches (s : State) (n : Nat) : (s.dropCtx n).launches = s.launches := rfl
@[simp] theorem State.dropCtx_queues (s : State) (n : Nat) : (s.dropCtx n).queues = s.queues := rfl
@[simp] theorem State.dropCtx_horizons (s : State) (n : Nat) : (s.dropCtx n).horizons = s.horizons := rfl
@[simp] theorem State.dropCtx_served (s : State) (n : Nat) : (s.dropCtx n).served = s.served := rfl
@[simp] theorem State.dropCtx_cores (s : State) (n : Nat) : (s.dropCtx n).cores = s.cores := rfl
@[simp] theorem State.dropCtx_ctxs (s : State) (n : Nat) : (s.dropCtx n).ctxs = s.ctxs.del n := rfl
@[simp] theorem State.dropCtx_nextCid (s : State) (n : Nat) : (s.dropCtx n).nextCid = s.nextCid := rfl
@[simp] theorem State.dropCtx_links (s : State) (n : Nat) : (s.dropCtx n).links = s.links := rfl
@[simp] theorem State.dropCtx_clocks (s : State) (n : Nat) : (s.dropCtx n).clocks = s.clocks := rfl
@[simp] theorem State.dropCtx_got (s : State) (n : Nat) : (s.dropCtx n).got = s.got := rfl
@[simp] theorem State.dropCtx_batches (s : State) (n : Nat) : (s.dropCtx n).batches = s.batches := rfl
@[simp] theorem State.dropCtx_inbound (s : State) (n : Nat) : (s.dropCtx n).inbound = s.inbound := rfl
@[simp] theorem State.dropCtx_inbox (s : State) (n : Nat) : (s.dropCtx n).inbox = s.inbox := rfl
@[simp] theorem State.dropCtx_relays (s : State) (n : Nat) : (s.dropCtx n).relays = s.relays := rfl
@[simp] theorem State.dropCtx_fars (s : State) (n : Nat) : (s.dropCtx n).fars = s.fars := rfl
@[simp] theorem State.dropCtx_fresp (s : State) (n : Nat) : (s.dropCtx n).fresp = s.fresp := rfl
@[simp] theorem State.dropCtx_pools (s : State) (n : Nat) : (s.dropCtx n).pools = s.pools := rfl
@[simp] theorem State.dropCtx_evbase (s : State) (n : Nat) : (s.dropCtx n).evbase = s.evbase := rfl
@[simp] theorem State.dropCtx_evtail (s : State) (n : Nat) : (s.dropCtx n).evtail = s.evtail := rfl
@[simp] theorem State.dropCtx_evhead (s : State) (n : Nat) : (s.dropCtx n).evhead = s.evhead := rfl
@[simp] theorem State.dropCtx_evmsi (s : State) (n : Nat) : (s.dropCtx n).evmsi = s.evmsi := rfl
@[simp] theorem State.dropCtx_msia (s : State) (n : Nat) : (s.dropCtx n).msia = s.msia := rfl
@[simp] theorem State.dropCtx_shva (s : State) (n : Nat) : (s.dropCtx n).shva = s.shva := rfl
@[simp] theorem State.dropCtx_shkind (s : State) (n : Nat) : (s.dropCtx n).shkind = s.shkind := rfl
@[simp] theorem State.dropCtx_shfor (s : State) (n : Nat) : (s.dropCtx n).shfor = s.shfor := rfl
@[simp] theorem State.dropCtx_shbusy (s : State) (n : Nat) : (s.dropCtx n).shbusy = s.shbusy := rfl
@[simp] theorem State.dropCtx_dctb (s : State) (n : Nat) : (s.dropCtx n).dctb = s.dctb := rfl
@[simp] theorem State.dropCtx_cspill (s : State) (n : Nat) : (s.dropCtx n).cspill = s.cspill := rfl
@[simp] theorem State.dropCtx_spill (s : State) (n : Nat) : (s.dropCtx n).spill = s.spill := rfl
@[simp] theorem State.dropCtx_saved (s : State) (n : Nat) : (s.dropCtx n).saved = s.saved := rfl
@[simp] theorem State.dropCtx_lnkst (s : State) (n : Nat) : (s.dropCtx n).lnkst = s.lnkst := rfl
@[simp] theorem State.dropCtx_events (s : State) (n : Nat) : (s.dropCtx n).events = s.events := rfl
@[simp] theorem State.dropCtx_msis (s : State) (n : Nat) : (s.dropCtx n).msis = s.msis := rfl
@[simp] theorem State.dropCtx_msiOut (s : State) (n : Nat) : (s.dropCtx n).msiOut = s.msiOut := rfl
@[simp] theorem State.dropCtx_harts (s : State) (n : Nat) : (s.dropCtx n).harts = s.harts := rfl
@[simp] theorem State.dropCtx_flash (s : State) (n : Nat) : (s.dropCtx n).flash = s.flash := rfl
@[simp] theorem State.dropCtx_bus (s : State) (n : Nat) : (s.dropCtx n).bus = s.bus := rfl
@[simp] theorem State.dropCtx_peers (s : State) (n : Nat) : (s.dropCtx n).peers = s.peers := rfl
@[simp] theorem State.dropCtx_replies (s : State) (n : Nat) : (s.dropCtx n).replies = s.replies := rfl
@[simp] theorem State.dropCtx_atc (s : State) (n : Nat) : (s.dropCtx n).atc = s.atc := rfl
@[simp] theorem State.dropCtx_invs (s : State) (n : Nat) : (s.dropCtx n).invs = s.invs := rfl
@[simp] theorem State.dropCtx_dropped (s : State) (n : Nat) : (s.dropCtx n).dropped = s.dropped := rfl
@[simp] theorem State.dropCtx_dooms (s : State) (n : Nat) : (s.dropCtx n).dooms = s.dooms := rfl
@[simp] theorem State.dropCtx_fencedCl (s : State) (n : Nat) : (s.dropCtx n).fencedCl = s.fencedCl := rfl
@[simp] theorem State.dropCtx_fencedMx (s : State) (n : Nat) : (s.dropCtx n).fencedMx = s.fencedMx := rfl
@[simp] theorem State.dropCtx_repairs (s : State) (n : Nat) : (s.dropCtx n).repairs = s.repairs := rfl
@[simp] theorem State.dropCtx_calib (s : State) (n : Nat) : (s.dropCtx n).calib = s.calib := rfl
@[simp] theorem State.dropCtx_pcap (s : State) (n : Nat) : (s.dropCtx n).pcap = s.pcap := rfl
@[simp] theorem State.dropCtx_icap (s : State) (n : Nat) : (s.dropCtx n).icap = s.icap := rfl
@[simp] theorem State.dropCtx_pnow (s : State) (n : Nat) : (s.dropCtx n).pnow = s.pnow := rfl
@[simp] theorem State.dropCtx_ipwr (s : State) (n : Nat) : (s.dropCtx n).ipwr = s.ipwr := rfl
@[simp] theorem State.dropCtx_ifrq (s : State) (n : Nat) : (s.dropCtx n).ifrq = s.ifrq := rfl
@[simp] theorem State.dropCtx_focus (s : State) (n : Nat) : (s.dropCtx n).focus = s.focus := rfl
@[simp] theorem State.dropCtx_agenda (s : State) (n : Nat) : (s.dropCtx n).agenda = s.agenda := rfl
@[simp] theorem State.dropCtx_rr (s : State) (n : Nat) : (s.dropCtx n).rr = s.rr := rfl
@[simp] theorem State.dropCtx_last (s : State) (n : Nat) : (s.dropCtx n).last = s.last := rfl
@[simp] theorem State.dropCtx_free (s : State) (n : Nat) : (s.dropCtx n).free = s.free := rfl

/-! ### State.setLaunch -/

@[simp] theorem State.setLaunch_cycle (s : State) (l : Launch) : (s.setLaunch l).cycle = s.cycle := rfl
@[simp] theorem State.setLaunch_dram (s : State) (l : Launch) : (s.setLaunch l).dram = s.dram := rfl
@[simp] theorem State.setLaunch_stamps (s : State) (l : Launch) : (s.setLaunch l).stamps = s.stamps := rfl
@[simp] theorem State.setLaunch_shadow (s : State) (l : Launch) : (s.setLaunch l).shadow = s.shadow := rfl
@[simp] theorem State.setLaunch_homes (s : State) (l : Launch) : (s.setLaunch l).homes = s.homes := rfl
@[simp] theorem State.setLaunch_written (s : State) (l : Launch) : (s.setLaunch l).written = s.written := rfl
@[simp] theorem State.setLaunch_frames (s : State) (l : Launch) : (s.setLaunch l).frames = s.frames := rfl
@[simp] theorem State.setLaunch_moves (s : State) (l : Launch) : (s.setLaunch l).moves = s.moves := rfl
@[simp] theorem State.setLaunch_counts (s : State) (l : Launch) : (s.setLaunch l).counts = s.counts := rfl
@[simp] theorem State.setLaunch_reds (s : State) (l : Launch) : (s.setLaunch l).reds = s.reds := rfl
@[simp] theorem State.setLaunch_promos (s : State) (l : Launch) : (s.setLaunch l).promos = s.promos := rfl
@[simp] theorem State.setLaunch_innq (s : State) (l : Launch) : (s.setLaunch l).innq = s.innq := rfl
@[simp] theorem State.setLaunch_launches (s : State) (l : Launch) : (s.setLaunch l).launches = s.launches.map (fun k => if k.lid == l.lid then l else k) := rfl
@[simp] theorem State.setLaunch_queues (s : State) (l : Launch) : (s.setLaunch l).queues = s.queues := rfl
@[simp] theorem State.setLaunch_horizons (s : State) (l : Launch) : (s.setLaunch l).horizons = s.horizons := rfl
@[simp] theorem State.setLaunch_served (s : State) (l : Launch) : (s.setLaunch l).served = s.served := rfl
@[simp] theorem State.setLaunch_cores (s : State) (l : Launch) : (s.setLaunch l).cores = s.cores := rfl
@[simp] theorem State.setLaunch_ctxs (s : State) (l : Launch) : (s.setLaunch l).ctxs = s.ctxs := rfl
@[simp] theorem State.setLaunch_nextCid (s : State) (l : Launch) : (s.setLaunch l).nextCid = s.nextCid := rfl
@[simp] theorem State.setLaunch_links (s : State) (l : Launch) : (s.setLaunch l).links = s.links := rfl
@[simp] theorem State.setLaunch_clocks (s : State) (l : Launch) : (s.setLaunch l).clocks = s.clocks := rfl
@[simp] theorem State.setLaunch_got (s : State) (l : Launch) : (s.setLaunch l).got = s.got := rfl
@[simp] theorem State.setLaunch_batches (s : State) (l : Launch) : (s.setLaunch l).batches = s.batches := rfl
@[simp] theorem State.setLaunch_inbound (s : State) (l : Launch) : (s.setLaunch l).inbound = s.inbound := rfl
@[simp] theorem State.setLaunch_inbox (s : State) (l : Launch) : (s.setLaunch l).inbox = s.inbox := rfl
@[simp] theorem State.setLaunch_relays (s : State) (l : Launch) : (s.setLaunch l).relays = s.relays := rfl
@[simp] theorem State.setLaunch_fars (s : State) (l : Launch) : (s.setLaunch l).fars = s.fars := rfl
@[simp] theorem State.setLaunch_fresp (s : State) (l : Launch) : (s.setLaunch l).fresp = s.fresp := rfl
@[simp] theorem State.setLaunch_pools (s : State) (l : Launch) : (s.setLaunch l).pools = s.pools := rfl
@[simp] theorem State.setLaunch_evbase (s : State) (l : Launch) : (s.setLaunch l).evbase = s.evbase := rfl
@[simp] theorem State.setLaunch_evtail (s : State) (l : Launch) : (s.setLaunch l).evtail = s.evtail := rfl
@[simp] theorem State.setLaunch_evhead (s : State) (l : Launch) : (s.setLaunch l).evhead = s.evhead := rfl
@[simp] theorem State.setLaunch_evmsi (s : State) (l : Launch) : (s.setLaunch l).evmsi = s.evmsi := rfl
@[simp] theorem State.setLaunch_msia (s : State) (l : Launch) : (s.setLaunch l).msia = s.msia := rfl
@[simp] theorem State.setLaunch_shva (s : State) (l : Launch) : (s.setLaunch l).shva = s.shva := rfl
@[simp] theorem State.setLaunch_shkind (s : State) (l : Launch) : (s.setLaunch l).shkind = s.shkind := rfl
@[simp] theorem State.setLaunch_shfor (s : State) (l : Launch) : (s.setLaunch l).shfor = s.shfor := rfl
@[simp] theorem State.setLaunch_shbusy (s : State) (l : Launch) : (s.setLaunch l).shbusy = s.shbusy := rfl
@[simp] theorem State.setLaunch_dctb (s : State) (l : Launch) : (s.setLaunch l).dctb = s.dctb := rfl
@[simp] theorem State.setLaunch_cspill (s : State) (l : Launch) : (s.setLaunch l).cspill = s.cspill := rfl
@[simp] theorem State.setLaunch_spill (s : State) (l : Launch) : (s.setLaunch l).spill = s.spill := rfl
@[simp] theorem State.setLaunch_saved (s : State) (l : Launch) : (s.setLaunch l).saved = s.saved := rfl
@[simp] theorem State.setLaunch_lnkst (s : State) (l : Launch) : (s.setLaunch l).lnkst = s.lnkst := rfl
@[simp] theorem State.setLaunch_events (s : State) (l : Launch) : (s.setLaunch l).events = s.events := rfl
@[simp] theorem State.setLaunch_msis (s : State) (l : Launch) : (s.setLaunch l).msis = s.msis := rfl
@[simp] theorem State.setLaunch_msiOut (s : State) (l : Launch) : (s.setLaunch l).msiOut = s.msiOut := rfl
@[simp] theorem State.setLaunch_harts (s : State) (l : Launch) : (s.setLaunch l).harts = s.harts := rfl
@[simp] theorem State.setLaunch_flash (s : State) (l : Launch) : (s.setLaunch l).flash = s.flash := rfl
@[simp] theorem State.setLaunch_bus (s : State) (l : Launch) : (s.setLaunch l).bus = s.bus := rfl
@[simp] theorem State.setLaunch_peers (s : State) (l : Launch) : (s.setLaunch l).peers = s.peers := rfl
@[simp] theorem State.setLaunch_replies (s : State) (l : Launch) : (s.setLaunch l).replies = s.replies := rfl
@[simp] theorem State.setLaunch_atc (s : State) (l : Launch) : (s.setLaunch l).atc = s.atc := rfl
@[simp] theorem State.setLaunch_invs (s : State) (l : Launch) : (s.setLaunch l).invs = s.invs := rfl
@[simp] theorem State.setLaunch_dropped (s : State) (l : Launch) : (s.setLaunch l).dropped = s.dropped := rfl
@[simp] theorem State.setLaunch_dooms (s : State) (l : Launch) : (s.setLaunch l).dooms = s.dooms := rfl
@[simp] theorem State.setLaunch_fencedCl (s : State) (l : Launch) : (s.setLaunch l).fencedCl = s.fencedCl := rfl
@[simp] theorem State.setLaunch_fencedMx (s : State) (l : Launch) : (s.setLaunch l).fencedMx = s.fencedMx := rfl
@[simp] theorem State.setLaunch_repairs (s : State) (l : Launch) : (s.setLaunch l).repairs = s.repairs := rfl
@[simp] theorem State.setLaunch_calib (s : State) (l : Launch) : (s.setLaunch l).calib = s.calib := rfl
@[simp] theorem State.setLaunch_pcap (s : State) (l : Launch) : (s.setLaunch l).pcap = s.pcap := rfl
@[simp] theorem State.setLaunch_icap (s : State) (l : Launch) : (s.setLaunch l).icap = s.icap := rfl
@[simp] theorem State.setLaunch_pnow (s : State) (l : Launch) : (s.setLaunch l).pnow = s.pnow := rfl
@[simp] theorem State.setLaunch_ipwr (s : State) (l : Launch) : (s.setLaunch l).ipwr = s.ipwr := rfl
@[simp] theorem State.setLaunch_ifrq (s : State) (l : Launch) : (s.setLaunch l).ifrq = s.ifrq := rfl
@[simp] theorem State.setLaunch_focus (s : State) (l : Launch) : (s.setLaunch l).focus = s.focus := rfl
@[simp] theorem State.setLaunch_agenda (s : State) (l : Launch) : (s.setLaunch l).agenda = s.agenda := rfl
@[simp] theorem State.setLaunch_rr (s : State) (l : Launch) : (s.setLaunch l).rr = s.rr := rfl
@[simp] theorem State.setLaunch_last (s : State) (l : Launch) : (s.setLaunch l).last = s.last := rfl
@[simp] theorem State.setLaunch_free (s : State) (l : Launch) : (s.setLaunch l).free = s.free := rfl

/-! ### State.stalled -/

@[simp] theorem State.stalled_cycle (s : State) : (s.stalled).cycle = s.cycle := rfl
@[simp] theorem State.stalled_dram (s : State) : (s.stalled).dram = s.dram := rfl
@[simp] theorem State.stalled_stamps (s : State) : (s.stalled).stamps = s.stamps := rfl
@[simp] theorem State.stalled_shadow (s : State) : (s.stalled).shadow = s.shadow := rfl
@[simp] theorem State.stalled_homes (s : State) : (s.stalled).homes = s.homes := rfl
@[simp] theorem State.stalled_written (s : State) : (s.stalled).written = s.written := rfl
@[simp] theorem State.stalled_frames (s : State) : (s.stalled).frames = s.frames := rfl
@[simp] theorem State.stalled_moves (s : State) : (s.stalled).moves = s.moves := rfl
@[simp] theorem State.stalled_counts (s : State) : (s.stalled).counts = s.counts := rfl
@[simp] theorem State.stalled_reds (s : State) : (s.stalled).reds = s.reds := rfl
@[simp] theorem State.stalled_promos (s : State) : (s.stalled).promos = s.promos := rfl
@[simp] theorem State.stalled_innq (s : State) : (s.stalled).innq = s.innq := rfl
@[simp] theorem State.stalled_launches (s : State) : (s.stalled).launches = s.launches := rfl
@[simp] theorem State.stalled_queues (s : State) : (s.stalled).queues = s.queues := rfl
@[simp] theorem State.stalled_horizons (s : State) : (s.stalled).horizons = s.horizons := rfl
@[simp] theorem State.stalled_served (s : State) : (s.stalled).served = s.served := rfl
@[simp] theorem State.stalled_cores (s : State) : (s.stalled).cores = s.cores := rfl
@[simp] theorem State.stalled_ctxs (s : State) : (s.stalled).ctxs = s.ctxs := rfl
@[simp] theorem State.stalled_nextCid (s : State) : (s.stalled).nextCid = s.nextCid := rfl
@[simp] theorem State.stalled_links (s : State) : (s.stalled).links = s.links := rfl
@[simp] theorem State.stalled_clocks (s : State) : (s.stalled).clocks = s.clocks := rfl
@[simp] theorem State.stalled_got (s : State) : (s.stalled).got = s.got := rfl
@[simp] theorem State.stalled_batches (s : State) : (s.stalled).batches = s.batches := rfl
@[simp] theorem State.stalled_inbound (s : State) : (s.stalled).inbound = s.inbound := rfl
@[simp] theorem State.stalled_inbox (s : State) : (s.stalled).inbox = s.inbox := rfl
@[simp] theorem State.stalled_relays (s : State) : (s.stalled).relays = s.relays := rfl
@[simp] theorem State.stalled_fars (s : State) : (s.stalled).fars = s.fars := rfl
@[simp] theorem State.stalled_fresp (s : State) : (s.stalled).fresp = s.fresp := rfl
@[simp] theorem State.stalled_pools (s : State) : (s.stalled).pools = s.pools := rfl
@[simp] theorem State.stalled_evbase (s : State) : (s.stalled).evbase = s.evbase := rfl
@[simp] theorem State.stalled_evtail (s : State) : (s.stalled).evtail = s.evtail := rfl
@[simp] theorem State.stalled_evhead (s : State) : (s.stalled).evhead = s.evhead := rfl
@[simp] theorem State.stalled_evmsi (s : State) : (s.stalled).evmsi = s.evmsi := rfl
@[simp] theorem State.stalled_msia (s : State) : (s.stalled).msia = s.msia := rfl
@[simp] theorem State.stalled_shva (s : State) : (s.stalled).shva = s.shva := rfl
@[simp] theorem State.stalled_shkind (s : State) : (s.stalled).shkind = s.shkind := rfl
@[simp] theorem State.stalled_shfor (s : State) : (s.stalled).shfor = s.shfor := rfl
@[simp] theorem State.stalled_shbusy (s : State) : (s.stalled).shbusy = s.shbusy := rfl
@[simp] theorem State.stalled_dctb (s : State) : (s.stalled).dctb = s.dctb := rfl
@[simp] theorem State.stalled_cspill (s : State) : (s.stalled).cspill = s.cspill := rfl
@[simp] theorem State.stalled_spill (s : State) : (s.stalled).spill = s.spill := rfl
@[simp] theorem State.stalled_saved (s : State) : (s.stalled).saved = s.saved := rfl
@[simp] theorem State.stalled_lnkst (s : State) : (s.stalled).lnkst = s.lnkst := rfl
@[simp] theorem State.stalled_events (s : State) : (s.stalled).events = s.events := rfl
@[simp] theorem State.stalled_msis (s : State) : (s.stalled).msis = s.msis := rfl
@[simp] theorem State.stalled_msiOut (s : State) : (s.stalled).msiOut = s.msiOut := rfl
@[simp] theorem State.stalled_harts (s : State) : (s.stalled).harts = s.harts := rfl
@[simp] theorem State.stalled_flash (s : State) : (s.stalled).flash = s.flash := rfl
@[simp] theorem State.stalled_bus (s : State) : (s.stalled).bus = s.bus := rfl
@[simp] theorem State.stalled_peers (s : State) : (s.stalled).peers = s.peers := rfl
@[simp] theorem State.stalled_replies (s : State) : (s.stalled).replies = s.replies := rfl
@[simp] theorem State.stalled_atc (s : State) : (s.stalled).atc = s.atc := rfl
@[simp] theorem State.stalled_invs (s : State) : (s.stalled).invs = s.invs := rfl
@[simp] theorem State.stalled_dropped (s : State) : (s.stalled).dropped = s.dropped := rfl
@[simp] theorem State.stalled_dooms (s : State) : (s.stalled).dooms = s.dooms := rfl
@[simp] theorem State.stalled_fencedCl (s : State) : (s.stalled).fencedCl = s.fencedCl := rfl
@[simp] theorem State.stalled_fencedMx (s : State) : (s.stalled).fencedMx = s.fencedMx := rfl
@[simp] theorem State.stalled_repairs (s : State) : (s.stalled).repairs = s.repairs := rfl
@[simp] theorem State.stalled_calib (s : State) : (s.stalled).calib = s.calib := rfl
@[simp] theorem State.stalled_pcap (s : State) : (s.stalled).pcap = s.pcap := rfl
@[simp] theorem State.stalled_icap (s : State) : (s.stalled).icap = s.icap := rfl
@[simp] theorem State.stalled_pnow (s : State) : (s.stalled).pnow = s.pnow := rfl
@[simp] theorem State.stalled_ipwr (s : State) : (s.stalled).ipwr = s.ipwr := rfl
@[simp] theorem State.stalled_ifrq (s : State) : (s.stalled).ifrq = s.ifrq := rfl
@[simp] theorem State.stalled_focus (s : State) : (s.stalled).focus = s.focus := rfl
@[simp] theorem State.stalled_agenda (s : State) : (s.stalled).agenda = s.agenda := rfl
@[simp] theorem State.stalled_rr (s : State) : (s.stalled).rr = s.rr := rfl
@[simp] theorem State.stalled_last (s : State) : (s.stalled).last = .stalled := rfl
@[simp] theorem State.stalled_free (s : State) : (s.stalled).free = s.free := rfl

/-! ### State.keep -/

@[simp] theorem State.keep_cycle (s : State) (c : Ctx) : (s.keep c).cycle = s.cycle := rfl
@[simp] theorem State.keep_dram (s : State) (c : Ctx) : (s.keep c).dram = s.dram := rfl
@[simp] theorem State.keep_stamps (s : State) (c : Ctx) : (s.keep c).stamps = s.stamps := rfl
@[simp] theorem State.keep_shadow (s : State) (c : Ctx) : (s.keep c).shadow = s.shadow := rfl
@[simp] theorem State.keep_homes (s : State) (c : Ctx) : (s.keep c).homes = s.homes := rfl
@[simp] theorem State.keep_written (s : State) (c : Ctx) : (s.keep c).written = s.written := rfl
@[simp] theorem State.keep_frames (s : State) (c : Ctx) : (s.keep c).frames = s.frames := rfl
@[simp] theorem State.keep_moves (s : State) (c : Ctx) : (s.keep c).moves = s.moves := rfl
@[simp] theorem State.keep_counts (s : State) (c : Ctx) : (s.keep c).counts = s.counts := rfl
@[simp] theorem State.keep_reds (s : State) (c : Ctx) : (s.keep c).reds = s.reds := rfl
@[simp] theorem State.keep_promos (s : State) (c : Ctx) : (s.keep c).promos = s.promos := rfl
@[simp] theorem State.keep_innq (s : State) (c : Ctx) : (s.keep c).innq = s.innq ++ c.entering s.innq := rfl
@[simp] theorem State.keep_launches (s : State) (c : Ctx) : (s.keep c).launches = s.launches := rfl
@[simp] theorem State.keep_queues (s : State) (c : Ctx) : (s.keep c).queues = s.queues := rfl
@[simp] theorem State.keep_horizons (s : State) (c : Ctx) : (s.keep c).horizons = s.horizons := rfl
@[simp] theorem State.keep_served (s : State) (c : Ctx) : (s.keep c).served = s.served := rfl
@[simp] theorem State.keep_cores (s : State) (c : Ctx) : (s.keep c).cores = s.cores := rfl
@[simp] theorem State.keep_ctxs (s : State) (c : Ctx) : (s.keep c).ctxs = s.ctxs.set c.cid c := rfl
@[simp] theorem State.keep_nextCid (s : State) (c : Ctx) : (s.keep c).nextCid = s.nextCid := rfl
@[simp] theorem State.keep_links (s : State) (c : Ctx) : (s.keep c).links = s.links := rfl
@[simp] theorem State.keep_clocks (s : State) (c : Ctx) : (s.keep c).clocks = s.clocks := rfl
@[simp] theorem State.keep_got (s : State) (c : Ctx) : (s.keep c).got = s.got := rfl
@[simp] theorem State.keep_batches (s : State) (c : Ctx) : (s.keep c).batches = s.batches := rfl
@[simp] theorem State.keep_inbound (s : State) (c : Ctx) : (s.keep c).inbound = s.inbound := rfl
@[simp] theorem State.keep_inbox (s : State) (c : Ctx) : (s.keep c).inbox = s.inbox := rfl
@[simp] theorem State.keep_relays (s : State) (c : Ctx) : (s.keep c).relays = s.relays := rfl
@[simp] theorem State.keep_fars (s : State) (c : Ctx) : (s.keep c).fars = s.fars := rfl
@[simp] theorem State.keep_fresp (s : State) (c : Ctx) : (s.keep c).fresp = s.fresp := rfl
@[simp] theorem State.keep_pools (s : State) (c : Ctx) : (s.keep c).pools = s.pools := rfl
@[simp] theorem State.keep_evbase (s : State) (c : Ctx) : (s.keep c).evbase = s.evbase := rfl
@[simp] theorem State.keep_evtail (s : State) (c : Ctx) : (s.keep c).evtail = s.evtail := rfl
@[simp] theorem State.keep_evhead (s : State) (c : Ctx) : (s.keep c).evhead = s.evhead := rfl
@[simp] theorem State.keep_evmsi (s : State) (c : Ctx) : (s.keep c).evmsi = s.evmsi := rfl
@[simp] theorem State.keep_msia (s : State) (c : Ctx) : (s.keep c).msia = s.msia := rfl
@[simp] theorem State.keep_shva (s : State) (c : Ctx) : (s.keep c).shva = s.shva := rfl
@[simp] theorem State.keep_shkind (s : State) (c : Ctx) : (s.keep c).shkind = s.shkind := rfl
@[simp] theorem State.keep_shfor (s : State) (c : Ctx) : (s.keep c).shfor = s.shfor := rfl
@[simp] theorem State.keep_shbusy (s : State) (c : Ctx) : (s.keep c).shbusy = s.shbusy := rfl
@[simp] theorem State.keep_dctb (s : State) (c : Ctx) : (s.keep c).dctb = s.dctb := rfl
@[simp] theorem State.keep_cspill (s : State) (c : Ctx) : (s.keep c).cspill = s.cspill := rfl
@[simp] theorem State.keep_spill (s : State) (c : Ctx) : (s.keep c).spill = s.spill := rfl
@[simp] theorem State.keep_saved (s : State) (c : Ctx) : (s.keep c).saved = s.saved := rfl
@[simp] theorem State.keep_lnkst (s : State) (c : Ctx) : (s.keep c).lnkst = s.lnkst := rfl
@[simp] theorem State.keep_events (s : State) (c : Ctx) : (s.keep c).events = s.events := rfl
@[simp] theorem State.keep_msis (s : State) (c : Ctx) : (s.keep c).msis = s.msis := rfl
@[simp] theorem State.keep_msiOut (s : State) (c : Ctx) : (s.keep c).msiOut = s.msiOut := rfl
@[simp] theorem State.keep_harts (s : State) (c : Ctx) : (s.keep c).harts = s.harts := rfl
@[simp] theorem State.keep_flash (s : State) (c : Ctx) : (s.keep c).flash = s.flash := rfl
@[simp] theorem State.keep_bus (s : State) (c : Ctx) : (s.keep c).bus = s.bus := rfl
@[simp] theorem State.keep_peers (s : State) (c : Ctx) : (s.keep c).peers = s.peers := rfl
@[simp] theorem State.keep_replies (s : State) (c : Ctx) : (s.keep c).replies = s.replies := rfl
@[simp] theorem State.keep_atc (s : State) (c : Ctx) : (s.keep c).atc = s.atc := rfl
@[simp] theorem State.keep_invs (s : State) (c : Ctx) : (s.keep c).invs = s.invs := rfl
@[simp] theorem State.keep_dropped (s : State) (c : Ctx) : (s.keep c).dropped = s.dropped := rfl
@[simp] theorem State.keep_dooms (s : State) (c : Ctx) : (s.keep c).dooms = s.dooms := rfl
@[simp] theorem State.keep_fencedCl (s : State) (c : Ctx) : (s.keep c).fencedCl = s.fencedCl := rfl
@[simp] theorem State.keep_fencedMx (s : State) (c : Ctx) : (s.keep c).fencedMx = s.fencedMx := rfl
@[simp] theorem State.keep_repairs (s : State) (c : Ctx) : (s.keep c).repairs = s.repairs := rfl
@[simp] theorem State.keep_calib (s : State) (c : Ctx) : (s.keep c).calib = s.calib := rfl
@[simp] theorem State.keep_pcap (s : State) (c : Ctx) : (s.keep c).pcap = s.pcap := rfl
@[simp] theorem State.keep_icap (s : State) (c : Ctx) : (s.keep c).icap = s.icap := rfl
@[simp] theorem State.keep_pnow (s : State) (c : Ctx) : (s.keep c).pnow = s.pnow := rfl
@[simp] theorem State.keep_ipwr (s : State) (c : Ctx) : (s.keep c).ipwr = s.ipwr := rfl
@[simp] theorem State.keep_ifrq (s : State) (c : Ctx) : (s.keep c).ifrq = s.ifrq := rfl
@[simp] theorem State.keep_focus (s : State) (c : Ctx) : (s.keep c).focus = s.focus := rfl
@[simp] theorem State.keep_agenda (s : State) (c : Ctx) : (s.keep c).agenda = s.agenda := rfl
@[simp] theorem State.keep_rr (s : State) (c : Ctx) : (s.keep c).rr = s.rr := rfl
@[simp] theorem State.keep_last (s : State) (c : Ctx) : (s.keep c).last = s.last := rfl
@[simp] theorem State.keep_free (s : State) (c : Ctx) : (s.keep c).free = s.free := rfl

/-! ### State.issued -/

@[simp] theorem State.issued_cycle (s : State) (c : Ctx) : (s.issued c).cycle = s.cycle := rfl
@[simp] theorem State.issued_dram (s : State) (c : Ctx) : (s.issued c).dram = s.dram := rfl
@[simp] theorem State.issued_stamps (s : State) (c : Ctx) : (s.issued c).stamps = s.stamps := rfl
@[simp] theorem State.issued_shadow (s : State) (c : Ctx) : (s.issued c).shadow = s.shadow := rfl
@[simp] theorem State.issued_homes (s : State) (c : Ctx) : (s.issued c).homes = s.homes := rfl
@[simp] theorem State.issued_written (s : State) (c : Ctx) : (s.issued c).written = s.written := rfl
@[simp] theorem State.issued_frames (s : State) (c : Ctx) : (s.issued c).frames = s.frames := rfl
@[simp] theorem State.issued_moves (s : State) (c : Ctx) : (s.issued c).moves = s.moves := rfl
@[simp] theorem State.issued_counts (s : State) (c : Ctx) : (s.issued c).counts = s.counts := rfl
@[simp] theorem State.issued_reds (s : State) (c : Ctx) : (s.issued c).reds = s.reds := rfl
@[simp] theorem State.issued_promos (s : State) (c : Ctx) : (s.issued c).promos = s.promos := rfl
@[simp] theorem State.issued_innq (s : State) (c : Ctx) : (s.issued c).innq = s.innq ++ c.entering s.innq := rfl
@[simp] theorem State.issued_launches (s : State) (c : Ctx) : (s.issued c).launches = s.launches := rfl
@[simp] theorem State.issued_queues (s : State) (c : Ctx) : (s.issued c).queues = s.queues := rfl
@[simp] theorem State.issued_horizons (s : State) (c : Ctx) : (s.issued c).horizons = s.horizons := rfl
@[simp] theorem State.issued_served (s : State) (c : Ctx) : (s.issued c).served = s.served := rfl
@[simp] theorem State.issued_cores (s : State) (c : Ctx) : (s.issued c).cores = s.cores := rfl
@[simp] theorem State.issued_ctxs (s : State) (c : Ctx) : (s.issued c).ctxs = s.ctxs.set c.cid c := rfl
@[simp] theorem State.issued_nextCid (s : State) (c : Ctx) : (s.issued c).nextCid = s.nextCid := rfl
@[simp] theorem State.issued_links (s : State) (c : Ctx) : (s.issued c).links = s.links := rfl
@[simp] theorem State.issued_clocks (s : State) (c : Ctx) : (s.issued c).clocks = s.clocks := rfl
@[simp] theorem State.issued_got (s : State) (c : Ctx) : (s.issued c).got = s.got := rfl
@[simp] theorem State.issued_batches (s : State) (c : Ctx) : (s.issued c).batches = s.batches := rfl
@[simp] theorem State.issued_inbound (s : State) (c : Ctx) : (s.issued c).inbound = s.inbound := rfl
@[simp] theorem State.issued_inbox (s : State) (c : Ctx) : (s.issued c).inbox = s.inbox := rfl
@[simp] theorem State.issued_relays (s : State) (c : Ctx) : (s.issued c).relays = s.relays := rfl
@[simp] theorem State.issued_fars (s : State) (c : Ctx) : (s.issued c).fars = s.fars := rfl
@[simp] theorem State.issued_fresp (s : State) (c : Ctx) : (s.issued c).fresp = s.fresp := rfl
@[simp] theorem State.issued_pools (s : State) (c : Ctx) : (s.issued c).pools = s.pools := rfl
@[simp] theorem State.issued_evbase (s : State) (c : Ctx) : (s.issued c).evbase = s.evbase := rfl
@[simp] theorem State.issued_evtail (s : State) (c : Ctx) : (s.issued c).evtail = s.evtail := rfl
@[simp] theorem State.issued_evhead (s : State) (c : Ctx) : (s.issued c).evhead = s.evhead := rfl
@[simp] theorem State.issued_evmsi (s : State) (c : Ctx) : (s.issued c).evmsi = s.evmsi := rfl
@[simp] theorem State.issued_msia (s : State) (c : Ctx) : (s.issued c).msia = s.msia := rfl
@[simp] theorem State.issued_shva (s : State) (c : Ctx) : (s.issued c).shva = s.shva := rfl
@[simp] theorem State.issued_shkind (s : State) (c : Ctx) : (s.issued c).shkind = s.shkind := rfl
@[simp] theorem State.issued_shfor (s : State) (c : Ctx) : (s.issued c).shfor = s.shfor := rfl
@[simp] theorem State.issued_shbusy (s : State) (c : Ctx) : (s.issued c).shbusy = s.shbusy := rfl
@[simp] theorem State.issued_dctb (s : State) (c : Ctx) : (s.issued c).dctb = s.dctb := rfl
@[simp] theorem State.issued_cspill (s : State) (c : Ctx) : (s.issued c).cspill = s.cspill := rfl
@[simp] theorem State.issued_spill (s : State) (c : Ctx) : (s.issued c).spill = s.spill := rfl
@[simp] theorem State.issued_saved (s : State) (c : Ctx) : (s.issued c).saved = s.saved := rfl
@[simp] theorem State.issued_lnkst (s : State) (c : Ctx) : (s.issued c).lnkst = s.lnkst := rfl
@[simp] theorem State.issued_events (s : State) (c : Ctx) : (s.issued c).events = s.events := rfl
@[simp] theorem State.issued_msis (s : State) (c : Ctx) : (s.issued c).msis = s.msis := rfl
@[simp] theorem State.issued_msiOut (s : State) (c : Ctx) : (s.issued c).msiOut = s.msiOut := rfl
@[simp] theorem State.issued_harts (s : State) (c : Ctx) : (s.issued c).harts = s.harts := rfl
@[simp] theorem State.issued_flash (s : State) (c : Ctx) : (s.issued c).flash = s.flash := rfl
@[simp] theorem State.issued_bus (s : State) (c : Ctx) : (s.issued c).bus = s.bus := rfl
@[simp] theorem State.issued_peers (s : State) (c : Ctx) : (s.issued c).peers = s.peers := rfl
@[simp] theorem State.issued_replies (s : State) (c : Ctx) : (s.issued c).replies = s.replies := rfl
@[simp] theorem State.issued_atc (s : State) (c : Ctx) : (s.issued c).atc = s.atc := rfl
@[simp] theorem State.issued_invs (s : State) (c : Ctx) : (s.issued c).invs = s.invs := rfl
@[simp] theorem State.issued_dropped (s : State) (c : Ctx) : (s.issued c).dropped = s.dropped := rfl
@[simp] theorem State.issued_dooms (s : State) (c : Ctx) : (s.issued c).dooms = s.dooms := rfl
@[simp] theorem State.issued_fencedCl (s : State) (c : Ctx) : (s.issued c).fencedCl = s.fencedCl := rfl
@[simp] theorem State.issued_fencedMx (s : State) (c : Ctx) : (s.issued c).fencedMx = s.fencedMx := rfl
@[simp] theorem State.issued_repairs (s : State) (c : Ctx) : (s.issued c).repairs = s.repairs := rfl
@[simp] theorem State.issued_calib (s : State) (c : Ctx) : (s.issued c).calib = s.calib := rfl
@[simp] theorem State.issued_pcap (s : State) (c : Ctx) : (s.issued c).pcap = s.pcap := rfl
@[simp] theorem State.issued_icap (s : State) (c : Ctx) : (s.issued c).icap = s.icap := rfl
@[simp] theorem State.issued_pnow (s : State) (c : Ctx) : (s.issued c).pnow = s.pnow := rfl
@[simp] theorem State.issued_ipwr (s : State) (c : Ctx) : (s.issued c).ipwr = s.ipwr := rfl
@[simp] theorem State.issued_ifrq (s : State) (c : Ctx) : (s.issued c).ifrq = s.ifrq := rfl
@[simp] theorem State.issued_focus (s : State) (c : Ctx) : (s.issued c).focus = s.focus := rfl
@[simp] theorem State.issued_agenda (s : State) (c : Ctx) : (s.issued c).agenda = s.agenda := rfl
@[simp] theorem State.issued_rr (s : State) (c : Ctx) : (s.issued c).rr = s.rr := rfl
@[simp] theorem State.issued_last (s : State) (c : Ctx) : (s.issued c).last = .issued := rfl
@[simp] theorem State.issued_free (s : State) (c : Ctx) : (s.issued c).free = s.free := rfl

/-! ### Ctx.launchResult -/

@[simp] theorem Ctx.launchResult_cid (c : Ctx) (f : Flight) : (c.launchResult f).cid = c.cid := rfl
@[simp] theorem Ctx.launchResult_lid (c : Ctx) (f : Flight) : (c.launchResult f).lid = c.lid := rfl
@[simp] theorem Ctx.launchResult_idx (c : Ctx) (f : Flight) : (c.launchResult f).idx = c.idx := rfl
@[simp] theorem Ctx.launchResult_coord (c : Ctx) (f : Flight) : (c.launchResult f).coord = c.coord := rfl
@[simp] theorem Ctx.launchResult_kind (c : Ctx) (f : Flight) : (c.launchResult f).kind = c.kind := rfl
@[simp] theorem Ctx.launchResult_core (c : Ctx) (f : Flight) : (c.launchResult f).core = c.core := rfl
@[simp] theorem Ctx.launchResult_loc (c : Ctx) (f : Flight) : (c.launchResult f).loc = c.loc := rfl
@[simp] theorem Ctx.launchResult_stat (c : Ctx) (f : Flight) : (c.launchResult f).stat = c.stat := rfl
@[simp] theorem Ctx.launchResult_bars (c : Ctx) (f : Flight) : (c.launchResult f).bars = c.bars := rfl
@[simp] theorem Ctx.launchResult_root (c : Ctx) (f : Flight) : (c.launchResult f).root = c.root := rfl
@[simp] theorem Ctx.launchResult_plots (c : Ctx) (f : Flight) : (c.launchResult f).plots = c.plots := rfl
@[simp] theorem Ctx.launchResult_noxf (c : Ctx) (f : Flight) : (c.launchResult f).noxf = c.noxf := rfl
@[simp] theorem Ctx.launchResult_nocan (c : Ctx) (f : Flight) : (c.launchResult f).nocan = c.nocan := rfl
@[simp] theorem Ctx.launchResult_novec (c : Ctx) (f : Flight) : (c.launchResult f).novec = c.novec := rfl
@[simp] theorem Ctx.launchResult_nomx (c : Ctx) (f : Flight) : (c.launchResult f).nomx = c.nomx := rfl
@[simp] theorem Ctx.launchResult_dmode (c : Ctx) (f : Flight) : (c.launchResult f).dmode = c.dmode := rfl
@[simp] theorem Ctx.launchResult_size (c : Ctx) (f : Flight) : (c.launchResult f).size = c.size := rfl
@[simp] theorem Ctx.launchResult_param (c : Ctx) (f : Flight) : (c.launchResult f).param = c.param := rfl
@[simp] theorem Ctx.launchResult_image (c : Ctx) (f : Flight) : (c.launchResult f).image = c.image := rfl
@[simp] theorem Ctx.launchResult_pimage (c : Ctx) (f : Flight) : (c.launchResult f).pimage = c.pimage := rfl
@[simp] theorem Ctx.launchResult_sup (c : Ctx) (f : Flight) : (c.launchResult f).sup = c.sup := rfl
@[simp] theorem Ctx.launchResult_phase (c : Ctx) (f : Flight) : (c.launchResult f).phase = c.phase := rfl
@[simp] theorem Ctx.launchResult_legno (c : Ctx) (f : Flight) : (c.launchResult f).legno = c.legno := rfl
@[simp] theorem Ctx.launchResult_joined (c : Ctx) (f : Flight) : (c.launchResult f).joined = c.joined := rfl
@[simp] theorem Ctx.launchResult_t (c : Ctx) (f : Flight) : (c.launchResult f).t = c.t := rfl
@[simp] theorem Ctx.launchResult_replay (c : Ctx) (f : Flight) : (c.launchResult f).replay = c.replay := rfl
@[simp] theorem Ctx.launchResult_ctl (c : Ctx) (f : Flight) : (c.launchResult f).ctl = c.ctl := rfl
@[simp] theorem Ctx.launchResult_load (c : Ctx) (f : Flight) : (c.launchResult f).load = c.load := rfl
@[simp] theorem Ctx.launchResult_store (c : Ctx) (f : Flight) : (c.launchResult f).store = c.store := rfl
@[simp] theorem Ctx.launchResult_comp (c : Ctx) (f : Flight) : (c.launchResult f).comp = c.comp := rfl
@[simp] theorem Ctx.launchResult_sems (c : Ctx) (f : Flight) : (c.launchResult f).sems = c.sems := rfl
@[simp] theorem Ctx.launchResult_semT (c : Ctx) (f : Flight) : (c.launchResult f).semT = c.semT := rfl
@[simp] theorem Ctx.launchResult_semS (c : Ctx) (f : Flight) : (c.launchResult f).semS = c.semS := rfl
@[simp] theorem Ctx.launchResult_cbits (c : Ctx) (f : Flight) : (c.launchResult f).cbits = c.cbits := rfl
@[simp] theorem Ctx.launchResult_cbitsT (c : Ctx) (f : Flight) : (c.launchResult f).cbitsT = c.cbitsT := rfl
@[simp] theorem Ctx.launchResult_desc (c : Ctx) (f : Flight) : (c.launchResult f).desc = c.desc := rfl
@[simp] theorem Ctx.launchResult_v (c : Ctx) (f : Flight) : (c.launchResult f).v = c.v := rfl
@[simp] theorem Ctx.launchResult_m (c : Ctx) (f : Flight) : (c.launchResult f).m = c.m := rfl
@[simp] theorem Ctx.launchResult_acc (c : Ctx) (f : Flight) : (c.launchResult f).acc = c.acc := rfl
@[simp] theorem Ctx.launchResult_bp (c : Ctx) (f : Flight) : (c.launchResult f).bp = c.bp := rfl
@[simp] theorem Ctx.launchResult_sticky (c : Ctx) (f : Flight) : (c.launchResult f).sticky = c.sticky := rfl
@[simp] theorem Ctx.launchResult_late (c : Ctx) (f : Flight) : (c.launchResult f).late = c.late := rfl
@[simp] theorem Ctx.launchResult_landed (c : Ctx) (f : Flight) : (c.launchResult f).landed = c.landed := rfl
@[simp] theorem Ctx.launchResult_cause (c : Ctx) (f : Flight) : (c.launchResult f).cause = c.cause := rfl
@[simp] theorem Ctx.launchResult_tval (c : Ctx) (f : Flight) : (c.launchResult f).tval = c.tval := rfl
@[simp] theorem Ctx.launchResult_hen (c : Ctx) (f : Flight) : (c.launchResult f).hen = c.hen := rfl
@[simp] theorem Ctx.launchResult_hent (c : Ctx) (f : Flight) : (c.launchResult f).hent = c.hent := rfl
@[simp] theorem Ctx.launchResult_flight (c : Ctx) (f : Flight) : (c.launchResult f).flight = c.flight ++ [f] := rfl
@[simp] theorem Ctx.launchResult_vno (c : Ctx) (f : Flight) : (c.launchResult f).vno = c.vno := rfl
@[simp] theorem Ctx.launchResult_bno (c : Ctx) (f : Flight) : (c.launchResult f).bno = c.bno := rfl
@[simp] theorem Ctx.launchResult_inb (c : Ctx) (f : Flight) : (c.launchResult f).inb = c.inb := rfl
@[simp] theorem Ctx.launchResult_outb (c : Ctx) (f : Flight) : (c.launchResult f).outb = c.outb := rfl
@[simp] theorem Ctx.launchResult_mx (c : Ctx) (f : Flight) : (c.launchResult f).mx = c.mx := rfl
@[simp] theorem Ctx.launchResult_offers (c : Ctx) (f : Flight) : (c.launchResult f).offers = c.offers := rfl
@[simp] theorem Ctx.launchResult_marks (c : Ctx) (f : Flight) : (c.launchResult f).marks = c.marks := rfl
@[simp] theorem Ctx.launchResult_wins (c : Ctx) (f : Flight) : (c.launchResult f).wins = c.wins := rfl
@[simp] theorem Ctx.launchResult_leg (c : Ctx) (f : Flight) : (c.launchResult f).leg = c.leg := rfl
@[simp] theorem Ctx.launchResult_legs (c : Ctx) (f : Flight) : (c.launchResult f).legs = c.legs := rfl
@[simp] theorem Ctx.launchResult_ended (c : Ctx) (f : Flight) : (c.launchResult f).ended = c.ended := rfl
@[simp] theorem Ctx.launchResult_pend (c : Ctx) (f : Flight) : (c.launchResult f).pend = c.pend := rfl
@[simp] theorem Ctx.launchResult_again (c : Ctx) (f : Flight) : (c.launchResult f).again = c.again := rfl
@[simp] theorem Ctx.launchResult_back (c : Ctx) (f : Flight) : (c.launchResult f).back = c.back := rfl
@[simp] theorem Ctx.launchResult_waitm (c : Ctx) (f : Flight) : (c.launchResult f).waitm = c.waitm := rfl
@[simp] theorem Ctx.launchResult_hold (c : Ctx) (f : Flight) : (c.launchResult f).hold = c.hold := rfl
@[simp] theorem Ctx.launchResult_impr (c : Ctx) (f : Flight) : (c.launchResult f).impr = c.impr := rfl
@[simp] theorem Ctx.launchResult_trap (c : Ctx) (f : Flight) : (c.launchResult f).trap = c.trap := rfl
@[simp] theorem Ctx.launchResult_listed (c : Ctx) (f : Flight) : (c.launchResult f).listed = c.listed := rfl
@[simp] theorem Ctx.launchResult_listOv (c : Ctx) (f : Flight) : (c.launchResult f).listOv = c.listOv := rfl
@[simp] theorem Ctx.launchResult_halting (c : Ctx) (f : Flight) : (c.launchResult f).halting = c.halting := rfl
@[simp] theorem Ctx.launchResult_want (c : Ctx) (f : Flight) : (c.launchResult f).want = c.want := rfl
@[simp] theorem Ctx.launchResult_leaving (c : Ctx) (f : Flight) : (c.launchResult f).leaving = c.leaving := rfl
@[simp] theorem Ctx.launchResult_abop (c : Ctx) (f : Flight) : (c.launchResult f).abop = c.abop := rfl
@[simp] theorem Ctx.launchResult_fresh (c : Ctx) (f : Flight) : (c.launchResult f).fresh = c.fresh := rfl
@[simp] theorem Ctx.launchResult_seen (c : Ctx) (f : Flight) : (c.launchResult f).seen = c.seen := rfl
@[simp] theorem Ctx.launchResult_sp (c : Ctx) (f : Flight) : (c.launchResult f).sp = c.sp := rfl
@[simp] theorem Ctx.launchResult_can (c : Ctx) (f : Flight) : (c.launchResult f).can = c.can := rfl
@[simp] theorem Ctx.launchResult_decl (c : Ctx) (f : Flight) : (c.launchResult f).decl = c.decl := rfl
@[simp] theorem Ctx.launchResult_bills (c : Ctx) (f : Flight) : (c.launchResult f).bills = c.bills := rfl
@[simp] theorem Ctx.launchResult_inv (c : Ctx) (f : Flight) : (c.launchResult f).inv = c.inv := rfl

/-! ### Ctx.setSem -/

@[simp] theorem Ctx.setSem_cid (c : Ctx) (n : BitVec 8) (v : BitVec 20) : (c.setSem n v).cid = c.cid := rfl
@[simp] theorem Ctx.setSem_lid (c : Ctx) (n : BitVec 8) (v : BitVec 20) : (c.setSem n v).lid = c.lid := rfl
@[simp] theorem Ctx.setSem_idx (c : Ctx) (n : BitVec 8) (v : BitVec 20) : (c.setSem n v).idx = c.idx := rfl
@[simp] theorem Ctx.setSem_coord (c : Ctx) (n : BitVec 8) (v : BitVec 20) : (c.setSem n v).coord = c.coord := rfl
@[simp] theorem Ctx.setSem_kind (c : Ctx) (n : BitVec 8) (v : BitVec 20) : (c.setSem n v).kind = c.kind := rfl
@[simp] theorem Ctx.setSem_core (c : Ctx) (n : BitVec 8) (v : BitVec 20) : (c.setSem n v).core = c.core := rfl
@[simp] theorem Ctx.setSem_loc (c : Ctx) (n : BitVec 8) (v : BitVec 20) : (c.setSem n v).loc = c.loc := rfl
@[simp] theorem Ctx.setSem_stat (c : Ctx) (n : BitVec 8) (v : BitVec 20) : (c.setSem n v).stat = c.stat := rfl
@[simp] theorem Ctx.setSem_bars (c : Ctx) (n : BitVec 8) (v : BitVec 20) : (c.setSem n v).bars = c.bars := rfl
@[simp] theorem Ctx.setSem_root (c : Ctx) (n : BitVec 8) (v : BitVec 20) : (c.setSem n v).root = c.root := rfl
@[simp] theorem Ctx.setSem_plots (c : Ctx) (n : BitVec 8) (v : BitVec 20) : (c.setSem n v).plots = c.plots := rfl
@[simp] theorem Ctx.setSem_noxf (c : Ctx) (n : BitVec 8) (v : BitVec 20) : (c.setSem n v).noxf = c.noxf := rfl
@[simp] theorem Ctx.setSem_nocan (c : Ctx) (n : BitVec 8) (v : BitVec 20) : (c.setSem n v).nocan = c.nocan := rfl
@[simp] theorem Ctx.setSem_novec (c : Ctx) (n : BitVec 8) (v : BitVec 20) : (c.setSem n v).novec = c.novec := rfl
@[simp] theorem Ctx.setSem_nomx (c : Ctx) (n : BitVec 8) (v : BitVec 20) : (c.setSem n v).nomx = c.nomx := rfl
@[simp] theorem Ctx.setSem_dmode (c : Ctx) (n : BitVec 8) (v : BitVec 20) : (c.setSem n v).dmode = c.dmode := rfl
@[simp] theorem Ctx.setSem_size (c : Ctx) (n : BitVec 8) (v : BitVec 20) : (c.setSem n v).size = c.size := rfl
@[simp] theorem Ctx.setSem_param (c : Ctx) (n : BitVec 8) (v : BitVec 20) : (c.setSem n v).param = c.param := rfl
@[simp] theorem Ctx.setSem_image (c : Ctx) (n : BitVec 8) (v : BitVec 20) : (c.setSem n v).image = c.image := rfl
@[simp] theorem Ctx.setSem_pimage (c : Ctx) (n : BitVec 8) (v : BitVec 20) : (c.setSem n v).pimage = c.pimage := rfl
@[simp] theorem Ctx.setSem_sup (c : Ctx) (n : BitVec 8) (v : BitVec 20) : (c.setSem n v).sup = c.sup := rfl
@[simp] theorem Ctx.setSem_phase (c : Ctx) (n : BitVec 8) (v : BitVec 20) : (c.setSem n v).phase = c.phase := rfl
@[simp] theorem Ctx.setSem_legno (c : Ctx) (n : BitVec 8) (v : BitVec 20) : (c.setSem n v).legno = c.legno := rfl
@[simp] theorem Ctx.setSem_joined (c : Ctx) (n : BitVec 8) (v : BitVec 20) : (c.setSem n v).joined = c.joined := rfl
@[simp] theorem Ctx.setSem_t (c : Ctx) (n : BitVec 8) (v : BitVec 20) : (c.setSem n v).t = c.t := rfl
@[simp] theorem Ctx.setSem_replay (c : Ctx) (n : BitVec 8) (v : BitVec 20) : (c.setSem n v).replay = c.replay := rfl
@[simp] theorem Ctx.setSem_ctl (c : Ctx) (n : BitVec 8) (v : BitVec 20) : (c.setSem n v).ctl = c.ctl := rfl
@[simp] theorem Ctx.setSem_load (c : Ctx) (n : BitVec 8) (v : BitVec 20) : (c.setSem n v).load = c.load := rfl
@[simp] theorem Ctx.setSem_store (c : Ctx) (n : BitVec 8) (v : BitVec 20) : (c.setSem n v).store = c.store := rfl
@[simp] theorem Ctx.setSem_comp (c : Ctx) (n : BitVec 8) (v : BitVec 20) : (c.setSem n v).comp = c.comp := rfl
@[simp] theorem Ctx.setSem_sems (c : Ctx) (n : BitVec 8) (v : BitVec 20) : (c.setSem n v).sems = c.sems.put 0 n.toNat v := rfl
@[simp] theorem Ctx.setSem_semT (c : Ctx) (n : BitVec 8) (v : BitVec 20) : (c.setSem n v).semT = c.semT := rfl
@[simp] theorem Ctx.setSem_semS (c : Ctx) (n : BitVec 8) (v : BitVec 20) : (c.setSem n v).semS = c.semS := rfl
@[simp] theorem Ctx.setSem_cbits (c : Ctx) (n : BitVec 8) (v : BitVec 20) : (c.setSem n v).cbits = c.cbits := rfl
@[simp] theorem Ctx.setSem_cbitsT (c : Ctx) (n : BitVec 8) (v : BitVec 20) : (c.setSem n v).cbitsT = c.cbitsT := rfl
@[simp] theorem Ctx.setSem_desc (c : Ctx) (n : BitVec 8) (v : BitVec 20) : (c.setSem n v).desc = c.desc := rfl
@[simp] theorem Ctx.setSem_v (c : Ctx) (n : BitVec 8) (v : BitVec 20) : (c.setSem n v).v = c.v := rfl
@[simp] theorem Ctx.setSem_m (c : Ctx) (n : BitVec 8) (v : BitVec 20) : (c.setSem n v).m = c.m := rfl
@[simp] theorem Ctx.setSem_acc (c : Ctx) (n : BitVec 8) (v : BitVec 20) : (c.setSem n v).acc = c.acc := rfl
@[simp] theorem Ctx.setSem_bp (c : Ctx) (n : BitVec 8) (v : BitVec 20) : (c.setSem n v).bp = c.bp := rfl
@[simp] theorem Ctx.setSem_sticky (c : Ctx) (n : BitVec 8) (v : BitVec 20) : (c.setSem n v).sticky = c.sticky := rfl
@[simp] theorem Ctx.setSem_late (c : Ctx) (n : BitVec 8) (v : BitVec 20) : (c.setSem n v).late = c.late := rfl
@[simp] theorem Ctx.setSem_landed (c : Ctx) (n : BitVec 8) (v : BitVec 20) : (c.setSem n v).landed = c.landed := rfl
@[simp] theorem Ctx.setSem_cause (c : Ctx) (n : BitVec 8) (v : BitVec 20) : (c.setSem n v).cause = c.cause := rfl
@[simp] theorem Ctx.setSem_tval (c : Ctx) (n : BitVec 8) (v : BitVec 20) : (c.setSem n v).tval = c.tval := rfl
@[simp] theorem Ctx.setSem_hen (c : Ctx) (n : BitVec 8) (v : BitVec 20) : (c.setSem n v).hen = c.hen := rfl
@[simp] theorem Ctx.setSem_hent (c : Ctx) (n : BitVec 8) (v : BitVec 20) : (c.setSem n v).hent = c.hent := rfl
@[simp] theorem Ctx.setSem_flight (c : Ctx) (n : BitVec 8) (v : BitVec 20) : (c.setSem n v).flight = c.flight := rfl
@[simp] theorem Ctx.setSem_vno (c : Ctx) (n : BitVec 8) (v : BitVec 20) : (c.setSem n v).vno = c.vno := rfl
@[simp] theorem Ctx.setSem_bno (c : Ctx) (n : BitVec 8) (v : BitVec 20) : (c.setSem n v).bno = c.bno := rfl
@[simp] theorem Ctx.setSem_inb (c : Ctx) (n : BitVec 8) (v : BitVec 20) : (c.setSem n v).inb = c.inb := rfl
@[simp] theorem Ctx.setSem_outb (c : Ctx) (n : BitVec 8) (v : BitVec 20) : (c.setSem n v).outb = c.outb := rfl
@[simp] theorem Ctx.setSem_mx (c : Ctx) (n : BitVec 8) (v : BitVec 20) : (c.setSem n v).mx = c.mx := rfl
@[simp] theorem Ctx.setSem_offers (c : Ctx) (n : BitVec 8) (v : BitVec 20) : (c.setSem n v).offers = c.offers := rfl
@[simp] theorem Ctx.setSem_marks (c : Ctx) (n : BitVec 8) (v : BitVec 20) : (c.setSem n v).marks = c.marks := rfl
@[simp] theorem Ctx.setSem_wins (c : Ctx) (n : BitVec 8) (v : BitVec 20) : (c.setSem n v).wins = c.wins := rfl
@[simp] theorem Ctx.setSem_leg (c : Ctx) (n : BitVec 8) (v : BitVec 20) : (c.setSem n v).leg = c.leg := rfl
@[simp] theorem Ctx.setSem_legs (c : Ctx) (n : BitVec 8) (v : BitVec 20) : (c.setSem n v).legs = c.legs := rfl
@[simp] theorem Ctx.setSem_ended (c : Ctx) (n : BitVec 8) (v : BitVec 20) : (c.setSem n v).ended = c.ended := rfl
@[simp] theorem Ctx.setSem_pend (c : Ctx) (n : BitVec 8) (v : BitVec 20) : (c.setSem n v).pend = c.pend := rfl
@[simp] theorem Ctx.setSem_again (c : Ctx) (n : BitVec 8) (v : BitVec 20) : (c.setSem n v).again = c.again := rfl
@[simp] theorem Ctx.setSem_back (c : Ctx) (n : BitVec 8) (v : BitVec 20) : (c.setSem n v).back = c.back := rfl
@[simp] theorem Ctx.setSem_waitm (c : Ctx) (n : BitVec 8) (v : BitVec 20) : (c.setSem n v).waitm = c.waitm := rfl
@[simp] theorem Ctx.setSem_hold (c : Ctx) (n : BitVec 8) (v : BitVec 20) : (c.setSem n v).hold = c.hold := rfl
@[simp] theorem Ctx.setSem_impr (c : Ctx) (n : BitVec 8) (v : BitVec 20) : (c.setSem n v).impr = c.impr := rfl
@[simp] theorem Ctx.setSem_trap (c : Ctx) (n : BitVec 8) (v : BitVec 20) : (c.setSem n v).trap = c.trap := rfl
@[simp] theorem Ctx.setSem_listed (c : Ctx) (n : BitVec 8) (v : BitVec 20) : (c.setSem n v).listed = c.listed := rfl
@[simp] theorem Ctx.setSem_listOv (c : Ctx) (n : BitVec 8) (v : BitVec 20) : (c.setSem n v).listOv = c.listOv := rfl
@[simp] theorem Ctx.setSem_halting (c : Ctx) (n : BitVec 8) (v : BitVec 20) : (c.setSem n v).halting = c.halting := rfl
@[simp] theorem Ctx.setSem_want (c : Ctx) (n : BitVec 8) (v : BitVec 20) : (c.setSem n v).want = c.want := rfl
@[simp] theorem Ctx.setSem_leaving (c : Ctx) (n : BitVec 8) (v : BitVec 20) : (c.setSem n v).leaving = c.leaving := rfl
@[simp] theorem Ctx.setSem_abop (c : Ctx) (n : BitVec 8) (v : BitVec 20) : (c.setSem n v).abop = c.abop := rfl
@[simp] theorem Ctx.setSem_fresh (c : Ctx) (n : BitVec 8) (v : BitVec 20) : (c.setSem n v).fresh = c.fresh := rfl
@[simp] theorem Ctx.setSem_seen (c : Ctx) (n : BitVec 8) (v : BitVec 20) : (c.setSem n v).seen = c.seen := rfl
@[simp] theorem Ctx.setSem_sp (c : Ctx) (n : BitVec 8) (v : BitVec 20) : (c.setSem n v).sp = c.sp := rfl
@[simp] theorem Ctx.setSem_can (c : Ctx) (n : BitVec 8) (v : BitVec 20) : (c.setSem n v).can = c.can := rfl
@[simp] theorem Ctx.setSem_decl (c : Ctx) (n : BitVec 8) (v : BitVec 20) : (c.setSem n v).decl = c.decl := rfl
@[simp] theorem Ctx.setSem_bills (c : Ctx) (n : BitVec 8) (v : BitVec 20) : (c.setSem n v).bills = c.bills := rfl
@[simp] theorem Ctx.setSem_inv (c : Ctx) (n : BitVec 8) (v : BitVec 20) : (c.setSem n v).inv = c.inv := rfl

/-! ### Ctx.setCbit -/

@[simp] theorem Ctx.setCbit_cid (c : Ctx) (n : BitVec 4) (b : Bool) : (c.setCbit n b).cid = c.cid := rfl
@[simp] theorem Ctx.setCbit_lid (c : Ctx) (n : BitVec 4) (b : Bool) : (c.setCbit n b).lid = c.lid := rfl
@[simp] theorem Ctx.setCbit_idx (c : Ctx) (n : BitVec 4) (b : Bool) : (c.setCbit n b).idx = c.idx := rfl
@[simp] theorem Ctx.setCbit_coord (c : Ctx) (n : BitVec 4) (b : Bool) : (c.setCbit n b).coord = c.coord := rfl
@[simp] theorem Ctx.setCbit_kind (c : Ctx) (n : BitVec 4) (b : Bool) : (c.setCbit n b).kind = c.kind := rfl
@[simp] theorem Ctx.setCbit_core (c : Ctx) (n : BitVec 4) (b : Bool) : (c.setCbit n b).core = c.core := rfl
@[simp] theorem Ctx.setCbit_loc (c : Ctx) (n : BitVec 4) (b : Bool) : (c.setCbit n b).loc = c.loc := rfl
@[simp] theorem Ctx.setCbit_stat (c : Ctx) (n : BitVec 4) (b : Bool) : (c.setCbit n b).stat = c.stat := rfl
@[simp] theorem Ctx.setCbit_bars (c : Ctx) (n : BitVec 4) (b : Bool) : (c.setCbit n b).bars = c.bars := rfl
@[simp] theorem Ctx.setCbit_root (c : Ctx) (n : BitVec 4) (b : Bool) : (c.setCbit n b).root = c.root := rfl
@[simp] theorem Ctx.setCbit_plots (c : Ctx) (n : BitVec 4) (b : Bool) : (c.setCbit n b).plots = c.plots := rfl
@[simp] theorem Ctx.setCbit_noxf (c : Ctx) (n : BitVec 4) (b : Bool) : (c.setCbit n b).noxf = c.noxf := rfl
@[simp] theorem Ctx.setCbit_nocan (c : Ctx) (n : BitVec 4) (b : Bool) : (c.setCbit n b).nocan = c.nocan := rfl
@[simp] theorem Ctx.setCbit_novec (c : Ctx) (n : BitVec 4) (b : Bool) : (c.setCbit n b).novec = c.novec := rfl
@[simp] theorem Ctx.setCbit_nomx (c : Ctx) (n : BitVec 4) (b : Bool) : (c.setCbit n b).nomx = c.nomx := rfl
@[simp] theorem Ctx.setCbit_dmode (c : Ctx) (n : BitVec 4) (b : Bool) : (c.setCbit n b).dmode = c.dmode := rfl
@[simp] theorem Ctx.setCbit_size (c : Ctx) (n : BitVec 4) (b : Bool) : (c.setCbit n b).size = c.size := rfl
@[simp] theorem Ctx.setCbit_param (c : Ctx) (n : BitVec 4) (b : Bool) : (c.setCbit n b).param = c.param := rfl
@[simp] theorem Ctx.setCbit_image (c : Ctx) (n : BitVec 4) (b : Bool) : (c.setCbit n b).image = c.image := rfl
@[simp] theorem Ctx.setCbit_pimage (c : Ctx) (n : BitVec 4) (b : Bool) : (c.setCbit n b).pimage = c.pimage := rfl
@[simp] theorem Ctx.setCbit_sup (c : Ctx) (n : BitVec 4) (b : Bool) : (c.setCbit n b).sup = c.sup := rfl
@[simp] theorem Ctx.setCbit_phase (c : Ctx) (n : BitVec 4) (b : Bool) : (c.setCbit n b).phase = c.phase := rfl
@[simp] theorem Ctx.setCbit_legno (c : Ctx) (n : BitVec 4) (b : Bool) : (c.setCbit n b).legno = c.legno := rfl
@[simp] theorem Ctx.setCbit_joined (c : Ctx) (n : BitVec 4) (b : Bool) : (c.setCbit n b).joined = c.joined := rfl
@[simp] theorem Ctx.setCbit_t (c : Ctx) (n : BitVec 4) (b : Bool) : (c.setCbit n b).t = c.t := rfl
@[simp] theorem Ctx.setCbit_replay (c : Ctx) (n : BitVec 4) (b : Bool) : (c.setCbit n b).replay = c.replay := rfl
@[simp] theorem Ctx.setCbit_ctl (c : Ctx) (n : BitVec 4) (b : Bool) : (c.setCbit n b).ctl = c.ctl := rfl
@[simp] theorem Ctx.setCbit_load (c : Ctx) (n : BitVec 4) (b : Bool) : (c.setCbit n b).load = c.load := rfl
@[simp] theorem Ctx.setCbit_store (c : Ctx) (n : BitVec 4) (b : Bool) : (c.setCbit n b).store = c.store := rfl
@[simp] theorem Ctx.setCbit_comp (c : Ctx) (n : BitVec 4) (b : Bool) : (c.setCbit n b).comp = c.comp := rfl
@[simp] theorem Ctx.setCbit_sems (c : Ctx) (n : BitVec 4) (b : Bool) : (c.setCbit n b).sems = c.sems := rfl
@[simp] theorem Ctx.setCbit_semT (c : Ctx) (n : BitVec 4) (b : Bool) : (c.setCbit n b).semT = c.semT := rfl
@[simp] theorem Ctx.setCbit_semS (c : Ctx) (n : BitVec 4) (b : Bool) : (c.setCbit n b).semS = c.semS := rfl
@[simp] theorem Ctx.setCbit_cbits (c : Ctx) (n : BitVec 4) (b : Bool) : (c.setCbit n b).cbits = if b then c.cbits ||| (1#16 <<< n.toNat) else c.cbits &&& ~~~(1#16 <<< n.toNat) := rfl
@[simp] theorem Ctx.setCbit_cbitsT (c : Ctx) (n : BitVec 4) (b : Bool) : (c.setCbit n b).cbitsT = c.cbitsT := rfl
@[simp] theorem Ctx.setCbit_desc (c : Ctx) (n : BitVec 4) (b : Bool) : (c.setCbit n b).desc = c.desc := rfl
@[simp] theorem Ctx.setCbit_v (c : Ctx) (n : BitVec 4) (b : Bool) : (c.setCbit n b).v = c.v := rfl
@[simp] theorem Ctx.setCbit_m (c : Ctx) (n : BitVec 4) (b : Bool) : (c.setCbit n b).m = c.m := rfl
@[simp] theorem Ctx.setCbit_acc (c : Ctx) (n : BitVec 4) (b : Bool) : (c.setCbit n b).acc = c.acc := rfl
@[simp] theorem Ctx.setCbit_bp (c : Ctx) (n : BitVec 4) (b : Bool) : (c.setCbit n b).bp = c.bp := rfl
@[simp] theorem Ctx.setCbit_sticky (c : Ctx) (n : BitVec 4) (b : Bool) : (c.setCbit n b).sticky = c.sticky := rfl
@[simp] theorem Ctx.setCbit_late (c : Ctx) (n : BitVec 4) (b : Bool) : (c.setCbit n b).late = c.late := rfl
@[simp] theorem Ctx.setCbit_landed (c : Ctx) (n : BitVec 4) (b : Bool) : (c.setCbit n b).landed = c.landed := rfl
@[simp] theorem Ctx.setCbit_cause (c : Ctx) (n : BitVec 4) (b : Bool) : (c.setCbit n b).cause = c.cause := rfl
@[simp] theorem Ctx.setCbit_tval (c : Ctx) (n : BitVec 4) (b : Bool) : (c.setCbit n b).tval = c.tval := rfl
@[simp] theorem Ctx.setCbit_hen (c : Ctx) (n : BitVec 4) (b : Bool) : (c.setCbit n b).hen = c.hen := rfl
@[simp] theorem Ctx.setCbit_hent (c : Ctx) (n : BitVec 4) (b : Bool) : (c.setCbit n b).hent = c.hent := rfl
@[simp] theorem Ctx.setCbit_flight (c : Ctx) (n : BitVec 4) (b : Bool) : (c.setCbit n b).flight = c.flight := rfl
@[simp] theorem Ctx.setCbit_vno (c : Ctx) (n : BitVec 4) (b : Bool) : (c.setCbit n b).vno = c.vno := rfl
@[simp] theorem Ctx.setCbit_bno (c : Ctx) (n : BitVec 4) (b : Bool) : (c.setCbit n b).bno = c.bno := rfl
@[simp] theorem Ctx.setCbit_inb (c : Ctx) (n : BitVec 4) (b : Bool) : (c.setCbit n b).inb = c.inb := rfl
@[simp] theorem Ctx.setCbit_outb (c : Ctx) (n : BitVec 4) (b : Bool) : (c.setCbit n b).outb = c.outb := rfl
@[simp] theorem Ctx.setCbit_mx (c : Ctx) (n : BitVec 4) (b : Bool) : (c.setCbit n b).mx = c.mx := rfl
@[simp] theorem Ctx.setCbit_offers (c : Ctx) (n : BitVec 4) (b : Bool) : (c.setCbit n b).offers = c.offers := rfl
@[simp] theorem Ctx.setCbit_marks (c : Ctx) (n : BitVec 4) (b : Bool) : (c.setCbit n b).marks = c.marks := rfl
@[simp] theorem Ctx.setCbit_wins (c : Ctx) (n : BitVec 4) (b : Bool) : (c.setCbit n b).wins = c.wins := rfl
@[simp] theorem Ctx.setCbit_leg (c : Ctx) (n : BitVec 4) (b : Bool) : (c.setCbit n b).leg = c.leg := rfl
@[simp] theorem Ctx.setCbit_legs (c : Ctx) (n : BitVec 4) (b : Bool) : (c.setCbit n b).legs = c.legs := rfl
@[simp] theorem Ctx.setCbit_ended (c : Ctx) (n : BitVec 4) (b : Bool) : (c.setCbit n b).ended = c.ended := rfl
@[simp] theorem Ctx.setCbit_pend (c : Ctx) (n : BitVec 4) (b : Bool) : (c.setCbit n b).pend = c.pend := rfl
@[simp] theorem Ctx.setCbit_again (c : Ctx) (n : BitVec 4) (b : Bool) : (c.setCbit n b).again = c.again := rfl
@[simp] theorem Ctx.setCbit_back (c : Ctx) (n : BitVec 4) (b : Bool) : (c.setCbit n b).back = c.back := rfl
@[simp] theorem Ctx.setCbit_waitm (c : Ctx) (n : BitVec 4) (b : Bool) : (c.setCbit n b).waitm = c.waitm := rfl
@[simp] theorem Ctx.setCbit_hold (c : Ctx) (n : BitVec 4) (b : Bool) : (c.setCbit n b).hold = c.hold := rfl
@[simp] theorem Ctx.setCbit_impr (c : Ctx) (n : BitVec 4) (b : Bool) : (c.setCbit n b).impr = c.impr := rfl
@[simp] theorem Ctx.setCbit_trap (c : Ctx) (n : BitVec 4) (b : Bool) : (c.setCbit n b).trap = c.trap := rfl
@[simp] theorem Ctx.setCbit_listed (c : Ctx) (n : BitVec 4) (b : Bool) : (c.setCbit n b).listed = c.listed := rfl
@[simp] theorem Ctx.setCbit_listOv (c : Ctx) (n : BitVec 4) (b : Bool) : (c.setCbit n b).listOv = c.listOv := rfl
@[simp] theorem Ctx.setCbit_halting (c : Ctx) (n : BitVec 4) (b : Bool) : (c.setCbit n b).halting = c.halting := rfl
@[simp] theorem Ctx.setCbit_want (c : Ctx) (n : BitVec 4) (b : Bool) : (c.setCbit n b).want = c.want := rfl
@[simp] theorem Ctx.setCbit_leaving (c : Ctx) (n : BitVec 4) (b : Bool) : (c.setCbit n b).leaving = c.leaving := rfl
@[simp] theorem Ctx.setCbit_abop (c : Ctx) (n : BitVec 4) (b : Bool) : (c.setCbit n b).abop = c.abop := rfl
@[simp] theorem Ctx.setCbit_fresh (c : Ctx) (n : BitVec 4) (b : Bool) : (c.setCbit n b).fresh = c.fresh := rfl
@[simp] theorem Ctx.setCbit_seen (c : Ctx) (n : BitVec 4) (b : Bool) : (c.setCbit n b).seen = c.seen := rfl
@[simp] theorem Ctx.setCbit_sp (c : Ctx) (n : BitVec 4) (b : Bool) : (c.setCbit n b).sp = c.sp := rfl
@[simp] theorem Ctx.setCbit_can (c : Ctx) (n : BitVec 4) (b : Bool) : (c.setCbit n b).can = c.can := rfl
@[simp] theorem Ctx.setCbit_decl (c : Ctx) (n : BitVec 4) (b : Bool) : (c.setCbit n b).decl = c.decl := rfl
@[simp] theorem Ctx.setCbit_bills (c : Ctx) (n : BitVec 4) (b : Bool) : (c.setCbit n b).bills = c.bills := rfl
@[simp] theorem Ctx.setCbit_inv (c : Ctx) (n : BitVec 4) (b : Bool) : (c.setCbit n b).inv = c.inv := rfl

/-! ### Ctx.setVreg -/

@[simp] theorem Ctx.setVreg_cid (c : Ctx) (n : BitVec 5) (x : VWord) : (c.setVreg n x).cid = c.cid := rfl
@[simp] theorem Ctx.setVreg_lid (c : Ctx) (n : BitVec 5) (x : VWord) : (c.setVreg n x).lid = c.lid := rfl
@[simp] theorem Ctx.setVreg_idx (c : Ctx) (n : BitVec 5) (x : VWord) : (c.setVreg n x).idx = c.idx := rfl
@[simp] theorem Ctx.setVreg_coord (c : Ctx) (n : BitVec 5) (x : VWord) : (c.setVreg n x).coord = c.coord := rfl
@[simp] theorem Ctx.setVreg_kind (c : Ctx) (n : BitVec 5) (x : VWord) : (c.setVreg n x).kind = c.kind := rfl
@[simp] theorem Ctx.setVreg_core (c : Ctx) (n : BitVec 5) (x : VWord) : (c.setVreg n x).core = c.core := rfl
@[simp] theorem Ctx.setVreg_loc (c : Ctx) (n : BitVec 5) (x : VWord) : (c.setVreg n x).loc = c.loc := rfl
@[simp] theorem Ctx.setVreg_stat (c : Ctx) (n : BitVec 5) (x : VWord) : (c.setVreg n x).stat = c.stat := rfl
@[simp] theorem Ctx.setVreg_bars (c : Ctx) (n : BitVec 5) (x : VWord) : (c.setVreg n x).bars = c.bars := rfl
@[simp] theorem Ctx.setVreg_root (c : Ctx) (n : BitVec 5) (x : VWord) : (c.setVreg n x).root = c.root := rfl
@[simp] theorem Ctx.setVreg_plots (c : Ctx) (n : BitVec 5) (x : VWord) : (c.setVreg n x).plots = c.plots := rfl
@[simp] theorem Ctx.setVreg_noxf (c : Ctx) (n : BitVec 5) (x : VWord) : (c.setVreg n x).noxf = c.noxf := rfl
@[simp] theorem Ctx.setVreg_nocan (c : Ctx) (n : BitVec 5) (x : VWord) : (c.setVreg n x).nocan = c.nocan := rfl
@[simp] theorem Ctx.setVreg_novec (c : Ctx) (n : BitVec 5) (x : VWord) : (c.setVreg n x).novec = c.novec := rfl
@[simp] theorem Ctx.setVreg_nomx (c : Ctx) (n : BitVec 5) (x : VWord) : (c.setVreg n x).nomx = c.nomx := rfl
@[simp] theorem Ctx.setVreg_dmode (c : Ctx) (n : BitVec 5) (x : VWord) : (c.setVreg n x).dmode = c.dmode := rfl
@[simp] theorem Ctx.setVreg_size (c : Ctx) (n : BitVec 5) (x : VWord) : (c.setVreg n x).size = c.size := rfl
@[simp] theorem Ctx.setVreg_param (c : Ctx) (n : BitVec 5) (x : VWord) : (c.setVreg n x).param = c.param := rfl
@[simp] theorem Ctx.setVreg_image (c : Ctx) (n : BitVec 5) (x : VWord) : (c.setVreg n x).image = c.image := rfl
@[simp] theorem Ctx.setVreg_pimage (c : Ctx) (n : BitVec 5) (x : VWord) : (c.setVreg n x).pimage = c.pimage := rfl
@[simp] theorem Ctx.setVreg_sup (c : Ctx) (n : BitVec 5) (x : VWord) : (c.setVreg n x).sup = c.sup := rfl
@[simp] theorem Ctx.setVreg_phase (c : Ctx) (n : BitVec 5) (x : VWord) : (c.setVreg n x).phase = c.phase := rfl
@[simp] theorem Ctx.setVreg_legno (c : Ctx) (n : BitVec 5) (x : VWord) : (c.setVreg n x).legno = c.legno := rfl
@[simp] theorem Ctx.setVreg_joined (c : Ctx) (n : BitVec 5) (x : VWord) : (c.setVreg n x).joined = c.joined := rfl
@[simp] theorem Ctx.setVreg_t (c : Ctx) (n : BitVec 5) (x : VWord) : (c.setVreg n x).t = c.t := rfl
@[simp] theorem Ctx.setVreg_replay (c : Ctx) (n : BitVec 5) (x : VWord) : (c.setVreg n x).replay = c.replay := rfl
@[simp] theorem Ctx.setVreg_ctl (c : Ctx) (n : BitVec 5) (x : VWord) : (c.setVreg n x).ctl = c.ctl := rfl
@[simp] theorem Ctx.setVreg_load (c : Ctx) (n : BitVec 5) (x : VWord) : (c.setVreg n x).load = c.load := rfl
@[simp] theorem Ctx.setVreg_store (c : Ctx) (n : BitVec 5) (x : VWord) : (c.setVreg n x).store = c.store := rfl
@[simp] theorem Ctx.setVreg_comp (c : Ctx) (n : BitVec 5) (x : VWord) : (c.setVreg n x).comp = c.comp := rfl
@[simp] theorem Ctx.setVreg_sems (c : Ctx) (n : BitVec 5) (x : VWord) : (c.setVreg n x).sems = c.sems := rfl
@[simp] theorem Ctx.setVreg_semT (c : Ctx) (n : BitVec 5) (x : VWord) : (c.setVreg n x).semT = c.semT := rfl
@[simp] theorem Ctx.setVreg_semS (c : Ctx) (n : BitVec 5) (x : VWord) : (c.setVreg n x).semS = c.semS := rfl
@[simp] theorem Ctx.setVreg_cbits (c : Ctx) (n : BitVec 5) (x : VWord) : (c.setVreg n x).cbits = c.cbits := rfl
@[simp] theorem Ctx.setVreg_cbitsT (c : Ctx) (n : BitVec 5) (x : VWord) : (c.setVreg n x).cbitsT = c.cbitsT := rfl
@[simp] theorem Ctx.setVreg_desc (c : Ctx) (n : BitVec 5) (x : VWord) : (c.setVreg n x).desc = c.desc := rfl
@[simp] theorem Ctx.setVreg_v (c : Ctx) (n : BitVec 5) (x : VWord) : (c.setVreg n x).v = c.v.put 0 n.toNat x := rfl
@[simp] theorem Ctx.setVreg_m (c : Ctx) (n : BitVec 5) (x : VWord) : (c.setVreg n x).m = c.m := rfl
@[simp] theorem Ctx.setVreg_acc (c : Ctx) (n : BitVec 5) (x : VWord) : (c.setVreg n x).acc = c.acc := rfl
@[simp] theorem Ctx.setVreg_bp (c : Ctx) (n : BitVec 5) (x : VWord) : (c.setVreg n x).bp = c.bp := rfl
@[simp] theorem Ctx.setVreg_sticky (c : Ctx) (n : BitVec 5) (x : VWord) : (c.setVreg n x).sticky = c.sticky := rfl
@[simp] theorem Ctx.setVreg_late (c : Ctx) (n : BitVec 5) (x : VWord) : (c.setVreg n x).late = c.late := rfl
@[simp] theorem Ctx.setVreg_landed (c : Ctx) (n : BitVec 5) (x : VWord) : (c.setVreg n x).landed = c.landed := rfl
@[simp] theorem Ctx.setVreg_cause (c : Ctx) (n : BitVec 5) (x : VWord) : (c.setVreg n x).cause = c.cause := rfl
@[simp] theorem Ctx.setVreg_tval (c : Ctx) (n : BitVec 5) (x : VWord) : (c.setVreg n x).tval = c.tval := rfl
@[simp] theorem Ctx.setVreg_hen (c : Ctx) (n : BitVec 5) (x : VWord) : (c.setVreg n x).hen = c.hen := rfl
@[simp] theorem Ctx.setVreg_hent (c : Ctx) (n : BitVec 5) (x : VWord) : (c.setVreg n x).hent = c.hent := rfl
@[simp] theorem Ctx.setVreg_flight (c : Ctx) (n : BitVec 5) (x : VWord) : (c.setVreg n x).flight = c.flight := rfl
@[simp] theorem Ctx.setVreg_vno (c : Ctx) (n : BitVec 5) (x : VWord) : (c.setVreg n x).vno = c.vno := rfl
@[simp] theorem Ctx.setVreg_bno (c : Ctx) (n : BitVec 5) (x : VWord) : (c.setVreg n x).bno = c.bno := rfl
@[simp] theorem Ctx.setVreg_inb (c : Ctx) (n : BitVec 5) (x : VWord) : (c.setVreg n x).inb = c.inb := rfl
@[simp] theorem Ctx.setVreg_outb (c : Ctx) (n : BitVec 5) (x : VWord) : (c.setVreg n x).outb = c.outb := rfl
@[simp] theorem Ctx.setVreg_mx (c : Ctx) (n : BitVec 5) (x : VWord) : (c.setVreg n x).mx = c.mx := rfl
@[simp] theorem Ctx.setVreg_offers (c : Ctx) (n : BitVec 5) (x : VWord) : (c.setVreg n x).offers = c.offers := rfl
@[simp] theorem Ctx.setVreg_marks (c : Ctx) (n : BitVec 5) (x : VWord) : (c.setVreg n x).marks = c.marks := rfl
@[simp] theorem Ctx.setVreg_wins (c : Ctx) (n : BitVec 5) (x : VWord) : (c.setVreg n x).wins = c.wins := rfl
@[simp] theorem Ctx.setVreg_leg (c : Ctx) (n : BitVec 5) (x : VWord) : (c.setVreg n x).leg = c.leg := rfl
@[simp] theorem Ctx.setVreg_legs (c : Ctx) (n : BitVec 5) (x : VWord) : (c.setVreg n x).legs = c.legs := rfl
@[simp] theorem Ctx.setVreg_ended (c : Ctx) (n : BitVec 5) (x : VWord) : (c.setVreg n x).ended = c.ended := rfl
@[simp] theorem Ctx.setVreg_pend (c : Ctx) (n : BitVec 5) (x : VWord) : (c.setVreg n x).pend = c.pend := rfl
@[simp] theorem Ctx.setVreg_again (c : Ctx) (n : BitVec 5) (x : VWord) : (c.setVreg n x).again = c.again := rfl
@[simp] theorem Ctx.setVreg_back (c : Ctx) (n : BitVec 5) (x : VWord) : (c.setVreg n x).back = c.back := rfl
@[simp] theorem Ctx.setVreg_waitm (c : Ctx) (n : BitVec 5) (x : VWord) : (c.setVreg n x).waitm = c.waitm := rfl
@[simp] theorem Ctx.setVreg_hold (c : Ctx) (n : BitVec 5) (x : VWord) : (c.setVreg n x).hold = c.hold := rfl
@[simp] theorem Ctx.setVreg_impr (c : Ctx) (n : BitVec 5) (x : VWord) : (c.setVreg n x).impr = c.impr := rfl
@[simp] theorem Ctx.setVreg_trap (c : Ctx) (n : BitVec 5) (x : VWord) : (c.setVreg n x).trap = c.trap := rfl
@[simp] theorem Ctx.setVreg_listed (c : Ctx) (n : BitVec 5) (x : VWord) : (c.setVreg n x).listed = c.listed := rfl
@[simp] theorem Ctx.setVreg_listOv (c : Ctx) (n : BitVec 5) (x : VWord) : (c.setVreg n x).listOv = c.listOv := rfl
@[simp] theorem Ctx.setVreg_halting (c : Ctx) (n : BitVec 5) (x : VWord) : (c.setVreg n x).halting = c.halting := rfl
@[simp] theorem Ctx.setVreg_want (c : Ctx) (n : BitVec 5) (x : VWord) : (c.setVreg n x).want = c.want := rfl
@[simp] theorem Ctx.setVreg_leaving (c : Ctx) (n : BitVec 5) (x : VWord) : (c.setVreg n x).leaving = c.leaving := rfl
@[simp] theorem Ctx.setVreg_abop (c : Ctx) (n : BitVec 5) (x : VWord) : (c.setVreg n x).abop = c.abop := rfl
@[simp] theorem Ctx.setVreg_fresh (c : Ctx) (n : BitVec 5) (x : VWord) : (c.setVreg n x).fresh = c.fresh := rfl
@[simp] theorem Ctx.setVreg_seen (c : Ctx) (n : BitVec 5) (x : VWord) : (c.setVreg n x).seen = c.seen := rfl
@[simp] theorem Ctx.setVreg_sp (c : Ctx) (n : BitVec 5) (x : VWord) : (c.setVreg n x).sp = c.sp := rfl
@[simp] theorem Ctx.setVreg_can (c : Ctx) (n : BitVec 5) (x : VWord) : (c.setVreg n x).can = c.can := rfl
@[simp] theorem Ctx.setVreg_decl (c : Ctx) (n : BitVec 5) (x : VWord) : (c.setVreg n x).decl = c.decl := rfl
@[simp] theorem Ctx.setVreg_bills (c : Ctx) (n : BitVec 5) (x : VWord) : (c.setVreg n x).bills = c.bills := rfl
@[simp] theorem Ctx.setVreg_inv (c : Ctx) (n : BitVec 5) (x : VWord) : (c.setVreg n x).inv = c.inv := rfl

/-! ### Ctx.setMreg -/

@[simp] theorem Ctx.setMreg_cid (c : Ctx) (n : BitVec 3) (x : BitVec 64) : (c.setMreg n x).cid = c.cid := rfl
@[simp] theorem Ctx.setMreg_lid (c : Ctx) (n : BitVec 3) (x : BitVec 64) : (c.setMreg n x).lid = c.lid := rfl
@[simp] theorem Ctx.setMreg_idx (c : Ctx) (n : BitVec 3) (x : BitVec 64) : (c.setMreg n x).idx = c.idx := rfl
@[simp] theorem Ctx.setMreg_coord (c : Ctx) (n : BitVec 3) (x : BitVec 64) : (c.setMreg n x).coord = c.coord := rfl
@[simp] theorem Ctx.setMreg_kind (c : Ctx) (n : BitVec 3) (x : BitVec 64) : (c.setMreg n x).kind = c.kind := rfl
@[simp] theorem Ctx.setMreg_core (c : Ctx) (n : BitVec 3) (x : BitVec 64) : (c.setMreg n x).core = c.core := rfl
@[simp] theorem Ctx.setMreg_loc (c : Ctx) (n : BitVec 3) (x : BitVec 64) : (c.setMreg n x).loc = c.loc := rfl
@[simp] theorem Ctx.setMreg_stat (c : Ctx) (n : BitVec 3) (x : BitVec 64) : (c.setMreg n x).stat = c.stat := rfl
@[simp] theorem Ctx.setMreg_bars (c : Ctx) (n : BitVec 3) (x : BitVec 64) : (c.setMreg n x).bars = c.bars := rfl
@[simp] theorem Ctx.setMreg_root (c : Ctx) (n : BitVec 3) (x : BitVec 64) : (c.setMreg n x).root = c.root := rfl
@[simp] theorem Ctx.setMreg_plots (c : Ctx) (n : BitVec 3) (x : BitVec 64) : (c.setMreg n x).plots = c.plots := rfl
@[simp] theorem Ctx.setMreg_noxf (c : Ctx) (n : BitVec 3) (x : BitVec 64) : (c.setMreg n x).noxf = c.noxf := rfl
@[simp] theorem Ctx.setMreg_nocan (c : Ctx) (n : BitVec 3) (x : BitVec 64) : (c.setMreg n x).nocan = c.nocan := rfl
@[simp] theorem Ctx.setMreg_novec (c : Ctx) (n : BitVec 3) (x : BitVec 64) : (c.setMreg n x).novec = c.novec := rfl
@[simp] theorem Ctx.setMreg_nomx (c : Ctx) (n : BitVec 3) (x : BitVec 64) : (c.setMreg n x).nomx = c.nomx := rfl
@[simp] theorem Ctx.setMreg_dmode (c : Ctx) (n : BitVec 3) (x : BitVec 64) : (c.setMreg n x).dmode = c.dmode := rfl
@[simp] theorem Ctx.setMreg_size (c : Ctx) (n : BitVec 3) (x : BitVec 64) : (c.setMreg n x).size = c.size := rfl
@[simp] theorem Ctx.setMreg_param (c : Ctx) (n : BitVec 3) (x : BitVec 64) : (c.setMreg n x).param = c.param := rfl
@[simp] theorem Ctx.setMreg_image (c : Ctx) (n : BitVec 3) (x : BitVec 64) : (c.setMreg n x).image = c.image := rfl
@[simp] theorem Ctx.setMreg_pimage (c : Ctx) (n : BitVec 3) (x : BitVec 64) : (c.setMreg n x).pimage = c.pimage := rfl
@[simp] theorem Ctx.setMreg_sup (c : Ctx) (n : BitVec 3) (x : BitVec 64) : (c.setMreg n x).sup = c.sup := rfl
@[simp] theorem Ctx.setMreg_phase (c : Ctx) (n : BitVec 3) (x : BitVec 64) : (c.setMreg n x).phase = c.phase := rfl
@[simp] theorem Ctx.setMreg_legno (c : Ctx) (n : BitVec 3) (x : BitVec 64) : (c.setMreg n x).legno = c.legno := rfl
@[simp] theorem Ctx.setMreg_joined (c : Ctx) (n : BitVec 3) (x : BitVec 64) : (c.setMreg n x).joined = c.joined := rfl
@[simp] theorem Ctx.setMreg_t (c : Ctx) (n : BitVec 3) (x : BitVec 64) : (c.setMreg n x).t = c.t := rfl
@[simp] theorem Ctx.setMreg_replay (c : Ctx) (n : BitVec 3) (x : BitVec 64) : (c.setMreg n x).replay = c.replay := rfl
@[simp] theorem Ctx.setMreg_ctl (c : Ctx) (n : BitVec 3) (x : BitVec 64) : (c.setMreg n x).ctl = c.ctl := rfl
@[simp] theorem Ctx.setMreg_load (c : Ctx) (n : BitVec 3) (x : BitVec 64) : (c.setMreg n x).load = c.load := rfl
@[simp] theorem Ctx.setMreg_store (c : Ctx) (n : BitVec 3) (x : BitVec 64) : (c.setMreg n x).store = c.store := rfl
@[simp] theorem Ctx.setMreg_comp (c : Ctx) (n : BitVec 3) (x : BitVec 64) : (c.setMreg n x).comp = c.comp := rfl
@[simp] theorem Ctx.setMreg_sems (c : Ctx) (n : BitVec 3) (x : BitVec 64) : (c.setMreg n x).sems = c.sems := rfl
@[simp] theorem Ctx.setMreg_semT (c : Ctx) (n : BitVec 3) (x : BitVec 64) : (c.setMreg n x).semT = c.semT := rfl
@[simp] theorem Ctx.setMreg_semS (c : Ctx) (n : BitVec 3) (x : BitVec 64) : (c.setMreg n x).semS = c.semS := rfl
@[simp] theorem Ctx.setMreg_cbits (c : Ctx) (n : BitVec 3) (x : BitVec 64) : (c.setMreg n x).cbits = c.cbits := rfl
@[simp] theorem Ctx.setMreg_cbitsT (c : Ctx) (n : BitVec 3) (x : BitVec 64) : (c.setMreg n x).cbitsT = c.cbitsT := rfl
@[simp] theorem Ctx.setMreg_desc (c : Ctx) (n : BitVec 3) (x : BitVec 64) : (c.setMreg n x).desc = c.desc := rfl
@[simp] theorem Ctx.setMreg_v (c : Ctx) (n : BitVec 3) (x : BitVec 64) : (c.setMreg n x).v = c.v := rfl
@[simp] theorem Ctx.setMreg_m (c : Ctx) (n : BitVec 3) (x : BitVec 64) : (c.setMreg n x).m = c.m.put onesMask n.toNat x := rfl
@[simp] theorem Ctx.setMreg_acc (c : Ctx) (n : BitVec 3) (x : BitVec 64) : (c.setMreg n x).acc = c.acc := rfl
@[simp] theorem Ctx.setMreg_bp (c : Ctx) (n : BitVec 3) (x : BitVec 64) : (c.setMreg n x).bp = c.bp := rfl
@[simp] theorem Ctx.setMreg_sticky (c : Ctx) (n : BitVec 3) (x : BitVec 64) : (c.setMreg n x).sticky = c.sticky := rfl
@[simp] theorem Ctx.setMreg_late (c : Ctx) (n : BitVec 3) (x : BitVec 64) : (c.setMreg n x).late = c.late := rfl
@[simp] theorem Ctx.setMreg_landed (c : Ctx) (n : BitVec 3) (x : BitVec 64) : (c.setMreg n x).landed = c.landed := rfl
@[simp] theorem Ctx.setMreg_cause (c : Ctx) (n : BitVec 3) (x : BitVec 64) : (c.setMreg n x).cause = c.cause := rfl
@[simp] theorem Ctx.setMreg_tval (c : Ctx) (n : BitVec 3) (x : BitVec 64) : (c.setMreg n x).tval = c.tval := rfl
@[simp] theorem Ctx.setMreg_hen (c : Ctx) (n : BitVec 3) (x : BitVec 64) : (c.setMreg n x).hen = c.hen := rfl
@[simp] theorem Ctx.setMreg_hent (c : Ctx) (n : BitVec 3) (x : BitVec 64) : (c.setMreg n x).hent = c.hent := rfl
@[simp] theorem Ctx.setMreg_flight (c : Ctx) (n : BitVec 3) (x : BitVec 64) : (c.setMreg n x).flight = c.flight := rfl
@[simp] theorem Ctx.setMreg_vno (c : Ctx) (n : BitVec 3) (x : BitVec 64) : (c.setMreg n x).vno = c.vno := rfl
@[simp] theorem Ctx.setMreg_bno (c : Ctx) (n : BitVec 3) (x : BitVec 64) : (c.setMreg n x).bno = c.bno := rfl
@[simp] theorem Ctx.setMreg_inb (c : Ctx) (n : BitVec 3) (x : BitVec 64) : (c.setMreg n x).inb = c.inb := rfl
@[simp] theorem Ctx.setMreg_outb (c : Ctx) (n : BitVec 3) (x : BitVec 64) : (c.setMreg n x).outb = c.outb := rfl
@[simp] theorem Ctx.setMreg_mx (c : Ctx) (n : BitVec 3) (x : BitVec 64) : (c.setMreg n x).mx = c.mx := rfl
@[simp] theorem Ctx.setMreg_offers (c : Ctx) (n : BitVec 3) (x : BitVec 64) : (c.setMreg n x).offers = c.offers := rfl
@[simp] theorem Ctx.setMreg_marks (c : Ctx) (n : BitVec 3) (x : BitVec 64) : (c.setMreg n x).marks = c.marks := rfl
@[simp] theorem Ctx.setMreg_wins (c : Ctx) (n : BitVec 3) (x : BitVec 64) : (c.setMreg n x).wins = c.wins := rfl
@[simp] theorem Ctx.setMreg_leg (c : Ctx) (n : BitVec 3) (x : BitVec 64) : (c.setMreg n x).leg = c.leg := rfl
@[simp] theorem Ctx.setMreg_legs (c : Ctx) (n : BitVec 3) (x : BitVec 64) : (c.setMreg n x).legs = c.legs := rfl
@[simp] theorem Ctx.setMreg_ended (c : Ctx) (n : BitVec 3) (x : BitVec 64) : (c.setMreg n x).ended = c.ended := rfl
@[simp] theorem Ctx.setMreg_pend (c : Ctx) (n : BitVec 3) (x : BitVec 64) : (c.setMreg n x).pend = c.pend := rfl
@[simp] theorem Ctx.setMreg_again (c : Ctx) (n : BitVec 3) (x : BitVec 64) : (c.setMreg n x).again = c.again := rfl
@[simp] theorem Ctx.setMreg_back (c : Ctx) (n : BitVec 3) (x : BitVec 64) : (c.setMreg n x).back = c.back := rfl
@[simp] theorem Ctx.setMreg_waitm (c : Ctx) (n : BitVec 3) (x : BitVec 64) : (c.setMreg n x).waitm = c.waitm := rfl
@[simp] theorem Ctx.setMreg_hold (c : Ctx) (n : BitVec 3) (x : BitVec 64) : (c.setMreg n x).hold = c.hold := rfl
@[simp] theorem Ctx.setMreg_impr (c : Ctx) (n : BitVec 3) (x : BitVec 64) : (c.setMreg n x).impr = c.impr := rfl
@[simp] theorem Ctx.setMreg_trap (c : Ctx) (n : BitVec 3) (x : BitVec 64) : (c.setMreg n x).trap = c.trap := rfl
@[simp] theorem Ctx.setMreg_listed (c : Ctx) (n : BitVec 3) (x : BitVec 64) : (c.setMreg n x).listed = c.listed := rfl
@[simp] theorem Ctx.setMreg_listOv (c : Ctx) (n : BitVec 3) (x : BitVec 64) : (c.setMreg n x).listOv = c.listOv := rfl
@[simp] theorem Ctx.setMreg_halting (c : Ctx) (n : BitVec 3) (x : BitVec 64) : (c.setMreg n x).halting = c.halting := rfl
@[simp] theorem Ctx.setMreg_want (c : Ctx) (n : BitVec 3) (x : BitVec 64) : (c.setMreg n x).want = c.want := rfl
@[simp] theorem Ctx.setMreg_leaving (c : Ctx) (n : BitVec 3) (x : BitVec 64) : (c.setMreg n x).leaving = c.leaving := rfl
@[simp] theorem Ctx.setMreg_abop (c : Ctx) (n : BitVec 3) (x : BitVec 64) : (c.setMreg n x).abop = c.abop := rfl
@[simp] theorem Ctx.setMreg_fresh (c : Ctx) (n : BitVec 3) (x : BitVec 64) : (c.setMreg n x).fresh = c.fresh := rfl
@[simp] theorem Ctx.setMreg_seen (c : Ctx) (n : BitVec 3) (x : BitVec 64) : (c.setMreg n x).seen = c.seen := rfl
@[simp] theorem Ctx.setMreg_sp (c : Ctx) (n : BitVec 3) (x : BitVec 64) : (c.setMreg n x).sp = c.sp := rfl
@[simp] theorem Ctx.setMreg_can (c : Ctx) (n : BitVec 3) (x : BitVec 64) : (c.setMreg n x).can = c.can := rfl
@[simp] theorem Ctx.setMreg_decl (c : Ctx) (n : BitVec 3) (x : BitVec 64) : (c.setMreg n x).decl = c.decl := rfl
@[simp] theorem Ctx.setMreg_bills (c : Ctx) (n : BitVec 3) (x : BitVec 64) : (c.setMreg n x).bills = c.bills := rfl
@[simp] theorem Ctx.setMreg_inv (c : Ctx) (n : BitVec 3) (x : BitVec 64) : (c.setMreg n x).inv = c.inv := rfl

/-! ### Ctx.setDescr -/

@[simp] theorem Ctx.setDescr_cid (c : Ctx) (n : BitVec 6) (x : BitVec 256) : (c.setDescr n x).cid = c.cid := rfl
@[simp] theorem Ctx.setDescr_lid (c : Ctx) (n : BitVec 6) (x : BitVec 256) : (c.setDescr n x).lid = c.lid := rfl
@[simp] theorem Ctx.setDescr_idx (c : Ctx) (n : BitVec 6) (x : BitVec 256) : (c.setDescr n x).idx = c.idx := rfl
@[simp] theorem Ctx.setDescr_coord (c : Ctx) (n : BitVec 6) (x : BitVec 256) : (c.setDescr n x).coord = c.coord := rfl
@[simp] theorem Ctx.setDescr_kind (c : Ctx) (n : BitVec 6) (x : BitVec 256) : (c.setDescr n x).kind = c.kind := rfl
@[simp] theorem Ctx.setDescr_core (c : Ctx) (n : BitVec 6) (x : BitVec 256) : (c.setDescr n x).core = c.core := rfl
@[simp] theorem Ctx.setDescr_loc (c : Ctx) (n : BitVec 6) (x : BitVec 256) : (c.setDescr n x).loc = c.loc := rfl
@[simp] theorem Ctx.setDescr_stat (c : Ctx) (n : BitVec 6) (x : BitVec 256) : (c.setDescr n x).stat = c.stat := rfl
@[simp] theorem Ctx.setDescr_bars (c : Ctx) (n : BitVec 6) (x : BitVec 256) : (c.setDescr n x).bars = c.bars := rfl
@[simp] theorem Ctx.setDescr_root (c : Ctx) (n : BitVec 6) (x : BitVec 256) : (c.setDescr n x).root = c.root := rfl
@[simp] theorem Ctx.setDescr_plots (c : Ctx) (n : BitVec 6) (x : BitVec 256) : (c.setDescr n x).plots = c.plots := rfl
@[simp] theorem Ctx.setDescr_noxf (c : Ctx) (n : BitVec 6) (x : BitVec 256) : (c.setDescr n x).noxf = c.noxf := rfl
@[simp] theorem Ctx.setDescr_nocan (c : Ctx) (n : BitVec 6) (x : BitVec 256) : (c.setDescr n x).nocan = c.nocan := rfl
@[simp] theorem Ctx.setDescr_novec (c : Ctx) (n : BitVec 6) (x : BitVec 256) : (c.setDescr n x).novec = c.novec := rfl
@[simp] theorem Ctx.setDescr_nomx (c : Ctx) (n : BitVec 6) (x : BitVec 256) : (c.setDescr n x).nomx = c.nomx := rfl
@[simp] theorem Ctx.setDescr_dmode (c : Ctx) (n : BitVec 6) (x : BitVec 256) : (c.setDescr n x).dmode = c.dmode := rfl
@[simp] theorem Ctx.setDescr_size (c : Ctx) (n : BitVec 6) (x : BitVec 256) : (c.setDescr n x).size = c.size := rfl
@[simp] theorem Ctx.setDescr_param (c : Ctx) (n : BitVec 6) (x : BitVec 256) : (c.setDescr n x).param = c.param := rfl
@[simp] theorem Ctx.setDescr_image (c : Ctx) (n : BitVec 6) (x : BitVec 256) : (c.setDescr n x).image = c.image := rfl
@[simp] theorem Ctx.setDescr_pimage (c : Ctx) (n : BitVec 6) (x : BitVec 256) : (c.setDescr n x).pimage = c.pimage := rfl
@[simp] theorem Ctx.setDescr_sup (c : Ctx) (n : BitVec 6) (x : BitVec 256) : (c.setDescr n x).sup = c.sup := rfl
@[simp] theorem Ctx.setDescr_phase (c : Ctx) (n : BitVec 6) (x : BitVec 256) : (c.setDescr n x).phase = c.phase := rfl
@[simp] theorem Ctx.setDescr_legno (c : Ctx) (n : BitVec 6) (x : BitVec 256) : (c.setDescr n x).legno = c.legno := rfl
@[simp] theorem Ctx.setDescr_joined (c : Ctx) (n : BitVec 6) (x : BitVec 256) : (c.setDescr n x).joined = c.joined := rfl
@[simp] theorem Ctx.setDescr_t (c : Ctx) (n : BitVec 6) (x : BitVec 256) : (c.setDescr n x).t = c.t := rfl
@[simp] theorem Ctx.setDescr_replay (c : Ctx) (n : BitVec 6) (x : BitVec 256) : (c.setDescr n x).replay = c.replay := rfl
@[simp] theorem Ctx.setDescr_ctl (c : Ctx) (n : BitVec 6) (x : BitVec 256) : (c.setDescr n x).ctl = c.ctl := rfl
@[simp] theorem Ctx.setDescr_load (c : Ctx) (n : BitVec 6) (x : BitVec 256) : (c.setDescr n x).load = c.load := rfl
@[simp] theorem Ctx.setDescr_store (c : Ctx) (n : BitVec 6) (x : BitVec 256) : (c.setDescr n x).store = c.store := rfl
@[simp] theorem Ctx.setDescr_comp (c : Ctx) (n : BitVec 6) (x : BitVec 256) : (c.setDescr n x).comp = c.comp := rfl
@[simp] theorem Ctx.setDescr_sems (c : Ctx) (n : BitVec 6) (x : BitVec 256) : (c.setDescr n x).sems = c.sems := rfl
@[simp] theorem Ctx.setDescr_semT (c : Ctx) (n : BitVec 6) (x : BitVec 256) : (c.setDescr n x).semT = c.semT := rfl
@[simp] theorem Ctx.setDescr_semS (c : Ctx) (n : BitVec 6) (x : BitVec 256) : (c.setDescr n x).semS = c.semS := rfl
@[simp] theorem Ctx.setDescr_cbits (c : Ctx) (n : BitVec 6) (x : BitVec 256) : (c.setDescr n x).cbits = c.cbits := rfl
@[simp] theorem Ctx.setDescr_cbitsT (c : Ctx) (n : BitVec 6) (x : BitVec 256) : (c.setDescr n x).cbitsT = c.cbitsT := rfl
@[simp] theorem Ctx.setDescr_desc (c : Ctx) (n : BitVec 6) (x : BitVec 256) : (c.setDescr n x).desc = c.desc.put 0 n.toNat x := rfl
@[simp] theorem Ctx.setDescr_v (c : Ctx) (n : BitVec 6) (x : BitVec 256) : (c.setDescr n x).v = c.v := rfl
@[simp] theorem Ctx.setDescr_m (c : Ctx) (n : BitVec 6) (x : BitVec 256) : (c.setDescr n x).m = c.m := rfl
@[simp] theorem Ctx.setDescr_acc (c : Ctx) (n : BitVec 6) (x : BitVec 256) : (c.setDescr n x).acc = c.acc := rfl
@[simp] theorem Ctx.setDescr_bp (c : Ctx) (n : BitVec 6) (x : BitVec 256) : (c.setDescr n x).bp = c.bp := rfl
@[simp] theorem Ctx.setDescr_sticky (c : Ctx) (n : BitVec 6) (x : BitVec 256) : (c.setDescr n x).sticky = c.sticky := rfl
@[simp] theorem Ctx.setDescr_late (c : Ctx) (n : BitVec 6) (x : BitVec 256) : (c.setDescr n x).late = c.late := rfl
@[simp] theorem Ctx.setDescr_landed (c : Ctx) (n : BitVec 6) (x : BitVec 256) : (c.setDescr n x).landed = c.landed := rfl
@[simp] theorem Ctx.setDescr_cause (c : Ctx) (n : BitVec 6) (x : BitVec 256) : (c.setDescr n x).cause = c.cause := rfl
@[simp] theorem Ctx.setDescr_tval (c : Ctx) (n : BitVec 6) (x : BitVec 256) : (c.setDescr n x).tval = c.tval := rfl
@[simp] theorem Ctx.setDescr_hen (c : Ctx) (n : BitVec 6) (x : BitVec 256) : (c.setDescr n x).hen = c.hen := rfl
@[simp] theorem Ctx.setDescr_hent (c : Ctx) (n : BitVec 6) (x : BitVec 256) : (c.setDescr n x).hent = c.hent := rfl
@[simp] theorem Ctx.setDescr_flight (c : Ctx) (n : BitVec 6) (x : BitVec 256) : (c.setDescr n x).flight = c.flight := rfl
@[simp] theorem Ctx.setDescr_vno (c : Ctx) (n : BitVec 6) (x : BitVec 256) : (c.setDescr n x).vno = c.vno := rfl
@[simp] theorem Ctx.setDescr_bno (c : Ctx) (n : BitVec 6) (x : BitVec 256) : (c.setDescr n x).bno = c.bno := rfl
@[simp] theorem Ctx.setDescr_inb (c : Ctx) (n : BitVec 6) (x : BitVec 256) : (c.setDescr n x).inb = c.inb := rfl
@[simp] theorem Ctx.setDescr_outb (c : Ctx) (n : BitVec 6) (x : BitVec 256) : (c.setDescr n x).outb = c.outb := rfl
@[simp] theorem Ctx.setDescr_mx (c : Ctx) (n : BitVec 6) (x : BitVec 256) : (c.setDescr n x).mx = c.mx := rfl
@[simp] theorem Ctx.setDescr_offers (c : Ctx) (n : BitVec 6) (x : BitVec 256) : (c.setDescr n x).offers = c.offers := rfl
@[simp] theorem Ctx.setDescr_marks (c : Ctx) (n : BitVec 6) (x : BitVec 256) : (c.setDescr n x).marks = c.marks := rfl
@[simp] theorem Ctx.setDescr_wins (c : Ctx) (n : BitVec 6) (x : BitVec 256) : (c.setDescr n x).wins = c.wins := rfl
@[simp] theorem Ctx.setDescr_leg (c : Ctx) (n : BitVec 6) (x : BitVec 256) : (c.setDescr n x).leg = c.leg := rfl
@[simp] theorem Ctx.setDescr_legs (c : Ctx) (n : BitVec 6) (x : BitVec 256) : (c.setDescr n x).legs = c.legs := rfl
@[simp] theorem Ctx.setDescr_ended (c : Ctx) (n : BitVec 6) (x : BitVec 256) : (c.setDescr n x).ended = c.ended := rfl
@[simp] theorem Ctx.setDescr_pend (c : Ctx) (n : BitVec 6) (x : BitVec 256) : (c.setDescr n x).pend = c.pend := rfl
@[simp] theorem Ctx.setDescr_again (c : Ctx) (n : BitVec 6) (x : BitVec 256) : (c.setDescr n x).again = c.again := rfl
@[simp] theorem Ctx.setDescr_back (c : Ctx) (n : BitVec 6) (x : BitVec 256) : (c.setDescr n x).back = c.back := rfl
@[simp] theorem Ctx.setDescr_waitm (c : Ctx) (n : BitVec 6) (x : BitVec 256) : (c.setDescr n x).waitm = c.waitm := rfl
@[simp] theorem Ctx.setDescr_hold (c : Ctx) (n : BitVec 6) (x : BitVec 256) : (c.setDescr n x).hold = c.hold := rfl
@[simp] theorem Ctx.setDescr_impr (c : Ctx) (n : BitVec 6) (x : BitVec 256) : (c.setDescr n x).impr = c.impr := rfl
@[simp] theorem Ctx.setDescr_trap (c : Ctx) (n : BitVec 6) (x : BitVec 256) : (c.setDescr n x).trap = c.trap := rfl
@[simp] theorem Ctx.setDescr_listed (c : Ctx) (n : BitVec 6) (x : BitVec 256) : (c.setDescr n x).listed = c.listed := rfl
@[simp] theorem Ctx.setDescr_listOv (c : Ctx) (n : BitVec 6) (x : BitVec 256) : (c.setDescr n x).listOv = c.listOv := rfl
@[simp] theorem Ctx.setDescr_halting (c : Ctx) (n : BitVec 6) (x : BitVec 256) : (c.setDescr n x).halting = c.halting := rfl
@[simp] theorem Ctx.setDescr_want (c : Ctx) (n : BitVec 6) (x : BitVec 256) : (c.setDescr n x).want = c.want := rfl
@[simp] theorem Ctx.setDescr_leaving (c : Ctx) (n : BitVec 6) (x : BitVec 256) : (c.setDescr n x).leaving = c.leaving := rfl
@[simp] theorem Ctx.setDescr_abop (c : Ctx) (n : BitVec 6) (x : BitVec 256) : (c.setDescr n x).abop = c.abop := rfl
@[simp] theorem Ctx.setDescr_fresh (c : Ctx) (n : BitVec 6) (x : BitVec 256) : (c.setDescr n x).fresh = c.fresh := rfl
@[simp] theorem Ctx.setDescr_seen (c : Ctx) (n : BitVec 6) (x : BitVec 256) : (c.setDescr n x).seen = c.seen := rfl
@[simp] theorem Ctx.setDescr_sp (c : Ctx) (n : BitVec 6) (x : BitVec 256) : (c.setDescr n x).sp = c.sp := rfl
@[simp] theorem Ctx.setDescr_can (c : Ctx) (n : BitVec 6) (x : BitVec 256) : (c.setDescr n x).can = c.can := rfl
@[simp] theorem Ctx.setDescr_decl (c : Ctx) (n : BitVec 6) (x : BitVec 256) : (c.setDescr n x).decl = c.decl := rfl
@[simp] theorem Ctx.setDescr_bills (c : Ctx) (n : BitVec 6) (x : BitVec 256) : (c.setDescr n x).bills = c.bills := rfl
@[simp] theorem Ctx.setDescr_inv (c : Ctx) (n : BitVec 6) (x : BitVec 256) : (c.setDescr n x).inv = c.inv := rfl

/-! ### Ctx.setTile -/

@[simp] theorem Ctx.setTile_cid (c : Ctx) (n : BitVec 2) (x : Tile) : (c.setTile n x).cid = c.cid := rfl
@[simp] theorem Ctx.setTile_lid (c : Ctx) (n : BitVec 2) (x : Tile) : (c.setTile n x).lid = c.lid := rfl
@[simp] theorem Ctx.setTile_idx (c : Ctx) (n : BitVec 2) (x : Tile) : (c.setTile n x).idx = c.idx := rfl
@[simp] theorem Ctx.setTile_coord (c : Ctx) (n : BitVec 2) (x : Tile) : (c.setTile n x).coord = c.coord := rfl
@[simp] theorem Ctx.setTile_kind (c : Ctx) (n : BitVec 2) (x : Tile) : (c.setTile n x).kind = c.kind := rfl
@[simp] theorem Ctx.setTile_core (c : Ctx) (n : BitVec 2) (x : Tile) : (c.setTile n x).core = c.core := rfl
@[simp] theorem Ctx.setTile_loc (c : Ctx) (n : BitVec 2) (x : Tile) : (c.setTile n x).loc = c.loc := rfl
@[simp] theorem Ctx.setTile_stat (c : Ctx) (n : BitVec 2) (x : Tile) : (c.setTile n x).stat = c.stat := rfl
@[simp] theorem Ctx.setTile_bars (c : Ctx) (n : BitVec 2) (x : Tile) : (c.setTile n x).bars = c.bars := rfl
@[simp] theorem Ctx.setTile_root (c : Ctx) (n : BitVec 2) (x : Tile) : (c.setTile n x).root = c.root := rfl
@[simp] theorem Ctx.setTile_plots (c : Ctx) (n : BitVec 2) (x : Tile) : (c.setTile n x).plots = c.plots := rfl
@[simp] theorem Ctx.setTile_noxf (c : Ctx) (n : BitVec 2) (x : Tile) : (c.setTile n x).noxf = c.noxf := rfl
@[simp] theorem Ctx.setTile_nocan (c : Ctx) (n : BitVec 2) (x : Tile) : (c.setTile n x).nocan = c.nocan := rfl
@[simp] theorem Ctx.setTile_novec (c : Ctx) (n : BitVec 2) (x : Tile) : (c.setTile n x).novec = c.novec := rfl
@[simp] theorem Ctx.setTile_nomx (c : Ctx) (n : BitVec 2) (x : Tile) : (c.setTile n x).nomx = c.nomx := rfl
@[simp] theorem Ctx.setTile_dmode (c : Ctx) (n : BitVec 2) (x : Tile) : (c.setTile n x).dmode = c.dmode := rfl
@[simp] theorem Ctx.setTile_size (c : Ctx) (n : BitVec 2) (x : Tile) : (c.setTile n x).size = c.size := rfl
@[simp] theorem Ctx.setTile_param (c : Ctx) (n : BitVec 2) (x : Tile) : (c.setTile n x).param = c.param := rfl
@[simp] theorem Ctx.setTile_image (c : Ctx) (n : BitVec 2) (x : Tile) : (c.setTile n x).image = c.image := rfl
@[simp] theorem Ctx.setTile_pimage (c : Ctx) (n : BitVec 2) (x : Tile) : (c.setTile n x).pimage = c.pimage := rfl
@[simp] theorem Ctx.setTile_sup (c : Ctx) (n : BitVec 2) (x : Tile) : (c.setTile n x).sup = c.sup := rfl
@[simp] theorem Ctx.setTile_phase (c : Ctx) (n : BitVec 2) (x : Tile) : (c.setTile n x).phase = c.phase := rfl
@[simp] theorem Ctx.setTile_legno (c : Ctx) (n : BitVec 2) (x : Tile) : (c.setTile n x).legno = c.legno := rfl
@[simp] theorem Ctx.setTile_joined (c : Ctx) (n : BitVec 2) (x : Tile) : (c.setTile n x).joined = c.joined := rfl
@[simp] theorem Ctx.setTile_t (c : Ctx) (n : BitVec 2) (x : Tile) : (c.setTile n x).t = c.t := rfl
@[simp] theorem Ctx.setTile_replay (c : Ctx) (n : BitVec 2) (x : Tile) : (c.setTile n x).replay = c.replay := rfl
@[simp] theorem Ctx.setTile_ctl (c : Ctx) (n : BitVec 2) (x : Tile) : (c.setTile n x).ctl = c.ctl := rfl
@[simp] theorem Ctx.setTile_load (c : Ctx) (n : BitVec 2) (x : Tile) : (c.setTile n x).load = c.load := rfl
@[simp] theorem Ctx.setTile_store (c : Ctx) (n : BitVec 2) (x : Tile) : (c.setTile n x).store = c.store := rfl
@[simp] theorem Ctx.setTile_comp (c : Ctx) (n : BitVec 2) (x : Tile) : (c.setTile n x).comp = c.comp := rfl
@[simp] theorem Ctx.setTile_sems (c : Ctx) (n : BitVec 2) (x : Tile) : (c.setTile n x).sems = c.sems := rfl
@[simp] theorem Ctx.setTile_semT (c : Ctx) (n : BitVec 2) (x : Tile) : (c.setTile n x).semT = c.semT := rfl
@[simp] theorem Ctx.setTile_semS (c : Ctx) (n : BitVec 2) (x : Tile) : (c.setTile n x).semS = c.semS := rfl
@[simp] theorem Ctx.setTile_cbits (c : Ctx) (n : BitVec 2) (x : Tile) : (c.setTile n x).cbits = c.cbits := rfl
@[simp] theorem Ctx.setTile_cbitsT (c : Ctx) (n : BitVec 2) (x : Tile) : (c.setTile n x).cbitsT = c.cbitsT := rfl
@[simp] theorem Ctx.setTile_desc (c : Ctx) (n : BitVec 2) (x : Tile) : (c.setTile n x).desc = c.desc := rfl
@[simp] theorem Ctx.setTile_v (c : Ctx) (n : BitVec 2) (x : Tile) : (c.setTile n x).v = c.v := rfl
@[simp] theorem Ctx.setTile_m (c : Ctx) (n : BitVec 2) (x : Tile) : (c.setTile n x).m = c.m := rfl
@[simp] theorem Ctx.setTile_acc (c : Ctx) (n : BitVec 2) (x : Tile) : (c.setTile n x).acc = c.acc.put Tile.zero n.toNat x := rfl
@[simp] theorem Ctx.setTile_bp (c : Ctx) (n : BitVec 2) (x : Tile) : (c.setTile n x).bp = c.bp := rfl
@[simp] theorem Ctx.setTile_sticky (c : Ctx) (n : BitVec 2) (x : Tile) : (c.setTile n x).sticky = c.sticky := rfl
@[simp] theorem Ctx.setTile_late (c : Ctx) (n : BitVec 2) (x : Tile) : (c.setTile n x).late = c.late := rfl
@[simp] theorem Ctx.setTile_landed (c : Ctx) (n : BitVec 2) (x : Tile) : (c.setTile n x).landed = c.landed := rfl
@[simp] theorem Ctx.setTile_cause (c : Ctx) (n : BitVec 2) (x : Tile) : (c.setTile n x).cause = c.cause := rfl
@[simp] theorem Ctx.setTile_tval (c : Ctx) (n : BitVec 2) (x : Tile) : (c.setTile n x).tval = c.tval := rfl
@[simp] theorem Ctx.setTile_hen (c : Ctx) (n : BitVec 2) (x : Tile) : (c.setTile n x).hen = c.hen := rfl
@[simp] theorem Ctx.setTile_hent (c : Ctx) (n : BitVec 2) (x : Tile) : (c.setTile n x).hent = c.hent := rfl
@[simp] theorem Ctx.setTile_flight (c : Ctx) (n : BitVec 2) (x : Tile) : (c.setTile n x).flight = c.flight := rfl
@[simp] theorem Ctx.setTile_vno (c : Ctx) (n : BitVec 2) (x : Tile) : (c.setTile n x).vno = c.vno := rfl
@[simp] theorem Ctx.setTile_bno (c : Ctx) (n : BitVec 2) (x : Tile) : (c.setTile n x).bno = c.bno := rfl
@[simp] theorem Ctx.setTile_inb (c : Ctx) (n : BitVec 2) (x : Tile) : (c.setTile n x).inb = c.inb := rfl
@[simp] theorem Ctx.setTile_outb (c : Ctx) (n : BitVec 2) (x : Tile) : (c.setTile n x).outb = c.outb := rfl
@[simp] theorem Ctx.setTile_mx (c : Ctx) (n : BitVec 2) (x : Tile) : (c.setTile n x).mx = c.mx := rfl
@[simp] theorem Ctx.setTile_offers (c : Ctx) (n : BitVec 2) (x : Tile) : (c.setTile n x).offers = c.offers := rfl
@[simp] theorem Ctx.setTile_marks (c : Ctx) (n : BitVec 2) (x : Tile) : (c.setTile n x).marks = c.marks := rfl
@[simp] theorem Ctx.setTile_wins (c : Ctx) (n : BitVec 2) (x : Tile) : (c.setTile n x).wins = c.wins := rfl
@[simp] theorem Ctx.setTile_leg (c : Ctx) (n : BitVec 2) (x : Tile) : (c.setTile n x).leg = c.leg := rfl
@[simp] theorem Ctx.setTile_legs (c : Ctx) (n : BitVec 2) (x : Tile) : (c.setTile n x).legs = c.legs := rfl
@[simp] theorem Ctx.setTile_ended (c : Ctx) (n : BitVec 2) (x : Tile) : (c.setTile n x).ended = c.ended := rfl
@[simp] theorem Ctx.setTile_pend (c : Ctx) (n : BitVec 2) (x : Tile) : (c.setTile n x).pend = c.pend := rfl
@[simp] theorem Ctx.setTile_again (c : Ctx) (n : BitVec 2) (x : Tile) : (c.setTile n x).again = c.again := rfl
@[simp] theorem Ctx.setTile_back (c : Ctx) (n : BitVec 2) (x : Tile) : (c.setTile n x).back = c.back := rfl
@[simp] theorem Ctx.setTile_waitm (c : Ctx) (n : BitVec 2) (x : Tile) : (c.setTile n x).waitm = c.waitm := rfl
@[simp] theorem Ctx.setTile_hold (c : Ctx) (n : BitVec 2) (x : Tile) : (c.setTile n x).hold = c.hold := rfl
@[simp] theorem Ctx.setTile_impr (c : Ctx) (n : BitVec 2) (x : Tile) : (c.setTile n x).impr = c.impr := rfl
@[simp] theorem Ctx.setTile_trap (c : Ctx) (n : BitVec 2) (x : Tile) : (c.setTile n x).trap = c.trap := rfl
@[simp] theorem Ctx.setTile_listed (c : Ctx) (n : BitVec 2) (x : Tile) : (c.setTile n x).listed = c.listed := rfl
@[simp] theorem Ctx.setTile_listOv (c : Ctx) (n : BitVec 2) (x : Tile) : (c.setTile n x).listOv = c.listOv := rfl
@[simp] theorem Ctx.setTile_halting (c : Ctx) (n : BitVec 2) (x : Tile) : (c.setTile n x).halting = c.halting := rfl
@[simp] theorem Ctx.setTile_want (c : Ctx) (n : BitVec 2) (x : Tile) : (c.setTile n x).want = c.want := rfl
@[simp] theorem Ctx.setTile_leaving (c : Ctx) (n : BitVec 2) (x : Tile) : (c.setTile n x).leaving = c.leaving := rfl
@[simp] theorem Ctx.setTile_abop (c : Ctx) (n : BitVec 2) (x : Tile) : (c.setTile n x).abop = c.abop := rfl
@[simp] theorem Ctx.setTile_fresh (c : Ctx) (n : BitVec 2) (x : Tile) : (c.setTile n x).fresh = c.fresh := rfl
@[simp] theorem Ctx.setTile_seen (c : Ctx) (n : BitVec 2) (x : Tile) : (c.setTile n x).seen = c.seen := rfl
@[simp] theorem Ctx.setTile_sp (c : Ctx) (n : BitVec 2) (x : Tile) : (c.setTile n x).sp = c.sp := rfl
@[simp] theorem Ctx.setTile_can (c : Ctx) (n : BitVec 2) (x : Tile) : (c.setTile n x).can = c.can := rfl
@[simp] theorem Ctx.setTile_decl (c : Ctx) (n : BitVec 2) (x : Tile) : (c.setTile n x).decl = c.decl := rfl
@[simp] theorem Ctx.setTile_bills (c : Ctx) (n : BitVec 2) (x : Tile) : (c.setTile n x).bills = c.bills := rfl
@[simp] theorem Ctx.setTile_inv (c : Ctx) (n : BitVec 2) (x : Tile) : (c.setTile n x).inv = c.inv := rfl

/-! ### Ctx.setBp -/

@[simp] theorem Ctx.setBp_cid (c : Ctx) (n : Nat) (x : Tile) : (c.setBp n x).cid = c.cid := rfl
@[simp] theorem Ctx.setBp_lid (c : Ctx) (n : Nat) (x : Tile) : (c.setBp n x).lid = c.lid := rfl
@[simp] theorem Ctx.setBp_idx (c : Ctx) (n : Nat) (x : Tile) : (c.setBp n x).idx = c.idx := rfl
@[simp] theorem Ctx.setBp_coord (c : Ctx) (n : Nat) (x : Tile) : (c.setBp n x).coord = c.coord := rfl
@[simp] theorem Ctx.setBp_kind (c : Ctx) (n : Nat) (x : Tile) : (c.setBp n x).kind = c.kind := rfl
@[simp] theorem Ctx.setBp_core (c : Ctx) (n : Nat) (x : Tile) : (c.setBp n x).core = c.core := rfl
@[simp] theorem Ctx.setBp_loc (c : Ctx) (n : Nat) (x : Tile) : (c.setBp n x).loc = c.loc := rfl
@[simp] theorem Ctx.setBp_stat (c : Ctx) (n : Nat) (x : Tile) : (c.setBp n x).stat = c.stat := rfl
@[simp] theorem Ctx.setBp_bars (c : Ctx) (n : Nat) (x : Tile) : (c.setBp n x).bars = c.bars := rfl
@[simp] theorem Ctx.setBp_root (c : Ctx) (n : Nat) (x : Tile) : (c.setBp n x).root = c.root := rfl
@[simp] theorem Ctx.setBp_plots (c : Ctx) (n : Nat) (x : Tile) : (c.setBp n x).plots = c.plots := rfl
@[simp] theorem Ctx.setBp_noxf (c : Ctx) (n : Nat) (x : Tile) : (c.setBp n x).noxf = c.noxf := rfl
@[simp] theorem Ctx.setBp_nocan (c : Ctx) (n : Nat) (x : Tile) : (c.setBp n x).nocan = c.nocan := rfl
@[simp] theorem Ctx.setBp_novec (c : Ctx) (n : Nat) (x : Tile) : (c.setBp n x).novec = c.novec := rfl
@[simp] theorem Ctx.setBp_nomx (c : Ctx) (n : Nat) (x : Tile) : (c.setBp n x).nomx = c.nomx := rfl
@[simp] theorem Ctx.setBp_dmode (c : Ctx) (n : Nat) (x : Tile) : (c.setBp n x).dmode = c.dmode := rfl
@[simp] theorem Ctx.setBp_size (c : Ctx) (n : Nat) (x : Tile) : (c.setBp n x).size = c.size := rfl
@[simp] theorem Ctx.setBp_param (c : Ctx) (n : Nat) (x : Tile) : (c.setBp n x).param = c.param := rfl
@[simp] theorem Ctx.setBp_image (c : Ctx) (n : Nat) (x : Tile) : (c.setBp n x).image = c.image := rfl
@[simp] theorem Ctx.setBp_pimage (c : Ctx) (n : Nat) (x : Tile) : (c.setBp n x).pimage = c.pimage := rfl
@[simp] theorem Ctx.setBp_sup (c : Ctx) (n : Nat) (x : Tile) : (c.setBp n x).sup = c.sup := rfl
@[simp] theorem Ctx.setBp_phase (c : Ctx) (n : Nat) (x : Tile) : (c.setBp n x).phase = c.phase := rfl
@[simp] theorem Ctx.setBp_legno (c : Ctx) (n : Nat) (x : Tile) : (c.setBp n x).legno = c.legno := rfl
@[simp] theorem Ctx.setBp_joined (c : Ctx) (n : Nat) (x : Tile) : (c.setBp n x).joined = c.joined := rfl
@[simp] theorem Ctx.setBp_t (c : Ctx) (n : Nat) (x : Tile) : (c.setBp n x).t = c.t := rfl
@[simp] theorem Ctx.setBp_replay (c : Ctx) (n : Nat) (x : Tile) : (c.setBp n x).replay = c.replay := rfl
@[simp] theorem Ctx.setBp_ctl (c : Ctx) (n : Nat) (x : Tile) : (c.setBp n x).ctl = c.ctl := rfl
@[simp] theorem Ctx.setBp_load (c : Ctx) (n : Nat) (x : Tile) : (c.setBp n x).load = c.load := rfl
@[simp] theorem Ctx.setBp_store (c : Ctx) (n : Nat) (x : Tile) : (c.setBp n x).store = c.store := rfl
@[simp] theorem Ctx.setBp_comp (c : Ctx) (n : Nat) (x : Tile) : (c.setBp n x).comp = c.comp := rfl
@[simp] theorem Ctx.setBp_sems (c : Ctx) (n : Nat) (x : Tile) : (c.setBp n x).sems = c.sems := rfl
@[simp] theorem Ctx.setBp_semT (c : Ctx) (n : Nat) (x : Tile) : (c.setBp n x).semT = c.semT := rfl
@[simp] theorem Ctx.setBp_semS (c : Ctx) (n : Nat) (x : Tile) : (c.setBp n x).semS = c.semS := rfl
@[simp] theorem Ctx.setBp_cbits (c : Ctx) (n : Nat) (x : Tile) : (c.setBp n x).cbits = c.cbits := rfl
@[simp] theorem Ctx.setBp_cbitsT (c : Ctx) (n : Nat) (x : Tile) : (c.setBp n x).cbitsT = c.cbitsT := rfl
@[simp] theorem Ctx.setBp_desc (c : Ctx) (n : Nat) (x : Tile) : (c.setBp n x).desc = c.desc := rfl
@[simp] theorem Ctx.setBp_v (c : Ctx) (n : Nat) (x : Tile) : (c.setBp n x).v = c.v := rfl
@[simp] theorem Ctx.setBp_m (c : Ctx) (n : Nat) (x : Tile) : (c.setBp n x).m = c.m := rfl
@[simp] theorem Ctx.setBp_acc (c : Ctx) (n : Nat) (x : Tile) : (c.setBp n x).acc = c.acc := rfl
@[simp] theorem Ctx.setBp_bp (c : Ctx) (n : Nat) (x : Tile) : (c.setBp n x).bp = c.bp.put Tile.zero n x := rfl
@[simp] theorem Ctx.setBp_sticky (c : Ctx) (n : Nat) (x : Tile) : (c.setBp n x).sticky = c.sticky := rfl
@[simp] theorem Ctx.setBp_late (c : Ctx) (n : Nat) (x : Tile) : (c.setBp n x).late = c.late := rfl
@[simp] theorem Ctx.setBp_landed (c : Ctx) (n : Nat) (x : Tile) : (c.setBp n x).landed = c.landed := rfl
@[simp] theorem Ctx.setBp_cause (c : Ctx) (n : Nat) (x : Tile) : (c.setBp n x).cause = c.cause := rfl
@[simp] theorem Ctx.setBp_tval (c : Ctx) (n : Nat) (x : Tile) : (c.setBp n x).tval = c.tval := rfl
@[simp] theorem Ctx.setBp_hen (c : Ctx) (n : Nat) (x : Tile) : (c.setBp n x).hen = c.hen := rfl
@[simp] theorem Ctx.setBp_hent (c : Ctx) (n : Nat) (x : Tile) : (c.setBp n x).hent = c.hent := rfl
@[simp] theorem Ctx.setBp_flight (c : Ctx) (n : Nat) (x : Tile) : (c.setBp n x).flight = c.flight := rfl
@[simp] theorem Ctx.setBp_vno (c : Ctx) (n : Nat) (x : Tile) : (c.setBp n x).vno = c.vno := rfl
@[simp] theorem Ctx.setBp_bno (c : Ctx) (n : Nat) (x : Tile) : (c.setBp n x).bno = c.bno := rfl
@[simp] theorem Ctx.setBp_inb (c : Ctx) (n : Nat) (x : Tile) : (c.setBp n x).inb = c.inb := rfl
@[simp] theorem Ctx.setBp_outb (c : Ctx) (n : Nat) (x : Tile) : (c.setBp n x).outb = c.outb := rfl
@[simp] theorem Ctx.setBp_mx (c : Ctx) (n : Nat) (x : Tile) : (c.setBp n x).mx = c.mx := rfl
@[simp] theorem Ctx.setBp_offers (c : Ctx) (n : Nat) (x : Tile) : (c.setBp n x).offers = c.offers := rfl
@[simp] theorem Ctx.setBp_marks (c : Ctx) (n : Nat) (x : Tile) : (c.setBp n x).marks = c.marks := rfl
@[simp] theorem Ctx.setBp_wins (c : Ctx) (n : Nat) (x : Tile) : (c.setBp n x).wins = c.wins := rfl
@[simp] theorem Ctx.setBp_leg (c : Ctx) (n : Nat) (x : Tile) : (c.setBp n x).leg = c.leg := rfl
@[simp] theorem Ctx.setBp_legs (c : Ctx) (n : Nat) (x : Tile) : (c.setBp n x).legs = c.legs := rfl
@[simp] theorem Ctx.setBp_ended (c : Ctx) (n : Nat) (x : Tile) : (c.setBp n x).ended = c.ended := rfl
@[simp] theorem Ctx.setBp_pend (c : Ctx) (n : Nat) (x : Tile) : (c.setBp n x).pend = c.pend := rfl
@[simp] theorem Ctx.setBp_again (c : Ctx) (n : Nat) (x : Tile) : (c.setBp n x).again = c.again := rfl
@[simp] theorem Ctx.setBp_back (c : Ctx) (n : Nat) (x : Tile) : (c.setBp n x).back = c.back := rfl
@[simp] theorem Ctx.setBp_waitm (c : Ctx) (n : Nat) (x : Tile) : (c.setBp n x).waitm = c.waitm := rfl
@[simp] theorem Ctx.setBp_hold (c : Ctx) (n : Nat) (x : Tile) : (c.setBp n x).hold = c.hold := rfl
@[simp] theorem Ctx.setBp_impr (c : Ctx) (n : Nat) (x : Tile) : (c.setBp n x).impr = c.impr := rfl
@[simp] theorem Ctx.setBp_trap (c : Ctx) (n : Nat) (x : Tile) : (c.setBp n x).trap = c.trap := rfl
@[simp] theorem Ctx.setBp_listed (c : Ctx) (n : Nat) (x : Tile) : (c.setBp n x).listed = c.listed := rfl
@[simp] theorem Ctx.setBp_listOv (c : Ctx) (n : Nat) (x : Tile) : (c.setBp n x).listOv = c.listOv := rfl
@[simp] theorem Ctx.setBp_halting (c : Ctx) (n : Nat) (x : Tile) : (c.setBp n x).halting = c.halting := rfl
@[simp] theorem Ctx.setBp_want (c : Ctx) (n : Nat) (x : Tile) : (c.setBp n x).want = c.want := rfl
@[simp] theorem Ctx.setBp_leaving (c : Ctx) (n : Nat) (x : Tile) : (c.setBp n x).leaving = c.leaving := rfl
@[simp] theorem Ctx.setBp_abop (c : Ctx) (n : Nat) (x : Tile) : (c.setBp n x).abop = c.abop := rfl
@[simp] theorem Ctx.setBp_fresh (c : Ctx) (n : Nat) (x : Tile) : (c.setBp n x).fresh = c.fresh := rfl
@[simp] theorem Ctx.setBp_seen (c : Ctx) (n : Nat) (x : Tile) : (c.setBp n x).seen = c.seen := rfl
@[simp] theorem Ctx.setBp_sp (c : Ctx) (n : Nat) (x : Tile) : (c.setBp n x).sp = c.sp := rfl
@[simp] theorem Ctx.setBp_can (c : Ctx) (n : Nat) (x : Tile) : (c.setBp n x).can = c.can := rfl
@[simp] theorem Ctx.setBp_decl (c : Ctx) (n : Nat) (x : Tile) : (c.setBp n x).decl = c.decl := rfl
@[simp] theorem Ctx.setBp_bills (c : Ctx) (n : Nat) (x : Tile) : (c.setBp n x).bills = c.bills := rfl
@[simp] theorem Ctx.setBp_inv (c : Ctx) (n : Nat) (x : Tile) : (c.setBp n x).inv = c.inv := rfl

/-! ### Ctx.flag -/

@[simp] theorem Ctx.flag_cid (c : Ctx) (b : BitVec 5) : (c.flag b).cid = c.cid := rfl
@[simp] theorem Ctx.flag_lid (c : Ctx) (b : BitVec 5) : (c.flag b).lid = c.lid := rfl
@[simp] theorem Ctx.flag_idx (c : Ctx) (b : BitVec 5) : (c.flag b).idx = c.idx := rfl
@[simp] theorem Ctx.flag_coord (c : Ctx) (b : BitVec 5) : (c.flag b).coord = c.coord := rfl
@[simp] theorem Ctx.flag_kind (c : Ctx) (b : BitVec 5) : (c.flag b).kind = c.kind := rfl
@[simp] theorem Ctx.flag_core (c : Ctx) (b : BitVec 5) : (c.flag b).core = c.core := rfl
@[simp] theorem Ctx.flag_loc (c : Ctx) (b : BitVec 5) : (c.flag b).loc = c.loc := rfl
@[simp] theorem Ctx.flag_stat (c : Ctx) (b : BitVec 5) : (c.flag b).stat = c.stat := rfl
@[simp] theorem Ctx.flag_bars (c : Ctx) (b : BitVec 5) : (c.flag b).bars = c.bars := rfl
@[simp] theorem Ctx.flag_root (c : Ctx) (b : BitVec 5) : (c.flag b).root = c.root := rfl
@[simp] theorem Ctx.flag_plots (c : Ctx) (b : BitVec 5) : (c.flag b).plots = c.plots := rfl
@[simp] theorem Ctx.flag_noxf (c : Ctx) (b : BitVec 5) : (c.flag b).noxf = c.noxf := rfl
@[simp] theorem Ctx.flag_nocan (c : Ctx) (b : BitVec 5) : (c.flag b).nocan = c.nocan := rfl
@[simp] theorem Ctx.flag_novec (c : Ctx) (b : BitVec 5) : (c.flag b).novec = c.novec := rfl
@[simp] theorem Ctx.flag_nomx (c : Ctx) (b : BitVec 5) : (c.flag b).nomx = c.nomx := rfl
@[simp] theorem Ctx.flag_dmode (c : Ctx) (b : BitVec 5) : (c.flag b).dmode = c.dmode := rfl
@[simp] theorem Ctx.flag_size (c : Ctx) (b : BitVec 5) : (c.flag b).size = c.size := rfl
@[simp] theorem Ctx.flag_param (c : Ctx) (b : BitVec 5) : (c.flag b).param = c.param := rfl
@[simp] theorem Ctx.flag_image (c : Ctx) (b : BitVec 5) : (c.flag b).image = c.image := rfl
@[simp] theorem Ctx.flag_pimage (c : Ctx) (b : BitVec 5) : (c.flag b).pimage = c.pimage := rfl
@[simp] theorem Ctx.flag_sup (c : Ctx) (b : BitVec 5) : (c.flag b).sup = c.sup := rfl
@[simp] theorem Ctx.flag_phase (c : Ctx) (b : BitVec 5) : (c.flag b).phase = c.phase := rfl
@[simp] theorem Ctx.flag_legno (c : Ctx) (b : BitVec 5) : (c.flag b).legno = c.legno := rfl
@[simp] theorem Ctx.flag_joined (c : Ctx) (b : BitVec 5) : (c.flag b).joined = c.joined := rfl
@[simp] theorem Ctx.flag_t (c : Ctx) (b : BitVec 5) : (c.flag b).t = c.t := rfl
@[simp] theorem Ctx.flag_replay (c : Ctx) (b : BitVec 5) : (c.flag b).replay = c.replay := rfl
@[simp] theorem Ctx.flag_ctl (c : Ctx) (b : BitVec 5) : (c.flag b).ctl = c.ctl := rfl
@[simp] theorem Ctx.flag_load (c : Ctx) (b : BitVec 5) : (c.flag b).load = c.load := rfl
@[simp] theorem Ctx.flag_store (c : Ctx) (b : BitVec 5) : (c.flag b).store = c.store := rfl
@[simp] theorem Ctx.flag_comp (c : Ctx) (b : BitVec 5) : (c.flag b).comp = c.comp := rfl
@[simp] theorem Ctx.flag_sems (c : Ctx) (b : BitVec 5) : (c.flag b).sems = c.sems := rfl
@[simp] theorem Ctx.flag_semT (c : Ctx) (b : BitVec 5) : (c.flag b).semT = c.semT := rfl
@[simp] theorem Ctx.flag_semS (c : Ctx) (b : BitVec 5) : (c.flag b).semS = c.semS := rfl
@[simp] theorem Ctx.flag_cbits (c : Ctx) (b : BitVec 5) : (c.flag b).cbits = c.cbits := rfl
@[simp] theorem Ctx.flag_cbitsT (c : Ctx) (b : BitVec 5) : (c.flag b).cbitsT = c.cbitsT := rfl
@[simp] theorem Ctx.flag_desc (c : Ctx) (b : BitVec 5) : (c.flag b).desc = c.desc := rfl
@[simp] theorem Ctx.flag_v (c : Ctx) (b : BitVec 5) : (c.flag b).v = c.v := rfl
@[simp] theorem Ctx.flag_m (c : Ctx) (b : BitVec 5) : (c.flag b).m = c.m := rfl
@[simp] theorem Ctx.flag_acc (c : Ctx) (b : BitVec 5) : (c.flag b).acc = c.acc := rfl
@[simp] theorem Ctx.flag_bp (c : Ctx) (b : BitVec 5) : (c.flag b).bp = c.bp := rfl
@[simp] theorem Ctx.flag_sticky (c : Ctx) (b : BitVec 5) : (c.flag b).sticky = c.sticky ||| b := rfl
@[simp] theorem Ctx.flag_late (c : Ctx) (b : BitVec 5) : (c.flag b).late = c.late := rfl
@[simp] theorem Ctx.flag_landed (c : Ctx) (b : BitVec 5) : (c.flag b).landed = c.landed := rfl
@[simp] theorem Ctx.flag_cause (c : Ctx) (b : BitVec 5) : (c.flag b).cause = c.cause := rfl
@[simp] theorem Ctx.flag_tval (c : Ctx) (b : BitVec 5) : (c.flag b).tval = c.tval := rfl
@[simp] theorem Ctx.flag_hen (c : Ctx) (b : BitVec 5) : (c.flag b).hen = c.hen := rfl
@[simp] theorem Ctx.flag_hent (c : Ctx) (b : BitVec 5) : (c.flag b).hent = c.hent := rfl
@[simp] theorem Ctx.flag_flight (c : Ctx) (b : BitVec 5) : (c.flag b).flight = c.flight := rfl
@[simp] theorem Ctx.flag_vno (c : Ctx) (b : BitVec 5) : (c.flag b).vno = c.vno := rfl
@[simp] theorem Ctx.flag_bno (c : Ctx) (b : BitVec 5) : (c.flag b).bno = c.bno := rfl
@[simp] theorem Ctx.flag_inb (c : Ctx) (b : BitVec 5) : (c.flag b).inb = c.inb := rfl
@[simp] theorem Ctx.flag_outb (c : Ctx) (b : BitVec 5) : (c.flag b).outb = c.outb := rfl
@[simp] theorem Ctx.flag_mx (c : Ctx) (b : BitVec 5) : (c.flag b).mx = c.mx := rfl
@[simp] theorem Ctx.flag_offers (c : Ctx) (b : BitVec 5) : (c.flag b).offers = c.offers := rfl
@[simp] theorem Ctx.flag_marks (c : Ctx) (b : BitVec 5) : (c.flag b).marks = c.marks := rfl
@[simp] theorem Ctx.flag_wins (c : Ctx) (b : BitVec 5) : (c.flag b).wins = c.wins := rfl
@[simp] theorem Ctx.flag_leg (c : Ctx) (b : BitVec 5) : (c.flag b).leg = c.leg := rfl
@[simp] theorem Ctx.flag_legs (c : Ctx) (b : BitVec 5) : (c.flag b).legs = c.legs := rfl
@[simp] theorem Ctx.flag_ended (c : Ctx) (b : BitVec 5) : (c.flag b).ended = c.ended := rfl
@[simp] theorem Ctx.flag_pend (c : Ctx) (b : BitVec 5) : (c.flag b).pend = c.pend := rfl
@[simp] theorem Ctx.flag_again (c : Ctx) (b : BitVec 5) : (c.flag b).again = c.again := rfl
@[simp] theorem Ctx.flag_back (c : Ctx) (b : BitVec 5) : (c.flag b).back = c.back := rfl
@[simp] theorem Ctx.flag_waitm (c : Ctx) (b : BitVec 5) : (c.flag b).waitm = c.waitm := rfl
@[simp] theorem Ctx.flag_hold (c : Ctx) (b : BitVec 5) : (c.flag b).hold = c.hold := rfl
@[simp] theorem Ctx.flag_impr (c : Ctx) (b : BitVec 5) : (c.flag b).impr = c.impr := rfl
@[simp] theorem Ctx.flag_trap (c : Ctx) (b : BitVec 5) : (c.flag b).trap = c.trap := rfl
@[simp] theorem Ctx.flag_listed (c : Ctx) (b : BitVec 5) : (c.flag b).listed = c.listed := rfl
@[simp] theorem Ctx.flag_listOv (c : Ctx) (b : BitVec 5) : (c.flag b).listOv = c.listOv := rfl
@[simp] theorem Ctx.flag_halting (c : Ctx) (b : BitVec 5) : (c.flag b).halting = c.halting := rfl
@[simp] theorem Ctx.flag_want (c : Ctx) (b : BitVec 5) : (c.flag b).want = c.want := rfl
@[simp] theorem Ctx.flag_leaving (c : Ctx) (b : BitVec 5) : (c.flag b).leaving = c.leaving := rfl
@[simp] theorem Ctx.flag_abop (c : Ctx) (b : BitVec 5) : (c.flag b).abop = c.abop := rfl
@[simp] theorem Ctx.flag_fresh (c : Ctx) (b : BitVec 5) : (c.flag b).fresh = c.fresh := rfl
@[simp] theorem Ctx.flag_seen (c : Ctx) (b : BitVec 5) : (c.flag b).seen = c.seen := rfl
@[simp] theorem Ctx.flag_sp (c : Ctx) (b : BitVec 5) : (c.flag b).sp = c.sp := rfl
@[simp] theorem Ctx.flag_can (c : Ctx) (b : BitVec 5) : (c.flag b).can = c.can := rfl
@[simp] theorem Ctx.flag_decl (c : Ctx) (b : BitVec 5) : (c.flag b).decl = c.decl := rfl
@[simp] theorem Ctx.flag_bills (c : Ctx) (b : BitVec 5) : (c.flag b).bills = c.bills := rfl
@[simp] theorem Ctx.flag_inv (c : Ctx) (b : BitVec 5) : (c.flag b).inv = c.inv := rfl

/-! ### Ctx.onAll -/

@[simp] theorem Ctx.onAll_cid (c : Ctx) (f : Seqr → Seqr) : (c.onAll f).cid = c.cid := rfl
@[simp] theorem Ctx.onAll_lid (c : Ctx) (f : Seqr → Seqr) : (c.onAll f).lid = c.lid := rfl
@[simp] theorem Ctx.onAll_idx (c : Ctx) (f : Seqr → Seqr) : (c.onAll f).idx = c.idx := rfl
@[simp] theorem Ctx.onAll_coord (c : Ctx) (f : Seqr → Seqr) : (c.onAll f).coord = c.coord := rfl
@[simp] theorem Ctx.onAll_kind (c : Ctx) (f : Seqr → Seqr) : (c.onAll f).kind = c.kind := rfl
@[simp] theorem Ctx.onAll_core (c : Ctx) (f : Seqr → Seqr) : (c.onAll f).core = c.core := rfl
@[simp] theorem Ctx.onAll_loc (c : Ctx) (f : Seqr → Seqr) : (c.onAll f).loc = c.loc := rfl
@[simp] theorem Ctx.onAll_stat (c : Ctx) (f : Seqr → Seqr) : (c.onAll f).stat = c.stat := rfl
@[simp] theorem Ctx.onAll_bars (c : Ctx) (f : Seqr → Seqr) : (c.onAll f).bars = c.bars := rfl
@[simp] theorem Ctx.onAll_root (c : Ctx) (f : Seqr → Seqr) : (c.onAll f).root = c.root := rfl
@[simp] theorem Ctx.onAll_plots (c : Ctx) (f : Seqr → Seqr) : (c.onAll f).plots = c.plots := rfl
@[simp] theorem Ctx.onAll_noxf (c : Ctx) (f : Seqr → Seqr) : (c.onAll f).noxf = c.noxf := rfl
@[simp] theorem Ctx.onAll_nocan (c : Ctx) (f : Seqr → Seqr) : (c.onAll f).nocan = c.nocan := rfl
@[simp] theorem Ctx.onAll_novec (c : Ctx) (f : Seqr → Seqr) : (c.onAll f).novec = c.novec := rfl
@[simp] theorem Ctx.onAll_nomx (c : Ctx) (f : Seqr → Seqr) : (c.onAll f).nomx = c.nomx := rfl
@[simp] theorem Ctx.onAll_dmode (c : Ctx) (f : Seqr → Seqr) : (c.onAll f).dmode = c.dmode := rfl
@[simp] theorem Ctx.onAll_size (c : Ctx) (f : Seqr → Seqr) : (c.onAll f).size = c.size := rfl
@[simp] theorem Ctx.onAll_param (c : Ctx) (f : Seqr → Seqr) : (c.onAll f).param = c.param := rfl
@[simp] theorem Ctx.onAll_image (c : Ctx) (f : Seqr → Seqr) : (c.onAll f).image = c.image := rfl
@[simp] theorem Ctx.onAll_pimage (c : Ctx) (f : Seqr → Seqr) : (c.onAll f).pimage = c.pimage := rfl
@[simp] theorem Ctx.onAll_sup (c : Ctx) (f : Seqr → Seqr) : (c.onAll f).sup = c.sup := rfl
@[simp] theorem Ctx.onAll_phase (c : Ctx) (f : Seqr → Seqr) : (c.onAll f).phase = c.phase := rfl
@[simp] theorem Ctx.onAll_legno (c : Ctx) (f : Seqr → Seqr) : (c.onAll f).legno = c.legno := rfl
@[simp] theorem Ctx.onAll_joined (c : Ctx) (f : Seqr → Seqr) : (c.onAll f).joined = c.joined := rfl
@[simp] theorem Ctx.onAll_t (c : Ctx) (f : Seqr → Seqr) : (c.onAll f).t = c.t := rfl
@[simp] theorem Ctx.onAll_replay (c : Ctx) (f : Seqr → Seqr) : (c.onAll f).replay = c.replay := rfl
@[simp] theorem Ctx.onAll_ctl (c : Ctx) (f : Seqr → Seqr) : (c.onAll f).ctl = f c.ctl := rfl
@[simp] theorem Ctx.onAll_load (c : Ctx) (f : Seqr → Seqr) : (c.onAll f).load = f c.load := rfl
@[simp] theorem Ctx.onAll_store (c : Ctx) (f : Seqr → Seqr) : (c.onAll f).store = f c.store := rfl
@[simp] theorem Ctx.onAll_comp (c : Ctx) (f : Seqr → Seqr) : (c.onAll f).comp = f c.comp := rfl
@[simp] theorem Ctx.onAll_sems (c : Ctx) (f : Seqr → Seqr) : (c.onAll f).sems = c.sems := rfl
@[simp] theorem Ctx.onAll_semT (c : Ctx) (f : Seqr → Seqr) : (c.onAll f).semT = c.semT := rfl
@[simp] theorem Ctx.onAll_semS (c : Ctx) (f : Seqr → Seqr) : (c.onAll f).semS = c.semS := rfl
@[simp] theorem Ctx.onAll_cbits (c : Ctx) (f : Seqr → Seqr) : (c.onAll f).cbits = c.cbits := rfl
@[simp] theorem Ctx.onAll_cbitsT (c : Ctx) (f : Seqr → Seqr) : (c.onAll f).cbitsT = c.cbitsT := rfl
@[simp] theorem Ctx.onAll_desc (c : Ctx) (f : Seqr → Seqr) : (c.onAll f).desc = c.desc := rfl
@[simp] theorem Ctx.onAll_v (c : Ctx) (f : Seqr → Seqr) : (c.onAll f).v = c.v := rfl
@[simp] theorem Ctx.onAll_m (c : Ctx) (f : Seqr → Seqr) : (c.onAll f).m = c.m := rfl
@[simp] theorem Ctx.onAll_acc (c : Ctx) (f : Seqr → Seqr) : (c.onAll f).acc = c.acc := rfl
@[simp] theorem Ctx.onAll_bp (c : Ctx) (f : Seqr → Seqr) : (c.onAll f).bp = c.bp := rfl
@[simp] theorem Ctx.onAll_sticky (c : Ctx) (f : Seqr → Seqr) : (c.onAll f).sticky = c.sticky := rfl
@[simp] theorem Ctx.onAll_late (c : Ctx) (f : Seqr → Seqr) : (c.onAll f).late = c.late := rfl
@[simp] theorem Ctx.onAll_landed (c : Ctx) (f : Seqr → Seqr) : (c.onAll f).landed = c.landed := rfl
@[simp] theorem Ctx.onAll_cause (c : Ctx) (f : Seqr → Seqr) : (c.onAll f).cause = c.cause := rfl
@[simp] theorem Ctx.onAll_tval (c : Ctx) (f : Seqr → Seqr) : (c.onAll f).tval = c.tval := rfl
@[simp] theorem Ctx.onAll_hen (c : Ctx) (f : Seqr → Seqr) : (c.onAll f).hen = c.hen := rfl
@[simp] theorem Ctx.onAll_hent (c : Ctx) (f : Seqr → Seqr) : (c.onAll f).hent = c.hent := rfl
@[simp] theorem Ctx.onAll_flight (c : Ctx) (f : Seqr → Seqr) : (c.onAll f).flight = c.flight := rfl
@[simp] theorem Ctx.onAll_vno (c : Ctx) (f : Seqr → Seqr) : (c.onAll f).vno = c.vno := rfl
@[simp] theorem Ctx.onAll_bno (c : Ctx) (f : Seqr → Seqr) : (c.onAll f).bno = c.bno := rfl
@[simp] theorem Ctx.onAll_inb (c : Ctx) (f : Seqr → Seqr) : (c.onAll f).inb = c.inb := rfl
@[simp] theorem Ctx.onAll_outb (c : Ctx) (f : Seqr → Seqr) : (c.onAll f).outb = c.outb := rfl
@[simp] theorem Ctx.onAll_mx (c : Ctx) (f : Seqr → Seqr) : (c.onAll f).mx = c.mx := rfl
@[simp] theorem Ctx.onAll_offers (c : Ctx) (f : Seqr → Seqr) : (c.onAll f).offers = c.offers := rfl
@[simp] theorem Ctx.onAll_marks (c : Ctx) (f : Seqr → Seqr) : (c.onAll f).marks = c.marks := rfl
@[simp] theorem Ctx.onAll_wins (c : Ctx) (f : Seqr → Seqr) : (c.onAll f).wins = c.wins := rfl
@[simp] theorem Ctx.onAll_leg (c : Ctx) (f : Seqr → Seqr) : (c.onAll f).leg = c.leg := rfl
@[simp] theorem Ctx.onAll_legs (c : Ctx) (f : Seqr → Seqr) : (c.onAll f).legs = c.legs := rfl
@[simp] theorem Ctx.onAll_ended (c : Ctx) (f : Seqr → Seqr) : (c.onAll f).ended = c.ended := rfl
@[simp] theorem Ctx.onAll_pend (c : Ctx) (f : Seqr → Seqr) : (c.onAll f).pend = c.pend := rfl
@[simp] theorem Ctx.onAll_again (c : Ctx) (f : Seqr → Seqr) : (c.onAll f).again = c.again := rfl
@[simp] theorem Ctx.onAll_back (c : Ctx) (f : Seqr → Seqr) : (c.onAll f).back = c.back := rfl
@[simp] theorem Ctx.onAll_waitm (c : Ctx) (f : Seqr → Seqr) : (c.onAll f).waitm = c.waitm := rfl
@[simp] theorem Ctx.onAll_hold (c : Ctx) (f : Seqr → Seqr) : (c.onAll f).hold = c.hold := rfl
@[simp] theorem Ctx.onAll_impr (c : Ctx) (f : Seqr → Seqr) : (c.onAll f).impr = c.impr := rfl
@[simp] theorem Ctx.onAll_trap (c : Ctx) (f : Seqr → Seqr) : (c.onAll f).trap = c.trap := rfl
@[simp] theorem Ctx.onAll_listed (c : Ctx) (f : Seqr → Seqr) : (c.onAll f).listed = c.listed := rfl
@[simp] theorem Ctx.onAll_listOv (c : Ctx) (f : Seqr → Seqr) : (c.onAll f).listOv = c.listOv := rfl
@[simp] theorem Ctx.onAll_halting (c : Ctx) (f : Seqr → Seqr) : (c.onAll f).halting = c.halting := rfl
@[simp] theorem Ctx.onAll_want (c : Ctx) (f : Seqr → Seqr) : (c.onAll f).want = c.want := rfl
@[simp] theorem Ctx.onAll_leaving (c : Ctx) (f : Seqr → Seqr) : (c.onAll f).leaving = c.leaving := rfl
@[simp] theorem Ctx.onAll_abop (c : Ctx) (f : Seqr → Seqr) : (c.onAll f).abop = c.abop := rfl
@[simp] theorem Ctx.onAll_fresh (c : Ctx) (f : Seqr → Seqr) : (c.onAll f).fresh = c.fresh := rfl
@[simp] theorem Ctx.onAll_seen (c : Ctx) (f : Seqr → Seqr) : (c.onAll f).seen = c.seen := rfl
@[simp] theorem Ctx.onAll_sp (c : Ctx) (f : Seqr → Seqr) : (c.onAll f).sp = c.sp := rfl
@[simp] theorem Ctx.onAll_can (c : Ctx) (f : Seqr → Seqr) : (c.onAll f).can = c.can := rfl
@[simp] theorem Ctx.onAll_decl (c : Ctx) (f : Seqr → Seqr) : (c.onAll f).decl = c.decl := rfl
@[simp] theorem Ctx.onAll_bills (c : Ctx) (f : Seqr → Seqr) : (c.onAll f).bills = c.bills := rfl
@[simp] theorem Ctx.onAll_inv (c : Ctx) (f : Seqr → Seqr) : (c.onAll f).inv = c.inv := rfl

/-! ### Ctx.setSeqr and Ctx.onSeqr -/

@[simp] theorem Ctx.setSeqr_cid (c : Ctx) (q : Sq) (x : Seqr) : (c.setSeqr q x).cid = c.cid := by cases q <;> rfl
@[simp] theorem Ctx.onSeqr_cid (c : Ctx) (q : Sq) (g : Seqr → Seqr) : (c.onSeqr q g).cid = c.cid :=
  c.setSeqr_cid q _
@[simp] theorem Ctx.setSeqr_lid (c : Ctx) (q : Sq) (x : Seqr) : (c.setSeqr q x).lid = c.lid := by cases q <;> rfl
@[simp] theorem Ctx.onSeqr_lid (c : Ctx) (q : Sq) (g : Seqr → Seqr) : (c.onSeqr q g).lid = c.lid :=
  c.setSeqr_lid q _
@[simp] theorem Ctx.setSeqr_idx (c : Ctx) (q : Sq) (x : Seqr) : (c.setSeqr q x).idx = c.idx := by cases q <;> rfl
@[simp] theorem Ctx.onSeqr_idx (c : Ctx) (q : Sq) (g : Seqr → Seqr) : (c.onSeqr q g).idx = c.idx :=
  c.setSeqr_idx q _
@[simp] theorem Ctx.setSeqr_coord (c : Ctx) (q : Sq) (x : Seqr) : (c.setSeqr q x).coord = c.coord := by cases q <;> rfl
@[simp] theorem Ctx.onSeqr_coord (c : Ctx) (q : Sq) (g : Seqr → Seqr) : (c.onSeqr q g).coord = c.coord :=
  c.setSeqr_coord q _
@[simp] theorem Ctx.setSeqr_kind (c : Ctx) (q : Sq) (x : Seqr) : (c.setSeqr q x).kind = c.kind := by cases q <;> rfl
@[simp] theorem Ctx.onSeqr_kind (c : Ctx) (q : Sq) (g : Seqr → Seqr) : (c.onSeqr q g).kind = c.kind :=
  c.setSeqr_kind q _
@[simp] theorem Ctx.setSeqr_core (c : Ctx) (q : Sq) (x : Seqr) : (c.setSeqr q x).core = c.core := by cases q <;> rfl
@[simp] theorem Ctx.onSeqr_core (c : Ctx) (q : Sq) (g : Seqr → Seqr) : (c.onSeqr q g).core = c.core :=
  c.setSeqr_core q _
@[simp] theorem Ctx.setSeqr_loc (c : Ctx) (q : Sq) (x : Seqr) : (c.setSeqr q x).loc = c.loc := by cases q <;> rfl
@[simp] theorem Ctx.onSeqr_loc (c : Ctx) (q : Sq) (g : Seqr → Seqr) : (c.onSeqr q g).loc = c.loc :=
  c.setSeqr_loc q _
@[simp] theorem Ctx.setSeqr_stat (c : Ctx) (q : Sq) (x : Seqr) : (c.setSeqr q x).stat = c.stat := by cases q <;> rfl
@[simp] theorem Ctx.onSeqr_stat (c : Ctx) (q : Sq) (g : Seqr → Seqr) : (c.onSeqr q g).stat = c.stat :=
  c.setSeqr_stat q _
@[simp] theorem Ctx.setSeqr_bars (c : Ctx) (q : Sq) (x : Seqr) : (c.setSeqr q x).bars = c.bars := by cases q <;> rfl
@[simp] theorem Ctx.onSeqr_bars (c : Ctx) (q : Sq) (g : Seqr → Seqr) : (c.onSeqr q g).bars = c.bars :=
  c.setSeqr_bars q _
@[simp] theorem Ctx.setSeqr_root (c : Ctx) (q : Sq) (x : Seqr) : (c.setSeqr q x).root = c.root := by cases q <;> rfl
@[simp] theorem Ctx.onSeqr_root (c : Ctx) (q : Sq) (g : Seqr → Seqr) : (c.onSeqr q g).root = c.root :=
  c.setSeqr_root q _
@[simp] theorem Ctx.setSeqr_plots (c : Ctx) (q : Sq) (x : Seqr) : (c.setSeqr q x).plots = c.plots := by cases q <;> rfl
@[simp] theorem Ctx.onSeqr_plots (c : Ctx) (q : Sq) (g : Seqr → Seqr) : (c.onSeqr q g).plots = c.plots :=
  c.setSeqr_plots q _
@[simp] theorem Ctx.setSeqr_noxf (c : Ctx) (q : Sq) (x : Seqr) : (c.setSeqr q x).noxf = c.noxf := by cases q <;> rfl
@[simp] theorem Ctx.onSeqr_noxf (c : Ctx) (q : Sq) (g : Seqr → Seqr) : (c.onSeqr q g).noxf = c.noxf :=
  c.setSeqr_noxf q _
@[simp] theorem Ctx.setSeqr_nocan (c : Ctx) (q : Sq) (x : Seqr) : (c.setSeqr q x).nocan = c.nocan := by cases q <;> rfl
@[simp] theorem Ctx.onSeqr_nocan (c : Ctx) (q : Sq) (g : Seqr → Seqr) : (c.onSeqr q g).nocan = c.nocan :=
  c.setSeqr_nocan q _
@[simp] theorem Ctx.setSeqr_novec (c : Ctx) (q : Sq) (x : Seqr) : (c.setSeqr q x).novec = c.novec := by cases q <;> rfl
@[simp] theorem Ctx.onSeqr_novec (c : Ctx) (q : Sq) (g : Seqr → Seqr) : (c.onSeqr q g).novec = c.novec :=
  c.setSeqr_novec q _
@[simp] theorem Ctx.setSeqr_nomx (c : Ctx) (q : Sq) (x : Seqr) : (c.setSeqr q x).nomx = c.nomx := by cases q <;> rfl
@[simp] theorem Ctx.onSeqr_nomx (c : Ctx) (q : Sq) (g : Seqr → Seqr) : (c.onSeqr q g).nomx = c.nomx :=
  c.setSeqr_nomx q _
@[simp] theorem Ctx.setSeqr_dmode (c : Ctx) (q : Sq) (x : Seqr) : (c.setSeqr q x).dmode = c.dmode := by cases q <;> rfl
@[simp] theorem Ctx.onSeqr_dmode (c : Ctx) (q : Sq) (g : Seqr → Seqr) : (c.onSeqr q g).dmode = c.dmode :=
  c.setSeqr_dmode q _
@[simp] theorem Ctx.setSeqr_size (c : Ctx) (q : Sq) (x : Seqr) : (c.setSeqr q x).size = c.size := by cases q <;> rfl
@[simp] theorem Ctx.onSeqr_size (c : Ctx) (q : Sq) (g : Seqr → Seqr) : (c.onSeqr q g).size = c.size :=
  c.setSeqr_size q _
@[simp] theorem Ctx.setSeqr_param (c : Ctx) (q : Sq) (x : Seqr) : (c.setSeqr q x).param = c.param := by cases q <;> rfl
@[simp] theorem Ctx.onSeqr_param (c : Ctx) (q : Sq) (g : Seqr → Seqr) : (c.onSeqr q g).param = c.param :=
  c.setSeqr_param q _
@[simp] theorem Ctx.setSeqr_image (c : Ctx) (q : Sq) (x : Seqr) : (c.setSeqr q x).image = c.image := by cases q <;> rfl
@[simp] theorem Ctx.onSeqr_image (c : Ctx) (q : Sq) (g : Seqr → Seqr) : (c.onSeqr q g).image = c.image :=
  c.setSeqr_image q _
@[simp] theorem Ctx.setSeqr_pimage (c : Ctx) (q : Sq) (x : Seqr) : (c.setSeqr q x).pimage = c.pimage := by cases q <;> rfl
@[simp] theorem Ctx.onSeqr_pimage (c : Ctx) (q : Sq) (g : Seqr → Seqr) : (c.onSeqr q g).pimage = c.pimage :=
  c.setSeqr_pimage q _
@[simp] theorem Ctx.setSeqr_sup (c : Ctx) (q : Sq) (x : Seqr) : (c.setSeqr q x).sup = c.sup := by cases q <;> rfl
@[simp] theorem Ctx.onSeqr_sup (c : Ctx) (q : Sq) (g : Seqr → Seqr) : (c.onSeqr q g).sup = c.sup :=
  c.setSeqr_sup q _
@[simp] theorem Ctx.setSeqr_phase (c : Ctx) (q : Sq) (x : Seqr) : (c.setSeqr q x).phase = c.phase := by cases q <;> rfl
@[simp] theorem Ctx.onSeqr_phase (c : Ctx) (q : Sq) (g : Seqr → Seqr) : (c.onSeqr q g).phase = c.phase :=
  c.setSeqr_phase q _
@[simp] theorem Ctx.setSeqr_legno (c : Ctx) (q : Sq) (x : Seqr) : (c.setSeqr q x).legno = c.legno := by cases q <;> rfl
@[simp] theorem Ctx.onSeqr_legno (c : Ctx) (q : Sq) (g : Seqr → Seqr) : (c.onSeqr q g).legno = c.legno :=
  c.setSeqr_legno q _
@[simp] theorem Ctx.setSeqr_joined (c : Ctx) (q : Sq) (x : Seqr) : (c.setSeqr q x).joined = c.joined := by cases q <;> rfl
@[simp] theorem Ctx.onSeqr_joined (c : Ctx) (q : Sq) (g : Seqr → Seqr) : (c.onSeqr q g).joined = c.joined :=
  c.setSeqr_joined q _
@[simp] theorem Ctx.setSeqr_t (c : Ctx) (q : Sq) (x : Seqr) : (c.setSeqr q x).t = c.t := by cases q <;> rfl
@[simp] theorem Ctx.onSeqr_t (c : Ctx) (q : Sq) (g : Seqr → Seqr) : (c.onSeqr q g).t = c.t :=
  c.setSeqr_t q _
@[simp] theorem Ctx.setSeqr_replay (c : Ctx) (q : Sq) (x : Seqr) : (c.setSeqr q x).replay = c.replay := by cases q <;> rfl
@[simp] theorem Ctx.onSeqr_replay (c : Ctx) (q : Sq) (g : Seqr → Seqr) : (c.onSeqr q g).replay = c.replay :=
  c.setSeqr_replay q _
@[simp] theorem Ctx.setSeqr_sems (c : Ctx) (q : Sq) (x : Seqr) : (c.setSeqr q x).sems = c.sems := by cases q <;> rfl
@[simp] theorem Ctx.onSeqr_sems (c : Ctx) (q : Sq) (g : Seqr → Seqr) : (c.onSeqr q g).sems = c.sems :=
  c.setSeqr_sems q _
@[simp] theorem Ctx.setSeqr_semT (c : Ctx) (q : Sq) (x : Seqr) : (c.setSeqr q x).semT = c.semT := by cases q <;> rfl
@[simp] theorem Ctx.setSeqr_semS (c : Ctx) (q : Sq) (x : Seqr) : (c.setSeqr q x).semS = c.semS := by cases q <;> rfl
@[simp] theorem Ctx.onSeqr_semT (c : Ctx) (q : Sq) (g : Seqr → Seqr) : (c.onSeqr q g).semT = c.semT :=
  c.setSeqr_semT q _
@[simp] theorem Ctx.onSeqr_semS (c : Ctx) (q : Sq) (g : Seqr → Seqr) : (c.onSeqr q g).semS = c.semS :=
  c.setSeqr_semS q _
@[simp] theorem Ctx.setSeqr_cbits (c : Ctx) (q : Sq) (x : Seqr) : (c.setSeqr q x).cbits = c.cbits := by cases q <;> rfl
@[simp] theorem Ctx.onSeqr_cbits (c : Ctx) (q : Sq) (g : Seqr → Seqr) : (c.onSeqr q g).cbits = c.cbits :=
  c.setSeqr_cbits q _
@[simp] theorem Ctx.setSeqr_cbitsT (c : Ctx) (q : Sq) (x : Seqr) : (c.setSeqr q x).cbitsT = c.cbitsT := by cases q <;> rfl
@[simp] theorem Ctx.onSeqr_cbitsT (c : Ctx) (q : Sq) (g : Seqr → Seqr) : (c.onSeqr q g).cbitsT = c.cbitsT :=
  c.setSeqr_cbitsT q _
@[simp] theorem Ctx.setSeqr_desc (c : Ctx) (q : Sq) (x : Seqr) : (c.setSeqr q x).desc = c.desc := by cases q <;> rfl
@[simp] theorem Ctx.onSeqr_desc (c : Ctx) (q : Sq) (g : Seqr → Seqr) : (c.onSeqr q g).desc = c.desc :=
  c.setSeqr_desc q _
@[simp] theorem Ctx.setSeqr_v (c : Ctx) (q : Sq) (x : Seqr) : (c.setSeqr q x).v = c.v := by cases q <;> rfl
@[simp] theorem Ctx.onSeqr_v (c : Ctx) (q : Sq) (g : Seqr → Seqr) : (c.onSeqr q g).v = c.v :=
  c.setSeqr_v q _
@[simp] theorem Ctx.setSeqr_m (c : Ctx) (q : Sq) (x : Seqr) : (c.setSeqr q x).m = c.m := by cases q <;> rfl
@[simp] theorem Ctx.onSeqr_m (c : Ctx) (q : Sq) (g : Seqr → Seqr) : (c.onSeqr q g).m = c.m :=
  c.setSeqr_m q _
@[simp] theorem Ctx.setSeqr_acc (c : Ctx) (q : Sq) (x : Seqr) : (c.setSeqr q x).acc = c.acc := by cases q <;> rfl
@[simp] theorem Ctx.onSeqr_acc (c : Ctx) (q : Sq) (g : Seqr → Seqr) : (c.onSeqr q g).acc = c.acc :=
  c.setSeqr_acc q _
@[simp] theorem Ctx.setSeqr_bp (c : Ctx) (q : Sq) (x : Seqr) : (c.setSeqr q x).bp = c.bp := by cases q <;> rfl
@[simp] theorem Ctx.onSeqr_bp (c : Ctx) (q : Sq) (g : Seqr → Seqr) : (c.onSeqr q g).bp = c.bp :=
  c.setSeqr_bp q _
@[simp] theorem Ctx.setSeqr_sticky (c : Ctx) (q : Sq) (x : Seqr) : (c.setSeqr q x).sticky = c.sticky := by cases q <;> rfl
@[simp] theorem Ctx.onSeqr_sticky (c : Ctx) (q : Sq) (g : Seqr → Seqr) : (c.onSeqr q g).sticky = c.sticky :=
  c.setSeqr_sticky q _
@[simp] theorem Ctx.setSeqr_late (c : Ctx) (q : Sq) (x : Seqr) : (c.setSeqr q x).late = c.late := by cases q <;> rfl
@[simp] theorem Ctx.onSeqr_late (c : Ctx) (q : Sq) (g : Seqr → Seqr) : (c.onSeqr q g).late = c.late :=
  c.setSeqr_late q _
@[simp] theorem Ctx.setSeqr_landed (c : Ctx) (q : Sq) (x : Seqr) : (c.setSeqr q x).landed = c.landed := by cases q <;> rfl
@[simp] theorem Ctx.onSeqr_landed (c : Ctx) (q : Sq) (g : Seqr → Seqr) : (c.onSeqr q g).landed = c.landed :=
  c.setSeqr_landed q _
@[simp] theorem Ctx.setSeqr_cause (c : Ctx) (q : Sq) (x : Seqr) : (c.setSeqr q x).cause = c.cause := by cases q <;> rfl
@[simp] theorem Ctx.onSeqr_cause (c : Ctx) (q : Sq) (g : Seqr → Seqr) : (c.onSeqr q g).cause = c.cause :=
  c.setSeqr_cause q _
@[simp] theorem Ctx.setSeqr_tval (c : Ctx) (q : Sq) (x : Seqr) : (c.setSeqr q x).tval = c.tval := by cases q <;> rfl
@[simp] theorem Ctx.onSeqr_tval (c : Ctx) (q : Sq) (g : Seqr → Seqr) : (c.onSeqr q g).tval = c.tval :=
  c.setSeqr_tval q _
@[simp] theorem Ctx.setSeqr_hen (c : Ctx) (q : Sq) (x : Seqr) : (c.setSeqr q x).hen = c.hen := by cases q <;> rfl
@[simp] theorem Ctx.onSeqr_hen (c : Ctx) (q : Sq) (g : Seqr → Seqr) : (c.onSeqr q g).hen = c.hen :=
  c.setSeqr_hen q _
@[simp] theorem Ctx.setSeqr_hent (c : Ctx) (q : Sq) (x : Seqr) : (c.setSeqr q x).hent = c.hent := by cases q <;> rfl
@[simp] theorem Ctx.onSeqr_hent (c : Ctx) (q : Sq) (g : Seqr → Seqr) : (c.onSeqr q g).hent = c.hent :=
  c.setSeqr_hent q _
@[simp] theorem Ctx.setSeqr_flight (c : Ctx) (q : Sq) (x : Seqr) : (c.setSeqr q x).flight = c.flight := by cases q <;> rfl
@[simp] theorem Ctx.onSeqr_flight (c : Ctx) (q : Sq) (g : Seqr → Seqr) : (c.onSeqr q g).flight = c.flight :=
  c.setSeqr_flight q _
@[simp] theorem Ctx.setSeqr_vno (c : Ctx) (q : Sq) (x : Seqr) : (c.setSeqr q x).vno = c.vno := by cases q <;> rfl
@[simp] theorem Ctx.onSeqr_vno (c : Ctx) (q : Sq) (g : Seqr → Seqr) : (c.onSeqr q g).vno = c.vno :=
  c.setSeqr_vno q _
@[simp] theorem Ctx.setSeqr_bno (c : Ctx) (q : Sq) (x : Seqr) : (c.setSeqr q x).bno = c.bno := by cases q <;> rfl
@[simp] theorem Ctx.onSeqr_bno (c : Ctx) (q : Sq) (g : Seqr → Seqr) : (c.onSeqr q g).bno = c.bno :=
  c.setSeqr_bno q _
@[simp] theorem Ctx.setSeqr_inb (c : Ctx) (q : Sq) (x : Seqr) : (c.setSeqr q x).inb = c.inb := by cases q <;> rfl
@[simp] theorem Ctx.onSeqr_inb (c : Ctx) (q : Sq) (g : Seqr → Seqr) : (c.onSeqr q g).inb = c.inb :=
  c.setSeqr_inb q _
@[simp] theorem Ctx.setSeqr_outb (c : Ctx) (q : Sq) (x : Seqr) : (c.setSeqr q x).outb = c.outb := by cases q <;> rfl
@[simp] theorem Ctx.onSeqr_outb (c : Ctx) (q : Sq) (g : Seqr → Seqr) : (c.onSeqr q g).outb = c.outb :=
  c.setSeqr_outb q _
@[simp] theorem Ctx.setSeqr_mx (c : Ctx) (q : Sq) (x : Seqr) : (c.setSeqr q x).mx = c.mx := by cases q <;> rfl
@[simp] theorem Ctx.onSeqr_mx (c : Ctx) (q : Sq) (g : Seqr → Seqr) : (c.onSeqr q g).mx = c.mx :=
  c.setSeqr_mx q _
@[simp] theorem Ctx.setSeqr_offers (c : Ctx) (q : Sq) (x : Seqr) : (c.setSeqr q x).offers = c.offers := by cases q <;> rfl
@[simp] theorem Ctx.onSeqr_offers (c : Ctx) (q : Sq) (g : Seqr → Seqr) : (c.onSeqr q g).offers = c.offers :=
  c.setSeqr_offers q _
@[simp] theorem Ctx.setSeqr_marks (c : Ctx) (q : Sq) (x : Seqr) : (c.setSeqr q x).marks = c.marks := by cases q <;> rfl
@[simp] theorem Ctx.onSeqr_marks (c : Ctx) (q : Sq) (g : Seqr → Seqr) : (c.onSeqr q g).marks = c.marks :=
  c.setSeqr_marks q _
@[simp] theorem Ctx.setSeqr_wins (c : Ctx) (q : Sq) (x : Seqr) : (c.setSeqr q x).wins = c.wins := by cases q <;> rfl
@[simp] theorem Ctx.onSeqr_wins (c : Ctx) (q : Sq) (g : Seqr → Seqr) : (c.onSeqr q g).wins = c.wins :=
  c.setSeqr_wins q _
@[simp] theorem Ctx.setSeqr_leg (c : Ctx) (q : Sq) (x : Seqr) : (c.setSeqr q x).leg = c.leg := by cases q <;> rfl
@[simp] theorem Ctx.onSeqr_leg (c : Ctx) (q : Sq) (g : Seqr → Seqr) : (c.onSeqr q g).leg = c.leg :=
  c.setSeqr_leg q _
@[simp] theorem Ctx.setSeqr_legs (c : Ctx) (q : Sq) (x : Seqr) : (c.setSeqr q x).legs = c.legs := by cases q <;> rfl
@[simp] theorem Ctx.onSeqr_legs (c : Ctx) (q : Sq) (g : Seqr → Seqr) : (c.onSeqr q g).legs = c.legs :=
  c.setSeqr_legs q _
@[simp] theorem Ctx.setSeqr_ended (c : Ctx) (q : Sq) (x : Seqr) : (c.setSeqr q x).ended = c.ended := by cases q <;> rfl
@[simp] theorem Ctx.onSeqr_ended (c : Ctx) (q : Sq) (g : Seqr → Seqr) : (c.onSeqr q g).ended = c.ended :=
  c.setSeqr_ended q _
@[simp] theorem Ctx.setSeqr_pend (c : Ctx) (q : Sq) (x : Seqr) : (c.setSeqr q x).pend = c.pend := by cases q <;> rfl
@[simp] theorem Ctx.onSeqr_pend (c : Ctx) (q : Sq) (g : Seqr → Seqr) : (c.onSeqr q g).pend = c.pend :=
  c.setSeqr_pend q _
@[simp] theorem Ctx.setSeqr_again (c : Ctx) (q : Sq) (x : Seqr) : (c.setSeqr q x).again = c.again := by cases q <;> rfl
@[simp] theorem Ctx.onSeqr_again (c : Ctx) (q : Sq) (g : Seqr → Seqr) : (c.onSeqr q g).again = c.again :=
  c.setSeqr_again q _
@[simp] theorem Ctx.setSeqr_back (c : Ctx) (q : Sq) (x : Seqr) : (c.setSeqr q x).back = c.back := by cases q <;> rfl
@[simp] theorem Ctx.onSeqr_back (c : Ctx) (q : Sq) (g : Seqr → Seqr) : (c.onSeqr q g).back = c.back :=
  c.setSeqr_back q _
@[simp] theorem Ctx.setSeqr_waitm (c : Ctx) (q : Sq) (x : Seqr) : (c.setSeqr q x).waitm = c.waitm := by cases q <;> rfl
@[simp] theorem Ctx.onSeqr_waitm (c : Ctx) (q : Sq) (g : Seqr → Seqr) : (c.onSeqr q g).waitm = c.waitm :=
  c.setSeqr_waitm q _
@[simp] theorem Ctx.setSeqr_hold (c : Ctx) (q : Sq) (x : Seqr) : (c.setSeqr q x).hold = c.hold := by cases q <;> rfl
@[simp] theorem Ctx.onSeqr_hold (c : Ctx) (q : Sq) (g : Seqr → Seqr) : (c.onSeqr q g).hold = c.hold :=
  c.setSeqr_hold q _
@[simp] theorem Ctx.setSeqr_impr (c : Ctx) (q : Sq) (x : Seqr) : (c.setSeqr q x).impr = c.impr := by cases q <;> rfl
@[simp] theorem Ctx.onSeqr_impr (c : Ctx) (q : Sq) (g : Seqr → Seqr) : (c.onSeqr q g).impr = c.impr :=
  c.setSeqr_impr q _
@[simp] theorem Ctx.setSeqr_trap (c : Ctx) (q : Sq) (x : Seqr) : (c.setSeqr q x).trap = c.trap := by cases q <;> rfl
@[simp] theorem Ctx.onSeqr_trap (c : Ctx) (q : Sq) (g : Seqr → Seqr) : (c.onSeqr q g).trap = c.trap :=
  c.setSeqr_trap q _
@[simp] theorem Ctx.setSeqr_listed (c : Ctx) (q : Sq) (x : Seqr) : (c.setSeqr q x).listed = c.listed := by cases q <;> rfl
@[simp] theorem Ctx.onSeqr_listed (c : Ctx) (q : Sq) (g : Seqr → Seqr) : (c.onSeqr q g).listed = c.listed :=
  c.setSeqr_listed q _
@[simp] theorem Ctx.setSeqr_listOv (c : Ctx) (q : Sq) (x : Seqr) : (c.setSeqr q x).listOv = c.listOv := by cases q <;> rfl
@[simp] theorem Ctx.onSeqr_listOv (c : Ctx) (q : Sq) (g : Seqr → Seqr) : (c.onSeqr q g).listOv = c.listOv :=
  c.setSeqr_listOv q _
@[simp] theorem Ctx.setSeqr_halting (c : Ctx) (q : Sq) (x : Seqr) : (c.setSeqr q x).halting = c.halting := by cases q <;> rfl
@[simp] theorem Ctx.onSeqr_halting (c : Ctx) (q : Sq) (g : Seqr → Seqr) : (c.onSeqr q g).halting = c.halting :=
  c.setSeqr_halting q _
@[simp] theorem Ctx.setSeqr_want (c : Ctx) (q : Sq) (x : Seqr) : (c.setSeqr q x).want = c.want := by cases q <;> rfl
@[simp] theorem Ctx.onSeqr_want (c : Ctx) (q : Sq) (g : Seqr → Seqr) : (c.onSeqr q g).want = c.want :=
  c.setSeqr_want q _
@[simp] theorem Ctx.setSeqr_leaving (c : Ctx) (q : Sq) (x : Seqr) : (c.setSeqr q x).leaving = c.leaving := by cases q <;> rfl
@[simp] theorem Ctx.setSeqr_abop (c : Ctx) (q : Sq) (x : Seqr) : (c.setSeqr q x).abop = c.abop := by cases q <;> rfl
@[simp] theorem Ctx.onSeqr_leaving (c : Ctx) (q : Sq) (g : Seqr → Seqr) : (c.onSeqr q g).leaving = c.leaving :=
  c.setSeqr_leaving q _
@[simp] theorem Ctx.onSeqr_abop (c : Ctx) (q : Sq) (g : Seqr → Seqr) : (c.onSeqr q g).abop = c.abop :=
  c.setSeqr_abop q _
@[simp] theorem Ctx.setSeqr_fresh (c : Ctx) (q : Sq) (x : Seqr) : (c.setSeqr q x).fresh = c.fresh := by cases q <;> rfl
@[simp] theorem Ctx.onSeqr_fresh (c : Ctx) (q : Sq) (g : Seqr → Seqr) : (c.onSeqr q g).fresh = c.fresh :=
  c.setSeqr_fresh q _
@[simp] theorem Ctx.setSeqr_seen (c : Ctx) (q : Sq) (x : Seqr) : (c.setSeqr q x).seen = c.seen := by cases q <;> rfl
@[simp] theorem Ctx.onSeqr_seen (c : Ctx) (q : Sq) (g : Seqr → Seqr) : (c.onSeqr q g).seen = c.seen :=
  c.setSeqr_seen q _
@[simp] theorem Ctx.setSeqr_sp (c : Ctx) (q : Sq) (x : Seqr) : (c.setSeqr q x).sp = c.sp := by cases q <;> rfl
@[simp] theorem Ctx.onSeqr_sp (c : Ctx) (q : Sq) (g : Seqr → Seqr) : (c.onSeqr q g).sp = c.sp :=
  c.setSeqr_sp q _
@[simp] theorem Ctx.setSeqr_can (c : Ctx) (q : Sq) (x : Seqr) : (c.setSeqr q x).can = c.can := by cases q <;> rfl
@[simp] theorem Ctx.onSeqr_can (c : Ctx) (q : Sq) (g : Seqr → Seqr) : (c.onSeqr q g).can = c.can :=
  c.setSeqr_can q _
@[simp] theorem Ctx.setSeqr_decl (c : Ctx) (q : Sq) (x : Seqr) : (c.setSeqr q x).decl = c.decl := by cases q <;> rfl
@[simp] theorem Ctx.onSeqr_decl (c : Ctx) (q : Sq) (g : Seqr → Seqr) : (c.onSeqr q g).decl = c.decl :=
  c.setSeqr_decl q _
@[simp] theorem Ctx.setSeqr_bills (c : Ctx) (q : Sq) (x : Seqr) : (c.setSeqr q x).bills = c.bills := by cases q <;> rfl
@[simp] theorem Ctx.onSeqr_bills (c : Ctx) (q : Sq) (g : Seqr → Seqr) : (c.onSeqr q g).bills = c.bills :=
  c.setSeqr_bills q _
@[simp] theorem Ctx.setSeqr_inv (c : Ctx) (q : Sq) (x : Seqr) : (c.setSeqr q x).inv = c.inv := by cases q <;> rfl
@[simp] theorem Ctx.onSeqr_inv (c : Ctx) (q : Sq) (g : Seqr → Seqr) : (c.onSeqr q g).inv = c.inv :=
  c.setSeqr_inv q _
@[simp] theorem Ctx.setSeqr_self (c : Ctx) (q : Sq) (x : Seqr) : (c.setSeqr q x).seqr q = x := by cases q <;> rfl
theorem Ctx.setSeqr_other (c : Ctx) {q r : Sq} (x : Seqr) (hr : r ≠ q) : (c.setSeqr q x).seqr r = c.seqr r := by
  cases q <;> cases r <;> first | rfl | exact absurd rfl hr
@[simp] theorem Ctx.onSeqr_self (c : Ctx) (q : Sq) (g : Seqr → Seqr) : (c.onSeqr q g).seqr q = g (c.seqr q) :=
  c.setSeqr_self q _
theorem Ctx.onSeqr_other (c : Ctx) {q r : Sq} (g : Seqr → Seqr) (hr : r ≠ q) : (c.onSeqr q g).seqr r = c.seqr r :=
  c.setSeqr_other _ hr
@[simp] theorem Ctx.launchResult_seqr (c : Ctx) (f : Flight) (q : Sq) : (c.launchResult f).seqr q = c.seqr q := by
  cases q <;> rfl
@[simp] theorem Ctx.onAll_seqr (c : Ctx) (f : Seqr → Seqr) (q : Sq) : (c.onAll f).seqr q = f (c.seqr q) := by
  cases q <;> rfl

/-! ### Seqr.setReg, Seqr.setPred, Seqr.setLc, Seqr.latch -/

@[simp] theorem Seqr.setReg_pc (x : Seqr) (n : BitVec 5) (v : Word) : (x.setReg n v).pc = x.pc := by
  unfold Seqr.setReg; split <;> rfl
@[simp] theorem Seqr.setPred_pc (x : Seqr) (n : BitVec 3) (b : Bool) : (x.setPred n b).pc = x.pc := by
  unfold Seqr.setPred; split <;> rfl
@[simp] theorem Seqr.setLc_pc (x : Seqr) (n : BitVec 2) (v : Word) : (x.setLc n v).pc = x.pc := rfl
@[simp] theorem Seqr.latch_pc (x : Seqr) (l : Latch) : (x.latch l).pc = x.pc := rfl
@[simp] theorem Seqr.setReg_epc (x : Seqr) (n : BitVec 5) (v : Word) : (x.setReg n v).epc = x.epc := by
  unfold Seqr.setReg; split <;> rfl
@[simp] theorem Seqr.setPred_epc (x : Seqr) (n : BitVec 3) (b : Bool) : (x.setPred n b).epc = x.epc := by
  unfold Seqr.setPred; split <;> rfl
@[simp] theorem Seqr.setLc_epc (x : Seqr) (n : BitVec 2) (v : Word) : (x.setLc n v).epc = x.epc := rfl
@[simp] theorem Seqr.latch_epc (x : Seqr) (l : Latch) : (x.latch l).epc = x.epc := rfl
@[simp] theorem Seqr.setPred_regs (x : Seqr) (n : BitVec 3) (b : Bool) : (x.setPred n b).regs = x.regs := by
  unfold Seqr.setPred; split <;> rfl
@[simp] theorem Seqr.setLc_regs (x : Seqr) (n : BitVec 2) (v : Word) : (x.setLc n v).regs = x.regs := rfl
@[simp] theorem Seqr.latch_regs (x : Seqr) (l : Latch) : (x.latch l).regs = x.regs := rfl
@[simp] theorem Seqr.setReg_preds (x : Seqr) (n : BitVec 5) (v : Word) : (x.setReg n v).preds = x.preds := by
  unfold Seqr.setReg; split <;> rfl
@[simp] theorem Seqr.setLc_preds (x : Seqr) (n : BitVec 2) (v : Word) : (x.setLc n v).preds = x.preds := rfl
@[simp] theorem Seqr.latch_preds (x : Seqr) (l : Latch) : (x.latch l).preds = x.preds := rfl
@[simp] theorem Seqr.setReg_lc (x : Seqr) (n : BitVec 5) (v : Word) : (x.setReg n v).lc = x.lc := by
  unfold Seqr.setReg; split <;> rfl
@[simp] theorem Seqr.setPred_lc (x : Seqr) (n : BitVec 3) (b : Bool) : (x.setPred n b).lc = x.lc := by
  unfold Seqr.setPred; split <;> rfl
@[simp] theorem Seqr.latch_lc (x : Seqr) (l : Latch) : (x.latch l).lc = x.lc := rfl
@[simp] theorem Seqr.setReg_loops (x : Seqr) (n : BitVec 5) (v : Word) : (x.setReg n v).loops = x.loops := by
  unfold Seqr.setReg; split <;> rfl
@[simp] theorem Seqr.setPred_loops (x : Seqr) (n : BitVec 3) (b : Bool) : (x.setPred n b).loops = x.loops := by
  unfold Seqr.setPred; split <;> rfl
@[simp] theorem Seqr.setLc_loops (x : Seqr) (n : BitVec 2) (v : Word) : (x.setLc n v).loops = x.loops := rfl
@[simp] theorem Seqr.latch_loops (x : Seqr) (l : Latch) : (x.latch l).loops = x.loops := rfl
@[simp] theorem Seqr.setReg_latches (x : Seqr) (n : BitVec 5) (v : Word) : (x.setReg n v).latches = x.latches := by
  unfold Seqr.setReg; split <;> rfl
@[simp] theorem Seqr.setPred_latches (x : Seqr) (n : BitVec 3) (b : Bool) : (x.setPred n b).latches = x.latches := by
  unfold Seqr.setPred; split <;> rfl
@[simp] theorem Seqr.setLc_latches (x : Seqr) (n : BitVec 2) (v : Word) : (x.setLc n v).latches = x.latches := rfl
@[simp] theorem Seqr.setReg_run (x : Seqr) (n : BitVec 5) (v : Word) : (x.setReg n v).run = x.run := by
  unfold Seqr.setReg; split <;> rfl
@[simp] theorem Seqr.setPred_run (x : Seqr) (n : BitVec 3) (b : Bool) : (x.setPred n b).run = x.run := by
  unfold Seqr.setPred; split <;> rfl
@[simp] theorem Seqr.setLc_run (x : Seqr) (n : BitVec 2) (v : Word) : (x.setLc n v).run = x.run := rfl
@[simp] theorem Seqr.latch_run (x : Seqr) (l : Latch) : (x.latch l).run = x.run := rfl
@[simp] theorem Seqr.setReg_cycHi (x : Seqr) (n : BitVec 5) (v : Word) : (x.setReg n v).cycHi = x.cycHi := by
  unfold Seqr.setReg; split <;> rfl
@[simp] theorem Seqr.setPred_cycHi (x : Seqr) (n : BitVec 3) (b : Bool) : (x.setPred n b).cycHi = x.cycHi := by
  unfold Seqr.setPred; split <;> rfl
@[simp] theorem Seqr.setLc_cycHi (x : Seqr) (n : BitVec 2) (v : Word) : (x.setLc n v).cycHi = x.cycHi := rfl
@[simp] theorem Seqr.latch_cycHi (x : Seqr) (l : Latch) : (x.latch l).cycHi = x.cycHi := rfl
@[simp] theorem Seqr.setReg_bcast (x : Seqr) (n : BitVec 5) (v : Word) : (x.setReg n v).bcast = x.bcast := by
  unfold Seqr.setReg; split <;> rfl
@[simp] theorem Seqr.setPred_bcast (x : Seqr) (n : BitVec 3) (b : Bool) : (x.setPred n b).bcast = x.bcast := by
  unfold Seqr.setPred; split <;> rfl
@[simp] theorem Seqr.setLc_bcast (x : Seqr) (n : BitVec 2) (v : Word) : (x.setLc n v).bcast = x.bcast := rfl
@[simp] theorem Seqr.latch_bcast (x : Seqr) (l : Latch) : (x.latch l).bcast = x.bcast := rfl
@[simp] theorem Seqr.setReg_armed (x : Seqr) (n : BitVec 5) (v : Word) : (x.setReg n v).armed = x.armed := by
  unfold Seqr.setReg; split <;> rfl
@[simp] theorem Seqr.setPred_armed (x : Seqr) (n : BitVec 3) (b : Bool) : (x.setPred n b).armed = x.armed := by
  unfold Seqr.setPred; split <;> rfl
@[simp] theorem Seqr.setLc_armed (x : Seqr) (n : BitVec 2) (v : Word) : (x.setLc n v).armed = x.armed := rfl
@[simp] theorem Seqr.latch_armed (x : Seqr) (l : Latch) : (x.latch l).armed = x.armed := rfl
@[simp] theorem Seqr.setReg_owed (x : Seqr) (n : BitVec 5) (v : Word) : (x.setReg n v).owed = x.owed := by
  unfold Seqr.setReg; split <;> rfl
@[simp] theorem Seqr.setPred_owed (x : Seqr) (n : BitVec 3) (b : Bool) : (x.setPred n b).owed = x.owed := by
  unfold Seqr.setPred; split <;> rfl
@[simp] theorem Seqr.setLc_owed (x : Seqr) (n : BitVec 2) (v : Word) : (x.setLc n v).owed = x.owed := rfl
@[simp] theorem Seqr.latch_owed (x : Seqr) (l : Latch) : (x.latch l).owed = x.owed := rfl
@[simp] theorem Seqr.setReg_once (x : Seqr) (n : BitVec 5) (v : Word) : (x.setReg n v).once = x.once := by
  unfold Seqr.setReg; split <;> rfl
@[simp] theorem Seqr.setPred_once (x : Seqr) (n : BitVec 3) (b : Bool) : (x.setPred n b).once = x.once := by
  unfold Seqr.setPred; split <;> rfl
@[simp] theorem Seqr.setLc_once (x : Seqr) (n : BitVec 2) (v : Word) : (x.setLc n v).once = x.once := rfl
@[simp] theorem Seqr.latch_once (x : Seqr) (l : Latch) : (x.latch l).once = x.once := rfl

end Sys2Proof.Machine
end

