-- ==== Sys2Proof/Laws/Words.lean ====
section
/-!
SUPPORT. What the shared operations of words can do: one lemma per operation, cited instead of unfolding it.
-/
namespace Sys2Proof.Machine

/-! ## begun -/

/-- The fields that the start of a word leaves alone; it takes the header wait and opens a control word's leg. -/
theorem Ctx.withLeg_seqr (c : Ctx) (q : Sq) : c.withLeg.seqr q = c.seqr q := by
  unfold Ctx.withLeg; split <;> cases q <;> rfl

theorem Ctx.takeSem_seqr (c : Ctx) (n : BitVec 8) (k : Nat) (q : Sq) : (c.takeSem n k).seqr q = c.seqr q := by
  unfold Ctx.takeSem; split <;> cases q <;> rfl

@[simp] theorem Ctx.begun_seqr (c : Ctx) (q : Sq) (h : Hd) (r : Sq) : (c.begun q h).seqr r = c.seqr r := by
  unfold Ctx.begun
  by_cases hq : q = .ctl <;> by_cases hw : h.wait = 0xFF <;> simp only [hq, hw, if_true, if_false, Ctx.withLeg_seqr, Ctx.takeSem_seqr]

theorem Ctx.begun_cases (c : Ctx) (q : Sq) (h : Hd) :
    ∃ (l : Option Leg) (a b : SMap (BitVec 20)), c.begun q h = { c with leg := l, sems := a, semT := b } := by
  have hw : ∀ d : Ctx, ∃ l : Option Leg, d.withLeg = { d with leg := l } := fun d => by
    unfold Ctx.withLeg; split
    · exact ⟨d.leg, rfl⟩
    · exact ⟨_, rfl⟩
  have ht : ∃ a b, (if h.wait = 0xFF then c else c.takeSem h.wait 1) = { c with sems := a, semT := b } := by
    unfold Ctx.takeSem Ctx.setSem; split
    · exact ⟨c.sems, c.semT, rfl⟩
    · split
      · exact ⟨_, _, rfl⟩
      · exact ⟨_, _, rfl⟩
  obtain ⟨a, b, hab⟩ := ht
  unfold Ctx.begun
  simp only [hab]
  split
  · obtain ⟨l, hl⟩ := hw { c with sems := a, semT := b }
    exact ⟨l, a, b, hl⟩
  · exact ⟨c.leg, a, b, rfl⟩

@[simp] theorem Ctx.begun_flight (c : Ctx) (q : Sq) (h : Hd) : (c.begun q h).flight = c.flight := by
  obtain ⟨l, a, b, e⟩ := c.begun_cases q h; rw [e]
@[simp] theorem Ctx.begun_dmode (c : Ctx) (q : Sq) (h : Hd) : (c.begun q h).dmode = c.dmode := by
  obtain ⟨l, a, b, e⟩ := c.begun_cases q h; rw [e]
@[simp] theorem Ctx.begun_t (c : Ctx) (q : Sq) (h : Hd) : (c.begun q h).t = c.t := by
  obtain ⟨l, a, b, e⟩ := c.begun_cases q h; rw [e]
@[simp] theorem Ctx.begun_cid (c : Ctx) (q : Sq) (h : Hd) : (c.begun q h).cid = c.cid := by
  obtain ⟨l, a, b, e⟩ := c.begun_cases q h; rw [e]
@[simp] theorem Ctx.begun_kind (c : Ctx) (q : Sq) (h : Hd) : (c.begun q h).kind = c.kind := by
  obtain ⟨l, a, b, e⟩ := c.begun_cases q h; rw [e]
@[simp] theorem Ctx.begun_stat (c : Ctx) (q : Sq) (h : Hd) : (c.begun q h).stat = c.stat := by
  obtain ⟨l, a, b, e⟩ := c.begun_cases q h; rw [e]
@[simp] theorem Ctx.begun_joined (c : Ctx) (q : Sq) (h : Hd) : (c.begun q h).joined = c.joined := by
  obtain ⟨l, a, b, e⟩ := c.begun_cases q h; rw [e]
@[simp] theorem Ctx.begun_checkMode (c : Ctx) (q : Sq) (h : Hd) : (c.begun q h).checkMode = c.checkMode := by
  simp [Ctx.checkMode]
@[simp] theorem Ctx.begun_regPending (c : Ctx) (q : Sq) (h : Hd) (r : Sq) (n : BitVec 5) :
    (c.begun q h).regPending r n = c.regPending r n := by simp [Ctx.regPending]
@[simp] theorem Ctx.begun_predPending (c : Ctx) (q : Sq) (h : Hd) (r : Sq) (n : BitVec 3) :
    (c.begun q h).predPending r n = c.predPending r n := by simp [Ctx.predPending]
@[simp] theorem Ctx.begun_isTask (c : Ctx) (q : Sq) (h : Hd) : (c.begun q h).isTask = c.isTask := by simp [Ctx.isTask]
@[simp] theorem Ctx.begun_isHandler (c : Ctx) (q : Sq) (h : Hd) : (c.begun q h).isHandler = c.isHandler := by
  simp [Ctx.isHandler]
@[simp] theorem Ctx.begun_inInverse (c : Ctx) (q : Sq) (h : Hd) : (c.begun q h).inInverse = c.inInverse := by
  simp [Ctx.inInverse]

/-! ## runWord -/

/-- A word that reaches its body and whose guard is true (or that always has it) runs its body. -/
theorem runWord_runs {h : Hd} {len : Nat} {always : Bool} {s : State} {c : Ctx} {body : State → Ctx → Res}
    (hr : s.reaches c h) (hg : (c.seqr s.focus.2).guard h = true ∨ always = true) :
    runWord h len always s body = settle s c s.focus.2 len h.sig (body s (c.begun s.focus.2 h)) := by
  obtain ⟨ha, hb, hw, hc, hp⟩ := hr
  unfold runWord runWordIn
  have hw' : (h.wait != 0xFF && !c.waitOk h.wait 1) = false := by
    rcases hw with hw | hw
    · simp [hw]
    · simp [hw]
  have hg' : ((c.seqr s.focus.2).guard h || always) = true := by simpa using hg
  simp only [ha, hb, hw', hc, hp, hg', Bool.false_and, if_true, if_false, Bool.false_eq_true]

/-- A word whose guard is false does nothing but its header's wait and signal. -/
theorem runWord_skips {h : Hd} {len : Nat} {s : State} {c : Ctx} {body : State → Ctx → Res}
    (hr : s.reaches c h) (hg : (c.seqr s.focus.2).guard h = false) :
    runWord h len false s body = .next (s.issued ((c.begun s.focus.2 h).retire s.focus.2 len .none h.sig)) := by
  obtain ⟨ha, hb, hw, hc, hp⟩ := hr
  unfold runWord runWordIn
  have hw' : (h.wait != 0xFF && !c.waitOk h.wait 1) = false := by
    rcases hw with hw | hw
    · simp [hw]
    · simp [hw]
  simp only [ha, hb, hw', hc, hp, hg, Bool.false_and, if_false, Bool.false_eq_true, Bool.or_self]

/-- Everything that the issue of a word can do. -/
theorem runWord_cases {h : Hd} {len : Nat} {always : Bool} {s : State} {body : State → Ctx → Res} {o : Out}
    (ho : runWord h len always s body = o) :
    (s.activeCtx s.focus.1 = none ∧ o = .fault .noContext) ∨ o = .next s.stalled ∨
    ∃ c, s.activeCtx s.focus.1 = some c ∧
      (o = .next (s.issued ((c.begun s.focus.2 h).retire s.focus.2 len .none h.sig)) ∨
       o = settle s c s.focus.2 len h.sig (.trap s (mkTrap 0x09 0)) ∨
       o = settle s c s.focus.2 len h.sig (body s (c.begun s.focus.2 h))) := by
  subst ho
  unfold runWord runWordIn
  cases ha : s.activeCtx s.focus.1 with
  | none => exact .inl ⟨rfl, rfl⟩
  | some c =>
    dsimp only
    split
    · exact .inr (.inl rfl)
    · split
      · exact .inr (.inl rfl)
      · refine .inr (.inr ⟨c, rfl, ?_⟩)
        split
        · exact .inl rfl
        · split
          · exact .inr (.inl rfl)
          · split
            · exact .inr (.inr rfl)
            · exact .inl rfl

/-! ## Operands and results -/

/-- Registers that can be read: outside check mode all, under it those without a result in flight (R59). -/
theorem reading_ok {s : State} {c : Ctx} {rs : List (BitVec 5)} {k : Seqr → Res}
    (h : (c.checkMode && rs.any (c.regPending s.focus.2)) = false) : reading s c rs k = k (c.seqr s.focus.2) := by
  unfold reading; rw [h]; rfl

theorem scalarWord_runs {h : Hd} {s : State} {c : Ctx} {d : BitVec 5} {rs : List (BitVec 5)} {lat : Nat} {f : Seqr → Word}
    (hr : s.reaches c h) (hg : (c.seqr s.focus.2).guard h = true)
    (hp : (c.checkMode && rs.any (c.regPending s.focus.2)) = false) :
    scalarWord h s d rs lat f = .next (s.issued (((c.begun s.focus.2 h).scalar s.focus.2 d (f (c.seqr s.focus.2)) lat).retire
      s.focus.2 1 .none h.sig)) := by
  unfold scalarWord
  rw [runWord_runs hr (.inl hg), reading_ok (by simpa using hp)]
  simp [settle, Res.ok]

theorem pairWord_runs {h : Hd} {s : State} {c : Ctx} {d : BitVec 5} {rs : List (BitVec 5)} {lat : Nat} {f : Seqr → DWord}
    (hr : s.reaches c h) (hg : (c.seqr s.focus.2).guard h = true)
    (hp : (c.checkMode && rs.any (c.regPending s.focus.2)) = false) :
    pairWord h s d rs lat f = .next (s.issued (((c.begun s.focus.2 h).pairFlag s.free s.focus.2 d (f (c.seqr s.focus.2)) lat
      0).retire s.focus.2 1 .none h.sig)) := by
  unfold pairWord
  rw [runWord_runs hr (.inl hg), reading_ok (by simpa using hp)]
  simp [settle, Res.ok]

theorem predWord_runs {h : Hd} {s : State} {c : Ctx} {p : BitVec 3} {rs : List (BitVec 5)} {f : Seqr → Bool}
    (hr : s.reaches c h) (hg : (c.seqr s.focus.2).guard h = true)
    (hp : (c.checkMode && rs.any (c.regPending s.focus.2)) = false) :
    predWord h s p rs f = .next (s.issued (((c.begun s.focus.2 h).predResult s.free s.focus.2 p (f (c.seqr s.focus.2))
      1).retire s.focus.2 1 .none h.sig)) := by
  unfold predWord
  rw [runWord_runs hr (.inl hg), reading_ok (by simpa using hp)]
  simp [settle, Res.ok]

/-! ## Registers -/

/-- s0 reads zero (R48). -/
@[simp] theorem Seqr.reg_zero (x : Seqr) : x.reg 0 = 0 := rfl

/-- Reading the scalar register just written; a write of s0 is discarded (R109). -/
theorem Seqr.reg_setReg (x : Seqr) (n k : BitVec 5) (v : Word) :
    (x.setReg n v).reg k = if k = n ∧ n ≠ 0 then v else x.reg k := by
  unfold Seqr.setReg Seqr.reg
  by_cases hn : n = 0
  · simp [hn]
  · rw [if_neg hn]
    by_cases hk : k = n
    · subst hk; rw [if_neg hn, if_pos ⟨rfl, hn⟩]; exact SMap.get_put_self 0 x.regs _ v
    · rw [if_neg (c := k = n ∧ n ≠ 0) (fun e => hk e.1)]
      by_cases h0 : k = 0
      · rw [if_pos h0, if_pos h0]
      · rw [if_neg h0, if_neg h0]
        exact SMap.get_put_other 0 x.regs v (fun e => hk (BitVec.eq_of_toNat_eq e))

/-- p0 reads true (R48). -/
@[simp] theorem Seqr.pred_zero (x : Seqr) : x.pred 0 = true := rfl

end Sys2Proof.Machine
end

