-- ==== Sys2Proof/Tests/Slice0.lean ====
section
/-!
SUPPORT. Tests of the model: well-formedness, words of the manual decoded, one step of words whose result the manual gives,
and for every statement with hypotheses a state and operands that meet them.
-/
namespace Sys2Proof.Tests
open Sys2Proof Sys2Proof.Machine Sys2Proof.Claims
set_option Elab.async false

/-! ## Headers, operands, places -/

def nar : Hd := { wide := false, pneg := false, pred := 0, wait := 0xFF, sig := 0xFF }
def gd (pneg : Bool) (pred : BitVec 3) : Hd := { nar with pneg := pneg, pred := pred }
def wd (wait sig : BitVec 8) : Hd := { wide := true, pneg := false, pred := 0, wait := wait, sig := sig }
def wn : Hd := wd 0xFF 0xFF
def mem (reg : BitVec 5) (base : BitVec 4) (off : BitVec 24) : MemF :=
  { reg := reg, base := base, size := .b32, scope := .core, ord := false, acq := false, rel := false, off := off, tier := .any
    loc := 0 }
def cp (tsp fsp : Space) (toP : BitVec 4) (toOff : BitVec 24) (fromP : BitVec 4) (fromOff : BitVec 24) (len : BitVec 5) : CopyF :=
  { tsp := tsp, fsp := fsp, toP := toP, toOff := toOff, fromP := fromP, fromOff := fromOff, len := len, b6 := false, acq := false
    rel := false, scope := .core, chain := none }
def mx : MxF :=
  { af := .fp32, bf := .fp32, acc := 0, redun := false, tstart := false, alay := .row, ovw := false, xsel := false, adesc := 0
    aoff := 0, bbase := 0, ks := 0, mdesc := 0, sp := .dense, moff := 0, bpb := 0, rnd := .rne, imm := 0 }
def v (n : BitVec 5) : VOp := .reg .v 0 n
def sr (n : BitVec 5) : VOp := .reg .s 0 n
def st (n : BitVec 6) : VOp := .stream n 0
def vx (ty : Fmt) (d a b : VOp) : VecF := { ty := ty, d := d, a := a, b := b, nw := false, rnd := .rne }
def no : VOp := .reg .v 0 0

/-- The words from the bytes of `w` on, as sequencer `q` reads them at index 8192, are the instruction. -/
def reads (q : Sq) (w : Nat) (i : Instr) : Bool :=
  match decode q 8000 (bytesOfNat 36 w) with
  | .ok (j, n) => j == i && n == i.len
  | .error _ => false

/-- The bits are no instruction. -/
def refuses (q : Sq) (w : Nat) : Bool :=
  match decode q 8000 (bytesOfNat 36 w) with
  | .ok _ => false
  | .error _ => true

/-! ## Decoding: the words that the entries of 05 and 22 to 26 give for their examples, or worked out from R106 to R130 -/

theorem test_decode_alu : [
    (0x040C6400, .add nar 6 6 8), (0x04252601, .sub nar 18 18 12), (0x040C7402, .mul nar 6 7 8), (0x040C7403, .mulh nar 6 7 8),
    (0x040C7404, .mulhn nar 6 7 8), (0x040C7405, .div nar 6 7 8), (0x040C7406, .divn nar 6 7 8), (0x040C7407, .mod nar 6 7 8),
    (0x040C7408, .modn nar 6 7 8), (0x04129509, .and nar 9 9 10), (0x0412950A, .or nar 9 9 10), (0x0412950B, .xor nar 9 9 10),
    (0x0406700C, .not nar 3 7), (0x040C740D, .shl nar 6 7 8), (0x040C740E, .shr nar 6 7 8), (0x040C740F, .sra nar 6 7 8),
    (0x0418C890, .min nar 12 12 17), (0x0418C891, .minn nar 12 12 17), (0x0418C812, .max nar 12 12 16),
    (0x0418C813, .maxn nar 12 12 16), (0x04067014, .clz nar 3 7), (0x04067015, .popc nar 3 7), (0x04332016, .mov nar 25 18),
    (0x04104397, .addp nar 8 4 7), (0x04108398, .subp nar 8 8 7), (0x04106399, .madp nar 8 6 7),
    (0x080C7403, .sel nar 6 7 8 3)].all (fun x : Nat × Instr => reads .ctl x.1 x.2) = true := by decide

theorem test_decode_immediate : [
    (0x140C6FFF, .addi nar 6 6 0xFFF), (0x1818C400, .subi nar 12 12 0x400), (0x1C129001, .andi nar 9 9 1),
    (0x20129080, .ori nar 9 9 0x80), (0x24129080, .xori nar 9 9 0x80), (0x28141008, .shli nar 10 1 8), (0x2C0C7003, .shri nar 6 7 3),
    (0x300C701F, .srai nar 6 7 31), (0x340C8000, .movi nar 6 0x8000), (0x380C0000, .movh nar 6 0),
    (0x0C5B6B80, .cmp (gd false 1) 3 .ge 13 14), (0x10240FFF, .cmpi nar 4 .ltn 1 0x7FF)].all
      (fun x : Nat × Instr => reads .ctl x.1 x.2) = true := by decide

theorem test_decode_flow : [
    (0x4040000D, .br (gd false 1) 13), (0x403FFFF8, .br nar (-8)), (0x45180000, .bra (gd false 4) 12), (0x4C000006, .call nar 6),
    (0x4BFFFFF8, .jmp nar (-8)), (0x50000000, .ret nar), (0x52C00000, .ret (gd true 3)), (0x54038002, .loop nar 0 7 2),
    (0x58100000, .lexit nar 1 false), (0x58180000, .lexit nar 1 true), (0x5C160900, .lbrd nar 11 4 4 0 0 0),
    (0x080100005C0E0540, .lbrd nar 7 2 5 2 0 4), (0xF8020000, .fork nar), (0xF8030000, .join nar), (0xF8010000, .halt nar),
    (0xF8C10000, .halt (gd false 3)), (0xF8000000, .nop nar), (0xBC000123, .trap nar 0x123), (0xBD000007, .trap (gd false 4) 7),
    (0xF80B0000, .dbrk nar), (0xF94B0000, .dbrk (gd false 5)), (0xF8090000, .eret nar)].all
      (fun x : Nat × Instr => reads .ctl x.1 x.2) = true := by decide

theorem test_decode_memory : [
    (0x00000200600E4801, .ld nar { mem 7 2 2 with size := .b16 } true), (0x0000001060165000, .ld nar { mem 11 2 0 with loc := 1 } false),
    (0x0000080068145A40, .ldp nar { mem 10 2 8 with size := .b64, scope := .die, acq := true }),
    (0x00000000640C5000, .st nar (mem 6 2 0)), (0x00000200640EA800, .st nar { mem 7 5 2 with size := .b16 }),
    (0x00000000640C5080, .st nar { mem 6 2 0 with ord := true }), (0x0000C0006C105800, .stp nar { mem 8 2 0xC0 with size := .b64 }),
    (0x00200000700C5000, .amo nar (mem 6 2 0x2000) .add),
    (0x0000080070145B28, .amo nar { mem 10 2 8 with size := .b64, scope := .pkg, rel := true } .swp),
    (0x0000000074105800, .amoc nar { mem 8 2 0 with size := .b64 }), (0x00004000780C5000, .red nar (mem 6 2 0x40) .add),
    (0x00000000780C5B25, .red nar { mem 6 2 0 with size := .b64, scope := .pkg, rel := true } .max),
    (0x000080007C0C4802, .redf nar { mem 6 2 0x80 with size := .b16 } false .bf16),
    (0x000000007C0C9810, .redf nar { mem 6 4 0 with size := .b64 } true .fp32), (0x00010000800C5000, .redo nar (mem 6 2 0x100) .fp32),
    (0x00004000840C5340, .waitm nar { mem 6 2 0x40 with scope := .pkg, acq := true } .eq)].all
      (fun x : Nat × Instr => reads .ctl x.1 x.2) = true := by decide

theorem test_decode_sync : [
    (0x88000001, .sig nar 0 false 1), (0x8A430001, .sig (gd true 1) 12 false 1), (0x88032006, .sig nar 12 true 6),
    (0x883FDFFF, .sig nar 255 false 8191), (0x8C018001, .wait nar 6 false 1), (0x8C00E00C, .wait nar 3 true 12),
    (0x90050C00, .semi nar 20 6), (0x94122800, .semr nar 9 20), (0x980E0000, .cset nar 3 true), (0x9C360000, .cwait nar 13 true),
    (0xA0212A00, .bars nar true .or 9 10), (0xA010E700, .bars nar false .max 7 7), (0xA42C0000, .mark nar 11), (0xA8000000, .fence nar .core),
    (0xA8200000, .fence nar .dom), (0xF8040000, .drain nar), (0xF8050000, .lege nar)].all
      (fun x : Nat × Instr => reads .ctl x.1 x.2) = true := by decide

theorem test_decode_system : [
    (0xAC0C0000, .lnch nar 3), (0xB0126000, .lstat nar 9 3), (0xB4120020, .csrr nar 9 .sticky), (0xB8004041, .csrw nar 4 (.lc 1)),
    (0xB4060031, .csrr nar 3 .cycle), (0xC0180000, .otsk nar 6), (0xC4082040, .abop nar 2 2 0 8), (0xC8080000, .ctbl nar 2),
    (0xCC080000, .tlbi nar 2 .page), (0xCC090000, .tlbi nar 2 .asid), (0xCC020000, .tlbi nar 0 .all), (0xD00C0000, .plld nar 3),
    (0xD4086000, .wcha nar 2 3), (0xD8086000, .wchd nar 2 3), (0xDC080000, .hint nar 2 .rd), (0xDC088000, .hint nar 2 .xl),
    (0xE4090000, .ctxl nar 2 1), (0xE0090000, .ctxs nar 2 1), (0xF80A0000, .plsw nar), (0xF8060000, .abend nar),
    (0xF8860000, .abend (gd false 2)), (0xF8080000, .oabt nar), (0xF8070000, .ocmt nar)].all
      (fun x : Nat × Instr => reads .ctl x.1 x.2) = true := by decide

theorem test_decode_embedded : [
    (0x010FFFF000000000F8000000, .nop wn), (0x010FFFF000000000F8010000, .halt wn), (0x010FFFF000000000F80B0000, .dbrk wn),
    (0x010FFFF000000000F8030000, .join wn), (0x010FFFF00000000050000000, .ret wn), (0x010FFFF00000000088030001, .sig wn 12 false 1),
    (0x010FFFF0000000008C014003, .wait wn 5 false 3), (0x010FFFF00000000058100000, .lexit wn 1 false),
    (0x010FFFF0000000002814_1008, .shli wn 10 1 8), (0x010FFFF00000000004184517, .addp wn 12 4 10),
    (0x010FFFF000000000340C0020, .movi wn 6 0x20)].all (fun x : Nat × Instr => reads .load x.1 x.2) = true := by decide

theorem test_decode_copy : [
    (0x10103145000040400000_03A2, .cpy (wd 3 0x14) { cp .global .sp 5 0x40 4 0 7 with acq := true, scope := .cl }),
    (0x114FF054000100200001_0380, .dup (wd 0xFF 5) (cp .sp .global 4 0x100 2 0x10 7)),
    (0x125FF036000000500000_0300, .gthr (wd 0xFF 3) (cp .sp .global 6 0 5 0 6) true),
    (0x135FF075000000600000_0300, .sctr (wd 0xFF 7) (cp .global .sp 5 0 6 0 6) true),
    (0x145FF284000400400000_0300, .xfer (wd 0xFF 40) (cp .sp .sp 4 0x400 4 0 6)),
    (0x15901FF4000000600000_0300, .canf (wd 1 0xFF) (cp .can .sp 4 0 6 0 6)),
    (0x162FFFF2000300400000_0300, .canr wn (cp .global .can 2 0x300 4 0 6)),
    (0x174FFFF6000000000000_0300, .zfil wn (cp .sp .global 6 0 0 0 6)),
    (0x180FFFF0000007200020_0000, .sstr wn (cp .global .global 0 7 2 0x200 0)),
    (0x190FFFF0000000200400_0300, .spf wn (cp .global .global 0 0 2 0x4000 6)),
    (0x1A0FF140000002200100_0300, .migr (wd 0xFF 20) (cp .global .global 0 2 2 0x1000 6)),
    (0x1B0FF163000000200004_0000, .rqnt (wd 0xFF 22) (cp .global .global 3 0 2 0x40 0))].all
      (fun x : Nat × Instr => reads .store x.1 x.2 || reads .load x.1 x.2) = true := by decide

theorem test_decode_matrix : [
    (0x80220DFF4010000010000400, .mma (wd 13 0xFF) { mx with af := .bf16, bf := .bf16, acc := 1, adesc := 4, bbase := 0x100, ks := 1 }),
    (0x8033FF09900C080020000800, .mma (wd 0xFF 9) { mx with
      af := .e4m3, bf := .e4m3, acc := 2, tstart := true, adesc := 3, aoff := 64, bbase := 0x200, ks := 2 }),
    (0x000006000000000000000000_8233FFFF0208000000000400, .mmab wn { mx with
      af := .e4m3, bf := .e4m3, ovw := true, adesc := 2, ks := 1, bpb := 6 }),
    (0x8122FFFF0004000040000458, .mmas wn { mx with
      af := .bf16, bf := .bf16, adesc := 1, bbase := 0x400, ks := 1, mdesc := 5, sp := .n8 }),
    (0x8375FF1EC018000000001000, .mmts (wd 0xFF 30) { mx with af := .i8, bf := .ts8, acc := 3, adesc := 6, ks := 4 }),
    (0x000006000000000000000000_8433FF1E8220000000000890, .sca (wd 0xFF 30) { mx with
      af := .e4m3, bf := .e4m3, acc := 2, ovw := true, adesc := 8, ks := 2, mdesc := 9, bpb := 6 }),
    (0x8500FFFF4000000000000000, .nrm wn { mx with acc := 1 }),
    (0x0000000FFF80000000000000_8600FFFF0000000000000000, .aclr wn { mx with imm := 0xFFF8 }),
    (0x8720FF0C0004000000000000, .acvt (wd 0xFF 12) { mx with af := .bf16, adesc := 1 }),
    (0x000000600080000000000000_8710FFFF8100000000000000, .acvt wn { mx with af := .fp16, acc := 2, xsel := true, rnd := .rup, imm := 8 }),
    (0x8800FFFFC024000000000000, .ald wn { mx with acc := 3, adesc := 9 }),
    (0x8900FF14C024000000000000, .ast (wd 0xFF 20) { mx with acc := 3, adesc := 9 }),
    (0x8A00FFFF401C000000000000, .setx wn { mx with acc := 1, adesc := 7 }),
    (0x0000000FFEC0000000000000_8A00FFFF4100000000000000, .setx wn { mx with acc := 1, xsel := true, imm := 0xFFEC })].all
      (fun x : Nat × Instr => reads .comp x.1 x.2) = true := by decide

theorem test_decode_vector_arithmetic : [
    (0x470FFFF00001000010000000, .vabs wn (vx .fp32 (v 1) (v 1) no)), (0x489FFFF88000880000000000, .vneg wn (vx .i16 (st 4) (st 4) no)),
    (0x4020CFF00000820008400000, .vadd (wd 12 0xFF) (vx .bf16 (v 0) (st 1) (st 2))),
    (0x402FF15000038A00C2000058, .vadd { wd 0xFF 21 with pneg := true, pred := 2 }
      { vx .bf16 (v 3) (.stream 5 12) (.reg .bl 0 0) with nw := true }),
    (0x411FF0C82000820000000300, .vsub (wd 0xFF 12) (vx .fp16 (st 1) (st 1) (v 3))),
    (0x421FFFF00003800008400000, .vmul wn (vx .fp16 (v 3) (st 0) (st 2))),
    (0x458FFFF00002000026000300, .vmin wn (vx .n8 (v 2) (v 2) (sr 3))), (0x468FFFF00002000026000300, .vmax wn (vx .n8 (v 2) (v 2) (sr 3))),
    (0x490FFFF00004000046000600, .vclmp wn (vx .fp32 (v 4) (v 4) (sr 6))),
    (0x430FFFF00004000010000201, .vfma wn { vx .fp32 (v 4) (v 1) (v 2) with rnd := .rtz }),
    (0x440FFFF00004000010000201, .vfms wn { vx .fp32 (v 4) (v 1) (v 2) with rnd := .rtz }),
    (0x4CCFFFF00001000016000500, .vand wn (vx .n32 (v 1) (v 1) (sr 5))), (0x4DCFFFF00001000016000500, .vor wn (vx .n32 (v 1) (v 1) (sr 5))),
    (0x4ECFFFF00001000016000500, .vxor wn (vx .n32 (v 1) (v 1) (sr 5))), (0x4FAFFFF00002000010000000, .vnot wn (vx .n16 (v 2) (v 1) no)),
    (0x50BFFFF00002000016000500, .vshl wn (vx .i32 (v 2) (v 1) (sr 5))), (0x51BFFFF00002000016000500, .vshr wn (vx .i32 (v 2) (v 1) (sr 5))),
    (0x52BFFFF00002000016000500, .vsra wn (vx .i32 (v 2) (v 1) (sr 5)))].all
      (fun x : Nat × Instr => reads .comp x.1 x.2) = true := by decide

theorem test_decode_vector_other : [
    (0x4A1FFFF40042000016000600, .vcmp wn (vx .fp16 (.reg .m 2 2) (v 1) (sr 6))), (0x4B2FFFF00005000010000200, .vsel wn (vx .bf16 (v 5) (v 1) (v 2))),
    (0x532FFFF00003060010000000, .vcvt wn (vx .bf16 (v 3) (.reg .v 0x300 1) no)),
    (0x533FFFF00003020018800004, .vcvt wn { vx .e4m3 (v 3) (.reg .v 0x100 1) (st 4) with rnd := .sto }),
    (0x542FF0D86000000020000000, .vexp2 (wd 0xFF 13) (vx .bf16 (st 3) (v 2) no)), (0x552FF0D86000000020000000, .vlog2 (wd 0xFF 13) (vx .bf16 (st 3) (v 2) no)),
    (0x562FFFF00005000040000000, .vrcp wn (vx .bf16 (v 5) (v 4) no)), (0x572FFFF00005000040000000, .vrsq wn (vx .bf16 (v 5) (v 4) no)),
    (0x582FFFF00004860000000000, .vsum wn (vx .bf16 (v 4) (st 3) no)), (0x592FFFF00001000000000000, .vrmx wn (vx .bf16 (v 1) (v 0) no)),
    (0x5AAFFFF00002000010000300, .vperm wn (vx .n16 (v 2) (v 1) (v 3))), (0x5B2FFFF00007000010000200, .vshuf wn (vx .bf16 (v 7) (v 1) (v 2)) .zlo),
    (0x5C1FFFF00009600040000000, .vbcst wn (vx .fp16 (v 9) (sr 4) no)), (0x5D2FFFF00003000016000700, .vsld wn (vx .bf16 (v 3) (v 1) (sr 7))),
    (0x5E0FFFF40000400030000000, .vmov wn (vx .fp32 (.reg .m 0 0) (.reg .m 0 3) no)), (0x5F1FFFF00005920040000600, .vgth wn (vx .fp16 (v 5) (.stream 9 4) (v 6))),
    (0x601FFFF92000000050000600, .vsct wn (vx .fp16 (st 9) (v 5) (v 6))),
    (0x610FFFF40060400014000200, .vmsk wn (vx .fp32 (.reg .m 3 0) (.reg .m 0 1) (.reg .m 0 2))), (0x62AFFFF60009400030000000, .vcnt wn (vx .n16 (sr 9) (.reg .m 0 3) no)),
    (0x63AFFFF000066002A0000000, .vidx wn (vx .n16 (v 6) (.reg .s 1 10) no)), (0x641FF0900000800000000000, .vchk (wd 0xFF 9) (vx .fp16 no (st 0) no)),
    (0x650FFFF0000200FC10000000, .vscl wn (vx .fp32 (v 2) (.reg .v 0x7E 1) no)), (0x663FFFF00008041220000000, .vqnt wn (vx .e4m3 (v 8) (.reg .v 0x209 2) no)),
    (0x672FFFF00004061280000000, .vdqn wn (vx .bf16 (v 4) (.reg .v 0x309 8) no)), (0x68AFFFF000076006A6000C00, .rngb wn (vx .n16 (v 7) (.reg .s 3 10) (sr 12)))].all
      (fun x : Nat × Instr => reads .comp x.1 x.2) = true := by decide

/-- Reserved bits, unassigned codes and codes without a meaning are no instruction (R5, R104 to R130). -/
theorem test_decode_refuses : [0x00000000, 0xFFFFFFFF, 0x3C000000, 0x0406701A, 0x0406708C, 0x0C5E6B80, 0xF80C0000, 0xF8000001, 0xF8420000,
    0xA0140000, 0xA8280000, 0xB4120004, 0xDC098000, 0xCC0B0000, 0x5C160000, 0xE40B0000, 0x54038000, 0x600C5802, 0x640C5040].all
      (refuses .ctl) = true := by decide

theorem test_decode_refuses_streams : [(.load, 0x020FFFF000000000F8000000), (.load, 0x010FFFF000000000F8060000), (.store, 0x10103145000040400000_03A3),
    (.load, 0x14D03145000040400000_0302), (.comp, 0x10103145000040400000_03A2), (.store, 0x421FFFF00003800008400000), (.comp, 0x8B00FFFF4000000000000000),
    (.comp, 0x690FFFF00001000010000000), (.comp, 0x402FF15000038A00C2000905), (.comp, 0x8033FF09900C080020000801)].all
      (fun x : Sq × Nat => refuses x.1 x.2) = true := by decide

/-! ## Well-formedness: a term that each check refuses, beside one that it accepts -/

theorem test_wf_accepts : [
    (Sq.ctl, 0, Instr.add nar 1 2 3), (.ctl, 16383, .nop nar), (.ctl, 16382, .ld nar (mem 1 2 0) false), (.load, 8191, .halt wn),
    (.comp, 16382, .mma wn { mx with af := .bf16, bf := .bf16, ks := 512 }), (.ctl, 20, .br nar (-20)), (.ctl, 0, .addp nar 30 2 1),
    (.ctl, 0, .abop nar 0 63 15 28), (.comp, 0, .vnot wn (vx .n16 (v 2) (v 1) no))].all (fun x : Sq × Nat × Instr => x.2.2.wf x.1 x.2.1) = true := by decide

theorem test_wf_place : [
    (Sq.load, 0, Instr.lege nar), (.load, 0, .lege wn), (.ctl, 0, .nop wn), (.load, 0, .nop nar), (.ctl, 0, .nop { nar with wait := 3 }),
    (.ctl, 0, .nop { nar with sig := 3 }), (.load, 0, .add { wn with pred := 1 } 1 2 3), (.load, 0, .add { wn with pneg := true } 1 2 3),
    (.ctl, 0, .fork (gd false 1)), (.ctl, 0, .join (gd true 0)), (.ctl, 0, .plsw (gd false 2)), (.comp, 0, .cpy wn (cp .sp .sp 0 0 0 0 1)),
    (.ctl, 0, .cpy wn (cp .sp .sp 0 0 0 0 1)), (.load, 0, .mma wn { mx with af := .bf16, bf := .bf16, ks := 1 }),
    (.store, 0, .vnot wn (vx .n16 (v 2) (v 1) no)), (.ctl, 0, .resultLand 1), (.ctl, 16384, .nop nar), (.ctl, 16383, .ld nar (mem 1 2 0) false),
    (.comp, 16383, .nrm wn mx), (.load, 8192, .nop wn)].all (fun x : Sq × Nat × Instr => !x.2.2.wf x.1 x.2.1) = true := by decide

theorem test_wf_registers_and_targets : [
    (Sq.ctl, 0, Instr.addp nar 1 2 3), (.ctl, 0, .addp nar 2 1 3), (.ctl, 0, .subp nar 3 2 3), (.ctl, 0, .madp nar 1 2 3), (.ctl, 0, .abop nar 0 0 0 29),
    (.ctl, 0, .br nar (-1)), (.ctl, 16383, .br nar 1), (.ctl, 16383, .call nar 1), (.ctl, 0, .jmp nar (-1)), (.ctl, 0, .jmp (gd false 1) 1),
    (.ctl, 0, .loop nar 0 1 0), (.ctl, 16383, .loop nar 0 1 1), (.ctl, 0, .lbrd nar 1 0 0 0 0 0), (.ctl, 0, .lbrd nar 1 0 6 1 0 0),
    (.ctl, 0, .lbrd nar 1 0 5 0 1 0), (.ctl, 0, .lbrd nar 1 0 3 0 0 1), (.ctl, 0, .ctxl nar 0 3), (.ctl, 0, .ctxs nar 0 3), (.ctl, 0, .cset nar 12 true),
    (.ctl, 0, .sig nar 0 true 32), (.ctl, 0, .wait nar 0 true 64)].all (fun x : Sq × Nat × Instr => !x.2.2.wf x.1 x.2.1) = true := by decide

theorem test_wf_memory : [
    Instr.ld nar { mem 1 2 0 with loc := 3 } false, .ld nar { mem 1 2 0 with scope := .die } false, .ld nar { mem 1 2 0 with size := .b64 } false,
    .ld nar { mem 1 2 0 with ord := true } false, .ld nar { mem 1 2 0 with rel := true } false, .st nar { mem 1 2 0 with size := .b64 },
    .st nar { mem 1 2 0 with acq := true }, .st nar { mem 1 2 0 with rel := true }, .ldp nar (mem 2 2 0), .ldp nar { mem 1 2 0 with size := .b64 },
    .stp nar (mem 2 2 0), .stp nar { mem 1 2 0 with size := .b64 }, .amo nar { mem 1 2 0 with size := .b16 } .add, .amo nar { mem 1 2 0 with size := .b64 } .add,
    .amo nar { mem 1 2 0 with ord := true } .add, .amoc nar (mem 31 2 0), .amoc nar { mem 2 2 0 with size := .b64 }, .red nar (mem 1 2 0) .swp,
    .red nar { mem 1 2 0 with acq := true } .add, .redf nar (mem 1 2 0) false .bf16, .redf nar (mem 1 2 0) false .i32,
    .redf nar { mem 1 2 0 with size := .b64 } true .fp32, .redf nar { mem 2 2 0 with size := .b64 } true .bf16, .redo nar { mem 1 2 0 with size := .b16 } .fp32,
    .redo nar { mem 1 2 0 with acq := true } .fp32, .waitm nar { mem 1 2 0 with rel := true } .eq, .waitm nar { mem 1 2 0 with size := .b64 } .eq,
    .waitm nar { mem 1 2 0 with size := .b8 } .eq].all (fun i : Instr => !i.wf .ctl 0) = true := by decide

theorem test_wf_copy : [
    Instr.cpy wn { cp .sp .sp 0 0 0 0 1 with scope := .cl }, .gthr wn (cp .global .global 0 0 0 0 2) false, .gthr wn (cp .sp .global 0 0 0 0 1) false,
    .gthr wn (cp .sp .sp 0 0 0 0 2) false, .sctr wn (cp .sp .sp 0 0 0 0 2) false, .sctr wn (cp .global .sp 0 0 0 0 3) false, .xfer wn (cp .sp .can 0 0 0 0 2),
    .xfer wn (cp .sp .sp 0 0 0 0 1), .xfer wn { cp .sp .sp 0 0 0 0 2 with b6 := true }, .canf wn (cp .sp .sp 0 0 0 0 1), .canf wn (cp .can .can 0 0 0 0 1),
    .canr wn (cp .sp .sp 0 0 0 0 1), .canr wn (cp .can .can 0 0 0 0 1), .zfil wn (cp .sp .sp 0 0 0 0 1), .zfil wn (cp .sp .global 0 0 1 0 1),
    .zfil wn (cp .sp .global 0 0 0 1 1), .zfil wn { cp .sp .global 0 0 0 0 1 with b6 := true }, .sstr wn (cp .sp .sp 0 0 0 0 0), .sstr wn (cp .global .sp 1 0 0 0 0),
    .sstr wn (cp .global .sp 0 64 0 0 0), .sstr wn (cp .global .can 0 0 0 0 0), .sstr wn (cp .global .sp 0 0 0 0 1), .spf wn (cp .global .sp 0 0 0 0 1),
    .spf wn (cp .global .global 0 1 0 0 1), .spf wn { cp .global .global 0 0 0 0 1 with acq := true }, .migr wn (cp .global .global 0 0 0 0 1),
    .migr wn (cp .global .global 0 3 0 0 1), .rqnt wn (cp .global .sp 0 0 0 0 0), .rqnt wn (cp .global .global 0 0 0 0 1),
    .cpy wn { cp .sp .sp 0 0 0 0 1 with chain := some ⟨.nrm, 0xFF, 0xFF, mx⟩ },
    .canf wn { cp .can .sp 0 0 0 0 1 with chain := some ⟨.mma, 0xFF, 0xFF, { mx with af := .bf16, bf := .bf16, ks := 1 }⟩ }].all
      (fun i : Instr => !i.wf .load 0) = true := by decide

/-- A chained word rides in the load stream only (R100). -/
theorem test_wf_chain : let c := { cp .sp .sp 0 0 0 0 1 with chain := some ⟨.mma, 3, 0xFF, { mx with af := .bf16, bf := .bf16, ks := 1 }⟩ }
    (Instr.cpy wn c).wf .load 0 = true ∧ (Instr.cpy wn c).wf .store 0 = false ∧ (Instr.cpy wn c).len = 3 := by decide

theorem test_wf_matrix : let f : MxF := { mx with af := .bf16, bf := .bf16, ks := 1 }
    [Instr.mma wn { f with bf := .i8 }, .mma wn { f with af := .ts8, bf := .ts8 }, .mma wn { f with ks := 0 }, .mma wn { f with ks := 513 },
    .mma wn { f with bbase := 1 }, .mma wn { f with bbase := 0x1FF00, ks := 2 }, .mma wn { f with sp := .n4 }, .mma wn { f with mdesc := 1 }, .mma wn { f with moff := 1 },
    .mma wn { f with bpb := 1 }, .mma wn { f with xsel := true }, .mma wn { f with imm := 1 }, .mma wn { f with rnd := .rtz }, .mmas wn f,
    .mmas wn { f with sp := .n4, alay := .z }, .mmas wn { f with sp := .n4, bbase := 0x1FF00 }, .mmab wn { f with acc := 1 }, .mmab wn { f with mdesc := 1 },
    .mmts wn f, .mmts wn { f with af := .i8, bf := .i8 }, .sca wn { f with alay := .zs }, .sca wn { f with ks := 9 }, .sca wn { f with ks := 0 },
    .sca wn { f with bbase := 0x100 }, .nrm wn { mx with adesc := 1 }, .nrm wn { mx with af := .bf16 }, .nrm wn { mx with imm := 1 }, .aclr wn { mx with aoff := 1 },
    .aclr wn { mx with xsel := true }, .acvt wn { mx with af := .i8 }, .acvt wn { mx with af := .bf16, rnd := .sto }, .acvt wn { mx with af := .bf16, imm := 1 },
    .acvt wn { mx with af := .fp32, xsel := true, imm := 31 }, .acvt wn { mx with af := .bf16, xsel := true, imm := 32 },
    .acvt wn { mx with af := .bf16, xsel := true, adesc := 1 }, .ald wn { mx with ks := 1 }, .ast wn { mx with ovw := true }, .setx wn { mx with imm := 1 },
    .setx wn { mx with xsel := true, adesc := 1 }].all (fun i : Instr => !i.wf .comp 0) = true := by decide

theorem test_wf_vector : [
    Instr.vadd wn (vx .ts8 (v 1) (v 2) (v 3)), .vadd wn (vx .fp32 (sr 1) (v 2) (v 3)), .vadd wn (vx .fp32 (v 1) (.reg .m 0 2) (v 3)),
    .vadd wn (vx .fp32 (v 1) (.reg .bl 0 8) (v 3)), .vadd wn (vx .fp32 (v 1) (.reg .v 1 2) (v 3)), .vadd wn { vx .fp32 (v 1) (v 2) (v 3) with rnd := .sto },
    .vadd wn { vx .i32 (v 1) (v 2) (v 3) with rnd := .rtz }, .vmin wn { vx .fp32 (v 1) (v 2) (v 3) with rnd := .rtz }, .vabs wn (vx .fp32 (v 1) (v 2) (v 3)),
    .vcmp wn (vx .fp32 (.reg .m 7 1) (v 2) (v 3)), .vcmp wn (vx .fp32 (v 1) (v 2) (v 3)), .vshl wn (vx .fp32 (v 1) (v 2) (v 3)),
    .vcvt wn (vx .ts8 (v 1) (v 2) no), .vcvt wn (vx .bf16 (v 1) (.reg .v 0xD00 2) no), .vcvt wn (vx .bf16 (v 1) (.reg .v 1 2) no),
    .vcvt wn { vx .e4m3 (v 1) (.reg .v 0x300 2) (v 31) with rnd := .sto }, .vdqn wn (vx .bf16 (v 1) (.reg .v 0x100 2) no), .vdqn wn (vx .i8 (v 1) (.reg .v 0x300 2) no),
    .vqnt wn { vx .i8 (v 1) (.reg .v 0x100 2) no with rnd := .rtz }, .vcvt wn { vx .i16 (v 1) (.reg .v 0x100 2) no with rnd := .rdn },
    .vqnt wn (vx .bf16 (v 1) (.reg .v 0x100 2) no), .vqnt wn (vx .i8 (v 1) (.reg .v 0x300 2) no), .vexp2 wn (vx .i32 (v 1) (v 2) no),
    .vsum wn (vx .fp32 (st 1) (v 2) no), .vrmx wn { vx .fp32 (v 1) (v 2) no with rnd := .rup }, .vperm wn (vx .n16 (v 1) (sr 2) (v 3)),
    .vsld wn (vx .n16 (v 1) (v 2) (v 3)), .vbcst wn (vx .fp32 (v 1) (.reg .v 32 2) no), .vbcst wn (vx .fp32 (v 1) (.reg .bl 0 8) no),
    .vmov wn (vx .bf16 (.reg .m 0 1) (.reg .m 0 2) no), .vgth wn (vx .fp16 (v 1) (v 2) (v 3)), .vgth wn (vx .fp16 (st 1) (st 2) (v 3)),
    .vsct wn (vx .fp16 (v 1) (v 2) (v 3)), .vmsk wn (vx .fp32 (.reg .m 7 1) (.reg .m 0 1) (.reg .m 0 1)), .vmsk wn (vx .fp32 (.reg .m 4 1) (.reg .m 0 1) (.reg .m 0 1)),
    .vcnt wn (vx .fp32 (sr 9) (.reg .m 0 3) no), .vidx wn (vx .n16 (v 6) (v 1) no), .vchk wn { vx .fp16 no (v 1) no with nw := true }, .vchk wn (vx .fp16 (v 1) (v 1) no),
    .vscl wn (vx .fp32 (v 2) (.reg .v 0x100 1) no), .rngb wn (vx .n16 (v 7) (sr 11) (sr 12)), .rngb wn (vx .fp16 (v 7) (sr 10) (sr 12))].all
      (fun i : Instr => !i.wf .comp 0) = true := by decide

/-! ## One step -/

/-- A running member with its four sequencers at index 0. -/
def member : Ctx := Ctx.blank 1 0

/-- The member with scalar registers of its control sequencer. -/
def withRegs (rs : List (BitVec 5 × Word)) (c : Ctx) : Ctx := { c with ctl := rs.foldl (fun x r => x.setReg r.1 r.2) c.ctl }

/-- The machine with one context on core 0, and sequencer `q` about to issue. -/
def on (q : Sq) (c : Ctx) : State :=
  { (State.reset.setCtx c).setCore 0 { Core.idle with active := some c.cid, plane := some ⟨0, [], []⟩ } with focus := (0, q), nextCid := 9 }

/-- The next state of an outcome. -/
def next? (o : Out) : Option State :=
  match o with
  | .next s => some s
  | _ => none

/-- The context after a word that the member issues. -/
def does (i : Instr) (q : Sq) (c : Ctx) : Option Ctx := (next? (exec i (on q c))).bind (fun s => if s.last = .issued then s.ctx c.cid else none)

/-- The value of a register when every result has landed. -/
def gets (i : Instr) (rs : List (BitVec 5 × Word)) (d : BitVec 5) : Option Word :=
  (does i .ctl (withRegs rs member)).map (fun c => (c.landAll c.flight).ctl.reg d)

/-- The cause and TVAL of the trap of a word. -/
def traps (i : Instr) (q : Sq) (c : Ctx) : Option (Nat × Word) :=
  (next? (exec i (on q c))).bind (fun s => if s.last = .trapped then (s.ctx c.cid).bind (fun d => d.trap.map (fun t => (t.cause, d.tval))) else none)

/-- The worked examples of R378, R412, R415, R443, R402, R425, R353, R354, R451, R400, R414. -/
theorem test_scalar_results :
    gets (.div nar 6 7 8) [(7, 0xFFFFFFF9), (8, 2)] 6 = some 0xFFFFFFFD ∧ gets (.divn nar 6 7 8) [(7, 0xFFFFFFF9), (8, 2)] 6 = some 0x7FFFFFFC ∧
    gets (.div nar 6 7 8) [(7, 0x80000000), (8, 0xFFFFFFFF)] 6 = some 0x80000000 ∧ gets (.div nar 6 7 8) [(7, 5)] 6 = some 0xFFFFFFFF ∧
    gets (.mod nar 6 7 8) [(7, 0xFFFFFFF9), (8, 2)] 6 = some 0xFFFFFFFF ∧ gets (.modn nar 6 7 8) [(7, 0xFFFFFFF9), (8, 2)] 6 = some 1 ∧
    gets (.mul nar 6 7 8) [(7, 0xFFFFFFFE), (8, 3)] 6 = some 0xFFFFFFFA ∧ gets (.mulh nar 6 7 8) [(7, 0xFFFFFFFE), (8, 3)] 6 = some 0xFFFFFFFF ∧
    gets (.mulhn nar 6 7 8) [(7, 0xFFFFFFFE), (8, 3)] 6 = some 2 ∧ gets (.shl nar 6 7 8) [(7, 0x80000010), (8, 40)] 6 = some 0 ∧
    gets (.sra nar 6 7 8) [(7, 0x80000010), (8, 40)] 6 = some 0xFFFFFFFF ∧ gets (.srai nar 6 7 4) [(7, 0x80000010)] 6 = some 0xF8000001 ∧
    gets (.max nar 12 12 16) [(12, 0xFFFFFFFF), (16, 0x3C00)] 12 = some 0x3C00 ∧ gets (.maxn nar 12 12 16) [(12, 0xFFFFFFFF), (16, 0x3C00)] 12 = some 0xFFFFFFFF ∧
    gets (.popc nar 3 7) [(7, 0xF0F00001)] 3 = some 9 ∧ gets (.clz nar 3 7) [(7, 0)] 3 = some 32 ∧ gets (.movi nar 6 0x8000) [] 6 = some 0xFFFF8000 ∧
    gets (.movh nar 6 0) [(6, 0xFFFF8000)] 6 = some 0x8000 := by decide +kernel

theorem test_pair_results :
    gets (.addp nar 8 4 7) [(5, 0x50), (7, 0xFFFFFFC0)] 8 = some 0xFFFFFFC0 ∧ gets (.addp nar 8 4 7) [(5, 0x50), (7, 0xFFFFFFC0)] 9 = some 0x4F ∧
    gets (.subp nar 8 8 7) [(9, 0x50), (7, 0x40)] 9 = some 0x4F ∧ gets (.madp nar 8 6 7) [(9, 0x50), (6, 3), (7, 0x800)] 8 = some 0x1800 ∧
    gets (.madp nar 8 6 7) [(9, 0x50), (6, 0xFFFFFFFF), (7, 0x800)] 9 = some 0x4F := by decide

/-- R109: a result for s0 is discarded; R56: the old value stands until the landing. -/
theorem test_zero_register : gets (.addi nar 0 1 5) [(1, 1)] 0 = some 0 ∧
    ((does (.addi nar 1 1 5) .ctl (withRegs [(1, 1)] member)).map (fun c => c.ctl.reg 1)) = some 1 := by decide

/-- R366: the examples of CMPI. -/
theorem test_compare : let t (cc : Cc) := (does (.cmpi nar 4 cc 1 0x7FF) .ctl (withRegs [(1, 5)] member)).map (fun c => (c.landAll c.flight).ctl.pred 4)
    t .ltn = some true ∧ t .lt = some false := by decide +kernel

/-- R362, R389, R431: transfers; a target outside the memory traps TARGET (0x0F). -/
theorem test_transfers : ((does (.br nar (-8)) .ctl { member with ctl := { member.ctl with pc := 20 } }).map (fun c => c.ctl.pc)) = some 12 ∧
    ((does (.bra nar 5) .ctl (withRegs [(5, 16383)] member)).map (fun c => c.ctl.pc)) = some 16383 ∧
    traps (.bra nar 5) .ctl (withRegs [(5, 16384)] member) = some (0x0F, 16384) := by decide

/-- R453, R44, R54: TRAP's code is in TVAL; HALT ends the member's leg; CSET sets its bit alone. -/
theorem test_system : traps (.trap nar 0x123) .ctl member = some (0x30, 0x123) ∧ traps (.illegalEncoding 0x3C000000) .ctl member = some (1, 0x3C000000) ∧
    ((does (.halt nar) .ctl member).map (fun c => (c.ctl.run, c.halting, c.ended.length))) = some (.halted, true, 1) ∧
    ((does (.cset nar 3 true) .ctl member).map (fun c => c.cbits)) = some 8 := by decide

/-- R449, R166: a store to the scratchpad lands at its bytes, lowest first; a load sees VAC on vacated bytes. -/
theorem test_local_memory : let rs : List (BitVec 5 × Word) := [(4, 0x40), (5, 0xF0000000), (6, 0x11223344)]
    ((does (.st nar { mem 6 2 2 with size := .b16 }) .ctl (withRegs rs member)).map (fun c =>
      let d := c.landAll c.flight
      (d.sp.byte 0x41, d.sp.byte 0x42, d.sp.byte 0x43, d.sp.byte 0x44, d.sp.unit 2 0x42))) = some (0, 0x44, 0x33, 0, .present) ∧
    ((does (.ld nar (mem 6 2 0) false) .ctl (withRegs rs member)).map (fun c => ((c.landAll c.flight).ctl.reg 6, (c.landAll c.flight).sticky))) = some (0, 4) ∧
    traps (.ld nar (mem 6 2 2) false) .ctl (withRegs rs member) = some (0x0E, 0x42) := by decide

/-- R63, R486: WAIT takes its amount or holds the word. -/
theorem test_wait : ((does (.wait nar 6 false 2) .ctl { member with joined := false, sems := [(6, 5)] }).map (fun c => c.sem 6)) = some 3 ∧
    does (.wait nar 6 false 2) .ctl { member with joined := false, sems := [(6, 1)] } = none := by decide

/-! ## Witnesses: for every statement with hypotheses, states and operands that meet them -/

/-- The member in forked mode. -/
def forked : Ctx := { member with joined := false }
/-- The member in check mode, and with a result for s6 in flight. -/
def checked : Ctx := { member with dmode := 1 }
def pendingS6 : Ctx := checked.scalar .ctl 6 1 12
/-- A broadcast, the last word of its body and the last iteration. -/
def bc : Bcast := { no := 1, first := 0, len := 2, pos := 0, left := 2, skew := 0, cancel := false }
/-- The member with its load sequencer in a broadcast. -/
def inBody : Ctx := { member with load := { member.load with bcast := some bc } }

theorem runs_ctl : Runs (on .ctl member) member nar := by unfold Runs State.reaches; decide +kernel
theorem runs_load : Runs (on .load member) member wn := by unfold Runs State.reaches; decide +kernel
theorem runs_forked : Runs (on .ctl forked) forked nar := by unfold Runs State.reaches; decide +kernel
theorem runs_forked_load : Runs (on .load forked) forked wn := by unfold Runs State.reaches; decide +kernel
theorem runs_in_body : Runs (on .load inBody) inBody wn ∧ ¬ NoBroadcast (on .load inBody) inBody := by
  unfold Runs State.reaches NoBroadcast; decide +kernel

theorem witness_SumsAndLogic : Runs (on .ctl member) member nar ∧ Readable (on .ctl member) member [7, 8] := ⟨runs_ctl, .inl (by decide)⟩
theorem witness_ShiftsArePowers : Runs (on .ctl forked) forked nar ∧ Readable (on .ctl forked) forked [7, 8] := ⟨runs_forked, .inl (by decide)⟩
theorem witness_DivisionTruncates : Runs (on .load member) member wn ∧ Readable (on .load member) member [7, 8] := ⟨runs_load, .inl (by decide)⟩
theorem witness_ProductsAndPairs : Runs (on .load member) member wn ∧ Readable (on .load member) member [31, 0, 7, 8, 9] := ⟨runs_load, .inl (by decide)⟩
/-- In check mode the registers of the word must not be in flight. -/
theorem witness_ChoicesMovesCounts : Runs (on .ctl pendingS6) pendingS6 nar ∧ Readable (on .ctl pendingS6) pendingS6 [7, 8, 5] ∧
    ¬ Readable (on .ctl pendingS6) pendingS6 [6] := by unfold Runs State.reaches Readable; decide +kernel
theorem witness_ComparesAndSelects : Runs (on .ctl checked) checked nar ∧ Readable (on .ctl checked) checked [31, 0] ∧
    checked.predPending .ctl 7 = false := by unfold Runs State.reaches Readable; decide +kernel

/-- A held sequencer, a wait that finds too little, a false guard, a cancelled broadcast. -/
theorem witness_GuardsAndWaits :
    (header (.nop nar) = some nar ∧ State.reset.activeCtx 0 = none) ∧
    (let c := { member with ctl := { member.ctl with run := .halted } }
     (on .ctl c).activeCtx 0 = some c ∧ c.blocked .ctl = true) ∧
    (let h := wd 3 0xFF
     header (.nop h) = some h ∧ (on .load member).activeCtx 0 = some member ∧ h.wait ≠ 0xFF ∧ member.waitOk h.wait 1 = false) ∧
    (let h := gd true 0
     header (.add h 1 2 3) = some h ∧ guardless (.add h 1 2 3) = false ∧ (on .ctl member).reaches member h ∧ (member.seqr .ctl).guard h = false) ∧
    (let c := { member with load := { member.load with bcast := some { bc with cancel := true } } }
     header (.nop wn) = some wn ∧ (on .load c).activeCtx 0 = some c ∧ c.blocked .load = false ∧ c.cancelled .load = true) ∧
    (header (.mov nar 9 6) = some nar ∧ pendingS6.checkMode = true ∧ Runs (on .ctl pendingS6) pendingS6 nar ∧ 6 ∈ readsOf (.mov nar 9 6) ∧
      ∃ f ∈ pendingS6.flight, f.sq = .ctl ∧ f.dest = .reg 6) ∧
    (let c := { checked with flight := [checked.flightOf .ctl (.pred 2) 1 1 0] }
     Runs (on .ctl c) c nar ∧ (on .ctl c).activeCtx 0 = some c ∧ c.blocked .ctl = false ∧ c.cancelled .ctl = false ∧ OnCore (on .ctl c) c ∧
      (gd false 2).pred = 2 ∧ ∃ f ∈ c.flight, f.sq = .ctl ∧ f.dest = .pred 2) := by
  unfold Runs State.reaches OnCore; refine ⟨?_, ?_, ?_, ?_, ?_, ?_, ?_⟩ <;> decide +kernel

/-- Header signals: none, one below the limit, at the limit; a control word in a leg. -/
theorem witness_WordRetires : ((0xFE : BitVec 8) ≠ 0xFF) ∧ (member.sem 3).toNat < 0xFFFFF ∧
    (({ member with sems := [(3, 0xFFFFF)] } : Ctx).sem 3).toNat = 0xFFFFF ∧ (member.withLeg.leg.map (fun l => l.preset)) = some none ∧
    member.withLeg.isHandler = false := by decide +kernel

/-- Outside loops; at a loop's last word with the counter at 2 and at 1; at the last word of two loops, of a loop in a body; in a body, at its last word with 2 and 1 iterations left. -/
theorem witness_AdvanceRules : let x := Seqr.start 5 []
    let l : LoopSt := { lc := 1, first := 3, last := 5 }
    (x.bcast = none ∧ (∀ k ∈ x.loops, k.last ≠ x.pc)) ∧
    (let y : Seqr := { x with loops := [l], lc := [(1, 2)] }
     y.bcast = none ∧ y.loops = l :: [] ∧ l.last = y.pc ∧ 1 < (y.lcVal l.lc).toNat) ∧
    (let y : Seqr := { x with loops := [l], lc := [(1, 1)] }
     y.loops = l :: [] ∧ l.last = y.pc ∧ (y.lcVal l.lc).toNat ≤ 1) ∧
    (let m : LoopSt := { lc := 2, first := 1, last := 5 }
     let y (n : Word) : Seqr := { x with loops := [l, m], lc := [(1, 1), (2, n)] }
     (y 2).loops = l :: m :: [] ∧ m.last = (y 2).pc ∧ l.lc ≠ m.lc ∧ ((y 2).lcVal 1).toNat ≤ 1 ∧ 1 < ((y 2).lcVal 2).toNat ∧ ((y 1).lcVal 2).toNat ≤ 1) ∧
    (let y : Seqr := { x with loops := [l], lc := [(1, 2)], bcast := some bc }
     y.bcast = some bc ∧ l.last = y.pc ∧ 1 < (y.lcVal l.lc).toNat) ∧
    (bc.pos + 1 < bc.len) ∧ (let b := { bc with pos := 1 }
     b.pos + 1 = b.len ∧ 1 < b.left) ∧ (let b := { bc with pos := 1, left := 1 }
     b.pos + 1 = b.len ∧ b.left ≤ 1) := by decide +kernel

/-- Results without signal and flags for a vector register, a predicate and a mask. -/
theorem witness_ScalarResultLands : let f := member.flightOf .comp (.vreg 3) 1 4 0
    f.sig = 0xFF ∧ f.flags = 0 ∧ f.dest = .vreg 3 ∧ (member.flightOf .ctl (.pred 7) 1 1 0).dest = .pred 7 ∧
    (member.flightOf .comp (.mask 0) 1 1 0).dest = .mask 0 := by decide +kernel

/-- A leg that has made a load and is not safe. -/
def exposedLeg : Leg := { member.newLeg with reads := [5] }
def exposed : Ctx := { member with dmode := 2, leg := some exposedLeg }

theorem witness_WordTrapsOrWaits : (on .ctl member).escapeOk member = true ∧ (mkTrap 0x0F 5).lost = [] ∧ (mkTrap 0x0F 5).flags = 0 ∧
    (mkTrap 0x0F 5).cause < 256 ∧ member.joined = true ∧ forked.joined = false ∧ (on .ctl exposed).escapeOk exposed = false := by decide +kernel

/-- Targets on both sides of the last index; a body. -/
theorem witness_TransfersGoToTargets :
    (let c := withRegs [(5, 16383), (31, 16384)] member
     Runs (on .ctl c) c nar ∧ NoBroadcast (on .ctl c) c ∧ Readable (on .ctl c) c [5, 31] ∧ (c.ctl.reg 5).toNat < Sq.ctl.limit ∧
       Sq.ctl.limit ≤ (c.ctl.reg 31).toNat) ∧
    (Runs (on .load inBody) inBody wn ∧ ¬ NoBroadcast (on .load inBody) inBody ∧ Readable (on .load inBody) inBody [31]) := by
  unfold Runs State.reaches NoBroadcast Readable; decide +kernel

/-- A counter at 1, a counter at 0, an active loop. -/
theorem witness_LoopsStartAndEnd :
    (let c := withRegs [(7, 1)] member
     Runs (on .ctl c) c nar ∧ NoBroadcast (on .ctl c) c ∧ Readable (on .ctl c) c [7] ∧ (∀ l ∈ c.ctl.loops, l.lc ≠ 0) ∧ c.ctl.reg 7 ≠ 0 ∧ c.ctl.reg 8 = 0) ∧
    (let l : LoopSt := { lc := 1, first := 3, last := 5 }
     let k : LoopSt := { lc := 2, first := 2, last := 7 }
     let c := { member with load := { member.load with loops := [k, l] } }
     Runs (on .load c) c wn ∧ NoBroadcast (on .load c) c ∧ c.load.loops = [k] ++ l :: [] ∧ (∀ j ∈ [k], j.lc ≠ 1) ∧ l.lc = 1) ∧
    (let l : LoopSt := { lc := 1, first := 3, last := 5 }
     let c := { inBody with ctl := { member.ctl with loops := [l] } }
     Runs (on .ctl c) c nar ∧ (on .ctl c).escapeOk c = true ∧ NoBroadcast (on .ctl c) c ∧ c.load.bcast = some bc ∧ bc.no = 1 ∧ c.ctl.loops = [] ++ l :: []) ∧
    (Runs (on .ctl exposed) exposed nar ∧ (on .ctl exposed).escapeOk exposed = false) := by
  unfold Runs State.reaches NoBroadcast Readable; decide +kernel

/-- LBRD with a true and a false guard, a busy sequencer, a forked context; an armed broadcast with and without iterations. -/
theorem witness_BroadcastsArmAndStart :
    ((on .ctl member).reaches member nar ∧ (on .ctl member).reaches member (gd true 0) ∧ member.joined = true ∧ member.isHandler = false ∧
      member.inInverse = false ∧ Readable (on .ctl member) member [7] ∧ (on .ctl member).escapeOk member = true ∧ member.load.bcast = none) ∧
    ((on .ctl inBody).reaches inBody nar ∧ inBody.load.bcast ≠ none) ∧ ((on .ctl forked).reaches forked nar ∧ forked.joined = false) ∧
    (let x : Seqr := { member.load with armed := some bc }
     x.armed = some bc ∧ bc.left ≠ 0) ∧ { bc with left := 0 }.left = 0 := by unfold State.reaches Readable; decide +kernel

/-- SEMR reads 5 where a result that landed in its cycle has raised the semaphore from 5 to 6 (R441). -/
theorem test_semr : (does (.semr nar 9 3) .ctl { member with sems := [(3, 6)], landed := [(3, true)] }).map
    (fun c => (c.landAll c.flight).ctl.reg 9) = some 5 := by decide +kernel

/-- SIG below and past the limit; WAIT that takes all, that finds one too few, of nothing; SEMI at and past the limit. -/
theorem witness_SemaphoreAndCbitWords :
    (let c := withRegs [(6, 0xFFFFF), (7, 0x100000)] { forked with sems := [(3, 0xFFFFE)], cbits := 8 }
     Runs (on .ctl c) c nar ∧ EscapeFree (on .ctl c) c ∧ Readable (on .ctl c) c [6, 7] ∧
      ((c.begun .ctl nar).sem 3).toNat + 1 ≤ 0xFFFFF ∧ 0xFFFFF < ((c.begun .ctl nar).sem 3).toNat + 2 ∧
      amountOf c.ctl true 6 = 0xFFFFF ∧ ((c.begun .ctl nar).sems.get 0 3).toNat = 0xFFFFE ∧ (c.ctl.reg 6).toNat ≤ 0xFFFFF ∧ 0xFFFFF < (c.ctl.reg 7).toNat ∧
      c.cbits.getLsbD 3 = true ∧ c.cbits.getLsbD 11 = false) ∧
    (let c := withRegs [(6, 7)] { forked with landed := [(3, true)] }
     Runs (on .ctl c) c nar ∧ EscapeFree (on .ctl c) c ∧ Readable (on .ctl c) c [6] ∧ (c.ctl.reg 6).toNat < 0xFFFFF) ∧
    (let c := withRegs [(6, 7)] { forked with landed := [(3, false)], impr := [(0x28, 3)] }
     Runs (on .ctl c) c nar ∧ c.impr = [] ++ (0x28, 3) :: [] ∧ (c.ctl.reg 6).toNat < 0xFFFFF) ∧
    (let c := { member with sems := [(3, 0xFFFFF)], semT := [(3, 0xFFFFF)], semS := [(3, 0xFFFFF)] }
     let h := wd 3 0xFF
     RunsAnyhow (on .load c) c h ∧ c.joined = true ∧ (c.begun .load h).sem h.wait ≠ 0) ∧
    (let c := { member with sems := [(3, 5)], semT := [(3, 5)], cbitsT := 1 }
     Runs (on .load c) c wn ∧ EscapeFree (on .load c) c ∧ c.joined = true ∧ ((c.begun .load wn).semT.get 0 3).toNat = 5 ∧ c.cbitsT.getLsbD 0 = true) ∧
    (let c := { member with sems := [(3, 4)], semT := [(3, 2)] }
     let start : SMap (BitVec 20) := [(3, 5)]
     start.sorted = true ∧ ∀ kv ∈ start, kv.2.toNat - (c.semT.get 0 kv.1).toNat ≤ (c.sems.get 0 kv.1).toNat) := by
  unfold Runs RunsAnyhow State.reaches EscapeFree Readable; refine ⟨?_, ?_, ?_, ?_, ?_, ?_⟩ <;> decide +kernel

/-- A handler, an inverse routine. -/
def handler : Ctx := { member with cid := 2, kind := .handler 1, joined := true, loc := .bank 1 }
def inverse : Ctx := { member with kind := .task ⟨0, 0, 0, [], 0⟩, stat := .inverse, inv := some 0 }

/-- FORK and JOIN in a joined member, a body, a forked one with others running and with all others arrived, a handler, an inverse routine. -/
theorem witness_ForkAndJoin :
    (Runs (on .ctl member) member nar ∧ NoBroadcast (on .ctl member) member ∧ EscapeFree (on .ctl member) member ∧ member.joined = true) ∧
    (Runs (on .load inBody) inBody wn ∧ ¬ NoBroadcast (on .load inBody) inBody) ∧
    (Runs (on .load forked) forked wn ∧ forked.joined = false ∧ (forked.seqr .ctl).run = .running) ∧
    (let c := { forked with ctl := { forked.ctl with run := .arrived }, store := { forked.store with run := .halted }, comp := { forked.comp with run := .arrived } }
     Runs (on .load c) c wn ∧ c.joined = false ∧ ∀ p ∈ [Sq.ctl, .store, .comp], (c.seqr p).run ≠ .running) ∧
    (Runs (on .ctl handler) handler nar ∧ handler.isHandler = true) := by
  unfold Runs State.reaches NoBroadcast EscapeFree; decide +kernel

/-! ### Memory: a page of 2 GiB at physical address 2^31, in a table with one entry and in the TLB -/

/-- A root word whose table stands at 0x200000 (R190), and the table's entry: V, R, W, X, U, A, D, stacked memory (R191). -/
def rootWord : BitVec 64 := 0xE000080000000200
def table : Mem := { cells := [(0x200000, 0xDF), (0x200003, 0x80), (0x200007, 0x40)], units := [(0x8000, .present), (0x2000004, .present)] }
def entry : TlbEnt := { asid := 0, glob := false, vbase := 0, bits := 31, pbase := 0x80000000, flags := 0xDF }

/-- The machine with one context, whose translations the TLB holds. -/
def mapped (q : Sq) (c : Ctx) : State :=
  { on q c with dram := table, cores := [(0, { Core.idle with active := some c.cid, plane := some ⟨0, [], []⟩, tlb := [entry] })] }

/-- A member with an address in s4:s5 and operands in s6 to s9. -/
def addressed (va : BitVec 64) (c : Ctx) : Ctx :=
  { withRegs [(4, va.extractLsb' 0 32), (5, va.extractLsb' 32 32), (6, 7), (7, 0x3F000000), (8, 7), (9, 0)] c with root := rootWord }

def globalMember : Ctx := addressed 0x100 member
def taskMember : Ctx := addressed 0x100 { member with kind := .task ⟨0, 0, 0, [], 0⟩ }

theorem translates : peek table rootWord 0x100 .read = .ok 0x80000100 ∧ walk table rootWord 0x100 = .ok ⟨0x40000000800000DF, 0x200000, 2, 31⟩ := by decide +kernel

theorem runs_global : Runs (mapped .ctl globalMember) globalMember nar ∧ (globalMember.begun .ctl nar).leg = some globalMember.newLeg := by
  unfold Runs State.reaches; decide +kernel

/-- HALT of a member, of a forked one with an arrived partner, of a task, a handler, an inverse routine; DBRK with and without stops, and after a resume. -/
theorem witness_HaltAndDbrk :
    (Runs (on .ctl member) member nar ∧ member.isHandler = false ∧ member.inInverse = false ∧ member.joined = true ∧ member.isTask = false ∧ member.ctl.once.dbrk = false ∧
      (on .ctl member).escapeOk member = true) ∧
    (let c := { forked with load := { forked.load with run := .arrived }, store := { forked.store with run := .halted }, comp := { forked.comp with run := .halted } }
     Runs (on .ctl c) c nar ∧ c.joined = false ∧ (∀ p ∈ [Sq.load, .store, .comp], (c.seqr p).run ≠ .running) ∧ (c.seqr .load).run = .arrived) ∧
    (Runs (on .ctl taskMember) taskMember nar ∧ taskMember.isTask = true ∧ taskMember.idleEngines = true) ∧
    (Runs (on .ctl handler) handler nar ∧ handler.isHandler = true) ∧ (Runs (on .ctl inverse) inverse nar ∧ inverse.inInverse = true) ∧
    (let s := (on .ctl member).setCore 0 { (on .ctl member).core 0 with dbg := [(0x1000, 1)] }
     Runs s member nar ∧ ((s.core 0).dbg.get 0 0x1000).getLsbD 0 = true) ∧
    (let c := { member with ctl := { member.ctl with once := { watch := false, dbrk := true } } }
     Runs (on .ctl c) c { nar with wait := 0xFF } ∧ c.ctl.once.dbrk = true) := by
  unfold Runs State.reaches; refine ⟨?_, ?_, ?_, ?_, ?_, ?_, ?_⟩ <;> decide +kernel

/-- MARK and DRAIN with nothing and with something left; FENCE with an ended leg and without; LEGE in a task and in a member; BARS in its four cases. -/
theorem witness_MarksFencesAndBars :
    (Runs (on .ctl member) member nar ∧ (on .ctl member).escapeOk member = true ∧ (∀ m ∈ member.marks, member.markDone m = true) ∧
      (∀ r ∈ (on .ctl member).reds, r.cid ≠ member.cid) ∧ (on .ctl member).fars = [] ∧ member.ended = [] ∧ (on .ctl member).batches = [] ∧ (member.begun .ctl nar).leg = some member.newLeg ∧
      member.phase = false ∧ Readable (on .ctl member) member [9]) ∧
    (let c := { member with marks := [{ eng := 0, upTo := 1, live := [] }], phase := true, ended := [member.newLeg] }
     Runs (on .ctl c) c nar ∧ (on .ctl c).escapeOk c = true ∧ (∃ m ∈ c.marks, c.markDone m = false) ∧ c.ended ≠ [] ∧ c.phase = true) ∧
    (Runs (on .ctl taskMember) taskMember nar ∧ taskMember.isTask = true) ∧ (Runs (on .ctl handler) handler nar ∧ handler.isTask = false ∧ handler.isHandler = true) := by
  unfold Runs State.reaches Readable; refine ⟨?_, ?_, ?_, ?_⟩ <;> decide +kernel

/-- The handler's trapped context. -/
def served : Ctx := { member with stat := .trapped, cause := 0x40000020, trap := some (mkTrap 0x20 5) }
/-- The machine in which the handler runs. -/
def handling (h : Ctx) : State := { on .ctl h with ctxs := [(1, served), (2, h)] }

theorem witness_CsrWords :
    (Runs (on .ctl member) member nar ∧ EscapeFree (on .ctl member) member ∧ Readable (on .ctl member) member [10] ∧ member.leg = none ∧ member.ended = [] ∧
      member.isHandler = false ∧ member.loc = .bank 0) ∧
    (Runs (handling handler) handler nar ∧ EscapeFree (handling handler) handler ∧ handler.kind = .handler 1 ∧ (handling handler).ctx 1 = some served ∧
      served.loc = .bank 0 ∧ served.cause.extractLsb' 29 2 = 2) ∧
    (let e := { served with cause := 0x20 }
     e.cause.extractLsb' 29 2 = 0) := by
  unfold Runs State.reaches EscapeFree Readable; refine ⟨?_, ?_, ?_⟩ <;> decide +kernel

/-- The last bytes of 48 plots and one byte past them; the canopy's last byte; NOCAN; another top byte. -/
theorem witness_AddressesAndAlignment :
    (let a : BitVec 64 := 0xF0000000002FFFFC
     a.toNat / 2 ^ 56 = 0xF0 ∧ a.toNat % 2 ^ 56 + 4 ≤ member.plots * 65536 ∧ member.plots ≤ 256 ∧ member.plots * 65536 < a.toNat % 2 ^ 24 + 8) ∧
    (let a : BitVec 64 := 0xF1000000007FFFFF
     a.toNat / 2 ^ 56 = 0xF1 ∧ member.nocan = false ∧ a.toNat % 2 ^ 56 < 2 ^ 23 ∧ 2 ^ 23 ≤ (a + 1).toNat % 2 ^ 56) ∧
    ({ member with nocan := true } : Ctx).nocan = true ∧ (let a : BitVec 64 := 0x0100000000000000
     a.toNat / 2 ^ 56 ≠ 0 ∧ a.toNat / 2 ^ 56 ≠ 0xF0 ∧ a.toNat / 2 ^ 56 ≠ 0xF1) ∧
    (let c := addressed 0x103 member
     Runs (mapped .ctl c) c nar ∧ c.checkMode = false ∧ (address c (mem 6 2 0)).toNat % width (mem 6 2 0) ≠ 0 ∧ c.isTask = false) := by
  unfold Runs State.reaches; refine ⟨?_, ?_, ?_, ?_, ?_⟩ <;> decide +kernel

/-- No atomic is on its way to another package. -/
theorem at_home {pa : Nat} {c : Ctx} (h : c.pend = none := by rfl) : ∀ x ∈ [c], ∀ i d a no, x.pend = some (.atomic i d a no true) → x.back = none → a.pa / 64 ≠ pa / 64 := by
  intro x hx i d a no hp
  rw [List.mem_singleton.1 hx, h] at hp
  cases hp

/-- A word of the scratchpad, and a word of DRAM in a leg; of each a vacated and a lost one, with and without check mode. -/
theorem witness_LoadWords :
    (let c := addressed 0xF000000000000040 member
     let m := mem 6 2 0
     Runs (mapped .ctl c) c nar ∧ (address c m).toNat % width m = 0 ∧ m.acq = false ∧
      (∃ sp a, (c.begun .ctl nar).select 0 (address c m) (width m) .read = .here sp a ∧ sp = .sp ∧ a = 0x40 ∧ ∀ i < 4, (c.begun .ctl nar).view.sp.unit 2 (a + i) ≠ .lost)) ∧
    (let s := mapped .ctl globalMember
     let m := mem 6 2 0
     Runs s globalMember nar ∧ (address globalMember m).toNat % width m = 0 ∧ (address globalMember m).toNat / 2 ^ 56 = 0 ∧ globalMember.isTask = false ∧
      (globalMember.begun .ctl nar).leg = some globalMember.newLeg ∧ Reaches s (globalMember.begun .ctl nar) (address globalMember m) (width m) .read .leg s 0x80000100 ∧
      AtHome s 0x80000100 4 ∧ ∀ i < 4, globalMember.newLeg.buf.find (0x80000100 + i) = none ∧ s.dram.unit 64 (0x80000100 + i) ≠ .lost) ∧
    (let c := { addressed 0xF000000000000040 checked with dmode := 1 }
     let m := mem 6 2 0
     Runs (mapped .ctl c) c nar ∧ c.checkMode = true ∧ Readable (mapped .ctl c) c [4, 5] ∧ c.flight = [] ∧ c.mx.active = none ∧
      c.mx.shadow = none ∧ (c.begun .ctl nar).select 0 (address c m) 4 .read = .here .sp 0x40 ∧ (c.begun .ctl nar).view.sp.unit 2 0x40 = .vacated) ∧
    (let c := { addressed 0xF000000000000040 member with sp := { Mem.empty with units := [(32, .lost)] } }
     Runs (mapped .ctl c) c nar ∧ (c.begun .ctl nar).view.sp.unit 2 0x40 = .lost) ∧
    (let c := { globalMember with dmode := 1 }
     let s := { mapped .ctl c with dram := { table with units := [(0x8000, .present)] } }
     let m := mem 6 2 0
     Runs s c nar ∧ c.checkMode = true ∧ Reaches s (c.begun .ctl nar) (address c m) 4 .read .leg s 0x80000100 ∧ AtHome s 0x80000100 4 ∧
      s.dram.unit 64 0x80000100 = .vacated ∧ 0x80000100 % 64 = (address c m).toNat % 64) ∧
    (let s := { mapped .ctl globalMember with dram := { table with units := [(0x8000, .present), (0x2000004, .lost)] } }
     Reaches s (globalMember.begun .ctl nar) (address globalMember (mem 6 2 0)) 4 .read .leg s 0x80000100 ∧ s.dram.unit 64 0x80000100 = .lost) := by
  refine ⟨⟨?_, ?_, ?_, .sp, 0x40, ?_, ?_, ?_, ?_⟩, ⟨?_, ?_, ?_, ?_, ?_, ?_, ?_, ?_⟩, ⟨?_, ?_, ?_, ?_, ?_, ?_, ?_, ?_⟩, ⟨?_, ?_⟩, ⟨?_, ?_, ?_, ?_, ?_, ?_⟩, ?_, ?_⟩
  all_goals first | decide +kernel | (unfold Runs State.reaches; decide +kernel) | (unfold Readable; decide +kernel) | (unfold Reaches; decide +kernel) | exact ⟨by decide +kernel, at_home⟩

/-- A leg that holds 256 granules. -/
def fullLeg : Leg := { globalMember.newLeg with grans := List.range' 1 256 }

/-- A word of the scratchpad; a word of DRAM in a leg with room, with the granule already in it, and in a full leg. -/
theorem witness_StoreWords :
    (let c := addressed 0xF000000000000040 member
     let m := mem 6 2 0
     Runs (mapped .ctl c) c nar ∧ (address c m).toNat % width m = 0 ∧ c.isTask = false ∧ m.ord = false ∧ (mapped .ctl c).escapeOk c = true ∧
      (∃ sp a, (c.begun .ctl nar).select 0 (address c m) (width m) .write = .here sp a ∧ sp = .sp ∧ a = 0x40)) ∧
    (let s := mapped .ctl globalMember
     let m := mem 6 2 0
     Runs s globalMember nar ∧ (globalMember.begun .ctl nar).leg = some globalMember.newLeg ∧
      Reaches s (globalMember.begun .ctl nar) (address globalMember m) (width m) .write .leg s 0x80000100 ∧
      globalMember.newLeg.entries + 1 ≤ 256 ∧ 0x80000100 / 64 = (0x80000100 + width m - 1) / 64 ∧ globalMember.newLeg.grans = []) ∧
    (let l : Leg := { globalMember.newLeg with grans := [0x2000004] }
     let c := { globalMember with leg := some l }
     (c.begun .ctl nar).leg = some l ∧ 0x80000100 / 64 ∈ l.grans ∧ l.entries + 0 ≤ 256 ∧ l.grans.Nodup) ∧
    (let c := { globalMember with leg := some fullLeg }
     let s := mapped .ctl c
     Runs s c nar ∧ (c.begun .ctl nar).leg = some fullLeg ∧ 256 < fullLeg.entries + 1 ∧ 0x80000100 / 64 ∉ fullLeg.grans ∧
      Reaches s (c.begun .ctl nar) (address c (mem 6 2 0)) 4 .write .leg s 0x80000100) := by
  refine ⟨⟨?_, ?_, ?_, ?_, ?_, .sp, 0x40, ?_, ?_, ?_⟩, ⟨?_, ?_, ?_, ?_, ?_, ?_⟩, ?_, ⟨?_, ?_, ?_, ?_, ?_⟩⟩
  all_goals first | decide +kernel | (unfold Runs State.reaches; decide +kernel) | (unfold Reaches; decide +kernel)

/-- The word 0 against s6 = 7: a test that holds, one that does not, one that was woken, one that waits on, one that met a vacated or a
lost unit, one whose word has moved; a write of
the word, of one in a lost and in a vacated unit, and one beside it. -/
theorem witness_WaitmWaitsForItsValue :
    (let s := mapped .ctl globalMember
     let m := mem 6 2 0
     Runs s globalMember nar ∧ globalMember.checkMode = false ∧ (address globalMember m).toNat % width m = 0 ∧
      Reaches s (globalMember.begun .ctl nar) (address globalMember m) (width m) .read .leg s 0x80000100 ∧
      (∀ i < 4, globalMember.newLeg.buf.find (0x80000100 + i) = none ∧ s.dram.unit 64 (0x80000100 + i) = .present) ∧
      natOfBytes ((List.range 4).map (fun i => s.dram.byte (0x80000100 + i))) = 0 ∧ (operand globalMember m).toNat = 7) ∧
    (let w : Waiter := { pa := 0x80000100, size := .b32, cond := .eq, val := 7, own := [], woke := some 7, by' := none, vac := false, lost := false }
     let c := { globalMember with waitm := some w }
     Runs (mapped .ctl c) c nar ∧ (mapped .ctl c).translate (c.begun .ctl nar) (address c (mem 6 2 0)) .read = .ok 0x80000100 (mapped .ctl c) ∧
      (mapped .ctl c).dram.gone = [] ∧ 0x80000100 % 64 + 4 ≤ 64 ∧ ∃ x y, c.waitm = some x ∧ x.pa = 0x80000100 ∧ x.woke = some y) ∧
    (let w : Waiter := { pa := 0x80000100, size := .b32, cond := .eq, val := 7, own := [], woke := some 7, by' := none, vac := true, lost := false }
     let c := { globalMember with waitm := some w }
     let d := { globalMember with waitm := some { w with woke := none, vac := false, lost := true } }
     Runs (mapped .ctl c) c nar ∧ Runs (mapped .ctl d) d nar ∧ (mapped .ctl d).translate (d.begun .ctl nar) (address d (mem 6 2 0)) .read = .ok 0x80000100 (mapped .ctl d)) ∧
    (let w : Waiter := { pa := 0x90000100, size := .b32, cond := .eq, val := 7, own := [], woke := none, by' := none, vac := true, lost := false }
     let c := { globalMember with waitm := some w }
     Runs (mapped .ctl c) c nar ∧ w.pa ≠ 0x80000100 ∧ (mapped .ctl c).dram.gone = [] ∧ w.pa % 64 + 4 ≤ 64 ∧ globalMember.newLeg.buf = [] ∧
      Reaches (mapped .ctl c) (c.begun .ctl nar) (address c (mem 6 2 0)) 4 .read .leg (mapped .ctl c) 0x80000100 ∧ AtHome (mapped .ctl c) 0x80000100 4) ∧
    (let w : Waiter := { pa := 0, size := .b32, cond := .gen, val := 7, own := [], woke := none, by' := none, vac := false, lost := false }
     let seven : Mem := { cells := [(0, 7)], units := [(0, .present)] }
     ({ seven with units := [(0, .lost)] } : Mem).unit 64 0 = .lost ∧ Mem.empty.unit 64 0 = .vacated ∧ seven.unit 64 0 = .present ∧
      (∃ a ∈ [3, 9], w.pa ≤ a ∧ a < w.pa + 4) ∧ (¬ ∃ a ∈ [4], w.pa ≤ a ∧ a < w.pa + 4) ∧ condTest w.cond (seven.word 0 4) w.val = true ∧
      condTest w.cond (Mem.empty.word 0 4) w.val = false) := by
  refine ⟨⟨?_, ?_, ?_, ?_, ?_, ?_, ?_⟩, ⟨?_, ?_, ?_, ?_, _, 7, rfl, rfl, rfl⟩, ⟨?_, ?_, ?_⟩, ⟨?_, ?_, ?_, ?_, ?_, ?_, ?_⟩, ?_⟩
  all_goals first | decide +kernel | (unfold Runs State.reaches; decide +kernel) | (unfold Reaches; decide +kernel) | exact ⟨by decide +kernel, at_home⟩

/-- A leg, the home granule; a task with an object; a swap, a compare that succeeds and one that fails. -/
theorem witness_AtomicWords :
    (let s := mapped .ctl globalMember
     let m := mem 6 2 0
     Runs s globalMember nar ∧ globalMember.checkMode = false ∧ (address globalMember m).toNat % width m = 0 ∧ globalMember.isTask = false ∧
      (globalMember.begun .ctl nar).leg = some globalMember.newLeg ∧
      Reaches s (globalMember.begun .ctl nar) (address globalMember m) (width m) .both .atomic s 0x80000100) ∧
    (let c := { taskMember with decl := some ⟨0x100, 64⟩ }
     let s := mapped .ctl c
     Runs s c nar ∧ c.isTask = true ∧ c.leg = none ∧ c.outside (address c (mem 6 2 0)) 4 = none ∧
      Reaches s (c.begun .ctl nar) (address c (mem 6 2 0)) 4 .both .taskAtomic s 0x80000100) ∧
    (let s := mapped .ctl globalMember
     let a : Atomic := { op := .swp, cmp := some 0, size := .b32, val := 7, va := 0x100, pa := 0x80000100, rel := false, scope := .core }
     let b := { a with cmp := some 1 }
     natOfBytes ((List.range 4).map (fun i => s.dram.byte (a.pa + i))) = 0 ∧ (∃ e, a.cmp = some e ∧ e.toNat = 0) ∧
      (∃ e, b.cmp = some e ∧ e.toNat ≠ 0) ∧
      ∀ i < 4, s.dram.unit 64 (a.pa + i) ≠ .lost ∧ s.dram.goneAt (a.pa + i) = false ∧ s.outside (a.pa + i) = false) := by
  refine ⟨⟨?_, ?_, ?_, ?_, ?_, ?_⟩, ⟨?_, ?_, ?_, ?_, ?_⟩, ⟨?_, ⟨0, ?_⟩, ⟨1, ?_⟩, ?_⟩⟩
  all_goals first | decide +kernel | (unfold Runs State.reaches; decide +kernel) | (unfold Reaches; decide +kernel)

/-- A shape record of two elements at virtual address 0x100 with the given ACCF (R185). -/
def recordOf (accf : Nat) : BitVec 512 := BitVec.ofNat 512 (0x100 + 2 * 2 ^ 64 + 2 ^ 96 + 2 ^ 168 + 2 ^ 232 + accf * 2 ^ 324)
/-- The machine with that record at physical address 0x80000100. -/
def recorded (accf : Nat) (c : Ctx) : State :=
  { mapped .ctl c with dram := table.store 64 64 (place 0x80000100 (bytesOfNat 64 (recordOf accf).toNat)) }

/-- A shape record of two bf16 elements whose adds may go to the promoted region at 0x1000. -/
def promoting : BitVec 512 := recordOf 1 + BitVec.ofNat 512 (Fmt.bf16.code.toNat * 2 ^ 320 + 2 ^ 336 + 0x1000 * 2 ^ 384)

/-- A reduction of the member that no home slice has applied. -/
def reduction : Red :=
  { kind := 0, op := .add, size := .b32, ty := .n32, val := 5, va := 0x100, pa := 0x80000100, v1 := 0, e1 := 0, v2 := 0, e2 := 0, cid := 1
    lid := 0, idx := 0, core := 0, sup := 0, legno := 0, stamp := 0, scope := .core, tag := 0, stage := .here, reply := none }

/-- A task; a value form, with .rel after an earlier reduction, after a copy and with nothing earlier; a record without ACCF, an index past its elements,
an element, one with a place in the promoted region. -/
theorem witness_ReductionsAreSent :
    (Runs (mapped .ctl taskMember) taskMember nar ∧ taskMember.isTask = true) ∧
    (let s := mapped .ctl globalMember
     let m := mem 6 2 0
     Runs s globalMember nar ∧ m.rel = false ∧ globalMember.isTask = false ∧
      Reaches s (globalMember.begun .ctl nar) (address globalMember m) (width m) .both .atomic s 0x80000100 ∧
      s.escapeOk (globalMember.begun .ctl nar) = true ∧ globalMember.newLeg.entries + 1 ≤ 256) ∧
    (let m := { mem 6 2 0 with rel := true }
     let s : State := { mapped .ctl globalMember with reds := [reduction] }
     m.rel = true ∧ s.escapeOk (globalMember.begun .ctl nar) = true ∧
      Reaches s (globalMember.begun .ctl nar) (address globalMember m) 4 .both .atomic s 0x80000100 ∧
      ∃ r ∈ s.reds, r.cid ≠ 0 ∧ r.stage ≠ .done ∧ r.cid = globalMember.cid) ∧
    (let c := { globalMember with inb := { member.inb with issued := 1 } }
     c.hold.getD (c.inb.issued, c.outb.issued) = (1, 0) ∧ ¬ 1 ≤ c.inb.retired ∧ globalMember.inb.issued ≤ globalMember.inb.retired ∧
      globalMember.outb.issued ≤ globalMember.outb.retired ∧ globalMember.ended = [] ∧ (mapped .ctl c).reds = []) ∧
    (let sh := Shape.ofRec promoting
     sh.ok promoting = true ∧ sh.accf = 1 ∧ (sh.targets 1).2 = some 0x1004 ∧
      Reaches (mapped .ctl globalMember) (globalMember.begun .ctl nar) (BitVec.ofNat 64 (sh.targets 1).1) 2 .both .atomic (mapped .ctl globalMember) 0x80000102 ∧
      Reaches (mapped .ctl globalMember) (globalMember.begun .ctl nar) 0x1004 4 .both .atomic (mapped .ctl globalMember) 0x80001004) ∧
    (let s := recorded 2 globalMember
     let m := mem 9 2 0
     let r := recOfBytes ((List.range 64).map (fun i => s.dram.byte (0x80000100 + i)))
     (address globalMember m).toNat % 64 = 0 ∧ Reaches s (globalMember.begun .ctl nar) (address globalMember m) 64 .both .atomic s 0x80000100 ∧
      (∀ i < 64, s.dram.unit 64 (0x80000100 + i) = .present ∧ s.homeDie ((0x80000100 + i) / 8 * 8) < 3) ∧ r = recordOf 2 ∧ (Shape.ofRec r).ok r = true ∧ (Shape.ofRec r).accf = 2 ∧
      (globalMember.ctl.reg 9).toNat < 2 ∧ 2 ≤ (globalMember.ctl.reg 6).toNat ∧ ((Shape.ofRec r).targets 0).2 = none ∧
      Reaches s (globalMember.begun .ctl nar) (BitVec.ofNat 64 ((Shape.ofRec r).targets 0).1) 4 .both .atomic s 0x80000100) ∧
    (Shape.ofRec (recordOf 0)).accf = 0 := by
  refine ⟨⟨?_, ?_⟩, ⟨?_, ?_, ?_, ?_, ?_, ?_⟩, ⟨?_, ?_, ?_, ?_⟩, ?_, ⟨?_, ?_, ?_, ?_, ?_⟩, ⟨?_, ?_, ?_, ?_, ?_, ?_, ?_, ?_, ?_, ?_⟩, ?_⟩
  all_goals first | decide +kernel | (unfold Runs State.reaches; decide +kernel) | (unfold Reaches; decide +kernel)

/-- TRAP in a joined member, with an exposed leg, of a load sequencer; ERET of a handler with its own leg, outside one, in an inverse routine. -/
theorem witness_TrapWordsAndEret :
    (Runs (on .ctl member) member nar ∧ EscapeFree (on .ctl member) member) ∧ (Runs (on .ctl exposed) exposed nar ∧ (on .ctl exposed).escapeOk exposed = false) ∧
    ((on .load member).activeCtx 0 = some member ∧ (on .load member).escapeOk member = true) ∧
    (let s := handling handler
     let b := handler.begun .ctl nar
     Runs s handler nar ∧ handler.kind = .handler 1 ∧ handler.inInverse = false ∧ b.leg = some handler.newLeg ∧ s.mayCommit b handler.newLeg = true ∧
      handler.ended = [] ∧
      (let u := s.commitLeg { b with leg := none, ended := [handler.newLeg] } handler.newLeg
       (u.ctx 2).isSome = true ∧ (u.ctx 2).map (fun k => k.cid) = some 2 ∧ u.ctx 1 = some served) ∧ served.trap.map (fun x => (x.held, x.place)) = some (false, false)) ∧
    (Runs (on .ctl inverse) inverse nar ∧ inverse.inInverse = true ∧ member.inInverse = false ∧ member.isHandler = false) := by
  unfold Runs State.reaches EscapeFree; refine ⟨?_, ?_, ?_, ?_, ?_⟩ <;> decide +kernel

/-- TLBI with nothing on its way, and with an ended leg; HINT of a page that translates and of one that does not. -/
theorem witness_TlbiAndHint :
    (let s := mapped .ctl globalMember
     Runs s globalMember nar ∧ s.escapeOk globalMember = true ∧ s.earlierDone globalMember = true ∧ s.quietTlb (some (globalMember.begun .ctl nar)) (fun _ => true) = true ∧
      s.atc = [] ∧
      entry ∈ (s.core 0).tlb ∧ (∃ pa, peek s.dram globalMember.root (globalMember.ctl.pair 2) .read = .ok pa)) ∧
    (let c := { globalMember with ended := [member.newLeg] }
     Runs (mapped .ctl c) c nar ∧ (mapped .ctl c).earlierDone c = false) ∧
    (∃ f, peek Mem.empty globalMember.root (globalMember.ctl.pair 2) .read = .error f) := by
  refine ⟨⟨?_, ?_, ?_, ?_, ?_, ?_, _, translates.1⟩, ?_, _, rfl⟩
  all_goals first | decide +kernel | (unfold Runs State.reaches; decide +kernel)

/-- A core's list that is empty, that holds the range, that is full without it. -/
theorem witness_WatchListWords :
    (Runs (on .ctl member) member nar ∧ (on .ctl member).escapeOk member = true ∧ ((on .ctl member).core 0).watch = []) ∧
    (let full : List Watch := (List.range 16).map (fun i => { key := i, len := 3 })
     let s := (on .ctl member).setCore 0 { (on .ctl member).core 0 with watch := full }
     Runs s member nar ∧ (s.core 0).watch.length = 16 ∧ ({ key := 0, len := 3 } : Watch) ∈ (s.core 0).watch ∧
      ({ key := 0, len := 31 } : Watch) ∉ (s.core 0).watch) := by
  unfold Runs State.reaches; refine ⟨?_, ?_⟩ <;> decide +kernel

/-- PLLD of an aligned image; PLLD in a handler, in a task; PLSW without a pending image, with a filled shadow plane, in forked mode. -/
theorem witness_PlanesLoadAndSwitch :
    (let c := addressed 0x10000 member
     let s := mapped .ctl c
     Runs s c nar ∧ s.escapeOk c = true ∧ c.ended = [] ∧ (s.core 0).fill = none ∧ c.ctl.pair 2 = 0x10000 ∧
      (match s.pages (c.begun .ctl nar) 0x10000 .exec 0 [] 113 with
        | .ok _ ps => ps.length == 113
        | _ => false) = true) ∧
    (Runs (on .ctl handler) handler nar ∧ handler.isHandler = true ∧ handler.isTask = false) ∧ (Runs (on .ctl taskMember) taskMember nar ∧ taskMember.isTask = true) ∧
    (Runs (on .ctl member) member nar ∧ member.joined = true ∧ member.pimage = none ∧ member.ctl.pair 2 = 0 ∧ globalMember.ctl.pair 2 ≠ 0) ∧
    (let c := { member with pimage := some 0x10000 }
     let s := (on .ctl c).setCore 0 { (on .ctl c).core 0 with shadow := some ⟨0x10000, [], []⟩ }
     Runs s c nar ∧ s.escapeOk c = true ∧ (s.core 0).shadow = some ⟨0x10000, [], []⟩ ∧ c.idleEngines = true ∧ c.openBcasts = []) ∧
    (Runs (on .ctl forked) forked nar ∧ forked.joined = false) := by
  unfold Runs State.reaches; refine ⟨?_, ?_, ?_, ?_, ?_, ?_⟩ <;> decide +kernel

/-- A record of zeros at an aligned address, a task, a misaligned one; the sources of LSTAT and none. -/
theorem witness_LaunchWords :
    (let s := { mapped .ctl globalMember with dram := { table with units := table.units ++ [(0x2000005, .present)] } }
     let plain := { globalMember.begun .ctl nar with dmode := 0 }
     Runs s globalMember nar ∧ (globalMember.ctl.pair 2).toNat % 128 = 0 ∧ s.escapeOk globalMember = true ∧ s.earlierDone globalMember = true ∧
      s.access plain true (globalMember.ctl.pair 2) 128 .read .bulk none = .ok s 0x80000100 ∧ s.waitingOf 0xF000 < 16 ∧
      ∀ i < 128, s.dram.unit 64 (0x80000100 + i) = .present) ∧
    (Runs (mapped .ctl taskMember) taskMember nar ∧ taskMember.isTask = true) ∧
    (let c := addressed 0x101 member
     Runs (mapped .ctl c) c nar ∧ (c.ctl.pair 2).toNat % 128 ≠ 0) ∧
    (let from' (a : BitVec 64) : Nat := (a.extractLsb' 0 48).toNat / 2 ^ 32
     from' 0x0FFF_0000_0000 < 0x1000 ∧ 0x1000 ≤ from' 0x1000_0000_0000 ∧ from' 0xEFFF_0000_0000 < 0xF000 ∧ 0xF000 ≤ from' 0xF000_0000_0001 ∧
      from' 0xF17F_0000_0000 < 0xF180 ∧ 0xF180 ≤ from' 0xF180_0000_0000 ∧ State.reset.passed 0xF000_0000_0001 = false) := by
  unfold Runs State.reaches; refine ⟨?_, ?_, ?_, ?_⟩ <;> decide +kernel

/-- A record of zeros has S = 0 (R18). -/
theorem zeros_refused (mem : Mem) (root : BitVec 64) : ∃ bs, bs.length = 128 ∧ firstOf (recordChecks mem root bs) 2 := by
  have w (k : Nat) : natOfBytes (((List.replicate 128 (0 : Byte)).drop (8 * k)).take 8) = 0 := by
    rw [List.drop_replicate, List.take_replicate]
    generalize min 8 (128 - 8 * k) = n
    induction n with
    | zero => rfl
    | succ n ih => simpa [List.replicate_succ, natOfBytes] using ih
  refine ⟨List.replicate 128 0, List.length_replicate, ?_⟩
  generalize List.replicate 128 (0 : Byte) = bs at w
  have z := And.intro (w 0) (And.intro (w 2) (And.intro (w 3) (And.intro (w 4) (w 10))))
  simp only [Nat.reduceMul, List.drop_zero] at z
  refine ⟨fun h => ?_, fun _ => ⟨fun _ => rfl, fun h => absurd (.inl ?_) h⟩⟩
  · simp [w, z] at h
  · simp [z]

/-- The handler's trapped context at its bank 0; outside a handler; another bank; an image address; a handler with an earlier leg. -/
theorem witness_ContextImages :
    (let h := addressed 0x10000 handler
     let s := { handling h with dram := table, cores := [(0, { Core.idle with active := some 2, plane := some ⟨0, [], []⟩, tlb := [entry] })] }
     Runs s h nar ∧ h.kind = .handler 1 ∧ s.ctx 1 = some served ∧ served.bank = 0 ∧ (h.ctl.pair 2).toNat % 4096 = 0 ∧ s.escapeOk h = true ∧
      (∃ ps, s.pages (h.begun .ctl nar) (h.ctl.pair 2) .write 0 [] 107 = .ok s ps ∧ s.writeHeld (some (h.begun .ctl nar)) (pieceGrans ps) = false) ∧
      (1 : BitVec 2).toNat ≠ served.bank) ∧
    (Runs (on .ctl member) member nar ∧ member.isHandler = false) ∧
    (let h := { handler with ended := [member.newLeg] }
     Runs (handling h) h nar ∧ (handling h).ctx 1 = some served ∧ (handling h).escapeOk h = true ∧ (handling h).earlierDone (h.begun .ctl nar) = false) := by
  refine ⟨⟨?_, ?_, ?_, ?_, ?_, ?_, ⟨(List.range 107).map (fun i => (4096 * i, 0x80010000 + 4096 * i)), ?_, ?_⟩, ?_⟩, ?_, ?_⟩
  all_goals first | decide +kernel | (unfold Runs State.reaches; decide +kernel)

/-! ### A context's image at physical address 0x80010000 -/

/-- A run of units that are present. -/
def presentFrom (b n : Nat) : SMap UState := (List.range' b n).map (fun g => (g, .present))

theorem get_presentFrom (n b k : Nat) : SMap.get .vacated (presentFrom b n) k = if b ≤ k ∧ k < b + n then .present else .vacated := by
  induction n generalizing b with
  | zero => simp [presentFrom, SMap.get]
  | succ n ih =>
    have e : presentFrom b (n + 1) = (b, .present) :: presentFrom (b + 1) n := by simp [presentFrom, List.range'_succ]
    rw [e, SMap.get, ih]
    split <;> split <;> first | rfl | (split <;> first | rfl | omega) | omega

/-- The image's pages. -/
def imagePages : List (Nat × Nat) := (List.range 107).map (fun i => (4096 * i, 0x80010000 + 4096 * i))

theorem imagePages_grans {g : Nat} (h : g ∈ pieceGrans imagePages) : 0x2000400 ≤ g ∧ g < 0x2000400 + 6848 := by
  simp only [pieceGrans, imagePages, List.mem_flatMap, List.mem_map, List.mem_range] at h
  obtain ⟨p, ⟨i, hi, rfl⟩, j, hj, rfl⟩ := h
  have : (0x80010000 + 4096 * i) / 64 = 0x2000400 + 64 * i := by omega
  simp only [this]; omega

theorem get_mapped {f : Nat → Byte} (b k : Nat) (l : List Nat) :
    SMap.get 0 (l.map (fun i => (b + i, f i))) (b + k) = if k ∈ l then f k else 0 := by
  induction l with
  | nil => simp [SMap.get]
  | cons x r ih =>
    simp only [List.map_cons, SMap.get, ih, List.mem_cons]
    by_cases h : x = k
    · subst h; simp
    · rw [if_neg (by omega)]
      simp only [show (k = x) = False from eq_false (fun e => h e.symm), false_or]

theorem internalOffs_bound {i : Nat} (h : i ∈ internalOffs) : i < 107 * 4096 ∧ ¬ (0x1420 ≤ i ∧ i < 0x1800) ∧ ¬ (0x2A200 ≤ i ∧ i < 0x2B000) := by
  simp only [internalOffs, List.mem_append, List.mem_flatMap, List.mem_map, List.mem_range] at h
  obtain ⟨q, hq, j, hj, rfl⟩ | ⟨j, hj, rfl⟩ := h <;> omega

/-- The handler with the image's address in a pair, and the machine whose memory holds, of an image, the internal bytes of number 1. -/
def reader : Ctx := addressed 0x10000 handler
def imaged : State :=
  { handling reader with
    dram := { cells := internalOffs.map (fun i => (0x80010000 + i, Config.imageInternal 1 i)), units := presentFrom 0x2000400 6848 }
    saved := [(1, served)]
    cores := [(0, { Core.idle with active := some 2, plane := some ⟨0, [], []⟩, tlb := [entry] })] }

theorem imaged_whole : imaged.pagesHold .vacated imagePages = false ∧ imaged.pagesHold .lost imagePages = false := by
  have h : ∀ g ∈ pieceGrans imagePages, imaged.dram.units.get .vacated g = .present := by
    intro g hg
    rw [show imaged.dram.units = presentFrom 0x2000400 6848 from rfl, get_presentFrom, if_pos (imagePages_grans hg)]
  have u : ∀ g ∈ pieceGrans imagePages, imaged.dram.unit 64 (64 * g) = .present := by
    intro g hg
    rw [Mem.unit, show imaged.dram.goneAt (64 * g) = false from rfl, if_neg (by decide), Nat.mul_div_cancel_left g (by decide)]
    exact h g hg
  constructor <;> (unfold State.pagesHold; rw [List.any_eq_false]; intro g hg; rw [u g hg]; decide)

theorem imaged_byte {off : Nat} (h : off < 107 * 4096) :
    imaged.pageByte imagePages off = if off ∈ internalOffs then Config.imageInternal 1 off else 0 := by
  have e : imagePages[off / 4096]? = some (4096 * (off / 4096), 0x80010000 + 4096 * (off / 4096)) := by
    simp only [imagePages, List.getElem?_map]
    rw [List.getElem?_range (by omega)]; rfl
  simp only [State.pageByte, e]
  simp only [Mem.byte, imaged]
  rw [show 0x80010000 + 4096 * (off / 4096) + off % 4096 = 0x80010000 + off by omega, get_mapped]

theorem imaged_zero {off : Nat} (h : (0x1420 ≤ off ∧ off < 0x1800) ∨ (0x2A200 ≤ off ∧ off < 0x2B000)) :
    imaged.pageByte imagePages off = 0 := by
  rw [imaged_byte (by omega), if_neg]
  intro m; have := internalOffs_bound m; omega

theorem imaged_num {off n : Nat} (h : 0x1420 ≤ off ∧ off + n ≤ 0x1800) : imageNum (imaged.pageByte imagePages) off n = 0 := by
  have z : (List.range n).map (fun i => imaged.pageByte imagePages (off + i)) = List.replicate n 0 := by
    rw [List.eq_replicate_iff]
    refine ⟨by simp, fun x hx => ?_⟩
    obtain ⟨i, hi, rfl⟩ := List.mem_map.mp hx
    exact imaged_zero (by have := List.mem_range.mp hi; omega)
  rw [imageNum, z]
  clear z h
  induction n with
  | zero => rfl
  | succ n ih => simpa [List.replicate_succ, natOfBytes] using ih

theorem imaged_found : imaged.findImage (imaged.pageByte imagePages) = some served := by
  have h : internalIs (imaged.pageByte imagePages) 1 = true := by
    rw [internalIs, List.all_eq_true]
    intro i hi
    rw [imaged_byte (internalOffs_bound hi).1, if_pos hi]
    exact beq_self_eq_true _
  rw [State.findImage, show imaged.saved = [(1, served)] by simp only [imaged]]
  simp [h]

theorem imaged_clean : imageClean (imaged.pageByte imagePages) = true := by
  unfold imageClean
  simp only [Bool.and_eq_true, List.all_eq_true, List.mem_range, beq_iff_eq]
  refine ⟨⟨⟨by rw [imaged_num (by omega)], fun i hi => imaged_zero (by omega)⟩, fun i hi => imaged_zero (by omega)⟩,
    fun i hi => imaged_zero (by omega)⟩

theorem imaged_translates {v : BitVec 64} (h : v.toNat < 2 ^ 31) : imaged.translate (reader.begun .ctl nar) v .read = .ok (0x80000000 + v.toNat) imaged := by
  have e : (imaged.core (reader.begun .ctl nar).core).tlb = [entry] := by decide +kernel
  have r : rootAsid (reader.begun .ctl nar).root = 0 := by decide +kernel
  have f : entry.serves 0 v.toNat .read = true := by
    have : v.toNat / 2 ^ 31 = 0 := by omega
    simp only [TlbEnt.serves, entry, this]
    decide
  have b : ¬ badRoot (reader.begun .ctl nar).root = true := by decide +kernel
  rw [State.translate, State.translateVia, if_neg (by omega), if_neg b, show (imaged.core (reader.begun .ctl nar).core).entries none = [entry] from e, r, show [entry].find? (fun t => t.serves 0 v.toNat .read) = some entry from List.find?_cons_of_pos f]
  simp only [entry]
  rw [Nat.mod_eq_of_lt h]
  simp [Need.writes, State.streamOn]

theorem imaged_pages (n : Nat) : ∀ (off : Nat) (acc : List (Nat × Nat)), off + 4096 * n ≤ 107 * 4096 →
    imaged.pages (reader.begun .ctl nar) 0x10000 .read off acc n =
      .ok imaged (acc ++ (List.range n).map (fun i => (off + 4096 * i, 0x80010000 + (off + 4096 * i)))) := by
  induction n with
  | zero => intro off acc _; simp [State.pages]
  | succ n ih =>
    intro off acc h
    have v : ((0x10000 : BitVec 64) + BitVec.ofNat 64 off).toNat = 0x10000 + off := by
      rw [BitVec.toNat_add, BitVec.toNat_ofNat, show (0x10000 : BitVec 64).toNat = 0x10000 from rfl]; omega
    rw [State.pages, imaged_translates (by omega), v]
    simp only []
    rw [show imaged.outside (0x80000000 + (0x10000 + off)) = false from
      Bool.or_eq_false_iff.mpr ⟨decide_eq_false (by unfold windowBase; omega), Bool.and_eq_false_iff.mpr
        (.inl (decide_eq_false (by unfold memTop stackTop stackBytes; omega)))⟩]
    rw [if_neg (by decide), ih (off + 4096) _ (by omega), List.range_succ_eq_map, List.map_cons, List.map_map,
      List.append_assoc, List.singleton_append]
    congr 3
    · simp; omega
    · apply List.map_congr_left; intro i _; simp; omega

/-- CTXL of an image that this part wrote. -/
theorem witness_ContextImages_load : Runs imaged reader nar ∧ reader.kind = .handler 1 ∧ imaged.escapeOk reader = true ∧
    imaged.pages (reader.begun .ctl nar) (reader.ctl.pair 2) .read 0 [] 107 = .ok imaged imagePages ∧
    imaged.earlierDone (reader.begun .ctl nar) = true ∧ imaged.findImage (imaged.pageByte imagePages) = some served ∧
    imaged.pagesHold .lost imagePages = false ∧ imaged.pagesHold .vacated imagePages = false ∧ imageClean (imaged.pageByte imagePages) = true ∧
    imageNum (imaged.pageByte imagePages) 0x1448 8 = served.lid.toNat ∧ imageNum (imaged.pageByte imagePages) 0x1450 8 = served.idx ∧ served.cid = 1 := by
  refine ⟨?_, rfl, ?_, ?_, ?_, imaged_found, imaged_whole.2, imaged_whole.1, imaged_clean, imaged_num (by omega), imaged_num (by omega), rfl⟩
  · unfold Runs State.reaches; decide +kernel
  · decide +kernel
  · rw [show reader.ctl.pair 2 = 0x10000 by decide +kernel, imaged_pages 107 0 [] (by omega)]
    simp [imagePages]
  · decide +kernel

/-! ### Outriders -/

/-- A company of one member with tasks, whose table has kind 1 commuting with itself exactly and kind 2 with nothing. -/
def record : LRec :=
  { image := 0, entC := 0, entL := 0, entS := 0, entX := 0, s := 1, d := 1, c := 1, k := 1, prio := 0, cls := true, dmode := 0, plots := 48
    noxf := false, nocan := false, novec := false, nomx := false, param := 0, hseq := 0, deps := [], pool := 0x100000 }
def company : Launch :=
  { lid := 0, src := 0, record := record, root := rootWord, stat := .running, depsOk := [], since := 0, aged := 0, reserve := false, started := 0, began := none, stale := false
    missed := [], retired := [], parents := [], seq := 0, tasks := []
    table := [(1, { comm := 2, exact := 2, valid := true }), (2, { comm := 0, exact := 0, valid := true })], trapmiss := false, regs := []
    displaced := false }
def task (seq : BitVec 64) : TaskId := { seq := seq, pool := 0, slot := 0, record := [], aborts := 0 }
/-- A task of that company whose pair s4:s5 has an address, and its machine. -/
def atTask (va : BitVec 64) : Ctx := addressed va { member with kind := .task (task 5) }
def inCompany (l : Launch) (c : Ctx) : State := { mapped .ctl c with launches := [l] }
/-- Registrations near 0x1000 of another task: an older one of kind 2, a younger one of kind 1, one of a kind that is not valid. -/
def near (seq : BitVec 64) (kind : Nat) : Reg := { seq := seq, base := 0x1000, size := 64, kind := kind }

/-- ABOP's cases: outside a task; misaligned; a full stack; kinds that are not exact; a miss; no conflict; an older task in conflict; a younger one. -/
theorem witness_OutriderWords :
    (Runs (on .ctl member) member nar ∧ member.isTask = false) ∧ (Runs (on .ctl inverse) inverse nar ∧ inverse.inInverse = true ∧ inverse.inv = some 0) ∧
    (let c := atTask 0x1001
     Runs (inCompany company c) c nar ∧ c.kind = .task (task 5) ∧ c.inInverse = false ∧ c.decl = none ∧ (c.ctl.pair 2).toNat % 64 ≠ 0) ∧
    (let c := { atTask 0x1000 with bills := 64 }
     Runs (inCompany company c) c nar ∧ 64 ≤ c.bills ∧ (c.ctl.pair 2).toNat % 64 = 0) ∧
    (let c := atTask 0x1000
     let s := inCompany { company with regs := [near 4 2] } c
     Runs s c nar ∧ Readable s c [4, 5, 8, 9, 10, 11] ∧ c.bills = 0 ∧ (c.ctl.reg 8).toNat < 16384 ∧ s.launch c.lid = some { company with regs := [near 4 2] } ∧
      c.idleEngines = true ∧ s.escapeOk c = true) ∧
    (let row (k : Nat) : CRow := company.table.get { comm := 0, exact := 0, valid := false } k
     (row 3).valid = false ∧ ((row 1).valid = true ∧ ∀ y < 64, (row y).valid = true → (row 1).comm.getLsbD y = true → (row 1).exact.getLsbD y = true) ∧
     ((0x1000 < (near 4 2).base + (near 4 2).size ∧ (near 4 2).base < 0x1000 + 64) ∧ (row 1).comm.getLsbD 2 = false ∧ (4 : BitVec 64) < 5) ∧
     ((row 1).comm.getLsbD 1 = true) ∧ ((row 2).comm.getLsbD 1 = false ∧ (5 : BitVec 64) ≤ 6) ∧
     ¬ (0x1000 < (near 4 2).base - 64 + 64)) ∧
    (let c := { atTask 0x1000 with inb := { Chan.empty with shadow := some { word := .nop nar, idx := 0, dst := 0, src := 0, len := 0, arg := 1, list := [], dc := 0, cancel := false, legs := 0, other := 0, stamp := 0, bno := 0, once := false } } }
     Runs (inCompany company c) c nar ∧ c.idleEngines = false) := by
  unfold Runs State.reaches Readable; refine ⟨?_, ?_, ?_, ?_, ?_, ?_, ?_⟩ <;> decide +kernel

/-- A member of the company, at aligned and misaligned records; not in order; the table image of zeros, one with a reserved bit, one that does not agree; a full pool. -/
theorem witness_CompanyWords :
    (let c := addressed 0x100 member
     let s := inCompany company c
     let plain := { c.begun .ctl nar with dmode := 0 }
     Runs s c nar ∧ c.checkMode = false ∧ c.isRegular = true ∧ s.launch c.lid = some company ∧ company.record.cls = true ∧ s.escapeOk c = true ∧
      s.inOrder (c.begun .ctl nar) = true ∧ company.tasks = [] ∧ (c.ctl.pair 2).toNat % 64 = 0 ∧
      s.access plain true 0x100 32 .read .bulk none = .ok s 0x80000100 ∧ (∀ i < 32, s.dram.unit 64 (0x80000100 + i) = .present) ∧
      s.translate (c.begun .ctl nar) company.record.pool .both = .ok 0x80100000 s ∧ s.outside 0x80100000 = false ∧ s.access plain true 0x100 2112 .read .bulk none = .ok s 0x80000100) ∧
    (∀ i < 2112, (presentFrom 0x2000004 33).get .vacated ((0x80000100 + i) / 64) = .present) ∧
    (let c := addressed 0x1FC0 member
     (inCompany company c).reach (c.begun .ctl nar) none .read [] (splitPieces (c.ctl.pair 2) 2 2112) =
      .ok (inCompany company c) [(0x1FC0, 0x80001FC0, 64), (0x2000, 0x80002000, 2048)]) ∧
    (Runs (on .ctl member) member nar ∧ (on .ctl member).launch member.lid = none) ∧
    (let c := addressed 0x110 member
     Runs (inCompany company c) c nar ∧ (c.ctl.pair 2).toNat % 32 ≠ 0) ∧
    (let c := { globalMember with ended := [member.newLeg] }
     Runs (inCompany company c) c nar ∧ (inCompany company c).inOrder (c.begun .ctl nar) = false) ∧
    (let full := (List.range 256).map (fun i => ({ id := { task (BitVec.ofNat 64 i) with slot := i }, stat := .queued, cid := none } : Task))
     ∀ i < 256, ∃ t ∈ full, t.id.pool = 0 ∧ t.id.slot = i) := by
  refine ⟨⟨?_, ?_, ?_, ?_, ?_, ?_, ?_, ?_, ?_, ?_, ?_, ?_, ?_, ?_⟩, ?_, ?_, ?_, ?_, ?_, ?_⟩
  case refine_15 =>
    intro i hi
    rw [get_presentFrom, if_pos (by omega)]
  case refine_20 =>
    intro full i hi
    exact ⟨_, List.mem_map.mpr ⟨i, List.mem_range.mpr hi, rfl⟩, rfl, rfl⟩
  all_goals first | decide +kernel | (unfold Runs State.reaches; decide +kernel)

/-! ### Streams -/

/-- The load sequencer with its length in s6, its count in s7, and addresses in two pairs. -/
def streaming (n p : Word) (dst src : BitVec 64) (c : Ctx) : Ctx :=
  let rs : List (BitVec 5 × Word) := [(8, dst.extractLsb' 0 32), (9, dst.extractLsb' 32 32), (4, src.extractLsb' 0 32),
    (5, src.extractLsb' 32 32), (6, n), (7, p)]
  { c with load := rs.foldl (fun x r => x.setReg r.1 r.2) c.load, root := rootWord }
def command : Cmd :=
  { word := .nop nar, idx := 0, dst := 0, src := 0, len := 0, arg := 1, list := [], dc := 0, cancel := false, legs := 0, other := 0, stamp := 0, bno := 0
    once := false }

/-- A copy with free shadow registers whose ranges just fit, one byte too far, a full channel; NOCAN; a list whose total is 2^32; a canopy copy of 65 bytes, and one row past its end. -/
theorem witness_CopyWords :
    (let c := streaming 4 1 0x2FFFFC 0 member
     let f := cp .sp .sp 4 0 2 0 6
     let s := on .load c
     s.reaches c wn ∧ OnCore s c ∧ c.inb.shadow = none ∧ Readable s c [8, 9, 4, 5, 6, 7] ∧ ¬ (inSpace c f.tsp (c.load.pair f.toP) (c.load.reg 6).toNat 1).1 ∧
      ¬ (inSpace c f.fsp (c.load.pair f.fromP) (c.load.reg 6).toNat 0).1 ∧ (inSpace c f.tsp 0x2FFFFD 4 1).1 ∧ ¬ (inSpace c f.tsp 0x2FFFFD 0 1).1) ∧
    (let c := { member with inb := { Chan.empty with shadow := some command } }
     (on .load c).reaches c wn ∧ c.inb.shadow ≠ none) ∧
    (let c := { member with nocan := true, nomx := true }
     (on .store c).reaches c wn ∧ c.nocan = true ∧ c.nomx = true) ∧
    (let c := streaming 0x10000 0x10000 0 0 member
     (on .load c).reaches c wn ∧ 2 ^ 32 - 1 < (c.load.reg 6).toNat * (c.load.reg 7).toNat ∧ (c.load.reg 6).toNat * 0xFFFF ≤ 2 ^ 32 - 1) ∧
    (let n := 65
     n % 64 ≠ 0 ∧ 128 % 128 = 0 ∧ (131072 < 131071 + 2 * (128 / 128)) ∧ ¬ (131072 < 131070 + 2 * (128 / 128))) := by
  unfold Readable inSpace State.reaches OnCore; refine ⟨?_, ?_, ?_, ?_, ?_⟩ <;> decide +kernel

/-- A master of 1 by 32 elements of bf16 and its target of 32 by 1 of e4m3 (R185, R433). -/
def masterRec : BitVec 512 := BitVec.ofNat 512 (0x40 + 2 ^ 64 + 32 * 2 ^ 96 + 2 ^ 168 + 2 ^ 232 + Fmt.bf16.code.toNat * 2 ^ 320)
def targetRec : BitVec 512 :=
  BitVec.ofNat 512 (0x40 + 32 * 2 ^ 64 + 2 ^ 96 + 2 ^ 168 + 2 ^ 232 + Fmt.e4m3.code.toNat * 2 ^ 320 + 0x1000 * 2 ^ 384)
def requant : Ctx := streaming 0 1 0x140 0x100 member
def requants : State :=
  let m := (table.store 64 64 (place 0x80000100 (bytesOfNat 64 masterRec.toNat))).store 64 64 (place 0x80000140 (bytesOfNat 64 targetRec.toNat))
  { mapped .load requant with dram := m }

/-- XFER in phase 1 to another member and out of its phase; SSTR of local and of global memory; RQNT with both records, and with a master that is none. -/
theorem witness_CopyWords_records :
    (let c := { streaming 4 1 0 0 member with size := 2, phase := true }
     let d := { member with cid := 2, idx := 1 }
     let s := { on .load c with ctxs := [(1, c), (2, d)] }
     s.reaches c wn ∧ c.isTask = false ∧ c.isHandler = false ∧ c.noxf = false ∧ c.phase = true ∧
      ¬ (c.size ≤ (c.load.reg 7).toNat ∨ ∀ m ∈ s.allCtxs, m.kind = .regular → m.lid = c.lid → m.idx ≠ (c.load.reg 7).toNat)) ∧
    (let c := streaming 4 2 0 0 member
     (on .load c).reaches c wn ∧ c.phase = false ∧ c.size ≤ (c.load.reg 7).toNat) ∧
    (let c := streaming 4 1 0 0x100 member
     let s := mapped .load c
     s.reaches c wn ∧ (c.load.pair 2 + 0).toNat % 8 = 0 ∧ s.translate (c.begun .load wn) 0x100 .read = .ok 0x80000100 s ∧ (0x100 : Nat) % 4096 ≤ 4064 ∧
      s.translate (c.begun .load wn) 0xFE8 .read = .ok 0x80000FE8 s ∧ (4064 : Nat) < 0xFE8 % 4096 ∧ s.translate (c.begun .load wn) 0x1000 .read = .ok 0x80001000 s) ∧
    (let b := requant.begun .load wn
     requants.reaches requant wn ∧ OnCore requants requant ∧ requants.reach b none .read [] [(0x100, 64)] = .ok requants [(0x100, 0x80000100, 64)] ∧
      requants.bulkTests b false 0 [(0x100, 0x80000100, 64)] [] = .ok requants ∧ requants.dram.unit 64 0x80000100 = .present ∧
      requants.reach b none .read [] [(0x140, 64)] = .ok requants [(0x140, 0x80000140, 64)] ∧
      requants.bulkTests b false 0 [(0x140, 0x80000140, 64)] [] = .ok requants ∧ requants.dram.unit 64 0x80000140 = .present ∧
      BitVec.ofNat 512 (natOfBytes ((List.range 64).map (fun i => requants.dram.byte (0x80000100 + i)))) = masterRec ∧
      BitVec.ofNat 512 (natOfBytes ((List.range 64).map (fun i => requants.dram.byte (0x80000140 + i)))) = targetRec ∧ requants.escapeOk requant = true ∧
      (∀ i < 8, requants.homeDie (0x80000100 + 8 * i) < 3 ∧ requants.homeDie (0x80000140 + 8 * i) < 3) ∧ isMaster masterRec ∧ isTarget masterRec targetRec ∧ ¬ isMaster targetRec ∧ ¬ isTarget masterRec masterRec) := by
  unfold isMaster isTarget State.reaches OnCore; refine ⟨?_, ?_, ?_, ?_⟩ <;> decide +kernel

/-- Every copy word issues where its checks pass: copies of 128 bytes, lists of four elements, a record in local memory, a message to member 1. -/
theorem witness_CopyWords_complete :
    (let c := streaming 128 1 0x400 0x800 member
     [Instr.cpy wn (cp .sp .sp 4 0 2 0 6), .dup wn (cp .sp .sp 4 0 2 0 6), .canf wn (cp .can .sp 12 0 2 0 6),
       .canr wn (cp .sp .can 4 0 12 0 6), .zfil wn (cp .sp .sp 4 0 0 0 6), .spf wn (cp .sp .global 0 0 2 0 6), .migr wn (cp .sp .global 0 0 2 0 6),
       .sstr wn (cp .sp .sp 0 5 2 0 0)].all (fun w => (does w .load c).isSome) = true) ∧
    (let c := streaming 4 4 0x400 0x800 member
     [Instr.gthr wn (cp .sp .global 4 0 2 0 6) false, .sctr wn (cp .global .sp 4 0 2 0 6) true].all (fun w => (does w .load c).isSome) = true) ∧
    (let c := { streaming 4 1 0 0 member with size := 2, phase := true }
     let s := { on .load c with ctxs := [(1, c), (2, { member with cid := 2, idx := 1 })] }
     (next? (exec (.xfer wn (cp .sp .sp 4 0 2 0 6)) s)).map (fun t => t.last) = some .issued) ∧
    (next? (exec (.rqnt wn (cp .global .global 4 0 2 0 0)) requants)).map (fun t => t.last) = some .issued := by
  refine ⟨?_, ?_, ?_, ?_⟩ <;> decide +kernel

def mcommand : MCmd :=
  { op := .aclr, f := mx, wait := 0xFF, sig := 0xFF, da := 0, dm := 0, idx := 0, chained := false, cancel := false, bno := 0, no := 0, rows := false, exps := [], due := some 3, born := 0 }

/-- NOMX; a full shadow set; ACLR into an idle array and behind an active word; a check that traps. -/
theorem witness_MatrixWordsIssue :
    (let c := { member with nomx := true }
     (on .comp c).reaches c wn ∧ c.nomx = true) ∧
    (let c := { member with mx := { MxChan.empty with active := some mcommand, shadow := some mcommand } }
     (on .comp c).reaches c wn ∧ c.mx.shadow ≠ none) ∧
    ((on .comp member).reaches member wn ∧ OnCore (on .comp member) member ∧ Claims.matrixWord (.aclr wn mx) = some (.aclr, wn, mx) ∧ member.mx.active = none ∧
      (member.begun .comp wn).mxTrap .aclr mx = none ∧
      (mxOpnds .aclr mx (member.descr mx.adesc) (member.descr mx.mdesc)).any (member.begun .comp wn).awaitsElems = false) ∧
    (let c := { member with mx := { MxChan.empty with active := some mcommand } }
     (on .comp c).reaches c wn ∧ c.mx.active ≠ none ∧ c.mx.shadow = none ∧ (c.begun .comp wn).mxTrap .aclr mx = none) ∧
    ((member.begun .comp wn).mxTrap .mma { mx with af := .bf16, bf := .bf16, ks := 1 } ≠ none) := by
  unfold State.reaches OnCore; refine ⟨?_, ?_, ?_, ?_, ?_⟩ <;> decide +kernel

/-- NOVEC; VADD of registers; VADD of an unset stream; VADD behind an ACVT of a forked context. -/
theorem witness_VectorWordsIssue :
    (let c := { member with novec := true }
     (on .comp c).reaches c { wn with pred := 0 } ∧ c.novec = true) ∧
    (let x := vx .i16 (v 3) (v 1) (v 2)
     ∃ k, Claims.vectorWord (.vadd wn x) = some (wn, x, k) ∧ Runs (on .comp member) member wn ∧ OnCore (on .comp member) member ∧
      (k (member.begun .comp wn).view).srcs.any (member.begun .comp wn).awaitsRows = false ∧
      ((member.begun .comp wn).view.vecTrap (k (member.begun .comp wn).view).dst (k (member.begun .comp wn).view).srcs) = none) ∧
    (let x := vx .i16 (v 3) (st 1) (v 2)
     ∃ k, Claims.vectorWord (.vadd wn x) = some (wn, x, k) ∧
      ((member.begun .comp wn).view.vecTrap (k (member.begun .comp wn).view).dst (k (member.begun .comp wn).view).srcs) ≠ none) := by
  refine ⟨?_, ⟨_, rfl, ?_, ?_, ?_, ?_⟩, ⟨_, rfl, ?_⟩⟩
  all_goals first | decide +kernel | (unfold Runs State.reaches; decide +kernel) | (unfold State.reaches; decide +kernel) | (unfold OnCore; decide +kernel)

/-- Sixteen-bit lanes, integers and floats, with lane 0 off and lane 1 on. -/
theorem witness_IntegerLanes :
    (let c := { member with m := [(0, 2)] }
     let x := vx .i16 (v 3) (v 1) (v 2)
     (∃ g, integerWord (.vadd wn x) = some (wn, x, 4, g)) ∧ Runs (on .comp c) c wn ∧ c.novec = false ∧ c.checkMode = false ∧ x.ty.isI = true ∧
      (∃ g, floatWord (.vadd wn { x with ty := .fp16 }) = some (wn, { x with ty := .fp16 }, 4, g)) ∧ Fmt.fp16.isF = true ∧
      c.mx.active.toList ++ c.mx.shadow.toList = [] ∧ laneLive 16 (c.mreg 0) 1 ∧ ¬ laneLive 16 (c.mreg 0) 0) := by
  refine ⟨⟨_, rfl⟩, ?_, ?_, ?_, ?_, ⟨_, rfl⟩, ?_, ?_, ?_, ?_⟩
  all_goals first | decide +kernel | (unfold Runs State.reaches; decide +kernel) | (unfold laneLive; decide +kernel)

/-! ### Device steps: engines, legs, barriers -/

/-- A scratchpad with bytes at addresses 0 and 1, and a copy of it to `dst`. -/
def twoBytes : Mem := { cells := [(0, 0x11), (1, 0x22)], units := [(0, .present)] }
def copying (w : Instr) (dst : Nat) : Ctx :=
  { member with sp := twoBytes, inb := { Chan.empty with active := some { command with word := w, dst := dst, len := 2 }, issued := 1 } }
def flown : Flight := { sq := .comp, dest := .vreg 1, val := 5, mask := 7, due := 3, sig := 0xFF, flags := 0, leg := none, vno := 1 }

/-- Results due and not due; a shadow command and an idle channel; a unit of a DUP at an even and of a CPY at an odd address; a finished command. -/
theorem witness_CopyEngineSteps :
    (let c := { member with flight := [flown], t := 3 }
     Live (on .load c) 1 c ∧ c.leaving = false ∧ c.joined = true ∧ ∃ f ∈ c.flight, f.due ≤ c.t) ∧ (Live (on .load forked) 1 forked ∧ forked.joined = false) ∧
    (let c := { member with inb := { Chan.empty with shadow := some command } }
     Live (on .load c) 1 c ∧ (chanOf c .inb).active = none ∧ (chanOf c .inb).shadow = some command) ∧
    (let f := cp .sp .sp 4 0 2 0 6
     let c := copying (.dup wn f) 8
     let k : Cmd := { command with word := .dup wn f, dst := 8, len := 2 }
     Live (on .load c) 1 c ∧ (chanOf c .inb).active = some k ∧ f.fsp = .sp ∧ f.tsp = .sp ∧ f.acq = false ∧ f.b6 = false ∧ f.chain = none ∧ c.flight = [] ∧ Sys2Proof.Safety.LocalWhole c ∧
      2 * k.dc < k.len ∧ k.src + 2 * k.dc + 1 < k.dst + 2 * k.dc ∧ spUnit c 0 = .present ∧ ∀ i < 2, spUnit c (8 + i) ≠ .lost) ∧
    (let f := cp .sp .sp 4 0 2 0 6
     let c := copying (.cpy wn f) 9
     Live (on .load c) 1 c ∧ ∀ i < 2, spUnit c (9 + i) ≠ .lost) ∧
    (let f := cp .sp .sp 4 0 2 0 6
     let k : Cmd := { command with word := .cpy wn f, dst := 8, len := 3, dc := 2 }
     (k.len + 1) / 2 ≤ k.dc ∧ f.rel = false) := by
  unfold Live Sys2Proof.Safety.LocalWhole; refine ⟨?_, ?_, ?_, ?_, ?_, ?_⟩ <;> decide +kernel

/-- A local copy and ZFIL may move; XFER with the target member's scratchpad there. -/
theorem witness_CopyEngineSteps_local :
    (let f := cp .sp .sp 4 0 2 0 6
     let k : Cmd := { command with word := .dup wn f, dst := 8, len := 2 }
     let c := copying (.dup wn f) 8
     MayMove c .inb k ∧ 2 * k.dc < k.len ∧ (localPlan k).isSome = true ∧ ∀ i < 2, (memOf c .sp).unit 2 (0 + i) = .present) ∧
    (let f := cp .sp .sp 4 0 0 0 6
     let c := copying (.zfil wn f) 8
     Live (on .load c) 1 c ∧ MayMove c .inb { command with word := .zfil wn f, dst := 8, len := 2 } ∧ f.tsp ≠ .global) ∧
    (let f := cp .sp .sp 4 0 2 0 6
     let k : Cmd := { command with word := .xfer wn f, dst := 8, len := 2, arg := 1 }
     let c := { copying (.xfer wn f) 8 with inb := { Chan.empty with active := some k } }
     let m := { member with cid := 2, idx := 1 }
     let s := { on .load c with ctxs := [(1, c), (2, m)] }
     Live s 1 c ∧ MayMove c .inb k ∧ Sys2Proof.Safety.Keyed s ∧ s.member c.lid 1 = some m ∧ m.resident = true ∧ Sys2Proof.Safety.LocalWhole m ∧
      ∀ i < 2, c.sp.unit 2 (0 + i) = .present ∧ m.sp.unit 2 (8 + i) ≠ .lost) := by
  unfold Live MayMove Sys2Proof.Safety.LocalWhole Sys2Proof.Safety.Keyed
  refine ⟨⟨⟨?_, ?_, ?_, ?_, ?_, ?_, wn, cp .sp .sp 4 0 2 0 6, rfl, ?_, ?_, .inl ?_⟩, ?_, ?_, ?_⟩,
    ⟨?_, ⟨?_, ?_, ?_, ?_, ?_, ?_, wn, cp .sp .sp 4 0 0 0 6, rfl, ?_, ?_, .inl ?_⟩, ?_⟩,
    ⟨?_, ⟨?_, ?_, ?_, ?_, ?_, ?_, wn, cp .sp .sp 4 0 2 0 6, rfl, ?_, ?_, .inl ?_⟩, ?_, ?_, ?_, ?_, ?_⟩⟩
  all_goals decide +kernel

/-- A channel whose active command is the given word, from 0x100 to scratchpad address 8 or the other way, over the mapped page. -/
def moving (w : Instr) (dst src : Nat) (list : List Nat) : Ctx :=
  { member with sp := twoBytes, root := rootWord
                inb := { Chan.empty with active := some { command with word := w, dst := dst, src := src, len := 2, list := list }, issued := 1 } }

/-- A take of two bytes of DRAM; a copy of two bytes to it; a scatter whose entry is read and one whose entry is not; RQNT's unit of one block. -/
theorem witness_CopyEngineSteps_global :
    (let f := cp .sp .global 4 0 2 0 6
     let c := moving (.cpy wn f) 8 0x100 []
     let s := mapped .load c
     Live s 1 c ∧ globalPlan { command with word := .cpy wn f, dst := 8, src := 0x100, len := 2 } = some (.global, 0x100, .sp, 8, 2) ∧
      (match s.reach c (some 0) .both [] (splitPieces 0x100 2 2) with
        | .ok s1 ps => ps == [(0x100, 0x80000100, 2)] && s1.dram.unit 64 0x80000101 == .present && s1.homeDie 0x80000100 == 0 &&
          !s1.outside 0x80000101 && (match s1.bulkTests c false 2 ps [] with
            | .ok s2 => s2.ctx 1 == some c && !s2.writeHeld (some c) [0x2000004]
            | _ => false)
        | _ => false) = true) ∧
    (let f := cp .global .sp 4 0 2 0 6
     let c := moving (.dup wn f) 0x100 0 []
     let s := mapped .load c
     Live s 1 c ∧ globalPlan { command with word := .dup wn f, dst := 0x100, src := 0, len := 2 } = some (.sp, 0, .global, 0x100, 2) ∧
      (memOf c .sp).unit 2 1 = .present ∧
      (match s.reach c (some 1) .write [] (splitPieces 0x100 2 2) with
        | .ok s1 ps => ps == [(0x100, 0x80000100, 2)] && (match s1.bulkTests c false 0 [] ps with
            | .ok s2 => s2.ctx 1 == some c && !s2.writeHeld (some c) [0x2000004] && s2.dram.gone == [] && s2.dram.unit 64 0x80000100 != .lost &&
              s2.homeDie 0x80000100 == 0 && !s2.outside 0x80000101
            | _ => false)
        | _ => false) = true) ∧
    (let f := cp .global .sp 4 0 2 0 6
     globalPlan { command with word := .sctr wn f true, dst := 0, src := 0, len := 2, list := [0x100] } = some (.sp, 0, .global, 0x100, 2)) ∧
    (let f := cp .global .sp 4 0 2 0 6
     let c := { moving (.sctr wn f true) 0 0 [] with sp := { Mem.empty with units := [(0, .present), (1, .present), (2, .present), (3, .present)] } }
     Live (mapped .load c) 1 c ∧ 0 < 1 * ((2 + 1) / 2) ∧ ([] : List Nat).length ≤ 0 / ((2 + 1) / 2) ∧ ∀ i < 8, c.sp.unit 2 (0 + i) = .present) ∧
    (let f := cp .global .global 4 0 2 0 0
     let c := moving (.rqnt wn f) 0x140 0x100 [masterRec.toNat, targetRec.toNat]
     let s := { requants with ctxs := [(1, c)], dram := requants.dram.store 64 64 (place 0x80000040 [0x80, 0x3F]) }
     let m := Shape.ofRec (BitVec.ofNat 512 masterRec.toNat)
     let t := Shape.ofRec (BitVec.ofNat 512 targetRec.toNat)
     Live s 1 c ∧ 0 < t.n1 * (t.n0 / 32) ∧ Fmt.ofCode t.fmt = some .e4m3 ∧ Fmt.ofCode m.fmt = some .bf16 ∧ m.accf ≠ 3 ∧
      (match s.reach c (some 0) .read [] ((List.range 32).flatMap (fun i => splitPieces (BitVec.ofNat 64 (m.addr 2 0 i 0 0)) 2 2)) with
        | .ok s1 src => (match s1.reach c (some 1) .write []
              (((List.range 32).map (fun i => t.addr 1 i 0 0 0) ++ [t.promo]).map (fun a => (BitVec.ofNat 64 a, 1))) with
            | .ok s2 dst => (src ++ dst).all (fun p => s2.homeDie p.2.1 == 0) && src.all (fun p => s2.dram.unit 64 p.2.1 == .present) &&
              (match s2.bulkTests c false 0 src dst with
                | .ok s3 => s3.ctx 1 == some c && !s3.writeHeld (some c) ((dst.map (fun p => p.2.1 / 64)).eraseDups)
                | _ => false)
            | _ => false)
        | _ => false) = true) := by
  unfold Live; refine ⟨?_, ?_, ?_, ?_, ?_⟩ <;> decide +kernel

/-- A stopped context; a shadow word and an idle array; a word that is not yet due; a struck word; ACLR with a signal below its limit. -/
theorem witness_MatrixArraySteps :
    (let c := { member with stat := .stopped }
     (on .comp c).ctx 1 = some c ∧ c.stat = .stopped) ∧
    (let c := { member with mx := { MxChan.empty with shadow := some mcommand } }
     Live (on .comp c) 1 c ∧ Sys2Proof.Safety.Keyed (on .comp c) ∧
      (((on .comp c).allCtxs.filter (fun k => k.core == c.core)).flatMap Ctx.retained).length ≤ 32 ∧ c.mx.active = none ∧ mcommand.op ≠ .acvt) ∧
    (let c := { member with mx := { MxChan.empty with active := some mcommand } }
     Live (on .comp c) 1 c ∧ c.joined = true ∧ mcommand.due = some 3 ∧ c.t < 3 ∧ (on .comp c).last ≠ .stalled) ∧
    (let x := { mcommand with cancel := true, due := none }
     let c := { member with mx := { MxChan.empty with active := some x } }
     Live (on .comp c) 1 c ∧ c.flight = [] ∧ c.mx.shadow = none) ∧
    (let x := { mcommand with sig := 5 }
     let c := { member with mx := { MxChan.empty with active := some x }, t := 3 }
     Live (on .comp c) 1 c ∧ (∀ d, x.due = some d → d ≤ c.t) ∧ x.op = .aclr ∧ x.cancel = false ∧ x.sig ≠ 0xFF ∧ (c.sem x.sig).toNat < 0xFFFFF) := by
  unfold Live Sys2Proof.Safety.Keyed
  refine ⟨?_, ?_, ?_, ?_, ⟨?_, fun d h => ?_, ?_⟩⟩
  case refine_6 => cases h; decide
  all_goals decide +kernel

theorem stAddr_zero (o i : Nat) : stAddr 0 o i = 0 := by
  rw [stAddr, show stBase 0 = 0 from rfl, show stStride 0 = 0 from rfl]
  simp

/-- A tile step that is due; a SETX of an immediate, which reads no stream; AST to a stream of one place. -/
theorem witness_MatrixArraySteps_values :
    (let x := { mcommand with op := .mma, f := { mx with af := .bf16, bf := .bf16, ks := 1 } }
     let c := { member with mx := { MxChan.empty with active := some x }, t := 3 }
     Live (on .comp c) 1 c ∧ Sys2Proof.Safety.Keyed (on .comp c) ∧ x.cancel = false ∧ (∀ d, x.due = some d → d ≤ c.t) ∧ x.exps = [] ∧ x.rows = false ∧
      c.flight = [] ∧ c.mx.shadow = none ∧ Sys2Proof.Safety.LocalWhole c) ∧
    (∀ o ∈ mxOpnds .setx { mx with xsel := true } 0 0, member.opFirst .vacated o = none ∧ member.opFirst .lost o = none) ∧
    (∀ k < 4160, 0 ≤ stAddr 0 0 k ∧ stAddr 0 0 k + (6 : Nat) ≤ 0x800000 ∧ ∀ b < 6, member.sp.unit 2 ((stAddr 0 0 k).toNat + b) ≠ .lost) := by
  refine ⟨⟨?_, ?_, ?_, ?_, ?_, ?_, ?_, ?_, ?_⟩, ?_, fun k _ => ?_⟩
  case refine_4 => intro d h; cases h; decide
  case refine_11 => rw [stAddr_zero]; decide +kernel
  all_goals first | decide +kernel | (unfold Live; decide +kernel) | (unfold Sys2Proof.Safety.Keyed; decide +kernel) | (unfold Sys2Proof.Safety.LocalWhole; decide +kernel)

/-- An ended leg with one store. -/
def storing : Leg := { member.newLeg with log := [.store [(0x80000100, 7)]], grans := [0x2000004], buf := [(0x80000100, 7)], count := 1 }
/-- Legs of 2,048 words and one fewer; a pin; a leg that may commit, one behind an older leg of another member. -/
theorem witness_LegSteps :
    (let l := { member.newLeg with count := 2048 }
     let c := { member with leg := some l }
     (on .ctl c).ctx 1 = some c ∧ 2048 ≤ l.count ∧ c.isTask = false ∧ ({ l with count := 2047 } : Leg).count < 2048) ∧
    (let c := { globalMember with ended := [storing] }
     let s := { mapped .ctl c with innq := [(1, 0)] }
     s.ctx 1 = some c ∧ s.mayCommit c storing = true ∧ storing.atomic = none ∧ (∀ q ∈ s.reds, q.kind ≠ 2) ∧ s.homeDie 0x80000100 < 3 ∧
      s.mayCommit { c with ended := [{ storing with log := [] }] } { storing with log := [] } = true) ∧
    (let old : Leg := { member.newLeg with no := 3 }
     let c := { globalMember with ended := [storing, old] }
     (mapped .ctl c).mayCommit c old = false) := by
  refine ⟨?_, ?_, ?_⟩ <;> decide +kernel

/-- Another member whose open leg has read the granule that the first member's leg stores to, and that leg may commit. -/
theorem witness_LegSteps_squash :
    (let w := { globalMember with ended := [storing] }
     let k : Checkpoint := member.checkpoint
     let l : Leg := { member.newLeg with reads := [0x2000004], check := some k }
     let c := { member with cid := 2, idx := 1, leg := some l }
     let s := { mapped .ctl w with ctxs := [(1, w), (2, c)] }
     Sys2Proof.Safety.Keyed s ∧ s.ctx 1 = some w ∧ s.ctx 2 = some c ∧ s.mayCommit w storing = true ∧ storing.log = [.store [(0x80000100, 7)]] ∧
      (([(0x80000100, (7 : Byte))].map (fun p => p.1 / 64)).eraseDups = [0x2000004]) ∧ FirstHit s [0x2000004] c l k ∧
      ∀ x ∈ s.allCtxs, x.cid ≠ 2 → Unhit s [0x2000004] x) := by
  unfold Sys2Proof.Safety.Keyed FirstHit Unhit
  refine ⟨?_, ?_, ?_, ?_, ?_, ?_, ⟨?_, ?_, ?_, [], [], ?_, ?_⟩, ?_⟩
  all_goals decide +kernel

/-- A member that stands at a barrier, a task that has halted, a member that has halted. -/
def standing (comm : Bool) (v : Word) : Ctx := { member with pend := some (.barrier 0 1 comm .add v 9) }
/-- A barrier at which all stand; two that disagree; one member's trap, running and not; a member that failed; retirement of a member and of a task; a company that is over. -/
theorem witness_BarriersAndRetirement :
    (let c := standing true 5
     let s := on .ctl c
     s.membersOf 0 = [c] ∧ s.ctx 1 = some c ∧ c.atBarrier = some (1, true, .add, 5) ∧ s.barrierReady 0 [c] true = true) ∧
    (let c := standing true 5
     let d := { standing false 5 with cid := 2, idx := 1 }
     let s := { on .ctl c with ctxs := [(1, c), (2, d)] }
     s.membersOf 0 = [c, d] ∧ (∀ x ∈ [c, d], x.atBarrier.map (fun k => k.1) = some 1) ∧ c.atBarrier.map (fun k => (k.2.1, k.2.2.1)) = some (true, .add) ∧
      d.atBarrier.map (fun k => (k.2.1, k.2.2.1)) = some (false, .add)) ∧
    ((standing true 5).stat = .running ∧ (standing true 5).pend = some (.barrier 0 1 true .add 5 9)) ∧
    (let c := { standing true 5 with stat := .held, again := true }
     c ∈ (on .ctl c).membersOf 0 ∧ c.stat ≠ .running ∧ c.pend = some (.barrier 0 1 true .add 5 9)) ∧
    (let c := { member with halting := true }
     let s := inCompany company c
     s.ctx 1 = some c ∧ s.launch c.lid = some company ∧ c.stat = .running ∧ c.idleEngines = true ∧ c.leg = none ∧ c.ended = [] ∧ c.pend = none ∧
      c.impr = [] ∧ s.unapplied c = false ∧ s.fars = [] ∧ c.kind = .regular) ∧
    (let c := { taskMember with halting := true }
     (inCompany company c).ctx 1 = some c ∧ (inCompany company c).launch c.lid = some company ∧ c.stat = .running ∧ c.leg = none) ∧ member.halting = false ∧
    (let l := { company with retired := [0] }
     (inCompany l member).launch 0 = some l ∧ l.stat = .running ∧ l.retired.length = l.record.extent) := by
  refine ⟨?_, ?_, ?_, ?_, ?_, ?_, ?_, ?_⟩ <;> decide +kernel

/-! ### Device steps: queues, launches, tasks -/

/-- Slot 3 bound to a control block at 0x200040: both rings of two entries, LTAIL 1 or 4 of LHEAD 0, next HSEQ 1 (R253). -/
def slot : Queue := { Queue.off with qcba := 0x200041, root := rootWord, ltail := 1 }
def blocked (ltail : Byte) (q : Queue) : State :=
  let m : Mem := { cells := table.cells ++ (place 0x200040 (bytesOfNat 8 rootWord.toNat)).filter (fun x => x.2 != 0) ++
                     [(0x200048, 1), (0x200050, 1), (0x20005C, ltail), (0x200068, 1)],
                   units := [(0x8000, .present), (0x8001, .present), (0x2000000, .present), (0x2000001, .present)] }
  { mapped .ctl member with dram := { m with cells := m.cells.insertionSort (fun a b => a.1 ≤ b.1) }, queues := [(3, q)], horizons := [(3, 0)] }

/-- A block that is good and one whose tail is too far; an empty, a free and a full ring; a record that waits to be written. -/
theorem witness_QueueAndCompletionSteps :
    (let s := blocked 1 slot
     s.hartRuns = true ∧ ({ s with harts := [] } : State).hartRuns = false ∧ s.blockHeld slot = false ∧ (s.queue 3).enabled = true ∧ s.blockFault slot = 0 ∧ s.blockLost slot = false ∧ slot.ltail ≠ (block s slot 0x18).extractLsb' 0 32 ∧
      s.waitingOf 3 < 16 ∧ s.ringFull slot = false ∧ (s.reachPage slot.root 0 .read = .ok 0x80000000 s) ∧ s.dram.unit 64 0x80000000 ≠ .lost ∧
      s.dram.unit 64 0x80000040 ≠ .lost ∧ block s slot 0x28 = 1) ∧
    (let q := { slot with ltail := 4 }
     (blocked 4 q).blockFault q = 3) ∧ (let q := { slot with ltail := 0 }
     q.ltail = (block (blocked 0 q) q 0x18).extractLsb' 0 32) ∧ (Queue.off.enabled = false) ∧
    (let q := { slot with waits := [{ hseq := 1, status := 0, lid := 0, cyc := 9 }] }
     let s := blocked 1 q
     q.held = false ∧ s.blockBad q = false ∧ s.ringFull q = false ∧ s.reachPage q.root 0 .write = .ok 0x80000000 s ∧ s.writeHeld none [0x2000000] = false) := by
  refine ⟨?_, ?_, ?_, ?_, ?_⟩ <;> decide +kernel

/-- A record with a rendezvous dependence on the word at virtual address 0x100; the launch of it, waiting, ready, ready for long. -/
def waitingLaunch : Launch := { company with stat := .waiting, record := { record with deps := [0x8000000000000100] } }
def readyLaunch (since aged : Nat) : Launch := { company with stat := .ready, since := BitVec.ofNat 64 (2 ^ 40 - since), aged := aged, record := { record with cls := false } }
def later (l : Launch) : State := { inCompany l member with cycle := BitVec.ofNat 64 (2 ^ 40), ctxs := [], cores := [], nextCid := 9 }

/-- A rendezvous word that is zero and one that is not; the bounds of ageing and of the reservation; places for a launch; a displaced company and another. -/
theorem witness_LaunchSteps :
    (let s := inCompany waitingLaunch member
     s.launch 0 = some waitingLaunch ∧ waitingLaunch.record.deps[0]? = some 0x8000000000000100 ∧ depKind 0x8000000000000100 = 2 ∧ 0 ∉ waitingLaunch.depsOk ∧
      s.reachPage waitingLaunch.root 0x100 .read = .ok 0x80000100 s ∧ s.dram.word 0x80000100 8 = 0 ∧
      ({ s.dram with cells := s.dram.cells ++ [(0x80000107, 1)] } : Mem).word 0x80000100 8 ≠ 0) ∧
    ((later (readyLaunch (2 ^ 22) 0)).launch 0 = some (readyLaunch (2 ^ 22) 0) ∧
      (let w (l : Launch) : Nat := ((later l).cycle - l.since).toNat
       w (readyLaunch (2 ^ 22) 0) = 2 ^ 22 ∧ w (readyLaunch (2 ^ 22 - 1) 0) < 2 ^ 22 * 1 ∧ w (readyLaunch (2 ^ 24) 3) = 2 ^ 24 ∧
        w (readyLaunch (2 ^ 24 - 1) 3) < 2 ^ 24)) ∧
    (let l := readyLaunch 0 0
     let s := later l
     s.launch 0 = some l ∧ s.turnOf l = true ∧ s.coresOk l [7] = true ∧ imageOk s.dram l.root l.record.image = true ∧ imageOk Mem.empty l.root l.record.image = false) ∧
    (let l := { company with displaced := true }
     let s := { inCompany l member with launches := [l, { company with lid := 1 }] }
     s.launch 0 = some l ∧ s.launch 1 = some { company with lid := 1 } ∧ l.displaced = true) := by
  refine ⟨?_, ?_, ?_, ?_⟩ <;> decide +kernel

/-- Three tasks of the company: two queued, one finished. -/
def queued (seq : BitVec 64) : Task := { id := task seq, stat := .queued, cid := none }
def finishedTask : Task := { id := task 5, stat := .finished, cid := some 2 }

/-- A free bank and two queued tasks; a victim with a waybill, with a bad one, with none left; the oldest task, finished. -/
theorem witness_TaskSteps :
    (let l := { company with tasks := [queued 7, queued 5] }
     let s := inCompany l { globalMember with plots := 16 }
     s.launch 0 = some l ∧ (s.memberOn 0 0).isSome = true ∧ s.pools.find 0 = none ∧ s.freeBank 0 = some 1 ∧ s.taskOn 0 = false ∧ s.roomFor 0 16 false = true ∧
      l.nextTask 0 = some (queued 5) ∧ s.reachPage l.root (l.record.pool + 0) .both = .ok 0x80100000 s) ∧
    (let bill : Mem := { cells := [], units := (List.range' 0x17FFF0 16).map (fun u => (u, .present)) }
     let c := { taskMember with stat := .aborting, bills := 1, sp := bill }
     let s := inCompany company c
     s.ctx 1 = some c ∧ s.launch c.lid = some company ∧ c.pend = none ∧ c.resident = true ∧ s.abortTurn c.lid 0 = true ∧ (c.readBill 0).isSome = true ∧
      ({ c with sp := Mem.empty } : Ctx).readBill 0 = none ∧ s.reachPage company.root (company.record.pool + 0) .both = .ok 0x80100000 s) ∧
    (let c := { taskMember with cid := 2, kind := .task (task 5), stat := .finished }
     let l := { company with tasks := [finishedTask, queued 7] }
     let s := inCompany l c
     s.launch 0 = some l ∧ l.oldest = some finishedTask ∧ finishedTask.cid = some c.cid ∧ s.ctx c.cid = some c ∧ finishedTask.stat = .finished ∧
      c.stat = .finished ∧ s.reachPage l.root (l.record.pool + 0) .both = .ok 0x80100000 s) := by
  refine ⟨?_, ?_, ?_⟩ <;> decide +kernel

/-- The machine with a context that its core does not run. -/
def shadowed (c : Ctx) : State :=
  { on .ctl c with cores := [(0, { Core.idle with plane := some ⟨0, [], []⟩, tlb := [entry] })], dram := table, cspill := 0x210031 }

/-- A core that stopped at a schedule cycle; a task that waits at its ABOP; a free core whose plane holds the image, and one whose plane holds another; a handler before a member; a slot; a bank; a filled plane. -/
theorem witness_ContextSteps :
    (let s := (shadowed member).setCore 0 { Core.idle with dbg := [(0x1010, 1)] }
     s.coreStopped 0 = true ∧ (shadowed member).coreStopped 0 = false) ∧
    (let c := { taskMember with abop := true }
     let s := (inCompany company c).setCore 0 { Core.idle with active := some 1, plane := some ⟨0, place (Sq.offset .ctl) (encode .ctl (.abop nar 2 1 0 8)), []⟩ }
     s.atAbop c = true ∧ s.atAbop taskMember = false) ∧
    (let c := { member with root := rootWord }
     let s := shadowed c
     s.ctx 1 = some c ∧ s.couldRun c = true ∧ s.first c = true ∧ (s.core 0).fill = none ∧ (s.core 0).fenced = false ∧ (s.core 0).active = none ∧
      (s.core 0).plane = some ⟨0, [], []⟩) ∧
    (let c := { member with root := rootWord, image := 0x10000 }
     let s := shadowed c
     s.couldRun c = true ∧ (∀ pl, (s.core 0).plane = some pl → pl.image ≠ c.image) ∧
      (match (s.restored c).pages c c.image .exec 0 [] 113 with
        | .ok _ ps => ps.length == 113
        | _ => false) = true) ∧
    (let s := { handling handler with cores := [(0, { Core.idle with active := some 1, plane := some ⟨0, [], []⟩ })] }
     s.ctx 2 = some handler ∧ s.couldRun handler = true ∧ s.first handler = true ∧ s.activeCtx 0 = some served ∧ s.rank served < s.rank handler ∧
      served.isTask = false ∧ (s.restored handler).mayLeave served = true ∧ ({ s with ctxs := [(1, exposed), (2, handler)] }.restored handler).mayLeave exposed = false) ∧
    (let s := { inCompany company taskMember with ctxs := [(1, taskMember), (2, handler)], cores := [(0, { Core.idle with active := some 1, plane := some ⟨0, [], []⟩ })] }
     s.activeCtx 0 = some taskMember ∧ taskMember.isTask = true ∧ taskMember.stat = .running ∧ s.couldRun taskMember = true ∧ handler.stat ≠ .inverse) ∧
    (let c := { member with stat := .finished }
     let d (n b : Nat) : Ctx := { member with cid := n, loc := .bank b, seen := 9 }
     let s := { shadowed c with ctxs := [(1, c), (2, d 2 1), (3, d 3 2)] }
     s.ctx 1 = some c ∧ s.mayStreamOut c = true ∧ s.freeBank 0 = none ∧ 0 < s.spillSlots ∧ 0 ∉ s.spill ∧
      ∀ x ∈ s.onCore 0, s.mayStreamOut x = true → c.seen.toNat ≤ x.seen.toNat) ∧
    (let c := { member with loc := .slot 0 }
     let s := { shadowed c with spill := [0] }
     c.loc = .slot 0 ∧ (∀ x ∈ s.onCore 0, x.loc ≠ .bank 2) ∧ s.pagesHold .lost (s.slotPages 0) = false) ∧
    (let f : Fill := { image := 0, pages := [(0, 0x80000000)], flip := true, cid := some 1 }
     let s := (shadowed member).setCore 0 { Core.idle with fill := some f }
     (s.core 0).fill = some f ∧ lostInImage s.dram f.pages = none) := by
  refine ⟨?_, ?_, ?_, ?_, ?_, ?_, ?_, ?_, ?_⟩ <;> decide +kernel

/-- A trap for the harts, one in an inverse routine, one for the handler, and the answers to a fault record. -/
theorem witness_FaultsAndHandlers :
    (let s := on .ctl served
     s.ctx 1 = some served ∧ served.trap = some (mkTrap 0x20 5) ∧ served.stat = .trapped ∧ served.mx.active = none ∧ served.outstanding = false ∧ served.toHandler (mkTrap 0x20 5) = false ∧
      served.killsLaunch (mkTrap 0x20 5) = false ∧ s.fresp.find 0 = none ∧ s.pools.find 0 = none ∧ (s.core 0).active = some 1) ∧
    (let c := { served with inv := some 0 }
     c.killsLaunch (mkTrap 0x20 5) = true ∧ c.toHandler (mkTrap 0x20 5) = false) ∧
    (let c := { served with hen := true }
     let s := on .ctl c
     s.ctx 1 = some c ∧ c.toHandler (mkTrap 0x20 5) = true ∧ c.loc = .bank c.bank ∧ s.freeBank 0 = some 1 ∧ s.nextCid ≠ 1) ∧
    (let c := { served with stat := .held }
     let s := { on .ctl c with fresp := [(0, 1)] }
     s.hartRuns = true ∧ s.ctx 1 = some c ∧ ((s.core 0).dbg.get 0 0x1010).getLsbD 0 = false ∧ s.fresp.find 0 = some 1 ∧ (∀ e ∈ s.events, e.cid ≠ some 1)) ∧
    (let s := { on .ctl served with pools := [(0, 7)], events := [{ type := 1, bytes := [], cid := some 1 }] }
     s.fresp.find 0 = none ∧ s.pools.find 0 = some 7 ∧ ∃ e ∈ s.events, e.cid = some 1) := by
  refine ⟨?_, ?_, ?_, ?_, ?_⟩ <;> decide +kernel

/-- A ring of two entries with room and a full one; a shootdown that is over; a hart that is held; a stopped core; a cycle match; an island that may slow down. -/
theorem witness_EventsStopsAndRegisters :
    (let s := { on .ctl member with events := [{ type := 1, bytes := [], cid := none }], evbase := 0x200001, msia := 4 }
     s.hartRuns = true ∧ s.shbusy = false ∧ s.writeHeld none [0x200000 / 64, 0x200000 / 64 + 1] = false ∧ (s.evbase.extractLsb' 0 5).toNat = 1 ∧ (s.evtail - s.evhead).toNat ≠ 2 ^ 1 ∧ s.msia ≠ 0 ∧
      ({ s with evtail := 2 }.evtail - s.evhead).toNat = 2 ^ 1) ∧
    (let s := { mapped .ctl member with shbusy := true }
     s.shbusy = true ∧ s.quietTlb none s.shotDown = true ∧ s.invs = [] ∧ ({ s with invs := [(1, entry)] } : State).invs ≠ []) ∧
    ((State.reset.hart 1).running = false ∧ 1 / 8 ∉ State.reset.dropped ∧ (State.reset.hart 0).running = true) ∧
    (let c := { member with stat := .stopped }
     let s := (on .ctl c).setCore 0 { (on .ctl c).core 0 with dbg := [(0x1010, 1)] }
     s.hartRuns = true ∧ s.activeCtx 0 = some c ∧ ((s.core 0).dbg.get 0 0x1010).getLsbD 0 = true ∧ (s.core 0).resp = none ∧
      (s.core 0).fdue = false ∧ ({ s.core 0 with fdue := true } : Core).fdue = true ∧ c.back = none ∧
      ({ c with back := some 7 } : Ctx).back.isSome = true) ∧
    (let s := (on .ctl member).setCore 0 { (on .ctl member).core 0 with dbg := [(0x1000, 2)] }
     ((s.core 0).dbg.get 0 0x1000).getLsbD 1 = true ∧ ((s.core 0).dbg.get 0 0x1008).toNat ≤ s.cycle.toNat ∧ member.stat = .running) ∧
    (let s := { State.reset with ifrq := [(0, 1300)] }
     0 / 12 ∉ s.dropped ∧ ((s.ipwr.put 0 0 9).map (fun x => x.2.toNat)).sum ≤ max 600 (min 2700 s.pcap.toNat) ∧ (325 : BitVec 11).toNat ≤ max 325 (min 1300 (s.icap.get 1300 0).toNat)) := by
  refine ⟨?_, ?_, ?_, ?_, ?_, ?_⟩ <;> decide +kernel

/-! ### Device steps: links, memory, containment -/

/-- Module 5 with one direction as given. -/
def linked (d : Dir) : State := { on .ctl member with links := [(5, { Link.trained with up := d })] }
def idleFlit : Flit := mkFlit 2 0 0xFFF []

set_option maxRecDepth 100000 in
/-- A message to send and a full buffer; a resend; a flit that is bad, one out of order, the expected one; a NAK owed; a flit that was not acknowledged. -/
theorem witness_LinkSteps :
    (Open (linked Dir.trained) 5 ∧ Open State.reset 64) ∧
    (let d := { Dir.trained with msgs := [[0]] }
     d.resend = none ∧ d.msgs = [[0]] ∧ d.buf.length < 64 ∧ ((List.range 64).map (fun i => (BitVec.ofNat 12 i, ([] : List (BitVec 64))))).length = 64) ∧
    (let d := { Dir.trained with resend := some 0, buf := [(0, [0])] }
     d.buf.find? (fun e => e.1 == 0) = some (0, [0])) ∧
    (let f : Flit := { idleFlit with slots := [] }
     crcBad f = true) ∧
    (let f := mkFlit 1 0 0xFFF []
     crcBad f = false ∧ flitType f = 1 ∧ flitSeq f = Dir.trained.exp ∧ parseMsgs 31 f.slots = some []) ∧
    (({ Dir.trained with owes := 7 } : Dir).owes + 1 = 8 ∧ Dir.trained.owes + 1 < 8 ∧ Dir.trained.resend = none ∧ Dir.trained.msgs = []) ∧
    (let f := mkFlit 1 7 0xFFF []
     crcBad f = false ∧ flitSeq f ≠ Dir.trained.exp) ∧ (({ Dir.trained with nakOut := true } : Dir).nakOut = true ∧ Dir.trained.nakOut = false) := by
  unfold Open; refine ⟨?_, ?_, ?_, ?_, ?_, ?_, ?_, ?_⟩ <;> decide +kernel

/-- A link that fails four times, at either width; one that retrains; ports; a clock from another package; a batch that is ready and one that is not. -/
theorem witness_LinkRecovery :
    (let l := ({ on .ctl member with links := [(5, { Link.trained with up := { Dir.trained with fail0 := 4 } })] } : State).link 5
     l.width = 2 ∧ l.training = false ∧ 4 ≤ l.up.fail0) ∧ (({ Link.trained with width := 1 } : Link).width = 1 ∧ (State.reset.link 64).width ≠ 0) ∧
    (5 / 3 ≠ State.reset.package) ∧
    (let z := List.replicate 48 (0 : BitVec 32)
     let b : Batch := { src := 5, clock := z.set 5 1, stores := [(0x80000100, [7])] }
     0 / 3 = State.reset.package ∧ State.reset.batchNew 0 b = true ∧ (State.reset.batchArrives 0 b).batchReady 0 b = true ∧
      State.reset.batchNew 0 { b with clock := z } = false ∧ State.reset.batchReady 0 { b with clock := z } = false ∧
      State.reset.writeHeld none (gransOf ((b.stores.flatMap (fun x => place x.1 x.2)).map Prod.fst)) = false) ∧
    (let o : OutBatch := { src := 0, dst := 5, clock := [], stores := [] }
     ({ on .ctl member with batches := [{ o with dst := 7 }, o] } : State).batches = [{ o with dst := 7 }] ++ o :: [] ∧ 0 / 3 = State.reset.package) ∧
    (let b : Batch := { src := 8, clock := [], stores := [] }
     5 / 3 ≠ State.reset.package ∧ b.src / 3 ≠ State.reset.package) := by
  refine ⟨?_, ?_, ?_, ?_, ?_, ?_⟩ <;> decide +kernel

/-- No leg is pinned and no page moves. -/
theorem witness_MemorySideSteps_unheld (gs : List Nat) : ({ recorded 1 globalMember with promos := [(0x80000100, 0)] } : State).writeHeld none gs = false := by
  generalize e : ({ recorded 1 globalMember with promos := [(0x80000100, 0)] } : State) = s
  have c : s.allCtxs = [globalMember] := by rw [← e]; rfl
  have m : s.moves = [] := by rw [← e]; rfl
  have r : globalMember.relaxed = false := by decide +kernel
  simp [State.writeHeld, State.moving, c, m, r]

/-- A RED at its home; a record whose promotion is complete; a page with its mark, in another tier; an adapter with and without a table; a running hart. -/
theorem witness_MemorySideSteps :
    (let r := reduction
     let s := { mapped .ctl globalMember with reds := [r] }
     s.reds = r :: [] ∧ r.stage = .here ∧ s.writeHeld (s.ctx r.cid) (gransOf [r.pa]) = false ∧ r.pa % (r.size.bits / 8) = 0 ∧ s.dram.unit 64 r.pa ≠ .lost ∧
      s.dram.goneAt r.pa = false ∧ s.outside r.pa = false ∧ r.reply = none ∧ { r with reply := some (5, true) }.reply = some (5, true)) ∧
    (let s := { recorded 1 globalMember with promos := [(0x80000100, 0)] }
     s.promos = (0x80000100, 0) :: [] ∧ s.dram.unit 64 0x80000100 = .present ∧ s.outside 0x80000100 = false ∧ s.dram.gone = [] ∧ s.reds = [] ∧
      (let r := { reduction with kind := 3, early := true }
       ∃ q ∈ ({ s with reds := [r] } : State).reds, q.kind = 3 ∧ q.pa = 0x80000100 ∧ q.early = true) ∧
      (Shape.ofRec (recOfBytes ((List.range 64).map (fun i => s.dram.byte (0x80000100 + i))))).accf = 1) ∧
    (let e : Mem := { table with cells := [(0x200000, 0xDF), (0x200003, 0x80), (0x200007, 0x60)] }
     let s := { mapped .ctl globalMember with dram := e, frames := [(0x4800000000, 31, .offstack)] }
     ∃ l, walk s.dram rootWord 0x100 = .ok l ∧ s.moves = [] ∧ l.pte.getLsbD 61 = true ∧ tierOf (l.pte.extractLsb' 62 2) ≠ .offstack ∧ l.pte.getLsbD 60 = false ∧
      s.freeFrame l.bits .offstack = some 0x4800000000) ∧
    (let m : Move := { root := rootWord, va := 0x100, leaf := 0x200000, bits := 31, src := 0x80000000, dst := 0x4800000000, tier := .offstack }
     let s := { mapped .ctl globalMember with moves := [m], atc := [(1, [entry])] }
     s.moves.find? (fun x => x.root == m.root && x.va == m.va && x.tier == m.tier) = some m ∧ m.dst < 2 ^ 52 ∧
      (∃ l, (1, l) ∈ s.atc ∧ entry ∈ l ∧ entry.dropped (rootAsid m.root) .page (BitVec.ofNat 64 m.va) = true) ∧ ({ s with atc := [] } : State).atc = []) ∧
    (let s := { mapped .ctl member with dctb := 0x202001 }
     let d := { table with cells := table.cells ++ [(0x202001, 2), (0x202004, 0x08), (0x202005, 0), (0x202007, 0xE0), (0x202008, 1)] }
     s.busy 64 = false ∧ s.dctb.getLsbD 0 = true ∧ (s.dram.word (0x202000 + 8) 8).getLsbD 0 = false ∧ (d.word (0x202000 + 8) 8).getLsbD 0 = true ∧
      s.reachPage rootWord 0x100 .write = .ok 0x80000100 s ∧ s.outside 0x80000100 = false ∧
      s.writeHeld none (gransOf ((place 0x80000100 [7]).map Prod.fst)) = false ∧
      (let e : Mem := { table with cells := [(0x200000, 0xDF), (0x200005, 2), (0x200007, 0x40)] }
       let u : State := { s with dram := e }
       u.reachPage rootWord 0x100 .read = .ok 0x20000000100 u ∧ u.outside 0x20000000100 = true) ∧ ∃ f, s.reachPage 0 (2 ^ 60) .read = .fault f) ∧
    ((State.reset.hart 0).running = true ∧ State.reset.busy 0 = false ∧ 0x80000100 + 4 ≤ windowBase ∧ State.reset.outside 0x80000100 = false ∧
      (∀ i < 4, State.reset.outside (0x80000100 + i) = false) ∧ State.reset.outside 0x20000000100 = true ∧ windowBase ≤ 0xFFF0000020000) ∧
    (let via : HartVia := { root := rootWord, user := true, sum := false, fetch := false, fence := true }
     via.fence = true ∧ walk table rootWord 0x100 = .ok ⟨0x40000000800000DF, 0x200000, 2, 31⟩ ∧ (0x40000000800000DF#64).getLsbD 4 = true ∧
      ∃ f, walk Mem.empty rootWord 0x100 = .error f) := by
  refine ⟨?_, ?_, ⟨⟨0x60000000800000DF, 0x200000, 2, 31⟩, ?_⟩, ⟨?_, ?_, ⟨[entry], ?_⟩, ?_⟩, ⟨?_, ?_, ?_, ?_, ?_, ?_, ?_, ?_, ⟨xlAddr, none, false⟩, ?_⟩, ?_, ⟨?_, ?_, ?_, _, rfl⟩⟩ <;>
    decide +kernel

/-- A context and an address of its plots; a package with three dies, none dropped; a die that is quiet. -/
theorem witness_ContainmentSteps : (on .ctl member).ctx 1 = some member ∧ (member.sp.gone = [] ∧ member.can.gone = []) ∧ State.reset.homeDie 0x1900000000 = 1 ∧
    State.reset.mapBit 5 = false ∧ 0x2FFFFF < member.plots * 65536 ∧ 2 ∉ State.reset.dropped ∧
    (∀ c ∈ (on .ctl member).allCtxs, c.core ≠ 7 ∧ c.core / 16 ≠ 1) ∧ 1 ∉ (on .ctl member).fencedCl ∧ State.reset.quiet 2 = true ∧ (on .ctl member).quiet 0 = true ∧
    (State.reset.moves = [] ∧ State.reset.queues = [] ∧ State.reset.ctxs = [] ∧ State.reset.launches = []) ∧
    (let s := (on .ctl member).setCore 0 { Core.idle with dbg := [(0x1010, 1)] }
     s.coreStopped 0 = true ∧ (on .ctl member).coreStopped 7 = false) := by
  decide +kernel

/-! ### Steps -/

/-- The machine whose plane holds, at index 0 of the control sequencer, the given word, and NOPs for the streams. -/
def planed (w : Nat) (c : Ctx) : State :=
  let put (b : Nat) (bs : List Byte) : SMap Byte := place b bs
  let nopw := bytesOfNat 12 0x010FFFF000000000F8000000
  let bytes := put (Sq.offset .ctl) (bytesOfNat 4 w) ++ put (Sq.offset .load) nopw ++ put (Sq.offset .store) nopw ++ put (Sq.offset .comp) nopw
  { on .ctl c with cores := [(0, { Core.idle with active := some 1, plane := some ⟨0, bytes, []⟩ })] }

/-- The worked values of spec/21: the module of the address, the request, and its answer. -/
theorem test_atomic_messages :
    let a : Atomic := { op := .add, cmp := none, size := .b32, val := 5, va := 0, pa := 0x18A0000000, rel := false, scope := .pkg }
    State.reset.moduleFor 0 0x18A0000000 = some 5 ∧ amoRequest a 0 36 = [0x1460000240800000, 0x18A0000000, 5] ∧
      amoResponse 0 36 0 .b32 0x3F2 = [0x1840000240800000, 0x3F2] := by decide +kernel

/-- An agenda with a device step; a forked sequencer whose wait comes after another one's, one at a word, at bits that are none, past the end; a long word with ADD and with TRAP. -/
theorem witness_StepRunsTheDecodedWord :
    (let s := { planed 0x040C6400 forked with agenda := [.event (.aerEvent 0)] }
     s.agenda = Turn.event (.aerEvent 0) :: []) ∧
    (let s := planed 0x040C6400 forked
     Serving s 0 forked ∧ forked.joined = false ∧
      (s.setCtx { forked with marks := forked.marks.map Marker.close }).yields 0 .ctl { forked with marks := forked.marks.map Marker.close } = false ∧ ((forked.landDue (some .ctl)).seqr .ctl).run = .running ∧
      decode .ctl 0 (bytesAt s 0 .ctl 0) = .ok (.add nar 6 6 8, 1)) ∧
    (let c := { forked with sems := [(3, 1)] }
     let bs := place (Sq.offset .ctl) (encode .ctl (.wait nar 3 false 1)) ++ place (Sq.offset .load) (encode .load (.nop (wd 3 0xFF)))
     let s := (on .comp c).setCore 0 { Core.idle with active := some 1, plane := some ⟨0, bs, []⟩ }
     Serving s 0 c ∧ c.joined = false ∧ (s.setCtx c).yields 0 .load c = true) ∧
    ((decode .ctl 0 (bytesAt (planed 0xFFFFFFFF forked) 0 .ctl 0)).toBool = false) ∧
    (let c := { forked with ctl := { forked.ctl with pc := 16384 } }
     Serving (planed 0 c) 0 c ∧ Sq.ctl.limit ≤ c.ctl.pc) ∧
    (let s := planed 0x040C6400 member
     let d := member.landDue none
     let s1 := { s.setCtx { d with semT := d.sems, semS := d.sems, cbitsT := d.cbits } with focus := (0, .ctl), last := .issued }
     let qs : List (Sq × Instr) := [(.ctl, .add nar 6 6 8), (.load, .nop wn), (.store, .nop wn), (.comp, .nop wn)]
     Serving s 0 member ∧ (∀ q ∈ [Sq.ctl, .load, .store, .comp], decode q 0 (bytesAt s 0 q 0) = .ok (((qs.find? (fun x => x.1 == q)).map (fun x => x.2)).getD (.nop nar), 1)) ∧
      (match exec (.add nar 6 6 8) s1 with
        | .next u => u.last == .issued
        | _ => false) = true ∧ isTrapWord (.add nar 6 6 8) = false ∧ isTrapWord (.trap nar 0x123) = true) := by
  unfold Serving; refine ⟨?_, ?_, ?_, ?_, ?_, ?_⟩ <;> decide +kernel

/-- Well-formed words and words that decode, of the control sequencer and of a stream. -/
theorem witness_ControlWordsRoundTrip : (Instr.ld nar (mem 6 2 0) false).wf .ctl 0 = true ∧
    decode .ctl 0 (bytesOfNat 4 0x040C6400) = .ok (.add nar 6 6 8, 1) := by decide +kernel
theorem witness_StreamWordsRoundTrip : (Instr.mmab wn { mx with af := .e4m3, bf := .e4m3, ovw := true, adesc := 2, ks := 1, bpb := 6 }).wf .comp 0 = true ∧
    decode .load 0 (bytesOfNat 12 0x010FFFF000000000F8000000) = .ok (.nop wn, 1) := by decide +kernel

theorem witness_StepKeepsMemoryForm : Sys2Proof.Safety.MemOk (on .ctl member) ∧ ∃ t, step (on .ctl member) = .next t := by
  refine ⟨by unfold Sys2Proof.Safety.MemOk Sys2Proof.Safety.LocalWhole; decide +kernel, ?_⟩
  have h : (next? (step (on .ctl member))).isSome = true := by decide +kernel
  cases e : step (on .ctl member) with
  | next t => exact ⟨t, rfl⟩
  | fault f => simp [e, next?] at h
  | refused r => simp [e, next?] at h

/-- ADD completes; ST to the scratchpad and to DRAM complete. -/
theorem witness_ScalarWordFrame : header (.add nar 6 7 8) = some nar ∧ targets (.add nar 6 7 8) = some [.reg 6] ∧ (on .ctl member).activeCtx 0 = some member ∧
    ∃ t, exec (.add nar 6 7 8) (on .ctl member) = .next t ∧ t.last = .issued := by
  refine ⟨by decide, by decide, by decide +kernel, ?_⟩
  have h : (match exec (.add nar 6 7 8) (on .ctl member) with
    | .next t => t.last == .issued
    | _ => false) = true := by decide +kernel
  generalize exec (.add nar 6 7 8) (on .ctl member) = o at h ⊢
  cases o with
  | next t => exact ⟨t, rfl, eq_of_beq h⟩
  | fault f => simp at h
  | refused r => simp at h

theorem witness_StoreWordFrame : (let c := addressed 0xF000000000000040 member
    Runs (mapped .ctl c) c nar ∧ c.cancelled .ctl = false ∧ (match exec (.st nar (mem 6 2 0)) (mapped .ctl c) with
      | .next t => t.last == .issued
      | _ => false) = true) ∧
    (Runs (mapped .ctl globalMember) globalMember nar ∧ (match exec (.st nar (mem 6 2 0)) (mapped .ctl globalMember) with
      | .next t => t.last == .issued
      | _ => false) = true) := by
  unfold Runs State.reaches; refine ⟨?_, ?_⟩ <;> decide +kernel

end Sys2Proof.Tests
end

section
/-!
PROOF. Every step keeps the memories in canonical form and the contexts under their own numbers (StepKeepsMemoryForm).
One predicate, `Form h`, holds either half of the statement; each operation of the machine keeps it, in the order in which the
model defines them. Most operations only pass memories and contexts on; the few that write a memory (stores, vacating, losing, moving
a page, dropping a stack) rest on the laws of one memory, and the few that write the map of contexts on the laws of sorted maps.
-/
namespace Sys2Proof.MemoryForm
open Sys2Proof.Machine

/-! ## The invariant -/

/-- The half of the statement that is being proved. -/
inductive Half where
  /-- The memories are in canonical form. -/
  | memory
  /-- The contexts stand under their own numbers. -/
  | numbers

/-- A memory is in canonical form; a local one (`loc`) has lost no stack as well. -/
def MemForm (h : Half) (loc : Bool) (m : Mem) : Prop := h = .memory → m.wf = true ∧ (loc = true → m.gone = [])

/-- The local memories of a context are in canonical form. -/
structure CtxForm (h : Half) (c : Ctx) : Prop where
  sp : MemForm h true c.sp
  can : MemForm h true c.can

/-- Every context of a map is in form, and stands under its own number. -/
structure CtxsForm (h : Half) (cs : SMap Ctx) : Prop where
  each : ∀ x ∈ cs, CtxForm h x.2
  sorted : h = .numbers → cs.sorted = true
  cids : h = .numbers → ∀ x ∈ cs, x.2.cid = x.1

/-- The invariant of a state. -/
structure Form (h : Half) (s : State) : Prop where
  dram : MemForm h false s.dram
  ctxs : CtxsForm h s.ctxs

/-- The invariant of the outcome of a turn. -/
def OutForm (h : Half) : Out → Prop
  | .next s => Form h s
  | _ => True

/-- What a word's body answers keeps the invariant. -/
def ResForm (h : Half) : Res → Prop
  | .done s c _ _ => Form h s ∧ CtxForm h c
  | .stall s _ => Form h s
  | .trap s _ => Form h s
  | .after s c _ => Form h s ∧ CtxForm h c
  | .left s => Form h s
  | .dead _ => True

theorem form_memory_iff {s : State} : Form .memory s ↔ Safety.MemOk s := by
  constructor
  · rintro ⟨hd, hc⟩
    refine ⟨(hd rfl).1, fun c hm => ?_⟩
    obtain ⟨x, hx, rfl⟩ := List.mem_map.mp hm
    obtain ⟨hsp, hcan⟩ := hc.each x hx
    exact ⟨(hsp rfl).1, (hcan rfl).1, (hsp rfl).2 rfl, (hcan rfl).2 rfl⟩
  · rintro ⟨hd, hc⟩
    refine ⟨fun _ => ⟨hd, nofun⟩, ⟨fun x hx => ?_, nofun, nofun⟩⟩
    obtain ⟨hsp, hcan, hgsp, hgcan⟩ := hc x.2 (List.mem_map_of_mem hx)
    exact ⟨fun _ => ⟨hsp, fun _ => hgsp⟩, fun _ => ⟨hcan, fun _ => hgcan⟩⟩

theorem form_numbers_iff {s : State} : Form .numbers s ↔ Safety.Keyed s :=
  ⟨fun hs => ⟨hs.ctxs.sorted rfl, hs.ctxs.cids rfl⟩,
    fun hk => ⟨nofun, ⟨fun _ _ => ⟨nofun, nofun⟩, fun _ => hk.1, fun _ => hk.2⟩⟩⟩

section
-- Elaborated one after another: side by side the threads' stacks of these many short proofs exceed the check's memory limit.
set_option Elab.async false
variable {h : Half}

theorem OutForm.next {o : Out} {s : State} (ho : OutForm h o) (e : o = .next s) : Form h s := by subst e; exact ho

/-! ## One memory -/

section
variable {loc : Bool} {m : Mem}

theorem MemForm.empty : MemForm h loc Mem.empty := fun _ => ⟨Mem.empty_wf, fun _ => rfl⟩

theorem MemForm.poke (hm : MemForm h loc m) (a : Nat) (b : Byte) : MemForm h loc (m.poke a b) :=
  fun e => ⟨Mem.poke_wf a b (hm e).1, (hm e).2⟩

theorem MemForm.mark (hm : MemForm h loc m) (k : Nat) (st : UState) : MemForm h loc (m.mark k st) :=
  fun e => ⟨Mem.mark_wf k st (hm e).1, (hm e).2⟩

theorem MemForm.zero (hm : MemForm h loc m) (a n : Nat) : MemForm h loc (m.zero a n) := by
  induction n generalizing m a with
  | zero => exact hm
  | succ n ih => exact ih (hm.poke a 0) (a + 1)

theorem MemForm.markAll (hm : MemForm h loc m) (k : Nat) (st : UState) (n : Nat) : MemForm h loc (m.markAll k st n) := by
  induction n generalizing m k with
  | zero => exact hm
  | succ n ih => exact ih (hm.mark k st) (k + 1)

theorem MemForm.store1 (hm : MemForm h loc m) (u e : Nat) (as : List Nat) (a : Nat) (b : Byte) :
    MemForm h loc (m.store1 u e as a b) := by
  unfold Mem.store1
  split
  · exact hm.poke a b
  · split
    · exact hm
    · exact (hm.mark _ _).poke a b
  · split
    · exact (hm.mark _ _).poke a b
    · exact hm

theorem MemForm.storeAll (hm : MemForm h loc m) (u e : Nat) (as : List Nat) (bs : List (Nat × Byte)) :
    MemForm h loc (m.storeAll u e as bs) := by
  induction bs generalizing m with
  | nil => exact hm
  | cons p r ih => exact ih (hm.store1 u e as p.1 p.2)

theorem MemForm.store (hm : MemForm h loc m) (u e : Nat) (bs : List (Nat × Byte)) : MemForm h loc (m.store u e bs) :=
  hm.storeAll u e _ bs

theorem MemForm.vacate (hm : MemForm h loc m) (u a : Nat) : MemForm h loc (m.vacate u a) := (hm.zero _ _).mark _ _

theorem MemForm.lose (hm : MemForm h loc m) (u e a : Nat) : MemForm h loc (m.lose u e a) := (hm.zero _ _).markAll _ _ _

theorem MemForm.heal (hm : MemForm h loc m) (u e a : Nat) : MemForm h loc (m.heal u e a) := (hm.zero _ _).markAll _ _ _

theorem MemForm.tell (hm : MemForm h loc m) (u a : Nat) : MemForm h loc (m.tell u a) := by
  refine fun e => ⟨Mem.tell_wf u a (hm e).1, fun l => ?_⟩
  unfold Mem.tell
  split
  · exact (hm e).2 l
  · exact (hm e).2 l

theorem MemForm.vacateWord (hm : MemForm h loc m) (u e a : Nat) : MemForm h loc (m.vacateWord u e a) :=
  ((hm.zero _ _).markAll _ _ _).tell u a

theorem MemForm.vacateRange (hm : MemForm h loc m) (u e a n : Nat) : MemForm h loc (vacateRange u e m a n) := by
  induction n generalizing m a with
  | zero => exact hm
  | succ n ih => exact ih (hm.vacateWord u e a) (a + e)

theorem MemForm.veilBack (hm : MemForm h loc m) (base : Nat) (old : List (Nat × Byte × UState)) :
    MemForm h loc (veilBack base m old) := by
  induction old generalizing m with
  | nil => exact hm
  | cons o r ih =>
    obtain ⟨a, b, st⟩ := o
    simp only [Machine.veilBack]
    split
    · exact ih ((hm.mark _ _).poke _ _)
    · exact ih hm

end

/-! ## The map of contexts -/

theorem mem_of_find {α : Type} {m : SMap α} {k : Nat} {v : α} (hf : m.find k = some v) : (k, v) ∈ m := by
  induction m with
  | nil => exact nomatch hf
  | cons p r ih =>
    simp only [SMap.find] at hf
    split at hf
    · next e => cases hf; subst e; exact List.mem_cons_self ..
    · exact List.mem_cons_of_mem _ (ih hf)

theorem CtxsForm.set {cs : SMap Ctx} (hcs : CtxsForm h cs) {c : Ctx} (hc : CtxForm h c) : CtxsForm h (cs.set c.cid c) where
  each x hx := by
    rcases SMap.mem_set hx with rfl | hm
    · exact hc
    · exact hcs.each x hm
  sorted e := SMap.sorted_set _ _ (hcs.sorted e)
  cids e x hx := by
    rcases SMap.mem_set hx with rfl | hm
    · rfl
    · exact hcs.cids e x hm

theorem CtxsForm.del {cs : SMap Ctx} (hcs : CtxsForm h cs) (n : Nat) : CtxsForm h (cs.del n) where
  each x hx := hcs.each x (SMap.mem_del hx)
  sorted e := SMap.sorted_del n (hcs.sorted e)
  cids e x hx := hcs.cids e x (SMap.mem_del hx)

theorem sorted_map {α : Type} (f : α → α) (m : SMap α) : SMap.sorted (m.map (fun x => (x.1, f x.2))) = SMap.sorted m := by
  induction m with
  | nil => rfl
  | cons p r ih =>
    cases r with
    | nil => rfl
    | cons p' r' => simp only [List.map_cons, SMap.sorted] at ih ⊢; rw [ih]

/-- A change of every context that keeps its number and its memories' form. -/
theorem CtxsForm.map {cs : SMap Ctx} (hcs : CtxsForm h cs) {f : Ctx → Ctx} (hf : ∀ c, CtxForm h c → CtxForm h (f c))
    (hn : ∀ c, (f c).cid = c.cid) : CtxsForm h (cs.map (fun x => (x.1, f x.2))) where
  each x hx := by
    obtain ⟨y, hy, rfl⟩ := List.mem_map.mp hx
    exact hf _ (hcs.each y hy)
  sorted e := (sorted_map f cs).trans (hcs.sorted e)
  cids e x hx := by
    obtain ⟨y, hy, rfl⟩ := List.mem_map.mp hx
    exact (hn y.2).trans (hcs.cids e y hy)

/-! ## States and contexts that differ elsewhere only -/

theorem Form.same {s t : State} (hs : Form h s) (hd : t.dram = s.dram := by rfl) (hc : t.ctxs = s.ctxs := by rfl) : Form h t :=
  ⟨hd ▸ hs.dram, hc ▸ hs.ctxs⟩

theorem CtxForm.same {c d : Ctx} (hc : CtxForm h c) (hsp : d.sp = c.sp := by rfl) (hcan : d.can = c.can := by rfl) : CtxForm h d :=
  ⟨hsp ▸ hc.sp, hcan ▸ hc.can⟩

theorem CtxForm.ite {p : Prop} [Decidable p] {c d : Ctx} (hc : CtxForm h c) (hd : CtxForm h d) : CtxForm h (if p then c else d) := by
  split
  · exact hc
  · exact hd

theorem Form.ite {p : Prop} [Decidable p] {s t : State} (hs : Form h s) (ht : Form h t) : Form h (if p then s else t) := by
  split
  · exact hs
  · exact ht

theorem OutForm.ite {p : Prop} [Decidable p] {a b : Out} (ha : OutForm h a) (hb : OutForm h b) : OutForm h (if p then a else b) := by
  split
  · exact ha
  · exact hb

theorem ResForm.ite {p : Prop} [Decidable p] {a b : Res} (ha : ResForm h a) (hb : ResForm h b) : ResForm h (if p then a else b) := by
  split
  · exact ha
  · exact hb

theorem Form.ctx {s : State} (hs : Form h s) {n : Nat} {c : Ctx} (hc : s.ctx n = some c) : CtxForm h c :=
  hs.ctxs.each (n, c) (mem_of_find hc)

theorem Form.activeCtx {s : State} (hs : Form h s) {p : Nat} {c : Ctx} (hc : s.activeCtx p = some c) : CtxForm h c := by
  unfold State.activeCtx at hc
  split at hc
  · exact hs.ctx hc
  · exact nomatch hc

theorem Form.mem {s : State} (hs : Form h s) {c : Ctx} (hc : c ∈ s.allCtxs) : CtxForm h c := by
  obtain ⟨x, hx, rfl⟩ := List.mem_map.mp hc
  exact hs.ctxs.each x hx

theorem Form.setCtx {s : State} (hs : Form h s) {c : Ctx} (hc : CtxForm h c) : Form h (s.setCtx c) := ⟨hs.dram, hs.ctxs.set hc⟩

theorem Form.dropCtx {s : State} (hs : Form h s) (n : Nat) : Form h (s.dropCtx n) := ⟨hs.dram, hs.ctxs.del n⟩

theorem Form.setCore {s : State} (hs : Form h s) (p : Nat) (k : Core) : Form h (s.setCore p k) := hs.same

theorem Form.setLaunch {s : State} (hs : Form h s) (l : Launch) : Form h (s.setLaunch l) := hs.same

/-- A change of every context that keeps its number and its memories' form. -/
theorem Form.mapCtxs {s : State} (hs : Form h s) (f : Ctx → Ctx) (hf : ∀ c, CtxForm h c → CtxForm h (f c))
    (hn : ∀ c, (f c).cid = c.cid := by exact fun _ => rfl) : Form h { s with ctxs := s.ctxs.map (fun x => (x.1, f x.2)) } :=
  ⟨hs.dram, hs.ctxs.map hf hn⟩

/-! ## Parts of a context (Machine/Ctxs) -/

section
variable {c : Ctx}

theorem CtxForm.setSeqr (hc : CtxForm h c) (q : Sq) (x : Seqr) : CtxForm h (c.setSeqr q x) := by
  cases q <;> exact hc.same

theorem CtxForm.onSeqr (hc : CtxForm h c) (q : Sq) (f : Seqr → Seqr) : CtxForm h (c.onSeqr q f) := hc.setSeqr q _

theorem CtxForm.onAll (hc : CtxForm h c) (f : Seqr → Seqr) : CtxForm h (c.onAll f) := hc.same

theorem CtxForm.signal (hc : CtxForm h c) (sem : BitVec 8) (n : Nat) : CtxForm h (c.signal sem n) :=
  .ite (hc.same) (hc.same)

theorem CtxForm.sigField (hc : CtxForm h c) (sig : BitVec 8) : CtxForm h (c.sigField sig) := .ite hc (hc.signal sig 1)

theorem CtxForm.localStore (hc : CtxForm h c) (bs : List (Nat × Byte)) : CtxForm h (c.localStore bs) :=
  ⟨hc.sp.store 2 8 _, hc.can.store 2 8 _⟩

theorem CtxForm.landLocal (hc : CtxForm h c) (due : Nat) (bs : List (Nat × Byte)) : CtxForm h (c.landLocal due bs) :=
  .ite (hc.localStore _) ((hc.localStore _).same)

theorem CtxForm.flagLeg (hc : CtxForm h c) (leg : Option Nat) (b : BitVec 5) : CtxForm h (c.flagLeg leg b) := by
  cases leg with
  | none => exact hc.same
  | some n => exact .ite (hc.same) (hc.same)

theorem CtxForm.landOne (hc : CtxForm h c) (f : Flight) : CtxForm h (c.landOne f) := by
  unfold Ctx.landOne
  refine CtxForm.sigField (CtxForm.same (CtxForm.flagLeg ?_ f.leg f.flags)) f.sig
  split
  · exact hc
  · exact hc.onSeqr _ _
  · exact hc.onSeqr _ _
  · exact hc.same
  · exact hc.same
  · exact .ite hc (hc.landLocal _ _)

theorem CtxForm.landAll (hc : CtxForm h c) (fs : List Flight) : CtxForm h (c.landAll fs) := by
  induction fs generalizing c with
  | nil => exact hc
  | cons f fs ih => exact ih (hc.landOne f)

theorem CtxForm.landIf (hc : CtxForm h c) (p : Flight → Bool) : CtxForm h (c.landIf p) :=
  CtxForm.landAll (hc.same) _

theorem CtxForm.landDue (hc : CtxForm h c) (q : Option Sq) : CtxForm h (c.landDue q) := by
  cases q <;> exact hc.landIf _

theorem CtxForm.landEarly (hc : CtxForm h c) (f : Flight) : CtxForm h (c.landEarly f) := by
  unfold Ctx.landEarly
  split
  · exact (hc.landOne f).same
  · exact ((hc.flagLeg _ _).sigField _).same

end

/-! ## Legs, squashes and writes at home slices (Machine/Legs) -/

section
variable {c : Ctx}

theorem CtxForm.withLeg (hc : CtxForm h c) : CtxForm h c.withLeg := .ite hc (hc.same)

theorem CtxForm.endLeg (hc : CtxForm h c) (bars : Bool) (a : Option Atomic) : CtxForm h (c.endLeg bars a) :=
  .ite hc (hc.same)

theorem CtxForm.squashAt (hc : CtxForm h c) (l : Leg) : CtxForm h (c.squashAt l) := by
  unfold Ctx.squashAt
  split
  · exact hc
  · exact hc.same

end

section
variable {s : State}

theorem Form.bump (hs : Form h s) (p off : Nat) : Form h (s.bump p off) := hs.setCore _ _

theorem Form.squashOne (hs : Form h s) (grans : List Nat) {c : Ctx} (hc : CtxForm h c) : Form h (s.squashOne grans c) := by
  unfold State.squashOne
  split
  · exact Form.setCtx (hs.same) (hc.squashAt _)
  · exact hs

theorem Form.squashList (hs : Form h s) (grans cids : List Nat) : Form h (s.squashList grans cids) := by
  induction cids generalizing s with
  | nil => exact hs
  | cons n r ih =>
    refine ih (s := match s.ctx n with | none => s | some c => s.squashOne grans c) ?_
    split
    · exact hs
    · next c hc => exact hs.squashOne grans (hs.ctx hc)

theorem Form.squash (hs : Form h s) (grans : List Nat) : Form h (s.squash grans) := hs.squashList _ _

theorem Form.wake (hs : Form h s) (who : Option Writer) (as : List Nat) : Form h (s.wake who as) :=
  hs.mapCtxs (fun c => { c with waitm := c.waitm.map (Waiter.test s.dram who as) }) (fun _ hc => hc.same)

theorem Form.storeHome (hs : Form h s) (stamp : BitVec 16) (bs : List (Nat × Byte)) : Form h (s.storeHome stamp bs) :=
  ⟨hs.dram.store 64 64 _, hs.ctxs⟩

theorem Form.writeQuiet (hs : Form h s) (stamp : BitVec 16) (bs : List (Nat × Byte)) : Form h (s.writeQuiet stamp bs) :=
  (hs.storeHome stamp bs).wake none _

theorem Form.writeHome (hs : Form h s) (stamp : BitVec 16) (bs : List (Nat × Byte)) : Form h (s.writeHome stamp bs) :=
  (hs.squash _).writeQuiet stamp bs

theorem Form.writeHart (hs : Form h s) (hart : Nat) (bs : List (Nat × Byte)) : Form h (s.writeHart hart bs) :=
  ((hs.squash _).storeHome _ bs).wake _ _

theorem Form.keep (hs : Form h s) {c : Ctx} (hc : CtxForm h c) : Form h (s.keep c) := (hs.setCtx hc).same

theorem Form.record (hs : Form h s) (c : Ctx) (cls : AccCls) (sc : Scope) (as : List Nat) : Form h (s.record c cls sc as) :=
  .ite (hs.same) hs

theorem Form.writeAs (hs : Form h s) (c : Ctx) (cls : AccCls) (sc : Scope) (stamp : BitVec 16) (bs : List (Nat × Byte)) :
    Form h (s.writeAs c cls sc stamp bs) :=
  ((((Form.ite hs (hs.same)).squash _).storeHome _ _).record _ _ _ _).wake _ _

end

/-! ## Translation (Machine/Walk) -/

/-- The state after a translation keeps the invariant. -/
def XForm (h : Half) : XRes → Prop
  | .ok _ s => Form h s
  | _ => True

section
variable {s : State}

theorem XForm.ok {r : XRes} {pa : Nat} (hr : XForm h r) (e : r = .ok pa s) : Form h s := by subst e; exact hr

theorem Form.fillStream (hs : Form h s) (c : Ctx) (port : Nat) (ent : TlbEnt) (k : Need) : Form h (s.fillStream c port ent k) := by
  unfold State.fillStream
  dsimp only
  split
  · exact hs.same
  · exact hs.same

theorem Form.streamOn (hs : Form h s) (c : Ctx) (port : Option Nat) (t : TlbEnt) (k : Need) : Form h (s.streamOn c port t k) := by
  cases port with
  | none => exact hs
  | some p => exact .ite hs (hs.fillStream _ _ _ _)

theorem Form.markLeaf (hs : Form h s) {p : Prop} [Decidable p] (bs : List (Nat × Byte)) :
    Form h (if p then s else s.writeQuiet 0xFFFF bs) := .ite hs (hs.writeQuiet _ _)

theorem Form.xform_translateVia (hs : Form h s) (c : Ctx) (port : Option Nat) (va : BitVec 64) (k : Need) :
    XForm h (s.translateVia c port va k) := by
  unfold State.translateVia
  split
  · trivial
  · split
    · trivial
    · split
      · dsimp only
        split
        · trivial
        · exact hs.streamOn _ _ _ _
      · split
        · trivial
        · split
          · trivial
          · split
            · trivial
            · cases port with
              | none => exact .ite (hs.markLeaf _).same (hs.markLeaf _).same
              | some p => exact (hs.markLeaf _).same.fillStream _ _ _ _

theorem Form.translateVia (hs : Form h s) {c : Ctx} {port : Option Nat} {va : BitVec 64} {k : Need} {pa : Nat} {t : State}
    (e : s.translateVia c port va k = .ok pa t) : Form h t := (hs.xform_translateVia c port va k).ok e

theorem Form.translate (hs : Form h s) {c : Ctx} {va : BitVec 64} {k : Need} {pa : Nat} {t : State}
    (e : s.translate c va k = .ok pa t) : Form h t := hs.translateVia e

theorem Form.xform_reachPage (hs : Form h s) (root va : BitVec 64) (k : Need) : XForm h (s.reachPage root va k) := by
  unfold State.reachPage
  split
  · trivial
  · split
    · trivial
    · split
      · trivial
      · exact hs.markLeaf _

theorem Form.reachPage (hs : Form h s) {root va : BitVec 64} {k : Need} {pa : Nat} {t : State}
    (e : s.reachPage root va k = .ok pa t) : Form h t := (hs.xform_reachPage root va k).ok e

end

/-! ## Messages (Machine/Messages) -/

section
variable {s : State}

theorem Form.setLink (hs : Form h s) (m : Nat) (l : Link) : Form h (s.setLink m l) := hs.same

theorem Form.sendOn (hs : Form h s) (m : Nat) (up : Bool) (msg : List (BitVec 64)) : Form h (s.sendOn m up msg) := hs.same

theorem Form.post (hs : Form h s) (a b pa : Nat) (msg : List (BitVec 64)) : Form h (s.post a b pa msg) := by
  unfold State.post
  dsimp only
  split
  · exact hs
  · exact hs.same

theorem Form.answerOn (hs : Form h s) (m : Nat) (back : Bool) (pa : Nat) (msg : List (BitVec 64)) :
    Form h (s.answerOn m back pa msg) := hs.same

theorem Form.sendTo (hs : Form h s) (die pa : Nat) (msg : List (BitVec 64)) : Form h (s.sendTo die pa msg) := by
  unfold State.sendTo
  dsimp only
  split
  · exact hs.post _ _ _ _
  · split
    · exact hs.same
    · exact hs

theorem Form.dispatchRed (hs : Form h s) (r : Red) : Form h (s.dispatchRed r) := .ite hs.same (hs.same.sendTo _ _ _)

theorem Form.ackRed (hs : Form h s) (r : Red) : Form h (s.ackRed r) := by
  unfold State.ackRed
  split
  · exact hs.same
  · exact hs.same

theorem Form.ask (hs : Form h s) (c : Ctx) (eng w : Nat) : Form h (s.ask c eng w) := hs.same.sendTo _ _ _

theorem Form.fetchFar_snd (hs : Form h s) (c : Ctx) (eng : Nat) (ps : List (Nat × Nat)) : Form h (s.fetchFar c eng ps).2 := by
  unfold State.fetchFar
  dsimp only
  split
  · exact hs
  · split
    · exact hs.same
    · exact List.foldlRecOn _ _ hs (fun _ ht w _ => ht.ask c eng w)

theorem Form.fetchFar (hs : Form h s) {c : Ctx} {eng : Nat} {ps : List (Nat × Nat)} {b : Bool} {t : State}
    (e : s.fetchFar c eng ps = (b, t)) : Form h t := by
  have ht := hs.fetchFar_snd c eng ps
  rw [e] at ht
  exact ht

theorem Form.asking (hs : Form h s) (t : State) : Form h (s.asking t) := hs.same

theorem Form.sendFar (hs : Form h s) (c : Ctx) (eng : Nat) (bs : List (Nat × Byte)) : Form h (s.sendFar c eng bs) :=
  List.foldlRecOn _ _ hs (fun _ ht _ _ => ht.same.sendTo _ _ _)

end

/-! ## Traps, retirement and issue (Machine/Ops) -/

section
variable {s : State} {c : Ctx}

theorem Form.takeLost (hs : Form h s) (hc : CtxForm h c) (ls : List (Space × Nat × Nat)) :
    Form h (s.takeLost c ls).1 ∧ CtxForm h (s.takeLost c ls).2 := by
  induction ls generalizing s c with
  | nil => exact ⟨hs, hc⟩
  | cons l r ih =>
    obtain ⟨space, a, n⟩ := l
    cases space with
    | global => exact ih ⟨hs.dram.vacateRange 64 64 a (n / 64), hs.ctxs⟩ hc
    | sp => exact ih hs ⟨hc.sp.vacateRange 2 8 a (n / 8), hc.can⟩
    | can => exact ih hs ⟨hc.sp, hc.can.vacateRange 2 8 a (n / 8)⟩

theorem Form.suspend (hs : Form h s) (hc : CtxForm h c) (q : Sq) (impr : Bool) (epc : Option Nat) (t : TrapRec) :
    Form h (s.suspend c q impr epc t) := by
  have h1 : CtxForm h (if c.joined then c else c.landIf (fun _ => true)) := .ite hc (hc.landIf _)
  cases epc with
  | none =>
    obtain ⟨h2, h3⟩ := hs.takeLost (h1.onAll (fun x => { x with epc := BitVec.ofNat 32 x.pc })) t.lost
    refine (h2.setCtx ?_).same
    exact h3.same
  | some e =>
    obtain ⟨h2, h3⟩ := hs.takeLost ((h1.onAll (fun x => { x with epc := BitVec.ofNat 32 x.pc })).onSeqr q
      (fun x => { x with epc := BitVec.ofNat 32 e })) t.lost
    refine (h2.setCtx ?_).same
    exact h3.same

theorem Form.stampAcc (hs : Form h s) (a : BitVec 3) : Form h (s.stampAcc a) := by
  unfold State.stampAcc
  split
  · next c hc => exact hs.setCtx (hs.activeCtx hc).same
  · exact hs

theorem OutForm.accOut {o : Out} {a : BitVec 3} (ho : OutForm h o) : OutForm h (accOut a o) := by
  cases o with
  | next s => exact Form.ite (ho.next rfl |>.stampAcc a) ho
  | fault => trivial
  | refused => trivial

theorem Form.stalled (hs : Form h s) : Form h s.stalled := hs.same

theorem Form.waitSafe (hs : Form h s) (hc : CtxForm h c) : Form h (s.waitSafe c) := (hs.keep hc.same).stalled

theorem Form.trapHere (hs : Form h s) (hc : CtxForm h c) (q : Sq) (t : TrapRec) : Form h (s.trapHere c q t) :=
  .ite (hs.suspend hc _ _ _ _) (hs.waitSafe hc)

theorem CtxForm.countWord (hc : CtxForm h c) (q : Sq) : CtxForm h (c.countWord q) := by
  cases q <;> exact hc.same

theorem CtxForm.retire (hc : CtxForm h c) (q : Sq) (len : Nat) (j : Jump) (sig : BitVec 8) : CtxForm h (c.retire q len j sig) :=
  ((hc.onSeqr _ _).countWord q).sigField sig

theorem CtxForm.takeSem (hc : CtxForm h c) (sem : BitVec 8) (n : Nat) : CtxForm h (c.takeSem sem n) := .ite hc.same hc.same

theorem CtxForm.takeNow (hc : CtxForm h c) (sem : BitVec 8) : CtxForm h (c.takeNow sem) := .ite hc.same hc

theorem CtxForm.applyTakes (hc : CtxForm h c) (free : Nat) (m : SMap (BitVec 20)) : CtxForm h (c.applyTakes free m) := by
  induction m generalizing c with
  | nil => exact hc
  | cons x r ih => exact ih (.ite hc hc.same)

theorem Form.issued (hs : Form h s) (hc : CtxForm h c) : Form h (s.issued c) := (hs.keep hc).same

theorem CtxForm.begun (hc : CtxForm h c) (q : Sq) (hd : Hd) : CtxForm h (c.begun q hd) :=
  .ite (CtxForm.ite hc (hc.takeSem _ _)).withLeg (.ite hc (hc.takeSem _ _))

/-- What a word answers, from what its body answers. -/
theorem Form.settle (hs : Form h s) (hc : CtxForm h c) (q : Sq) (len : Nat) (sig : BitVec 8) {r : Res} (hr : ResForm h r) :
    OutForm h (settle s c q len sig r) := by
  cases r with
  | done s' c' j signalled => exact hr.1.issued (hr.2.retire _ _ _ _)
  | stall s' c' => exact (Form.keep hr hc.same).stalled
  | trap s' t => exact Form.ite (Form.suspend hr hc _ _ _ _) (hs.waitSafe hc)
  | after s' c' t => exact hr.1.suspend (hr.2.retire _ _ _ _) _ _ _ _
  | left s' => exact Form.same hr
  | dead f => trivial

/-- A word keeps the invariant where its body does. -/
theorem Form.runWordIn (hs : Form h s) (kept : Bool) (hd : Hd) (len : Nat) (always : Bool) {body : State → Ctx → Res}
    (hb : ∀ c, CtxForm h c → ResForm h (body s c)) : OutForm h (runWordIn kept hd len always s body) := by
  unfold Machine.runWordIn
  split
  · trivial
  · next c hc =>
    have hc := hs.activeCtx hc
    have skip : OutForm h (.next (s.issued ((c.begun s.focus.2 hd).retire s.focus.2 len .none hd.sig))) :=
      hs.issued ((hc.begun _ _).retire _ _ _ _)
    exact .ite hs.stalled (.ite hs.stalled (.ite skip (.ite (hs.settle hc _ _ _ hs)
      (.ite (hs.settle hc _ _ _ (hb _ (hc.begun _ _))) skip))))

theorem Form.runWord (hs : Form h s) (hd : Hd) (len : Nat) (always : Bool) {body : State → Ctx → Res}
    (hb : ∀ c, CtxForm h c → ResForm h (body s c)) : OutForm h (runWord hd len always s body) := hs.runWordIn _ _ _ _ hb

theorem ResForm.escape (hs : Form h s) {r : Res} (hr : ResForm h r) : ResForm h (escape s c r) := .ite hs hr

end

/-! ## Operands and accesses (Machine/Streams, Machine/Operands) -/

section
variable {s : State} {c : Ctx}

theorem CtxForm.advance (hc : CtxForm h c) (n : BitVec 6) (span : Nat) : CtxForm h (c.advance n span) := hc.same

theorem ResForm.reading (hs : Form h s) {rs : List (BitVec 5)} {k : Seqr → Res} (hk : ∀ x, ResForm h (k x)) :
    ResForm h (reading s c rs k) := .ite hs (hk _)

theorem ResForm.readingPred (hs : Form h s) {n : BitVec 3} {k : Bool → Res} (hk : ∀ b, ResForm h (k b)) :
    ResForm h (readingPred s c n k) := .ite hs (hk _)

theorem CtxForm.flagAt (hc : CtxForm h c) (q : Sq) (leg : Option Nat) (b : BitVec 5) : CtxForm h (c.flagAt q leg b) := .ite hc hc.same

theorem CtxForm.latch (hc : CtxForm h c) (q : Sq) (v : VWord) (lat : Nat) : CtxForm h (c.latch q v lat) := hc.onSeqr _ _

theorem CtxForm.scalarFlag (hc : CtxForm h c) (q : Sq) (d : BitVec 5) (v : Word) (lat : Nat) (flags : BitVec 5) :
    CtxForm h (c.scalarFlag q d v lat flags) := hc.same.latch _ _ _

theorem CtxForm.scalar (hc : CtxForm h c) (q : Sq) (d : BitVec 5) (v : Word) (lat : Nat) : CtxForm h (c.scalar q d v lat) :=
  hc.scalarFlag _ _ _ _ _

theorem CtxForm.heldIn (hc : CtxForm h c) (n k : Nat) : CtxForm h (c.heldIn n k) := hc.same

theorem CtxForm.pairFlag (hc : CtxForm h c) (free : Nat) (q : Sq) (d : BitVec 5) (v : DWord) (lat : Nat) (flags : BitVec 5) :
    CtxForm h (c.pairFlag free q d v lat flags) := hc.same.latch _ _ _

theorem CtxForm.predResult (hc : CtxForm h c) (free : Nat) (q : Sq) (d : BitVec 3) (b : Bool) (lat : Nat) :
    CtxForm h (c.predResult free q d b lat) := hc.same.latch _ _ _

theorem Form.scalarWord (hs : Form h s) {hd : Hd} {d : BitVec 5} {rs : List (BitVec 5)} {lat : Nat} {f : Seqr → Word} :
    OutForm h (scalarWord hd s d rs lat f) := hs.runWord _ _ _ fun _ hc => .reading hs fun _ => ⟨hs, hc.scalar _ _ _ _⟩

theorem Form.pairWord (hs : Form h s) {hd : Hd} {d : BitVec 5} {rs : List (BitVec 5)} {lat : Nat} {f : Seqr → DWord} :
    OutForm h (pairWord hd s d rs lat f) := hs.runWord _ _ _ fun _ hc => .reading hs fun _ => ⟨hs, hc.pairFlag _ _ _ _ _ _⟩

theorem Form.predWord (hs : Form h s) {hd : Hd} {p : BitVec 3} {rs : List (BitVec 5)} {f : Seqr → Bool} :
    OutForm h (predWord hd s p rs f) := hs.runWord _ _ _ fun _ hc => .reading hs fun _ => ⟨hs, hc.predResult _ _ _ _ _⟩

theorem Form.logRace (hs : Form h s) (c : Ctx) (w : Shadow) (va : BitVec 64) (acc : BitVec 3) : Form h (s.logRace c w va acc) :=
  .ite (hs.bump _ _) ((hs.writeQuiet _ _).bump _ _)

theorem Form.raceTest (hs : Form h s) {cls : AccCls} {va : BitVec 64} {pa n : Nat} {acc : BitVec 3} {t : State}
    (e : s.raceTest c cls va pa n acc = .ok t) : Form h t := by
  unfold State.raceTest at e
  split at e
  · cases e; exact hs
  · split at e
    · cases e; exact hs
    · split at e
      · cases e; exact hs.bump _ _
      · split at e
        · cases e; exact hs.logRace _ _ _ _
        · cases e

theorem Form.racePieces (hs : Form h s) {cls : AccCls} {acc : BitVec 3} {ps : List Piece} {t : State}
    (e : s.racePieces c cls acc ps = .ok t) : Form h t := by
  unfold State.racePieces at e
  dsimp only at e
  split at e
  · exact hs.raceTest e
  · cases e; exact hs

/-- The state that a global access leaves keeps the invariant. -/
def GForm (h : Half) : GRes → Prop
  | .ok s _ => Form h s
  | .trap s _ => Form h s
  | _ => True

theorem Form.access (hs : Form h s) (c : Ctx) (skip : Bool) (va : BitVec 64) (n : Nat) (k : Need) (cls : AccCls)
    (pre : Option TrapRec) : GForm h (s.access c skip va n k cls pre) := by
  unfold State.access
  split
  · exact hs
  · trivial
  · next pa s1 e =>
    have h1 := hs.translate e
    split
    · exact h1
    · split
      · trivial
      · split
        · exact h1
        · split
          · exact h1
          · next e2 => exact h1.raceTest e2

/-- The state that the translation of some pieces leaves keeps the invariant. -/
def ReachForm (h : Half) : Reach → Prop
  | .ok s _ => Form h s
  | .trap s _ => Form h s
  | _ => True

theorem ReachForm.ok {r : Reach} {ps : List Piece} (hr : ReachForm h r) (e : r = .ok s ps) : Form h s := by subst e; exact hr

theorem ReachForm.trap {r : Reach} {t : TrapRec} (hr : ReachForm h r) (e : r = .trap s t) : Form h s := by subst e; exact hr

theorem Form.reach (hs : Form h s) (c : Ctx) (port : Option Nat) (k : Need) (acc : List Piece) (ps : List (BitVec 64 × Nat)) :
    ReachForm h (s.reach c port k acc ps) := by
  induction ps generalizing s acc with
  | nil => exact hs
  | cons p r ih =>
    obtain ⟨a, n⟩ := p
    unfold State.reach
    split
    · exact hs
    · trivial
    · next e =>
      split
      · trivial
      · exact ih (hs.translateVia e) _

theorem Form.scalarAccess (hs : Form h s) {va : BitVec 64} {n : Nat} {k : Need} {cls : AccCls} {pre : Option TrapRec}
    {f : State → Nat → Res} (hf : ∀ t pa, Form h t → ResForm h (f t pa)) : ResForm h (s.scalarAccess c va n k cls pre f) := by
  have ha := hs.access c c.ctl.once.watch va n k cls pre
  unfold State.scalarAccess
  generalize s.access c c.ctl.once.watch va n k cls pre = r at ha
  cases r with
  | ok t pa => exact hf t pa ha
  | trap t tr => exact ha
  | stall => exact hs
  | dead => trivial

theorem CtxForm.room (hc : CtxForm h c) (more : Nat) : CtxForm h (c.room more) := .ite (hc.endLeg _ _).withLeg hc

theorem CtxForm.legStore (hc : CtxForm h c) (bs : List (Nat × Byte)) : CtxForm h (c.legStore bs) := (hc.room _).same

theorem Form.taskWrite (hs : Form h s) {s0 : State} (h0 : Form h s0) {bs : List (Nat × Byte)} {f : State → Res}
    (hf : ∀ t, Form h t → ResForm h (f t)) : ResForm h (s.taskWrite s0 c bs f) :=
  .ite h0 (hf _ ((hs.writeAs _ _ _ _ _).sendFar _ _ _))

end

/-! ## Arithmetic, transfers and loops (Machine/Alu, Machine/Branch) -/

section
variable {s : State} {c : Ctx} {hd : Hd}

theorem Form.execSel (hs : Form h s) {d a b psel} : OutForm h (execSel hd d a b psel s) :=
  hs.runWord _ _ _ fun _ hc => .reading hs fun _ => .readingPred hs fun _ => ⟨hs, hc.scalar _ _ _ _⟩

theorem ResForm.notInBody (hs : Form h s) {r : Res} (hr : ResForm h r) : ResForm h (notInBody s c r) := .ite hs hr

theorem ResForm.toIndex (hs : Form h s) (hc : CtxForm h c) (t : Word) : ResForm h (toIndex s c t) := .ite hs (.notInBody hs ⟨hs, hc⟩)

theorem Form.execBr (hs : Form h s) {disp} : OutForm h (execBr hd disp s) := hs.runWord _ _ _ fun _ hc => .notInBody hs ⟨hs, hc⟩

theorem Form.execBra (hs : Form h s) {r} : OutForm h (execBra hd r s) :=
  hs.runWord _ _ _ fun _ hc => .reading hs fun _ => .toIndex hs hc _

theorem Form.execJmp (hs : Form h s) {disp} : OutForm h (execJmp hd disp s) := hs.runWord _ _ _ fun _ hc => .notInBody hs ⟨hs, hc⟩

theorem Form.execCall (hs : Form h s) {disp} : OutForm h (execCall hd disp s) :=
  hs.runWord _ _ _ fun _ hc => .notInBody hs ⟨hs, hc.scalar _ _ _ _⟩

theorem Form.execRet (hs : Form h s) : OutForm h (execRet hd s) :=
  hs.runWord _ _ _ fun _ hc => .reading hs fun _ => .toIndex hs hc _

theorem Form.execLoop (hs : Form h s) {lc count dist} : OutForm h (execLoop hd lc count dist s) :=
  hs.runWord _ _ _ fun _ hc => .reading hs fun _ => .ite hs (.notInBody hs (.ite ⟨hs, hc.onSeqr _ _⟩ ⟨hs, hc.onSeqr _ _⟩))

theorem CtxForm.cancelAll (hc : CtxForm h c) : CtxForm h c.cancelAll := hc.same

theorem Form.execLexit (hs : Form h s) {lc cancel} : OutForm h (execLexit hd lc cancel s) := by
  refine hs.runWord _ _ _ fun c hc => .notInBody hs ?_
  have waits (r : Res) (hr : ResForm h r) : ResForm h ((if cancel then escape s c else id) r) := by
    cases cancel with
    | false => exact hr
    | true => exact .escape hs hr
  have h1 : CtxForm h (if cancel && s.focus.2 == .ctl then c.cancelAll else c) := .ite hc.cancelAll hc
  refine waits _ ?_
  dsimp only
  split
  · exact ⟨hs, h1⟩
  · exact ⟨hs, h1.onSeqr _ _⟩

theorem Form.execLbrd (hs : Form h s) {count len mask skl sks skc} : OutForm h (execLbrd hd count len mask skl sks skc s) :=
  hs.runWord _ _ _ fun _ hc => .ite hs (.ite hs (.reading hs fun _ => .escape hs ⟨hs, hc.same⟩))

/-! ## Synchronisation (Machine/Sync) -/

theorem Form.execNop (hs : Form h s) : OutForm h (execNop hd s) := hs.runWord _ _ _ fun _ hc => ⟨hs, hc⟩

theorem Form.execSig (hs : Form h s) {sem rsrc amount} : OutForm h (execSig hd sem rsrc amount s) :=
  hs.runWordIn _ _ _ _ fun _ hc => .reading hs fun _ => .escape hs ⟨hs, (CtxForm.ite (hc.takeNow _) hc).signal _ _⟩

theorem Form.execWait (hs : Form h s) {sem rsrc amount} : OutForm h (execWait hd sem rsrc amount s) :=
  hs.runWordIn _ _ _ _ fun _ hc => .reading hs fun _ => .escape hs (.ite ⟨hs, hc⟩ (.ite ⟨hs, hc.takeSem _ _⟩ hs))

theorem CtxForm.putSem (hc : CtxForm h c) (sem : BitVec 8) (v : Nat) : CtxForm h (c.putSem sem v) :=
  List.foldlRecOn _ _ hc.same fun _ hd k _ => hd.signal k.1 1

theorem Form.execSemi (hs : Form h s) {sem r} : OutForm h (execSemi hd sem r s) :=
  hs.runWord _ _ _ fun _ hc => .reading hs fun _ => .escape hs ⟨hs, hc.putSem _ _⟩

theorem Form.execSemr (hs : Form h s) {d sem} : OutForm h (execSemr hd d sem s) :=
  hs.runWord _ _ _ fun _ hc => ⟨hs, hc.scalar _ _ _ _⟩

theorem Form.execCset (hs : Form h s) {n value} : OutForm h (execCset hd n value s) :=
  hs.runWord _ _ _ fun _ hc => .escape hs ⟨hs, hc.same⟩

theorem Form.execCwait (hs : Form h s) {n value} : OutForm h (execCwait hd n value s) := hs.runWord _ _ _ fun _ hc => .ite ⟨hs, hc⟩ hs

theorem CtxForm.tryJoin (hc : CtxForm h c) : CtxForm h c.tryJoin := .ite ((hc.landIf fun _ => true).onAll Seqr.released).same hc

theorem Form.execFork (hs : Form h s) : OutForm h (execFork hd s) :=
  hs.runWord _ _ _ fun _ hc => .ite hs (.notInBody hs (.escape hs ⟨hs, hc.same⟩))

theorem Form.execJoin (hs : Form h s) : OutForm h (execJoin hd s) :=
  hs.runWord _ _ _ fun _ hc => .ite hs (.notInBody hs (.escape hs (.ite ⟨hs, hc.same⟩ ⟨hs, (hc.same.onSeqr _ _).tryJoin⟩)))

theorem ResForm.finishWord (hs : Form h s) (hc : CtxForm h c) : ResForm h (finishWord s c) := ⟨hs, hc.same⟩

theorem Form.execHalt (hs : Form h s) : OutForm h (execHalt hd s) :=
  hs.runWord _ _ _ fun _ hc => .ite hs (.ite hs (.ite (.ite (.finishWord hs hc)
    ⟨hs, ((hc.onSeqr _ _).endLeg _ _).same.tryJoin⟩) ⟨hs, (hc.onSeqr _ _).tryJoin⟩))

theorem Form.execMark (hs : Form h s) {mask} : OutForm h (execMark hd mask s) :=
  hs.runWord _ _ _ fun _ hc => .escape hs ⟨hs, hc.same⟩

theorem Form.execDrain (hs : Form h s) : OutForm h (execDrain hd s) :=
  hs.runWord _ _ _ fun _ hc => .escape hs (.ite ⟨hs, hc.same⟩ hs)

theorem Form.execFence (hs : Form h s) {scope} : OutForm h (execFence hd scope s) := hs.runWord _ _ _ fun _ hc => .ite ⟨hs, hc⟩ hs

theorem Form.execLege (hs : Form h s) : OutForm h (execLege hd s) := hs.runWord _ _ _ fun _ hc => ⟨hs, hc.endLeg _ _⟩

theorem Form.execBars (hs : Form h s) {comm op a d} : OutForm h (execBars hd comm op a d s) :=
  hs.runWord _ _ _ fun _ hc => .ite hs (.ite hs (.ite hs (.reading hs fun _ => .escape hs ⟨hs, (hc.endLeg _ _).same⟩)))

theorem Form.execCsrr (hs : Form h s) {d csr} : OutForm h (execCsrr hd d csr s) := by
  refine hs.runWord _ _ _ fun c hc => ?_
  cases csr with
  | sticky => exact .escape hs ⟨hs, hc.scalar _ _ _ _⟩
  | cycle => exact ⟨hs, (hc.onSeqr _ _).scalar _ _ _ _⟩
  | _ => exact ⟨hs, hc.scalar _ _ _ _⟩

theorem Form.csrTrapped (hs : Form h s) (hc : CtxForm h c) {f : Ctx → Ctx} (hf : ∀ d, CtxForm h d → CtxForm h (f d)) :
    ResForm h (s.csrTrapped c f) := by
  unfold State.csrTrapped
  split
  · split
    · next d e => exact ⟨hs.setCtx (hf d (hs.ctx e)), hc⟩
    · exact ⟨hs, hc⟩
  · exact ⟨hs, hf c hc⟩

theorem Form.csrWrite (hs : Form h s) (hc : CtxForm h c) (q : Sq) (r : Csr) (v : Word) : ResForm h (s.csrWrite c q r v) := by
  cases r with
  | status => exact ⟨hs, .ite hc hc.same⟩
  | cause => exact hs.csrTrapped hc fun _ hd => hd.same
  | tval => exact hs.csrTrapped hc fun _ hd => hd.same
  | epc => exact hs.csrTrapped hc fun _ hd => hd.onSeqr _ _
  | lc n => exact ⟨hs, hc.onSeqr _ _⟩
  | _ => exact ⟨hs, hc.same⟩

theorem Form.execCsrw (hs : Form h s) {a csr} : OutForm h (execCsrw hd a csr s) :=
  hs.runWord _ _ _ fun _ hc => .reading hs fun _ => .escape hs (hs.csrWrite hc _ _ _)

end

/-! ## Scalar memory words (Machine/ScalarMem) -/

section
variable {s : State} {c : Ctx} {hd : Hd}

theorem ResForm.holdCopies (hs : Form h s) (hc : CtxForm h c) {k : Ctx → Res} (hk : ∀ d, CtxForm h d → ResForm h (k d)) :
    ResForm h (holdCopies s c k) := .ite (hk _ hc.same) hs

theorem CtxForm.loaded (hc : CtxForm h c) (free : Nat) (m : MemF) (sx : Bool) (bs : List Byte) (lat : Nat) (flags : BitVec 5) :
    CtxForm h (c.loaded free m sx bs lat flags) := .ite (hc.pairFlag _ _ _ _ _ _) (hc.scalarFlag _ _ _ _ _)

theorem CtxForm.legLoaded (hc : CtxForm h c) (free : Nat) (m : MemF) (sx : Bool) (bs : List Byte) (lat : Nat) (flags : BitVec 5) :
    CtxForm h (c.legLoaded free m sx bs lat flags) := (hc.loaded _ _ _ _ _ _).heldIn _ _

theorem CtxForm.legLoad (hc : CtxForm h c) (gs : List Nat) : CtxForm h (c.legLoad gs) := hc.same

theorem Form.loadWord (hs : Form h s) {m sx} : OutForm h (loadWord hd m sx s) := by
  refine hs.runWord _ _ _ fun c hc => .reading hs fun x => .ite hs ?_
  split
  · exact hs
  · refine .ite hs ?_
    split
    · exact hs
    · exact ⟨hs, hc.loaded _ _ _ _ _ _⟩
  · refine hs.scalarAccess fun s0 pa h0 => .ite hs (.ite hs ?_)
    split
    · exact hs.asking _
    · next e =>
      have h1 := h0.fetchFar e
      refine .ite ?_ ?_
      · split
        · exact h1
        · exact ⟨h1, hc.loaded _ _ _ _ _ _⟩
      · split
        · exact h1
        · exact ⟨h1, (hc.legLoad _).legLoaded _ _ _ _ _ _⟩

theorem ResForm.ordWait (hs : Form h s) (hc : CtxForm h c) {m : MemF} {k : Ctx → Res} (hk : ∀ d, CtxForm h d → ResForm h (k d)) :
    ResForm h (ordWait s m c k) := .ite (.holdCopies hs hc hk) (hk c hc)

theorem CtxForm.localWrite (hc : CtxForm h c) (space : Space) (a n : Nat) (v : BitVec 64) : CtxForm h (c.localWrite space a n v) := hc.same

theorem Form.storeWord (hs : Form h s) {m} : OutForm h (storeWord hd m s) := by
  refine OutForm.accOut (hs.runWord _ _ _ fun c hc => .reading hs fun x => .ite hs ?_)
  split
  · exact hs
  · split
    · exact hs
    · exact .ordWait hs hc fun d hd => .escape hs ⟨hs, hd.localWrite _ _ _ _⟩
  · exact hs.scalarAccess fun s1 pa h1 => .ordWait hs hc fun d hd =>
      .ite (h1.taskWrite hs fun s2 h2 => ⟨h2, hd⟩) ⟨h1, hd.legStore _⟩

theorem CtxForm.listWriter (hc : CtxForm h c) (who : Option Writer) : CtxForm h (c.listWriter who) := by
  cases who with
  | none => exact hc
  | some w => exact .ite hc (.ite hc.same hc.same)

theorem CtxForm.woken (hc : CtxForm h c) (pa : Nat) (who : Option Writer) (flags : BitVec 5) : CtxForm h (c.woken pa who flags) :=
  .ite ((hc.same.listWriter who).flagAt _ _ _) (((hc.same.listWriter who).legLoad _).flagAt _ _ _)

theorem Form.waitTest (hs : Form h s) (hc : CtxForm h c) (m : MemF) (cond : WCond) (va v : BitVec 64) (met : BitVec 5) :
    ResForm h (waitTest s c m cond va v met) := by
  refine hs.scalarAccess fun s1 pa h1 => .ite hs ?_
  split
  · exact hs.asking _
  · next e =>
    have h2 := h1.fetchFar e
    split
    · exact h2
    · exact .ite ⟨h2, hc.woken _ _ _⟩ h2

theorem Form.execWaitm (hs : Form h s) {m cond} : OutForm h (execWaitm hd m cond s) := by
  refine hs.runWord _ _ _ fun c hc => .reading hs fun x => .ite hs ?_
  split
  · exact hs.waitTest hc _ _ _ _ _
  · split
    · exact hs
    · refine .ite ⟨hs, hc.woken _ _ _⟩ ?_
      split
      · exact hs
      · exact hs
      · next e => exact .ite (hs.waitTest hc.same _ _ _ _ _) (hs.translate e)

end

/-! ## Atomics and reductions (Machine/Atomics) -/

section
variable {s : State} {c : Ctx} {hd : Hd}

theorem CtxForm.startAtomic (hc : CtxForm h c) (idx : Nat) (d : BitVec 5) (a : Atomic) : CtxForm h (c.startAtomic idx d a) :=
  (hc.endLeg false (some a)).same

theorem Form.atomicWord (hs : Form h s) {m rs f} : OutForm h (atomicWord hd m rs s f) := by
  refine OutForm.accOut (hs.runWord _ _ _ fun c hc => .reading hs fun x => .ite hs (hs.scalarAccess fun s1 pa h1 => ?_))
  split
  · exact h1
  · exact ⟨h1, hc.startAtomic _ _ _⟩

theorem Form.execAmo (hs : Form h s) {m op} : OutForm h (execAmo hd m op s) := by
  unfold Machine.execAmo
  exact hs.atomicWord

theorem Form.execAmoc (hs : Form h s) {m} : OutForm h (execAmoc hd m s) := by
  unfold Machine.execAmoc
  exact hs.atomicWord

theorem ResForm.relWait (hs : Form h s) (hc : CtxForm h c) {m : MemF} {k : Ctx → Res} (hk : ∀ d, CtxForm h d → ResForm h (k d)) :
    ResForm h (relWait s m c k) := .ite (.ite hs (.holdCopies hs hc hk)) (hk c hc)

theorem Form.redWord (hs : Form h s) {m kind op ty} {k : State → Ctx → Red → Res}
    (hk : ∀ t d r, Form h t → CtxForm h d → ResForm h (k t d r)) : OutForm h (redWord hd m kind op ty s k) :=
  OutForm.accOut (hs.runWord _ _ _ fun _ hc => .ite hs (.reading hs fun _ => .ite hs (hs.scalarAccess fun _ _ h1 =>
    .escape hs (.relWait hs hc fun _ hd => hk _ _ _ h1 hd))))

theorem ResForm.sendRed (hs : Form h s) (hc : CtxForm h c) (r : Red) : ResForm h (sendRed s c r) := ⟨hs.dispatchRed r, hc⟩

theorem Form.execRed (hs : Form h s) {m op} : OutForm h (execRed hd m op s) := hs.redWord fun _ _ r ht hc => .sendRed ht hc r

theorem ResForm.enterRedo (hs : Form h s) (hc : CtxForm h c) (r : Red) : ResForm h (enterRedo s c r) := ⟨hs, (hc.room 1).same⟩

theorem Form.execRedo (hs : Form h s) {m ty} : OutForm h (execRedo hd m ty s) := hs.redWord fun _ _ r ht hc => .enterRedo ht hc r

theorem Form.shapeSend (hs : Form h s) {s0 : State} (h0 : Form h s0) (hc : CtxForm h c) (m : MemF) (va : BitVec 64) (x : Seqr)
    (rs : List Piece) (bs : List Byte) (f : BitVec 5) : ResForm h (shapeSend m va x s0 s c rs bs f) := by
  unfold Machine.shapeSend
  refine .ite hs (.ite hs ?_)
  dsimp only
  split
  · next e => exact (hs.reach _ _ _ _ _).trap e
  · exact hs
  · trivial
  · next e =>
    have h1 := (hs.reach _ _ _ _ _).ok e
    split
    · exact h1
    · split
      · exact h1
      · next e2 => exact .escape h0 (.relWait h0 hc fun _ hd => .sendRed (h1.racePieces e2) (hd.flagAt _ _ _) _)

theorem Form.redfShape (hs : Form h s) {m} : OutForm h (redfShape hd m s) := by
  refine OutForm.accOut (hs.runWord _ _ _ fun c hc => .ite hs (.reading hs fun x => .ite hs ?_))
  split
  · next e => exact (hs.reach _ _ _ _ _).trap e
  · exact hs
  · trivial
  · next e =>
    have h0 := (hs.reach _ _ _ _ _).ok e
    split
    · exact hs.asking _
    · next e1 =>
      have h1 := h0.fetchFar e1
      split
      · exact h1
      · exact h1.shapeSend hs hc _ _ _ _ _ _

theorem Form.execRedf (hs : Form h s) {m shape ty} : OutForm h (execRedf hd m shape ty s) :=
  .ite hs.redfShape (hs.redWord fun _ _ r ht hc => .sendRed ht hc r)

theorem Form.flagCtx (hs : Form h s) (cid : Nat) (f : BitVec 5) : Form h (s.flagCtx cid f) := by
  unfold State.flagCtx
  split
  · next c e => exact hs.setCtx (.ite (hs.ctx e).same (hs.ctx e).same)
  · exact hs

theorem Form.redLost (hs : Form h s) (r : Red) (va : BitVec 64) (pa shape : Nat) : Form h (s.redLost r va pa shape) :=
  (hs.flagCtx _ _).same

theorem Form.redWrite (hs : Form h s) (r : Red) (pa n v : Nat) : Form h (s.redWrite r pa n v) := by
  unfold State.redWrite
  dsimp only
  split
  · exact hs.writeAs _ _ _ _ _
  · exact Form.writeHome hs.same _ _

theorem Form.applyValue (hs : Form h s) (r : Red) : Form h (s.applyValue r) :=
  .ite (hs.redLost _ _ _ _) (.ite (hs.redWrite _ _ _ _) ((hs.redWrite _ _ _ _).flagCtx _ _))

theorem Form.startPromo (hs : Form h s) (r : Red) (sh : Shape) : Form h (s.startPromo r sh) := by
  unfold State.startPromo
  split
  · exact hs
  · split
    · exact hs
    · exact hs.same

theorem Form.applyShape (hs : Form h s) (r : Red) : Form h (s.applyShape r) := by
  refine .ite (hs.redLost _ _ _ _) (.ite (hs.redLost _ _ _ _) ?_)
  have h1 (pa n v : Nat) (f : BitVec 5) : Form h ((s.redWrite r pa n v).flagCtx r.cid f) := (hs.redWrite _ _ _ _).flagCtx _ _
  exact .ite (.ite (((h1 _ _ _ _).redWrite _ _ _ _).startPromo _ _) ((h1 _ _ _ _).redWrite _ _ _ _)) (h1 _ _ _ _)

theorem Form.applyRed (hs : Form h s) {r : Red} {t : State} (e : s.applyRed r = some t) : Form h t := by
  unfold State.applyRed at e
  split at e
  · cases e
  · split at e
    · cases e
    · cases e; exact .ite (hs.applyShape r) (hs.applyValue r)

theorem Form.execReductionApply (hs : Form h s) {k} : OutForm h (execReductionApply k s) := by
  unfold Machine.execReductionApply
  split
  · exact hs
  · refine .ite ?_ hs
    split
    · next e => exact (hs.applyRed e).ackRed _
    · exact hs

end

/-! ## Commits and barriers (Machine/Commit) -/

section
variable {s : State} {c : Ctx} {hd : Hd}

theorem CtxForm.gets (hc : CtxForm h c) (v : BitVec 64) : CtxForm h (c.gets v) := by
  unfold Ctx.gets
  split
  · exact hc.same
  · exact hc.same
  · exact hc.same

theorem CtxForm.returns (hc : CtxForm h c) (v : BitVec 64) : CtxForm h (c.returns v) := .ite hc.same (hc.gets v)

theorem CtxForm.takeBack (hc : CtxForm h c) : CtxForm h c.takeBack := by
  unfold Ctx.takeBack
  split
  · exact hc.gets _
  · exact hc

theorem CtxForm.deliver (hc : CtxForm h c) (old : BitVec 64) : CtxForm h (c.deliver old) := hc.same.returns old

theorem Form.doAtomic (hs : Form h s) (c : Ctx) (a : Atomic) : Form h (s.doAtomic c a).1 := by
  unfold State.doAtomic
  rw [apply_ite Prod.fst]
  exact .ite ((hs.squash _).writeAs _ _ _ _ _) (hs.squash _)

theorem Form.atomicLost (hs : Form h s) (hc : CtxForm h c) (idx : Nat) (a : Atomic) : Form h (s.atomicLost c idx a) := by
  unfold State.atomicLost
  exact hs.suspend hc _ _ _ _

theorem Form.lostHere (hs : Form h s) (hc : CtxForm h c) (idx : Nat) (d : BitVec 5) (a : Atomic) (n : Nat) :
    Form h (s.lostHere c idx d a n) := .ite (hs.atomicLost hc.same _ _) (.ite (hs.setCtx hc.same) (hs.setCtx hc.same))

theorem Form.performAtomic (hs : Form h s) (hc : CtxForm h c) {idx : Nat} {d : BitVec 5} {a : Atomic} {n : Nat} {t : State}
    (e : s.performAtomic c idx d a n = some t) : Form h t := by
  unfold State.performAtomic at e
  split at e
  · cases e; exact (hs.sendTo _ _ _).setCtx hc.same
  · split at e
    · cases e
    · split at e
      · cases e; exact hs.lostHere hc _ _ _ _
      · dsimp only at e
        have h1 := (hs.setCtx hc).doAtomic c a
        split at e
        · next c1 e1 => cases e; exact h1.setCtx ((h1.ctx e1).deliver _)
        · cases e; exact h1

theorem Form.applyEarly (hs : Form h s) (r : Red) : Form h (s.applyEarly r) := by
  have h1 := hs.applyValue r
  unfold State.applyEarly
  dsimp only
  split
  · exact h1.ackRed r
  · exact h1.same
  · exact hs

theorem Form.flushRedos (hs : Form h s) (grans : List Nat) (rs : List Red) : Form h (s.flushRedos grans rs) := by
  induction rs generalizing s with
  | nil => exact hs
  | cons r rs ih => exact ih (.ite (hs.applyEarly r) hs)

theorem Form.batchOut (hs : Form h s) (c : Ctx) (home : Nat) (bs : List (Nat × Byte)) : Form h (s.batchOut c home bs) := hs.same

theorem CtxForm.calm (hc : CtxForm h c) (s0 : State) : CtxForm h (c.calm s0) := by
  unfold Ctx.calm
  split
  · exact hc.same
  · exact hc

theorem calm_cid (s0 : State) (c : Ctx) : (c.calm s0).cid = c.cid := by
  unfold Ctx.calm
  split <;> rfl

theorem Form.calmed (hs : Form h s) (s0 : State) : Form h (s.calmed s0) := hs.mapCtxs (Ctx.calm s0) (fun _ hc => hc.calm s0) (calm_cid s0)

theorem Form.commitOp (hs : Form h s) (c : Ctx) (stamp : BitVec 16) (o : LegOp) : Form h (s.commitOp c stamp o) := by
  cases o with
  | redo r => exact hs.dispatchRed r
  | store bs => exact .ite (hs.flushRedos _ _) (((hs.flushRedos _ _).writeAs _ _ _ _ _).calmed _)

theorem Form.commitLog (hs : Form h s) (c : Ctx) (l : Leg) : Form h (s.commitLog c l) := by
  refine List.foldlRecOn _ _ ?_ fun _ ht d _ => ht.batchOut c d _
  exact (List.foldlRecOn _ _ (hs.flushRedos _ _) fun _ ht o _ => ht.commitOp c l.stamp o).wake _ _

theorem CtxForm.dropLeg (hc : CtxForm h c) (l : Leg) : CtxForm h (c.dropLeg l) := hc.same

theorem Form.commitLeg (hs : Form h s) (hc : CtxForm h c) (l : Leg) : Form h (s.commitLeg c l) := by
  have h1 (gs : List Nat) : Form h (((({ s with innq := s.innq.filter (fun q => !(q.1 == c.cid && q.2 == l.no)) } : State).setCtx
      c).commitLog c l).squash gs) := ((Form.setCtx hs.same hc).commitLog c l).squash gs
  unfold State.commitLeg
  dsimp only
  split
  · next c1 e => exact (h1 _).setCtx (((h1 _).ctx e).dropLeg l)
  · exact h1 _

theorem Form.atomicStep (hs : Form h s) {cid : Nat} {t : State} (e : s.atomicStep cid = some t) : Form h t := by
  unfold State.atomicStep at e
  split at e
  · cases e
  · next c hc =>
    split at e
    · cases e
    · split at e
      · cases e
      · exact hs.performAtomic (hs.ctx hc) e

theorem Form.getD {o : Option State} (ho : ∀ t, o = some t → Form h t) (hs : Form h s) : Form h (o.getD s) := by
  cases o with
  | none => exact hs
  | some t => exact ho t rfl

theorem Form.execLegCommit (hs : Form h s) {cid} : OutForm h (execLegCommit cid s) := by
  unfold Machine.execLegCommit
  split
  · exact hs
  · next c hc =>
    split
    · exact Form.getD (fun _ => hs.atomicStep) hs
    · next l _ _ =>
      have h1 := hs.commitLeg (hs.ctx hc) l
      refine .ite (Form.getD (fun t e => ?_) h1) hs
      split at e
      · exact h1.atomicStep e
      · cases e

theorem Form.execLegPin (hs : Form h s) : OutForm h (execLegPin s) := by
  unfold Machine.execLegPin
  split
  · exact hs
  · split
    · exact Form.same hs
    · next e => exact Form.setCtx hs (hs.ctx e).same

theorem Form.execLegCountEnd (hs : Form h s) {cid} : OutForm h (execLegCountEnd cid s) := by
  unfold Machine.execLegCountEnd
  split
  · next e => exact Form.ite (hs.keep ((hs.ctx e).endLeg _ _)) hs
  · exact hs

theorem Form.membersOf (hs : Form h s) {lid : BitVec 48} (hc : c ∈ s.membersOf lid) : CtxForm h c :=
  hs.mem (List.mem_of_mem_filter ((List.mem_insertionSort _).mp hc))

theorem CtxForm.pass (hc : CtxForm h c) (v : Word) : CtxForm h (c.pass v) := by
  unfold Ctx.pass
  split
  · exact hc.same.returns _
  · exact hc

theorem Form.setAll (hs : Form h s) {cs : List Ctx} (hcs : ∀ c ∈ cs, CtxForm h c) : Form h (s.setAll cs) := by
  induction cs generalizing s with
  | nil => exact hs
  | cons c r ih => exact ih (hs.setCtx (hcs c (List.mem_cons_self ..))) fun d hd => hcs d (List.mem_cons_of_mem _ hd)

theorem Form.failOne (hs : Form h s) (hc : CtxForm h c) : Form h (s.failOne c) := by
  unfold State.failOne
  split
  · exact .ite (hs.suspend hc.same _ _ _ _) (hs.setCtx hc.same)
  · exact hs

theorem Form.failBarrier (hs : Form h s) {cs : List Ctx} (hcs : ∀ c ∈ cs, CtxForm h c) : Form h (s.failBarrier cs) := by
  induction cs generalizing s with
  | nil => exact hs
  | cons c r ih => exact ih (hs.failOne (hcs c (List.mem_cons_self ..))) fun d hd => hcs d (List.mem_cons_of_mem _ hd)

theorem Form.execBarrierComplete (hs : Form h s) {lid} : OutForm h (execBarrierComplete lid s) := by
  have hms : ∀ c ∈ s.membersOf lid, CtxForm h c := fun _ => hs.membersOf
  unfold Machine.execBarrierComplete
  dsimp only
  split
  · exact hs
  · refine .ite (hs.failBarrier fun d hd => hms d (List.mem_of_mem_filter hd)) ?_
    split
    · exact hs
    · refine .ite (.ite (.ite (hs.setAll fun d hd => ?_) hs) (hs.failBarrier hms)) hs
      obtain ⟨m, hm, rfl⟩ := List.mem_map.mp hd
      exact (hms m hm).pass _

end

/-! ## Launches (Machine/Launches) -/

section
variable {s : State} {c : Ctx} {hd : Hd}

theorem Form.moveHorizon (hs : Form h s) (src : Nat) : Form h (s.moveHorizon src) := by
  unfold State.moveHorizon
  split
  · exact hs
  · exact hs.same

theorem Form.dropPassed (hs : Form h s) (src : Nat) : Form h (s.dropPassed src) := hs.same

theorem Form.markReady (hs : Form h s) : Form h s.markReady := hs.same

theorem Form.finishLaunch (hs : Form h s) (l : Launch) (status : BitVec 8) : Form h (s.finishLaunch l status) := by
  have h2 (k : Launch) (src : Nat) : Form h (((s.setLaunch k).moveHorizon src).dropPassed src) :=
    ((hs.setLaunch k).moveHorizon src).dropPassed src
  exact .ite (Form.same (h2 _ _)).markReady ((h2 _ _).setCore _ _).markReady

theorem Form.accept (hs : Form h s) (src : Nat) (root hseq : BitVec 64) (parents : List (BitVec 48)) (bs : List Byte) :
    Form h (s.accept src root hseq parents bs) := .ite (Form.same hs).markReady (Form.same hs |>.finishLaunch _ _)

theorem Form.discardCtx (hs : Form h s) (c : Ctx) : Form h (s.discardCtx c) :=
  .ite ((hs.dropCtx c.cid).same.setCore _ _) (hs.dropCtx c.cid).same

theorem Form.discardAll (hs : Form h s) (cs : List Ctx) : Form h (s.discardAll cs) := by
  induction cs generalizing s with
  | nil => exact hs
  | cons c r ih => exact ih (hs.discardCtx c)

theorem Form.abortLaunch (hs : Form h s) (lid : BitVec 48) (status : BitVec 8) : Form h (s.abortLaunch lid status) := by
  have h1 := hs.discardAll (s.ctxsOf lid)
  unfold State.abortLaunch
  dsimp only
  split
  · exact .ite h1 (h1.finishLaunch _ _)
  · exact h1

theorem OutForm.byHart (hs : Form h s) {o : Out} (ho : OutForm h o) : OutForm h (byHart s o) := .ite ho hs

/-! ## System words (Machine/System) -/

theorem CtxForm.resumed (hc : CtxForm h c) : CtxForm h c.resumed := by
  have h1 : CtxForm h c.loseLatches := hc.onAll _
  unfold Ctx.resumed
  refine CtxForm.same (c := match c.trap with
    | some t => if t.place then c.loseLatches else if t.held then (c.loseLatches.onAll Seqr.atEpc).setSeqr t.sq (c.loseLatches.seqr t.sq)
      else c.loseLatches.onAll Seqr.atEpc
    | none => c.loseLatches.onAll Seqr.atEpc) ?_
  split
  · exact .ite h1 (.ite ((h1.onAll _).setSeqr _ _) (h1.onAll _))
  · exact h1.onAll _

theorem Form.execTrap (hs : Form h s) {code} : OutForm h (execTrap hd code s) := hs.runWord _ _ _ fun _ hc => .escape hs ⟨hs, hc⟩

theorem Form.execIllegalEncoding (hs : Form h s) {tval} : OutForm h (execIllegalEncoding tval s) := by
  unfold Machine.execIllegalEncoding
  split
  · trivial
  · next e => exact Form.trapHere hs (hs.activeCtx e) _ _

theorem Form.stopCore (hs : Form h s) (hc : CtxForm h c) (q : Sq) (src : Nat) : Form h (s.stopCore c q src) := by
  refine Form.same (s := (s.setCtx { c with stat := .stopped })) ?_
  exact hs.setCtx hc.same

theorem Form.breakAt (hs : Form h s) (hc : CtxForm h c) (q : Sq) (hd : Hd) : Form h (s.breakAt c q hd) := by
  have h1 : CtxForm h (if hd.wait = 0xFF then c else c.setSem hd.wait (BitVec.ofNat 20 ((c.sem hd.wait).toNat - 1))) := .ite hc hc.same
  exact .ite (hs.stopCore (h1.onSeqr _ _) _ _) (hs.suspend (h1.onSeqr _ _) _ _ _ _)

theorem Form.execDbrk (hs : Form h s) : OutForm h (execDbrk hd s) := by
  unfold Machine.execDbrk
  split
  · trivial
  · next c0 e =>
    exact .ite (hs.runWord _ _ _ fun c hc => ⟨hs, hc⟩)
      (hs.runWord _ _ _ fun c hc => .ite (hs.breakAt (hs.activeCtx e) _ _) hs)

theorem CtxForm.shut (hc : CtxForm h c) : CtxForm h c.shut := hc.same

theorem Form.leaveHandler (hs : Form h s) (hc : CtxForm h c) (d : Ctx) : Form h (s.leaveHandler c d) := by
  refine Form.same (s := (s.dropCtx c.cid).setCtx { d.skipWatch.resumed with sp := c.sp, can := c.can, sems := c.sems }) ?_
  exact (hs.dropCtx _).setCtx ⟨hc.sp, hc.can⟩

theorem Form.execEret (hs : Form h s) : OutForm h (execEret hd s) := by
  refine hs.runWord _ _ _ fun c hc => .ite hs ?_
  split
  · refine .ite ?_ hs
    have h1 := hs.commitLeg hc.shut c.curLeg
    dsimp only
    split
    · next e _ => exact h1.leaveHandler (h1.ctx e) _
    · exact hs
  · exact hs

theorem Form.dropEverywhere (hs : Form h s) (drop : TlbEnt → Bool) : Form h (s.dropEverywhere drop) := hs.same

theorem Form.dropTlbs (hs : Form h s) (asid : BitVec 16) (kind : TlbKind) (v : BitVec 64) : Form h (s.dropTlbs asid kind v) :=
  hs.dropEverywhere _

theorem Form.execTlbi (hs : Form h s) {pair kind} : OutForm h (execTlbi hd pair kind s) :=
  hs.runWord _ _ _ fun _ hc => .reading hs fun _ => .escape hs (.ite hs (.ite ⟨hs.dropEverywhere _, hc⟩ (hs.dropEverywhere _)))

theorem Form.hint (hs : Form h s) (c : Ctx) (va : Nat) (l : Leaf) (kind : HintKind) : Form h (s.hint c va l kind) := by
  cases kind <;> exact hs.same

theorem Form.execHint (hs : Form h s) {pair kind} : OutForm h (execHint hd pair kind s) := by
  refine hs.runWord _ _ _ fun c hc => .reading hs fun x => ?_
  dsimp only
  split
  · exact ⟨hs.hint _ _ _ _, hc⟩
  · exact ⟨hs.bump _ _, hc⟩

theorem Form.watchWord (hs : Form h s) {pair len f} : OutForm h (watchWord hd pair len s f) :=
  hs.runWord _ _ _ fun _ hc => .reading hs fun _ => .escape hs ⟨hs.setCore _ _, hc⟩

/-- The state that the translation of several pages leaves keeps the invariant. -/
def PagesForm (h : Half) : PRes → Prop
  | .ok s _ => Form h s
  | .trap s _ => Form h s
  | _ => True

theorem PagesForm.ok {r : PRes} {ps : List (Nat × Nat)} (hr : PagesForm h r) (e : r = .ok s ps) : Form h s := by subst e; exact hr

theorem PagesForm.trap {r : PRes} {t : TrapRec} (hr : PagesForm h r) (e : r = .trap s t) : Form h s := by subst e; exact hr

theorem Form.pages (hs : Form h s) (c : Ctx) (va : BitVec 64) (k : Need) (off : Nat) (acc : List (Nat × Nat)) (n : Nat) :
    PagesForm h (s.pages c va k off acc n) := by
  induction n generalizing s off acc with
  | zero => exact hs
  | succ n ih =>
    unfold State.pages
    dsimp only
    split
    · exact hs
    · trivial
    · next e =>
      split
      · trivial
      · exact ih (hs.translate e) _ _

theorem Form.askFill (hs : Form h s) {a : BitVec 64} {k : State → Res} (hk : ∀ t, Form h t → ResForm h (k t)) :
    ResForm h (askFill s c a k) := by
  have hp := hs.pages c a .exec 0 [] imagePieces
  unfold Machine.askFill
  split
  · next e => exact hp.trap e
  · exact hs
  · trivial
  · next e => exact hk _ ((hp.ok e).setCore _ _)

theorem Form.execPlld (hs : Form h s) {pair} : OutForm h (execPlld hd pair s) :=
  hs.runWord _ _ _ fun _ hc => .ite hs (.ite hs (.reading hs fun _ => .escape hs (.ite hs (.ite hs
    (hs.askFill fun _ ht => ⟨ht, hc.same⟩)))))

theorem Form.execPlsw (hs : Form h s) : OutForm h (execPlsw hd s) := by
  refine hs.runWord _ _ _ fun c hc => .ite hs (.ite hs ?_)
  split
  · exact hs
  · refine .escape hs (.ite hs ?_)
    split
    · exact .ite (.ite ⟨hs.setCore _ _, hc.same⟩ hs) (hs.askFill fun _ ht => ht)
    · exact hs.askFill fun _ ht => ht

theorem Form.execLnch (hs : Form h s) {pair} : OutForm h (execLnch hd pair s) := by
  refine hs.runWord _ _ _ fun c hc => .ite hs (.reading hs fun x => .ite hs (.escape hs (.ite hs ?_)))
  have ha := hs.access { c with dmode := 0 } true (x.pair pair) 128 .read .bulk none
  dsimp only
  generalize s.access { c with dmode := 0 } true (x.pair pair) 128 .read .bulk none = r at ha
  cases r with
  | trap t tr => exact ha
  | stall => exact hs
  | dead => trivial
  | ok s1 pa =>
    refine .ite hs ?_
    split
    · exact ha
    · exact ⟨(Form.setCore ha _ _).accept _ _ _ _ _, hc.pairFlag _ _ _ _ _ _⟩

theorem Form.execLstat (hs : Form h s) {d pair} : OutForm h (execLstat hd d pair s) :=
  hs.runWord _ _ _ fun _ hc => .reading hs fun _ => ⟨hs, hc.scalar _ _ _ _⟩

theorem Form.putImage (hs : Form h s) (d : Ctx) (status : Word) (n : Nat) (stamp : BitVec 16) (ps : List (Nat × Nat)) :
    Form h (s.putImage d status n stamp ps) := by
  induction ps generalizing s with
  | nil => exact hs
  | cons p r ih => exact ih (hs.writeHome _ _)

theorem Form.imageWord (hs : Form h s) {pair bank need} {k : State → Ctx → Ctx → BitVec 64 → List (Nat × Nat) → Res}
    (hk : ∀ t c d a ps, Form h t → CtxForm h c → CtxForm h d → ResForm h (k t c d a ps)) :
    OutForm h (imageWord hd pair bank need s k) := by
  refine OutForm.accOut (hs.runWord _ _ _ fun c hc => ?_)
  split
  · split
    · exact hs
    · next d e =>
      refine .reading hs fun x => .ite hs (.escape hs (.ite hs ?_))
      have hp := hs.pages c (x.pair pair) need 0 [] ctxPieces
      split
      · next e1 => exact hp.trap e1
      · exact hs
      · trivial
      · next e1 => exact hk _ _ _ _ _ (hp.ok e1) hc (hs.ctx e)
  · exact hs

theorem CtxForm.getD {o : Option Ctx} (ho : ∀ d, o = some d → CtxForm h d) (hc : CtxForm h c) : CtxForm h (o.getD c) := by
  cases o with
  | none => exact hc
  | some d => exact ho d rfl

theorem Form.execCtxs (hs : Form h s) {pair bank} : OutForm h (execCtxs hd pair bank s) := by
  refine hs.imageWord fun t c d a ps ht hc hd => .ite ht ?_
  have h2 := Form.putImage (s := { t with
    free := t.free + 1, saved := t.saved.set (t.free + 1) { d.asSeen c with ended := [], sp := Mem.empty, can := Mem.empty } }) ht.same
    (d.asSeen c) (t.status d) (t.free + 1) c.stamp ps
  exact ⟨h2, .getD (fun _ => h2.ctx) hc⟩

theorem CtxForm.replaceCtx (hc : CtxForm h c) (saved : Ctx) (rd : Nat → Byte) : CtxForm h (replaceCtx c saved rd) := ⟨hc.sp, hc.can⟩

theorem Form.execCtxl (hs : Form h s) {pair bank} : OutForm h (execCtxl hd pair bank s) := by
  refine hs.imageWord fun t c d a ps ht hc hd => ?_
  dsimp only
  split
  · exact ht
  · exact .ite ht ⟨Form.same (ht.setCtx (hd.replaceCtx _ _)), (hc.flagAt _ _ _).same⟩

end

/-! ## Switches, the spill area, plane fills and handlers (Machine/Contexts) -/

section
variable {s : State} {c : Ctx}

theorem CtxForm.blank (cid p : Nat) : CtxForm h (Ctx.blank cid p) := ⟨.empty, .empty⟩

theorem CtxForm.parked (hc : CtxForm h c) (now : BitVec 64) : CtxForm h (c.parked now) :=
  ((CtxForm.ite hc (hc.landIf fun _ => true)).onAll fun x => { x with latches := [] }).same

theorem Form.leave (hs : Form h s) (p : Nat) : Form h (s.leave p) := by
  unfold State.leave
  split
  · next e => exact (hs.setCtx ((hs.activeCtx e).parked _)).setCore _ _
  · exact hs.setCore _ _

theorem CtxForm.boarded (hc : CtxForm h c) (pl : Plane) : CtxForm h (c.boarded pl) := .ite hc.same hc

theorem Form.memberBegins (hs : Form h s) (c : Ctx) : Form h (s.memberBegins c) := by
  unfold State.memberBegins
  split
  · exact hs.same
  · exact hs

theorem Form.board (hs : Form h s) (hc : CtxForm h c) : OutForm h (s.board c) := by
  have hp := hs.pages c c.image .exec 0 [] imagePieces
  unfold State.board
  dsimp only
  split
  · next pl _ => exact ((hs.memberBegins c).setCtx (hc.boarded pl)).setCore _ _
  · split
    · next e => exact (hp.ok e).setCore _ _
    · next e => exact (hp.trap e).setCtx hc.same
    · exact hs
    · trivial

theorem Form.drainOut (hs : Form h s) (hc : CtxForm h c) : Form h (s.drainOut c) := .ite (hs.keep hc.same) hs

theorem Form.switchTo (hs : Form h s) (hc : CtxForm h c) : OutForm h (s.switchTo c) := by
  unfold State.switchTo
  split
  · exact hs.board hc
  · next a e => exact .ite ((hs.leave _).board hc) (hs.drainOut (hs.activeCtx e))

theorem Form.restored (hs : Form h s) (c : Ctx) : Form h (s.restored c) := .ite hs.same hs

theorem Form.execContextSwitch (hs : Form h s) {p cid} : OutForm h (execContextSwitch p cid s) := by
  unfold Machine.execContextSwitch
  split
  · exact hs
  · next c e => exact .ite (.ite ((hs.restored c).setCtx (hs.ctx e).same) (.ite ((hs.restored c).switchTo (hs.ctx e)) hs)) hs

theorem putImageQuiet_cons (s : State) (d : Ctx) (status : Word) (n off pa : Nat) (r : List (Nat × Nat)) :
    s.putImageQuiet d status n ((off, pa) :: r) = (s.writeQuiet 0xFFFF (d.imagePiece status n off pa)).putImageQuiet d status n r := by
  delta State.putImageQuiet
  rfl

theorem Form.putImageQuiet (hs : Form h s) (d : Ctx) (status : Word) (n : Nat) (ps : List (Nat × Nat)) :
    Form h (s.putImageQuiet d status n ps) := by
  induction ps generalizing s with
  | nil => exact hs
  | cons p r ih =>
    rw [putImageQuiet_cons s d status n p.1 p.2 r]
    exact ih (hs.writeQuiet _ _)

theorem Form.execContextStreamOut (hs : Form h s) {cid slot} : OutForm h (execContextStreamOut cid slot s) := by
  unfold Machine.execContextStreamOut
  split
  · exact hs
  · next c e =>
    refine .ite ?_ hs
    have h1 := Form.putImageQuiet (s := { s with free := s.free + 1 }) hs.same c (s.status c) (s.free + 1) (s.slotPages slot)
    dsimp only
    generalize State.putImageQuiet _ c (s.status c) (s.free + 1) (s.slotPages slot) = s1 at h1
    refine Form.same (s := s1.setCtx { c with loc := .slot slot }) ?_
    exact h1.setCtx (hs.ctx e).same

theorem Form.execContextStreamIn (hs : Form h s) {cid bank checkOk} : OutForm h (execContextStreamIn cid bank checkOk s) := by
  unfold Machine.execContextStreamIn
  split
  · exact hs
  · next c e =>
    split
    · exact hs
    · refine .ite (.ite (hs.abortLaunch _ _) (Form.same (hs.setCtx (c := { c with loc := .bank bank, seen := s.cycle }) ?_))) hs
      exact (hs.ctx e).same

theorem bind_ctx {o : Option Nat} (e : o.bind s.ctx = some c) : ∃ n, s.ctx n = some c := by
  obtain ⟨n, _, hn⟩ := Option.bind_eq_some_iff.mp e
  exact ⟨n, hn⟩

theorem Form.fillLost (hs : Form h s) (p : Nat) (f : Fill) (g pg : Nat) : Form h (s.fillLost p f g pg) := by
  unfold State.fillLost
  dsimp only
  split
  · exact hs.same
  · next c e =>
    obtain ⟨n, hn⟩ := bind_ctx e
    refine Form.same (s := State.setCtx (s.setCore p { s.core p with fill := none, shadow := none })
      { c.flag stLOST with pimage := if f.flip then c.pimage else none }) ?_
    exact (hs.setCore _ _).setCtx (hs.ctx hn).same

theorem Form.execPlaneFillComplete (hs : Form h s) {p} : OutForm h (execPlaneFillComplete p s) := by
  unfold Machine.execPlaneFillComplete
  dsimp only
  split
  · exact hs
  · split
    · exact Form.fillLost hs _ _ _ _
    · exact Form.setCore hs _ _

theorem Form.execFaultRecordSend (hs : Form h s) {cid} : OutForm h (execFaultRecordSend cid s) := by
  unfold Machine.execFaultRecordSend
  split
  · exact hs
  · next c e =>
    split
    · exact hs
    · have h1 : Form h (s.setCtx { c with stat := .held }) := hs.setCtx (hs.ctx e).same
      exact .ite (.ite (hs.abortLaunch _ _) (.ite (Form.ite (h1.same.setCore _ _) h1.same) hs)) hs

theorem CtxForm.handlerCtx (hc : CtxForm h c) (t : TrapRec) (cid bank : Nat) : CtxForm h (handlerCtx c t cid bank) := ⟨hc.sp, hc.can⟩

theorem Form.execHandlerStart (hs : Form h s) {cid} : OutForm h (execHandlerStart cid s) := by
  unfold Machine.execHandlerStart
  split
  · exact hs
  · next d e =>
    split
    · next t b _ _ =>
      have h1 : Form h ((s.setCtx { d with stat := .handled }).setCtx (handlerCtx d t s.nextCid b)) :=
        (hs.setCtx (hs.ctx e).same).setCtx ((hs.ctx e).handlerCtx _ _ _)
      exact .ite (Form.ite (h1.same.setCore _ _) (.ite (h1.same.setCore _ _) h1.same)) hs
    · exact hs

theorem Form.answerResume (hs : Form h s) (p : Nat) : Form h (s.answerResume p) := by
  unfold State.answerResume
  dsimp only
  split
  · exact hs.same
  · split
    · next e => exact hs.same.setCtx (hs.ctx e).resumed
    · exact hs.same

theorem Form.answerAbort (hs : Form h s) (p : Nat) : Form h (s.answerAbort p) := by
  have h0 : Form h (match s.pools.find p with
      | some lid => { s with pools := s.pools.del p }.abortLaunch lid 0x10
      | none => s) := by
    split
    · exact Form.abortLaunch hs.same _ _
    · exact hs
  unfold State.answerAbort
  dsimp only
  split
  · exact h0
  · split
    · exact Form.abortLaunch h0.same _ _
    · exact h0.same

theorem Form.respond (hs : Form h s) (p : Nat) (abort : Bool) : Form h (s.respond p abort) :=
  .ite hs (.ite (hs.setCore _ _) (.ite (hs.answerAbort _) (hs.answerResume _)))

theorem Form.execFrespResume (hs : Form h s) {p} : OutForm h (execFrespResume p s) := .byHart hs (hs.respond _ _)

theorem Form.execFrespAbort (hs : Form h s) {p} : OutForm h (execFrespAbort p s) := .byHart hs (hs.respond _ _)

end

/-! ## Outrider tasks (Machine/Outrider) -/

section
variable {s : State} {c : Ctx} {hd : Hd}

theorem Form.xform_poolAccess (hs : Form h s) (l : Launch) (t : TaskId) (p : Nat) : XForm h (s.poolAccess l t p) := by
  unfold State.poolAccess
  split
  · trivial
  · exact hs.xform_reachPage _ _ _

theorem Form.poolAccess (hs : Form h s) {l : Launch} {t : TaskId} {p pa : Nat} {u : State} (e : s.poolAccess l t p = .ok pa u) :
    Form h u := (hs.xform_poolAccess l t p).ok e

theorem Form.poolFault (hs : Form h s) (l : Launch) (t : TaskId) (p : Nat) (f : XFault) : Form h (s.poolFault l t p f) :=
  .ite hs hs.same

theorem Form.otskQueue (hs : Form h s) (hc : CtxForm h c) (l : Launch) (a : BitVec 64) (pa slot : Nat) :
    ResForm h (otskQueue s c l a pa slot) := by
  unfold Machine.otskQueue
  split
  · exact hs
  · dsimp only
    split
    · exact hs
    · exact hs
    · next e =>
      split
      · trivial
      · exact ⟨((hs.translate e).writeQuiet _ _).setLaunch _, hc.flagAt _ _ _⟩

theorem Form.execOtsk (hs : Form h s) {pair} : OutForm h (execOtsk hd pair s) := by
  refine OutForm.accOut (hs.runWord _ _ _ fun c hc => ?_)
  split
  · exact hs
  · refine .reading hs fun x => .ite hs (.escape hs (.ite hs ?_))
    have ha := hs.access { c with dmode := 0 } true (x.pair pair) 32 .read .bulk none
    generalize s.access { c with dmode := 0 } true (x.pair pair) 32 .read .bulk none = r at ha
    cases r with
    | trap t tr => exact ha
    | stall => exact hs
    | dead => trivial
    | ok s1 pa =>
      dsimp only
      split
      · exact hs
      · exact Form.otskQueue ha hc _ _ _ _

theorem Form.execCtbl (hs : Form h s) {pair} : OutForm h (execCtbl hd pair s) := by
  refine hs.runWord _ _ _ fun c hc => ?_
  split
  · exact hs
  · refine .reading hs fun x => .ite hs (.escape hs (.ite hs ?_))
    have hr := hs.reach c none .read [] (splitPieces (x.pair pair) 2 2112)
    dsimp only
    split
    · next e => exact hr.trap e
    · exact hs
    · trivial
    · next e =>
      have h1 := hr.ok e
      split
      · exact h1
      · exact .ite ⟨h1.setLaunch _, hc.flagAt _ _ _⟩ h1

theorem CtxForm.startAbort (hc : CtxForm h c) : CtxForm h c.startAbort := hc.same

theorem Form.taskCtxOf (hs : Form h s) {lid : BitVec 48} {seq : BitVec 64} (e : s.taskCtxOf lid seq = some c) : CtxForm h c :=
  hs.mem (List.mem_of_find?_eq_some e)

theorem Form.markVictims (hs : Form h s) (lid : BitVec 48) (vs : List (BitVec 64)) : Form h (s.markVictims lid vs) := by
  induction vs generalizing s with
  | nil => exact hs
  | cons seq r ih =>
    unfold State.markVictims
    split
    · exact ih hs
    · next e =>
      have h1 := hs.setCtx (hs.taskCtxOf e).startAbort
      exact .ite (ih hs) (.ite (ih h1.same) hs)

theorem Form.countMisses (hs : Form h s) (p : Nat) (l : Launch) (seq : BitVec 64) (os : List (BitVec 64)) (keep : Bool) :
    Form h (s.countMisses p l seq os keep) := hs.same

theorem ResForm.declare (hs : Form h s) (hc : CtxForm h c) (l : Launch) (r : Reg) (bill : List Byte) :
    ResForm h (declare s c l r bill) := ⟨hs.setLaunch _, (hc.localStore _).same⟩

theorem ResForm.resolve (hs : Form h s) (hc : CtxForm h c) (l : Launch) (r : Reg) (bill : List Byte) :
    ResForm h (resolve s c l r bill) :=
  .ite (hs.countMisses _ _ _ _ _) (.ite ((hs.countMisses _ _ _ _ _).setCtx hc.startAbort) (.ite (.declare hs hc _ _ _)
    ((hs.countMisses _ _ _ _ _).markVictims _ _)))

theorem Form.execAbop (hs : Form h s) {pair kind scls inv} : OutForm h (execAbop hd pair kind scls inv s) := by
  refine hs.runWord _ _ _ fun c hc => ?_
  split
  · refine .ite hs (.reading hs fun x => .ite hs (.ite hs ?_))
    split
    · exact hs
    · exact .ite hs (.resolve hs hc _ _ _)
  · exact hs

theorem CtxForm.endInverse (hc : CtxForm h c) : CtxForm h c.endInverse := (hc.landIf fun _ => true).same

theorem Form.execAbend (hs : Form h s) : OutForm h (execAbend hd s) :=
  hs.runWord _ _ _ fun _ hc => .ite hs (.ite ⟨hs, hc.endInverse⟩ ⟨hs, hc.same⟩)

theorem Form.execOcmt (hs : Form h s) : OutForm h (execOcmt hd s) := hs.runWord _ _ _ fun _ hc => .ite hs (.finishWord hs hc)

theorem Form.execOabt (hs : Form h s) : OutForm h (execOabt hd s) := hs.runWord _ _ _ fun _ hc => .ite hs (hs.setCtx hc.startAbort)

theorem CtxForm.startCtx (l : Launch) (cid p bank idx : Nat) (coord : Nat × Nat × Nat × Nat) :
    CtxForm h (l.startCtx cid p bank idx coord) := (CtxForm.blank cid p).same

theorem CtxForm.taskCtx (l : Launch) (m : Ctx) (t : TaskId) (cid bank : Nat) : CtxForm h (taskCtx l m t cid bank) :=
  ((CtxForm.startCtx l cid m.core bank m.idx m.coord).onAll (Seqr.forTask t)).same

theorem Form.execTaskStart (hs : Form h s) {lid p} : OutForm h (execTaskStart lid p s) := by
  unfold Machine.execTaskStart
  split
  · refine .ite ?_ hs
    split
    · exact hs
    · split
      · exact Form.poolFault hs _ _ _ _
      · exact hs
      · next e => exact ((hs.poolAccess e).setCtx (.taskCtx _ _ _ _ _)).same
  · exact hs

theorem CtxForm.enterInverse (hc : CtxForm h c) (k : Nat) (bs : List Byte) : CtxForm h (c.enterInverse k bs) := hc.same

theorem Form.requeue (hs : Form h s) (c : Ctx) (l : Launch) (t : TaskId) : Form h (s.requeue c l t) := by
  unfold State.requeue
  split
  · exact hs.poolFault _ _ _ _
  · exact hs
  · next e => exact ((hs.poolAccess e).setLaunch _).discardCtx c

theorem Form.execTaskAbort (hs : Form h s) {cid} : OutForm h (execTaskAbort cid s) := by
  unfold Machine.execTaskAbort
  split
  · exact hs
  · next c e =>
    split
    · refine .ite ?_ hs
      split
      · exact Form.requeue hs _ _ _
      · split
        · exact hs.abortLaunch _ _
        · exact hs.setCtx ((hs.ctx e).enterInverse _ _)
    · exact hs

theorem Form.execTaskCommit (hs : Form h s) {lid} : OutForm h (execTaskCommit lid s) := by
  unfold Machine.execTaskCommit
  split
  · exact hs
  · split
    · exact hs
    · split
      · exact hs
      · refine .ite ?_ hs
        split
        · exact Form.poolFault hs _ _ _ _
        · exact hs
        · next e => exact ((hs.poolAccess e).setLaunch _).discardCtx _

end

/-! ## Moves of pages and promotions (Machine/Moves) -/

theorem sorted_filter {α : Type} (p : Nat × α → Bool) {m : SMap α} (hm : SMap.sorted m = true) : SMap.sorted (m.filter p) = true := by
  induction m with
  | nil => rfl
  | cons x r ih =>
    obtain ⟨hlt, hr⟩ := (SMap.sorted_cons x.1 x.2 r).mp hm
    cases hp : p x with
    | false => rw [List.filter_cons_of_neg (by simp [hp])]; exact ih hr
    | true =>
      rw [List.filter_cons_of_pos hp]
      exact (SMap.sorted_cons x.1 x.2 _).mpr ⟨fun kv hkv => hlt kv (List.mem_of_mem_filter hkv), ih hr⟩

section
variable {α : Type} [DecidableEq α] {d : α}

theorem canon_filter (p : Nat × α → Bool) {m : SMap α} (hm : SMap.canon d m = true) : SMap.canon d (m.filter p) = true := by
  obtain ⟨hs, hn⟩ := (SMap.canon_iff d m).mp hm
  exact (SMap.canon_iff d _).mpr ⟨sorted_filter p hs, fun kv hkv => hn kv (List.mem_of_mem_filter hkv)⟩

theorem canon_set {m : SMap α} (k : Nat) {v : α} (hv : v ≠ d) (hm : SMap.canon d m = true) : SMap.canon d (SMap.set m k v) = true := by
  obtain ⟨hs, hn⟩ := (SMap.canon_iff d m).mp hm
  refine (SMap.canon_iff d _).mpr ⟨SMap.sorted_set k v hs, fun kv hkv => ?_⟩
  rcases SMap.mem_set hkv with rfl | h'
  · exact hv
  · exact hn kv h'

/-- Entries of one map in canonical form, put into another at new keys. -/
theorem canon_foldl_set (f : Nat × α → Nat) {xs m : SMap α} (hx : SMap.canon d xs = true) (hm : SMap.canon d m = true) :
    SMap.canon d (xs.foldl (fun r x => SMap.set r (f x) x.2) m) = true :=
  List.foldlRecOn (motive := fun r => SMap.canon d r = true) xs _ hm
    fun _ hr x hmem => canon_set _ (((SMap.canon_iff d xs).mp hx).2 x hmem) hr

end

theorem MemForm.movePage {m : Mem} {loc : Bool} (hm : MemForm h loc m) (src dst size : Nat) : MemForm h loc (m.movePage src dst size) := by
  unfold Mem.movePage
  dsimp only
  have h1 : MemForm h loc { m with
      cells := ((m.cells.filter (fun x => decide (src ≤ x.1) && decide (x.1 < src + size)))).foldl
        (fun (r : SMap Byte) x => r.set (x.1 - src + dst) x.2)
        (m.cells.filter (fun x => !(decide (src ≤ x.1) && decide (x.1 < src + size)) &&
          !(decide (dst ≤ x.1) && decide (x.1 < dst + size))))
      units := ((m.units.filter (fun x => decide (src ≤ 64 * x.1) && decide (64 * x.1 < src + size)))).foldl
        (fun r x => r.set ((64 * x.1 - src + dst) / 64) x.2)
        (m.units.filter (fun x => !(decide (src ≤ 64 * x.1) && decide (64 * x.1 < src + size)) &&
          !(decide (dst ≤ 64 * x.1) && decide (64 * x.1 < dst + size)))) } := by
    intro e
    obtain ⟨hw, hg⟩ := hm e
    obtain ⟨⟨hc, hu⟩, ht⟩ := (Mem.wf_iff m).mp hw
    exact ⟨(Mem.wf_iff _).mpr ⟨⟨canon_foldl_set (fun x => x.1 - src + dst) (canon_filter _ hc) (canon_filter _ hc),
      canon_foldl_set (fun x => (64 * x.1 - src + dst) / 64) (canon_filter _ hu) (canon_filter _ hu)⟩, ht⟩, hg⟩
  split
  · exact List.foldlRecOn _ _ h1 fun _ hr _ _ => (hr.mark _ _).tell _ _
  · exact h1

theorem MemForm.takeBytes {m : Mem} {loc : Bool} (hm : MemForm h loc m) (as : List Nat) : MemForm h loc (m.takeBytes as) := by
  refine List.foldlRecOn _ _ hm fun r hr g _ => ?_
  split
  · exact hr.vacate _ _
  · refine List.foldlRecOn _ _ hr fun k hk a _ => ?_
    split
    · exact hk.poke _ _
    · exact hk

section
variable {s : State} {c : Ctx}

theorem CtxForm.follow (hc : CtxForm h c) (f : Nat → Nat) : CtxForm h (c.follow f) := hc.same

theorem Form.startMove (hs : Form h s) (m : Move) (pte : BitVec 64) : Form h (s.startMove m pte) := (hs.writeQuiet _ _).same

theorem Form.endMove (hs : Form h s) (m : Move) : Form h (s.endMove m) := by
  unfold State.endMove
  refine (Form.writeQuiet ?_ _ _).dropTlbs _ _ _
  exact ⟨hs.dram.movePage _ _ _, hs.ctxs.map (f := Ctx.follow (moved m.src m.dst (2 ^ m.bits))) (fun _ hc => hc.follow _) fun _ => rfl⟩

theorem Form.execMigrationMove (hs : Form h s) {root va tier} : OutForm h (execMigrationMove root va tier s) := by
  unfold Machine.execMigrationMove
  split
  · exact .ite (hs.endMove _) hs.same
  · split
    · exact hs
    · split
      · exact .ite (hs.startMove _ _) hs
      · exact hs

theorem Form.promoteOne (hs : Form h s) (root : BitVec 64) (r : Shape) (x : Nat) : Form h (s.promoteOne root r x) := by
  unfold State.promoteOne
  split
  · exact hs.writeQuiet _ _
  · exact hs

theorem Form.execPromotionComplete (hs : Form h s) {k} : OutForm h (execPromotionComplete k s) := by
  unfold Machine.execPromotionComplete
  split
  · exact hs
  · next pa root _ =>
    refine .ite hs (.ite (.ite hs ?_) hs.same)
    have h1 (n : Nat) (r : Shape) : Form h ((List.range n).foldl (fun t x => State.promoteOne t root r x)
        { s with promos := s.promos.eraseIdx k }) := List.foldlRecOn _ _ hs.same fun _ ht x _ => ht.promoteOne root r x
    refine Form.writeQuiet ?_ _ _
    exact ⟨(h1 _ _).dram.takeBytes _, (h1 _ _).ctxs⟩

end

/-! ## Copy words (Machine/Copy) -/

section
variable {s : State} {c : Ctx} {hd : Hd}

theorem CtxForm.setChan (hc : CtxForm h c) (e : Eng) (k : Chan) : CtxForm h (c.setChan e k) := by
  cases e <;> exact hc.same

theorem CtxForm.push (hc : CtxForm h c) (q : Sq) (k : Cmd) : CtxForm h (c.push q k) := hc.setChan _ _

theorem OutForm.offerCancelled {o : Out} {c0 : Ctx} {q : Sq} {f : CopyF} (ho : OutForm h o) : OutForm h (offerCancelled c0 q f o) := by
  unfold Machine.offerCancelled
  split
  · refine .ite ?_ ho
    split
    · next e => exact Form.setCtx ho (Form.ctx ho e).same
    · exact ho
  · exact ho

/-- A copy word keeps the invariant where its checks do, and its command enters the shadow registers. -/
theorem Form.copyWord (hs : Form h s) {acc : BitVec 3} {f : CopyF} {rs : List (BitVec 5)}
    {k : State → Ctx → Seqr → (State → Cmd → Res) → Res}
    (hk : ∀ c x g, CtxForm h c → (∀ t cmd, Form h t → ResForm h (g t cmd)) → ResForm h (k s c x g)) :
    OutForm h (copyWord acc hd f s rs k) := by
  refine OutForm.accOut ?_
  split
  · trivial
  · exact .offerCancelled (hs.runWord _ _ _ fun c hc => .ite hs (.reading hs fun x =>
      hk c x _ hc fun _ _ ht => ⟨ht, hc.push _ _⟩))

theorem ResForm.checked (hs : Form h s) {ts : List (Option TrapRec)} {r : Res} (hr : ResForm h r) : ResForm h (checked s ts r) := by
  unfold Machine.checked
  split
  · exact hs
  · exact hr

theorem Form.plainCopy (hs : Form h s) {f w} : OutForm h (plainCopy hd f w s) :=
  hs.copyWord fun _ _ _ _ hg => .checked hs (hg _ _ hs)

theorem Form.execGthr (hs : Form h s) {f dup} : OutForm h (execGthr hd f dup s) := hs.copyWord fun _ _ _ _ hg => .checked hs (hg _ _ hs)

theorem Form.execSctr (hs : Form h s) {f dup} : OutForm h (execSctr hd f dup s) := hs.copyWord fun _ _ _ _ hg => .checked hs (hg _ _ hs)

theorem Form.execCanf (hs : Form h s) {f} : OutForm h (execCanf hd f s) := hs.copyWord fun _ _ _ _ hg => .checked hs (hg _ _ hs)

theorem Form.execCanr (hs : Form h s) {f} : OutForm h (execCanr hd f s) := hs.copyWord fun _ _ _ _ hg => .checked hs (hg _ _ hs)

theorem Form.execXfer (hs : Form h s) {f} : OutForm h (execXfer hd f s) := hs.copyWord fun _ _ _ _ hg => .checked hs (hg _ _ hs)

theorem Form.execZfil (hs : Form h s) {f} : OutForm h (execZfil hd f s) := hs.copyWord fun _ _ _ _ hg => .checked hs (hg _ _ hs)

theorem Form.execSpf (hs : Form h s) {f} : OutForm h (execSpf hd f s) := hs.copyWord fun _ _ _ _ hg => hg _ _ hs

theorem Form.execMigr (hs : Form h s) {f} : OutForm h (execMigr hd f s) := hs.copyWord fun _ _ _ _ hg => hg _ _ hs

theorem ResForm.touch (hs : Form h s) {k : State → Res} (hk : ∀ t, Form h t → ResForm h (k t)) (ps : List (BitVec 64 × Nat)) :
    ResForm h (touch s c k ps) := by
  induction ps generalizing s with
  | nil => exact hk s hs
  | cons p r ih =>
    unfold Machine.touch
    split
    · exact hs
    · exact hs
    · next e => exact ih (hs.translate e)

theorem Form.execSstr (hs : Form h s) {f} : OutForm h (execSstr hd f s) :=
  hs.copyWord fun _ _ _ _ hg => .checked hs (.ite (.touch hs (fun _ ht => hg _ _ ht) _) (hg _ _ hs))

theorem Form.bulkTests (hs : Form h s) {skip : Bool} {acc : BitVec 3} {src dst : List Piece} {t : State}
    (e : s.bulkTests c skip acc src dst = .ok t) : Form h t := by
  unfold State.bulkTests at e
  split at e
  · cases e
  · next e1 =>
    split at e
    · cases e
    · next e2 =>
      dsimp only at e
      split at e
      · cases e
      · split at e
        · cases e
        · cases e; exact (hs.racePieces e1).racePieces e2

theorem ResForm.readRecord (hs : Form h s) {va : BitVec 64} {k : State → BitVec 512 → BitVec 5 → Res}
    (hk : ∀ t r f, Form h t → ResForm h (k t r f)) : ResForm h (readRecord s c va k) := by
  have hr := hs.reach c none .read [] [(va, 64)]
  unfold Machine.readRecord
  split
  · next e => exact hr.trap e
  · exact hs
  · trivial
  · next e =>
    split
    · exact hs.asking _
    · next e1 =>
      have h1 := (hr.ok e).fetchFar e1
      split
      · exact h1
      · split
        · exact h1
        · next e2 => exact hk _ _ _ (h1.bulkTests e2)

theorem Form.execRqnt (hs : Form h s) {f} : OutForm h (execRqnt hd f s) := by
  refine hs.copyWord fun c x g hc hg => .checked hs (.readRecord hs fun s1 rm f1 h1 =>
    .ite h1 (.readRecord h1 fun s2 rt f2 h2 => .ite h2 ?_))
  split
  · next s3 c3 j b e =>
    have h3 := hg s2 (c.cmd s.focus.2 (.rqnt hd f) (x.toAddr f) (x.fromAddr f) 0 1 [rm.toNat, rt.toNat]) h2
    rw [e] at h3
    exact ⟨h3.1, h3.2.flagAt _ _ _⟩
  · exact hg _ _ h2

end

/-! ## Units of the copy channels (Machine/Copy) -/

section
variable {m : Mem} {loc : Bool}

theorem MemForm.takeUnit (hm : MemForm h loc m) (u : Nat) (fill : Bool) (new : Nat → Bool) (base a : Nat) (as : List Nat) :
    MemForm h loc (takeUnit u fill new base m a as) := by
  unfold Machine.takeUnit
  dsimp only
  split
  · split
    · exact hm.vacate _ _
    · refine List.foldlRecOn _ _ hm fun k hk x _ => ?_
      split
      · exact hk.poke _ _
      · exact hk
  · split
    · exact hm.mark _ _
    · split
      · exact hm.vacate _ _
      · exact hm
  · exact hm

theorem MemForm.takeLocal (hm : MemForm h loc m) (fill : Bool) (new : Nat → Bool) (as : List Nat) :
    MemForm h loc (takeLocal fill new as m) := List.foldlRecOn _ _ hm fun _ hk _ _ => hk.takeUnit _ _ _ _ _ _

theorem MemForm.takePiece (hm : MemForm h loc m) (new : Nat → Bool) (p : Piece) : MemForm h loc (takePiece new m p) :=
  List.foldlRecOn _ _ hm fun _ hk _ _ => hk.takeUnit _ _ _ _ _ _

theorem MemForm.healLocal (hm : MemForm h loc m) (lo hi : Nat) (as : List Nat) : MemForm h loc (healLocal lo hi as m) := by
  refine List.foldlRecOn _ _ hm fun k hk w _ => ?_
  split
  · exact hk.heal _ _ _
  · exact hk

theorem MemForm.healPiece (hm : MemForm h loc m) (lo hi : Nat) (p : Piece) : MemForm h loc (healPiece lo hi m p) := by
  refine List.foldlRecOn _ _ hm fun k hk g _ => ?_
  dsimp only
  split
  · exact hk.heal _ _ _
  · exact hk

end

/-- The state that a unit leaves keeps the invariant. -/
def UnitForm (h : Half) : UStep → Prop
  | .ok s => Form h s
  | .wait s => Form h s
  | .trap s _ => Form h s
  | _ => True

theorem UnitForm.ite {p : Prop} [Decidable p] {a b : UStep} (ha : UnitForm h a) (hb : UnitForm h b) : UnitForm h (if p then a else b) := by
  split
  · exact ha
  · exact hb

section
variable {s : State} {c : Ctx}

theorem Form.onCtx (hs : Form h s) (cid : Nat) {f : Ctx → Ctx} (hf : ∀ d, CtxForm h d → CtxForm h (f d)) :
    Form h (s.onCtx cid f) := by
  unfold State.onCtx
  split
  · next e => exact hs.setCtx (hf _ (hs.ctx e))
  · exact hs

theorem CtxForm.onLocal (hc : CtxForm h c) (sa : Space) (as : List Nat) {f : Mem → Mem}
    (hf : ∀ m, MemForm h true m → MemForm h true (f m)) : CtxForm h (c.onLocal sa as f) := by
  cases sa with
  | can => exact ⟨hc.sp, hf _ hc.can⟩
  | global => exact ⟨hf _ hc.sp, hc.can⟩
  | sp => exact ⟨hf _ hc.sp, hc.can⟩

theorem onLocal_cid (c : Ctx) (sa : Space) (as : List Nat) (f : Mem → Mem) : (c.onLocal sa as f).cid = c.cid := by
  cases sa <;> rfl

theorem Form.onPlots (hs : Form h s) (lid : BitVec 48) (idx : Nat) (as : List Nat) {f : Mem → Mem}
    (hf : ∀ m, MemForm h true m → MemForm h true (f m)) : Form h (s.onPlots lid idx as f) :=
  hs.mapCtxs (fun c => if c.lid == lid && c.idx == idx && !c.isTask then c.onLocal .sp as f else c)
    (fun _ hc => .ite (hc.onLocal _ _ hf) hc) fun c => by
      split
      · exact onLocal_cid _ _ _ _
      · rfl

theorem Form.writePieces (hs : Form h s) (c : Ctx) (e : Eng) (k : Cmd) (f : CopyF) (ps : List Piece) (bs : List Byte) :
    Form h (s.writePieces c e k f ps bs) := by
  have h1 (gs : List Nat) (w : List (Nat × Byte)) :
      Form h (((s.note gs).writeAs c c.bulkCls (CopyF.release f) k.stamp w).sendFar c (engNo e) w) :=
    (Form.writeAs hs.same _ _ _ _ _).sendFar _ _ _
  unfold State.writePieces
  dsimp only
  split
  · exact ⟨List.foldlRecOn _ _ (h1 _ _).dram fun _ hm p _ => hm.healPiece _ _ p, (h1 _ _).ctxs⟩
  · exact h1 _ _

theorem Form.writeLocal (hs : Form h s) (c : Ctx) (k : Cmd) (sa : Space) (as : List Nat) (bs : List Byte) :
    Form h (s.writeLocal c k sa as bs) := by
  unfold State.writeLocal
  dsimp only
  split
  · exact hs.onPlots _ _ _ fun _ hm => hm.store _ _ _
  · exact hs.onCtx _ fun _ hd => hd.onLocal _ _ fun _ hm => (hm.store _ _ _).healLocal _ _ _
  · exact hs.onCtx _ fun _ hd => hd.onLocal _ _ fun _ hm => hm.store _ _ _

theorem UnitForm.reachSide (hs : Form h s) {port : Nat} {k : Need} {sa : Space} {as : List Nat} {go : State → List Piece → UStep}
    (hg : ∀ t ps, Form h t → UnitForm h (go t ps)) : UnitForm h (s.reachSide c port k sa as go) := by
  have hr := hs.reach c (some port) k [] (piecesOf as)
  unfold State.reachSide
  split
  · split
    · next e => exact hr.trap e
    · trivial
    · trivial
    · next e => exact hg _ _ (hr.ok e)
  · exact hg _ _ hs

theorem UnitForm.unitTests (hs : Form h s) {s0 : State} (h0 : Form h s0) {k : Cmd} {take : Bool} {j : Job} {src dst : List Piece}
    {go : State → UStep} (hg : ∀ t, Form h t → UnitForm h (go t)) : UnitForm h (s.unitTests s0 c k take j src dst go) := by
  unfold State.unitTests
  split
  · exact h0
  · next e =>
    generalize Option.orElse _ _ = o
    cases o with
    | some t => exact h0
    | none => exact .ite trivial (hg _ (hs.bulkTests e))

theorem Form.putUnit (hs : Form h s) (c : Ctx) (e : Eng) (k : Cmd) (f : CopyF) (j : Job) (dst : List Piece) (bs : List Byte) :
    Form h (s.putUnit c e k f j dst bs) := .ite (hs.writePieces _ _ _ _ _ _) (hs.writeLocal _ _ _ _ _)

theorem Form.takePieces (hs : Form h s) (c : Ctx) (k : Cmd) (f : CopyF) (new : Nat → Bool) (ps : List Piece) :
    Form h (s.takePieces c k f new ps) := by
  have h1 := hs.squash (piecesGrans ps)
  unfold State.takePieces
  dsimp only
  refine (Form.record ?_ _ _ _ _).wake _ _
  exact ⟨List.foldlRecOn _ _ h1.dram fun _ hm p _ => hm.takePiece new p, h1.ctxs⟩

theorem Form.takeSource (hs : Form h s) (c : Ctx) (k : Cmd) (f : CopyF) (j : Job) (src : List Piece) :
    Form h (s.takeSource c k f j src) :=
  .ite hs (.ite (hs.takePieces _ _ _ _ _) (hs.onCtx _ fun _ hd => hd.onLocal _ _ fun _ hm => hm.takeLocal _ _ _))

theorem UnitForm.plainUnit (hs : Form h s) (c : Ctx) (e : Eng) (k : Cmd) (f : CopyF) (j : Job) :
    UnitForm h (s.plainUnit c e k f j) := by
  refine .reachSide hs fun s1 src h1 => .reachSide h1 fun s2 dst h2 => ?_
  split
  · exact hs.asking _
  · next e2 =>
    have h3 := h2.fetchFar e2
    split
    · exact h1
    · exact .unitTests h3 h1 fun s3 h4 => ((h4.putUnit _ _ _ _ _ _ _).takeSource _ _ _ _ _).onCtx _ fun _ hd => hd.same

theorem UnitForm.xferReady (hs : Form h s) {k : Cmd} {go : UStep} (hg : UnitForm h go) : UnitForm h (s.xferReady c k go) := by
  unfold State.xferReady
  split
  · split
    · exact hs
    · split
      · exact hg
      · trivial
  · exact hg

theorem UnitForm.sstrUnit (hs : Form h s) (c : Ctx) (e : Eng) (k : Cmd) (f : CopyF) : UnitForm h (s.sstrUnit c e k f) := by
  have put {t : State} (ht : Form h t) (n : BitVec 6) (w : BitVec 256) (g : BitVec 5) :
      Form h (t.onCtx c.cid fun d => (d.setDescr n w).flag g) := ht.onCtx _ fun _ hd => hd.same
  have hr := hs.reach c (some (streamPort e false)) .read [] (splitPieces (BitVec.ofNat 64 k.src) 2 32)
  unfold State.sstrUnit
  dsimp only
  split
  · split
    · next e1 => exact hr.trap e1
    · trivial
    · trivial
    · next e1 =>
      split
      · exact hs.asking _
      · next e2 =>
        have h1 := (hr.ok e1).fetchFar e2
        split
        · exact h1
        · split
          · exact h1
          · next e3 => exact put (h1.bulkTests e3) _ _ _
  · split
    · exact hs
    · exact put hs _ _ _

theorem Form.spfUnit (hs : Form h s) (c : Ctx) (e : Eng) (k : Cmd) : Form h (s.spfUnit c e k) := hs.setCore _ _

theorem UnitForm.migrUnit (hs : Form h s) (c : Ctx) (k : Cmd) (tier : Tier) : UnitForm h (s.migrUnit c k tier).1 := by
  unfold State.migrUnit
  split
  · exact hs
  · trivial
  · next e =>
    have h1 := hs.translate e
    split
    · exact h1
    · split
      · trivial
      · exact h1.startMove _ _
      · exact h1

theorem UnitForm.rqntUnit (hs : Form h s) (c : Ctx) (e : Eng) (k : Cmd) (f : CopyF) : UnitForm h (s.rqntUnit c e k f) := by
  unfold State.rqntUnit
  dsimp only
  split
  · next e1 => exact (hs.reach _ _ _ _ _).trap e1
  · trivial
  · trivial
  · next e1 =>
    have h1 := (hs.reach _ _ _ _ _).ok e1
    split
    · next e2 => exact (h1.reach _ _ _ _ _).trap e2
    · trivial
    · trivial
    · next e2 =>
      split
      · exact hs.asking _
      · next e3 =>
        have h3 := ((h1.reach _ _ _ _ _).ok e2).fetchFar e3
        split
        · exact h1
        · split
          · exact h1
          · next e4 =>
            split
            · trivial
            · exact ((h3.bulkTests e4).writePieces _ _ _ _ _ _).onCtx _ fun _ hd => hd.same

theorem UnitForm.unit (hs : Form h s) (c : Ctx) (e : Eng) (k : Cmd) (f : CopyF) : UnitForm h (s.unit c e k f).1 := by
  unfold State.unit
  split
  · exact .sstrUnit hs _ _ _ _
  · exact hs.spfUnit _ _ _
  · exact .migrUnit hs _ _ _
  · exact .rqntUnit hs _ _ _ _
  · split
    · exact .xferReady hs (.plainUnit hs _ _ _ _ _)
    · trivial

theorem CtxForm.setActive (hc : CtxForm h c) (e : Eng) (k : Option Cmd) : CtxForm h (c.setActive e k) := hc.setChan _ _

theorem CtxForm.afterUnit (hc : CtxForm h c) (e : Eng) (k : Cmd) (f : CopyF) : CtxForm h (c.afterUnit e k f) := by
  have h1 (k1 : Option Cmd) := hc.setActive e k1
  unfold Ctx.afterUnit
  dsimp only
  split
  · exact .ite (h1 _).same (h1 _)
  · exact h1 _

theorem Form.stopCmd (hs : Form h s) {s0 : State} (h0 : Form h s0) (cid : Nat) (e : Eng) (k : Cmd) (t : TrapRec) :
    Form h (s.stopCmd cid e k t s0) := by
  unfold State.stopCmd
  split
  · exact hs
  · next e1 => exact .ite (hs.suspend (hs.ctx e1) _ _ _ _) (h0.waitSafe (.getD (fun _ => h0.ctx) (hs.ctx e1)))

theorem Form.execCopyUnit (hs : Form h s) {cid e} : OutForm h (execCopyUnit cid e s) := by
  unfold Machine.execCopyUnit
  split
  · exact hs
  · next c ec =>
    have hc := hs.ctx ec
    split
    · exact hs
    · next k _ =>
      split
      · exact hs
      · next f _ =>
        refine .ite hs ?_
        split
        · split
          · exact Form.stopCmd hs hs _ _ _ _
          · exact Form.setCtx hs (CtxForm.setActive hc.same _ _)
        · have hu := UnitForm.unit hs c e k f
          split
          · next eu => rw [eu] at hu; exact Form.onCtx hu _ fun _ hd => hd.afterUnit _ _ _
          · next eu => rw [eu] at hu; exact hu
          · next eu => rw [eu] at hu; exact Form.stopCmd hu hs _ _ _ _
          · exact hs
          · trivial

theorem Form.signalCopy (hs : Form h s) (hc : CtxForm h c) (e : Eng) : Form h (s.signalCopy c e) := by
  unfold State.signalCopy
  split
  · exact hs
  · split
    · exact hs
    · refine .ite ?_ hs
      refine hs.setCtx (CtxForm.sigField ?_ _)
      have h1 := hc.setChan e (c.chan e).retire
      split
      · exact .ite h1.same h1
      · exact h1

end

/-! ## The matrix array (Machine/Matrix) -/

section
variable {s : State} {c : Ctx} {hd : Hd}

theorem CtxForm.mxAdvance (hc : CtxForm h c) (op : MxOp) (f : MxF) : CtxForm h (c.mxAdvance op f) := by
  have h1 : CtxForm h (if (mxA op f).1 = 0 then c else c.advance f.adesc (mxA op f).1) := .ite hc (hc.advance _ _)
  exact .ite (hc.advance _ _) (.ite h1 (h1.advance _ _))

theorem CtxForm.setTileAt (hc : CtxForm h c) (k : Nat) (t : Tile) : CtxForm h (c.setTileAt k t) := .ite hc.same hc.same

theorem CtxForm.putEls (hc : CtxForm h c) (k : Nat) (xs : List (BitVec 48 × BitVec 5)) : CtxForm h (c.putEls k xs) := by
  refine CtxForm.same (c := c.setTileAt k { c.tileAt k with elems := listMap 0 0 (xs.map Prod.fst) }) ?_
  exact hc.setTileAt _ _

theorem CtxForm.runOn (hc : CtxForm h c) (x : MCmd) (k : Nat) : CtxForm h (c.runOn x k) := by
  have flagged (t : Tile) (b : BitVec 5) : CtxForm h ((c.setTileAt k t).flag b) := by
    refine CtxForm.same (c := c.setTileAt k t) ?_
    exact hc.setTileAt _ _
  unfold Ctx.runOn
  dsimp only
  split
  · exact hc.putEls _ _
  · exact hc.putEls _ _
  · exact hc.putEls _ _
  · exact hc.putEls _ _
  · exact hc.putEls _ _
  · exact flagged _ _
  · exact hc.setTileAt _ _
  · exact flagged _ _
  · exact hc.setTileAt _ _
  · exact hc
  · exact hc

theorem CtxForm.mxStore (hc : CtxForm h c) (x : MCmd) : CtxForm h (c.mxStore x) := by
  have h1 (bs : List (Nat × Byte)) (as : List Nat) : CtxForm h ((c.localStore bs).unveil as) := (hc.localStore bs).same
  unfold Ctx.mxStore
  split
  · exact h1 _ _
  · exact .ite hc (hc.landAll _)
  · exact hc

theorem CtxForm.mxFlags (hc : CtxForm h c) (x : MCmd) : CtxForm h (c.mxFlags x).1 := hc.same

theorem CtxForm.forget (hc : CtxForm h c) (n : Nat) : CtxForm h (c.forget n) := hc.same

theorem Form.trimWindows (hs : Form h s) (p : Nat) : Form h (s.trimWindows p) := by
  unfold State.trimWindows
  dsimp only
  split
  · exact hs
  · split
    · split
      · next e => exact hs.setCtx ((hs.ctx e).forget _)
      · exact hs
    · exact hs

theorem CtxForm.join (hc : CtxForm h c) (x : MCmd) (k : Nat) (t0 : Tile) : CtxForm h (c.join x k t0) := by
  unfold Ctx.join
  refine .ite hc (.ite hc.same ?_)
  split
  · exact hc.same
  · exact hc

theorem CtxForm.openAfter (hc : CtxForm h c) (x : MCmd) (k : Nat) : CtxForm h (c.openAfter x k) := .ite hc.same hc

theorem CtxForm.rerun (hc : CtxForm h c) (k n : Nat) (xs : List MCmd) : CtxForm h (c.rerun k n xs).1 := by
  induction xs generalizing c with
  | nil => exact hc
  | cons x r ih =>
    unfold Ctx.rerun
    dsimp only
    refine ih (CtxForm.runOn ?_ x k)
    split
    · exact hc
    · exact hc.mxFlags x

theorem CtxForm.replayTile (hc : CtxForm h c) (x : MCmd) (k : Nat) : CtxForm h (c.replayTile x k).1 := by
  unfold Ctx.replayTile
  split
  · rw [apply_ite Prod.fst]
    exact .ite (hc.runOn _ _) ((hc.setTileAt _ _).rerun _ _ _)
  · exact hc.runOn _ _

theorem CtxForm.ruin (hc : CtxForm h c) (k : Nat) : CtxForm h (c.ruin k) := by
  refine CtxForm.same (c := c.setTileAt k _) ?_
  exact hc.setTileAt _ _

theorem CtxForm.failOn (hc : CtxForm h c) (x : MCmd) (k : Nat) : CtxForm h (c.failOn x k).1 := by
  unfold Ctx.failOn
  rw [apply_ite Prod.fst]
  exact .ite (hc.replayTile _ _) (hc.ruin _)

theorem CtxForm.drainTile {cn : Drain} (hc : CtxForm h cn.1) (x : MCmd) (check : MxCheck) (k : Nat) :
    CtxForm h (Ctx.drainTile x check cn k).1 := by
  have h1 := hc.join x k (cn.1.tileAt k)
  have h2 : CtxForm h (match check with
      | .pass => ((cn.1.join x k (cn.1.tileAt k)).runOn x k, [], 0)
      | .fail t => if t = k then (cn.1.join x k (cn.1.tileAt k)).failOn x k else ((cn.1.join x k (cn.1.tileAt k)).runOn x k, [], 0)
      | .failTwice t => if t = k then ((cn.1.join x k (cn.1.tileAt k)).ruin k, [], 0)
        else ((cn.1.join x k (cn.1.tileAt k)).runOn x k, [], 0) : Drain).1 := by
    split
    · exact h1.runOn _ _
    · rw [apply_ite Prod.fst]
      exact .ite (h1.failOn _ _) (h1.runOn _ _)
    · rw [apply_ite Prod.fst]
      exact .ite (h1.ruin _) (h1.runOn _ _)
  exact CtxForm.ite h2 (h2.openAfter _ _)

theorem CtxForm.drainReader (hc : CtxForm h c) (x : MCmd) (check : MxCheck) : CtxForm h (c.drainReader x check).1 := by
  cases check with
  | pass => exact hc
  | fail t => exact hc.failOn _ _
  | failTwice t => exact hc.ruin _

theorem CtxForm.drain (hc : CtxForm h c) (x : MCmd) (check : MxCheck) : CtxForm h (c.drain x check).1 := by
  unfold Ctx.drain
  dsimp only
  rw [apply_ite Prod.fst]
  exact .ite (((hc.mxFlags x).drainReader _ _).mxStore _)
    (List.foldlRecOn (motive := fun cn : Drain => CtxForm h cn.1) _ _ (hc.mxFlags x) fun _ hcn _ _ => hcn.drainTile _ _ _)

theorem Form.arrayFault (hs : Form h s) (p : Nat) (check : MxCheck) : Form h (s.arrayFault p check) := by
  cases check with
  | failTwice t => exact .ite hs hs.same
  | _ => exact hs

theorem CtxForm.mxStart (hc : CtxForm h c) (x : MCmd) : CtxForm h (c.mxStart x) := .ite hc.same hc.same

theorem CtxForm.mxIssue (hc : CtxForm h c) (x : MCmd) : CtxForm h (c.mxIssue x) := by
  refine .ite (CtxForm.mxStart ?_ _) ?_
  · exact (hc.mxAdvance x.op x.f).same
  · exact (hc.mxAdvance x.op x.f).same

theorem Form.matrixWord (hs : Form h s) {op f} : OutForm h (matrixWord hd op f s) := by
  refine OutForm.accOut (hs.runWord _ _ _ fun c hc => .ite hs (.ite hs ?_))
  split
  · exact hs
  · exact ⟨hs, hc.mxIssue _⟩

theorem CtxForm.offerWait (hc : CtxForm h c) {x : MCmd} {d : Ctx} (e : c.offerWait x = some d) : CtxForm h d := by
  unfold Ctx.offerWait at e
  split at e
  · cases e; exact hc
  · split at e
    · cases e
    · cases e; exact hc.same

theorem Form.offerOne (hs : Form h s) (hc : CtxForm h c) (x : MCmd) : Form h (s.offerOne c x) := by
  unfold State.offerOne
  split
  · exact hs
  · next c1 e =>
    have h1 := hc.offerWait e
    refine .ite (hs.setCtx (CtxForm.sigField h1.same _)) (.ite hs ?_)
    split
    · exact .ite (hs.suspend hc _ _ _ _) (hs.waitSafe hc)
    · exact hs.setCtx (CtxForm.mxIssue h1.same _)

theorem Form.execEngineCommandStart (hs : Form h s) {cid e} : OutForm h (execEngineCommandStart cid e s) := by
  unfold Machine.execEngineCommandStart
  split
  · exact hs
  · next c ec =>
    have hc := hs.ctx ec
    refine .ite hs ?_
    split
    · split
      · exact hs.setCtx (hc.mxStart _)
      · exact hs.offerOne hc _
      · exact hs
    · exact hs.setCtx (hc.setChan _ _)

theorem Form.execCommandSignal (hs : Form h s) {cid e} : OutForm h (execCommandSignal cid e s) := by
  unfold Machine.execCommandSignal
  split
  · exact hs
  · next ec =>
    split
    · exact hs
    · exact hs.signalCopy (hs.ctx ec) _

theorem CtxForm.landRows (hc : CtxForm h c) : CtxForm h c.landRows :=
  List.foldlRecOn _ _ (hc.landIf _) fun _ hd f _ => hd.landEarly f

theorem CtxForm.mxNext (hc : CtxForm h c) : CtxForm h c.mxNext := by
  unfold Ctx.mxNext
  dsimp only
  split
  · exact .ite (CtxForm.mxStart hc.same _) hc.same
  · exact hc.same

theorem Form.execMatrixWordRetire (hs : Form h s) {cid check} : OutForm h (execMatrixWordRetire cid check s) := by
  unfold Machine.execMatrixWordRetire
  split
  · exact hs
  · next c ec =>
    split
    · exact hs
    · next x _ =>
      refine .ite hs ?_
      have h1 : CtxForm h (if x.cancel then (c.landRows, [], 0)
          else c.landRows.drain { x with born := s.cycle.toNat } check : Drain).1 := by
        rw [apply_ite Prod.fst]
        exact .ite (hs.ctx ec).landRows ((hs.ctx ec).landRows.drain _ _)
      exact ((Form.setCtx hs.same (h1.mxNext.sigField _)).trimWindows _).arrayFault _ _

end

/-! ## The vector unit (Machine/Vector) -/

section
variable {s : State} {c : Ctx} {hd : Hd}

theorem CtxForm.advanceUses (hc : CtxForm h c) (us : List Use) : CtxForm h (c.advanceUses us) :=
  List.foldlRecOn _ _ hc fun _ hd _ _ => hd.advance _ _

theorem CtxForm.vecIssue (hc : CtxForm h c) (free : Nat) (sig : BitVec 8) (nw : Bool) (a : VAct) (read : BitVec 5) :
    CtxForm h (c.vecIssue free sig nw a read) := by
  have h1 := hc.advanceUses (a.dst.toList ++ a.srcs)
  unfold Ctx.vecIssue
  dsimp only
  generalize (if nw = true then none else a.extra) = o
  cases o with
  | none => exact .ite (CtxForm.latch h1.same _ _ _) h1.same
  | some p => exact .ite (CtxForm.latch h1.same _ _ _) h1.same

theorem CtxForm.bareSignal (hc : CtxForm h c) (sig : BitVec 8) : CtxForm h (c.bareSignal sig) := hc.same

theorem OutForm.bareCancelled {o : Out} {c0 : Ctx} {q : Sq} {sig : BitVec 8} (ho : OutForm h o) : OutForm h (bareCancelled c0 q sig o) := by
  unfold Machine.bareCancelled
  split
  · refine .ite ?_ ho
    split
    · next e => exact Form.setCtx ho ((Form.ctx ho e).bareSignal _)
    · exact ho
  · exact ho

theorem Form.vectorWord (hs : Form h s) {x : VecF} {k : Ctx → VAct} : OutForm h (vectorWord hd x s k) := by
  refine OutForm.accOut ?_
  split
  · trivial
  · refine .bareCancelled (hs.runWord _ _ _ fun c hc => .ite hs (.ite ⟨hs, hc.bareSignal _⟩ (.ite hs ?_)))
    split
    · exact hs
    · exact ⟨hs, hc.vecIssue _ _ _ _ _⟩

theorem Form.execResultLand (hs : Form h s) {cid} : OutForm h (execResultLand cid s) := by
  unfold Machine.execResultLand
  split
  · exact hs
  · next c e =>
    have hc := hs.ctx e
    refine .ite hs (.ite (hs.setCtx (hc.landIf _)) (.ite (hs.setCtx ?_) ?_))
    · exact .ite (hc.landDue none).same (hc.landDue none)
    · split
      · exact .ite (hs.setCtx (hc.landEarly _)) hs
      · exact hs

end

/-! ## Queues, placement and retirement (Machine/Scheduler) -/

section
variable {s : State} {c : Ctx}

theorem Form.sendMsi (hs : Form h s) (id : Word) : Form h (s.sendMsi id) := .ite hs.same hs.same

theorem Form.writeBlock (hs : Form h s) (q : Queue) (off : Nat) (bs : List Byte) : Form h (s.writeBlock q off bs) := hs.writeHome _ _

theorem Form.setQueue (hs : Form h s) (n : Nat) (q : Queue) : Form h (s.setQueue n q) := hs.same

theorem Form.stopQueue (hs : Form h s) (n : Nat) (q : Queue) (code : BitVec 8) (held : Bool) : Form h (s.stopQueue n q code held) :=
  ((hs.setQueue _ _).writeBlock _ _ _).sendMsi _

theorem Form.startQueue (hs : Form h s) (n : Nat) (q : Queue) : Form h (s.startQueue n q) :=
  .ite ((hs.setQueue _ _).writeBlock _ _ _) (hs.stopQueue _ _ _ _)

theorem Form.startHorizon (hs : Form h s) (n : Nat) (q : Queue) : Form h (s.startHorizon n q) := .ite hs.same hs.same

theorem Form.execQcbaEnable (hs : Form h s) {slot v} : OutForm h (execQcbaEnable slot v s) :=
  .byHart hs (.ite (.ite hs ((hs.startHorizon _ _).startQueue _ _)) hs)

theorem Form.withdraw (hs : Form h s) (ls : List Launch) : Form h (s.withdraw ls) := by
  induction ls generalizing s with
  | nil => exact hs
  | cons l r ih => exact ih (hs.finishLaunch _ _)

theorem Form.execQcbaDisable (hs : Form h s) {slot v} : OutForm h (execQcbaDisable slot v s) :=
  .byHart hs (.ite (.ite ((hs.setQueue _ _).withdraw _) (.ite (hs.setQueue _ _) (hs.setQueue _ _))) hs)

theorem Form.execQdoorWrite (hs : Form h s) {slot} : OutForm h (execQdoorWrite slot s) :=
  .byHart hs (.ite (.ite hs (.ite (Form.startQueue (.ite (hs.startHorizon _ _) hs) _ _)
    (.ite hs (Form.ite (hs.setQueue _ _) (hs.stopQueue _ _ _ _))))) hs)

theorem Form.takeRecord (hs : Form h s) (slot : Nat) (q : Queue) (pa : Nat) : Form h (s.takeRecord slot q pa) :=
  .ite (hs.stopQueue _ _ _ _) (.ite (hs.stopQueue _ _ _ _) (((hs.writeBlock _ _ _).writeBlock _ _ _).accept _ _ _ _ _))

theorem Form.execLaunchIntake (hs : Form h s) {slot} : OutForm h (execLaunchIntake slot s) := by
  refine .ite (.ite (hs.stopQueue _ _ _ _) (.ite hs ?_)) hs
  split
  · exact hs.stopQueue _ _ _ _
  · exact hs
  · next e => exact (hs.reachPage e).takeRecord _ _ _

theorem Form.putDone (hs : Form h s) (n : Nat) (q : Queue) (d : Done) (pa : Nat) : Form h (s.putDone n q d pa) :=
  ((((hs.writeHome _ _).writeBlock _ _ _).writeBlock _ _ _).setQueue _ _).sendMsi _

theorem Form.execCompletionRecordWrite (hs : Form h s) {n} : OutForm h (execCompletionRecordWrite n s) := by
  unfold Machine.execCompletionRecordWrite
  dsimp only
  refine .ite hs ?_
  split
  · exact .ite (((hs.writeBlock _ _ _).setQueue _ _).sendMsi _) hs
  · refine .ite (hs.stopQueue _ _ _ _) (.ite (hs.stopQueue _ _ _ _) (.ite hs ?_))
    split
    · exact Form.ite (hs.setQueue _ _) (hs.stopQueue _ _ _ _)
    · exact hs
    · next e =>
      have h1 := hs.reachPage e
      exact .ite (h1.stopQueue _ _ _ _) (.ite hs (h1.putDone _ _ _ _))

theorem Form.retireMember (hs : Form h s) (c : Ctx) (l : Launch) : Form h (s.retireMember c l) := (hs.setLaunch _).discardCtx c

theorem Form.finishTask (hs : Form h s) (hc : CtxForm h c) (l : Launch) (t : TaskId) : Form h (s.finishTask c l t) := by
  have h1 (k : Launch) : Form h ((s.setCtx { c.parked s.cycle with stat := .finished, decl := none, halting := false }).setLaunch k) :=
    (hs.setCtx (hc.parked s.cycle).same).setLaunch k
  exact .ite ((h1 _).setCore _ _) (h1 _)

theorem Form.execMemberRetire (hs : Form h s) {cid} : OutForm h (execMemberRetire cid s) := by
  unfold Machine.execMemberRetire
  split
  · exact hs
  · next e =>
    split
    · exact hs
    · refine .ite ?_ hs
      split
      · exact hs.retireMember _ _
      · exact hs.finishTask (hs.ctx e) _ _
      · exact hs

theorem Form.execLaunchComplete (hs : Form h s) {lid} : OutForm h (execLaunchComplete lid s) := by
  unfold Machine.execLaunchComplete
  split
  · exact hs
  · exact .ite (hs.abortLaunch _ _) hs

theorem Form.execRendezvousDepTest (hs : Form h s) {lid k} : OutForm h (execRendezvousDepTest lid k s) := by
  unfold Machine.execRendezvousDepTest
  split
  · exact hs
  · split
    · exact hs
    · refine .ite ?_ hs
      split
      · exact hs.finishLaunch _ _
      · exact hs
      · next e =>
        have h1 := hs.reachPage e
        split
        · exact h1
        · exact (h1.setLaunch _).markReady

theorem Form.execLaunchAgeing (hs : Form h s) {lid} : OutForm h (execLaunchAgeing lid s) := by
  unfold Machine.execLaunchAgeing
  split
  · exact hs
  · exact .ite (hs.setLaunch _) hs

theorem Form.execLaunchReserve (hs : Form h s) {lid} : OutForm h (execLaunchReserve lid s) := by
  unfold Machine.execLaunchReserve
  split
  · exact hs
  · exact .ite (hs.setLaunch _) hs

theorem Form.startMembers (hs : Form h s) (l : Launch) (idx : Nat) (ps : List Nat) : Form h (s.startMembers l idx ps) := by
  induction ps generalizing s idx with
  | nil => exact hs
  | cons p r ih =>
    have h1 (c : Ctx) (hc : CtxForm h c) : Form h { s.setCtx c with nextCid := s.nextCid + 1 } := (hs.setCtx hc).same
    exact ih (h1 _ (.startCtx _ _ _ _ _ _)) _

theorem Form.execLaunchPlace (hs : Form h s) {lid cores} : OutForm h (execLaunchPlace lid cores s) := by
  unfold Machine.execLaunchPlace
  split
  · exact hs
  · next l _ =>
    refine .ite (.ite ?_ (hs.finishLaunch _ _)) hs
    have h1 (t : State) (ht : Form h t) : Form h { t with served := l.src } := ht.same
    exact h1 _ ((hs.setLaunch _).startMembers _ _ _)

theorem Form.evict (hs : Form h s) (hc : CtxForm h c) : Form h (s.evict c) := .ite (.ite (hs.leave _) (hs.drainOut hc)) hs

theorem Form.evictAll (hs : Form h s) (cids : List Nat) : Form h (s.evictAll cids) := by
  induction cids generalizing s with
  | nil => exact hs
  | cons n r ih =>
    refine ih (s := match s.ctx n with | some c => s.evict c | none => s) ?_
    split
    · next e => exact hs.evict (hs.ctx e)
    · exact hs

theorem Form.execPreempt (hs : Form h s) {lid forLid} : OutForm h (execPreempt lid forLid s) := by
  unfold Machine.execPreempt
  split
  · exact .ite ((hs.setLaunch _).evictAll _) hs
  · exact hs

end

/-! ## Registers of the window (Machine/Window) -/

section
variable {s : State} {c : Ctx}

theorem Form.writeEvent (hs : Form h s) : Form h s.writeEvent := by
  unfold State.writeEvent
  split
  · exact hs
  · refine .ite (Form.sendMsi ?_ _) hs
    exact (hs.writeHome _ _).same

theorem Form.writeEvents (hs : Form h s) (n : Nat) : Form h (s.writeEvents n) := by
  induction n generalizing s with
  | zero => exact hs
  | succ n ih => exact ih hs.writeEvent

theorem Form.execEventRingWrite (hs : Form h s) : OutForm h (execEventRingWrite s) := hs.writeEvent

theorem Form.execEvbaseWrite (hs : Form h s) {v} : OutForm h (execEvbaseWrite v s) := .byHart hs (Form.writeEvents hs.same _)

theorem Form.execMsiaWrite (hs : Form h s) {v} : OutForm h (execMsiaWrite v s) :=
  .byHart hs (.ite hs.same (Form.writeEvents hs.same _))

theorem Form.shoot (hs : Form h s) (kind : BitVec 2) : Form h (s.shoot kind) := .ite hs (Form.dropEverywhere hs.same _)

theorem Form.execShgoPage (hs : Form h s) : OutForm h (execShgoPage s) := .byHart hs (hs.shoot _)

theorem Form.execShgoAsid (hs : Form h s) : OutForm h (execShgoAsid s) := .byHart hs (hs.shoot _)

theorem Form.execShgoAll (hs : Form h s) : OutForm h (execShgoAll s) := .byHart hs (hs.shoot _)

theorem Form.execShootdownComplete (hs : Form h s) : OutForm h (execShootdownComplete s) := .ite hs.same hs

theorem Form.execHstartGo (hs : Form h s) {k v} : OutForm h (execHstartGo k v s) := .byHart hs (.ite hs.same hs)

theorem Form.execHstartHold (hs : Form h s) {k} : OutForm h (execHstartHold k s) := .ite hs.same hs

theorem Form.doom (hs : Form h s) (d : Nat) : Form h (s.doom d) := .ite hs hs.same

theorem Form.fence (hs : Form h s) (u : FenceUnit) : Form h (s.fence u) := by
  cases u with
  | core p => exact hs.setCore _ _
  | cluster k => exact .ite hs hs.same
  | matrix k => exact .ite hs hs.same

theorem Form.judgeDie (hs : Form h s) (u : FenceUnit) : Form h (s.judgeDie u) := by
  cases u with
  | core p => exact .ite (hs.doom _) hs
  | cluster k => exact .ite (hs.doom _) hs
  | matrix k => exact hs

theorem Form.fenceOff (hs : Form h s) (u : FenceUnit) : Form h (s.fenceOff u) := ((hs.fence u).judgeDie u).evictAll _

theorem Form.stopped (hs : Form h s) {p : Nat} (e : s.stopped p = some c) : CtxForm h c := by
  unfold State.stopped at e
  split at e
  · exact hs.activeCtx e
  · cases e

theorem Form.respondAny (hs : Form h s) (p : Nat) (o : Option Bool) :
    Form h (match o with
      | some abort => s.respond p abort
      | none => s) := by
  cases o with
  | none => exact hs
  | some abort => exact hs.respond p abort

theorem Form.execStopgoResume (hs : Form h s) {core} : OutForm h (execStopgoResume core s) := by
  refine .byHart hs (.ite ?_ hs)
  have h0 : Form h (match s.activeCtx core with
      | some c => s.setCtx { c.takeBack with stat := if c.inv.isSome then .inverse else .running }
      | none => s) := by
    split
    · next e => exact hs.setCtx (hs.activeCtx e).takeBack.same
    · exact hs
  have h1 := (h0.setCore core { s.core core with
    resp := none, fdue := false, dbg := (s.core core).dbg.put 0 0x1010 0 }).respondAny core (s.core core).resp
  exact Form.ite (h1.fenceOff _) h1

theorem Form.execStopgoImage (hs : Form h s) {core} : OutForm h (execStopgoImage core s) := by
  refine .byHart hs ?_
  split
  · exact hs
  · exact .ite hs (Form.putImage hs.same _ _ _ _ _)

theorem Form.execCycleMatchStop (hs : Form h s) {core} : OutForm h (execCycleMatchStop core s) := by
  unfold Machine.execCycleMatchStop
  split
  · exact hs
  · next e => exact .ite ((hs.setCore _ _).stopCore (hs.activeCtx e) _ _) hs

theorem Form.execCspillWrite (hs : Form h s) {v} : OutForm h (execCspillWrite v s) := .byHart hs (.ite hs.same hs)

theorem Form.execPcapWrite (hs : Form h s) {v} : OutForm h (execPcapWrite v s) := .byHart hs hs.same

theorem Form.execIcapWrite (hs : Form h s) {i v} : OutForm h (execIcapWrite i v s) := .byHart hs (.ite hs.same hs)

theorem Form.execIslandFrequencyChange (hs : Form h s) {i mhz watts} : OutForm h (execIslandFrequencyChange i mhz watts s) :=
  .ite hs.same hs

theorem CtxForm.redump (hc : CtxForm h c) (x : Nat) (g : Flight → Flight) : CtxForm h (c.redump x g) := by
  unfold Ctx.redump
  split
  · exact (hc.onSeqr _ _).same
  · exact hc

theorem Form.writeDump (hs : Form h s) (p x off : Nat) (v : BitVec 64) : Form h (s.writeDump p x off v) := by
  unfold State.writeDump
  split
  · next e => exact .ite (hs.setCtx ((hs.stopped e).redump _ _)) hs
  · exact hs

theorem Form.writeDebug (hs : Form h s) (p off : Nat) (v : BitVec 64) : Form h (s.writeDebug p off v) :=
  .ite (hs.writeDump _ _ _ _) (.ite hs (hs.setCore _ _))

theorem Form.writeDevice (hs : Form h s) (off : Nat) (v : BitVec 64) : Form h (s.writeDevice off v) :=
  .ite hs.same (.ite hs.same (.ite hs.same (.ite hs.same hs)))

theorem Form.execRegisterWrite (hs : Form h s) {pa v} : OutForm h (execRegisterWrite pa v s) :=
  .byHart hs (.ite hs (.ite (hs.writeDevice _ _) (.ite (hs.writeDebug _ _ _) hs)))

end

/-! ## Links and packages (Machine/Links) -/

section
variable {s : State} {c : Ctx}

theorem Form.execFlitTransmit (hs : Form h s) {m up} : OutForm h (execFlitTransmit m up s) := by
  refine .ite hs ?_
  split
  · exact hs
  · exact hs.setLink _ _

theorem Form.execNakTimer (hs : Form h s) {m up} : OutForm h (execNakTimer m up s) := .ite hs (hs.setLink _ _)

theorem Form.execIdleTimer (hs : Form h s) {m up} : OutForm h (execIdleTimer m up s) := .ite hs (hs.setLink _ _)

theorem Form.execReplayTimeout (hs : Form h s) {m up} : OutForm h (execReplayTimeout m up s) := .ite hs (hs.setLink _ _)

theorem Form.waiting (hs : Form h s) {core : Nat} {i : Nat} {d : BitVec 5} {a : Atomic} {n : Nat}
    (e : s.waiting core = some (c, i, d, a, n)) : CtxForm h c := by
  obtain ⟨x, hx, hf⟩ := List.exists_of_findSome?_eq_some e
  split at hf
  · split at hf
    · cases hf; exact hs.mem hx
    · cases hf
  · cases hf

theorem Form.atomicHere (hs : Form h s) (hc : CtxForm h c) (m : Nat) (back : Bool) (i : Nat) (d : BitVec 5) (a : Atomic) (n : Nat) :
    Form h (s.atomicHere m back c i d a n) := .ite (hs.lostHere hc _ _ _ _) ((hs.doAtomic _ _).answerOn _ _ _ _)

theorem Form.atomicFar (hs : Form h s) (m : Nat) (back : Bool) (w : BitVec 64) (args : List (BitVec 64)) :
    Form h (s.atomicFar m back w args) := by
  unfold State.atomicFar
  dsimp only
  refine Form.answerOn ?_ _ _ _ _
  split
  · exact .ite hs (Form.writeHome hs.same _ _)
  · exact hs

theorem Form.forward (hs : Form h s) (m : Nat) (back : Bool) (w : BitVec 64) (args : List (BitVec 64)) (home : Nat) :
    Form h (s.forward m back w args home) := by
  unfold State.forward
  split
  · exact Form.sendOn hs.same _ _ _
  · exact hs

theorem Form.sendBack (hs : Form h s) (w : BitVec 64) (args : List (BitVec 64)) : Form h (s.sendBack w args) := by
  unfold State.sendBack
  split
  · exact Form.answerOn hs.same _ _ _ _
  · exact hs

theorem Form.answered (hs : Form h s) (hc : CtxForm h c) (a : Atomic) (old : BitVec 64) : Form h (s.answered c a old) := by
  have h1 : Form h (if s.homeDie a.pa < 3 then s
      else match farValue (amoCode a) a.size old a.val (a.cmp.getD 0) with
        | some w => s.writeQuiet 0xFFFF (place a.pa (bytesOfNat (a.size.bits / 8) w.toNat))
        | none => s) := by
    refine .ite hs ?_
    split
    · exact hs.writeQuiet _ _
    · exact hs
  exact h1.setCtx (CtxForm.deliver (.getD (fun _ => h1.ctx) hc) _)

theorem Form.redArrives (hs : Form h s) (m : Nat) (back : Bool) (r : Red) : Form h (s.redArrives m back r) := by
  unfold State.redArrives
  split
  · exact hs.same
  · exact hs.answerOn _ _ _ _

theorem Form.redAcked (hs : Form h s) (r : Red) : Form h (s.redAcked r) := by
  have h1 : Form h (if r.stage = .sent then (if r.kind = 3 then s.applyShape r else s.applyValue r) else s) :=
    .ite (.ite (hs.applyShape _) (hs.applyValue _)) hs
  exact h1.same

theorem Form.tryRed (hs : Form h s) (r : Red) : Form h (s.tryRed r) := by
  unfold State.tryRed
  split
  · refine .ite (Form.getD (fun t e => ?_) hs) hs
    obtain ⟨u, hu, rfl⟩ := Option.map_eq_some_iff.mp e
    exact (hs.applyRed hu).ackRed r
  · exact hs

theorem Form.takeRed (hs : Form h s) (m : Nat) (back : Bool) (w : BitVec 64) (args : List (BitVec 64)) :
    Form h (s.takeRed m back w args) := by
  unfold State.takeRed
  split
  · exact (hs.redArrives _ _ _).tryRed _
  · exact .ite (hs.answerOn _ _ _ _) (Form.tryRed hs.same _)

theorem Form.farRead (hs : Form h s) (r : Far) (v : BitVec 64) : Form h (s.farRead r v) :=
  (hs.storeHome 0xFFFF (place r.pa (bytesOfNat 8 v.toNat))).same

theorem Form.performMsg (hs : Form h s) (m : Nat) (back : Bool) (msg : List (BitVec 64)) : Form h (s.performMsg m back msg) := by
  unfold State.performMsg
  split
  · exact hs
  · next w args =>
    have relayed : Form h (if decide (64 ≤ m) then s.sendBack w args else s) := .ite (hs.sendBack _ _) hs
    refine .ite (hs.forward _ _ _ _ _) ?_
    split
    · exact hs.answerOn _ _ _ _
    · split
      · exact hs.farRead _ _
      · exact relayed
    · exact (Form.writeHome hs.same _ _).answerOn _ _ _ _
    · split
      · exact hs.same
      · split
        · exact hs.redAcked _
        · exact relayed
    · split
      · next e =>
        split at e
        · cases e
        · exact hs.atomicHere (hs.waiting e) _ _ _ _ _ _
      · exact hs.atomicFar _ _ _ _
    · split
      · next e =>
        split at e
        · cases e
        · exact .ite (hs.answered (hs.waiting e) _ _) relayed
      · exact relayed
    · exact hs.takeRed _ _ _ _
    · exact hs

theorem Form.serve (hs : Form h s) (held : List (Nat × Nat)) (ms : List (Nat × Bool × List (BitVec 64))) :
    Form h (s.serve held ms) := by
  induction ms generalizing s held with
  | nil => exact hs
  | cons m r ih => exact .ite (ih hs.same _) (ih (hs.performMsg _ _ _) _)

theorem Form.serveInbox (hs : Form h s) : Form h s.serveInbox := by
  unfold State.serveInbox
  split
  · exact hs
  · exact Form.serve hs.same _ _

theorem Form.receiveAll (hs : Form h s) (m : Nat) (back : Bool) (ms : List (List (BitVec 64))) : Form h (s.receiveAll m back ms) :=
  Form.serveInbox hs.same

theorem Form.execFlitReceive (hs : Form h s) {m up f} : OutForm h (execFlitReceive m up f s) :=
  .ite hs (.ite (hs.setLink _ _) (Form.ite ((hs.setLink _ _).receiveAll _ _ _) (hs.setLink _ _)))

theorem Form.widthChange (hs : Form h s) (m : Nat) (num : BitVec 16) : Form h (s.widthChange m num) := hs.same

theorem Form.execLinkRetrain (hs : Form h s) {m} : OutForm h (execLinkRetrain m s) := .ite (hs.setLink _ _) hs

theorem Form.execRetrainComplete (hs : Form h s) {m} : OutForm h (execRetrainComplete m s) := .ite ((hs.setLink _ _).widthChange _ _) hs

theorem Form.sendAhead (hs : Form h s) (m : Nat) (up : Bool) (msg : List (BitVec 64)) : Form h (s.sendAhead m up msg) := hs.setLink _ _

theorem Form.moveMsgs (hs : Form h s) (q : Nat) (up : Bool) (ms : List (List (BitVec 64))) : Form h (s.moveMsgs q up ms) := by
  induction ms with
  | nil => exact hs
  | cons m r ih =>
    unfold State.moveMsgs
    dsimp only
    split
    · exact ih.sendAhead _ _ _
    · exact ih

theorem Form.judgePair (hs : Form h s) (q : Nat) : Form h (s.judgePair q) := .ite (hs.doom _) hs

theorem Form.execModuleDisable (hs : Form h s) {m} : OutForm h (execModuleDisable m s) :=
  .ite (((((hs.setLink _ _).moveMsgs _ _ _).moveMsgs _ _ _).widthChange _ _).judgePair _) hs

theorem Form.foldSendAhead (hs : Form h s) (m : Nat) (up : Bool) (ms : List (List (BitVec 64))) :
    Form h (ms.foldr (fun x t => t.sendAhead m up x) s) := by
  induction ms with
  | nil => exact hs
  | cons x r ih => exact ih.sendAhead _ _ _

theorem Form.execLinkFailReroute (hs : Form h s) {m other} : OutForm h (execLinkFailReroute m other s) :=
  .ite (((hs.setLink _ _).foldSendAhead _ _ _).widthChange _ _) hs

theorem Form.clockArrives (hs : Form h s) (k : Nat) (n : Word) (ts : List Nat) : Form h (s.clockArrives k n ts) := by
  induction ts generalizing s with
  | nil => exact hs
  | cons t r ih => exact ih (.ite hs.same hs)

theorem Form.execClockMessageSend (hs : Form h s) {die count} : OutForm h (execClockMessageSend die count s) :=
  .ite (hs.clockArrives _ _ _) hs

theorem Form.batchArrives (hs : Form h s) (t : Nat) (b : Batch) : Form h (s.batchArrives t b) := hs.same

theorem Form.applyBatch (hs : Form h s) (t : Nat) (b : Batch) : Form h (s.applyBatch t b) := by
  unfold State.applyBatch
  exact Form.writeHome hs.same _ _

theorem Form.execBatchApply (hs : Form h s) {die b} : OutForm h (execBatchApply die b s) := by
  have h1 : Form h (if s.batchNew (die % 3) b then s.batchArrives (die % 3) b else s) := .ite (hs.batchArrives _ _) hs
  refine .ite (.ite (h1.applyBatch _ _) h1) (.ite ?_ (hs.writeQuiet _ _))
  split
  · exact Form.writeQuiet hs.same _ _
  · exact hs

end

/-! ## Containment, adapters, harts and reset (Machine/Reliability) -/

section
variable {m : Mem}

theorem MemForm.loseGrans {loc : Bool} (hm : MemForm h loc m) (gs : List Nat) : MemForm h loc (loseGrans m gs) := by
  induction gs generalizing m with
  | nil => exact hm
  | cons g r ih =>
    unfold Machine.loseGrans
    exact ih (hm.lose _ _ _)

theorem MemForm.dropStack (hm : MemForm h false m) (lo hi : Nat) : MemForm h false (m.dropStack lo hi) := by
  intro e
  obtain ⟨⟨hc, hu⟩, ht⟩ := (Mem.wf_iff m).mp (hm e).1
  exact ⟨(Mem.wf_iff _).mpr ⟨⟨canon_filter _ hc, canon_filter _ hu⟩, canon_filter _ ht⟩, nofun⟩

end

section
variable {s : State} {c : Ctx}

theorem CtxForm.loseLocal (hc : CtxForm h c) (sa : Space) (a : Nat) : CtxForm h (c.loseLocal sa a) := by
  cases sa with
  | sp => exact .ite ⟨hc.sp.lose _ _ _, hc.can⟩ hc
  | can => exact .ite ⟨hc.sp, hc.can.lose _ _ _⟩ hc
  | global => exact hc

theorem Form.execPatrolScrub (hs : Form h s) {place space addr found} : OutForm h (execPatrolScrub place space addr found s) := by
  unfold Machine.execPatrolScrub
  split
  · exact .ite (hs.bump _ _) hs
  · exact hs.bump _ _
  · exact hs.setCore _ _
  · exact (hs.setCore _ _).bump _ _
  · exact (hs.setCore _ _).bump _ _
  · exact .ite (Form.bump hs.same _ _) hs
  · exact hs
  · exact hs
  · exact hs
  · exact .ite ⟨hs.dram.lose _ _ _, hs.ctxs⟩ hs
  · exact hs.bump _ _
  · exact hs
  · split
    · exact hs
    · exact hs.bump _ _
    · next e => exact hs.setCtx ((hs.ctx e).loseLocal _ _)

theorem Form.execBusRepair (hs : Form h s) {die lane} : OutForm h (execBusRepair die lane s) := .ite hs.same hs

theorem Form.relocate (hs : Form h s) (hc : CtxForm h c) (p b : Nat) : Form h (s.relocate c p b) := hs.setCtx hc.same

theorem Form.moveCtx (hs : Form h s) (u : FenceUnit) (cid p : Nat) : Form h (s.moveCtx u cid p) := by
  unfold State.moveCtx
  split
  · next e _ =>
    have hc := hs.ctx e
    refine .ite ?_ hs
    split
    · split
      · exact .ite (hs.relocate hc _ _) hs
      · exact hs
    · exact .ite (hs.relocate hc _ _) hs
  · exact hs

theorem Form.moveAll (hs : Form h s) (u : FenceUnit) (ms : List (Nat × Nat)) : Form h (s.moveAll u ms) := by
  induction ms generalizing s with
  | nil => exact hs
  | cons m r ih => exact ih (hs.moveCtx _ _ _)

theorem Form.execCoreFence (hs : Form h s) {u persistent moves} : OutForm h (execCoreFence u persistent moves s) := by
  refine .ite hs (.ite ?_ ?_)
  · cases u with
    | core p => exact .ite (hs.setCore _ _) ((hs.fenceOff _).moveAll _ _)
    | cluster k => exact (hs.fenceOff _).moveAll _ _
    | matrix k => exact (hs.fenceOff _).moveAll _ _
  · cases u with
    | core p => exact hs.bump _ _
    | cluster k => exact hs
    | matrix k => exact hs

theorem Form.abortAll (hs : Form h s) (status : BitVec 8) (ls : List (BitVec 48)) : Form h (s.abortAll status ls) := by
  induction ls generalizing s with
  | nil => exact hs
  | cons l r ih => exact ih (hs.abortLaunch _ _)

theorem Form.wantAll (hs : Form h s) (ps : List Nat) : Form h (s.wantAll ps) := by
  induction ps generalizing s with
  | nil => exact hs
  | cons p r ih =>
    unfold State.wantAll
    refine ih ?_
    split
    · next e => exact .ite (hs.keep (hs.activeCtx e).same) hs
    · exact hs

theorem Form.leaveAll (hs : Form h s) (ps : List Nat) : Form h (s.leaveAll ps) := by
  induction ps generalizing s with
  | nil => exact hs
  | cons p r ih => exact ih (hs.leave p)

theorem CtxForm.resend (hc : CtxForm h c) (s : State) (d : Nat) : CtxForm h (c.resend s d) := by
  unfold Ctx.resend
  split
  · exact .ite hc.same hc
  · exact hc

theorem resend_cid (s : State) (d : Nat) (c : Ctx) : (c.resend s d).cid = c.cid := by
  unfold Ctx.resend
  split
  · split <;> rfl
  · rfl

theorem Form.recheck (hs : Form h s) (n : Nat) : Form h (s.recheck n) := .ite hs (.ite (hs.stopQueue _ _ _ _) (hs.setQueue _ _))

theorem Form.recheckAll (hs : Form h s) (ns : List Nat) : Form h (s.recheckAll ns) := by
  induction ns generalizing s with
  | nil => exact hs
  | cons n r ih => exact ih (hs.recheck n)

theorem Form.stayPut (hs : Form h s) (d : Nat) : Form h (s.stayPut d) := by
  have h1 (ms : List Move) : Form h (ms.foldl (fun t m =>
      t.writeQuiet 0xFFFF (place m.leaf (bytesOfNat 8 (t.dram.word m.leaf 8 &&& ~~~busyBit).toNat))) s) :=
    List.foldlRecOn _ _ hs fun _ ht _ _ => ht.writeQuiet _ _
  have h2 (t : State) (ht : Form h t) (ms : List Move) : Form h { t with moves := ms } := ht.same
  exact h2 _ (h1 _) _

theorem Form.dropDie (hs : Form h s) (d : Nat) : Form h (s.dropDie d) := by
  have h1 := (hs.stayPut d).abortAll 0x12 ((s.stayPut d).hitBy d)
  exact ⟨(h1.dram.loseGrans _).dropStack _ _, h1.ctxs.map (fun _ hc => hc.resend _ _) (resend_cid _ _)⟩

theorem Form.execDieDrop (hs : Form h s) {die} : OutForm h (execDieDrop die s) := by
  have h1 := ((hs.leaveAll (s.cores.map Prod.fst)).dropDie die).recheckAll
  have h2 (t : State) (ht : Form h t) (es : List Event) : Form h { t with events := es } := ht.same
  exact .ite hs (.ite (h2 _ ((h1 _).abortAll _ _) _) (hs.wantAll _))

theorem Form.adapterFault (hs : Form h s) (bs : List Byte) : Form h (s.adapterFault bs) := hs.same

theorem Form.recordHart (hs : Form h s) (hart : Nat) (as : List Nat) : Form h (s.recordHart hart as) := hs.same

theorem Form.reply (hs : Form h s) (who : Nat) (r : Reply) : Form h (s.reply who r) := hs.same

theorem Form.runUnit (hs : Form h s) (j : BusJob) (u : Nat × Nat) : Form h (s.runUnit j u).2 := by
  unfold State.runUnit
  split
  · rw [apply_ite Prod.snd]
    exact .ite hs (.ite ((hs.writeHart _ _).recordHart _ _) (hs.writeHome _ _))
  · exact hs

theorem Form.runJob (hs : Form h s) (j : BusJob) : Form h (s.runJob j) := by
  unfold State.runJob
  split
  · exact hs.reply _ _
  · have h1 (u : Nat × Nat) := hs.runUnit j u
    exact .ite ((h1 _).reply _ _) (h1 _).same

theorem Form.startJob (hs : Form h s) (who pa : Nat) (op : BusOp) (via : Option (BitVec 16 × Nat)) : Form h (s.startJob who pa op via) :=
  hs.runJob _

theorem Form.refuseBus (hs : Form h s) (port : Nat) (addr : BitVec 64) (rid : BitVec 16) (cause : Nat) (req : BusReq) :
    Form h (s.refuseBus port addr rid cause req) := Form.adapterFault (.ite hs (hs.reply _ _)) _

theorem Form.onToPeer (hs : Form h s) (port pa : Nat) (op : BusOp) : Form h (s.onToPeer port pa op) := hs.same

theorem Form.invalidated (hs : Form h s) (rid : Nat) : Form h (s.invalidated rid) := hs.same

theorem Form.answerAsk (hs : Form h s) (port : Nat) (rid : BitVec 16) (root : BitVec 64) (va : Nat) :
    Form h (s.answerAsk port rid root va) := by
  unfold State.answerAsk
  split
  · exact hs
  · exact Form.reply hs.same _ _

theorem Form.busRequest (hs : Form h s) (port : Nat) (rid : BitVec 16) (addr : BitVec 64) (req : BusReq) :
    OutForm h (s.busRequest port rid addr req) := by
  unfold State.busRequest
  dsimp only
  cases req with
  | invalidated => exact hs
  | plain op =>
    dsimp only
    split
    · exact hs.refuseBus _ _ _ _ _
    · exact hs
    · next e =>
      have h1 := hs.reachPage e
      exact .ite (h1.onToPeer _ _ _) (.ite hs (h1.startJob _ _ _ _))
  | ask write =>
    refine .ite (hs.reply _ _) ?_
    split
    · exact hs.refuseBus _ _ _ _ _
    · exact hs
    · next e => exact (hs.reachPage e).answerAsk _ _ _ _
  | ready op =>
    dsimp only
    split
    · exact .ite (hs.onToPeer _ _ _) (.ite hs (hs.startJob _ _ _ _))
    · exact hs.refuseBus _ _ _ _ _

theorem Form.execAdapterRequest (hs : Form h s) {port rid addr req} : OutForm h (execAdapterRequest port rid addr req s) :=
  .ite hs (.ite (hs.invalidated _) (.ite (hs.refuseBus _ _ _ _ _) (hs.busRequest _ _ _ _)))

theorem Form.execAerEvent (hs : Form h s) {port} : OutForm h (execAerEvent port s) := .ite (hs.adapterFault _) hs

theorem Form.setHartTlb (hs : Form h s) (hart : Nat) (ts : List TlbEnt) : Form h (s.setHartTlb hart ts) := hs.same

theorem Form.xform_hartReach (hs : Form h s) (hart : Nat) (v : HartVia) (va : Nat) (op : BusOp) : XForm h (s.hartReach hart v va op) := by
  unfold State.hartReach
  dsimp only
  split
  · trivial
  · split
    · trivial
    · split
      · split
        · trivial
        · split
          · trivial
          · exact hs
      · split
        · trivial
        · split
          · trivial
          · split
            · trivial
            · exact (hs.markLeaf _).same

theorem Form.hartAccess (hs : Form h s) {s0 : State} (h0 : Form h s0) (hart pa : Nat) (op : BusOp) (via : Option (BitVec 16 × Nat)) :
    OutForm h (s0.hartAccess hart pa op via s) :=
  .ite (.ite (Form.ite (hs.reply _ _) hs) (hs.reply _ _)) (.ite (hs.reply _ _) (.ite h0 (hs.startJob _ _ _ _)))

theorem Form.execHartMemoryAccess (hs : Form h s) {hart place op} : OutForm h (execHartMemoryAccess hart place op s) := by
  refine .ite hs ?_
  cases place with
  | phys pa => exact hs.hartAccess hs _ _ _ _
  | virt v va =>
    have h0 : Form h (if v.fence then s.setHartTlb hart [] else s) := .ite (hs.setHartTlb _ _) hs
    refine .ite hs ?_
    dsimp only
    split
    · exact h0.reply _ _
    · exact h0
    · next e => exact ((h0.xform_hartReach _ _ _ _).ok e).hartAccess h0 _ _ _ _

theorem Form.fenceDie (hs : Form h s) (d : Nat) : Form h (s.fenceDie d) := ⟨hs.dram.dropStack _ _, hs.ctxs⟩

theorem Form.applyMap (hs : Form h s) : Form h s.applyMap := by
  have h1 : Form h (s.mapDies.foldl State.fenceDie s) := List.foldlRecOn _ _ hs fun _ ht d _ => ht.fenceDie d
  have h2 (ps : List Nat) : Form h (ps.foldl (fun t p => t.setCore p { t.core p with fenced := true })
      (s.mapDies.foldl State.fenceDie s)) := List.foldlRecOn _ _ h1 fun _ ht p _ => ht.setCore p _
  have h3 (t : State) (ht : Form h t) (ks : List Nat) (us : SMap Hart) : Form h { t with fencedMx := ks, harts := us } := ht.same
  unfold State.applyMap
  exact List.foldlRecOn _ _ (h3 _ (h2 _) _ _) fun t ht d _ => .ite (ht.doom d) ht

theorem Form.applyRepairs (hs : Form h s) : Form h s.applyRepairs := hs.same

theorem CtxsForm.nil : CtxsForm h [] where
  each _ hx := absurd hx List.not_mem_nil
  sorted _ := rfl
  cids _ _ hx := absurd hx List.not_mem_nil

theorem Form.reset : Form h State.reset := ⟨.empty, .nil⟩

theorem Form.execResetRelease : OutForm h (execResetRelease s) := by
  have h1 (t : State) (ht : Form h t) : Form h (if s.bootHart.isSome then t.applyMap.applyRepairs else t.applyMap) :=
    .ite ht.applyMap.applyRepairs ht.applyMap
  exact h1 _ (Form.reset).same

end

/-! ## Dispatch (Machine/Dispatch) -/

/-- Every instruction keeps the invariant. -/
theorem Form.exec {s : State} (hs : Form h s) (i : Instr) : OutForm h (exec i s) := by
  cases i with
  | aclr | acvt | ald | ast | mma | mmab | mmas | mmts | nrm | sca | setx => exact hs.matrixWord
  | add | addi | and | andi | clz | div | divn | max | maxn | min | minn | mod | modn | mov | movh | movi | mul | mulh
  | mulhn | not | or | ori | popc | shl | shli | shr | shri | sra | srai | sub | subi | xor | xori => exact hs.scalarWord
  | addp | madp | subp => exact hs.pairWord
  | amo => exact hs.execAmo
  | amoc => exact hs.execAmoc
  | cmp | cmpi => exact hs.predWord
  | cpy | dup => exact hs.plainCopy
  | ld | ldp => exact hs.loadWord
  | rngb | vabs | vneg | vadd | vsub | vmul | vmin | vmax | vand | vor | vxor | vnot | vbcst | vchk | vclmp | vcmp | vcnt
  | vcvt | vdqn | vqnt | vexp2 | vlog2 | vrcp | vrsq | vfma | vfms | vgth | vsct | vidx | vmov | vmsk | vperm | vshuf | vsld
  | vrmx | vsum | vscl | vsel | vshl | vshr | vsra => exact hs.vectorWord
  | st | stp => exact hs.storeWord
  | wcha | wchd => exact hs.watchWord
  | abend => exact hs.execAbend
  | abop => exact hs.execAbop
  | bars => exact hs.execBars
  | br => exact hs.execBr
  | bra => exact hs.execBra
  | call => exact hs.execCall
  | canf => exact hs.execCanf
  | canr => exact hs.execCanr
  | cset => exact hs.execCset
  | cwait => exact hs.execCwait
  | csrr => exact hs.execCsrr
  | csrw => exact hs.execCsrw
  | ctbl => exact hs.execCtbl
  | ctxl => exact hs.execCtxl
  | ctxs => exact hs.execCtxs
  | dbrk => exact hs.execDbrk
  | drain => exact hs.execDrain
  | eret => exact hs.execEret
  | fence => exact hs.execFence
  | fork => exact hs.execFork
  | join => exact hs.execJoin
  | gthr => exact hs.execGthr
  | halt => exact hs.execHalt
  | hint => exact hs.execHint
  | jmp => exact hs.execJmp
  | lbrd => exact hs.execLbrd
  | lege => exact hs.execLege
  | lexit => exact hs.execLexit
  | lnch => exact hs.execLnch
  | loop => exact hs.execLoop
  | lstat => exact hs.execLstat
  | mark => exact hs.execMark
  | migr => exact hs.execMigr
  | nop => exact hs.execNop
  | oabt => exact hs.execOabt
  | ocmt => exact hs.execOcmt
  | otsk => exact hs.execOtsk
  | plld => exact hs.execPlld
  | plsw => exact hs.execPlsw
  | red => exact hs.execRed
  | redf => exact hs.execRedf
  | redo => exact hs.execRedo
  | ret => exact hs.execRet
  | rqnt => exact hs.execRqnt
  | sctr => exact hs.execSctr
  | sel => exact hs.execSel
  | semi => exact hs.execSemi
  | semr => exact hs.execSemr
  | sig => exact hs.execSig
  | spf => exact hs.execSpf
  | sstr => exact hs.execSstr
  | tlbi => exact hs.execTlbi
  | trap => exact hs.execTrap
  | wait => exact hs.execWait
  | waitm => exact hs.execWaitm
  | xfer => exact hs.execXfer
  | zfil => exact hs.execZfil
  | resultLand => exact hs.execResultLand
  | engineCommandStart => exact hs.execEngineCommandStart
  | copyUnit => exact hs.execCopyUnit
  | commandSignal => exact hs.execCommandSignal
  | matrixWordRetire => exact hs.execMatrixWordRetire
  | legCountEnd => exact hs.execLegCountEnd
  | legPin => exact hs.execLegPin
  | legCommit => exact hs.execLegCommit
  | barrierComplete => exact hs.execBarrierComplete
  | memberRetire => exact hs.execMemberRetire
  | launchComplete => exact hs.execLaunchComplete
  | completionRecordWrite => exact hs.execCompletionRecordWrite
  | qcbaEnable => exact hs.execQcbaEnable
  | qcbaDisable => exact hs.execQcbaDisable
  | qdoorWrite => exact hs.execQdoorWrite
  | launchIntake => exact hs.execLaunchIntake
  | rendezvousDepTest => exact hs.execRendezvousDepTest
  | launchPlace => exact hs.execLaunchPlace
  | launchAgeing => exact hs.execLaunchAgeing
  | launchReserve => exact hs.execLaunchReserve
  | preempt => exact hs.execPreempt
  | contextSwitch => exact hs.execContextSwitch
  | contextStreamOut => exact hs.execContextStreamOut
  | contextStreamIn => exact hs.execContextStreamIn
  | planeFillComplete => exact hs.execPlaneFillComplete
  | faultRecordSend => exact hs.execFaultRecordSend
  | handlerStart => exact hs.execHandlerStart
  | frespResume => exact hs.execFrespResume
  | frespAbort => exact hs.execFrespAbort
  | eventRingWrite => exact hs.execEventRingWrite
  | shgoPage => exact hs.execShgoPage
  | shgoAsid => exact hs.execShgoAsid
  | shgoAll => exact hs.execShgoAll
  | shootdownComplete => exact hs.execShootdownComplete
  | hstartGo => exact hs.execHstartGo
  | hstartHold => exact hs.execHstartHold
  | stopgoResume => exact hs.execStopgoResume
  | stopgoImage => exact hs.execStopgoImage
  | cycleMatchStop => exact hs.execCycleMatchStop
  | pcapWrite => exact hs.execPcapWrite
  | icapWrite => exact hs.execIcapWrite
  | cspillWrite => exact hs.execCspillWrite
  | msiaWrite => exact hs.execMsiaWrite
  | evbaseWrite => exact hs.execEvbaseWrite
  | registerWrite => exact hs.execRegisterWrite
  | flitTransmit => exact hs.execFlitTransmit
  | flitReceive => exact hs.execFlitReceive
  | nakTimer => exact hs.execNakTimer
  | idleTimer => exact hs.execIdleTimer
  | replayTimeout => exact hs.execReplayTimeout
  | linkRetrain => exact hs.execLinkRetrain
  | retrainComplete => exact hs.execRetrainComplete
  | moduleDisable => exact hs.execModuleDisable
  | linkFailReroute => exact hs.execLinkFailReroute
  | clockMessageSend => exact hs.execClockMessageSend
  | batchApply => exact hs.execBatchApply
  | reductionApply => exact hs.execReductionApply
  | promotionComplete => exact hs.execPromotionComplete
  | migrationMove => exact hs.execMigrationMove
  | taskStart => exact hs.execTaskStart
  | taskAbort => exact hs.execTaskAbort
  | taskCommit => exact hs.execTaskCommit
  | patrolScrub => exact hs.execPatrolScrub
  | busRepair => exact hs.execBusRepair
  | coreFence => exact hs.execCoreFence
  | dieDrop => exact hs.execDieDrop
  | adapterRequest => exact hs.execAdapterRequest
  | aerEvent => exact hs.execAerEvent
  | hartMemoryAccess => exact hs.execHartMemoryAccess
  | resetRelease => exact Form.execResetRelease
  | illegalEncoding => exact hs.execIllegalEncoding
  | islandFrequencyChange => exact hs.execIslandFrequencyChange

/-! ## Issuing words, the clock and the step (Machine/Issue, Machine/Step) -/

section
variable {s s0 : State} {c : Ctx}

theorem Form.execNext (hs : Form h s) {i : Instr} {t : State} (e : Machine.exec i s = .next t) : Form h t := (hs.exec i).next e

theorem Form.imprecise (hs : Form h s) (hc : CtxForm h c) (k : Nat × Word) : Form h (s.imprecise c k) :=
  .ite (hs.suspend hc.same _ _ _ _) (hs.waitSafe hc)

theorem Form.forkedWord (hs : Form h s) (hc : CtxForm h c) (p : Nat) (q : Sq) : OutForm h (forkedWord s p q c) := by
  have h1 : Form h { s.setCtx (c.landDue (some q)) with focus := (p, q) } := (hs.setCtx (hc.landDue _)).same
  have hc1 := hc.landDue (some q)
  unfold Machine.forkedWord
  dsimp only
  split
  · exact h1.stalled
  · exact h1.issued (hc1.onSeqr _ _)
  · exact h1.trapHere hc1 _ _
  · exact h1.exec _
  · exact h1.exec _

theorem Form.coverMarks (hs : Form h s) (cid : Nat) (q : Sq) (same : Bool) : Form h (s.coverMarks cid q same) := by
  unfold State.coverMarks
  split
  · next e => exact hs.setCtx (hs.ctx e).same
  · exact hs

theorem Form.runForked (hs : Form h s) (hc : CtxForm h c) (p : Nat) (q : Sq) : OutForm h (runForked s p q c) := by
  have hc1 : CtxForm h (if q = .ctl then { c with marks := c.marks.map Marker.close } else c) := .ite hc.same hc
  have h1 := hs.setCtx hc1
  have hf := h1.forkedWord hc1 p q
  refine .ite h1.same ?_
  split
  · next e => exact Form.ite ((hf.next e).coverMarks _ _ _) (hf.next e)
  · exact hf

theorem Form.discard (hs : Form h s) (h0 : Form h s0) (hc : CtxForm h c) (q : Sq) : Form h (discard s0 c q s) := by
  unfold Machine.discard
  split
  · exact (Form.keep (.ite hs h0) hc.same).stalled
  · exact h0.stalled

theorem Form.adopt (hs : Form h s) (h0 : Form h s0) (hc : CtxForm h c) (q : Sq) : Form h (adopt s0 c q s) := by
  unfold Machine.adopt
  split
  · exact Form.suspend (.ite hs.same h0) hc _ _ _ _
  · exact h0.stalled

theorem Form.adoptGone (hs : Form h s) (h0 : Form h s0) (hc : CtxForm h c) (q : Sq) (i : Instr) : Form h (adoptGone s0 c q i s) := by
  unfold Machine.adoptGone
  split
  · exact (h0.breakAt hc _ _).same
  · exact hs

theorem Form.keepJoined (hs : Form h s) (cid : Nat) : Form h (s.keepJoined cid) := by
  unfold State.keepJoined
  split
  · next e => exact hs.setCtx (hs.ctx e).same
  · exact hs

theorem Form.breakIn (hs : Form h s) (h0 : Form h s0) (hc : CtxForm h c) {p : Nat} {ws : List (Sq × Instr)} {t : State}
    (e : breakIn s0 p c ws s = some t) : Form h t := by
  induction ws generalizing s with
  | nil => cases e
  | cons w r ih =>
    unfold Machine.breakIn at e
    split at e
    · next e1 =>
      have h1 := Form.execNext (s := { s with focus := (p, w.1) }) hs.same e1
      split at e
      · exact ih (h1.keepJoined _) e
      · exact ih hs e
      · cases e
      · split at e
        · split at e
          · cases e; exact h1.adoptGone h0 hc _ _
          · cases e
        · cases e
    · cases e

theorem Form.askedBy (h0 : Form h s0) (p : Nat) (q : Sq) (i : Instr) : Form h (askedBy s0 p q i) := by
  unfold Machine.askedBy
  split
  · exact .ite (h0.asking _) h0
  · exact h0

theorem Form.longWord (hs : Form h s) (h0 : Form h s0) (hc : CtxForm h c) (p : Nat) (ws : List (Sq × Instr)) (forked : Bool) :
    OutForm h (longWord s0 p c ws forked s).1 := by
  induction ws generalizing s forked with
  | nil => exact hs
  | cons w r ih =>
    unfold Machine.longWord
    split
    · next e =>
      have h1 := Form.execNext (s := { s with focus := (p, w.1) }) hs.same e
      split
      · exact ih (h1.keepJoined _) _
      · exact h1.discard (.ite h0 (h0.askedBy _ _ _)) hc _
      · exact Form.getD (fun t e1 => hs.breakIn h0 hc e1) (h1.adopt h0 hc _)
      · exact h1.adoptGone h0 hc _ _
    · trivial
    · trivial

theorem CtxForm.payOwed (hc : CtxForm h c) (q : Sq) : CtxForm h (c.payOwed q) := (hc.onSeqr _ _).sigField _

theorem CtxForm.afterReplay (hc : CtxForm h c) : CtxForm h c.afterReplay := .ite hc.same hc.same

theorem Form.endLong (hs : Form h s) (p cid : Nat) (forked : Bool) : Form h (s.endLong p cid forked) := by
  unfold State.endLong
  split
  · exact hs
  · next c e =>
    have h1 := (((((hs.ctx e).payOwed .load).payOwed .store).payOwed .comp).applyTakes s.free c.semS).afterReplay
    exact hs.setCtx h1.same

theorem CtxForm.takeSkews (hc : CtxForm h c) (sl : List (Sq × NextWord)) : CtxForm h (c.takeSkews sl) := by
  induction sl generalizing c with
  | nil => exact hc
  | cons x r ih =>
    unfold Ctx.takeSkews
    split
    · next e => cases e
    · next e => cases e; exact ih (hc.onSeqr _ _)
    · next e => cases e; exact ih hc

theorem Form.longWords (hs : Form h s) (h0 : Form h s0) (hc : CtxForm h c) (p : Nat) (ws : List (Sq × Instr)) :
    OutForm h (longWords s0 p c ws s) := by
  unfold Machine.longWords
  split
  · have hl := hs.longWord h0 hc p (ws.filter (fun x => !isTrapWord x.2)) false
    split
    · next s2 _ e =>
      rw [e] at hl
      refine .ite ?_ hl
      have he := Form.exec (s := { s2.endLong p c.cid false with focus := (p, .ctl) }) (Form.endLong hl _ _ _).same
      split
      · next e1 => exact .ite (((he _).next e1).discard h0 hc _) ((he _).next e1)
      · exact he _
    · next e => rw [e] at hl; exact hl
  · have hl := hs.longWord h0 hc p ws false
    split
    · next e => rw [e] at hl; exact .ite (Form.endLong hl _ _ _) hl
    · next e => rw [e] at hl; exact hl

theorem Form.pastTrap (hs : Form h s) (h0 : Form h s0) (hc : CtxForm h c) (p : Nat) (q : Sq) (ws : List (Sq × Instr)) :
    OutForm h (pastTrap s0 p c q ws s) := by
  unfold Machine.pastTrap
  dsimp only
  split
  · next e => exact hs.breakIn h0 hc e
  · have hl := hs.longWord h0 hc p ((ws.filter (fun x => !isTrapWord x.2)).filter
      (fun x => decide ((Sq.num x.1).toNat < (Sq.num q).toNat))) false
    split
    · next e => rw [e] at hl; exact Form.ite hl (h0.trapHere hc _ _)
    · next e => rw [e] at hl; exact hl

theorem Form.runJoined (hs : Form h s) (hc : CtxForm h c) (p : Nat) : OutForm h (runJoined s p c) := by
  have hc1 := hc.landDue none
  have h0 : Form h { s.setCtx (c.landDue none) with focus := (p, .ctl) } := (hs.setCtx hc1).same
  unfold Machine.runJoined
  dsimp only
  split
  · exact Form.exec h0.same _
  · have h1 (sl : List (Sq × NextWord)) := Form.setCtx h0 (c := { (c.landDue none).takeSkews sl with
      semT := (c.landDue none).sems, semS := (c.landDue none).sems, cbitsT := (c.landDue none).cbits }) (hc1.takeSkews sl).same
    split
    · exact Form.pastTrap (h1 _).same h0 hc1 _ _ _
    · exact .ite (h0.setCtx hc1.same).stalled (Form.longWords (h1 _).same h0 hc1 _ _)

theorem Form.reread (hs : Form h s) (hc : CtxForm h c) (p : Nat) (q : Sq) (off : Nat) : Form h (s.reread p c q off) := by
  unfold State.reread
  split
  · exact hs
  · dsimp only
    split
    · exact hs.trapHere hc _ _
    · exact .ite (hs.trapHere hc _ _) hs.same

theorem Form.runWords (hs : Form h s) (hc : CtxForm h c) (p : Nat) (q : Sq) : OutForm h (runWords s p q c) := by
  have ho : OutForm h (if c.joined then Machine.runJoined s p c else Machine.runForked s p q c) :=
    .ite (hs.runJoined hc _) (hs.runForked hc _ _)
  unfold Machine.runWords
  split
  · exact hs.reread hc _ _ _
  · refine .ite ?_ ho
    split
    · exact .ite ho (hs.exec _)
    · exact ho

theorem Form.runTurn (hs : Form h s) (t : Turn) : OutForm h (runTurn t s) := by
  unfold Machine.runTurn
  split
  · exact .ite (hs.exec _) hs
  · exact .ite hs (hs.exec _)
  · exact hs.exec _
  · split
    · exact hs.stalled
    · next e =>
      have hc := hs.activeCtx e
      refine .ite ?_ hs.stalled
      split
      · exact hs.imprecise hc _
      · exact hs.runWords hc _ _

theorem Form.tick (hs : Form h s) : Form h s.tick := by
  have h1 : Form h (State.serveInbox { s with
    cycle := s.cycle + 1 + BitVec.ofNat 64 (Config.openCycles s.free), free := s.free + 1 }) := Form.serveInbox hs.same
  exact List.foldlRecOn _ _ h1.same fun _ ht j _ => ht.runJob j

theorem Form.stepFree (hs : Form h s) : OutForm h (stepFree s) := by
  unfold Machine.stepFree
  split
  · exact Form.runTurn hs.same.tick _
  · exact hs.tick

/-- Every step keeps the invariant. -/
theorem Form.step (hs : Form h s) : OutForm h (step s) := by
  unfold Machine.step
  split
  · exact Form.runTurn hs.same.tick _
  · exact hs.stepFree

end

end

/-! ## The statement -/

/-- Settles O56: both halves are `Form`, and one long case analysis of the step serves both. -/
theorem stepKeepsMemoryForm : Obligations.StepKeepsMemoryForm :=
  ⟨fun _ _ hm e => form_memory_iff.mp ((form_memory_iff.mpr hm).step.next e),
    fun _ _ hk e => form_numbers_iff.mp ((form_numbers_iff.mpr hk).step.next e)⟩

end Sys2Proof.MemoryForm
end

section
/-!
PROOF. ContainmentSteps fails. What a die drop makes of an off-stack granule that was homed on it and written is said once, for every
state with no context, move or queue (`dieDrop_unit_written`): the granule is lost, unless it counts as gone with its report taken,
and then it reads as vacated, as such a granule does everywhere (log 41). The statement excludes no such granule. No drop makes one, since
only ranges inside the stacks leave the package; the statement is about every state, the canonical ones of O56 included.
-/
namespace Sys2Proof.Containment
open Sys2Proof.Machine

/-! ## Maps -/

section
variable {α : Type} {d : α}

theorem mem_of_get {m : SMap α} {k : Nat} (h : m.get d k ≠ d) : (k, m.get d k) ∈ m := by
  induction m with
  | nil => exact absurd rfl h
  | cons p r ih =>
    simp only [SMap.get] at h ⊢
    split
    · next e => subst e; exact List.mem_cons_self
    · next e => rw [if_neg e] at h; exact List.mem_cons_of_mem _ (ih h)

/-- A key that the filter keeps reads as before. -/
theorem get_filter {p : Nat × α → Bool} (m : SMap α) {k : Nat} (h : ∀ v, p (k, v) = true) :
    SMap.get d (m.filter p) k = m.get d k := by
  induction m with
  | nil => rfl
  | cons x r ih =>
    obtain ⟨k', v⟩ := x
    rw [List.filter_cons]
    by_cases e : k' = k
    · subst e; simp [h, SMap.get]
    · split <;> simp only [SMap.get, if_neg e, ih]

end

/-! ## Granules that are lost -/

@[simp] theorem zero_gone (m : Mem) (a n : Nat) : (m.zero a n).gone = m.gone := by
  induction n generalizing m a with
  | zero => rfl
  | succ n ih => exact ih _ _

@[simp] theorem zero_told (m : Mem) (a n : Nat) : (m.zero a n).told = m.told := by
  induction n generalizing m a with
  | zero => rfl
  | succ n ih => exact ih _ _

@[simp] theorem zero_units (m : Mem) (a n : Nat) : (m.zero a n).units = m.units := by
  induction n generalizing m a with
  | zero => rfl
  | succ n ih => exact ih _ _

/-- To lose a granule of DRAM is to clear its bytes and to mark its one unit. -/
theorem lose_granule (m : Mem) (g : Nat) : m.lose 64 64 (64 * g) = (m.zero (64 * g) 64).mark g .lost := by
  simp [Mem.lose, Mem.markAll, Nat.mul_comm g 64]

@[simp] theorem loseGrans_gone (m : Mem) (gs : List Nat) : (loseGrans m gs).gone = m.gone := by
  induction gs generalizing m with
  | nil => rfl
  | cons g r ih => rw [loseGrans, ih, lose_granule, Mem.mark, zero_gone]

@[simp] theorem loseGrans_told (m : Mem) (gs : List Nat) : (loseGrans m gs).told = m.told := by
  induction gs generalizing m with
  | nil => rfl
  | cons g r ih => rw [loseGrans, ih, lose_granule, Mem.mark, zero_told]

theorem loseGrans_units (m : Mem) (gs : List Nat) (g : Nat) :
    (loseGrans m gs).units.get .vacated g = if g ∈ gs then .lost else m.units.get .vacated g := by
  induction gs generalizing m with
  | nil => rfl
  | cons k r ih =>
    have hk : (m.lose 64 64 (64 * k)).units = m.units.put .vacated k .lost := by
      rw [lose_granule, Mem.mark, zero_units]
    rw [loseGrans, ih, hk]
    by_cases e : g = k
    · subst e; simp
    · simp [SMap.get_put_other _ _ _ e, e]

/-- A granule outside the stack that leaves keeps its state. -/
theorem unit_dropStack_outside (m : Mem) {lo hi g : Nat} (h : ¬ (lo ≤ 64 * g ∧ 64 * g < hi)) :
    (m.dropStack lo hi).unit 64 (64 * g) = m.unit 64 (64 * g) := by
  have hin : (decide (lo ≤ 64 * g) && decide (64 * g < hi)) = false := by
    rw [← Bool.decide_and]; exact decide_eq_false h
  have hg : (m.dropStack lo hi).goneAt (64 * g) = m.goneAt (64 * g) := by simp [Mem.goneAt, Mem.dropStack, hin]
  have ht : (m.dropStack lo hi).told.get false g = m.told.get false g := get_filter _ fun _ => by simp only [hin, Bool.not_false]
  have hu : (m.dropStack lo hi).units.get .vacated g = m.units.get .vacated g := get_filter _ fun _ => by simp only [hin, Bool.not_false]
  have hnum : 64 * g / 64 = g := by omega
  rw [Mem.unit, Mem.unit, hg, hnum, ht, hu]

theorem mem_lostWith {s : State} {d g : Nat} (hoff : stackTop ≤ 64 * g) (hhome : s.homeDie (64 * g) = d)
    (hw : s.written.get false g = true) : g ∈ s.lostWith d := by
  have hm : (g, true) ∈ s.written := hw ▸ mem_of_get (by simp [hw])
  have ht : tierAt (64 * g) = .offstack := if_neg (by omega)
  have hg : g ∈ (s.written.filter Prod.snd).map Prod.fst := List.mem_map.mpr ⟨_, List.mem_filter.mpr ⟨hm, rfl⟩, rfl⟩
  simp [State.lostWith, hhome, ht, List.mem_eraseDups, hg]

/-! ## A drop in a package that runs nothing -/

section
variable {s : State}

theorem leaveAll_of_no_ctxs (hc : s.ctxs = []) (ps : List Nat) : ∃ ks, s.leaveAll ps = { s with cores := ks } := by
  induction ps generalizing s with
  | nil => exact ⟨s.cores, rfl⟩
  | cons p r ih =>
    have hp : s.activeCtx p = none := by
      unfold State.activeCtx State.ctx
      rw [hc]
      split <;> rfl
    have hl : s.leave p = s.setCore p { s.core p with active := none } := by rw [State.leave, hp]
    obtain ⟨ks, hks⟩ := ih (s := s.leave p) (by rw [hl]; exact hc)
    exact ⟨ks, by rw [State.leaveAll, hks, hl]; rfl⟩

theorem stayPut_of_no_moves (hm : s.moves = []) (d : Nat) : s.stayPut d = s := by
  rw [State.stayPut, hm, List.filter_nil, List.foldl_nil, List.filter_nil, ← hm]

theorem hitBy_of_no_ctxs (hc : s.ctxs = []) (d : Nat) : s.hitBy d = [] := by
  rw [State.hitBy, State.allCtxs, hc]; rfl

theorem lostSlots_of_no_ctxs (hc : s.ctxs = []) : s.lostSlots = [] := by
  rw [State.lostSlots, State.allCtxs, hc]; rfl

theorem dropDie_of_idle (hc : s.ctxs = []) (hm : s.moves = []) (d : Nat) :
    (s.dropDie d).dram = (loseGrans s.dram (s.lostWith d)).dropStack (stackBytes * d) (stackBytes * (d + 1)) ∧
      (s.dropDie d).ctxs = [] ∧ (s.dropDie d).queues = s.queues := by
  rw [State.dropDie, stayPut_of_no_moves hm, hitBy_of_no_ctxs hc]
  exact ⟨rfl, by simp [State.abortAll, hc], rfl⟩

/-- The memory after a drop: the written granules of the die, and its stack, are lost. -/
theorem dieDrop_dram_of_idle {d : Nat} (hd : d < 3) (hn : d ∉ s.dropped) (hq : s.quiet d = true) (hc : s.ctxs = [])
    (hm : s.moves = []) (hqs : s.queues = []) : ∃ t, exec (.dieDrop d) s = .next t ∧
      t.dram = (loseGrans s.dram (s.lostWith d)).dropStack (stackBytes * d) (stackBytes * (d + 1)) := by
  have hhere : ¬ (3 ≤ d ∨ s.dropped.contains d = true) := by
    rintro (h | h)
    · omega
    · exact hn (List.contains_iff_mem.mp h)
  have hstep : exec (.dieDrop d) s = execDieDrop d s := rfl
  rw [hstep, execDieDrop, if_neg hhere, if_pos hq]
  refine ⟨_, rfl, ?_⟩
  obtain ⟨ks, hks⟩ := leaveAll_of_no_ctxs hc (s.cores.map Prod.fst)
  generalize s.leaveAll (s.cores.map Prod.fst) = u at hks
  have hlost : u.lostWith d = s.lostWith d := by rw [hks]; rfl
  obtain ⟨hdram, hctxs, hqueues⟩ := dropDie_of_idle (s := u) (by rw [hks]; exact hc) (by rw [hks]; exact hm) d
  have hnone : (u.dropDie d).queues = [] := by rw [hqueues, hks]; exact hqs
  have hu : u.dram = s.dram := by rw [hks]
  simp only [hnone, List.map_nil, State.recheckAll, lostSlots_of_no_ctxs hctxs, State.abortAll]
  rw [hdram, hlost, hu]

/-- An off-stack granule that was homed on the die and written is lost with it, but for one that counts as gone and reported. -/
theorem dieDrop_unit_written {d g : Nat} (hd : d < 3) (hn : d ∉ s.dropped) (hq : s.quiet d = true) (hc : s.ctxs = [])
    (hm : s.moves = []) (hqs : s.queues = []) (hoff : stackTop ≤ 64 * g) (hhome : s.homeDie (64 * g) = d)
    (hw : s.written.get false g = true) : ∃ t, exec (.dieDrop d) s = .next t ∧
      t.dram.unit 64 (64 * g) = if s.dram.goneAt (64 * g) ∧ s.dram.told.get false g = true then .vacated else .lost := by
  obtain ⟨t, ht, hdram⟩ := dieDrop_dram_of_idle hd hn hq hc hm hqs
  have hout : ¬ (stackBytes * d ≤ 64 * g ∧ 64 * g < stackBytes * (d + 1)) := by
    simp only [stackTop, stackBytes] at hoff ⊢; omega
  have hgone : (loseGrans s.dram (s.lostWith d)).goneAt (64 * g) = s.dram.goneAt (64 * g) := by simp [Mem.goneAt]
  have hnum : 64 * g / 64 = g := by omega
  refine ⟨t, ht, ?_⟩
  rw [hdram, unit_dropStack_outside _ hout, Mem.unit, hgone, hnum, loseGrans_told, loseGrans_units,
    if_pos (mem_lostWith hoff hhome hw)]
  by_cases h : s.dram.goneAt (64 * g) = true <;> simp [h]

end

/-! ## The counterexample -/

/-- Right after reset, but for the first granule of the off-stack tier, which is homed on die 0: it was written, and DRAM counts it as gone with
its report taken. -/
def goneOffStack : State :=
  { State.reset with
    dram := { Mem.empty with gone := [(stackTop, stackTop + 64)], told := [(stackTop / 64, true)] }
    written := [(stackTop / 64, true)] }

/-- What O56 keeps does not exclude the state. -/
theorem goneOffStack_form : Safety.MemOk goneOffStack ∧ Safety.Keyed goneOffStack := by
  refine ⟨⟨rfl, ?_⟩, rfl, ?_⟩ <;> intro _ h <;> exact nomatch h

/-- Refutes O51 at its die drop: a written off-stack granule is said to be lost with its home die, and one that counts as gone and
reported reads as vacated after the drop. -/
theorem not_containmentSteps : ¬ Obligations.ContainmentSteps := by
  unfold Obligations.ContainmentSteps
  intro h
  obtain ⟨-, -, -, -, -, -, -, -, -, -, -, hdrop, -⟩ := h goneOffStack 0 0
  obtain ⟨t, ht, -, -, hmem⟩ := hdrop 0 (by decide) (by decide) rfl
  obtain ⟨-, hlost, -⟩ := hmem rfl rfl rfl rfl (stackTop / 64)
  have hw : goneOffStack.written.get false (stackTop / 64) = true := by decide
  have hsaid : t.dram.unit 64 (64 * (stackTop / 64)) = .lost := hlost (by decide) (by decide) hw
  obtain ⟨u, hu, hunit⟩ := dieDrop_unit_written (s := goneOffStack) (d := 0) (g := stackTop / 64)
    (by decide) (by decide) rfl rfl rfl rfl (by decide) (by decide) hw
  have htu : t = u := by simpa using ht.symm.trans hu
  rw [← htu, hsaid, if_pos (by decide)] at hunit
  exact nomatch hunit

end Sys2Proof.Containment
end

section
/-! Retirement and where a sequencer goes (O7, O8). -/
namespace Sys2Proof.CoreRetire
open Sys2Proof Sys2Proof.Machine Sys2Proof.Claims

/-! ## Semaphores -/

@[simp] theorem sem_setSem_self (c : Ctx) (n : BitVec 8) (v : BitVec 20) : (c.setSem n v).sem n = v :=
  SMap.get_put_self 0 c.sems _ v

theorem sem_setSem_other (c : Ctx) {n k : BitVec 8} (v : BitVec 20) (hk : k ≠ n) : (c.setSem n v).sem k = c.sem k :=
  SMap.get_put_other 0 c.sems v (fun e => hk (BitVec.eq_of_toNat_eq e))

/-- A signal changes semaphores and the list of imprecise traps only. -/
theorem signal_cases (c : Ctx) (sem : BitVec 8) (n : Nat) :
    ∃ a i, c.signal sem n = { c with sems := a, impr := i } := by
  unfold Ctx.signal Ctx.setSem
  split
  · exact ⟨_, _, rfl⟩
  · exact ⟨_, _, rfl⟩

theorem sigField_cases (c : Ctx) (sig : BitVec 8) : ∃ a i, c.sigField sig = { c with sems := a, impr := i } := by
  unfold Ctx.sigField
  split
  · exact ⟨_, _, rfl⟩
  · exact signal_cases c sig 1

theorem signal_below {c : Ctx} {sem : BitVec 8} {n : Nat} (h : (c.sem sem).toNat + n ≤ 0xFFFFF) :
    c.signal sem n = c.setSem sem (BitVec.ofNat 20 ((c.sem sem).toNat + n)) := by
  unfold Ctx.signal; rw [if_pos h]

theorem signal_above {c : Ctx} {sem : BitVec 8} {n : Nat} (h : 0xFFFFF < (c.sem sem).toNat + n) :
    c.signal sem n = { c.setSem sem 0xFFFFF with impr := c.impr ++ [(0x28, sem.zeroExtend 32)] } := by
  unfold Ctx.signal; rw [if_neg (by omega)]

theorem signal_sem_other (c : Ctx) {sem k : BitVec 8} (n : Nat) (hk : k ≠ sem) : (c.signal sem n).sem k = c.sem k := by
  unfold Ctx.signal
  split
  · exact sem_setSem_other c _ hk
  · exact sem_setSem_other c 0xFFFFF hk

@[simp] theorem sigField_none (c : Ctx) : c.sigField 0xFF = c := rfl

theorem sigField_some (c : Ctx) {sig : BitVec 8} (h : sig ≠ 0xFF) : c.sigField sig = c.signal sig 1 := if_neg h

@[simp] theorem sigField_seqr (c : Ctx) (sig : BitVec 8) (q : Sq) : (c.sigField sig).seqr q = c.seqr q := by
  obtain ⟨a, i, e⟩ := sigField_cases c sig
  rw [e]; cases q <;> rfl

/-! ## Retirement -/

/-- The sequencer after a word. -/
def moved (x : Seqr) (len : Nat) (j : Jump) : Seqr :=
  { (if j = .stay then x else x.advance len j) with once := { watch := false, dbrk := false } }

/-- Retirement before the header's signal. -/
def retired (c : Ctx) (q : Sq) (len : Nat) (j : Jump) : Ctx :=
  (c.onSeqr q (fun x => moved x len j)).countWord q

theorem retire_eq (c : Ctx) (q : Sq) (len : Nat) (j : Jump) (sig : BitVec 8) :
    c.retire q len j sig = (retired c q len j).sigField sig := rfl

theorem countWord_cases (c : Ctx) (q : Sq) : ∃ l, c.countWord q = { c with leg := l } := by
  cases q
  · exact ⟨_, rfl⟩
  all_goals exact ⟨c.leg, rfl⟩

theorem retired_cases (c : Ctx) (q : Sq) (len : Nat) (j : Jump) :
    ∃ l, retired c q len j = { c.setSeqr q (moved (c.seqr q) len j) with leg := l } :=
  countWord_cases (c.onSeqr q (fun x => moved x len j)) q

/-- What retirement can change: the word's own sequencer, the leg, the semaphores, and the list of imprecise traps. -/
theorem retire_cases (c : Ctx) (q : Sq) (len : Nat) (j : Jump) (sig : BitVec 8) :
    ∃ l a i, c.retire q len j sig = { c.setSeqr q (moved (c.seqr q) len j) with leg := l, sems := a, impr := i } := by
  obtain ⟨l, hl⟩ := retired_cases c q len j
  obtain ⟨a, i, h⟩ := sigField_cases (retired c q len j) sig
  exact ⟨l, a, i, by rw [retire_eq, h, hl]⟩

theorem withLegSemsImpr_seqr (c : Ctx) (l : Option Leg) (a : SMap (BitVec 20)) (i : List (Nat × Word)) (q : Sq) :
    ({ c with leg := l, sems := a, impr := i } : Ctx).seqr q = c.seqr q := by cases q <;> rfl

theorem retire_seqr_self (c : Ctx) (q : Sq) (len : Nat) (j : Jump) (sig : BitVec 8) :
    (c.retire q len j sig).seqr q = moved (c.seqr q) len j := by
  obtain ⟨l, a, i, e⟩ := retire_cases c q len j sig
  rw [e, withLegSemsImpr_seqr, Ctx.setSeqr_self]

theorem retire_seqr_other (c : Ctx) {q p : Sq} (len : Nat) (j : Jump) (sig : BitVec 8) (hp : p ≠ q) :
    (c.retire q len j sig).seqr p = c.seqr p := by
  obtain ⟨l, a, i, e⟩ := retire_cases c q len j sig
  rw [e, withLegSemsImpr_seqr, Ctx.setSeqr_other c _ hp]

@[simp] theorem retired_sem (c : Ctx) (q : Sq) (len : Nat) (j : Jump) (n : BitVec 8) : (retired c q len j).sem n = c.sem n := by
  obtain ⟨l, e⟩ := retired_cases c q len j
  rw [e]; simp [Ctx.sem]

@[simp] theorem retired_impr (c : Ctx) (q : Sq) (len : Nat) (j : Jump) : (retired c q len j).impr = c.impr := by
  obtain ⟨l, e⟩ := retired_cases c q len j
  rw [e]; simp

theorem sigField_leg (c : Ctx) (sig : BitVec 8) : (c.sigField sig).leg = c.leg := by
  obtain ⟨a, i, e⟩ := sigField_cases c sig
  rw [e]

/-! ## Loop tests -/

/-- The loop tests change loop counters only. -/
theorem loopTests_fst (x : Seqr) (idx : Nat) (ls : List LoopSt) : ∃ m, (loopTests x idx ls).1 = { x with lc := m } := by
  induction ls generalizing x with
  | nil => exact ⟨x.lc, rfl⟩
  | cons l ls ih =>
    unfold loopTests
    split
    · split
      · exact ⟨_, rfl⟩
      · obtain ⟨m, hm⟩ := ih (x.setLc l.lc 0)
        exact ⟨m, hm⟩
    · obtain ⟨m, hm⟩ := ih x
      exact ⟨m, hm⟩

/-- Where no loop ends, the tests change nothing. -/
theorem loopTests_none (x : Seqr) (idx : Nat) {ls : List LoopSt} (h : ∀ l ∈ ls, l.last ≠ idx) :
    loopTests x idx ls = (x, ls, none) := by
  induction ls with
  | nil => rfl
  | cons l ls ih =>
    unfold loopTests
    rw [if_neg (h l (by simp)), ih (fun k hk => h k (by simp [hk]))]

/-- A loop with its counter above 1 goes on. -/
theorem loopTests_again (x : Seqr) {l : LoopSt} {idx : Nat} (ls : List LoopSt) (hl : l.last = idx)
    (hc : 1 < (x.lcVal l.lc).toNat) :
    loopTests x idx (l :: ls) = (x.setLc l.lc (x.lcVal l.lc - 1), l :: ls, some l.first) := by
  simp only [loopTests, hl, hc, if_true]

/-- A loop with its counter at most 1 ends, and the next outer one is tested. -/
theorem loopTests_ends (x : Seqr) {l : LoopSt} {idx : Nat} (ls : List LoopSt) (hl : l.last = idx)
    (hc : (x.lcVal l.lc).toNat ≤ 1) : loopTests x idx (l :: ls) = loopTests (x.setLc l.lc 0) idx ls := by
  rw [loopTests, if_pos hl, if_neg (by omega)]

@[simp] theorem lcVal_setLc_self (x : Seqr) (n : BitVec 2) (v : Word) : (x.setLc n v).lcVal n = v :=
  SMap.get_put_self 0 x.lc _ v

theorem lcVal_setLc_other (x : Seqr) {n k : BitVec 2} (v : Word) (hk : k ≠ n) : (x.setLc n v).lcVal k = x.lcVal k :=
  SMap.get_put_other 0 x.lc v (fun e => hk (BitVec.eq_of_toNat_eq e))

/-- A counter at 0 stays at 0. -/
theorem loopTests_lcVal_zero (x : Seqr) (idx : Nat) (ls : List LoopSt) {n : BitVec 2} (h : x.lcVal n = 0) :
    (loopTests x idx ls).1.lcVal n = 0 := by
  induction ls generalizing x with
  | nil => exact h
  | cons l ls ih =>
    unfold loopTests
    split
    · split
      next hc =>
        have hne : n ≠ l.lc := by rintro rfl; rw [h] at hc; exact absurd hc (by decide)
        exact (lcVal_setLc_other x _ hne).trans h
      · refine ih _ ?_
        by_cases hn : n = l.lc
        · rw [hn]; exact lcVal_setLc_self x l.lc 0
        · exact (lcVal_setLc_other x 0 hn).trans h
    · exact ih x h

/-- `advance` leaves everything but the position alone. -/
theorem advance_cases (x : Seqr) (len : Nat) (j : Jump) :
    ∃ p ls m b, x.advance len j = { x with pc := p, loops := ls, lc := m, bcast := b } := by
  obtain ⟨m, hm⟩ := loopTests_fst x x.pc x.loops
  unfold Seqr.advance
  revert hm
  generalize loopTests x x.pc x.loops = r
  obtain ⟨y, ls, back⟩ := r
  rintro rfl
  dsimp only
  split
  · split
    · exact ⟨_, _, _, _, rfl⟩
    · split
      · exact ⟨_, _, _, _, rfl⟩
      · exact ⟨_, _, _, _, rfl⟩
  next hb =>
    split
    · exact ⟨_, _, _, x.bcast, rfl⟩
    · split
      all_goals exact ⟨_, _, _, x.bcast, rfl⟩

theorem moved_keeps (x : Seqr) (len : Nat) (j : Jump) :
    (moved x len j).regs = x.regs ∧ (moved x len j).preds = x.preds ∧ (moved x len j).epc = x.epc ∧
      (moved x len j).latches = x.latches := by
  unfold moved
  obtain ⟨p, ls, m, b, e⟩ := advance_cases x len j
  split
  · exact ⟨rfl, rfl, rfl, rfl⟩
  · rw [e]; exact ⟨rfl, rfl, rfl, rfl⟩

theorem retire_sameData (c : Ctx) (q : Sq) (len : Nat) (j : Jump) (sig : BitVec 8) : SameData (c.retire q len j sig) c := by
  refine ⟨fun p => ?_, ?_⟩
  · by_cases hp : p = q
    · subst hp
      rw [retire_seqr_self]
      exact moved_keeps _ len j
    · rw [retire_seqr_other c len j sig hp]
      exact ⟨rfl, rfl, rfl, rfl⟩
  · obtain ⟨l, a, i, e⟩ := retire_cases c q len j sig
    rw [e]
    simp only [Ctx.setSeqr_v, Ctx.setSeqr_m, Ctx.setSeqr_acc, Ctx.setSeqr_bp, Ctx.setSeqr_desc, Ctx.setSeqr_sticky,
      Ctx.setSeqr_cause, Ctx.setSeqr_tval, Ctx.setSeqr_hen, Ctx.setSeqr_hent, Ctx.setSeqr_cbits, Ctx.setSeqr_flight,
      Ctx.setSeqr_inb, Ctx.setSeqr_outb, Ctx.setSeqr_mx, Ctx.setSeqr_sp, Ctx.setSeqr_can, Ctx.setSeqr_sup,
      Ctx.setSeqr_phase, Ctx.setSeqr_legno, Ctx.setSeqr_ended, Ctx.setSeqr_stat, Ctx.setSeqr_pend, and_self]

/-- The leg after a control word: its count, one up outside a handler. -/
theorem retire_leg_ctl (c : Ctx) (len : Nat) (j : Jump) (sig : BitVec 8) :
    (c.retire .ctl len j sig).leg = c.leg.map (Leg.counted c.isHandler) := by
  rw [retire_eq, sigField_leg]; rfl

theorem retire_leg_other (c : Ctx) {q : Sq} (len : Nat) (j : Jump) (sig : BitVec 8) (hq : q ≠ .ctl) :
    (c.retire q len j sig).leg = c.leg := by
  rw [retire_eq, sigField_leg]
  cases q
  · exact absurd rfl hq
  all_goals rfl

/-- Settles O7: retirement is the move of the own sequencer, the count of the leg and the header's signal. -/
theorem wordRetires : Obligations.WordRetires := by
  unfold Obligations.WordRetires
  intro c q len j sig r
  have hsig (h : sig ≠ 0xFF) : r = (retired c q len j).signal sig 1 := by
    rw [← sigField_some _ h]; rfl
  refine ⟨retire_sameData c q len j sig, fun p hp => retire_seqr_other c len j sig hp, ?_, ?_, ?_, ?_, ?_, ?_, ?_⟩
  · intro hj
    rw [show r.seqr q = _ from retire_seqr_self c q len j sig, moved, if_neg hj]
    exact ⟨rfl, rfl, rfl, rfl⟩
  · rintro rfl
    obtain ⟨l, e⟩ := retired_cases c q len j
    rw [show r = retired c q len j from rfl, e]
    simp
  · intro h n hn
    rw [hsig h, signal_sem_other _ 1 hn, retired_sem]
  · intro h hlt
    have hle : ((retired c q len j).sem sig).toNat + 1 ≤ 0xFFFFF := by rw [retired_sem]; omega
    rw [hsig h, signal_below hle, sem_setSem_self, retired_sem]
    refine ⟨?_, retired_impr c q len j⟩
    rw [BitVec.toNat_ofNat, Nat.mod_eq_of_lt (by omega)]
  · intro h heq
    have hgt : 0xFFFFF < ((retired c q len j).sem sig).toNat + 1 := by rw [retired_sem]; omega
    rw [hsig h, signal_above hgt, retired_impr]
    refine ⟨?_, rfl⟩
    exact (sem_setSem_self (retired c q len j) sig 0xFFFFF).trans (BitVec.eq_of_toNat_eq (by rw [heq]; rfl))
  · rintro rfl l hl hp hh
    rw [show r.leg = _ from retire_leg_ctl c len j sig, hl, hh]
    obtain ⟨⟩ := l
    simp only at hp
    subst hp
    rfl
  · exact fun hq => retire_leg_other c len j sig hq

/-! ## Where a sequencer goes -/

theorem advance_plain {x : Seqr} (len : Nat) (j : Jump) (hb : x.bcast = none) {y : Seqr} {ls : List LoopSt}
    (ht : loopTests x x.pc x.loops = (y, ls, none)) :
    (x.advance len j).lc = y.lc ∧
    (j = .none → (x.advance len j).pc = x.pc + len ∧ (x.advance len j).loops = ls) ∧
    (∀ t, j = .branch t → (x.advance len j).pc = t ∧ (x.advance len j).loops = leaveLoops x.pc t ls) ∧
    (∀ t, j = .call t ∨ j = .leave t → (x.advance len j).pc = t ∧ (x.advance len j).loops = ls) := by
  unfold Seqr.advance
  simp only [hb, ht]
  cases j <;> simp

theorem advance_back {x : Seqr} (len : Nat) (j : Jump) (hb : x.bcast = none) {y : Seqr} {ls : List LoopSt} {p : Nat}
    (ht : loopTests x x.pc x.loops = (y, ls, some p)) :
    x.advance len j = { y with loops := ls, pc := p } := by
  unfold Seqr.advance
  simp only [hb, ht]

/-- The counters are those of the loop tests. -/
theorem advance_lc (x : Seqr) (len : Nat) (j : Jump) : (x.advance len j).lc = (loopTests x x.pc x.loops).1.lc := by
  unfold Seqr.advance
  generalize loopTests x x.pc x.loops = r
  obtain ⟨y, ls, back⟩ := r
  dsimp only
  split
  · split
    · rfl
    · split
      · rfl
      · rfl
  · split
    · rfl
    · split
      all_goals rfl

theorem advance_bcast {x : Seqr} (len : Nat) (j : Jump) {b : Bcast} (hb : x.bcast = some b) {y : Seqr} {ls : List LoopSt}
    {back : Option Nat} (ht : loopTests x x.pc x.loops = (y, ls, back)) :
    (x.advance len j).lc = y.lc ∧ (x.advance len j).loops = ls := by
  refine ⟨by rw [advance_lc, ht], ?_⟩
  unfold Seqr.advance
  simp only [hb, ht]
  split
  · rfl
  · split
    · rfl
    · rfl

/-- Loops that do not end at this word stay exactly where they hold the target. -/
theorem leaveLoops_of_ne {idx : Nat} (t : Nat) {ls : List LoopSt} (h : ∀ l ∈ ls, l.last ≠ idx) :
    leaveLoops idx t ls = ls.filter (fun l => l.first ≤ t ∧ t ≤ l.last) := by
  refine List.filter_congr fun l hl => ?_
  have hne : (l.last == idx) = false := by simpa using h l hl
  rw [hne, Bool.false_or, LoopSt.holds, Bool.decide_and]

theorem advance_lcVal {x y : Seqr} {len : Nat} {j : Jump} (h : (x.advance len j).lc = y.lc) (n : BitVec 2) :
    (x.advance len j).lcVal n = y.lcVal n := by
  unfold Seqr.lcVal; rw [h]

/-- Settles O8: each clause is one outcome of the loop tests. -/
theorem advanceRules : Obligations.AdvanceRules := by
  unfold Obligations.AdvanceRules
  intro x len j
  refine ⟨?_, ?_, ?_, ?_, ?_, ?_⟩
  · intro hb hl y
    obtain ⟨h1, h2, h3, h4⟩ := advance_plain len j hb (loopTests_none x x.pc hl)
    exact ⟨h1, h2, fun t ht => by rw [← leaveLoops_of_ne t hl]; exact h3 t ht, h4⟩
  · intro l ls hb hls hlast hc y
    have e := advance_back len j hb (by rw [hls]; exact loopTests_again x ls hlast hc)
    have hy : y = x.advance len j := rfl
    rw [hy, e, hls]
    exact ⟨rfl, rfl, lcVal_setLc_self x l.lc _⟩
  · intro l ls hb hls hlast hc hks y
    have ht : loopTests x x.pc x.loops = (x.setLc l.lc 0, ls, none) := by
      rw [hls, loopTests_ends x ls hlast hc]; exact loopTests_none _ _ hks
    obtain ⟨h1, h2, h3, h4⟩ := advance_plain len j hb ht
    refine ⟨?_, h2, fun t ht => by rw [← leaveLoops_of_ne t hks]; exact h3 t ht, h4⟩
    rw [advance_lcVal h1, lcVal_setLc_self]
  · intro l m ls hb hls hlast hmlast hne hc y
    have hm : (x.setLc l.lc 0).lcVal m.lc = x.lcVal m.lc := lcVal_setLc_other x 0 hne.symm
    have ht0 : loopTests x x.pc x.loops = loopTests (x.setLc l.lc 0) x.pc (m :: ls) := by
      rw [hls, loopTests_ends x (m :: ls) hlast hc]
    refine ⟨?_, ?_, ?_⟩
    · rw [advance_lcVal (advance_lc x len j), ht0]
      exact loopTests_lcVal_zero _ _ _ (lcVal_setLc_self x l.lc 0)
    · intro hc2
      have e := advance_back len j hb (ht0.trans (loopTests_again (x.setLc l.lc 0) ls hmlast (by rw [hm]; exact hc2)))
      have hy : y = x.advance len j := rfl
      rw [hy, e, hm]
      exact ⟨rfl, rfl, lcVal_setLc_self _ m.lc _⟩
    · intro hc2 hks
      have ht : loopTests x x.pc x.loops = ((x.setLc l.lc 0).setLc m.lc 0, ls, none) := by
        rw [ht0, loopTests_ends _ ls hmlast (by rw [hm]; exact hc2)]; exact loopTests_none _ _ hks
      obtain ⟨h1, h2, -, -⟩ := advance_plain len j hb ht
      exact ⟨(advance_lcVal h1 m.lc).trans (lcVal_setLc_self _ m.lc 0), h2⟩
  · intro b l ls hb hls hlast hc y
    have ht := loopTests_again x ls hlast hc
    rw [← hls] at ht
    obtain ⟨h1, h2⟩ := advance_bcast len j hb ht
    exact ⟨h2, (advance_lcVal h1 l.lc).trans (lcVal_setLc_self x l.lc _)⟩
  · intro b hb hl y
    have ht := loopTests_none x x.pc hl
    obtain ⟨h1, h2⟩ := advance_bcast len j hb ht
    have hy : y = x.advance len j := rfl
    refine ⟨h2, h1, fun h => ?_, fun h h' => ?_, fun h h' => ?_⟩
    all_goals rw [hy, Seqr.advance]; simp only [hb, ht]
    · rw [if_pos h]; exact ⟨rfl, rfl⟩
    · rw [if_neg (by omega), if_pos h']; exact ⟨rfl, rfl⟩
    · rw [if_neg (by omega), if_neg (by omega)]; exact ⟨rfl, rfl⟩

end Sys2Proof.CoreRetire
end

section
/-! Results in flight: what scalar words put in flight (O59) and how results land (O9). -/
namespace Sys2Proof.CoreResults
open Sys2Proof Sys2Proof.Machine Sys2Proof.Claims Sys2Proof.CoreRetire

/-! ## Landing -/

/-- The bits that a landing result writes, without its flags and its signal. -/
def wrote (c : Ctx) (f : Flight) : Ctx :=
  match f.dest with
  | .none => c
  | .reg n => c.onSeqr f.sq (fun x => x.setReg n (f.val.setWidth 32))
  | .pred n => c.onSeqr f.sq (fun x => x.setPred n (f.val.getLsbD 0))
  | .vreg n => c.setVreg n ((c.vreg n &&& ~~~f.mask) ||| (f.val &&& f.mask))
  | .mask n => c.setMreg n (f.val.setWidth 64)
  | .elems w at' => if f.early then c else c.landLocal f.due (elemWrites w f.val at')

theorem flagLeg_cases (c : Ctx) (n : Option Nat) (b : BitVec 5) :
    ∃ st l en, c.flagLeg n b = { c with sticky := st, leg := l, ended := en } := by
  unfold Ctx.flagLeg Ctx.flag
  split
  · exact ⟨_, c.leg, c.ended, rfl⟩
  · dsimp only
    split
    · exact ⟨c.sticky, _, _, rfl⟩
    · exact ⟨_, c.leg, c.ended, rfl⟩

/-- A landing before its signal. -/
def flagged (c : Ctx) (f : Flight) : Ctx :=
  { (wrote c f).flagLeg f.leg f.flags with
    late := if c.joined && f.due == c.t then c.late ||| f.flags else c.late
    landed := if c.joined && f.due == c.t && f.sig != 0xFF then (f.sig, c.sem f.sig != 0xFFFFF) :: c.landed else c.landed }

theorem landOne_eq (c : Ctx) (f : Flight) : c.landOne f = (flagged c f).sigField f.sig := rfl

theorem flagged_cases (c : Ctx) (f : Flight) :
    ∃ st la ld l en, flagged c f = { wrote c f with sticky := st, late := la, landed := ld, leg := l, ended := en } := by
  obtain ⟨st, l, en, hf⟩ := flagLeg_cases (wrote c f) f.leg f.flags
  unfold flagged
  rw [hf]
  exact ⟨st, _, _, l, en, rfl⟩

/-- What a landing changes besides the bits it writes: flags, their lists, the leg that holds them, semaphores and their traps. -/
theorem landOne_cases (c : Ctx) (f : Flight) :
    ∃ st la ld l en a i, c.landOne f =
      { wrote c f with sticky := st, late := la, landed := ld, leg := l, ended := en, sems := a, impr := i } := by
  obtain ⟨st, la, ld, l, en, hf⟩ := flagged_cases c f
  obtain ⟨a, i, hs⟩ := sigField_cases (flagged c f) f.sig
  rw [hf] at hs
  exact ⟨st, la, ld, l, en, a, i, by rw [landOne_eq, hf, hs]⟩

theorem landOne_seqr (c : Ctx) (f : Flight) (q : Sq) : (c.landOne f).seqr q = (wrote c f).seqr q := by
  obtain ⟨st, la, ld, l, en, a, i, e⟩ := landOne_cases c f
  rw [e]; cases q <;> rfl

theorem landOne_v (c : Ctx) (f : Flight) : (c.landOne f).v = (wrote c f).v := by
  obtain ⟨st, la, ld, l, en, a, i, e⟩ := landOne_cases c f
  rw [e]

theorem landOne_m (c : Ctx) (f : Flight) : (c.landOne f).m = (wrote c f).m := by
  obtain ⟨st, la, ld, l, en, a, i, e⟩ := landOne_cases c f
  rw [e]

theorem landOne_sp (c : Ctx) (f : Flight) : (c.landOne f).sp = (wrote c f).sp := by
  obtain ⟨st, la, ld, l, en, a, i, e⟩ := landOne_cases c f
  rw [e]

/-- A result without a signal leaves the semaphores to what it writes. -/
theorem landOne_sems (c : Ctx) (f : Flight) (hs : f.sig = 0xFF) : (c.landOne f).sems = (wrote c f).sems := by
  obtain ⟨st, la, ld, l, en, hf⟩ := flagged_cases c f
  rw [landOne_eq, hs, sigField_none, hf]

/-- A result that belongs to no leg sets its flags at once. -/
theorem landOne_sticky (c : Ctx) (f : Flight) (hl : f.leg = none) :
    (c.landOne f).sticky = (wrote c f).sticky ||| f.flags := by
  obtain ⟨a, i, hs⟩ := sigField_cases (flagged c f) f.sig
  have hf : (flagged c f).sticky = ((wrote c f).flagLeg f.leg f.flags).sticky := rfl
  rw [landOne_eq, hs, hf, hl]
  rfl

/-! ## A register result -/

theorem wrote_reg {f : Flight} {n : BitVec 5} (c : Ctx) (hd : f.dest = .reg n) :
    wrote c f = c.onSeqr f.sq (fun x => x.setReg n (f.val.setWidth 32)) := by unfold wrote; rw [hd]

/-- The registers of the sequencer after a register result lands (R56, R109). -/
theorem landOne_reg {f : Flight} {n : BitVec 5} (c : Ctx) (hd : f.dest = .reg n) (k : BitVec 5) :
    ((c.landOne f).seqr f.sq).reg k = if k = n ∧ n ≠ 0 then f.val.setWidth 32 else (c.seqr f.sq).reg k := by
  rw [landOne_seqr, wrote_reg c hd, Ctx.onSeqr_self, Seqr.reg_setReg]

theorem landOne_reg_other {f : Flight} {n : BitVec 5} (c : Ctx) (hd : f.dest = .reg n) {p : Sq} (hp : p ≠ f.sq) :
    (c.landOne f).seqr p = c.seqr p := by
  rw [landOne_seqr, wrote_reg c hd, Ctx.onSeqr_other c _ hp]

theorem landOne_reg_keeps {f : Flight} {n : BitVec 5} (c : Ctx) (hd : f.dest = .reg n) (hs : f.sig = 0xFF) :
    (c.landOne f).v = c.v ∧ (c.landOne f).m = c.m ∧ (c.landOne f).sp = c.sp ∧ (c.landOne f).sems = c.sems := by
  rw [landOne_v, landOne_m, landOne_sp, landOne_sems c f hs, wrote_reg c hd]
  simp only [Ctx.onSeqr_v, Ctx.onSeqr_m, Ctx.onSeqr_sp, Ctx.onSeqr_sems, and_self]

theorem landOne_reg_sticky {f : Flight} {n : BitVec 5} (c : Ctx) (hd : f.dest = .reg n) (hl : f.leg = none) :
    (c.landOne f).sticky = c.sticky ||| f.flags := by
  rw [landOne_sticky c f hl, wrote_reg c hd, Ctx.onSeqr_sticky]

/-! ## Predicates, vectors and masks -/

theorem pred_setPred_self (x : Seqr) {n : BitVec 3} (b : Bool) (hn : n ≠ 0) : (x.setPred n b).pred n = b := by
  have hlt : n.toNat < 8 := n.isLt
  unfold Seqr.setPred Seqr.pred
  rw [if_neg hn, if_neg hn]
  cases b
  all_goals simp [hlt]

theorem vreg_setVreg_self (c : Ctx) (n : BitVec 5) (x : VWord) : (c.setVreg n x).vreg n = x :=
  SMap.get_put_self 0 c.v _ x

theorem mreg_setMreg_self (c : Ctx) (n : BitVec 3) (x : BitVec 64) : (c.setMreg n x).mreg n = x :=
  SMap.get_put_self onesMask c.m _ x

theorem landOne_vreg {f : Flight} {n : BitVec 5} (c : Ctx) (hd : f.dest = .vreg n) (i : Nat) :
    ((c.landOne f).vreg n).getLsbD i = if f.mask.getLsbD i then f.val.getLsbD i else (c.vreg n).getLsbD i := by
  have hw : (c.landOne f).vreg n = (c.vreg n &&& ~~~f.mask) ||| (f.val &&& f.mask) := by
    have h1 : (c.landOne f).vreg n = (wrote c f).vreg n := by unfold Ctx.vreg; rw [landOne_v]
    rw [h1, wrote, hd]
    exact vreg_setVreg_self c n _
  rw [hw]
  by_cases hi : i < 1024
  · rw [BitVec.getLsbD_or, BitVec.getLsbD_and, BitVec.getLsbD_and, BitVec.getLsbD_not]
    cases hm : f.mask.getLsbD i
    · simp [hi]
    · simp
  · simp [BitVec.getLsbD_of_ge _ i (by omega : 1024 ≤ i)]

theorem landOne_pred {f : Flight} {n : BitVec 3} (c : Ctx) (hd : f.dest = .pred n) (hn : n ≠ 0) :
    ((c.landOne f).seqr f.sq).pred n = f.val.getLsbD 0 := by
  rw [landOne_seqr, wrote, hd]
  simp only [Ctx.onSeqr_self]
  exact pred_setPred_self _ _ hn

theorem landOne_mask {f : Flight} {n : BitVec 3} (c : Ctx) (hd : f.dest = .mask n) :
    (c.landOne f).mreg n = f.val.setWidth 64 := by
  have h1 : (c.landOne f).mreg n = (wrote c f).mreg n := by unfold Ctx.mreg; rw [landOne_m]
  rw [h1, wrote, hd]
  exact mreg_setMreg_self c n _

/-! ## Results put in flight -/

@[simp] theorem latch_flight (c : Ctx) (q : Sq) (v : VWord) (lat : Nat) : (c.latch q v lat).flight = c.flight :=
  Ctx.onSeqr_flight c q _

theorem latch_reg (c : Ctx) (q : Sq) (v : VWord) (lat : Nat) (k : BitVec 5) :
    ((c.latch q v lat).seqr q).reg k = (c.seqr q).reg k := by
  unfold Ctx.latch
  rw [Ctx.onSeqr_self]
  rfl

theorem setWidth_word (v : Word) : (v.setWidth 1024).setWidth 32 = v :=
  BitVec.setWidth_setWidth_of_le v (by decide)

theorem resultsLand_holds : resultsLand := by
  intro c q d v lat f hf
  subst hf
  refine ⟨?_, ?_, rfl, ⟨?_, ?_, ?_⟩, ?_⟩
  · unfold Ctx.scalar Ctx.scalarFlag
    rw [latch_flight]; rfl
  · intro k
    unfold Ctx.scalar Ctx.scalarFlag
    rw [latch_reg, Ctx.launchResult_seqr]
  · intro k
    have h := landOne_reg (f := c.flightOf q (.reg d) (v.setWidth 1024) lat 0) (n := d) c rfl k
    rwa [show (c.flightOf q (.reg d) (v.setWidth 1024) lat 0).val.setWidth 32 = v from setWidth_word v] at h
  · exact fun p hp => landOne_reg_other (f := c.flightOf q (.reg d) (v.setWidth 1024) lat 0) (n := d) c rfl hp
  · obtain ⟨hv, -, hsp, hsems⟩ := landOne_reg_keeps c (f := c.flightOf q (.reg d) (v.setWidth 1024) lat 0) (n := d) rfl rfl
    exact ⟨hv, hsp, hsems, (landOne_reg_sticky (f := c.flightOf q (.reg d) (v.setWidth 1024) lat 0) c (n := d) rfl rfl).trans (BitVec.or_zero ..)⟩
  · intro g _ _
    exact ⟨fun n hn i => landOne_vreg c hn i, fun n hn h0 => landOne_pred c hn h0, fun n hn => landOne_mask c hn⟩

theorem pairFlag_seqr_other (c : Ctx) (free : Nat) {q p : Sq} (d : BitVec 5) (v : DWord) (lat : Nat) (flags : BitVec 5)
    (hp : p ≠ q) : (c.pairFlag free q d v lat flags).seqr p = c.seqr p := by
  unfold Ctx.pairFlag Ctx.latch
  rw [Ctx.onSeqr_other _ _ hp, Ctx.launchResult_seqr, Ctx.launchResult_seqr]

theorem pairFlag_reg (c : Ctx) (free : Nat) (q : Sq) (d : BitVec 5) (v : DWord) (lat : Nat) (flags : BitVec 5) (k : BitVec 5) :
    ((c.pairFlag free q d v lat flags).seqr q).reg k = (c.seqr q).reg k := by
  unfold Ctx.pairFlag
  rw [latch_reg, Ctx.launchResult_seqr, Ctx.launchResult_seqr]

theorem pairFlag_flight (c : Ctx) (free : Nat) (q : Sq) (d : BitVec 5) (v : DWord) (lat : Nat) (flags : BitVec 5) :
    (c.pairFlag free q d v lat flags).flight = c.flight ++
      [c.flightOf q (.reg d) ((v.extractLsb' 0 32).setWidth 1024) lat flags,
       c.flightOf q (.reg (d + 1)) ((v.extractLsb' 32 32).setWidth 1024) lat 0] := by
  unfold Ctx.pairFlag
  rw [latch_flight]
  exact List.append_assoc ..

/-- Which of the two writes of a pair a register shows. -/
theorem pair_choice (k d : BitVec 5) (lo hi old : Word) (h0 : k = 0 → old = 0) :
    (if k = d + 1 ∧ d + 1 ≠ 0 then hi else if k = d ∧ d ≠ 0 then lo else old) =
      if k = 0 then 0 else if k = d then lo else if k = d + 1 then hi else old := by
  have hne : d + 1 ≠ d := by
    intro h
    have := congrArg BitVec.toNat h
    have hd := d.isLt
    rw [BitVec.toNat_add] at this
    simp at this
    omega
  by_cases hk : k = 0
  · subst hk
    rw [if_neg (fun h => h.2 h.1.symm), if_neg (fun h => h.2 h.1.symm), if_pos rfl, h0 rfl]
  · rw [if_neg hk]
    by_cases hd : k = d
    · subst hd
      rw [if_neg (fun h => hne h.1.symm), if_pos ⟨rfl, hk⟩, if_pos rfl]
    · rw [if_neg hd, if_neg (c := k = d ∧ d ≠ 0) (fun h => hd h.1)]
      by_cases h1 : k = d + 1
      · rw [if_pos ⟨h1, h1 ▸ hk⟩, if_pos h1]
      · rw [if_neg (fun h => h1 h.1), if_neg h1]

theorem pairResultLands_holds : pairResultLands := by
  intro c free q d v lat flags e
  let f : Flight := c.flightOf q (.reg d) ((v.extractLsb' 0 32).setWidth 1024) lat flags
  let g : Flight := c.flightOf q (.reg (d + 1)) ((v.extractLsb' 32 32).setWidth 1024) lat 0
  have keepf := landOne_reg_keeps e (f := f) (n := d) rfl rfl
  have keepg := landOne_reg_keeps (e.landOne f) (f := g) (n := d + 1) rfl rfl
  have hdata : e.sticky = c.sticky ∧ e.v = c.v ∧ e.m = c.m ∧ e.sp = c.sp ∧ e.sems = c.sems := by
    simp only [e, Ctx.pairFlag, Ctx.latch, Ctx.onSeqr_sticky, Ctx.onSeqr_v, Ctx.onSeqr_m, Ctx.onSeqr_sp, Ctx.onSeqr_sems,
      Ctx.launchResult, and_self]
  refine ⟨f, g, pairFlag_flight c free q d v lat flags, rfl, rfl, rfl, rfl, rfl, rfl, pairFlag_reg c free q d v lat flags,
    fun p hp => pairFlag_seqr_other c free d v lat flags hp, ?_⟩
  intro r
  refine ⟨fun k => ?_, fun p hp => ?_, ?_, ?_, ?_, ?_, ?_⟩
  · have h2 := landOne_reg (e.landOne f) (f := g) (n := d + 1) rfl k
    have h1 := landOne_reg e (f := f) (n := d) rfl k
    rw [show (r.seqr q).reg k = _ from h2, show ((e.landOne f).seqr g.sq).reg k = _ from h1,
      show (e.seqr f.sq).reg k = _ from pairFlag_reg c free q d v lat flags k,
      show f.val.setWidth 32 = v.extractLsb' 0 32 from setWidth_word _,
      show g.val.setWidth 32 = v.extractLsb' 32 32 from setWidth_word _]
    exact pair_choice k d _ _ _ (by rintro rfl; exact Seqr.reg_zero _)
  · exact (landOne_reg_other (e.landOne f) (f := g) (n := d + 1) rfl hp).trans
      ((landOne_reg_other e (f := f) (n := d) rfl hp).trans (pairFlag_seqr_other c free d v lat flags hp))
  · have h2 := landOne_reg_sticky (e.landOne f) (f := g) (n := d + 1) rfl rfl
    have h1 := landOne_reg_sticky e (f := f) (n := d) rfl rfl
    rw [show r.sticky = _ from h2, h1, hdata.1]
    exact BitVec.or_zero ..
  · exact keepg.1.trans (keepf.1.trans hdata.2.1)
  · exact keepg.2.1.trans (keepf.2.1.trans hdata.2.2.1)
  · exact keepg.2.2.1.trans (keepf.2.2.1.trans hdata.2.2.2.1)
  · exact keepg.2.2.2.trans (keepf.2.2.2.trans hdata.2.2.2.2)

/-- Settles O9: a landing writes the bits of its destination and sets its flags; a pair lands one half after the other. -/
theorem scalarResultLands : Obligations.ScalarResultLands := ⟨resultsLand_holds, pairResultLands_holds⟩

/-! ## The frame of scalar words -/

/-- `d` is `k` with more results in flight, of sequencer `q` and for `ts`, and other latches of `q`. -/
def Adds (q : Sq) (ts : List Dest) (k d : Ctx) : Prop :=
  ∃ fs ls, d = { k.onSeqr q (fun x => { x with latches := ls }) with flight := k.flight ++ fs } ∧
    ∀ f ∈ fs, f.sq = q ∧ f.flags = 0 ∧ f.sig = 0xFF ∧ f.dest ∈ ts

theorem adds_self (q : Sq) (k : Ctx) : Adds q [] k k := by
  refine ⟨[], (k.seqr q).latches, ?_, by simp⟩
  rw [List.append_nil]
  cases q <;> rfl

theorem adds_scalar (q : Sq) (d : BitVec 5) (v : Word) (lat : Nat) (k : Ctx) : Adds q [.reg d] k (k.scalar q d v lat) := by
  refine ⟨[k.flightOf q (.reg d) (v.setWidth 1024) lat 0], ((k.seqr q).latch ⟨v.setWidth 1024, k.t + lat⟩).latches, ?_, ?_⟩
  · cases q <;> rfl
  · simp [Ctx.flightOf]

theorem adds_pairFlag (free : Nat) (q : Sq) (d : BitVec 5) (v : DWord) (lat : Nat) (k : Ctx) :
    Adds q [.reg d, .reg (d + 1)] k (k.pairFlag free q d v lat 0) := by
  refine ⟨[k.flightOf q (.reg d) ((v.extractLsb' 0 32).setWidth 1024) lat 0,
    k.flightOf q (.reg (d + 1)) ((v.extractLsb' 32 32).setWidth 1024) lat 0],
    ((k.seqr q).latch ⟨Config.latchOther free, k.t + lat⟩).latches, ?_, ?_⟩
  · rw [← pairFlag_flight k free q d v lat 0]
    cases q <;> rfl
  · simp [Ctx.flightOf]

theorem adds_predResult (free : Nat) (q : Sq) (d : BitVec 3) (b : Bool) (lat : Nat) (k : Ctx) :
    Adds q [.pred d] k (k.predResult free q d b lat) := by
  refine ⟨[k.flightOf q (.pred d) (if b then 1 else 0) lat 0], ((k.seqr q).latch ⟨Config.latchOther free, k.t + lat⟩).latches,
    ?_, ?_⟩
  · unfold Ctx.predResult
    generalize (if b then 1 else 0 : VWord) = w
    cases q <;> rfl
  · simp [Ctx.flightOf]

/-- A body that traps or adds results for `ts`, and changes nothing else. -/
def AddsOnly (ts : List Dest) (body : State → Ctx → Res) : Prop :=
  ∀ s k, (∃ t, body s k = .trap s t) ∨ ∃ d, body s k = .ok s d ∧ Adds s.focus.2 ts k d

/-- The word is one of one slot whose body only adds results. -/
def ScalarWord (i : Instr) (h : Hd) (ts : List Dest) : Prop :=
  ∃ body, (∀ s, exec i s = runWord h 1 false s body) ∧ AddsOnly ts body

theorem addsOnly_reading {ts : List Dest} (rs : List (BitVec 5)) {g : State → Ctx → Seqr → Res}
    (hg : ∀ s k x, (∃ t, g s k x = .trap s t) ∨ ∃ d, g s k x = .ok s d ∧ Adds s.focus.2 ts k d) :
    AddsOnly ts (fun s k => reading s k rs (g s k)) := by
  intro s k
  dsimp only
  unfold reading
  split
  · exact .inl ⟨_, rfl⟩
  · exact hg s k _

theorem scalarWord_adds {i : Instr} {h : Hd} {d : BitVec 5} {rs : List (BitVec 5)} {lat : Nat} {f : Seqr → Word}
    (he : ∀ s, exec i s = scalarWord h s d rs lat f) : ScalarWord i h [.reg d] :=
  ⟨_, he, addsOnly_reading rs fun s k _ => .inr ⟨_, rfl, adds_scalar s.focus.2 d _ lat k⟩⟩

theorem pairWord_adds {i : Instr} {h : Hd} {d : BitVec 5} {rs : List (BitVec 5)} {lat : Nat} {f : Seqr → DWord}
    (he : ∀ s, exec i s = pairWord h s d rs lat f) : ScalarWord i h [.reg d, .reg (d + 1)] :=
  ⟨_, he, addsOnly_reading rs fun s k _ => .inr ⟨_, rfl, adds_pairFlag s.free s.focus.2 d _ lat k⟩⟩

theorem predWord_adds {i : Instr} {h : Hd} {p : BitVec 3} {rs : List (BitVec 5)} {f : Seqr → Bool}
    (he : ∀ s, exec i s = predWord h s p rs f) : ScalarWord i h [.pred p] :=
  ⟨_, he, addsOnly_reading rs fun s k _ => .inr ⟨_, rfl, adds_predResult s.free s.focus.2 p _ 1 k⟩⟩

theorem sel_adds (h : Hd) (d a b : BitVec 5) (psel : BitVec 3) : ScalarWord (.sel h d a b psel) h [.reg d] := by
  refine ⟨_, fun s => exec_sel h d a b psel s, addsOnly_reading [a, b] fun s k x => ?_⟩
  unfold readingPred
  split
  · exact .inl ⟨_, rfl⟩
  · exact .inr ⟨_, rfl, adds_scalar s.focus.2 d _ 1 k⟩

theorem nop_adds (h : Hd) : ScalarWord (.nop h) h [] :=
  ⟨_, fun s => exec_nop h s, fun s k => .inr ⟨k, rfl, adds_self s.focus.2 k⟩⟩

/-- The dispatch of the scalar words: each is of one of the four shapes. -/
theorem scalarWord_of_targets {i : Instr} {h : Hd} {ts : List Dest} (hh : header i = some h) (ht : targets i = some ts) :
    ScalarWord i h ts := by
  cases i
  case nop => cases hh; cases ht; exact nop_adds h
  case sel => cases hh; cases ht; exact sel_adds ..
  case cmp | cmpi => cases hh; cases ht; exact predWord_adds fun _ => rfl
  case addp | subp | madp => cases hh; cases ht; exact pairWord_adds fun _ => rfl
  case add | sub | mul | mulh | mulhn | div | divn | mod | modn | and | or | xor | not | shl | shr | sra | min | minn | max
      | maxn | clz | popc | mov | addi | subi | andi | ori | xori | shli | shri | srai | movi | movh =>
    cases hh; cases ht; exact scalarWord_adds fun _ => rfl
  all_goals exact nomatch ht

/-- What a word of one slot whose body only adds results does if it issues. -/
theorem scalarWord_issued {i : Instr} {h : Hd} {ts : List Dest} (hw : ScalarWord i h ts) {s t : State} {c : Ctx}
    (hc : s.activeCtx s.focus.1 = some c) (he : exec i s = .next t) (hi : t.last = .issued) :
    ∃ d, t = s.issued (d.retire s.focus.2 1 .none h.sig) ∧
      (d = c.begun s.focus.2 h ∨ Adds s.focus.2 ts (c.begun s.focus.2 h) d) := by
  obtain ⟨body, hex, hbody⟩ := hw
  rw [hex] at he
  have notTrapped (r : TrapRec) : (Host.Outcome.next t : Out) ≠ settle s c s.focus.2 1 h.sig (.trap s r) := by
    intro e
    simp only [settle] at e
    injection e with e
    subst e
    split at hi
    · exact nomatch hi
    · exact nomatch hi
  rcases runWord_cases he with ⟨-, h0⟩ | h0 | ⟨c', hc', h0⟩
  · exact nomatch h0
  · injection h0 with h0
    subst h0
    exact nomatch hi
  · obtain rfl : c = c' := by rw [hc] at hc'; exact Option.some.inj hc'
    rcases h0 with h0 | h0 | h0
    · injection h0 with h0
      exact ⟨_, h0, .inl rfl⟩
    · exact absurd h0 (notTrapped _)
    · rcases hbody s (c.begun s.focus.2 h) with ⟨r, hr⟩ | ⟨d, hd, ha⟩
      · rw [hr] at h0
        exact absurd h0 (notTrapped _)
      · rw [hd] at h0
        injection h0 with h0
        exact ⟨d, h0, .inr ha⟩

/-- Everything that a scalar word can change of its context. -/
theorem scalarWord_shape {q : Sq} {h : Hd} {ts : List Dest} {c d : Ctx}
    (hd : d = c.begun q h ∨ Adds q ts (c.begun q h) d) (sig : BitVec 8) :
    ∃ x l a b i fs, d.retire q 1 .none sig =
        { c.setSeqr q x with leg := l, sems := a, semT := b, impr := i, flight := c.flight ++ fs } ∧
      (x.regs = (c.seqr q).regs ∧ x.preds = (c.seqr q).preds ∧ x.epc = (c.seqr q).epc) ∧
      ∀ f ∈ fs, f.sq = q ∧ f.flags = 0 ∧ f.sig = 0xFF ∧ f.dest ∈ ts := by
  obtain ⟨l, a, b, hb⟩ := c.begun_cases q h
  obtain ⟨fs, ls, hd', hfs⟩ : ∃ fs ls, d = { (c.begun q h).onSeqr q (fun x => { x with latches := ls }) with
      flight := (c.begun q h).flight ++ fs } ∧ ∀ f ∈ fs, f.sq = q ∧ f.flags = 0 ∧ f.sig = 0xFF ∧ f.dest ∈ ts := by
    rcases hd with rfl | hd
    · obtain ⟨fs, ls, h1, h2⟩ := adds_self q (c.begun q h)
      exact ⟨fs, ls, h1, fun f hf => nomatch (h2 f hf).2.2.2⟩
    · exact hd
  obtain ⟨l', a', i, hr⟩ := retire_cases d q 1 .none sig
  have hx : d.seqr q = { c.seqr q with latches := ls } := by
    rw [hd', hb]; cases q <;> rfl
  obtain ⟨hregs, hpreds, hepc, -⟩ := moved_keeps (d.seqr q) 1 .none
  refine ⟨moved (d.seqr q) 1 .none, l', a', b, i, fs, ?_, ⟨?_, ?_, ?_⟩, hfs⟩
  · rw [hr]
    generalize moved (d.seqr q) 1 .none = x
    rw [hd', hb]
    cases q <;> rfl
  · rw [hregs, hx]
  · rw [hpreds, hx]
  · rw [hepc, hx]

theorem withShape_seqr (m : Ctx) (l : Option Leg) (a b : SMap (BitVec 20)) (i : List (Nat × Word)) (fl : List Flight) (q : Sq) :
    ({ m with leg := l, sems := a, semT := b, impr := i, flight := fl } : Ctx).seqr q = m.seqr q := by cases q <;> rfl

theorem begun_sem_other (c : Ctx) (q : Sq) (h : Hd) {n : BitVec 8} (hn : n ≠ h.wait) : (c.begun q h).sem n = c.sem n := by
  have hl (d : Ctx) : d.withLeg.sems = d.sems := by unfold Ctx.withLeg; split <;> rfl
  have ht : (if h.wait = 0xFF then c else c.takeSem h.wait 1).sem n = c.sem n := by
    unfold Ctx.takeSem
    split
    · rfl
    · split
      · rfl
      · exact sem_setSem_other c _ hn
  unfold Ctx.begun
  dsimp only
  split
  · rw [← ht]; unfold Ctx.sem; rw [hl]
  · exact ht

theorem retire_sem_other (c : Ctx) (q : Sq) (len : Nat) (j : Jump) {sig n : BitVec 8} (hn : n ≠ sig) :
    (c.retire q len j sig).sem n = c.sem n := by
  rw [retire_eq]
  by_cases hs : sig = 0xFF
  · subst hs; rw [sigField_none, retired_sem]
  · rw [sigField_some _ hs, signal_sem_other _ 1 hn, retired_sem]

theorem adds_sem {q : Sq} {ts : List Dest} {k d : Ctx} (h : Adds q ts k d) (n : BitVec 8) : d.sem n = k.sem n := by
  obtain ⟨fs, ls, e, -⟩ := h
  rw [e]
  simp [Ctx.sem]

/-- Settles O59: a scalar word that issues retires its context with nothing but results added. -/
theorem scalarWordFrame : Obligations.ScalarWordFrame := by
  unfold Obligations.ScalarWordFrame
  intro s t c i h ts hh ht hc he hi
  obtain ⟨d, rfl, hd⟩ := scalarWord_issued (scalarWord_of_targets hh ht) hc he hi
  obtain ⟨x, l, a, b, im, fs, hr, ⟨hregs, hpreds, hepc⟩, hfs⟩ := scalarWord_shape hd h.sig
  have hcid : (d.retire s.focus.2 1 .none h.sig).cid = c.cid := by rw [hr]; simp
  refine ⟨rfl, fun n hn => ?_, fun x => rfl, d.retire s.focus.2 1 .none h.sig, fs, ?_, ?_, ?_, ?_, ?_, hfs, ?_, ?_⟩
  · unfold State.ctx
    rw [State.issued_ctxs, hcid]
    exact SMap.find_set_other _ _ hn
  · unfold State.ctx
    rw [State.issued_ctxs, hcid]
    exact SMap.find_set_self _ _ _
  · refine ⟨fun q => ?_, ?_⟩
    · rw [hr]
      by_cases hq : q = s.focus.2
      · subst hq
        rw [withShape_seqr, Ctx.setSeqr_self]
        exact ⟨hregs, hpreds, hepc⟩
      · rw [withShape_seqr, Ctx.setSeqr_other c x hq]
        exact ⟨rfl, rfl, rfl⟩
    · rw [hr]
      simp only [Ctx.setSeqr_v, Ctx.setSeqr_m, Ctx.setSeqr_acc, Ctx.setSeqr_bp, Ctx.setSeqr_desc, Ctx.setSeqr_sticky,
        Ctx.setSeqr_cause, Ctx.setSeqr_tval, Ctx.setSeqr_hen, Ctx.setSeqr_cbits, Ctx.setSeqr_sp, Ctx.setSeqr_can,
        Ctx.setSeqr_sup, Ctx.setSeqr_phase, Ctx.setSeqr_inb, Ctx.setSeqr_outb, Ctx.setSeqr_mx, and_self]
  · rw [hr]; simp
  · rw [hr]; simp
  · rw [hr]
  · intro q hq
    rw [hr, withShape_seqr, Ctx.setSeqr_other c x hq]
  · intro n hw hs
    rw [retire_sem_other d _ 1 .none hs, ← begun_sem_other c s.focus.2 h hw]
    rcases hd with rfl | hd
    · rfl
    · exact adds_sem hd n

end Sys2Proof.CoreResults
end

section
/-! What a word's issue does, by its body's answer: one rule per answer, cited by the statements of single words. -/
namespace Sys2Proof.CoreWords
open Sys2Proof Sys2Proof.Machine Sys2Proof.Claims Sys2Proof.CoreRetire

/-! ## The context in which a body runs -/

@[simp] theorem begun_phase (c : Ctx) (q : Sq) (h : Hd) : (c.begun q h).phase = c.phase := by
  obtain ⟨l, a, b, e⟩ := c.begun_cases q h; rw [e]
@[simp] theorem begun_bars (c : Ctx) (q : Sq) (h : Hd) : (c.begun q h).bars = c.bars := by
  obtain ⟨l, a, b, e⟩ := c.begun_cases q h; rw [e]
@[simp] theorem begun_landed (c : Ctx) (q : Sq) (h : Hd) : (c.begun q h).landed = c.landed := by
  obtain ⟨l, a, b, e⟩ := c.begun_cases q h; rw [e]
@[simp] theorem begun_want (c : Ctx) (q : Sq) (h : Hd) : (c.begun q h).want = c.want := by
  obtain ⟨l, a, b, e⟩ := c.begun_cases q h; rw [e]
@[simp] theorem begun_waitm (c : Ctx) (q : Sq) (h : Hd) : (c.begun q h).waitm = c.waitm := by
  obtain ⟨l, a, b, e⟩ := c.begun_cases q h; rw [e]
@[simp] theorem begun_hold (c : Ctx) (q : Sq) (h : Hd) : (c.begun q h).hold = c.hold := by
  obtain ⟨l, a, b, e⟩ := c.begun_cases q h; rw [e]
@[simp] theorem begun_abop (c : Ctx) (q : Sq) (h : Hd) : (c.begun q h).abop = c.abop := by
  obtain ⟨l, a, b, e⟩ := c.begun_cases q h; rw [e]
@[simp] theorem begun_inb (c : Ctx) (q : Sq) (h : Hd) : (c.begun q h).inb = c.inb := by
  obtain ⟨l, a, b, e⟩ := c.begun_cases q h; rw [e]
@[simp] theorem begun_outb (c : Ctx) (q : Sq) (h : Hd) : (c.begun q h).outb = c.outb := by
  obtain ⟨l, a, b, e⟩ := c.begun_cases q h; rw [e]
@[simp] theorem begun_vno (c : Ctx) (q : Sq) (h : Hd) : (c.begun q h).vno = c.vno := by
  obtain ⟨l, a, b, e⟩ := c.begun_cases q h; rw [e]
@[simp] theorem begun_mx (c : Ctx) (q : Sq) (h : Hd) : (c.begun q h).mx = c.mx := by
  obtain ⟨l, a, b, e⟩ := c.begun_cases q h; rw [e]
@[simp] theorem begun_marks (c : Ctx) (q : Sq) (h : Hd) : (c.begun q h).marks = c.marks := by
  obtain ⟨l, a, b, e⟩ := c.begun_cases q h; rw [e]
@[simp] theorem begun_core (c : Ctx) (q : Sq) (h : Hd) : (c.begun q h).core = c.core := by
  obtain ⟨l, a, b, e⟩ := c.begun_cases q h; rw [e]
@[simp] theorem begun_lid (c : Ctx) (q : Sq) (h : Hd) : (c.begun q h).lid = c.lid := by
  obtain ⟨l, a, b, e⟩ := c.begun_cases q h; rw [e]
@[simp] theorem begun_idx (c : Ctx) (q : Sq) (h : Hd) : (c.begun q h).idx = c.idx := by
  obtain ⟨l, a, b, e⟩ := c.begun_cases q h; rw [e]
@[simp] theorem begun_ended (c : Ctx) (q : Sq) (h : Hd) : (c.begun q h).ended = c.ended := by
  obtain ⟨l, a, b, e⟩ := c.begun_cases q h; rw [e]
@[simp] theorem begun_cbits (c : Ctx) (q : Sq) (h : Hd) : (c.begun q h).cbits = c.cbits := by
  obtain ⟨l, a, b, e⟩ := c.begun_cases q h; rw [e]
@[simp] theorem begun_cbitsT (c : Ctx) (q : Sq) (h : Hd) : (c.begun q h).cbitsT = c.cbitsT := by
  obtain ⟨l, a, b, e⟩ := c.begun_cases q h; rw [e]
@[simp] theorem begun_bno (c : Ctx) (q : Sq) (h : Hd) : (c.begun q h).bno = c.bno := by
  obtain ⟨l, a, b, e⟩ := c.begun_cases q h; rw [e]
@[simp] theorem begun_semS (c : Ctx) (q : Sq) (h : Hd) : (c.begun q h).semS = c.semS := by
  obtain ⟨l, a, b, e⟩ := c.begun_cases q h; rw [e]
@[simp] theorem begun_offers (c : Ctx) (q : Sq) (h : Hd) : (c.begun q h).offers = c.offers := by
  obtain ⟨l, a, b, e⟩ := c.begun_cases q h; rw [e]
@[simp] theorem begun_ctl (c : Ctx) (q : Sq) (h : Hd) : (c.begun q h).ctl = c.ctl := by
  obtain ⟨l, a, b, e⟩ := c.begun_cases q h; rw [e]
@[simp] theorem begun_load (c : Ctx) (q : Sq) (h : Hd) : (c.begun q h).load = c.load := by
  obtain ⟨l, a, b, e⟩ := c.begun_cases q h; rw [e]
@[simp] theorem begun_store (c : Ctx) (q : Sq) (h : Hd) : (c.begun q h).store = c.store := by
  obtain ⟨l, a, b, e⟩ := c.begun_cases q h; rw [e]
@[simp] theorem begun_comp (c : Ctx) (q : Sq) (h : Hd) : (c.begun q h).comp = c.comp := by
  obtain ⟨l, a, b, e⟩ := c.begun_cases q h; rw [e]
@[simp] theorem begun_impr (c : Ctx) (q : Sq) (h : Hd) : (c.begun q h).impr = c.impr := by
  obtain ⟨l, a, b, e⟩ := c.begun_cases q h; rw [e]
@[simp] theorem begun_legs (c : Ctx) (q : Sq) (h : Hd) : (c.begun q h).legs = c.legs := by
  obtain ⟨l, a, b, e⟩ := c.begun_cases q h; rw [e]
@[simp] theorem begun_legno (c : Ctx) (q : Sq) (h : Hd) : (c.begun q h).legno = c.legno := by
  obtain ⟨l, a, b, e⟩ := c.begun_cases q h; rw [e]
@[simp] theorem begun_pimage (c : Ctx) (q : Sq) (h : Hd) : (c.begun q h).pimage = c.pimage := by
  obtain ⟨l, a, b, e⟩ := c.begun_cases q h; rw [e]

@[simp] theorem begun_relaxed (c : Ctx) (q : Sq) (h : Hd) : (c.begun q h).relaxed = c.relaxed := by
  unfold Ctx.relaxed; rw [Ctx.begun_dmode]

/-! ## Legs and escapes -/

/-- A leg that has just opened has read nothing, so the start of a word lets an escape issue as before (R217). -/
theorem escapeOk_begun (s : State) (c : Ctx) (q : Sq) (h : Hd) : s.escapeOk (c.begun q h) = s.escapeOk c := by
  have hready (l : Leg) : s.ready (c.begun q h) l = s.ready c l := by
    simp only [State.ready, Ctx.keyOf, begun_ended, Ctx.begun_kind, Ctx.begun_cid, begun_lid, begun_idx]
  have hexp (l : Leg) : s.exposed (c.begun q h) l = s.exposed c l := by
    simp only [State.exposed, State.safe, begun_relaxed, hready, Ctx.begun_isHandler]
  have hleg : (c.begun q h).leg = c.leg ∨ c.leg = none ∧ ∃ l, (c.begun q h).leg = some l ∧ l.reads = [] := by
    have ht (d : Ctx) : d.leg = c.leg → d.withLeg.leg = c.leg ∨ c.leg = none ∧ ∃ l, d.withLeg.leg = some l ∧ l.reads = [] := by
      intro hd
      unfold Ctx.withLeg Ctx.curLeg
      split
      · exact .inl hd
      · cases hc : c.leg with
        | none => rw [hd, hc]; exact .inr ⟨rfl, _, rfl, rfl⟩
        | some l => rw [hd, hc]; exact .inl rfl
    have hk : (if h.wait = 0xFF then c else c.takeSem h.wait 1).leg = c.leg := by
      unfold Ctx.takeSem Ctx.setSem
      split
      · rfl
      · split <;> rfl
    unfold Ctx.begun
    dsimp only
    split
    · exact ht _ hk
    · exact .inl hk
  unfold State.escapeOk
  simp only [begun_ended, hexp]
  rcases hleg with hl | ⟨hn, l, hl, hr⟩
  · rw [hl]
  · rw [hl, hn]
    simp [State.exposed, hr]

theorem escape_free {s : State} {c : Ctx} (r : Res) (h : EscapeFree s c) (q : Sq) (hd : Hd) :
    escape s (c.begun q hd) r = r := by
  unfold escape
  rw [escapeOk_begun, if_neg]
  rintro ⟨h1, h2⟩
  exact h2 (h h1)

theorem escape_waits {s : State} {c : Ctx} (r : Res) (hq : s.focus.2 = .ctl) (h : s.escapeOk c = false) (q : Sq) (hd : Hd) :
    escape s (c.begun q hd) r = .stall s { c.begun q hd with want := true } := by
  unfold escape
  rw [escapeOk_begun, if_pos ⟨hq, by simp [h]⟩]

theorem escapeFree_of_ok {s : State} {c : Ctx} (h : s.escapeOk c = true) : EscapeFree s c := fun _ => h

theorem notInBody_free {s : State} {c : Ctx} (r : Res) (h : NoBroadcast s c) (q : Sq) (hd : Hd) :
    notInBody s (c.begun q hd) r = r := by
  unfold notInBody
  rw [Ctx.begun_seqr, show (c.seqr s.focus.2).bcast = none from h]
  rfl

theorem notInBody_traps {s : State} {c : Ctx} (r : Res) (h : ¬ NoBroadcast s c) (q : Sq) (hd : Hd) :
    notInBody s (c.begun q hd) r = .trap s (mkTrap 0x07 0) := by
  unfold notInBody
  rw [Ctx.begun_seqr]
  cases hb : (c.seqr s.focus.2).bcast with
  | none => exact absurd hb h
  | some b => rfl

/-- Readable operands are read as they stand. -/
theorem reading_readable {s : State} {c : Ctx} {rs : List (BitVec 5)} (k : Seqr → Res) (h : Readable s c rs) (q : Sq) (hd : Hd) :
    reading s (c.begun q hd) rs k = k (c.seqr s.focus.2) := by
  rw [reading_ok, Ctx.begun_seqr]
  rw [Ctx.begun_checkMode]
  rcases h with h | h
  · rw [h]; rfl
  · rw [Bool.and_eq_false_iff]
    refine .inr (List.any_eq_false.mpr fun r hr => ?_)
    rw [Ctx.begun_regPending, h r hr]
    exact Bool.false_ne_true

/-! ## One rule per answer -/

section
variable {i : Instr} {s : State} {c : Ctx} {h : Hd} {len : Nat} {always : Bool} {body : State → Ctx → Res}

/-- The word comes to its body, and its guard lets the body run or does not gate it. -/
def Enters (s : State) (c : Ctx) (h : Hd) (always : Bool) : Prop :=
  s.reaches c h ∧ ((c.seqr s.focus.2).guard h = true ∨ always = true)

theorem enters_of_runs (hr : Runs s c h) : Enters s c h always := ⟨hr.1, .inl hr.2⟩

theorem enters_always (hr : s.reaches c h) : Enters s c h true := ⟨hr, .inr rfl⟩

theorem completesIn_of_done {s' : State} {j : Jump} {f : Ctx → Ctx} (hx : exec i s = runWord h len always s body)
    (hl : i.len = len) (hr : Enters s c h always)
    (hb : body s (c.begun s.focus.2 h) = .done s' (f (c.begun s.focus.2 h)) j false) : CompletesIn i s s' c h j f := by
  unfold CompletesIn
  rw [hx, runWord_runs hr.1 hr.2, hb, hl]
  rfl

theorem completes_of_done {j : Jump} {f : Ctx → Ctx} (hx : exec i s = runWord h len always s body) (hl : i.len = len)
    (hr : Enters s c h always) (hb : body s (c.begun s.focus.2 h) = .done s (f (c.begun s.focus.2 h)) j false) :
    Completes i s c h j f := completesIn_of_done hx hl hr hb

theorem traps_of_trap {t : TrapRec} (hx : exec i s = runWord h len always s body) (hr : Enters s c h always)
    (hb : body s (c.begun s.focus.2 h) = .trap s t) : Traps i s c t := by
  unfold Traps
  rw [hx, runWord_runs hr.1 hr.2, hb]
  exact congrArg Host.Outcome.next rfl

/-- A stall that leaves no wish of its own. -/
theorem holds_of_stall (hx : exec i s = runWord h len always s body) (hr : Enters s c h always)
    (hb : body s (c.begun s.focus.2 h) = .stall s (c.begun s.focus.2 h)) : Holds i s c := by
  unfold Holds
  rw [hx, runWord_runs hr.1 hr.2, hb, settle, begun_waitm, begun_want, begun_hold, begun_abop]

/-- An escape that waits for its leg. -/
theorem wants_of_stall (hx : exec i s = runWord h len always s body) (hr : Enters s c h always)
    (hb : body s (c.begun s.focus.2 h) = .stall s { c.begun s.focus.2 h with want := true }) :
    exec i s = .next (s.keep { c with want := true }).stalled := by
  rw [hx, runWord_runs hr.1 hr.2, hb, settle, begun_waitm, begun_hold, begun_abop]

end

end Sys2Proof.CoreWords
end

section
/-! LOOP, LEXIT, LBRD, FORK, JOIN, and the words that order legs (O12, O13, O16, O17). -/
namespace Sys2Proof.CoreControl
open Sys2Proof Sys2Proof.Machine Sys2Proof.Claims Sys2Proof.CoreRetire Sys2Proof.CoreWords

/-! ## Loops -/

theorem any_lc_false {ls : List LoopSt} {lc : BitVec 2} (h : ∀ l ∈ ls, l.lc ≠ lc) : ls.any (fun l => l.lc == lc) = false :=
  List.any_eq_false.mpr fun l hl => by simpa using h l hl

theorem any_lc_true {ls : List LoopSt} {lc : BitVec 2} (h : ∃ l ∈ ls, l.lc = lc) : ls.any (fun l => l.lc == lc) = true := by
  obtain ⟨l, hl, e⟩ := h
  exact List.any_eq_true.mpr ⟨l, hl, by simpa using e⟩

theorem find_lc_none {ls : List LoopSt} {lc : BitVec 2} (h : ∀ l ∈ ls, l.lc ≠ lc) : ls.find? (fun l => l.lc == lc) = none :=
  List.find?_eq_none.mpr fun l hl => by simpa using h l hl

theorem find_lc_some {pre post : List LoopSt} {l : LoopSt} {lc : BitVec 2} (h : ∀ k ∈ pre, k.lc ≠ lc) (hl : l.lc = lc) :
    (pre ++ l :: post).find? (fun l => l.lc == lc) = some l := by
  rw [List.find?_append, find_lc_none h, List.find?_cons_of_pos (by simpa using hl)]
  rfl

theorem loopsOutside_append {pre post : List LoopSt} {l : LoopSt} {lc : BitVec 2} (h : ∀ k ∈ pre, k.lc ≠ lc) (hl : l.lc = lc) :
    loopsOutside lc (pre ++ l :: post) = post := by
  induction pre with
  | nil => exact if_pos hl
  | cons k ks ih =>
    rw [List.cons_append, loopsOutside, if_neg (h k (by simp))]
    exact ih fun m hm => h m (by simp [hm])

section
variable {s : State} {c : Ctx} {h : Hd} (lc : BitVec 2) (count : BitVec 5) (dist : BitVec 15)

theorem loop_starts (hr : Runs s c h) (hn : NoBroadcast s c) (hd : Readable s c [count])
    (hl : ∀ l ∈ (c.seqr s.focus.2).loops, l.lc ≠ lc) (h0 : (c.seqr s.focus.2).reg count ≠ 0) :
    Completes (.loop h lc count dist) s c h .none (fun b => b.onSeqr s.focus.2 (fun y =>
      { y.setLc lc ((c.seqr s.focus.2).reg count) with
        loops := { lc := lc, first := (c.seqr s.focus.2).pc + 1, last := (c.seqr s.focus.2).pc + dist.toNat } :: y.loops })) := by
  refine completes_of_done (exec_loop h lc count dist s) rfl (enters_of_runs hr) ?_
  dsimp only
  rw [reading_readable _ hd, any_lc_false hl, if_neg Bool.false_ne_true, notInBody_free _ hn, if_neg h0]
  rfl

theorem loop_skips (hr : Runs s c h) (hn : NoBroadcast s c) (hd : Readable s c [count])
    (hl : ∀ l ∈ (c.seqr s.focus.2).loops, l.lc ≠ lc) (h0 : (c.seqr s.focus.2).reg count = 0) :
    Completes (.loop h lc count dist) s c h (.leave (s.after s.focus.2 ((c.seqr s.focus.2).pc + dist.toNat)))
      (fun b => b.onSeqr s.focus.2 (fun y => y.setLc lc 0)) := by
  refine completes_of_done (exec_loop h lc count dist s) rfl (enters_of_runs hr) ?_
  dsimp only
  rw [reading_readable _ hd, any_lc_false hl, if_neg Bool.false_ne_true, notInBody_free _ hn, if_pos h0]

theorem loop_nested (hr : Runs s c h) (hd : Readable s c [count]) (hl : ∃ l ∈ (c.seqr s.focus.2).loops, l.lc = lc) :
    Traps (.loop h lc count dist) s c (mkTrap 0x06 (lc.zeroExtend 32)) := by
  refine traps_of_trap (exec_loop h lc count dist s) (enters_of_runs hr) ?_
  dsimp only
  rw [reading_readable _ hd, any_lc_true hl, if_pos rfl]

/-- LEXIT without .cancel, or off the control sequencer, where no loop uses its counter. -/
theorem lexit_nothing (hr : Runs s c h) (hn : NoBroadcast s c) (hl : ∀ l ∈ (c.seqr s.focus.2).loops, l.lc ≠ lc) :
    Completes (.lexit h lc false) s c h .none id := by
  refine completes_of_done (exec_lexit h lc false s) rfl (enters_of_runs hr) ?_
  dsimp only
  rw [if_neg Bool.false_ne_true, notInBody_free _ hn]
  simp only [id, Ctx.begun_seqr, find_lc_none hl]
  rfl

/-- LEXIT ends its loop and those inside it; .cancel adds nothing off the control sequencer. -/
theorem lexit_leaves (hr : Runs s c h) (hn : NoBroadcast s c) {pre post : List LoopSt} {l : LoopSt} (cancel : Bool)
    (hx : cancel = true → s.focus.2 ≠ .ctl) (hls : (c.seqr s.focus.2).loops = pre ++ l :: post)
    (hp : ∀ k ∈ pre, k.lc ≠ lc) (hl : l.lc = lc) :
    Completes (.lexit h lc cancel) s c h (.leave (s.after s.focus.2 l.last))
      (fun b => b.onSeqr s.focus.2 (fun y => { y.setLc lc 0 with loops := post })) := by
  refine completes_of_done (exec_lexit h lc cancel s) rfl (enters_of_runs hr) ?_
  have hno : (cancel && s.focus.2 == .ctl) = false := by
    cases cancel
    · rfl
    · simpa using hx rfl
  have hesc (r : Res) : (if cancel then escape s (c.begun s.focus.2 h) else id) r = r := by
    cases cancel
    · rfl
    · exact escape_free r (fun e => absurd e (hx rfl)) _ _
  dsimp only
  rw [notInBody_free _ hn, hesc]
  simp only [hno, Ctx.begun_seqr, hls, find_lc_some hp hl, Bool.false_eq_true, if_false]
  simp only [Ctx.onSeqr, Ctx.begun_seqr, hls, loopsOutside_append hp hl]

end

theorem loopsStartAndEnd_holds : loopsStartAndEnd := by
  intro s c h lc count dist hr hn q x n
  refine ⟨fun hd => ⟨fun hl h0 => loop_starts lc count dist hr hn hd hl h0, fun hl h0 => loop_skips lc count dist hr hn hd hl h0,
    fun hl => loop_nested lc count dist hr hd hl⟩, fun hl => lexit_nothing lc hr hn hl, fun pre l post hls hp hl => ⟨?_, fun hq => ?_⟩⟩
  · exact lexit_leaves lc hr hn false (fun e => nomatch e) hls hp hl
  · exact lexit_leaves lc hr hn true (fun _ => hq) hls hp hl

/-! ## LEXIT .cancel -/

theorem mem_bcastNo (x : Seqr) (n : Nat) : n ∈ x.bcastNo ↔ ∃ k, (x.bcast = some k ∨ x.armed = some k) ∧ k.no = n := by
  simp only [Seqr.bcastNo, List.mem_map, List.mem_append, Option.mem_toList]

theorem mem_openBcasts (c : Ctx) (n : Nat) : n ∈ c.openBcasts ↔
    n ∈ c.load.bcastNo ∨ n ∈ c.store.bcastNo ∨ n ∈ c.comp.bcastNo := by
  simp only [Ctx.openBcasts, List.mem_append, or_assoc]

/-- The broadcasts that a LEXIT .cancel hits, as the claim names them. -/
theorem hit_iff (c : Ctx) (n : Nat) : c.openBcasts.contains n = true ↔
    (∃ k, (c.load.bcast = some k ∨ c.load.armed = some k) ∧ k.no = n) ∨
    (∃ k, (c.store.bcast = some k ∨ c.store.armed = some k) ∧ k.no = n) ∨
    (∃ k, (c.comp.bcast = some k ∨ c.comp.armed = some k) ∧ k.no = n) := by
  rw [List.contains_iff_mem, mem_openBcasts, mem_bcastNo, mem_bcastNo, mem_bcastNo]

theorem cmd_strike_struck {hit : Nat → Prop} {ns : List Nat} (hh : ∀ n, ns.contains n = true ↔ hit n) (k : Cmd) :
    Struck hit k (k.strike ns) := by
  unfold Cmd.strike
  by_cases hk : ns.contains k.bno = true
  · rw [if_pos hk]
    exact ⟨rfl, fun h => absurd ((hh _).mp hk) h, fun _ => ⟨rfl, by simp⟩⟩
  · rw [if_neg hk]
    exact ⟨rfl, fun _ => rfl, fun h => absurd ((hh _).mpr h) hk⟩

theorem both_strike {hit : Nat → Prop} {ns : List Nat} (hh : ∀ n, ns.contains n = true ↔ hit n) (o : Option Cmd) :
    (o = none ∧ o.map (Cmd.strike ns) = none) ∨
      ∃ k k', o = some k ∧ o.map (Cmd.strike ns) = some k' ∧ Struck hit k k' := by
  cases o with
  | none => exact .inl ⟨rfl, rfl⟩
  | some k => exact .inr ⟨k, _, rfl, rfl, cmd_strike_struck hh k⟩

theorem mcmd_strike {hit : Nat → Prop} {ns : List Nat} (hh : ∀ n, ns.contains n = true ↔ hit n) (k : MCmd) :
    (hit k.bno → k.strike ns = { k with cancel := true }) ∧ (¬ hit k.bno → k.strike ns = k) :=
  ⟨fun h => if_pos ((hh _).mpr h), fun h => if_neg fun e => h ((hh _).mp e)⟩

/-- The cancelling LEXIT's answer, once its leg is safe. -/
theorem lexit_cancel_body {s : State} {c : Ctx} {h : Hd} {lc : BitVec 2} (hr : Runs s c h) (hq : s.focus.2 = .ctl)
    (hn : NoBroadcast s c) (he : s.escapeOk c = true) :
    exec (.lexit h lc true) s = settle s c .ctl 1 h.sig (match c.ctl.loops.find? (fun l => l.lc == lc) with
      | none => .ok s (c.begun .ctl h).cancelAll
      | some l => .done s ((c.begun .ctl h).cancelAll.onSeqr .ctl (fun y => { y.setLc lc 0 with loops := loopsOutside lc y.loops }))
          (.leave (s.after .ctl l.last)) false) := by
  rw [exec_lexit, execLexit, runWord_runs hr.1 (.inl hr.2)]
  rw [if_pos rfl, notInBody_free _ hn, escape_free _ (escapeFree_of_ok he), hq, ← begun_ctl c .ctl h]
  rfl

theorem lexitCancels_holds : lexitCancels := by
  intro s c h lc hr hq hn w b runs hit off both
  have hh : ∀ n, b.openBcasts.contains n = true ↔ hit n := fun n => by
    rw [show b.openBcasts = c.openBcasts by simp only [b, Ctx.openBcasts, begun_load, begun_store, begun_comp]]
    exact hit_iff c n
  refine ⟨fun he => ?_, fun he => ⟨b.cancelAll, ?_, ?_, ?_, ?_, ?_, ?_, ?_, ?_, ?_, ?_, ?_⟩⟩
  · refine wants_of_stall (exec_lexit h lc true s) (enters_of_runs hr) ?_
    dsimp only
    rw [if_pos rfl, notInBody_free _ hn, escape_waits _ hq he]
  · unfold Ctx.cancelAll
    simp only [b, begun_load, begun_store, begun_comp, begun_inb, begun_outb, begun_mx]
    rfl
  · rw [← begun_inb c .ctl h]; exact both_strike hh _
  · rw [← begun_inb c .ctl h]; exact both_strike hh _
  · rw [← begun_outb c .ctl h]; exact both_strike hh _
  · rw [← begun_outb c .ctl h]; exact both_strike hh _
  · intro hm
    rw [← begun_mx c .ctl h] at hm
    exact congrArg (Option.map _) hm
  · intro k hk
    rw [← begun_mx c .ctl h] at hk
    have hd : b.cancelAll.mx.shadow = some (k.strike b.openBcasts) := congrArg (Option.map _) hk
    rw [hd]
    exact ⟨fun h' => congrArg some ((mcmd_strike hh k).1 h'), fun h' => congrArg some ((mcmd_strike hh k).2 h')⟩
  · rw [← begun_offers c .ctl h]; exact List.length_map ..
  · intro n k hk
    rw [← begun_offers c .ctl h] at hk
    have hd : b.cancelAll.offers[n]? = some (k.strike b.openBcasts) := by
      rw [show b.cancelAll.offers = b.offers.map (MCmd.strike b.openBcasts) from rfl, List.getElem?_map, hk]; rfl
    rw [hd]
    exact ⟨fun h' => congrArg some ((mcmd_strike hh k).1 h'), fun h' => congrArg some ((mcmd_strike hh k).2 h')⟩
  · intro hl
    rw [show exec w s = _ from lexit_cancel_body hr hq hn he, find_lc_none hl]
    rfl
  · intro pre l post hls hp hl
    rw [show exec w s = _ from lexit_cancel_body hr hq hn he, hls, find_lc_some hp hl]
    have hb : (b.cancelAll.seqr .ctl).loops = pre ++ l :: post := by
      rw [show b.cancelAll.seqr .ctl = b.seqr .ctl from rfl, Ctx.begun_seqr]; exact hls
    simp only [settle, Ctx.onSeqr, Bool.false_eq_true, if_false]
    rw [show (Ctx.seqr (c.begun .ctl h).cancelAll .ctl).loops = _ from hb, loopsOutside_append hp hl]

/-- Settles O12: the branches of LOOP and LEXIT, one lemma each. -/
theorem loopsStartAndEnd : Obligations.LoopsStartAndEnd := ⟨loopsStartAndEnd_holds, lexitCancels_holds⟩

/-! ## LBRD -/

theorem arm_eq (x : Seqr) (b : Bcast) : x.arm b = if x.run = .halted then x else { x with armed := some b } := rfl

theorem startBcast_runs {x : Seqr} {b : Bcast} (pl : Plane) (q : Sq) (h : x.armed = some b) (hb : b.left ≠ 0) :
    x.startBcast pl q = { x with armed := none, bcast := some { b with first := x.pc } } := by
  unfold Seqr.startBcast
  rw [h]
  exact if_neg hb

theorem startBcast_passes {x : Seqr} {b : Bcast} (pl : Plane) (q : Sq) (h : x.armed = some b) (hb : b.left = 0) :
    x.startBcast pl q = { x with armed := none, pc := skipWords pl q b.len x.pc } := by
  unfold Seqr.startBcast
  rw [h]
  exact if_pos hb

theorem armed_choice (p : Bool) (x : Seqr) (b b' : Bcast) (hb : b = b') :
    (if p then x.arm b else x) = if p = true ∧ x.run ≠ .halted then { x with armed := some b' } else x := by
  subst hb
  cases p
  · simp
  · by_cases hx : x.run = .halted
    · simp [Seqr.arm, hx]
    · simp [Seqr.arm, hx]

/-- Settles O13: LBRD's checks in their order, and the two starts of an armed broadcast. -/
theorem broadcastsArmAndStart : Obligations.BroadcastsArmAndStart := by
  unfold Obligations.BroadcastsArmAndStart
  refine ⟨?_, fun x pl q b h => ⟨startBcast_runs pl q h, startBcast_passes pl q h⟩⟩
  intro s c h count len mask skl sks skc hr hq w go busy arm
  have hbusy (i : Nat) (x : Seqr) : (mask.getLsbD i && x.bcast.isSome) = true ↔ busy i x := by
    rw [Bool.and_eq_true, Option.isSome_iff_ne_none]
  refine ⟨fun hj hh hi hrd he => ⟨fun hb => ?_, fun hb => ?_⟩, fun hm => ?_⟩
  · refine completes_of_done (exec_lbrd h count len mask skl sks skc s) rfl (enters_always hr) ?_
    obtain ⟨h0, h1, h2⟩ := hb
    rw [← hbusy, Bool.not_eq_true] at h0 h1 h2
    have hread (k : Seqr → Res) : reading s (c.begun s.focus.2 h) (if go then [count] else []) k = k c.ctl := by
      rw [reading_readable]
      · rw [hq]; rfl
      · by_cases hg : go = true
        · rw [if_pos hg]; exact hrd hg
        · rw [if_neg hg]; exact .inr fun r hr => nomatch hr
    simp only [Ctx.begun_joined, hj, Ctx.begun_isHandler, hh, Ctx.begun_inInverse, hi, Bool.not_true, Bool.or_self,
      Bool.false_eq_true, if_false, begun_load, begun_store, begun_comp, begun_ctl, h0, h1, h2, begun_bno]
    rw [hread, escape_free _ (escapeFree_of_ok he)]
    simp only [armed_choice _ _ _ _ rfl]
    rfl
  · refine holds_of_stall (exec_lbrd h count len mask skl sks skc s) (enters_always hr) ?_
    have hb' : ((mask.getLsbD 0 && c.load.bcast.isSome) || (mask.getLsbD 1 && c.store.bcast.isSome) ||
        (mask.getLsbD 2 && c.comp.bcast.isSome)) = true := by
      rw [Bool.or_eq_true, Bool.or_eq_true, hbusy, hbusy, hbusy, or_assoc]; exact hb
    simp only [Ctx.begun_joined, hj, Ctx.begun_isHandler, hh, Ctx.begun_inInverse, hi, Bool.not_true, Bool.or_self,
      Bool.false_eq_true, if_false, begun_load, begun_store, begun_comp]
    rw [if_pos hb']
  · refine traps_of_trap (exec_lbrd h count len mask skl sks skc s) (enters_always hr) ?_
    have hm' : (!c.joined || c.isHandler || c.inInverse) = true := by
      simpa [or_assoc] using hm
    simp only [Ctx.begun_joined, Ctx.begun_isHandler, Ctx.begun_inInverse]
    rw [if_pos hm']
    rfl

/-! ## MARK, DRAIN, FENCE, LEGE -/

theorem unacked_iff (s : State) (core : Nat) : s.unacked core = true ↔ ∃ r ∈ s.reds, r.cid ≠ 0 ∧ r.core = core := by
  simp [State.unacked]

theorem unapplied_iff (s : State) (c : Ctx) : s.unapplied c = true ↔ ∃ r ∈ s.reds, r.cid ≠ 0 ∧ r.stage ≠ .done ∧
    (r.cid = c.cid ∨ c.kind = .regular ∧ r.lid = c.lid ∧ r.idx = c.idx) := by
  simp [State.unapplied, Ctx.isRegular, and_assoc]

theorem farDone_iff (s : State) (cid eng : Nat) : s.farDone cid eng = false ↔
    ∃ r ∈ s.fars, r.cid = cid ∧ r.eng = eng ∧ r.write = true := by
  simp [State.farDone, and_assoc]

theorem endLeg_opened {c : Ctx} {l : Leg} (bars : Bool) (a : Option Atomic) (ht : c.isTask = false) (hl : c.leg = some l) :
    c.endLeg bars a = { c with leg := none, want := false, legs := c.legs + 1, ended := c.ended ++ [{ l with atomic := a }],
                               legno := if bars || c.isHandler || a.isSome then c.legno else c.legno + 1 } := by
  unfold Ctx.endLeg
  rw [ht, Ctx.curLeg, hl]
  rfl

theorem endLeg_task {c : Ctx} (bars : Bool) (a : Option Atomic) (ht : c.isTask = true) : c.endLeg bars a = c := by
  unfold Ctx.endLeg
  rw [if_pos ht]

/-- The condition on which FENCE issues. -/
def fenceOpen (s : State) (c : Ctx) (scope : Scope) : Bool :=
  c.ended.isEmpty && !s.unapplied c && s.farDone c.cid 0 &&
    (scope != .dom || s.batches.all (fun b => b.src != s.domainDie (dieOf c.core)))

theorem unapplied_begun (s : State) (c : Ctx) (q : Sq) (h : Hd) : s.unapplied (c.begun q h) = s.unapplied c := by
  unfold State.unapplied Ctx.isRegular
  rw [Ctx.begun_cid, Ctx.begun_kind, begun_lid, begun_idx]

theorem fenceOpen_iff (s : State) (c : Ctx) (scope : Scope) : fenceOpen s c scope = true ↔
    c.ended = [] ∧ s.unapplied c = false ∧ s.farDone c.cid 0 = true ∧
      (scope = .dom → ∀ b ∈ s.batches, b.src ≠ s.domainDie (dieOf c.core)) := by
  unfold fenceOpen
  simp only [Bool.and_eq_true, List.isEmpty_iff, Bool.not_eq_true', Bool.or_eq_true, bne_iff_ne, List.all_eq_true, and_assoc]
  refine and_congr_right' (and_congr_right' (and_congr_right' ?_))
  by_cases hs : scope = .dom
  · simp [hs]
  · simp [hs]

theorem fence_exec (h : Hd) (scope : Scope) (s : State) : exec (.fence h scope) s = runWord h 1 false s (fun s c =>
    if fenceOpen s c scope then .ok s c else .stall s c) := rfl

theorem fenceOpen_begun (s : State) (c : Ctx) (q : Sq) (h : Hd) (scope : Scope) :
    fenceOpen s (c.begun q h) scope = fenceOpen s c scope := by
  unfold fenceOpen
  rw [begun_ended, unapplied_begun, Ctx.begun_cid, begun_core]

/-- The markers that MARK places. -/
def marksFor (c : Ctx) (mask : BitVec 4) : List Marker :=
  ((List.range 4).filter (fun e => mask.getLsbD e)).map
    (fun e => { eng := e, upTo := c.issuedTo e, live := [.load, .store, .comp] })

section
variable {s : State} {c : Ctx} {h : Hd}

theorem mark_places (mask : BitVec 4) (hr : Runs s c h) (he : s.escapeOk c = true) :
    Completes (.mark h mask) s c h .none (fun k => { k with marks := k.marks ++ marksFor c mask }) := by
  refine completes_of_done (exec_mark h mask s) rfl (enters_of_runs hr) ?_
  rw [escape_free _ (escapeFree_of_ok he)]
  simp only [Ctx.issuedTo, begun_inb, begun_outb, begun_vno, begun_mx]
  rfl

theorem markDone_begun (c : Ctx) (q : Sq) (h : Hd) : (c.begun q h).markDone = c.markDone := by
  funext m
  unfold Ctx.markDone
  rw [begun_inb, begun_outb, begun_mx, Ctx.begun_flight]

theorem drain_issues (hr : Runs s c h) (he : s.escapeOk c = true) (hm : ∀ m ∈ c.marks, c.markDone m = true)
    (hu : s.unacked c.core = false) : Completes (.drain h) s c h .none (fun k => { k with marks := [] }) := by
  refine completes_of_done (exec_drain h s) rfl (enters_of_runs hr) ?_
  rw [escape_free _ (escapeFree_of_ok he), begun_marks, markDone_begun, begun_core, List.all_eq_true.mpr hm, hu]
  rfl

theorem drain_holds (hr : Runs s c h) (he : s.escapeOk c = true)
    (hw : (∃ m ∈ c.marks, c.markDone m = false) ∨ s.unacked c.core = true) : Holds (.drain h) s c := by
  refine holds_of_stall (exec_drain h s) (enters_of_runs hr) ?_
  have hf : (c.marks.all c.markDone && !s.unacked c.core) = false := by
    rcases hw with ⟨m, hm, hd⟩ | hu
    · rw [List.all_eq_false.mpr ⟨m, hm, by simp [hd]⟩]; rfl
    · rw [hu, Bool.not_true, Bool.and_false]
  rw [escape_free _ (escapeFree_of_ok he), begun_marks, markDone_begun, begun_core, hf, if_neg Bool.false_ne_true]

theorem fence_issues {scope : Scope} (hr : Runs s c h) (ho : fenceOpen s c scope = true) :
    Completes (.fence h scope) s c h .none id := by
  refine completes_of_done (fence_exec h scope s) rfl (enters_of_runs hr) ?_
  rw [fenceOpen_begun, ho]
  rfl

theorem fence_holds {scope : Scope} (hr : Runs s c h) (ho : ¬ fenceOpen s c scope = true) : Holds (.fence h scope) s c := by
  refine holds_of_stall (fence_exec h scope s) (enters_of_runs hr) ?_
  rw [fenceOpen_begun, if_neg ho]

theorem lege_in_task (hr : Runs s c h) (ht : c.isTask = true) : Completes (.lege h) s c h .none id := by
  refine completes_of_done (exec_lege h s) rfl (enters_of_runs hr) ?_
  rw [endLeg_task _ _ (by rw [Ctx.begun_isTask]; exact ht)]
  rfl

theorem lege_ends {l : Leg} (hr : Runs s c h) (hq : s.focus.2 = .ctl) (ht : c.isTask = false)
    (hl : (c.begun .ctl h).leg = some l) :
    Completes (.lege h) s c h .none (fun k => { k with leg := none, want := false, legs := k.legs + 1
                                                       ended := k.ended ++ [{ l with atomic := none }]
                                                       legno := if c.isHandler then k.legno else k.legno + 1 }) := by
  refine completes_of_done (exec_lege h s) rfl (enters_of_runs hr) ?_
  rw [hq, endLeg_opened _ _ (by rw [Ctx.begun_isTask]; exact ht) hl, Ctx.begun_isHandler]
  simp only [Bool.false_or, Option.isSome_none, Bool.or_false]
  rfl

end

theorem markDrainFenceLege_holds : markDrainFenceLege := by
  intro s c h mask scope hr hq unacked unapplied
  have hun : ¬ unapplied ↔ s.unapplied c = false ∧ s.farDone c.cid 0 = true := by
    rw [← Bool.not_eq_true (s.unapplied c), ← Bool.not_eq_false (s.farDone c.cid 0), unapplied_iff, farDone_iff, ← not_or]
  refine ⟨fun he => ⟨⟨_, mark_places mask hr he, ?_, fun m hm => ?_⟩, fun hm hu => ?_, fun hw => ?_⟩, ⟨fun h0 hu hd => ?_, fun hw => ?_⟩,
    fun ht => lege_in_task hr ht, fun ht l hl => lege_ends hr hq ht hl⟩
  · rw [marksFor, List.map_map]; exact List.map_id _
  · obtain ⟨e, -, rfl⟩ := List.mem_map.mp hm
    exact ⟨rfl, by rintro rfl; rfl, by rintro rfl; rfl, by rintro rfl; rfl, by rintro rfl; rfl⟩
  · refine drain_issues hr he hm ?_
    rw [← Bool.not_eq_true, unacked_iff]; exact hu
  · exact drain_holds hr he (hw.imp_right (unacked_iff s c.core).mpr)
  · obtain ⟨h1, h2⟩ := hun.mp hu
    exact fence_issues hr ((fenceOpen_iff s c scope).mpr ⟨h0, h1, h2, hd⟩)
  · refine fence_holds hr fun ho => ?_
    obtain ⟨h0, h1, h2, hd⟩ := (fenceOpen_iff s c scope).mp ho
    rcases hw with hw | hw | ⟨hs, b, hb, e⟩
    · exact hw h0
    · exact hun.mpr ⟨h1, h2⟩ hw
    · exact hd hs b hb e

/-! ## BARS -/

theorem barsArrives_holds : barsArrives := by
  intro s c h comm op a d hr hq w
  have hopen (hp : c.phase = true → comm = true) : (c.phase && !comm) = false := by
    cases hc : c.phase
    · rfl
    · rw [hp hc]; rfl
  refine ⟨fun hp hc => ?_, fun hp ht => ?_, fun hp ht hh => ?_, fun ht hh hp hrd he l hl => ?_⟩
  · refine traps_of_trap (exec_bars h comm op a d s) (enters_of_runs hr) ?_
    simp only [begun_phase, hp, hc, Bool.not_false, Bool.and_self, if_true]
  · refine traps_of_trap (exec_bars h comm op a d s) (enters_of_runs hr) ?_
    simp only [begun_phase, hopen hp, Ctx.begun_isTask, ht, if_true, if_false, Bool.false_eq_true]
    rfl
  · refine traps_of_trap (exec_bars h comm op a d s) (enters_of_runs hr) ?_
    simp only [begun_phase, hopen hp, Ctx.begun_isTask, ht, Ctx.begun_isHandler, hh, if_true, if_false, Bool.false_eq_true]
    rfl
  · refine completes_of_done (exec_bars h comm op a d s) rfl (enters_of_runs hr) ?_
    rw [if_neg (by rw [begun_phase, hopen hp]; exact Bool.false_ne_true), if_neg (by rw [Ctx.begun_isTask, ht]; exact Bool.false_ne_true),
      if_neg (by rw [Ctx.begun_isHandler, hh]; exact Bool.false_ne_true), reading_readable _ hrd, escape_free _ (escapeFree_of_ok he), hq,
      endLeg_opened _ _ (by rw [Ctx.begun_isTask]; exact ht) hl, ← begun_bars c .ctl h]
    rfl

/-- Settles O17: each word's issue and its wait. -/
theorem marksFencesAndBars : Obligations.MarksFencesAndBars := ⟨markDrainFenceLege_holds, barsArrives_holds⟩

/-! ## FORK and JOIN -/

/-- A landing write changes local memory, and the veils of results in flight. -/
theorem landLocal_cases (c : Ctx) (due : Nat) (bs : List (Nat × Byte)) :
    ∃ sp can fl, c.landLocal due bs = { c with sp := sp, can := can, flight := fl } ∧ (c.flight = [] → fl = []) := by
  unfold Ctx.landLocal
  generalize (if c.joined then c.veils due else []) = vs
  dsimp only
  split
  · exact ⟨_, _, c.flight, rfl, id⟩
  · exact ⟨_, _, _, rfl, fun h => by rw [show (c.localStore _).flight = c.flight from rfl, h]; rfl⟩

theorem landLocal_seqr (c : Ctx) (due : Nat) (bs : List (Nat × Byte)) (p : Sq) : (c.landLocal due bs).seqr p = c.seqr p := by
  obtain ⟨sp, can, fl, e, -⟩ := landLocal_cases c due bs
  rw [e]
  cases p <;> rfl

theorem landLocal_flight_nil {c : Ctx} (due : Nat) (bs : List (Nat × Byte)) (h : c.flight = []) :
    (c.landLocal due bs).flight = [] := by
  obtain ⟨sp, can, fl, e, hf⟩ := landLocal_cases c due bs
  rw [e]
  exact hf h

/-- A landing changes registers and predicates of sequencers only. -/
theorem landOne_run (c : Ctx) (f : Flight) (p : Sq) :
    ((c.landOne f).seqr p).run = (c.seqr p).run ∧ ((c.landOne f).seqr p).owed = (c.seqr p).owed := by
  rw [CoreResults.landOne_seqr, CoreResults.wrote]
  split
  · exact ⟨rfl, rfl⟩
  · by_cases hp : p = f.sq
    · subst hp; rw [Ctx.onSeqr_self, Seqr.setReg_run, Seqr.setReg_owed]; exact ⟨rfl, rfl⟩
    · rw [Ctx.onSeqr_other c _ hp]; exact ⟨rfl, rfl⟩
  · by_cases hp : p = f.sq
    · subst hp; rw [Ctx.onSeqr_self, Seqr.setPred_run, Seqr.setPred_owed]; exact ⟨rfl, rfl⟩
    · rw [Ctx.onSeqr_other c _ hp]; exact ⟨rfl, rfl⟩
  · cases p <;> exact ⟨rfl, rfl⟩
  · cases p <;> exact ⟨rfl, rfl⟩
  · split
    · exact ⟨rfl, rfl⟩
    · rw [landLocal_seqr]; exact ⟨rfl, rfl⟩

theorem landOne_flight_nil {c : Ctx} (f : Flight) (h : c.flight = []) : (c.landOne f).flight = [] := by
  have hw : (CoreResults.wrote c f).flight = [] := by
    unfold CoreResults.wrote
    split
    · exact h
    · rw [Ctx.onSeqr_flight]; exact h
    · rw [Ctx.onSeqr_flight]; exact h
    · exact h
    · exact h
    · split
      · exact h
      · exact landLocal_flight_nil _ _ h
  obtain ⟨st, la, ld, l, en, a, i, e⟩ := CoreResults.landOne_cases c f
  rw [e]
  exact hw

theorem landAll_run (fs : List Flight) (c : Ctx) (p : Sq) :
    ((c.landAll fs).seqr p).run = (c.seqr p).run ∧ ((c.landAll fs).seqr p).owed = (c.seqr p).owed := by
  induction fs generalizing c with
  | nil => exact ⟨rfl, rfl⟩
  | cons f fs ih =>
    obtain ⟨h1, h2⟩ := ih (c.landOne f)
    obtain ⟨h3, h4⟩ := landOne_run c f p
    exact ⟨h1.trans h3, h2.trans h4⟩

theorem landAll_flight_nil (fs : List Flight) {c : Ctx} (h : c.flight = []) : (c.landAll fs).flight = [] := by
  induction fs generalizing c with
  | nil => exact h
  | cons f fs ih => exact ih (landOne_flight_nil f h)

/-- Landing everything leaves nothing in flight. -/
theorem landEverything_flight (c : Ctx) : (c.landIf (fun _ => true)).flight = [] :=
  landAll_flight_nil _ (List.filter_false c.flight)

theorem landIf_run (c : Ctx) (p : Flight → Bool) (q : Sq) :
    ((c.landIf p).seqr q).run = (c.seqr q).run ∧ ((c.landIf p).seqr q).owed = (c.seqr q).owed := by
  have h := landAll_run (sortFlights (c.flight.filter p)) { c with flight := c.flight.filter (fun f => !p f) } q
  rw [show ({ c with flight := c.flight.filter (fun f => !p f) } : Ctx).seqr q = c.seqr q by cases q <;> rfl] at h
  exact h

/-- The four sequencers meet. -/
def meets (k : Ctx) : Bool :=
  !k.joined && k.ctl.atJoin && k.load.atJoin && k.store.atJoin && k.comp.atJoin &&
    (k.ctl.run == .arrived || k.load.run == .arrived || k.store.run == .arrived || k.comp.run == .arrived)

theorem meets_iff (k : Ctx) : meets k = true ↔
    k.joined = false ∧ (∀ p, (k.seqr p).run ≠ .running) ∧ ∃ p, (k.seqr p).run = .arrived := by
  have hall : (∀ p, (k.seqr p).run ≠ .running) ↔
      k.ctl.run ≠ .running ∧ k.load.run ≠ .running ∧ k.store.run ≠ .running ∧ k.comp.run ≠ .running :=
    ⟨fun h => ⟨h .ctl, h .load, h .store, h .comp⟩, fun h p => by
      cases p
      · exact h.1
      · exact h.2.1
      · exact h.2.2.1
      · exact h.2.2.2⟩
  have hex : (∃ p, (k.seqr p).run = .arrived) ↔
      k.ctl.run = .arrived ∨ k.load.run = .arrived ∨ k.store.run = .arrived ∨ k.comp.run = .arrived := by
    refine ⟨fun ⟨p, hp⟩ => ?_, ?_⟩
    · cases p
      · exact .inl hp
      · exact .inr (.inl hp)
      · exact .inr (.inr (.inl hp))
      · exact .inr (.inr (.inr hp))
    · rintro (h | h | h | h)
      · exact ⟨.ctl, h⟩
      · exact ⟨.load, h⟩
      · exact ⟨.store, h⟩
      · exact ⟨.comp, h⟩
  rw [hall, hex]
  simp [meets, Seqr.atJoin, and_assoc, or_assoc]

theorem tryJoin_meets {k : Ctx} (h : meets k = true) :
    k.tryJoin = { (k.landIf (fun _ => true)).onAll Seqr.released with joined := true, cbits := k.cbits &&& 0x0FFF } := if_pos h

theorem tryJoin_waits {k : Ctx} (h : ¬ meets k = true) : k.tryJoin = k := if_neg h

/-- The context of a forked JOIN before the four may meet. -/
def joining (k : Ctx) (q : Sq) (sig : BitVec 8) : Ctx :=
  (k.loseLatches.setCbit (arrivalBit q) true).onSeqr q (fun x => { x.advance 1 .none with run := .arrived, owed := sig })

theorem joining_self (k : Ctx) (q : Sq) (sig : BitVec 8) :
    ((joining k q sig).seqr q).run = .arrived ∧ ((joining k q sig).seqr q).owed = sig := by
  unfold joining
  rw [Ctx.onSeqr_self]
  exact ⟨rfl, rfl⟩

theorem joining_other (k : Ctx) {q p : Sq} (sig : BitVec 8) (hp : p ≠ q) : ((joining k q sig).seqr p).run = (k.seqr p).run := by
  unfold joining
  rw [Ctx.onSeqr_other _ _ hp]
  cases p <;> rfl

theorem joining_cbits (k : Ctx) (q : Sq) (sig : BitVec 8) :
    (joining k q sig).cbits = k.cbits ||| (1#16 <<< (12 + (Sq.num q).toNat)) := by
  unfold joining
  rw [Ctx.onSeqr_cbits]
  cases q <;> rfl

theorem joining_joined (k : Ctx) (q : Sq) (sig : BitVec 8) : (joining k q sig).joined = k.joined := by
  unfold joining
  rw [Ctx.onSeqr_joined]
  rfl

/-- Arrival bits lie above the bits that a join keeps. -/
theorem arrival_cleared (b : BitVec 16) (q : Sq) : (b ||| (1#16 <<< (12 + (Sq.num q).toNat))) &&& 0x0FFF = b &&& 0x0FFF := by
  have h : (1#16 <<< (12 + (Sq.num q).toNat)) &&& 0x0FFF = 0 := by cases q <;> decide
  rw [BitVec.and_or_distrib_right, h]
  exact BitVec.or_zero ..

section
variable {s : State} {c : Ctx} {h : Hd}

theorem joinMode_false (hh : c.isHandler = false) (hi : c.inInverse = false) (q : Sq) (hd : Hd) :
    ¬ ((c.begun q hd).isHandler || (c.begun q hd).inInverse) = true := by
  rw [Ctx.begun_isHandler, Ctx.begun_inInverse, hh, hi]
  exact Bool.false_ne_true

theorem joinMode_true (hm : c.isHandler = true ∨ c.inInverse = true) (q : Sq) (hd : Hd) :
    ((c.begun q hd).isHandler || (c.begun q hd).inInverse) = true := by
  rw [Ctx.begun_isHandler, Ctx.begun_inInverse, Bool.or_eq_true]
  exact hm

theorem fork_traps_mode (hr : Runs s c h) (hm : c.isHandler = true ∨ c.inInverse = true) : Traps (.fork h) s c (mkTrap 0x03 0) := by
  refine traps_of_trap (exec_fork h s) (enters_of_runs hr) ?_
  rw [if_pos (joinMode_true hm _ _)]
  rfl

theorem join_traps_mode (hr : Runs s c h) (hm : c.isHandler = true ∨ c.inInverse = true) : Traps (.join h) s c (mkTrap 0x03 0) := by
  refine traps_of_trap (exec_join h s) (enters_of_runs hr) ?_
  rw [if_pos (joinMode_true hm _ _)]
  rfl

theorem fork_traps_body (hr : Runs s c h) (hh : c.isHandler = false) (hi : c.inInverse = false) (hn : ¬ NoBroadcast s c) :
    Traps (.fork h) s c (mkTrap 0x07 0) := by
  refine traps_of_trap (exec_fork h s) (enters_of_runs hr) ?_
  rw [if_neg (joinMode_false hh hi _ _), notInBody_traps _ hn]

theorem join_traps_body (hr : Runs s c h) (hh : c.isHandler = false) (hi : c.inInverse = false) (hn : ¬ NoBroadcast s c) :
    Traps (.join h) s c (mkTrap 0x07 0) := by
  refine traps_of_trap (exec_join h s) (enters_of_runs hr) ?_
  rw [if_neg (joinMode_false hh hi _ _), notInBody_traps _ hn]

theorem fork_forks (hr : Runs s c h) (hh : c.isHandler = false) (hi : c.inInverse = false) (hn : NoBroadcast s c)
    (he : EscapeFree s c) : Completes (.fork h) s c h .none (fun b => { b.loseLatches with joined := false }) := by
  refine completes_of_done (exec_fork h s) rfl (enters_of_runs hr) ?_
  rw [if_neg (joinMode_false hh hi _ _), notInBody_free _ hn, escape_free _ he]
  rfl

theorem join_when_joined (hr : Runs s c h) (hh : c.isHandler = false) (hi : c.inInverse = false) (hn : NoBroadcast s c)
    (he : EscapeFree s c) (hj : c.joined = true) : Completes (.join h) s c h .none Ctx.loseLatches := by
  refine completes_of_done (exec_join h s) rfl (enters_of_runs hr) ?_
  rw [if_neg (joinMode_false hh hi _ _), notInBody_free _ hn, escape_free _ he, Ctx.begun_joined, hj]
  rfl

theorem join_when_forked (hr : Runs s c h) (hh : c.isHandler = false) (hi : c.inInverse = false) (hn : NoBroadcast s c)
    (he : EscapeFree s c) (hj : c.joined = false) :
    exec (.join h) s = .next (s.issued ((joining (c.begun s.focus.2 h) s.focus.2 h.sig).tryJoin.retire s.focus.2 1 .stay 0xFF)) := by
  rw [exec_join, execJoin, runWord_runs hr.1 (.inl hr.2), if_neg (joinMode_false hh hi _ _), notInBody_free _ hn,
    escape_free _ he, Ctx.begun_joined, hj]
  rfl

end

/-- The sequencers as they stand when one of them arrives. -/
theorem joining_runs (c : Ctx) (q : Sq) (h : Hd) (p : Sq) :
    ((joining (c.begun q h) q h.sig).seqr p).run = if p = q then .arrived else (c.seqr p).run := by
  by_cases hp : p = q
  · subst hp; rw [if_pos rfl]; exact (joining_self _ p _).1
  · rw [if_neg hp, joining_other _ _ hp, Ctx.begun_seqr]

theorem joining_meets {c : Ctx} {q : Sq} {h : Hd} (hj : c.joined = false) :
    meets (joining (c.begun q h) q h.sig) = true ↔ ∀ p, p ≠ q → (c.seqr p).run ≠ .running := by
  rw [meets_iff, joining_joined, Ctx.begun_joined]
  refine ⟨fun ⟨_, hall, _⟩ p hp => ?_, fun hall => ⟨hj, fun p => ?_, q, (joining_self _ q _).1⟩⟩
  · have := hall p
    rwa [joining_runs, if_neg hp] at this
  · rw [joining_runs]
    split
    · exact fun e => nomatch e
    next hp => exact hall p hp

/-- What the join of all four leaves. -/
theorem tryJoin_of_meets {k : Ctx} (hm : meets k = true) : k.tryJoin.joined = true ∧ k.tryJoin.flight = [] ∧
    k.tryJoin.cbits = k.cbits &&& 0x0FFF ∧ ∀ p, (k.tryJoin.seqr p).owed = (k.seqr p).owed ∧
      (k.tryJoin.seqr p).run = if (k.seqr p).run = .arrived then .running else (k.seqr p).run := by
  rw [tryJoin_meets hm]
  refine ⟨rfl, landEverything_flight k, rfl, fun p => ?_⟩
  rw [show ∀ m : Ctx, ({ m with joined := true, cbits := k.cbits &&& 0x0FFF } : Ctx).seqr p = m.seqr p from
    fun m => by cases p <;> rfl, Ctx.onAll_seqr]
  obtain ⟨h1, h2⟩ := landIf_run k (fun _ => true) p
  refine ⟨h2, ?_⟩
  rw [← h1]
  rfl

/-- Settles O16: FORK and JOIN by mode; a forked JOIN waits for the others or joins all four. -/
theorem forkAndJoin : Obligations.ForkAndJoin := by
  unfold Obligations.ForkAndJoin
  intro s c h hr q lost
  refine ⟨fun hm => ⟨fork_traps_mode hr hm, join_traps_mode hr hm⟩,
    fun hh hi hn => ⟨fork_traps_body hr hh hi hn, join_traps_body hr hh hi hn⟩, fun hh hi hn he =>
    ⟨fork_forks hr hh hi hn he, fun hj => join_when_joined hr hh hi hn he hj, fun hj =>
    ⟨(joining (c.begun q h) q h.sig).tryJoin, join_when_forked hr hh hi hn he hj, ?_, fun hp => ?_, fun hp => ?_⟩⟩⟩
  · by_cases hm : meets (joining (c.begun q h) q h.sig) = true
    · rw [((tryJoin_of_meets hm).2.2.2 q).1]; exact (joining_self _ q _).2
    · rw [tryJoin_waits hm]; exact (joining_self _ q _).2
  · obtain ⟨p, hpq, hrun⟩ := hp
    rw [tryJoin_waits (fun hm => (joining_meets hj).mp hm p hpq hrun)]
    refine ⟨(joining_self _ q _).1, ?_, ?_, fun p hp => ?_⟩
    · rw [joining_joined, Ctx.begun_joined]; exact hj
    · rw [joining_cbits, begun_cbits]
    · rw [joining_runs, if_neg hp]
  · obtain ⟨h1, h2, h3, h4⟩ := tryJoin_of_meets ((joining_meets (h := h) hj).mpr hp)
    refine ⟨h1, h2, ?_, ?_, fun p hp => ?_⟩
    · rw [h3, joining_cbits, begun_cbits, arrival_cleared]
    · rw [(h4 q).2, joining_runs, if_pos rfl, if_pos rfl]
    · rw [(h4 p).2, joining_runs, if_neg hp]

end Sys2Proof.CoreControl
end

section
/-! Semaphores and cluster bits (O15). -/
namespace Sys2Proof.CoreSems
open Sys2Proof Sys2Proof.Machine Sys2Proof.Claims Sys2Proof.CoreRetire Sys2Proof.CoreWords

/-! ## The takes of a joined long word -/

/-- One take (R65): the semaphore falls, and everything else stays. -/
def takeOne (free : Nat) (c : Ctx) (k : Nat) (v : BitVec 20) : Ctx :=
  let n := v.toNat - (c.semT.get 0 k).toNat
  let now := (c.sems.get 0 k).toNat
  let w := if n ≤ now then BitVec.ofNat 20 (now - n) else Config.semShort free
  if n = 0 then c else { c with sems := c.sems.put 0 k w }

theorem applyTakes_cons (free : Nat) (c : Ctx) (k : Nat) (v : BitVec 20) (r : SMap (BitVec 20)) :
    c.applyTakes free ((k, v) :: r) = (takeOne free c k v).applyTakes free r := rfl

theorem takeOne_cases (free : Nat) (c : Ctx) (k : Nat) (v : BitVec 20) :
    ∃ a, takeOne free c k v = { c with sems := a } ∧ ∀ j, j ≠ k → a.get 0 j = c.sems.get 0 j := by
  unfold takeOne
  dsimp only
  split
  · exact ⟨c.sems, rfl, fun _ _ => rfl⟩
  · exact ⟨_, rfl, fun j hj => SMap.get_put_other 0 c.sems _ hj⟩

theorem takeOne_self (free : Nat) (c : Ctx) (k : Nat) (v : BitVec 20)
    (h : v.toNat - (c.semT.get 0 k).toNat ≤ (c.sems.get 0 k).toNat) :
    ((takeOne free c k v).sems.get 0 k).toNat = (c.sems.get 0 k).toNat - (v.toNat - (c.semT.get 0 k).toNat) := by
  unfold takeOne
  dsimp only
  rw [if_pos h]
  split
  next h0 => rw [h0, Nat.sub_zero]
  · rw [show ({ c with sems := c.sems.put 0 k _ } : Ctx).sems = c.sems.put 0 k _ from rfl, SMap.get_put_self,
      BitVec.toNat_ofNat, Nat.mod_eq_of_lt]
    have := (c.sems.get 0 k).isLt
    omega

theorem applyTakes_cases (free : Nat) (c : Ctx) (start : SMap (BitVec 20)) :
    ∃ a, c.applyTakes free start = { c with sems := a } ∧ ∀ k, (∀ kv ∈ start, kv.1 ≠ k) → a.get 0 k = c.sems.get 0 k := by
  induction start generalizing c with
  | nil => exact ⟨c.sems, rfl, fun _ _ => rfl⟩
  | cons kv r ih =>
    obtain ⟨k, v⟩ := kv
    obtain ⟨a, ha, hoa⟩ := takeOne_cases free c k v
    obtain ⟨b, hb, hob⟩ := ih (takeOne free c k v)
    refine ⟨b, ?_, fun j hj => ?_⟩
    · rw [applyTakes_cons, hb, ha]
    · rw [hob j (fun kv h => hj kv (List.mem_cons_of_mem _ h)), ha]
      exact hoa j (hj (k, v) (List.mem_cons_self ..)).symm

theorem applyTakes_takes (free : Nat) (c : Ctx) (start : SMap (BitVec 20)) (hs : start.sorted = true)
    (h : ∀ kv ∈ start, kv.2.toNat - (c.semT.get 0 kv.1).toNat ≤ (c.sems.get 0 kv.1).toNat) :
    ∀ kv ∈ start, ((c.applyTakes free start).sems.get 0 kv.1).toNat =
      (c.sems.get 0 kv.1).toNat - (kv.2.toNat - (c.semT.get 0 kv.1).toNat) := by
  induction start generalizing c with
  | nil => exact fun kv hkv => nomatch hkv
  | cons kv r ih =>
    obtain ⟨k, v⟩ := kv
    obtain ⟨habove, hr⟩ := (SMap.sorted_cons k v r).mp hs
    obtain ⟨a, ha, hoa⟩ := takeOne_cases free c k v
    have hsem (j : Nat) (hj : j ≠ k) : (takeOne free c k v).sems.get 0 j = c.sems.get 0 j := by rw [ha]; exact hoa j hj
    have hT : (takeOne free c k v).semT = c.semT := by rw [ha]
    have hne (kv : Nat × BitVec 20) (hkv : kv ∈ r) : kv.1 ≠ k := by have := habove kv hkv; omega
    intro kv hkv
    rw [applyTakes_cons]
    rcases List.mem_cons.mp hkv with rfl | hkv
    · obtain ⟨b, hb, hob⟩ := applyTakes_cases free (takeOne free c k v) r
      rw [hb]
      rw [show ({ takeOne free c k v with sems := b } : Ctx).sems = b from rfl, hob k hne]
      exact takeOne_self free c k v (h (k, v) (List.mem_cons_self ..))
    · rw [ih (takeOne free c k v) hr (fun kv hkv => ?_) kv hkv, hT, hsem _ (hne kv hkv)]
      rw [hT, hsem _ (hne kv hkv)]
      exact h kv (List.mem_cons_of_mem _ hkv)

theorem takesApplyAfterSignals_holds : takesApplyAfterSignals := by
  intro free c start hs h d
  obtain ⟨a, ha, ho⟩ := applyTakes_cases free c start
  refine ⟨applyTakes_takes free c start hs h, fun k hk => ?_, ?_⟩
  · rw [show d = _ from ha]; exact ho k hk
  · rw [show d = _ from ha]

/-! ## SIG and WAIT -/

/-- SIG and WAIT come to their bodies in a cancelled broadcast body too (R79). -/
theorem runWordIn_kept {h : Hd} {len : Nat} {always : Bool} {s : State} {c : Ctx} {body : State → Ctx → Res}
    (hr : RunsAnyhow s c h) :
    runWordIn true h len always s body = settle s c s.focus.2 len h.sig (body s (c.begun s.focus.2 h)) := by
  obtain ⟨ha, hb, hw, hp, hg⟩ := hr
  unfold runWordIn
  have hw' : (h.wait != 0xFF && !c.waitOk h.wait 1) = false := by
    rcases hw with hw | hw
    · simp [hw]
    · simp [hw]
  simp only [ha, hb, hw', hp, hg, Bool.not_true, Bool.and_false, Bool.true_or, if_true, if_false, Bool.false_eq_true]

section
variable {s : State} {c : Ctx} {h : Hd} {sem : BitVec 8} {rsrc : Bool} {amount : BitVec 13}

theorem amountOf_eq (x : Seqr) (rsrc : Bool) (amount : BitVec 13) : x.amount rsrc amount = amountOf x rsrc amount := rfl

theorem reading_amount {k : Seqr → Res} (hd : rsrc = true → Readable s c [amount.setWidth 5]) (q : Sq) (h : Hd) :
    reading s (c.begun q h) (amountRegs rsrc amount) k = k (c.seqr s.focus.2) := by
  refine reading_readable k ?_ q h
  cases rsrc
  · exact .inr fun r hr => nomatch hr
  · exact hd rfl

/-- What SIG does, once it may issue: its own take first, then the signal. -/
theorem sig_issues (hr : RunsAnyhow s c h) (he : EscapeFree s c) (hd : rsrc = true → Readable s c [amount.setWidth 5])
    {f : Ctx → Ctx} (hf : (if h.wait ≠ 0xFF ∧ (h.wait = sem ∨ h.wait = h.sig) then (c.begun s.focus.2 h).takeNow h.wait
      else c.begun s.focus.2 h) = f (c.begun s.focus.2 h)) :
    Completes (.sig h sem rsrc amount) s c h .none
      (fun k => (f k).signal sem (amountOf (c.seqr s.focus.2) rsrc amount)) := by
  unfold Completes CompletesIn
  rw [exec_sig, execSig, runWordIn_kept hr, reading_amount hd, escape_free _ he, amountOf_eq]
  dsimp only
  rw [hf]
  rfl

/-- What WAIT does, by the amount and what the semaphore holds. -/
theorem wait_answers (hr : RunsAnyhow s c h) (he : EscapeFree s c) (hd : rsrc = true → Readable s c [amount.setWidth 5]) :
    exec (.wait h sem rsrc amount) s = settle s c s.focus.2 1 h.sig
      (if amountOf (c.seqr s.focus.2) rsrc amount = 0 then .ok s (c.begun s.focus.2 h)
        else if (c.begun s.focus.2 h).waitOk sem (amountOf (c.seqr s.focus.2) rsrc amount) then
          .ok s ((c.begun s.focus.2 h).takeSem sem (amountOf (c.seqr s.focus.2) rsrc amount))
        else .stall s (c.begun s.focus.2 h)) := by
  rw [exec_wait, execWait, runWordIn_kept hr, reading_amount hd, escape_free _ he]
  rfl

/-- What a wait of the word tests: in a joined long word the values at its start. -/
def heldBy (c : Ctx) (sem : BitVec 8) : Nat :=
  if c.joined then (c.semT.get 0 sem.toNat).toNat else (c.sems.get 0 sem.toNat).toNat

theorem waitOk_iff (c : Ctx) (sem : BitVec 8) (n : Nat) : c.waitOk sem n = true ↔ n ≤ heldBy c sem := by
  unfold Ctx.waitOk heldBy
  rw [decide_eq_true_eq]
  cases c.joined
  · rfl
  · rfl

theorem takeSem_forked {c : Ctx} (sem : BitVec 8) (n : Nat) (hj : c.joined = false) :
    c.takeSem sem n = c.setSem sem (BitVec.ofNat 20 (heldBy c sem - n)) := by
  unfold Ctx.takeSem heldBy
  rw [hj]
  rfl

theorem takeSem_joined {c : Ctx} (sem : BitVec 8) (n : Nat) (hj : c.joined = true) :
    c.takeSem sem n = { c with semT := c.semT.put 0 sem.toNat (BitVec.ofNat 20 (heldBy c sem - n)) } := by
  unfold Ctx.takeSem heldBy
  rw [hj]
  rfl

theorem wait_takes (hr : RunsAnyhow s c h) (he : EscapeFree s c) (hd : rsrc = true → Readable s c [amount.setWidth 5])
    (h0 : amountOf (c.seqr s.focus.2) rsrc amount ≠ 0)
    (hn : amountOf (c.seqr s.focus.2) rsrc amount ≤ heldBy (c.begun s.focus.2 h) sem) :
    Completes (.wait h sem rsrc amount) s c h .none
      (fun k => k.takeSem sem (amountOf (c.seqr s.focus.2) rsrc amount)) := by
  unfold Completes CompletesIn
  rw [wait_answers hr he hd, if_neg h0, if_pos ((waitOk_iff _ _ _).mpr hn)]
  rfl

theorem wait_nothing (hr : RunsAnyhow s c h) (he : EscapeFree s c) (hd : rsrc = true → Readable s c [amount.setWidth 5])
    (h0 : amountOf (c.seqr s.focus.2) rsrc amount = 0) : Completes (.wait h sem rsrc amount) s c h .none id := by
  unfold Completes CompletesIn
  rw [wait_answers hr he hd, if_pos h0]
  rfl

theorem wait_holds (hr : RunsAnyhow s c h) (he : EscapeFree s c) (hd : rsrc = true → Readable s c [amount.setWidth 5])
    (hn : heldBy (c.begun s.focus.2 h) sem < amountOf (c.seqr s.focus.2) rsrc amount) : Holds (.wait h sem rsrc amount) s c := by
  unfold Holds
  rw [wait_answers hr he hd, if_neg (by omega), if_neg (by rw [waitOk_iff]; omega), settle, begun_waitm, begun_want, begun_hold,
    begun_abop]

end

/-! ## SEMI and SEMR -/

theorem count_absent {l : List (BitVec 8 × Bool)} {sem : BitVec 8} (h : ∀ x ∈ l, x.1 ≠ sem) (b : Bool) : l.count (sem, b) = 0 :=
  List.count_eq_zero.mpr fun hm => h _ hm rfl

theorem filter_absent {l : List (BitVec 8 × Bool)} {sem : BitVec 8} (h : ∀ x ∈ l, x.1 ≠ sem) :
    l.filter (fun k => k.1 == sem) = [] := List.filter_eq_nil_iff.mpr fun x hx => by simpa using h x hx

/-- Taking out the last of several equal entries. -/
theorem eraseLast_one {α : Type} [BEq α] [LawfulBEq α] (x : α) (pre post : List α) (h : x ∉ post) :
    eraseLast x (pre ++ x :: post) 1 = pre ++ post := by
  unfold eraseLast eraseLast
  rw [List.reverse_append, List.reverse_cons, List.append_assoc, List.erase_append_right _ (by simpa using h)]
  simp

theorem putSem_quiet {c : Ctx} {sem : BitVec 8} {v : Nat} (h : ∀ x ∈ c.landed, x.1 ≠ sem) (hv : v ≤ 0xFFFFF) :
    c.putSem sem v = c.setSem sem (BitVec.ofNat 20 v) := by
  unfold Ctx.putSem
  dsimp only
  rw [count_absent h, filter_absent h, if_pos hv, Nat.min_eq_left hv]
  rfl

theorem putSem_overflows {c : Ctx} {sem : BitVec 8} {v : Nat} (h : ∀ x ∈ c.landed, x.1 ≠ sem) (hv : 0xFFFFF < v) :
    c.putSem sem v = { c.setSem sem 0xFFFFF with impr := c.impr ++ [semOvf sem] } := by
  unfold Ctx.putSem
  dsimp only
  rw [count_absent h, filter_absent h, if_neg (by omega), Nat.min_eq_right (by omega)]
  rfl

theorem signal_setSem {c : Ctx} {sem : BitVec 8} {v : Nat} {i : List (Nat × Word)} (hv : v < 0xFFFFF) :
    ({ c.setSem sem (BitVec.ofNat 20 v) with impr := i } : Ctx).signal sem 1 =
      { (c.setSem sem (BitVec.ofNat 20 v)).setSem sem (BitVec.ofNat 20 (v + 1)) with impr := i } := by
  have hs : (({ c.setSem sem (BitVec.ofNat 20 v) with impr := i } : Ctx).sem sem).toNat = v := by
    rw [show ({ c.setSem sem (BitVec.ofNat 20 v) with impr := i } : Ctx).sem sem = (c.setSem sem (BitVec.ofNat 20 v)).sem sem
      from rfl, sem_setSem_self, BitVec.toNat_ofNat, Nat.mod_eq_of_lt (by omega)]
  rw [signal_below (by omega), hs]
  rfl

/-- A signal of a landing result applies after SEMI (R65). -/
theorem putSem_signalled {c : Ctx} {sem : BitVec 8} {v : Nat} (h : c.landed = [(sem, true)]) (hv : v < 0xFFFFF) :
    c.putSem sem v = (c.setSem sem (BitVec.ofNat 20 v)).setSem sem (BitVec.ofNat 20 (v + 1)) := by
  have hf : [(sem, true)].filter (fun k => k.1 == sem) = [(sem, true)] := by simp
  have hc : [(sem, true)].count (sem, false) = 0 := by simp
  unfold Ctx.putSem
  dsimp only
  rw [h, hc, hf, if_pos (by omega), Nat.min_eq_left (by omega)]
  exact signal_setSem hv

/-- A signal that had met the ceiling of the old value counts as if it had not (R65). -/
theorem putSem_unsaturates {c : Ctx} {sem : BitVec 8} {v : Nat} {pre post : List (Nat × Word)} (h : c.landed = [(sem, false)])
    (hi : c.impr = pre ++ semOvf sem :: post) (hp : semOvf sem ∉ post) (hv : v < 0xFFFFF) :
    c.putSem sem v = { (c.setSem sem (BitVec.ofNat 20 v)).setSem sem (BitVec.ofNat 20 (v + 1)) with impr := pre ++ post } := by
  have hf : [(sem, false)].filter (fun k => k.1 == sem) = [(sem, false)] := by simp
  have hc : [(sem, false)].count (sem, false) = 1 := by simp
  unfold Ctx.putSem
  dsimp only
  rw [h, hc, hf, if_pos (by omega), Nat.min_eq_left (by omega), hi, eraseLast_one _ _ _ hp]
  exact signal_setSem hv

theorem semi_puts {s : State} {c : Ctx} {h : Hd} {sem : BitVec 8} {reg : BitVec 5} (hr : Runs s c h) (he : EscapeFree s c)
    (hd : Readable s c [reg]) {f : Ctx → Ctx}
    (hf : (c.begun s.focus.2 h).putSem sem ((c.seqr s.focus.2).reg reg).toNat = f (c.begun s.focus.2 h)) :
    Completes (.semi h sem reg) s c h .none f := by
  refine completes_of_done (exec_semi h sem reg s) rfl (enters_of_runs hr) ?_
  rw [reading_readable _ hd, escape_free _ he, hf]
  rfl

theorem semr_reads {s : State} {c : Ctx} {h : Hd} (d : BitVec 5) (sem : BitVec 8) (hr : Runs s c h) :
    Gives (.semr h d sem) s c h d
      (BitVec.ofNat 32 (((c.begun s.focus.2 h).sem sem).toNat - c.landed.count (sem, true))) 1 := by
  refine completes_of_done (exec_semr h d sem s) rfl (enters_of_runs hr) ?_
  rw [Ctx.semStart, begun_landed]
  rfl

theorem nop_completes {s : State} {c : Ctx} {h : Hd} (hr : Runs s c h) : Completes (.nop h) s c h .none id :=
  completes_of_done (exec_nop h s) rfl (enters_of_runs hr) rfl

/-- SIG's own take (R444): at once from a semaphore that the word signals, else with the others of its long word. -/
theorem sig_takes {h : Hd} {sem : BitVec 8} {b : Ctx} {f : Ctx → Ctx}
    (h1 : (b.joined = true ∧ h.wait ≠ 0xFF ∧ (h.wait = sem ∨ h.wait = h.sig) ∧ b.sem h.wait ≠ 0) → f = (fun k =>
      { k.setSem h.wait (k.sem h.wait - 1) with semS := k.semS.put 0 h.wait.toNat (k.semS.get 0 h.wait.toNat - 1) }))
    (h2 : ¬ (b.joined = true ∧ h.wait ≠ 0xFF ∧ (h.wait = sem ∨ h.wait = h.sig) ∧ b.sem h.wait ≠ 0) → f = id) :
    (if h.wait ≠ 0xFF ∧ (h.wait = sem ∨ h.wait = h.sig) then b.takeNow h.wait else b) = f b := by
  by_cases ho : b.joined = true ∧ h.wait ≠ 0xFF ∧ (h.wait = sem ∨ h.wait = h.sig) ∧ b.sem h.wait ≠ 0
  · obtain ⟨hj, hw, hs, h0⟩ := ho
    rw [h1 ⟨hj, hw, hs, h0⟩, if_pos ⟨hw, hs⟩, Ctx.takeNow, if_pos (by simpa [hj] using h0)]
  · rw [h2 ho]
    split
    next hws =>
      rw [Ctx.takeNow, if_neg]
      · rfl
      · intro e
        rw [Bool.and_eq_true, bne_iff_ne] at e
        exact ho ⟨e.1, hws.1, hws.2, e.2⟩
    · rfl

theorem sig_impr {h : Hd} {sem : BitVec 8} {b : Ctx} {f : Ctx → Ctx}
    (hf : (if h.wait ≠ 0xFF ∧ (h.wait = sem ∨ h.wait = h.sig) then b.takeNow h.wait else b) = f b) : (f b).impr = b.impr := by
  rw [← hf]
  unfold Ctx.takeNow
  split
  · split <;> rfl
  · rfl

/-- A completion depends on its change only at the context in which the body runs. -/
theorem completes_congr {i : Instr} {s : State} {c : Ctx} {h : Hd} {j : Jump} {f g : Ctx → Ctx} (hc : Completes i s c h j f)
    (e : f (c.begun s.focus.2 h) = g (c.begun s.focus.2 h)) : Completes i s c h j g := by
  unfold Completes CompletesIn at hc ⊢
  rw [hc, e]

theorem semaphoreWords_holds : semaphoreWords := by
  intro s c h sem rsrc amount reg d q x b n v held ovf own took
  have hbj : b.joined = c.joined := Ctx.begun_joined ..
  have hheld : heldBy b sem = held := by unfold heldBy; rw [hbj]
  refine ⟨fun hr => ⟨nop_completes hr, semr_reads d sem hr⟩, fun hr he hd => ⟨fun f h1 h2 => ?_, fun h0 hn hj => ?_,
    fun h0 hn hj => ?_, fun h0 => wait_nothing hr he hd h0, fun hn => wait_holds hr he hd (by rw [hheld]; exact hn)⟩,
    fun hr he hd => ⟨fun hl hv => ?_, fun hl hv => ?_, fun pre post hl hi hp hv => ?_, fun hl hv => ?_⟩⟩
  · have hf := sig_takes (h := h) (sem := sem) (b := b) (f := f) (by rw [hbj]; exact h1) (by rw [hbj]; exact h2)
    have hs := sig_issues hr he hd hf
    refine ⟨fun hle => completes_congr hs (signal_below hle), fun hgt => completes_congr hs ?_⟩
    rw [← sig_impr hf]
    exact signal_above hgt
  · refine completes_congr (wait_takes hr he hd h0 (by rw [hheld]; exact hn)) ?_
    rw [← hheld]
    exact takeSem_forked sem _ (hbj.trans hj)
  · refine completes_congr (wait_takes hr he hd h0 (by rw [hheld]; exact hn)) ?_
    rw [← hheld]
    exact takeSem_joined sem _ (hbj.trans hj)
  · exact semi_puts hr he hd (f := fun k => k.setSem sem (BitVec.ofNat 20 v)) (putSem_quiet (by rw [begun_landed]; exact hl) hv)
  · exact semi_puts hr he hd (f := fun k => (k.setSem sem (BitVec.ofNat 20 v)).setSem sem (BitVec.ofNat 20 (v + 1)))
      (putSem_signalled (by rw [begun_landed]; exact hl) hv)
  · exact semi_puts hr he hd (f := fun k =>
      { (k.setSem sem (BitVec.ofNat 20 v)).setSem sem (BitVec.ofNat 20 (v + 1)) with impr := pre ++ post })
      (putSem_unsaturates (by rw [begun_landed]; exact hl) (by rw [begun_impr]; exact hi) hp hv)
  · exact semi_puts hr he hd (f := fun k => { k.setSem sem 0xFFFFF with impr := k.impr ++ [ovf] })
      (putSem_overflows (by rw [begun_landed]; exact hl) hv)

/-! ## CSET and CWAIT -/

theorem setCbit_bits (c : Ctx) (n : BitVec 4) (v : Bool) (i : Nat) (hi : i < 16) :
    (c.setCbit n v).cbits.getLsbD i = if i = n.toNat then v else c.cbits.getLsbD i := by
  have hone : (1#16 <<< n.toNat).getLsbD i = decide (i = n.toNat) := by
    rw [BitVec.getLsbD_shiftLeft, BitVec.getLsbD_one]
    by_cases hlt : i < n.toNat
    · simp [hi, hlt, Nat.ne_of_lt hlt]
    · by_cases he : i = n.toNat
      · simp [he, n.isLt]
      · have : ¬ i - n.toNat = 0 := by omega
        simp [hi, hlt, he, this]
  unfold Ctx.setCbit
  cases v
  · rw [if_neg Bool.false_ne_true]
    simp only [BitVec.getLsbD_and, BitVec.getLsbD_not, hone, hi, decide_true, Bool.true_and]
    by_cases he : i = n.toNat
    · simp [he]
    · simp [he]
  · rw [if_pos rfl]
    simp only [BitVec.getLsbD_or, hone]
    by_cases he : i = n.toNat
    · simp [he]
    · simp [he]

theorem cbitWords_holds : cbitWords := by
  intro s c h n value hr bit
  refine ⟨fun he => ⟨(c.setCbit n value).cbits, ?_, setCbit_bits c n value⟩, fun hb => ?_, fun hb => ?_⟩
  · refine completes_of_done (exec_cset h n value s) rfl (enters_of_runs hr) ?_
    rw [escape_free _ he, Ctx.setCbit, begun_cbits]
    rfl
  · refine completes_of_done (exec_cwait h n value s) rfl (enters_of_runs hr) ?_
    rw [Ctx.begun_joined, begun_cbitsT, Ctx.cbit, begun_cbits]
    exact if_pos hb
  · refine holds_of_stall (exec_cwait h n value s) (enters_of_runs hr) ?_
    rw [Ctx.begun_joined, begun_cbitsT, Ctx.cbit, begun_cbits]
    exact if_neg hb

/-- Settles O15: takes by induction over the long word's semaphores, the words one lemma each. -/
theorem semaphoreAndCbitWords : Obligations.SemaphoreAndCbitWords :=
  ⟨takesApplyAfterSignals_holds, semaphoreWords_holds, cbitWords_holds⟩

end Sys2Proof.CoreSems
end

section
/-! The counterexample to GuardsAndWaits (O14). -/
namespace Sys2Proof.CoreGuards
open Sys2Proof Sys2Proof.Machine Sys2Proof.Claims

/-- A header with no guard, no wait and no signal. -/
def plainHd : Hd := { wide := true, pneg := false, pred := 0, wait := 0xFF, sig := 0xFF }

/-- The fields of a scatter that carries a matrix word. The claim asks that CPY, DUP and GTHR carry none, not that SCTR does. -/
def carrier : CopyF :=
  { tsp := .global, fsp := .sp, toP := 0, toOff := 0, fromP := 0, fromOff := 0, len := 0, b6 := false, acq := false, rel := false
    scope := .cl
    chain := some { op := .aclr, wait := 0xFF, sig := 0xFF, f :=
      { af := .bf16, bf := .bf16, acc := 0, redun := false, tstart := false, alay := .row, ovw := false, xsel := false, adesc := 0
        aoff := 0, bbase := 0, ks := 0, mdesc := 0, sp := .dense, moff := 0, bpb := 0, rnd := .rne, imm := 0 } } }

/-- A member whose load sequencer runs a cancelled broadcast body. -/
def cancelledMember : Ctx :=
  let c := Ctx.blank 1 0
  { c with load := { c.load with bcast := some { no := 1, first := 0, len := 2, pos := 0, left := 2, skew := 0, cancel := true } } }

/-- Core 0 runs the member, and its load sequencer is about to issue. -/
def cancelledState : State :=
  { (State.reset.setCtx cancelledMember).setCore 0 { Core.idle with active := some 1 } with focus := (0, .load) }

/-- How many matrix words the member offers after an outcome. -/
def offersOf (o : Out) : Option Nat :=
  match o with
  | .next s => (s.ctx 1).map (fun c => c.offers.length)
  | _ => none

/-- The cancelled word offers the matrix word that it carries. -/
theorem scatter_offers : offersOf (exec (.sctr plainHd carrier false) cancelledState) = some 1 := by decide +kernel

/-- A word that had no effect but its wait and its signal would offer none. -/
theorem signalOnly_offers_none : offersOf (.next (cancelledState.issued
    ((cancelledMember.begun .load plainHd).retire .load 1 .none 0xFF))) = some 0 := by decide +kernel

theorem not_cancelledWordsOnlySignal : ¬ cancelledWordsOnlySignal := by
  intro claim
  have chain : ∀ h' f, ((Instr.sctr plainHd carrier false) = .cpy h' f ∨ (Instr.sctr plainHd carrier false) = .dup h' f ∨
      ∃ d, (Instr.sctr plainHd carrier false) = .gthr h' f d) → f.chain = none := by
    rintro h' f (e | e | ⟨d, e⟩)
    · exact nomatch e
    · exact nomatch e
    · exact nomatch e
  have active : cancelledState.activeCtx cancelledState.focus.1 = some cancelledMember := by decide +kernel
  have free : cancelledMember.blocked cancelledState.focus.2 = false := by decide +kernel
  have cancelled : cancelledMember.cancelled cancelledState.focus.2 = true := by decide +kernel
  obtain ⟨only, -⟩ := claim cancelledState cancelledMember (.sctr plainHd carrier false) plainHd rfl active chain
    (fun _ _ _ => ⟨(nomatch ·), (nomatch ·)⟩) (fun e => nomatch e) free (.inl rfl) cancelled
  have h := congrArg offersOf (only rfl)
  rw [scatter_offers] at h
  exact nomatch h.trans signalOnly_offers_none

/-- Refutes O14: `cancelledWordsOnlySignal` excludes a carried matrix word for CPY, DUP and GTHR alone, and a cancelled SCTR whose
fields hold one offers it. -/
theorem not_guardsAndWaits : ¬ Obligations.GuardsAndWaits := fun h => not_cancelledWordsOnlySignal h.2.2.1

end Sys2Proof.CoreGuards
end

section
/-! Words whose traps carry the kind of their access, and the reductions (O24). -/
namespace Sys2Proof.CoreReds
open Sys2Proof Sys2Proof.Machine Sys2Proof.Claims Sys2Proof.CoreRetire Sys2Proof.CoreWords

/-! ## Setting a key twice -/

theorem set_set {α : Type} (m : SMap α) (k : Nat) (a b : α) : SMap.set (SMap.set m k a) k b = SMap.set m k b := by
  induction m with
  | nil => simp [SMap.set]
  | cons p r ih =>
    obtain ⟨j, x⟩ := p
    by_cases h1 : k < j
    · simp [SMap.set, h1]
    · by_cases h2 : j = k
      · simp [SMap.set, h2]
      · simp [SMap.set, h1, h2, ih]

/-! ## The kind of access in a trap (R296) -/

theorem accOut_quiet {a : BitVec 3} {s : State} (h : s.last ≠ .trapped) : accOut a (.next s) = .next s := by
  unfold accOut
  dsimp only
  rw [if_neg h]

theorem takeLost_cases (s : State) (c : Ctx) (l : List (Space × Nat × Nat)) :
    ∃ m a b, s.takeLost c l = ({ s with dram := m }, { c with sp := a, can := b }) := by
  induction l generalizing s c with
  | nil => exact ⟨s.dram, c.sp, c.can, rfl⟩
  | cons x r ih =>
    obtain ⟨place, a, n⟩ := x
    cases place
    · obtain ⟨m, p, q, e⟩ := ih { s with dram := vacateRange 64 64 s.dram a (n / 64) } c
      exact ⟨m, p, q, e⟩
    · obtain ⟨m, p, q, e⟩ := ih s { c with sp := vacateRange 2 8 c.sp a (n / 8) }
      exact ⟨m, p, q, e⟩
    · obtain ⟨m, p, q, e⟩ := ih s { c with can := vacateRange 2 8 c.can a (n / 8) }
      exact ⟨m, p, q, e⟩

theorem wrote_cid (c : Ctx) (f : Flight) : (CoreResults.wrote c f).cid = c.cid := by
  unfold CoreResults.wrote
  split
  · rfl
  · rw [Ctx.onSeqr_cid]
  · rw [Ctx.onSeqr_cid]
  · rfl
  · rfl
  · split
    · rfl
    · obtain ⟨sp, can, fl, e, -⟩ := CoreControl.landLocal_cases c f.due (elemWrites _ f.val _)
      rw [e]

theorem landAll_cid (fs : List Flight) (c : Ctx) : (c.landAll fs).cid = c.cid := by
  induction fs generalizing c with
  | nil => rfl
  | cons f fs ih =>
    obtain ⟨st, la, ld, l, en, a, i, e⟩ := CoreResults.landOne_cases c f
    exact (ih (c.landOne f)).trans ((congrArg Ctx.cid e).trans (wrote_cid c f))

theorem landIf_cid (c : Ctx) (p : Flight → Bool) : (c.landIf p).cid = c.cid := landAll_cid _ _

theorem wordAcc_keeps (a : BitVec 3) (t : TrapRec) : (t.wordAcc a).cause = t.cause ∧ (t.wordAcc a).tval = t.tval ∧
    (t.wordAcc a).lost = t.lost ∧ (t.wordAcc a).loss = t.loss ∧ (t.wordAcc a).flags = t.flags := by
  unfold TrapRec.wordAcc
  split
  · exact ⟨rfl, rfl, rfl, rfl, rfl⟩
  · exact ⟨rfl, rfl, rfl, rfl, rfl⟩

theorem wordAcc_placed (a : BitVec 3) (t : TrapRec) (q : Sq) :
    ({ t with sq := q, held := false } : TrapRec).wordAcc a = { t.wordAcc a with sq := q, held := false } := by
  unfold TrapRec.wordAcc
  dsimp only
  split
  · rfl
  · rfl

/-- The context that a suspension freezes: results landed in forked mode, every EPC at its next index. -/
def frozen (c : Ctx) : Ctx :=
  (if c.joined then c else c.landIf (fun _ => true)).onAll (fun x => { x with epc := BitVec.ofNat 32 x.pc })

theorem frozen_cid (c : Ctx) : (frozen c).cid = c.cid := by
  unfold frozen
  rw [Ctx.onAll_cid]
  split
  · rfl
  · exact landIf_cid c _

/-- The frozen context with its trap. -/
def trappedAs (k : Ctx) (q : Sq) (t : TrapRec) : Ctx :=
  { k with stat := .trapped, cause := causeWord false q t.cause, tval := t.tval
           trap := some { t with sq := q, held := false }, sticky := k.sticky ||| t.flags }

theorem trappedAs_congr (k : Ctx) (q : Sq) {t u : TrapRec} (h1 : u.cause = t.cause) (h2 : u.tval = t.tval)
    (h3 : u.flags = t.flags) :
    trappedAs k q u = { trappedAs k q t with trap := some { u with sq := q, held := false } } := by
  unfold trappedAs
  rw [h1, h2, h3]

theorem suspend_eq (s : State) (c : Ctx) (q : Sq) (t : TrapRec) : s.suspend c q false none t =
    { (s.takeLost (frozen c) t.lost).1.setCtx (trappedAs (s.takeLost (frozen c) t.lost).2 q t) with
      events := (s.takeLost (frozen c) t.lost).1.events ++ lossEvent t, last := .trapped } := rfl

/-- A suspension puts back one context, with its trap, and keeps the cores and the focus. -/
theorem suspend_cases (s : State) (c : Ctx) (q : Sq) (t : TrapRec) : ∃ (s1 : State) (d : Ctx), s1.focus = s.focus ∧
    s1.cores = s.cores ∧ d.cid = c.cid ∧ ∀ u : TrapRec, u.cause = t.cause → u.tval = t.tval → u.lost = t.lost → u.loss = t.loss →
      u.flags = t.flags → s.suspend c q false none u =
        { s1.setCtx { d with trap := some { u with sq := q, held := false } } with last := .trapped } := by
  obtain ⟨m, a, b, e⟩ := takeLost_cases s (frozen c) t.lost
  have hcid := frozen_cid c
  have heq := suspend_eq s c q
  revert e hcid heq
  generalize frozen c = k
  intro e hcid heq
  refine ⟨{ s with dram := m, events := s.events ++ lossEvent t }, trappedAs { k with sp := a, can := b } q t, rfl, rfl, hcid,
    fun u h1 h2 h3 h4 h5 => ?_⟩
  have he : lossEvent u = lossEvent t := by unfold lossEvent; rw [h4]
  have hu := heq u
  rw [h3, e, he, trappedAs_congr _ q h1 h2 h5] at hu
  exact hu

/-- The kind of access goes into the trap that has just been taken. -/
theorem stampAcc_suspend {s : State} {c : Ctx} (q : Sq) (t : TrapRec) (a : BitVec 3)
    (hk : (s.core s.focus.1).active = some c.cid) :
    (s.suspend c q false none t).stampAcc a = s.suspend c q false none (t.wordAcc a) := by
  obtain ⟨s1, d, hf, hc, hd, hs⟩ := suspend_cases s c q t
  obtain ⟨h1, h2, h3, h4, h5⟩ := wordAcc_keeps a t
  rw [hs t rfl rfl rfl rfl rfl, hs (t.wordAcc a) h1 h2 h3 h4 h5, ← wordAcc_placed]
  have hact : State.activeCtx { s1.setCtx { d with trap := some { t with sq := q, held := false } } with last := .trapped }
      s1.focus.1 = some { d with trap := some { t with sq := q, held := false } } := by
    unfold State.activeCtx
    rw [show (State.core { s1.setCtx { d with trap := some { t with sq := q, held := false } } with last := .trapped }
      s1.focus.1).active = some c.cid by rw [← hk, ← hf]; exact congrArg (fun m => (SMap.get Core.idle m s1.focus.1).active) hc]
    rw [← hd]
    exact SMap.find_set_self _ _ _
  unfold State.stampAcc
  rw [show (State.focus { s1.setCtx { d with trap := some { t with sq := q, held := false } } with last := .trapped }).1 =
    s1.focus.1 from rfl, hact]
  simp only [Option.map_some, State.setCtx, set_set]

theorem suspend_last (s : State) (c : Ctx) (q : Sq) (t : TrapRec) : (s.suspend c q false none t).last = .trapped := rfl

/-- A trap of a word whose accesses are of kind `a`: the trap carries it, if no access raised it. -/
theorem accOut_trap {s s1 : State} {c : Ctx} (q : Sq) (t : TrapRec) (a : BitVec 3) (b : Bool)
    (hk : (s1.core s1.focus.1).active = some c.cid) :
    accOut a (.next (if b then s1.suspend c q false none t else s.waitSafe c)) =
      .next (if b then s1.suspend c q false none (t.wordAcc a) else s.waitSafe c) := by
  cases b
  · exact accOut_quiet (fun e => nomatch e)
  · rw [if_pos rfl, if_pos rfl, ← stampAcc_suspend q t a hk]
    rfl

/-! ## One rule per answer -/

section
variable {i : Instr} {s : State} {c : Ctx} {h : Hd} {len : Nat} {always : Bool} {body : State → Ctx → Res} {a : BitVec 3}

theorem acc_completesIn {s' : State} {j : Jump} {f : Ctx → Ctx} (hx : exec i s = accOut a (runWord h len always s body))
    (hl : i.len = len) (hr : Enters s c h always)
    (hb : body s (c.begun s.focus.2 h) = .done s' (f (c.begun s.focus.2 h)) j false) : CompletesIn i s s' c h j f := by
  unfold CompletesIn
  rw [hx, runWord_runs hr.1 hr.2, hb, hl]
  exact accOut_quiet (fun e => nomatch e)

theorem acc_holds (hx : exec i s = accOut a (runWord h len always s body)) (hr : Enters s c h always)
    (hb : body s (c.begun s.focus.2 h) = .stall s (c.begun s.focus.2 h)) : Holds i s c := by
  unfold Holds
  rw [hx, runWord_runs hr.1 hr.2, hb, settle, begun_waitm, begun_want, begun_hold, begun_abop]
  exact accOut_quiet (fun e => nomatch e)

/-- A word that waits for copies remembers which. -/
theorem acc_remembers {n : Option (Nat × Nat)} (hx : exec i s = accOut a (runWord h len always s body)) (hr : Enters s c h always)
    (hb : body s (c.begun s.focus.2 h) = .stall s { c.begun s.focus.2 h with hold := n }) :
    exec i s = .next (s.keep { c with hold := n }).stalled := by
  rw [hx, runWord_runs hr.1 hr.2, hb, settle, begun_waitm, begun_want, begun_abop]
  exact accOut_quiet (fun e => nomatch e)

theorem acc_traps_in {s' : State} {t : TrapRec} (hx : exec i s = accOut a (runWord h len always s body)) (hr : Enters s c h always)
    (hk : (s'.core s'.focus.1).active = some c.cid) (hb : body s (c.begun s.focus.2 h) = .trap s' t) :
    exec i s = .next (if s.escapeOk c then s'.suspend c s.focus.2 false none (t.wordAcc a) else s.waitSafe c) := by
  rw [hx, runWord_runs hr.1 hr.2, hb]
  exact accOut_trap s.focus.2 t a _ hk

theorem acc_traps {t : TrapRec} (hx : exec i s = accOut a (runWord h len always s body)) (hr : Enters s c h always)
    (hk : OnCore s c) (hb : body s (c.begun s.focus.2 h) = .trap s t) : Traps i s c (t.wordAcc a) := by
  unfold Traps
  rw [acc_traps_in hx hr hk hb]
  rfl

end

/-! ## Addresses -/

theorem ofInt_append (hi lo : Word) : BitVec.ofInt 64 ((hi.toNat * 2 ^ 32 + lo.toNat : Nat) : Int) = hi ++ lo := by
  rw [BitVec.ofInt_natCast]
  refine BitVec.eq_of_toNat_eq ?_
  have h1 := hi.isLt
  have h2 := lo.isLt
  rw [BitVec.toNat_append, BitVec.toNat_ofNat, Nat.mod_eq_of_lt (by omega), Nat.shiftLeft_eq,
    ← Nat.shiftLeft_eq, ← Nat.shiftLeft_add_eq_or_of_lt h2, Nat.shiftLeft_eq]

theorem pair_low_succ (n : BitVec 4) : (n ++ 0#1) + 1 = n ++ 1#1 := by
  revert n
  decide

/-- The address that a memory word computes is the one that the claims name. -/
theorem addr_eq_address (c : Ctx) (m : MemF) : c.ctl.addr m.base m.off = address c m := by
  unfold Seqr.addr Seqr.pair Seqr.pairAt address
  rw [BitVec.ofInt_add, ofInt_append, pair_low_succ]
  rfl

/-! ## Translations leave cores and contexts' places alone -/

/-- What a translation leaves of the cores: what runs on them, and their watch filters. -/
def KeepsCores (s t : State) : Prop :=
  t.focus = s.focus ∧ ∀ p, (t.core p).active = (s.core p).active ∧ (t.core p).filter = (s.core p).filter ∧
    (t.core p).allOnes = (s.core p).allOnes

theorem keepsCores_of_eq {s t : State} (hf : t.focus = s.focus) (hc : t.cores = s.cores) : KeepsCores s t := by
  refine ⟨hf, fun p => ?_⟩
  unfold State.core
  rw [hc]
  exact ⟨rfl, rfl, rfl⟩

theorem KeepsCores.trans {s t u : State} (h1 : KeepsCores s t) (h2 : KeepsCores t u) : KeepsCores s u := by
  refine ⟨h2.1.trans h1.1, fun p => ?_⟩
  obtain ⟨a1, a2, a3⟩ := h1.2 p
  obtain ⟨b1, b2, b3⟩ := h2.2 p
  exact ⟨b1.trans a1, b2.trans a2, b3.trans a3⟩

theorem keepsCores_setTlb (s : State) (p : Nat) (l : List TlbEnt) : KeepsCores s (s.setCore p { s.core p with tlb := l }) := by
  refine ⟨rfl, fun r => ?_⟩
  unfold State.setCore State.core
  by_cases hr : r = p
  · subst hr
    rw [SMap.get_set_self]
    exact ⟨rfl, rfl, rfl⟩
  · rw [show ({ s with cores := s.cores.set p { SMap.get Core.idle s.cores p with tlb := l } } : State).cores =
      s.cores.set p { SMap.get Core.idle s.cores p with tlb := l } from rfl, SMap.get_set_other _ _ _ hr]
    exact ⟨rfl, rfl, rfl⟩

/-- A walk's end: a TLB entry that the core may keep. -/
theorem keepsCores_fill {s u : State} (hu : KeepsCores s u) (p : Nat) (ent : TlbEnt) (keeps : Bool) :
    KeepsCores s (if keeps then ({ u with free := u.free + 1 } : State).setCore p
      { ({ u with free := u.free + 1 } : State).core p with tlb := (ent :: (({ u with free := u.free + 1 } : State).core p).tlb).take 256 }
      else { u with free := u.free + 1 }) := by
  have hf : KeepsCores s { u with free := u.free + 1 } := hu.trans (keepsCores_of_eq rfl rfl)
  split
  · exact hf.trans (keepsCores_setTlb _ _ _)
  · exact hf

theorem translate_keepsCores {s t : State} {c : Ctx} {va : BitVec 64} {k : Need} {pa : Nat}
    (h : s.translate c va k = .ok pa t) : KeepsCores s t := by
  unfold State.translate State.translateVia at h
  split at h
  · exact nomatch h
  split at h
  · exact nomatch h
  split at h
  · dsimp only at h
    split at h
    · exact nomatch h
    · injection h with _ h
      subst h
      exact keepsCores_of_eq rfl rfl
  · split at h
    · exact nomatch h
    · split at h
      · exact nomatch h
      split at h
      · exact nomatch h
      dsimp only at h
      injection h with _ h
      subst h
      refine keepsCores_fill ?_ c.core _ _
      split
      · exact keepsCores_of_eq rfl rfl
      · exact keepsCores_of_eq rfl rfl

theorem watchHit_kept {s t : State} (h : KeepsCores s t) (p va n : Nat) :
    (t.core p).watchHit va n = (s.core p).watchHit va n := by
  obtain ⟨-, h2, h3⟩ := h.2 p
  unfold Core.watchHit Core.hits
  rw [h2, h3]

theorem onCore_kept {s t : State} (h : KeepsCores s t) {n : Nat} (hk : (s.core s.focus.1).active = some n) :
    (t.core t.focus.1).active = some n := by
  rw [h.1, (h.2 _).1]
  exact hk

/-- Outside check mode an access that reaches memory is its translation; no race test changes anything. -/
theorem reaches_translates {s t : State} {b : Ctx} {va : BitVec 64} {n : Nat} {k : Need} {cls : AccCls} {pa : Nat}
    (h : Reaches s b va n k cls t pa) (hc : b.checkMode = false) : s.translate b va k = .ok pa t ∧ t.outside pa = false ∧
      (b.ctl.once.watch = false → (t.core b.core).watchHit va.toNat n = false) := by
  unfold Reaches State.access at h
  have hrace (u : State) : u.raceTest b cls va pa n k.acc = .ok u := by
    unfold State.raceTest State.raceAt
    rw [hc]
    rfl
  split at h
  · exact nomatch h
  · exact nomatch h
  next pa' s1 ht =>
    dsimp only at h
    split at h
    · exact nomatch h
    next ho =>
      split at h
      · exact nomatch h
      next hw =>
        have hr : ∀ p, s1.raceTest b cls va p n k.acc = .ok s1 := fun p => by
          unfold State.raceTest State.raceAt
          rw [hc]
          rfl
        rw [hr] at h
        injection h with h1 h2
        subst h1 h2
        refine ⟨ht, by simpa using ho, fun hs => ?_⟩
        rw [hs] at hw
        simpa using hw

end Sys2Proof.CoreReds
end

section
/-! RED, REDF and REDO (O24). -/
namespace Sys2Proof.CoreReds
open Sys2Proof Sys2Proof.Machine Sys2Proof.Claims Sys2Proof.CoreRetire Sys2Proof.CoreWords

/-! ## What a reduction waits for -/

/-- The copies that a word with rel waits for. -/
def heldCopies (c : Ctx) : Nat × Nat := c.hold.getD (c.inb.issued, c.outb.issued)

/-- Those copies have retired. -/
def Copied (c : Ctx) : Prop := (heldCopies c).1 ≤ c.inb.retired ∧ (heldCopies c).2 ≤ c.outb.retired

/-- A reduction of the member is still to be applied, or a REDO of one of its ended legs to commit (log 54). -/
def Earlier (s : State) (c : Ctx) : Prop :=
  (∃ r ∈ s.reds, r.cid ≠ 0 ∧ r.stage ≠ .done ∧ (r.cid = c.cid ∨ c.kind = .regular ∧ r.lid = c.lid ∧ r.idx = c.idx)) ∨
    ∃ e ∈ c.ended, ∃ r, LegOp.redo r ∈ e.log

/-- A word with rel has nothing more to remember. -/
def freedOf (m : MemF) (k : Ctx) : Ctx := if m.rel then { k with hold := none } else k

theorem hasRedo_iff (l : Leg) : l.hasRedo = true ↔ ∃ r, LegOp.redo r ∈ l.log := by
  unfold Leg.hasRedo
  rw [List.any_eq_true]
  constructor
  · rintro ⟨o, ho, h⟩
    cases o with
    | redo r => exact ⟨r, ho⟩
    | store b => exact nomatch h
  · rintro ⟨r, hr⟩
    exact ⟨_, hr, rfl⟩

theorem earlier_iff (s : State) (c : Ctx) : (s.unapplied c || c.ended.any Leg.hasRedo) = true ↔ Earlier s c := by
  rw [Bool.or_eq_true, CoreControl.unapplied_iff, List.any_eq_true]
  simp only [hasRedo_iff]
  rfl

theorem earlier_begun (s : State) (c : Ctx) (q : Sq) (h : Hd) :
    (s.unapplied (c.begun q h) || (c.begun q h).ended.any Leg.hasRedo) = (s.unapplied c || c.ended.any Leg.hasRedo) := by
  rw [CoreControl.unapplied_begun, begun_ended]

theorem relWait_earlier {s : State} {m : MemF} {c : Ctx} {q : Sq} {h : Hd} (k : Ctx → Res) (hr : m.rel = true) (he : Earlier s c) :
    relWait s m (c.begun q h) k = .stall s (c.begun q h) := by
  unfold relWait
  rw [if_pos hr, earlier_begun, if_pos ((earlier_iff s c).mpr he)]

theorem heldCopies_begun (c : Ctx) (q : Sq) (h : Hd) : heldCopies (c.begun q h) = heldCopies c := by
  unfold heldCopies
  rw [begun_hold, begun_inb, begun_outb]

theorem copied_begun (c : Ctx) (q : Sq) (h : Hd) : Copied (c.begun q h) ↔ Copied c := by
  unfold Copied
  rw [heldCopies_begun, begun_inb, begun_outb]

theorem holdCopies_waits {s : State} {c : Ctx} (k : Ctx → Res) (hc : ¬ Copied c) :
    holdCopies s c k = .stall s { c with hold := some (heldCopies c) } := if_neg hc

theorem holdCopies_goes {s : State} {c : Ctx} (k : Ctx → Res) (hc : Copied c) :
    holdCopies s c k = k { c with hold := none } := if_pos hc

theorem relWait_copies {s : State} {m : MemF} {c : Ctx} {q : Sq} {h : Hd} (k : Ctx → Res) (hr : m.rel = true)
    (he : ¬ Earlier s c) (hc : ¬ Copied c) :
    relWait s m (c.begun q h) k = .stall s { c.begun q h with hold := some (heldCopies c) } := by
  unfold relWait
  rw [if_pos hr, earlier_begun, if_neg (fun e => he ((earlier_iff s c).mp e)),
    holdCopies_waits k (fun e => hc ((copied_begun c q h).mp e)), heldCopies_begun]

theorem relWait_goes {s : State} {m : MemF} {c : Ctx} {q : Sq} {h : Hd} (k : Ctx → Res)
    (hg : m.rel = true → ¬ Earlier s c ∧ Copied c) : relWait s m (c.begun q h) k = k (freedOf m (c.begun q h)) := by
  unfold relWait freedOf
  by_cases hr : m.rel = true
  · obtain ⟨he, hc⟩ := hg hr
    rw [if_pos hr, if_pos hr, earlier_begun, if_neg (fun e => he ((earlier_iff s c).mp e)),
      holdCopies_goes k ((copied_begun c q h).mpr hc)]
  · rw [if_neg hr, if_neg hr]

/-! ## The reduction -/

/-- The reduction that a word of the context makes. -/
def redOf (c : Ctx) (m : MemF) (pa kind : Nat) (op : AmoOp) (ty : Fmt) : Red :=
  { kind := kind, op := op, size := m.size, ty := ty, val := operand c m, va := address c m, pa := pa, v1 := 0, e1 := 0
    v2 := 0, e2 := 0, cid := c.cid, lid := c.lid, idx := c.idx, core := c.core, sup := c.sup, legno := c.legno
    stamp := c.stamp, scope := if m.rel then m.scope else .core, tag := 0, stage := .here, reply := none, root := c.root }

theorem red_freed (c : Ctx) (q : Sq) (h : Hd) (m : MemF) (kind : Nat) (op : AmoOp) (ty : Fmt) (v va : BitVec 64) (pa : Nat) :
    (freedOf m (c.begun q h)).red m kind op ty v va pa = c.red m kind op ty v va pa := by
  obtain ⟨l, a, b, e⟩ := c.begun_cases q h
  unfold freedOf
  rw [e]
  split <;> rfl

theorem red_eq (c : Ctx) (m : MemF) (kind : Nat) (op : AmoOp) (ty : Fmt) (pa : Nat) :
    c.red m kind op ty (c.ctl.value m) (c.ctl.addr m.base m.off) pa = redOf c m pa kind op ty := by
  unfold Ctx.red redOf
  rw [addr_eq_address]
  rfl

/-- A reduction goes to a home slice of its core's die. -/
theorem dispatchRed_near {s : State} {r : Red} (h : s.homeDie r.pa = dieOf r.core) :
    s.dispatchRed r = { s with reds := s.reds ++ [r] } := if_pos h

/-- A reduction goes as a message to another die. -/
theorem dispatchRed_far {s : State} {r : Red} (h : s.homeDie r.pa ≠ dieOf r.core) :
    s.dispatchRed r = ({ s with reds := s.reds ++ [{ r with tag := s.freeTag r.core, stage := .sent }] } : State).sendTo
      (dieOf r.core) r.pa (redMsg { r with tag := s.freeTag r.core, stage := .sent }) := if_neg h

/-- The body of a value form: `k` sends the reduction. -/
def redBody (m : MemF) (kind : Nat) (op : AmoOp) (ty : Fmt) (k : State → Ctx → Red → Res) (s : State) (c : Ctx) : Res :=
  if c.isTask then .trap s outctxTrap
  else reading s c (valueRegs m ++ pairRegs m.base) (fun x =>
    let va := x.addr m.base m.off
    let n := MemF.bytes m
    if va.toNat % n ≠ 0 then .trap s (alignTrap va .both)
    else s.scalarAccess c va n .both .atomic none (fun s1 pa =>
      escape s c (relWait s m c (fun c => k s1 c (c.red m kind op ty (x.value m) va pa)))))

/-- `i` is a value form of reduction `kind`, which `k` sends. -/
def ValueForm (i : Instr) (h : Hd) (m : MemF) (kind : Nat) (op : AmoOp) (ty : Fmt) (k : State → Ctx → Red → Res) : Prop :=
  i.len = 2 ∧ ∀ s, exec i s = accOut 2 (runWord h 2 false s (redBody m kind op ty k))

theorem red_form (h : Hd) (m : MemF) (op : AmoOp) : ValueForm (.red h m op) h m 0 op .n32 sendRed := ⟨rfl, fun _ => rfl⟩

theorem redf_form (h : Hd) (m : MemF) (ty : Fmt) : ValueForm (.redf h m false ty) h m 1 .add ty sendRed := ⟨rfl, fun _ => rfl⟩

theorem redo_form (h : Hd) (m : MemF) (ty : Fmt) : ValueForm (.redo h m ty) h m 2 .add ty enterRedo := ⟨rfl, fun _ => rfl⟩

section
variable {i : Instr} {s s1 : State} {c : Ctx} {h : Hd} {m : MemF} {pa kind : Nat} {op : AmoOp} {ty : Fmt}
  {k : State → Ctx → Red → Res}

theorem red_in_task (hi : ValueForm i h m kind op ty k) (hr : Runs s c h) (hk : OnCore s c) (ht : c.isTask = true) :
    Traps i s c { mkTrap 0x21 0 with acc := 2 } := by
  refine acc_traps (hi.2 s) (enters_of_runs hr) hk (t := mkTrap 0x21 0) ?_
  unfold redBody
  rw [if_pos (by rw [Ctx.begun_isTask]; exact ht)]
  rfl

/-- What a value form's body answers once its access has passed. -/
theorem redBody_eq (hq : s.focus.2 = .ctl) (hc : c.checkMode = false) (ht : c.isTask = false)
    (ha : (address c m).toNat % width m = 0)
    (hx : Reaches s (c.begun .ctl h) (address c m) (width m) .both .atomic s1 pa)
    (he : s.escapeOk (c.begun .ctl h) = true) :
    redBody m kind op ty k s (c.begun s.focus.2 h) = relWait s m (c.begun s.focus.2 h) (fun b =>
      k s1 b (b.red m kind op ty (c.ctl.value m) (c.ctl.addr m.base m.off) pa)) := by
  have hfree : EscapeFree s c := by
    rw [escapeOk_begun] at he
    exact escapeFree_of_ok he
  unfold redBody
  dsimp only
  rw [if_neg (by rw [Ctx.begun_isTask, ht]; exact Bool.false_ne_true), reading_readable _ (.inl hc), hq,
    show c.seqr .ctl = c.ctl from rfl, addr_eq_address, if_neg (by rw [ne_eq, not_not]; exact ha)]
  unfold State.scalarAccess
  rw [show s.access (c.begun .ctl h) (c.begun .ctl h).ctl.once.watch (address c m) (MemF.bytes m) .both .atomic none = .ok s1 pa
    from hx]
  exact escape_free _ hfree _ _

theorem valueForm_waits (hi : ValueForm i h m kind op ty k) (hr : Runs s c h) (hq : s.focus.2 = .ctl)
    (hc : c.checkMode = false) (ht : c.isTask = false) (ha : (address c m).toNat % width m = 0)
    (hx : Reaches s (c.begun .ctl h) (address c m) (width m) .both .atomic s1 pa)
    (he : s.escapeOk (c.begun .ctl h) = true) (hrel : m.rel = true) :
    (Earlier s c → Holds i s c) ∧
      (¬ Earlier s c → ¬ Copied c → exec i s = .next (s.keep { c with hold := some (heldCopies c) }).stalled) := by
  refine ⟨fun hear => ?_, fun hear hcop => ?_⟩
  · refine acc_holds (hi.2 s) (enters_of_runs hr) ?_
    rw [redBody_eq hq hc ht ha hx he, relWait_earlier _ hrel hear]
  · refine acc_remembers (hi.2 s) (enters_of_runs hr) ?_
    rw [redBody_eq hq hc ht ha hx he, relWait_copies _ hrel hear hcop]

/-- A value form sends its reduction in the context that waits for nothing more. -/
theorem valueForm_sends (hi : ValueForm i h m kind op ty k) (hr : Runs s c h) (hq : s.focus.2 = .ctl)
    (hc : c.checkMode = false) (ht : c.isTask = false) (ha : (address c m).toNat % width m = 0)
    (hx : Reaches s (c.begun .ctl h) (address c m) (width m) .both .atomic s1 pa)
    (he : s.escapeOk (c.begun .ctl h) = true) (hg : m.rel = true → ¬ Earlier s c ∧ Copied c) {s2 : State} {f : Ctx → Ctx}
    (hk : k s1 (freedOf m (c.begun s.focus.2 h)) (redOf c m pa kind op ty) = .done s2 (f (c.begun s.focus.2 h)) .none false) :
    CompletesIn i s s2 c h .none f := by
  refine acc_completesIn (hi.2 s) hi.1 (enters_of_runs hr) ?_
  rw [redBody_eq hq hc ht ha hx he, relWait_goes _ hg, red_freed, red_eq]
  exact hk

end

/-- What `sends` says in the claim: to a home slice of the own die, or as a message. -/
theorem dispatched_cases {i : Instr} {s t : State} {c : Ctx} {h : Hd} {f : Ctx → Ctx} {r : Red} (hcore : r.core = c.core)
    (hd : CompletesIn i s (t.dispatchRed r) c h .none f) :
    (t.homeDie r.pa = dieOf c.core → CompletesIn i s { t with reds := t.reds ++ [r] } c h .none f) ∧
    (t.homeDie r.pa ≠ dieOf c.core → CompletesIn i s
      (({ t with reds := t.reds ++ [{ r with tag := t.freeTag c.core, stage := .sent }] } : State).sendTo (dieOf c.core) r.pa
        (redMsg { r with tag := t.freeTag c.core, stage := .sent })) c h .none f) := by
  rw [← hcore]
  refine ⟨fun hn => ?_, fun hn => ?_⟩
  · rwa [dispatchRed_near hn] at hd
  · rwa [dispatchRed_far hn] at hd

/-- A leg with room takes its REDO in (R430). -/
theorem enterRedo_fits {t : State} {c : Ctx} {q : Sq} {h : Hd} {m : MemF} {l : Leg} {pa : Nat} {op : AmoOp} {ty : Fmt}
    (hl : (c.begun q h).leg = some l) (hn : l.entries + 1 ≤ 256) :
    enterRedo t (freedOf m (c.begun q h)) (redOf c m pa 2 op ty) =
      .done t (freedOf m { c.begun q h with leg := some { l with log := l.log ++ [.redo (redOf c m pa 2 op ty)] } }) .none false := by
  have hleg : (freedOf m (c.begun q h)).leg = some l := by
    unfold freedOf
    split
    · exact hl
    · exact hl
  have hcur : (freedOf m (c.begun q h)).curLeg = l := by unfold Ctx.curLeg; rw [hleg]; rfl
  have hroom : (freedOf m (c.begun q h)).room 1 = freedOf m (c.begun q h) := by
    unfold Ctx.room
    rw [hcur, if_neg (by omega)]
  have hno : (freedOf m (c.begun q h)).legno = c.legno ∧ (freedOf m (c.begun q h)).stamp = c.stamp := by
    obtain ⟨l', a, b, e⟩ := c.begun_cases q h
    unfold freedOf
    rw [e]
    split
    · exact ⟨rfl, rfl⟩
    · exact ⟨rfl, rfl⟩
  have hred : ({ redOf c m pa 2 op ty with legno := (freedOf m (c.begun q h)).legno, stamp := (freedOf m (c.begun q h)).stamp } :
      Red) = redOf c m pa 2 op ty := by
    rw [hno.1, hno.2]
    rfl
  unfold enterRedo
  dsimp only
  rw [hroom, hcur]
  refine Eq.trans (b := Res.ok t { freedOf m (c.begun q h) with
    leg := some { l with log := l.log ++ [.redo (redOf c m pa 2 op ty)] } }) ?_ ?_
  · rw [← hred]
  · unfold freedOf
    split
    · rfl
    · rfl

/-! ## The shape form of REDF -/

/-- The body of the shape form. -/
def shapeBody (m : MemF) (s : State) (c : Ctx) : Res :=
  if c.isTask then .trap s outctxTrap
  else reading s c ([m.reg, m.reg + 1] ++ pairRegs m.base) (fun x =>
    let va := x.addr m.base m.off
    if va.toNat % 64 ≠ 0 then .trap s (alignTrap va .both)
    else
      match s.reach c none .both [] [(va, 64)] with
      | .trap s1 t => .trap s1 t
      | .stall => .stall s c
      | .dead => .dead .deviceWindow
      | .ok s0 rs =>
        match s0.fetchFar c 0 (rs.map (fun p => (p.2.1, p.2.2))) with
        | (false, s1) => .stall (s.asking s1) c
        | (true, s1) =>
        match s1.readPieces { c with dmode := 0 } (fun _ => true) va.toNat 0 rs with
        | .trap t => .trap s1 t
        | .ok bs f => shapeSend m va x s s1 c rs bs f)

theorem redf_shape_exec (h : Hd) (m : MemF) (ty : Fmt) (s : State) :
    exec (.redf h m true ty) s = accOut 2 (runWord h 2 false s (shapeBody m)) := rfl

/-- A piece that translates joins those before it. -/
theorem reach_cons {s t : State} {c : Ctx} {k : Need} {a : BitVec 64} {n pa : Nat} (acc : List Piece)
    (r : List (BitVec 64 × Nat)) (ht : s.translate c a k = .ok pa t) (ho : t.outside pa = false) :
    s.reach c none k acc ((a, n) :: r) = t.reach c none k (acc ++ [(a, pa, n)]) r := by
  rw [State.reach, show s.translateVia c none a k = .ok pa t from ht]
  dsimp only
  rw [if_neg (by rw [ho]; exact Bool.false_ne_true)]

/-- Words of this package are not asked for. -/
theorem fetchFar_home {s : State} {c : Ctx} {eng : Nat} {ps : List (Nat × Nat)}
    (h : ∀ p ∈ ps, ∀ i < p.2, s.homeDie ((p.1 + i) / 8 * 8) < 3) : s.fetchFar c eng ps = (true, s) := by
  have hw : s.farWords ps = [] := by
    unfold State.farWords
    rw [List.filter_eq_nil_iff]
    intro w hw
    rw [List.mem_eraseDups, List.mem_flatMap] at hw
    obtain ⟨p, hp, hw⟩ := hw
    obtain ⟨i, hi, rfl⟩ := List.mem_map.mp hw
    have := h p hp i (List.mem_range.mp hi)
    simpa using this
  unfold State.fetchFar
  rw [hw]
  rfl

theorem mem_pieceAddrs_one {va : BitVec 64} {pa n : Nat} {x : Nat × Nat} (h : x ∈ pieceAddrs [(va, pa, n)]) :
    ∃ i < n, x = (va.toNat + i, pa + i) := by
  unfold pieceAddrs at h
  rw [List.flatMap_singleton, List.mem_map] at h
  obtain ⟨i, hi, rfl⟩ := h
  exact ⟨i, List.mem_range.mp hi, rfl⟩

theorem bytes_eq_map (m : Mem) (a n : Nat) : m.bytes a n = (List.range n).map (fun i => m.byte (a + i)) := by
  induction n generalizing a with
  | zero => rfl
  | succ n ih =>
    rw [Mem.bytes, ih, List.range_succ_eq_map, List.map_cons, List.map_map]
    refine congrArg₂ List.cons rfl (List.map_congr_left fun i _ => ?_)
    exact congrArg m.byte (by simp only [Nat.succ_eq_add_one]; omega)

/-- A read of one piece whose bytes are all present. -/
theorem readPieces_present {s : State} {c : Ctx} {va : BitVec 64} {pa n : Nat} (keep : Nat × Nat → Bool) (shape dc : Nat)
    (h : ∀ i < n, s.dram.unit 64 (pa + i) = .present) :
    s.readPieces c keep shape dc [(va, pa, n)] = .ok ((List.range n).map (fun i => s.dram.byte (pa + i))) 0 := by
  have hnone (u : UState) (hu : u ≠ .present) :
      ((pieceAddrs [(va, pa, n)]).filter keep).find? (fun x => s.dram.unit 64 x.2 == u) = none := by
    rw [List.find?_eq_none]
    intro x hx
    obtain ⟨i, hi, rfl⟩ := mem_pieceAddrs_one (List.mem_filter.mp hx).1
    rw [h i hi]
    simpa using hu.symm
  unfold State.readPieces State.probe
  dsimp only
  rw [hnone .vacated (fun e => nomatch e), hnone .lost (fun e => nomatch e)]
  have hc : (if c.checkMode then (none : Option (Nat × Nat)) else none) = none := by split <;> rfl
  rw [hc]
  dsimp only
  rw [List.flatMap_singleton, bytes_eq_map]
  rfl

section
variable {s s1 s2 : State} {c : Ctx} {h : Hd} {m : MemF} {ty : Fmt} {pa : Nat}

theorem shape_in_task (hr : Runs s c h) (hk : OnCore s c) (ht : c.isTask = true) :
    Traps (.redf h m true ty) s c { mkTrap 0x21 0 with acc := 2 } := by
  refine acc_traps (redf_shape_exec h m ty s) (enters_of_runs hr) hk (t := mkTrap 0x21 0) ?_
  unfold shapeBody
  rw [if_pos (by rw [Ctx.begun_isTask]; exact ht)]
  rfl

/-- The record that a shape form reads at a physical address. -/
def recordAt (s : State) (pa : Nat) : List Byte := (List.range 64).map (fun i => s.dram.byte (pa + i))

theorem shapeBody_reads (hq : s.focus.2 = .ctl) (hc : c.checkMode = false) (ht : c.isTask = false)
    (ha : (address c m).toNat % 64 = 0) (hx : Reaches s (c.begun .ctl h) (address c m) 64 .both .atomic s1 pa)
    (hp : ∀ i < 64, s1.dram.unit 64 (pa + i) = .present ∧ s1.homeDie ((pa + i) / 8 * 8) < 3) :
    shapeBody m s (c.begun s.focus.2 h) =
      shapeSend m (address c m) c.ctl s s1 (c.begun .ctl h) [(address c m, pa, 64)] (recordAt s1 pa) 0 := by
  have hcb : (c.begun .ctl h).checkMode = false := by rw [Ctx.begun_checkMode]; exact hc
  obtain ⟨htr, hout, -⟩ := reaches_translates hx hcb
  have hreach : s.reach (c.begun .ctl h) none .both [] [(address c m, 64)] = .ok s1 [(address c m, pa, 64)] := by
    rw [reach_cons [] [] htr hout]; rfl
  have hfar : s1.fetchFar (c.begun .ctl h) 0 ([(address c m, pa, 64)].map (fun p => (p.2.1, p.2.2))) = (true, s1) := by
    refine fetchFar_home fun p hp' i hi => ?_
    rw [List.map_singleton, List.mem_singleton] at hp'
    subst hp'
    exact (hp i hi).2
  unfold shapeBody
  dsimp only
  rw [if_neg (by rw [Ctx.begun_isTask, ht]; exact Bool.false_ne_true), reading_readable _ (.inl hc), hq,
    show c.seqr .ctl = c.ctl from rfl, addr_eq_address, if_neg (by rw [ne_eq, not_not]; exact ha), hreach]
  dsimp only
  rw [hfar]
  dsimp only
  rw [readPieces_present _ _ _ (fun i hi => (hp i hi).1)]
  rfl

/-- SHAPE, where the record does not pass its check or the tensor takes no adds. -/
theorem shapeSend_bad {va : BitVec 64} {x : Seqr} {s0 : State} {rs : List Piece} {bs : List Byte} {f : BitVec 5}
    (hb : ¬ ((Shape.ofRec (recOfBytes bs)).ok (recOfBytes bs) = true ∧ (Shape.ofRec (recOfBytes bs)).accf ≠ 0)) :
    shapeSend m va x s0 s c rs bs f = .trap s (shapeTrap va) := by
  unfold shapeSend
  dsimp only
  rw [if_pos]
  by_cases hok : (Shape.ofRec (recOfBytes bs)).ok (recOfBytes bs) = true
  · have h0 : (Shape.ofRec (recOfBytes bs)).accf = 0 := by_contra fun h => hb ⟨hok, h⟩
    simp [h0]
  · simp [hok]

/-- A good record's other answers rest on the index. -/
theorem shapeSend_good {bs : List Byte} (hok : (Shape.ofRec (recOfBytes bs)).ok (recOfBytes bs) = true)
    (h0 : (Shape.ofRec (recOfBytes bs)).accf ≠ 0) :
    ¬ (!(Shape.ofRec (recOfBytes bs)).ok (recOfBytes bs) || (Shape.ofRec (recOfBytes bs)).accf == 0) = true := by
  simp [hok, h0]

theorem shapeSend_beyond {va : BitVec 64} {x : Seqr} {s0 : State} {rs : List Piece} {bs : List Byte} {f : BitVec 5}
    (hok : (Shape.ofRec (recOfBytes bs)).ok (recOfBytes bs) = true) (h0 : (Shape.ofRec (recOfBytes bs)).accf ≠ 0)
    (hl : (Shape.ofRec (recOfBytes bs)).d0 * (Shape.ofRec (recOfBytes bs)).d1 * (Shape.ofRec (recOfBytes bs)).d2 *
      (Shape.ofRec (recOfBytes bs)).d3 ≤ (x.reg m.reg).toNat) :
    shapeSend m va x s0 s c rs bs f = .trap s (mkTrap 0x0C (x.reg m.reg)) := by
  unfold shapeSend
  dsimp only
  rw [if_neg (shapeSend_good hok h0), if_pos hl]

/-- The add that the shape form sends, its places given. -/
def shapeAdd (c : Ctx) (m : MemF) (va : BitVec 64) (x : Seqr) (rs ps : List Piece) (v1 v2 : BitVec 64) (far : Bool) : Red :=
  let at' (i : Nat) : Nat := ((ps.drop rs.length)[i]?.map (fun p => p.2.1)).getD 0
  { c.red m 3 .add .fp32 ((x.reg (m.reg + 1)).zeroExtend 64) va ((rs.head?.map (fun p => p.2.1)).getD 0) with
    v1 := v1, e1 := at' 0, v2 := if far then v2 else 0, e2 := if far then at' 1 else 0 }

theorem shapeSend_sends {va : BitVec 64} {x : Seqr} {s0 : State} {rs ps : List Piece} {bs : List Byte} {f : BitVec 5} {a1 : Nat}
    {a2 : Option Nat} (hc : c.checkMode = false)
    (hok : (Shape.ofRec (recOfBytes bs)).ok (recOfBytes bs) = true) (h0 : (Shape.ofRec (recOfBytes bs)).accf ≠ 0)
    (hl : (x.reg m.reg).toNat < (Shape.ofRec (recOfBytes bs)).d0 * (Shape.ofRec (recOfBytes bs)).d1 *
      (Shape.ofRec (recOfBytes bs)).d2 * (Shape.ofRec (recOfBytes bs)).d3)
    (ht : (Shape.ofRec (recOfBytes bs)).targets (x.reg m.reg).toNat = (a1, a2))
    (hreach : s.reach c none .both rs ((BitVec.ofNat 64 a1, if (Shape.ofRec (recOfBytes bs)).accf = 1 then 2 else 4) ::
      (if a2.isSome then [(BitVec.ofNat 64 (a2.getD a1), 4)] else [])) = .ok s2 ps)
    (hw : c.ctl.once.watch = false → ∀ p ∈ ps, (s2.core c.core).watchHit p.1.toNat p.2.2 = false) :
    shapeSend m va x s0 s c rs bs f = escape s0 c (relWait s0 m c (fun k => sendRed s2 (k.flagAt .ctl none f)
      (shapeAdd k m va x rs ps (BitVec.ofNat 64 a1) (BitVec.ofNat 64 (a2.getD a1)) a2.isSome))) := by
  have hwatch : (if c.ctl.once.watch then none else (s2.core c.core).watchPieces 2 ps) = none := by
    cases ho : c.ctl.once.watch
    · rw [if_neg Bool.false_ne_true, Core.watchPieces, List.find?_eq_none.mpr fun p hp => by rw [hw ho p hp]; exact Bool.false_ne_true]
      rfl
    · rfl
  have hrace : s2.racePieces c .atomic 2 ps = .ok s2 := by
    have hnil : ps.filter (fun p => (s2.raceAt c .atomic p.2.1 p.2.2).isSome) = [] :=
      List.filter_eq_nil_iff.mpr fun p _ => by
        unfold State.raceAt
        rw [hc]
        exact Bool.false_ne_true
    unfold State.racePieces
    dsimp only
    rw [hnil]
    rfl
  unfold shapeSend
  dsimp only
  rw [if_neg (shapeSend_good hok h0), if_neg (by omega), ht]
  dsimp only
  rw [hreach]
  dsimp only
  rw [hwatch]
  dsimp only
  rw [hrace]
  rfl

/-- What a shape form's body answers for a good record and an index in the tensor, once its pieces have passed. -/
theorem shape_sends (hr : Runs s c h) (hq : s.focus.2 = .ctl) (hc : c.checkMode = false) (ht : c.isTask = false)
    (ha : (address c m).toNat % 64 = 0) (hx : Reaches s (c.begun .ctl h) (address c m) 64 .both .atomic s1 pa)
    (hp : ∀ i < 64, s1.dram.unit 64 (pa + i) = .present ∧ s1.homeDie ((pa + i) / 8 * 8) < 3)
    (hok : (Shape.ofRec (recOfBytes (recordAt s1 pa))).ok (recOfBytes (recordAt s1 pa)) = true)
    (h0 : (Shape.ofRec (recOfBytes (recordAt s1 pa))).accf ≠ 0)
    (hl : (c.ctl.reg m.reg).toNat < (Shape.ofRec (recOfBytes (recordAt s1 pa))).d0 * (Shape.ofRec (recOfBytes (recordAt s1 pa))).d1 *
      (Shape.ofRec (recOfBytes (recordAt s1 pa))).d2 * (Shape.ofRec (recOfBytes (recordAt s1 pa))).d3)
    (he : s.escapeOk (c.begun .ctl h) = true) (hg : m.rel = true → ¬ Earlier s c ∧ Copied c) {a1 : Nat} {a2 : Option Nat}
    (htg : (Shape.ofRec (recOfBytes (recordAt s1 pa))).targets (c.ctl.reg m.reg).toNat = (a1, a2)) {ps : List Piece}
    (hreach : s1.reach (c.begun .ctl h) none .both [(address c m, pa, 64)]
      ((BitVec.ofNat 64 a1, if (Shape.ofRec (recOfBytes (recordAt s1 pa))).accf = 1 then 2 else 4) ::
      (if a2.isSome then [(BitVec.ofNat 64 (a2.getD a1), 4)] else [])) = .ok s2 ps)
    (hw : (c.begun .ctl h).ctl.once.watch = false → ∀ p ∈ ps, (s2.core (c.begun .ctl h).core).watchHit p.1.toNat p.2.2 = false) :
    CompletesIn (.redf h m true ty) s (s2.dispatchRed (shapeAdd c m (address c m) c.ctl [(address c m, pa, 64)] ps (BitVec.ofNat 64 a1)
      (BitVec.ofNat 64 (a2.getD a1)) a2.isSome)) c h .none (freedOf m) := by
  have hfree : EscapeFree s c := by
    rw [escapeOk_begun] at he
    exact escapeFree_of_ok he
  refine acc_completesIn (redf_shape_exec h m ty s) rfl (enters_of_runs hr) ?_
  rw [shapeBody_reads hq hc ht ha hx hp,
    shapeSend_sends (by rw [Ctx.begun_checkMode]; exact hc) hok h0 hl htg hreach hw, escape_free _ hfree, relWait_goes _ hg, hq]
  unfold shapeAdd
  dsimp only
  rw [red_freed]
  rfl

end

theorem watchHit_of_reaches {s t u : State} {b : Ctx} {va : BitVec 64} {n : Nat} {k : Need} {cls : AccCls} {pa : Nat}
    (hx : Reaches s b va n k cls t pa) (hc : b.checkMode = false) (hk : KeepsCores t u) (ho : b.ctl.once.watch = false) :
    (u.core b.core).watchHit va.toNat n = false := by
  rw [watchHit_kept hk]
  exact (reaches_translates hx hc).2.2 ho

theorem keepsCores_self (s : State) : KeepsCores s s := keepsCores_of_eq rfl rfl

/-- Settles O24: the value forms share one body; the shape form reads its record, and its pieces pass one by one. -/
theorem reductionsAreSent : Obligations.ReductionsAreSent := by
  unfold Obligations.ReductionsAreSent
  intro s s1 c h m op ty pa l hr hk hq hc trap b held copied earlier freed go red sends
  have hcb : b.checkMode = false := by rw [Ctx.begun_checkMode]; exact hc
  refine ⟨fun ht => ⟨red_in_task (red_form h m op) hr hk ht, red_in_task (redo_form h m ty) hr hk ht,
    red_in_task (redf_form h m ty) hr hk ht, shape_in_task hr hk ht⟩, fun ht ha hl hx he => ⟨fun i hi hrel => ?_, fun hg => ?_⟩,
    fun ht ha hx hp => ?_⟩
  · rcases hi with rfl | rfl | rfl
    · exact valueForm_waits (red_form h m op) hr hq hc ht ha hx he hrel
    · exact valueForm_waits (redf_form h m ty) hr hq hc ht ha hx he hrel
    · exact valueForm_waits (redo_form h m ty) hr hq hc ht ha hx he hrel
  · refine ⟨dispatched_cases (r := redOf c m pa 0 op .n32) rfl (valueForm_sends (red_form h m op) hr hq hc ht ha hx he hg rfl),
      dispatched_cases (r := redOf c m pa 1 .add ty) rfl (valueForm_sends (redf_form h m ty) hr hq hc ht ha hx he hg rfl), fun hn => ?_⟩
    refine valueForm_sends (redo_form h m ty) hr hq hc ht ha hx he hg (s2 := s1)
      (f := fun k => freedOf m { k with leg := some { l with log := l.log ++ [.redo (redOf c m pa 2 .add ty)] } }) ?_
    rw [hq]
    exact enterRedo_fits hl hn
  · intro rec' sh x e add near
    have hk1 := translate_keepsCores (reaches_translates hx hcb).1
    have hon : (s1.core s1.focus.1).active = some c.cid := onCore_kept hk1 hk
    have hbody := shapeBody_reads hq hc ht ha hx hp
    refine ⟨fun hb => ?_, fun hok h0 hle => ?_, fun hok h0 hlt he hg s2 p1 hn => ⟨fun hT => ?_, fun f s3 p2 hT hn2 => ?_⟩⟩
    · rw [acc_traps_in (redf_shape_exec h m ty s) (enters_of_runs hr) hon (hbody.trans (shapeSend_bad hb)), hq]
      rfl
    · rw [acc_traps_in (redf_shape_exec h m ty s) (enters_of_runs hr) hon (hbody.trans (shapeSend_beyond hok h0 hle)), hq]
      rfl
    · obtain ⟨ht1, ho1, -⟩ := reaches_translates hn hcb
      have hk2 := translate_keepsCores ht1
      have hd := shape_sends (ty := ty) (a1 := e) (a2 := none) (ps := [(address c m, pa, 64), (BitVec.ofNat 64 e, p1, if sh.accf = 1 then 2 else 4)])
        hr hq hc ht ha hx hp hok h0 hlt he hg (Prod.ext rfl hT) (reach_cons _ [] ht1 ho1) ?_
      · exact dispatched_cases (r := add p1 0 0) rfl hd
      · intro hw p hp'
        rcases List.mem_cons.mp hp' with rfl | hp'
        · exact watchHit_of_reaches hx hcb hk2 hw
        · rw [List.mem_singleton] at hp'
          subst hp'
          exact watchHit_of_reaches hn hcb (keepsCores_self _) hw
    · obtain ⟨ht1, ho1, -⟩ := reaches_translates hn hcb
      obtain ⟨ht2, ho2, -⟩ := reaches_translates hn2 hcb
      have hk2 := translate_keepsCores ht1
      have hk3 := translate_keepsCores ht2
      have hd := shape_sends (ty := ty) (a1 := e) (a2 := some f) (ps := [(address c m, pa, 64), (BitVec.ofNat 64 e, p1, if sh.accf = 1 then 2 else 4),
        (BitVec.ofNat 64 f, p2, 4)]) hr hq hc ht ha hx hp hok h0 hlt he hg (Prod.ext rfl hT)
        ((reach_cons _ _ ht1 ho1).trans (reach_cons _ [] ht2 ho2)) ?_
      · exact dispatched_cases (r := add p1 p2 (BitVec.ofNat 64 f)) rfl hd
      · intro hw p hp'
        rcases List.mem_cons.mp hp' with rfl | hp'
        · exact watchHit_of_reaches hx hcb (hk2.trans hk3) hw
        · rcases List.mem_cons.mp hp' with rfl | hp'
          · exact watchHit_of_reaches hn hcb hk3 hw
          · rw [List.mem_singleton] at hp'
            subst hp'
            exact watchHit_of_reaches hn2 hcb (keepsCores_self _) hw

end Sys2Proof.CoreReds
end

section
/-! The turns (O52). -/
namespace Sys2Proof.CoreTurns
open Sys2Proof Sys2Proof.Machine Sys2Proof.Claims

/-! ## What a sequencer reads -/

theorem read_eq_map (pl : Plane) (off n : Nat) :
    pl.read off n = (List.range n).map (fun i => pl.bytes.get 0 (off + i)) := by
  induction n generalizing off with
  | zero => rfl
  | succ n ih =>
    rw [Plane.read, ih, List.range_succ_eq_map, List.map_cons, List.map_map]
    refine congrArg _ (List.map_congr_left fun i _ => ?_)
    show pl.bytes.get 0 (off + 1 + i) = pl.bytes.get 0 (off + (i + 1))
    rw [Nat.add_assoc, Nat.add_comm 1]

theorem fetch_eq (s : State) (p : Nat) (q : Sq) (pc : Nat) : s.fetch p q pc = decode q pc (bytesAt s p q pc) :=
  congrArg (decode q pc) (read_eq_map _ _ _)

/-- What stands next, by the state of the sequencer and what its bytes decode to. -/
theorem nextWord_empty {s : State} {p : Nat} {c : Ctx} {q : Sq} (h : (c.seqr q).run ≠ .running) :
    s.nextWord p c q = .empty := if_pos (bne_iff_ne.2 h)

section
variable {s : State} {p : Nat} {c : Ctx} {q : Sq} (hr : (c.seqr q).run = .running) (hb : (c.seqr q).bcast = none)
include hr hb

theorem nextWord_running : s.nextWord p c q = if q.limit ≤ (c.seqr q).pc then .past
    else match decode q (c.seqr q).pc (bytesAt s p q (c.seqr q).pc) with
      | .ok (i, _) => .word i
      | .error r => .illegal r.tval := by
  simp only [State.nextWord, hr, hb, fetch_eq, bne_self_eq_false, Bool.false_eq_true, if_false] <;> rfl

theorem nextWord_past (hl : q.limit ≤ (c.seqr q).pc) : s.nextWord p c q = .past := by
  rw [nextWord_running hr hb, if_pos hl]

theorem nextWord_word (hl : (c.seqr q).pc < q.limit) {i : Instr} {n : Nat}
    (hd : decode q (c.seqr q).pc (bytesAt s p q (c.seqr q).pc) = .ok (i, n)) : s.nextWord p c q = .word i := by
  rw [nextWord_running hr hb, if_neg (Nat.not_le.2 hl), hd]

theorem nextWord_illegal (hl : (c.seqr q).pc < q.limit) {e : Reject}
    (hd : decode q (c.seqr q).pc (bytesAt s p q (c.seqr q).pc) = .error e) : s.nextWord p c q = .illegal e.tval := by
  rw [nextWord_running hr hb, if_neg (Nat.not_le.2 hl), hd]
end

/-! ## TRAP is a word of the control sequencer -/

theorem checkWf_wf {q : Sq} {idx : Nat} {head : Word} {i j : Instr} {n : Nat}
    (h : checkWf q idx head i = .ok (j, n)) : j.wf q idx = true := by
  unfold checkWf at h
  split at h
  · next hw => cases h; exact hw
  · cases h

theorem decode_wf {q : Sq} {idx : Nat} {bs : List Byte} {i : Instr} {n : Nat}
    (h : decode q idx bs = .ok (i, n)) : i.wf q idx = true := by
  unfold decode at h
  split at h
  · split at h
    · cases h
    · split at h
      · cases h
      · split at h
        · cases h
        · exact checkWf_wf h
  · split at h
    · cases h
    · split at h
      · cases h
      · exact checkWf_wf h

theorem ctl_of_trapWord {q : Sq} {idx : Nat} {bs : List Byte} {i : Instr} {n : Nat}
    (h : decode q idx bs = .ok (i, n)) (ht : isTrapWord i = true) : q = .ctl := by
  have hw := decode_wf h
  cases i <;> cases ht
  have := (Bool.and_eq_true _ _).mp hw
  exact eq_of_beq ((Bool.and_eq_true _ _).mp this.2).1

/-! ## Turns in general -/

theorem runTurn_event (s : State) (i : Instr) (hc : ∀ p, i ≠ .cycleMatchStop p)
    (hm : ∀ n, i ≠ .engineCommandStart n .mx) : runTurn (.event i) s = exec i s := by
  unfold runTurn
  split
  · next p h => cases h; exact absurd rfl (hc p)
  · next n h => cases h; exact absurd rfl (hm n)
  · next h => cases h; rfl
  · next h => cases h

theorem runTurn_issue {s : State} {p : Nat} {q : Sq} {c : Ctx} (ha : s.activeCtx p = some c)
    (hs : c.stat = .running ∨ c.stat = .inverse) (hv : s.coreServes c = true)
    (hl : ((c.leaving || s.displaced c) && !s.goesOn c) = false) :
    runTurn (.issue p q) s = match c.impr with
      | k :: _ => .next (s.imprecise c k)
      | [] => runWords s p q c := by
  have hm : s.mayIssue c = true := by
    unfold State.mayIssue
    rw [hv, Bool.and_true, ← Bool.not_not (s.goesOn c), ← Bool.not_and, hl, Bool.not_false, Bool.and_true]
    rcases hs with h | h <;> rw [h] <;> rfl
  simp only [runTurn, ha, hm, if_true] <;> rfl

theorem spoilt_none {s : State} {p : Nat} (c : Ctx) (qs : List Sq)
    (h : ∀ pl, (s.core p).plane = some pl → pl.bad = []) : s.spoilt p c qs = none := by
  have hq : ∀ q, s.spoiltAt p c q = [] := by
    intro q
    unfold State.spoiltAt
    split
    · next pl hp => simp [h pl hp]
    · rfl
  exact List.findSome?_eq_none_iff.2 fun q _ => by rw [hq q]; rfl

/-- A core that serves its context issues the context's words. -/
theorem turn_of_serving {s : State} {p : Nat} {c : Ctx} (h : Serving s p c) (q : Sq) :
    runTurn (.issue p q) s = if c.joined then runJoined s p c else runForked s p q c := by
  obtain ⟨ha, hs, hv, hl, hi, hm, hb⟩ := h
  rw [runTurn_issue ha hs hv hl, hi]
  simp only [runWords, spoilt_none c _ hb, hm, Bool.false_eq_true, if_false]

/-! ## One forked sequencer -/

theorem trapHere_last (s : State) (c : Ctx) (q : Sq) (t : TrapRec) : (s.trapHere c q t).last ≠ .issued := by
  unfold State.trapHere
  split
  · exact fun h => nomatch h
  · exact fun h => nomatch h

theorem illegal_last {tval : Word} {s t : State} (h : exec (.illegalEncoding tval) s = .next t) : t.last ≠ .issued := by
  change execIllegalEncoding tval s = .next t at h
  unfold execIllegalEncoding at h
  split at h
  · cases h
  · cases h; exact trapHere_last _ _ _ _

/-- A forked sequencer at its turn: what follows its word, unless its wait gives way. -/
def covering (cid : Nat) (q : Sq) (same : Bool) (o : Out) : Out :=
  match o with
  | .next t => .next (if t.last = .issued ∧ q ≠ .ctl then t.coverMarks cid q same else t)
  | o => o

theorem covering_quiet {cid : Nat} {q : Sq} {same : Bool} {t : State} (h : t.last ≠ .issued) :
    covering cid q same (.next t) = .next t := congrArg _ (if_neg fun x => h x.1)

theorem covering_illegal (cid : Nat) (q : Sq) (same : Bool) (tval : Word) (s : State) :
    covering cid q same (exec (.illegalEncoding tval) s) = exec (.illegalEncoding tval) s := by
  cases h : exec (.illegalEncoding tval) s with
  | next t => exact covering_quiet (illegal_last h)
  | fault f => rfl
  | refused f => rfl

/-- The context as a forked turn of `q` finds it: a control word closes the markers. -/
def turned (q : Sq) (c : Ctx) : Ctx := if q = .ctl then { c with marks := c.marks.map Marker.close } else c

theorem turned_cid (q : Sq) (c : Ctx) : (turned q c).cid = c.cid := by
  unfold turned; split
  · rfl
  · rfl

theorem runForked_yields {s : State} {p : Nat} {q : Sq} {c : Ctx}
    (h : (s.setCtx (turned q c)).yields p q (turned q c) = true) :
    runForked s p q c = .next { s.setCtx (turned q c) with focus := (p, q) }.stalled := if_pos h

theorem runForked_word {s : State} {p : Nat} {q : Sq} {c : Ctx}
    (h : (s.setCtx (turned q c)).yields p q (turned q c) = false) : runForked s p q c =
      covering c.cid q (Config.sameCycle s.free) (forkedWord (s.setCtx (turned q c)) p q (turned q c)) := by
  rw [← turned_cid q c]
  exact if_neg (Bool.eq_false_iff.1 h)

/-! ## One long word -/

theorem longWord_inOrder (s0 : State) (p : Nat) (c : Ctx) {qs : List (Sq × Instr)} {s t : State} {f g : Bool}
    (h : InOrder p c.cid qs s f t g) : longWord s0 p c qs f s = (.next t, g) := by
  induction qs generalizing s f with
  | nil => obtain ⟨rfl, rfl⟩ := h; rfl
  | cons x r ih =>
    obtain ⟨q, i⟩ := x
    obtain ⟨u, he, hu, hr⟩ := h
    simp only [longWord, he, hu]
    exact ih hr

theorem longWords_plain {s0 s1 t : State} {p : Nat} {c : Ctx} {qs : List (Sq × Instr)} {g : Bool}
    (hn : ∀ x ∈ qs, isTrapWord x.2 = false) (h : InOrder p c.cid qs s1 false t g) (ht : t.last = .issued) :
    longWords s0 p c qs s1 = .next (t.endLong p c.cid g) := by
  have hf : qs.find? (fun x => isTrapWord x.2) = none :=
    List.find?_eq_none.2 fun x hx => Bool.eq_false_iff.1 (hn x hx)
  simp only [longWords, hf, longWord_inOrder s0 p c h, ht, if_true]

theorem longWords_trap {s0 s1 t u : State} {p : Nat} {c : Ctx} {w : Instr} {r : List (Sq × Instr)} {g : Bool}
    (hw : isTrapWord w = true) (hn : ∀ x ∈ r, isTrapWord x.2 = false) (h : InOrder p c.cid r s1 false t g)
    (ht : t.last = .issued) (hu : exec w { t.endLong p c.cid false with focus := (p, .ctl) } = .next u)
    (hs : u.last ≠ .stalled) : longWords s0 p c ((.ctl, w) :: r) s1 = .next u := by
  have hf : ((Sq.ctl, w) :: r).find? (fun x => isTrapWord x.2) = some (.ctl, w) := List.find?_cons_of_pos hw
  have hr : ((Sq.ctl, w) :: r).filter (fun x => !isTrapWord x.2) = r := by
    rw [List.filter_cons_of_neg (by simp [hw])]
    exact List.filter_eq_self.2 fun x hx => by rw [hn x hx]; rfl
  simp only [longWords, hf, hr, longWord_inOrder s0 p c h, ht, hu, if_true, if_neg hs]

/-- Slots of which each is empty or holds a word. -/
def Plain (sl : List (Sq × NextWord)) : Prop := ∀ x ∈ sl, x.2 = .empty ∨ ∃ i, x.2 = .word i

theorem Plain.noIllegal {sl : List (Sq × NextWord)} (h : Plain sl) : firstIllegal sl = none := by
  induction sl with
  | nil => rfl
  | cons x r ih =>
    obtain ⟨q, w⟩ := x
    have hr := ih fun y hy => h y (List.mem_cons_of_mem _ hy)
    obtain e | ⟨i, e⟩ := h (q, w) (List.mem_cons_self ..)
    · cases e; exact hr
    · cases e; exact hr

theorem Plain.noPast {sl : List (Sq × NextWord)} (h : Plain sl) : firstPast sl = none := by
  induction sl with
  | nil => rfl
  | cons x r ih =>
    obtain ⟨q, w⟩ := x
    have hr := ih fun y hy => h y (List.mem_cons_of_mem _ hy)
    obtain e | ⟨i, e⟩ := h (q, w) (List.mem_cons_self ..)
    · cases e; exact hr
    · cases e; exact hr

theorem Plain.takeSkews {sl : List (Sq × NextWord)} (h : Plain sl) (c : Ctx) : c.takeSkews sl = c := by
  induction sl with
  | nil => rfl
  | cons x r ih =>
    obtain ⟨q, w⟩ := x
    have hr := ih fun y hy => h y (List.mem_cons_of_mem _ hy)
    obtain e | ⟨i, e⟩ := h (q, w) (List.mem_cons_self ..)
    · cases e; exact hr
    · cases e; exact hr

theorem notAllEmpty {sl : List (Sq × NextWord)} (h : slotWords sl ≠ []) : sl.all (fun x => x.2 == .empty) = false := by
  induction sl with
  | nil => exact absurd rfl h
  | cons x r ih =>
    obtain ⟨q, w⟩ := x
    cases w with
    | empty => exact ih h
    | skew => rfl
    | past => rfl
    | illegal t => rfl
    | word i => rfl

/-- The context as its long word begins: what the takes and tests of the long word refer to (R65). -/
def begins (d : Ctx) : Ctx := { d with semT := d.sems, semS := d.sems, cbitsT := d.cbits }

/-- A joined context whose slots are plain and not all empty runs its words. -/
theorem runJoined_words {s : State} {p : Nat} {c : Ctx} {qs : List (Sq × Instr)}
    (hp : Plain ({ s.setCtx (c.landDue none) with focus := (p, .ctl) }.slots p (c.landDue none)))
    (hw : slotWords ({ s.setCtx (c.landDue none) with focus := (p, .ctl) }.slots p (c.landDue none)) = qs)
    (hq : qs ≠ []) (ha : (c.landDue none).arrayDue = false) : runJoined s p c =
      longWords { s.setCtx (c.landDue none) with focus := (p, .ctl) } p (c.landDue none) qs
        { s.setCtx (begins (c.landDue none)) with focus := (p, .ctl), last := .issued } := by
  have hall := notAllEmpty (hw ▸ hq)
  simp only [runJoined, hp.noIllegal, hp.noPast, hp.takeSkews, hall, ha, hw, Bool.or_false, Bool.false_eq_true, if_false]
  simp only [State.setCtx, begins, CoreReds.set_set]

/-! ## The slots of a joined context -/

/-- The word that stands in a sequencer of a joined context, if it runs. -/
def standing (s : State) (p : Nat) (d : Ctx) (q : Sq) : Option (Sq × Instr) :=
  if (d.seqr q).run = .running then
    (match decode q (d.seqr q).pc (bytesAt s p q (d.seqr q).pc) with
      | .ok (i, _) => some (q, i)
      | .error _ => none) else none

/-- Each sequencer of the context that runs stands at a word that decodes, in no broadcast. -/
structure Readable (s : State) (p : Nat) (d : Ctx) : Prop where
  free : ∀ q, (d.seqr q).bcast = none
  inside : ∀ q, (d.seqr q).run = .running → (d.seqr q).pc < q.limit
  decodes : ∀ q, (d.seqr q).run = .running → ∃ i n, decode q (d.seqr q).pc (bytesAt s p q (d.seqr q).pc) = .ok (i, n)

section
variable {s : State} {p : Nat} {d : Ctx} (h : Readable s p d)
include h

/-- What stands in a sequencer is empty or its word. -/
theorem Readable.nextWord (q : Sq) : (s.nextWord p d q = .empty ∧ standing s p d q = none) ∨
    ∃ i n, s.nextWord p d q = .word i ∧ standing s p d q = some (q, i) ∧
      decode q (d.seqr q).pc (bytesAt s p q (d.seqr q).pc) = .ok (i, n) := by
  by_cases hr : (d.seqr q).run = .running
  · obtain ⟨i, n, hd⟩ := h.decodes q hr
    refine .inr ⟨i, n, nextWord_word hr (h.free q) (h.inside q hr) hd, ?_, hd⟩
    rw [standing, if_pos hr, hd]
  · exact .inl ⟨nextWord_empty hr, if_neg hr⟩

theorem Readable.plain (qs : List Sq) : Plain (qs.map fun q => (q, s.nextWord p d q)) := by
  intro x hx
  obtain ⟨q, -, rfl⟩ := List.mem_map.1 hx
  obtain ⟨e, -⟩ | ⟨i, n, e, -⟩ := h.nextWord q
  · exact .inl e
  · exact .inr ⟨i, e⟩

theorem Readable.slotWords (qs : List Sq) :
    slotWords (qs.map fun q => (q, s.nextWord p d q)) = qs.filterMap (standing s p d) := by
  induction qs with
  | nil => rfl
  | cons q r ih =>
    obtain ⟨e, e2⟩ | ⟨i, n, e, e2, -⟩ := h.nextWord q
    · rw [List.map_cons, e, List.filterMap_cons, e2]; exact ih
    · rw [List.map_cons, e, List.filterMap_cons, e2]; exact congrArg _ ih

/-- Only the control sequencer can stand at TRAP. -/
theorem Readable.trap_ctl {qs : List Sq} {x : Sq × Instr} (hx : x ∈ qs.filterMap (standing s p d))
    (ht : isTrapWord x.2 = true) : x.1 = .ctl := by
  obtain ⟨q, -, hq⟩ := List.mem_filterMap.1 hx
  obtain ⟨-, e⟩ | ⟨i, n, -, e, hd⟩ := h.nextWord q
  · rw [e] at hq; cases hq
  · rw [e] at hq; cases hq; exact ctl_of_trapWord hd ht

end

theorem standing_ctl {s : State} {p : Nat} {d : Ctx} {q : Sq} {x : Sq × Instr} (h : standing s p d q = some x) : x.1 = q := by
  unfold standing at h
  split at h
  · split at h
    · cases h; rfl
    · cases h
  · cases h

/-- The words of the streams: none is of the control sequencer. -/
theorem standing_streams {s : State} {p : Nat} {d : Ctx} {x : Sq × Instr}
    (h : x ∈ [Sq.load, .store, .comp].filterMap (standing s p d)) : x.1 ≠ .ctl := by
  obtain ⟨q, hq, he⟩ := List.mem_filterMap.1 h
  rw [standing_ctl he]
  rintro rfl
  exact absurd hq (by decide)

/-- The words of a long word whose first is no TRAP of the control sequencer are no TRAPs. -/
theorem Readable.untrapped {s : State} {p : Nat} {d : Ctx} (h : Readable s p d)
    (hn : ∀ w r, [Sq.ctl, .load, .store, .comp].filterMap (standing s p d) = (.ctl, w) :: r → isTrapWord w = false) :
    ∀ x ∈ [Sq.ctl, .load, .store, .comp].filterMap (standing s p d), isTrapWord x.2 = false := by
  intro x hx
  refine Bool.eq_false_iff.2 fun ht => ?_
  have hc := h.trap_ctl hx ht
  cases he : standing s p d .ctl with
  | none => rw [List.filterMap_cons, he] at hx; exact standing_streams hx hc
  | some y =>
    rw [List.filterMap_cons, he] at hx hn
    obtain rfl | hx := List.mem_cons.1 hx
    · obtain ⟨q, w⟩ := x
      cases hc
      exact Bool.eq_false_iff.1 (hn w _ rfl) ht
    · exact standing_streams hx hc

/-- After a word of the control sequencer come words of the streams. -/
theorem Readable.afterCtl {s : State} {p : Nat} {d : Ctx} (h : Readable s p d) {w : Instr} {r : List (Sq × Instr)}
    (he : (.ctl, w) :: r = [Sq.ctl, .load, .store, .comp].filterMap (standing s p d)) :
    ∀ x ∈ r, isTrapWord x.2 = false := by
  have hr : ∀ x ∈ r, x ∈ [Sq.load, .store, .comp].filterMap (standing s p d) := by
    cases hc : standing s p d .ctl with
    | none =>
      rw [List.filterMap_cons, hc] at he
      have he : (Sq.ctl, w) :: r = [Sq.load, .store, .comp].filterMap (standing s p d) := he
      have hm : (Sq.ctl, w) ∈ [Sq.load, .store, .comp].filterMap (standing s p d) := he ▸ List.mem_cons_self ..
      exact absurd rfl (standing_streams hm)
    | some y =>
      rw [List.filterMap_cons, hc] at he
      exact fun x hx => (List.cons.inj he).2 ▸ hx
  intro x hx
  refine Bool.eq_false_iff.2 fun ht => standing_streams (hr x hx) ?_
  exact h.trap_ctl (he ▸ List.mem_cons_of_mem _ hx) ht

/-! ## The turns of a core -/

/-- A forked sequencer's word, by what stands next. -/
theorem forkedWord_eq (s : State) (p : Nat) (q : Sq) (c : Ctx) (s1 : State)
    (hs : s1 = { s.setCtx (c.landDue (some q)) with focus := (p, q) }) : forkedWord s p q c =
      match s1.nextWord p (c.landDue (some q)) q with
      | .empty => .next s1.stalled
      | .skew => .next (s1.issued ((c.landDue (some q)).onSeqr q Seqr.skewOne))
      | .past => .next (s1.trapHere (c.landDue (some q)) q (targetTrap ((c.landDue (some q)).seqr q).pc))
      | .illegal tval => exec (.illegalEncoding tval) s1
      | .word i => exec i s1 := by
  subst hs; rfl

/-- The turn of a forked sequencer. -/
theorem forked_turn {s : State} {p : Nat} {c : Ctx} (q : Sq) (h : Serving s p c) (hj : c.joined = false)
    {c1 d : Ctx} {s0 s1 : State} (hc : c1 = turned q c) (h0 : s0 = s.setCtx c1) (hd : d = c1.landDue (some q))
    (h1 : s1 = { s0.setCtx d with focus := (p, q) }) :
    (s0.yields p q c1 = true → runTurn (.issue p q) s = .next { s0 with focus := (p, q) }.stalled) ∧
    (s0.yields p q c1 = false → (d.seqr q).run ≠ .running → runTurn (.issue p q) s = .next s1.stalled) ∧
    (s0.yields p q c1 = false → (d.seqr q).run = .running → (d.seqr q).bcast = none →
      (q.limit ≤ (d.seqr q).pc →
        runTurn (.issue p q) s = .next (s1.trapHere d q (targetTrap (d.seqr q).pc))) ∧
      ((d.seqr q).pc < q.limit →
        (∀ i n, decode q (d.seqr q).pc (bytesAt s1 p q (d.seqr q).pc) = .ok (i, n) →
          runTurn (.issue p q) s = covering c.cid q (Config.sameCycle s.free) (exec i s1)) ∧
        (∀ e, decode q (d.seqr q).pc (bytesAt s1 p q (d.seqr q).pc) = .error e →
          runTurn (.issue p q) s = exec (.illegalEncoding e.tval) s1))) := by
  subst hc h0
  have ht : runTurn (.issue p q) s = runForked s p q c := (turn_of_serving h q).trans (by rw [hj]; rfl)
  have hw := forkedWord_eq (s.setCtx (turned q c)) p q (turned q c) s1 (hd ▸ h1)
  rw [← hd] at hw
  refine ⟨fun hy => ht.trans (runForked_yields hy), fun hy hr => ?_, fun hy hr hb => ⟨fun hl => ?_, fun hl =>
    ⟨fun i n hi => ?_, fun e hi => ?_⟩⟩⟩
  · rw [ht, runForked_word hy, hw, nextWord_empty hr]
    exact covering_quiet fun h => nomatch h
  · rw [ht, runForked_word hy, hw, nextWord_past hr hb hl]
    exact covering_quiet (trapHere_last _ _ _ _)
  · rw [ht, runForked_word hy, hw, nextWord_word hr hb hl hi]
  · rw [ht, runForked_word hy, hw, nextWord_illegal hr hb hl hi]
    exact covering_illegal _ _ _ _ _

/-- The turn of a joined context whose sequencers stand at words that decode. -/
theorem joined_turn {s s1 : State} {p : Nat} {c d : Ctx} {qs : List (Sq × Instr)} (h : Serving s p c)
    (hj : c.joined = true) (hd : d = c.landDue none)
    (hs : s1 = { s.setCtx (begins d) with focus := (p, .ctl), last := .issued })
    (hr : Readable s p d) (hz : d.replay = 0) (ha : d.arrayDue = false)
    (hq : qs ≠ []) (he : qs = [Sq.ctl, .load, .store, .comp].filterMap (standing s p d)) :
    (∀ t g, (∀ w r, qs = (.ctl, w) :: r → isTrapWord w = false) → InOrder p c.cid qs s1 false t g → t.last = .issued →
      runTurn (.issue p .ctl) s = .next (t.endLong p c.cid g)) ∧
    (∀ w r t g u, qs = (.ctl, w) :: r → isTrapWord w = true → InOrder p c.cid r s1 false t g → t.last = .issued →
      exec w { t.endLong p c.cid false with focus := (p, .ctl) } = .next u → u.last ≠ .stalled →
      runTurn (.issue p .ctl) s = .next u) := by
  subst hd hs
  have hr0 : Readable { s.setCtx (c.landDue none) with focus := (p, .ctl) } p (c.landDue none) :=
    ⟨hr.free, hr.inside, hr.decodes⟩
  have hsl : { s.setCtx (c.landDue none) with focus := (p, .ctl) }.slots p (c.landDue none) =
      [Sq.ctl, .load, .store, .comp].map fun q =>
        (q, { s.setCtx (c.landDue none) with focus := (p, .ctl) }.nextWord p (c.landDue none) q) :=
    if_neg (by rw [hz]; exact fun h => absurd h.1 (Nat.lt_irrefl 0))
  have hcid : (c.landDue none).cid = c.cid := CoreReds.landIf_cid c _
  have hrun := (turn_of_serving h .ctl).trans (by rw [hj, if_pos rfl])
  rw [hrun, runJoined_words (hsl ▸ hr0.plain _) ((congrArg slotWords hsl).trans ((hr0.slotWords _).trans he.symm)) hq ha,
    ← hcid]
  constructor
  · intro t g hn hi ht
    subst he
    exact longWords_plain (hr.untrapped hn) hi ht
  · intro w r t g u hw htw hi ht hu hst
    subst hw
    exact longWords_trap htw (hr.afterCtl he) hi ht hu hst

theorem imprecise_turn {s : State} {p : Nat} {c : Ctx} (q : Sq) {k : Nat × Word} {r : List (Nat × Word)}
    (ha : s.activeCtx p = some c) (hs : c.stat = .running ∨ c.stat = .inverse) (hv : s.coreServes c = true)
    (hl : ((c.leaving || s.displaced c) && !s.goesOn c) = false) (hi : c.impr = k :: r) (he : s.escapeOk c = true) :
    runTurn (.issue p q) s = .next (s.suspend { c with impr := r } .ctl true none (mkTrap k.1 k.2)) := by
  rw [runTurn_issue ha hs hv hl, hi]
  simp only [State.imprecise, he, if_true, hi, List.tail_cons]

/-- Settles O52: a turn is the dispatch on what stands next (`forked_turn`, `joined_turn`); the words of a long word run in order
because the slots are in order and only the control sequencer can stand at TRAP. -/
theorem stepRunsTheDecodedWord : Obligations.StepRunsTheDecodedWord := by
  refine ⟨fun s t r h => ?_, runTurn_event, fun s n => rfl, fun s p => rfl,
    fun s p c q k r ha hs hv hl hi he => imprecise_turn q ha hs hv hl hi he, fun s p q ha => ?_, fun s p q c h hj => ?_,
    fun s p c qs h hj => ?_⟩
  · unfold step; rw [h]
  · simp only [runTurn, ha]
  · exact forked_turn q h hj rfl rfl rfl rfl
  · intro d s0 s1 hb hz ha hq hl he hd
    exact joined_turn h hj rfl rfl ⟨hb, hl, hd⟩ hz ha hq he

end Sys2Proof.CoreTurns
end

section
/-! What writes leave in memory, byte by byte, and lists of values in maps. -/
namespace Sys2Proof.CoreMem
open Sys2Proof Sys2Proof.Machine Sys2Proof.Claims

/-! ## One write -/

/-- Writable: the unit is not lost, and its stack has not left. -/
def Writable (u : Nat) (m : Mem) (a : Nat) : Prop := m.unit u a ≠ .lost ∧ m.goneAt a = false

theorem unit_eq_get {u : Nat} {m : Mem} {a : Nat} (hg : m.goneAt a = false) : m.unit u a = m.units.get .vacated (a / u) := by
  unfold Mem.unit; rw [hg]; rfl

section
variable {u e : Nat} {as : List Nat} {m : Mem} {a : Nat} {b : Byte}

theorem store1_byte (h : Writable u m a) : (m.store1 u e as a b).byte a = b := by
  obtain ⟨hu, hg⟩ := h
  unfold Mem.store1
  split
  · exact Mem.byte_poke_self ..
  · rw [hg]; exact Mem.byte_poke_self ..
  · next hl => exact absurd hl hu

theorem store1_goneAt (x : Nat) : (m.store1 u e as a b).goneAt x = m.goneAt x := by
  unfold Mem.store1
  split
  · rfl
  · split
    · rfl
    · rfl
  · split
    · rfl
    · rfl

/-- The unit of a byte written is present, and the other units stay. -/
theorem store1_unit (h : Writable u m a) (x : Nat) :
    (m.store1 u e as a b).unit u x = if x / u = a / u ∧ m.goneAt x = false then .present else m.unit u x := by
  obtain ⟨hu, hg⟩ := h
  unfold Mem.store1
  split
  · next hp =>
    rw [Mem.unit_poke]
    split
    · next hx =>
      rw [unit_eq_get hx.2, hx.1, ← unit_eq_get hg, hp]
    · rfl
  · rw [hg, if_neg Bool.false_ne_true, Mem.unit_poke]
    split
    · next hx => rw [← hx.1, Mem.unit_mark_self _ _ _ _ hx.2]
    · next hx =>
      by_cases hx2 : x / u = a / u
      · have hgx : m.goneAt x = true := by
          cases hc : m.goneAt x
          · exact absurd ⟨hx2, hc⟩ hx
          · rfl
        simp only [Mem.unit, Mem.goneAt_mark, hgx, if_true]
        rfl
      · exact Mem.unit_mark_other _ _ _ hx2
  · next hl => exact absurd hl hu

theorem store1_writable (h : Writable u m a) {x : Nat} (hx : Writable u m x) : Writable u (m.store1 u e as a b) x := by
  refine ⟨?_, (store1_goneAt x).trans hx.2⟩
  rw [store1_unit h]
  split
  · decide
  · exact hx.1

end

theorem storeAll_append (u e : Nat) (as : List Nat) (m : Mem) (xs ys : List (Nat × Byte)) :
    m.storeAll u e as (xs ++ ys) = (m.storeAll u e as xs).storeAll u e as ys := by
  induction xs generalizing m with
  | nil => rfl
  | cons x r ih => exact ih _

/-- The bytes after the writes `bs`, one after another. -/
def overlay (f : Nat → Byte) (bs : List (Nat × Byte)) : Nat → Byte :=
  bs.foldl (fun g p x => if x = p.1 then p.2 else g x) f

theorem overlay_append (f : Nat → Byte) (xs ys : List (Nat × Byte)) : overlay f (xs ++ ys) = overlay (overlay f xs) ys :=
  List.foldl_append

theorem overlay_other (f : Nat → Byte) (bs : List (Nat × Byte)) {x : Nat} (h : x ∉ bs.map Prod.fst) : overlay f bs x = f x := by
  induction bs generalizing f with
  | nil => rfl
  | cons p r ih =>
    rw [List.map_cons, List.mem_cons, not_or] at h
    exact (ih _ h.2).trans (if_neg h.1)

/-- The last write of a byte stands. -/
theorem overlay_last (f : Nat → Byte) (pre post : List (Nat × Byte)) {x : Nat} (b : Byte) (h : x ∉ post.map Prod.fst) :
    overlay f (pre ++ (x, b) :: post) x = b := by
  rw [overlay_append]
  exact (overlay_other _ post h).trans (if_pos rfl)

/-- Every address of a write is writable. -/
def AllWritable (u : Nat) (m : Mem) (bs : List (Nat × Byte)) : Prop := ∀ p ∈ bs, Writable u m p.1

section
variable {u e : Nat} {as : List Nat} {m : Mem} {bs : List (Nat × Byte)}

theorem storeAll_writable (h : AllWritable u m bs) {x : Nat} (hx : Writable u m x) : Writable u (m.storeAll u e as bs) x := by
  induction bs generalizing m with
  | nil => exact hx
  | cons p r ih =>
    have hp := h p (List.mem_cons_self ..)
    exact ih (fun q hq => store1_writable hp (h q (List.mem_cons_of_mem _ hq))) (store1_writable hp hx)

theorem storeAll_byte (h : AllWritable u m bs) : (m.storeAll u e as bs).byte = overlay m.byte bs := by
  induction bs generalizing m with
  | nil => rfl
  | cons p r ih =>
    have hp := h p (List.mem_cons_self ..)
    rw [Mem.storeAll, ih fun q hq => store1_writable hp (h q (List.mem_cons_of_mem _ hq))]
    refine congrArg (fun g => overlay g r) (funext fun x => ?_)
    by_cases hx : x = p.1
    · exact ((congrArg _ hx).trans (store1_byte hp)).trans (if_pos hx).symm
    · exact (Mem.store1_other _ _ _ _ _ hx).trans (if_neg hx).symm

theorem store_byte (h : AllWritable u m bs) : (m.store u e bs).byte = overlay m.byte bs := storeAll_byte h

theorem store_writable (h : AllWritable u m bs) {x : Nat} (hx : Writable u m x) : Writable u (m.store u e bs) x :=
  storeAll_writable h hx

theorem storeAll_goneAt (x : Nat) : (m.storeAll u e as bs).goneAt x = m.goneAt x := by
  induction bs generalizing m with
  | nil => rfl
  | cons p r ih => exact ih.trans (store1_goneAt x)

/-- The units that a write touches are present, and the others stay. -/
theorem storeAll_unit (h : AllWritable u m bs) (x : Nat) (hx : m.goneAt x = false) :
    (m.storeAll u e as bs).unit u x = if ∃ p ∈ bs, x / u = p.1 / u then .present else m.unit u x := by
  induction bs generalizing m with
  | nil => exact (if_neg fun ⟨p, hp, _⟩ => absurd hp List.not_mem_nil).symm
  | cons p r ih =>
    have hp := h p (List.mem_cons_self ..)
    rw [Mem.storeAll, ih (fun q hq => store1_writable hp (h q (List.mem_cons_of_mem _ hq))) ((store1_goneAt x).trans hx),
      store1_unit hp]
    by_cases hr : ∃ q ∈ r, x / u = q.1 / u
    · obtain ⟨q, hq, he⟩ := hr
      rw [if_pos ⟨q, hq, he⟩, if_pos ⟨q, List.mem_cons_of_mem _ hq, he⟩]
    · rw [if_neg hr]
      by_cases he : x / u = p.1 / u
      · rw [if_pos ⟨he, hx⟩, if_pos ⟨p, List.mem_cons_self .., he⟩]
      · rw [if_neg fun h => he h.1, if_neg]
        rintro ⟨q, hq, hqe⟩
        obtain rfl | hq := List.mem_cons.1 hq
        · exact he hqe
        · exact hr ⟨q, hq, hqe⟩

theorem store_unit (h : AllWritable u m bs) {x : Nat} (hx : m.goneAt x = false) :
    (m.store u e bs).unit u x = if ∃ p ∈ bs, x / u = p.1 / u then .present else m.unit u x := storeAll_unit h x hx

end

theorem whole_goneAt {m : Mem} (h : m.gone = []) (a : Nat) : m.goneAt a = false := by unfold Mem.goneAt; rw [h]; rfl

/-! ## Local memory -/

/-- A context with another content of one local memory. -/
def setMem (c : Ctx) (w : Space) (m : Mem) : Ctx :=
  match w with
  | .can => { c with can := m }
  | _ => { c with sp := m }

@[simp] theorem localMem_setMem (c : Ctx) (w : Space) (m : Mem) : (setMem c w m).localMem w = m := by cases w <;> rfl

/-- Bytes of a local space, under the addresses of stream destinations. -/
def keyed (w : Space) (bs : List (Nat × Byte)) : List (Nat × Byte) := bs.map (fun p => (localKey w p.1, p.2))

theorem keyed_append (w : Space) (xs ys : List (Nat × Byte)) : keyed w (xs ++ ys) = keyed w xs ++ keyed w ys := List.map_append

theorem place_key (w : Space) (a : Nat) (bs : List Byte) : place (localKey w a) bs = keyed w (place a bs) := by
  have hs : ∀ x, localKey w x + 1 = localKey w (x + 1) := by intro x; cases w <;> rfl
  induction bs generalizing a with
  | nil => rfl
  | cons b r ih => exact congrArg _ ((congrArg (place · r) (hs a)).trans (ih (a + 1)))

/-- Bytes below the canopy's first address go to the local memory that their key names. -/
theorem localStore_keyed (c : Ctx) (w : Space) {bs : List (Nat × Byte)} (h : ∀ p ∈ bs, p.1 < canBase) :
    c.localStore (keyed w bs) = setMem c w ((c.localMem w).store 2 8 bs) := by
  have hk : ∀ p ∈ keyed .can bs, ¬ p.1 < canBase := by
    intro p hp
    obtain ⟨q, -, rfl⟩ := List.mem_map.1 hp
    exact Nat.not_lt.2 (Nat.le_add_right ..)
  have hsp : ∀ p ∈ bs, decide (p.1 < canBase) = true := fun p hp => decide_eq_true (h p hp)
  have hlow : c.localStore bs = { c with sp := c.sp.store 2 8 bs } := by
    unfold Ctx.localStore
    rw [List.filter_eq_self.2 hsp, List.filter_eq_nil_iff.2 fun p hp => by
      rw [decide_eq_true_eq]; exact Nat.not_le.2 (h p hp)]
    rfl
  have hid : bs.map (fun p : Nat × Byte => (p.1, p.2)) = bs := List.map_id _
  have hcan : c.localStore (keyed .can bs) = { c with can := c.can.store 2 8 bs } := by
    unfold Ctx.localStore
    rw [List.filter_eq_nil_iff.2 fun p hp => by rw [decide_eq_true_eq]; exact hk p hp,
      List.filter_eq_self.2 fun p hp => decide_eq_true (Nat.not_lt.1 (hk p hp)), keyed, List.map_map]
    have hb : bs.map ((fun p : Nat × Byte => (p.1 - canBase, p.2)) ∘ fun p => (localKey .can p.1, p.2)) = bs := by
      refine (List.map_congr_left fun p _ => ?_).trans (List.map_id _)
      show (canBase + p.1 - canBase, p.2) = p
      rw [Nat.add_sub_cancel_left]
    rw [hb]
    rfl
  cases w with
  | can => exact hcan
  | sp => exact (congrArg c.localStore hid).trans hlow
  | global => exact (congrArg c.localStore hid).trans hlow

/-! ## Lists of values in maps -/

theorem get_listMap_below {α : Type} [DecidableEq α] (d : α) (xs : List α) {k j : Nat} (h : k < j) :
    SMap.get d (listMap d j xs) k = d := by
  induction xs generalizing j with
  | nil => rfl
  | cons y ys ih =>
    unfold listMap
    split
    · exact ih (by omega)
    · exact (if_neg (by omega)).trans (ih (by omega))

theorem get_listMap {α : Type} [DecidableEq α] (d : α) (xs : List α) {k i : Nat} (h : k ≤ i) :
    SMap.get d (listMap d k xs) i = (xs[i - k]?).getD d := by
  induction xs generalizing k with
  | nil => rfl
  | cons v r ih =>
    have hr : k < i → SMap.get d (listMap d (k + 1) r) i = ((v :: r)[i - k]?).getD d := fun hk => by
      rw [ih hk, show i - k = (i - (k + 1)) + 1 by omega, List.getElem?_cons_succ]
    unfold listMap
    by_cases hk : k = i
    · subst hk
      rw [Nat.sub_self, List.getElem?_cons_zero, Option.getD_some]
      split
      · next hv => rw [get_listMap_below d r (Nat.lt_succ_self k), hv]
      · exact if_pos rfl
    · split
      · exact hr (by omega)
      · exact (if_neg hk).trans (hr (by omega))

theorem get_listMap_zero {α : Type} [DecidableEq α] (d : α) (xs : List α) (i : Nat) :
    SMap.get d (listMap d 0 xs) i = (xs[i]?).getD d := get_listMap d xs (Nat.zero_le i)

theorem allEls_get {α : Type} (g : Nat → Nat → α) {i j : Nat} (hi : i < 64) (hj : j < 64) :
    (allEls g)[64 * i + j]? = some (g i j) := by
  have hn : 64 * i + j < 4096 := by omega
  rw [allEls, List.getElem?_map, List.getElem?_range hn, Option.map_some, show (64 * i + j) / 64 = i by omega,
    show (64 * i + j) % 64 = j by omega]

theorem mem_allEls {α : Type} {g : Nat → Nat → α} {x : α} : x ∈ allEls g ↔ ∃ i < 64, ∃ j < 64, x = g i j := by
  constructor
  · intro h
    obtain ⟨k, hk, rfl⟩ := List.mem_map.1 h
    exact ⟨k / 64, by have := List.mem_range.1 hk; omega, k % 64, Nat.mod_lt _ (by decide), rfl⟩
  · rintro ⟨i, hi, j, hj, rfl⟩
    exact List.mem_of_getElem? (allEls_get g hi hj)

end Sys2Proof.CoreMem
end

section
/-! The order of the matrix array: a word's start, its wait, its retirement (O39). -/
namespace Sys2Proof.CoreArray
open Sys2Proof Sys2Proof.Machine Sys2Proof.Claims Sys2Proof.CoreRetire

/-! ## Maps of contexts -/

theorem keyed_setCtx {s : State} (h : Safety.Keyed s) (c : Ctx) : Safety.Keyed (s.setCtx c) := by
  refine ⟨SMap.sorted_set _ _ h.1, fun x hx => ?_⟩
  obtain rfl | hx := SMap.mem_set hx
  · rfl
  · exact h.2 x hx

theorem find_mem {α : Type} {m : SMap α} {k : Nat} {v : α} (h : m.find k = some v) : (k, v) ∈ m := by
  induction m with
  | nil => cases h
  | cons p r ih =>
    obtain ⟨j, w⟩ := p
    by_cases hj : j = k
    · subst hj
      obtain rfl : w = v := Option.some.inj ((if_pos rfl : SMap.find ((j, w) :: r) j = some w).symm.trans h)
      exact List.mem_cons_self ..
    · exact List.mem_cons_of_mem _ (ih ((if_neg hj : SMap.find ((j, w) :: r) k = SMap.find r k).symm.trans h))

theorem keyed_cid {s : State} (h : Safety.Keyed s) {n : Nat} {c : Ctx} (hc : s.ctx n = some c) : c.cid = n :=
  h.2 _ (find_mem hc)

theorem ctx_setCtx_self (s : State) {c : Ctx} {n : Nat} (h : c.cid = n) : (s.setCtx c).ctx n = some c := by
  subst h; exact SMap.find_set_self ..

theorem ctx_setCtx_other (s : State) (c : Ctx) {n : Nat} (h : n ≠ c.cid) : (s.setCtx c).ctx n = s.ctx n :=
  SMap.find_set_other _ _ h

/-- A value that replaces another in a sorted map takes its place. -/
theorem flatMap_set_length {α β : Type} (g : α → List β) {m : SMap α} (hs : m.sorted = true) {k : Nat} {v w : α}
    (hf : m.find k = some v) (hg : (g w).length ≤ (g v).length) :
    ((m.set k w).flatMap (fun x => g x.2)).length ≤ (m.flatMap (fun x => g x.2)).length := by
  induction m with
  | nil => cases hf
  | cons p r ih =>
    obtain ⟨j, u⟩ := p
    obtain ⟨ha, hr⟩ := (SMap.sorted_cons j u r).1 hs
    by_cases hj : j = k
    · subst hj
      obtain rfl : u = v := Option.some.inj ((if_pos rfl : SMap.find ((j, u) :: r) j = some u).symm.trans hf)
      have he : SMap.set ((j, u) :: r) j w = (j, w) :: r := (if_neg (Nat.lt_irrefl j)).trans (if_pos rfl)
      rw [he, List.flatMap_cons, List.flatMap_cons, List.length_append, List.length_append]
      exact Nat.add_le_add_right hg _
    · have hf' : SMap.find r k = some v := (if_neg hj : SMap.find ((j, u) :: r) k = SMap.find r k).symm.trans hf
      have hlt : ¬ k < j := fun hkj => by rw [SMap.find_above ha (Nat.le_of_lt hkj)] at hf'; cases hf'
      have he : SMap.set ((j, u) :: r) k w = (j, u) :: SMap.set r k w := (if_neg hlt).trans (if_neg hj)
      rw [he, List.flatMap_cons, List.flatMap_cons, List.length_append, List.length_append]
      exact Nat.add_le_add_left (ih hr hf') _

/-! ## Replay windows -/

/-- The words that the windows of the contexts of core `p` retain. -/
def retainedOn (s : State) (p : Nat) : List (Nat × Nat × Nat) := (s.allCtxs.filter (fun c => c.core == p)).flatMap Ctx.retained

theorem trimWindows_few {s : State} {p : Nat} (h : (retainedOn s p).length ≤ 32) : s.trimWindows p = s := if_pos h

theorem retainedOn_eq (s : State) (p : Nat) :
    retainedOn s p = s.ctxs.flatMap (fun x => if x.2.core == p then x.2.retained else []) := by
  unfold retainedOn State.allCtxs
  induction s.ctxs with
  | nil => rfl
  | cons x r ih =>
    rw [List.map_cons, List.filter_cons, List.flatMap_cons, ← ih]
    split
    · rfl
    · rfl

/-- A context that retains no more than before leaves the windows as they are. -/
theorem retainedOn_setCtx {s : State} (hk : Safety.Keyed s) {c d : Ctx} (p : Nat) (hc : s.ctx d.cid = some c)
    (hcore : d.core = c.core) (hr : d.retained.length ≤ c.retained.length) :
    (retainedOn (s.setCtx d) p).length ≤ (retainedOn s p).length := by
  rw [retainedOn_eq, retainedOn_eq]
  refine flatMap_set_length (fun x : Ctx => if x.core == p then x.retained else []) hk.1 hc ?_
  rw [hcore]
  split
  · exact hr
  · exact Nat.le_refl _

/-- Trimming changes the windows of a context at most. -/
theorem trimWindows_ctx {s : State} (hk : Safety.Keyed s) (p : Nat) {n : Nat} {c : Ctx} (hc : s.ctx n = some c) :
    ∃ w, (s.trimWindows p).ctx n = some { c with wins := w } ∧ (s.trimWindows p).dram = s.dram := by
  unfold State.trimWindows
  dsimp only
  split
  · exact ⟨c.wins, hc, rfl⟩
  · split
    · next a cid m _ =>
      split
      · next d hd =>
        obtain rfl := keyed_cid hk hd
        by_cases hn : n = d.cid
        · subst hn
          obtain rfl := Option.some.inj (hc.symm.trans hd)
          exact ⟨(c.forget m).wins, ctx_setCtx_self s rfl, rfl⟩
        · exact ⟨c.wins, (ctx_setCtx_other s (d.forget m) hn).trans hc, rfl⟩
      · exact ⟨c.wins, hc, rfl⟩
    · exact ⟨c.wins, hc, rfl⟩

/-! ## The retirement of a word -/

theorem landRows_quiet {c : Ctx} (h : c.flight = []) : c.landRows = c := by
  have hl : c.landIf (fun f => f.isRow && (!c.joined || decide (f.due ≤ c.t))) = c := by
    unfold Ctx.landIf
    rw [h]
    exact congrArg (fun l => { c with flight := l }) h.symm
  unfold Ctx.landRows
  dsimp only
  rw [hl, h]
  rfl

/-- The array without its active word. -/
def idled (c : Ctx) : Ctx := { c with mx := { c.mx with active := none, retired := c.mx.retired + 1 } }

theorem mxNext_quiet {c : Ctx} (h : c.mx.shadow = none) : c.mxNext = idled c := by
  unfold Ctx.mxNext
  dsimp only
  split
  · next hx => rw [h] at hx; cases hx
  · rfl

/-- What the active word makes of the context that it acts on: nothing, if it is cancelled. -/
def drained (s : State) (c : Ctx) (x : MCmd) : Drain :=
  if x.cancel then (c, [], 0) else c.drain { x with born := s.cycle.toNat } .pass

/-- The state in which a word retires: its loss records, and the count of its replays. -/
def counted (s : State) (c : Ctx) (d : Drain) : State :=
  { s with events := s.events ++ d.2.1, cores := (s.setCore c.core ((s.core c.core).bump 0x218 d.2.2)).cores }

section
variable {s : State} {c : Ctx} {cid : Nat} {x : MCmd}

theorem retire_pass (hl : Live s cid c) (ha : c.mx.active = some x) (hd : ∀ d, x.due = some d → d ≤ c.t) (hf : c.flight = []) :
    exec (.matrixWordRetire cid .pass) s = .next (((counted s c (drained s c x)).setCtx
      ((drained s c x).1.mxNext.sigField x.sig)).trimWindows c.core) := by
  obtain ⟨hc, -, hact, hst⟩ := hl
  have hrows : s.rowsDown c x = true := by
    have hdue : x.due.getD 0 ≤ c.t := by
      cases hx : x.due with
      | none => exact Nat.zero_le _
      | some d => exact hd d hx
    unfold State.rowsDown
    rw [hf, decide_eq_true hdue]
    rfl
  have hgo : ¬ ((s.core c.core).active ≠ some cid ∨ c.stat = .stopped ∨ (!s.rowsDown c x) = true) := by
    rw [hrows]
    rintro (h | h | h)
    · exact h hact
    · rw [h] at hst; rcases hst with e | e <;> cases e
    · cases h
  show execMatrixWordRetire cid .pass s = _
  unfold execMatrixWordRetire
  simp only [hc, ha]
  rw [if_neg hgo, landRows_quiet hf]
  rfl

/-- A word that drains with no check failing retires: what follows of the context that it leaves, whatever its windows, its semaphores
and the list of its imprecise traps. -/
theorem retires_of_drained (hl : Live s cid c) (hk : Safety.Keyed s) (ha : c.mx.active = some x) (hx : x.cancel = false)
    (hd : ∀ d, x.due = some d → d ≤ c.t) (hf : c.flight = []) (hs : c.mx.shadow = none) {c1 : Ctx} {k : Ctx → Prop}
    (h1 : (c.drain { x with born := s.cycle.toNat } .pass).1 = c1) (hcid : c1.cid = c.cid) (hmx : c1.mx = c.mx)
    (hm : c1.m = c.m) (hq : ∀ q, c1.seqr q = c.seqr q)
    (hp : ∀ w m a i, k { c1 with wins := w, mx := m, sems := a, impr := i }) : Retires s c cid k := by
  have hdr : drained s c x = c.drain { x with born := s.cycle.toNat } .pass := if_neg (by rw [hx]; exact Bool.false_ne_true)
  have hnext : c1.mxNext = idled c1 := mxNext_quiet (by rw [hmx]; exact hs)
  obtain ⟨a, i, he⟩ := sigField_cases (idled c1) x.sig
  have hret := retire_pass hl ha hd hf
  rw [hdr, h1, hnext, he] at hret
  have hkeyed : Safety.Keyed (counted s c (c.drain { x with born := s.cycle.toNat } .pass)) := hk
  have hctx := ctx_setCtx_self (counted s c (c.drain { x with born := s.cycle.toNat } .pass))
    (c := { idled c1 with sems := a, impr := i }) (hcid.trans hl.2.1)
  obtain ⟨w, ht, hdram⟩ := trimWindows_ctx (keyed_setCtx hkeyed _) c.core hctx
  refine ⟨_, _, hret, ht, rfl, congrArg (fun m => MxChan.retired m + 1) hmx, hdram, hm, fun q => ?_, hp w (idled c1).mx a i⟩
  exact (show _ = c1.seqr q by cases q <;> rfl).trans (hq q)

end

/-! ## The order of the array -/

/-- A word of fixed latency has its schedule cycle as it enters the active set, in joined mode. -/
theorem mxStart_alone {c : Ctx} {x : MCmd} (h : c.joined = false ∨ x.op ≠ .acvt ∨ x.cancel = true) :
    c.mxStart x = { c with mx := { c.mx with
      active := some { x with due := if c.joined && !x.cancel then (mxLatency x).map (c.t + ·) else none }, shadow := none } } := by
  refine if_neg ?_
  rintro ⟨h1, h2, h3⟩
  rcases h with h | h | h
  · rw [h] at h2; cases h2
  · exact h h1
  · rw [h] at h3; cases h3

theorem enginesRun_of_live {s : State} {c : Ctx} {cid : Nat} (h : Live s cid c) (hl : c.leaving = false) : s.enginesRun c = true := by
  obtain ⟨-, hcid, hact, hst⟩ := h
  unfold State.enginesRun
  rw [hact, hl, hcid]
  rcases hst with e | e
  · rw [e]; simp
  · rw [e]; simp

theorem array_start {s : State} {c : Ctx} {cid : Nat} {x : MCmd} (hl : Live s cid c) (ha : c.mx.active = none)
    (hs : c.mx.shadow = some x) (hv : c.leaving = false) : exec (.engineCommandStart cid .mx) s = .next (s.setCtx (c.mxStart x)) := by
  show execEngineCommandStart cid .mx s = _
  unfold execEngineCommandStart
  simp only [hl.1, enginesRun_of_live hl hv, ha, hs, Bool.not_true, Bool.false_eq_true, if_false]

/-- A context that is not stopped, and whose word is not down, keeps it. -/
theorem array_waits {s : State} {c : Ctx} {cid : Nat} {x : MCmd} (check : MxCheck) (hc : s.ctx cid = some c)
    (ha : c.mx.active = some x) (h : c.stat = .stopped ∨ s.rowsDown c x = false) : exec (.matrixWordRetire cid check) s = .next s := by
  show execMatrixWordRetire cid check s = _
  unfold execMatrixWordRetire
  simp only [hc, ha]
  refine if_pos ?_
  rcases h with h | h
  · exact .inr (.inl h)
  · exact .inr (.inr (by rw [h]; rfl))

theorem array_stopped {s : State} {c : Ctx} {cid : Nat} (check : MxCheck) (hc : s.ctx cid = some c) (hs : c.stat = .stopped) :
    exec (.matrixWordRetire cid check) s = .next s := by
  cases ha : c.mx.active with
  | none =>
    show execMatrixWordRetire cid check s = _
    unfold execMatrixWordRetire
    simp only [hc, ha]
  | some x => exact array_waits check hc ha (.inl hs)

theorem rowsDown_early {s : State} {c : Ctx} {x : MCmd} {d : Nat} (hst : c.stat = .running ∨ c.stat = .inverse)
    (hj : c.joined = true) (hd : x.due = some d) (ht : c.t < d) (hs : s.last ≠ .stalled) : s.rowsDown c x = false := by
  have hstat : (c.stat == .running || c.stat == .inverse) = true := by rcases hst with e | e <;> rw [e] <;> rfl
  have hlast : (s.last == .stalled) = false := beq_eq_false_iff_ne.2 hs
  have hdue : decide (d ≤ c.t) = false := decide_eq_false (Nat.not_le.2 ht)
  unfold State.rowsDown State.still
  rw [hd, hj, hstat, hlast, Option.getD_some, hdue, Bool.and_false]
  rfl

/-- The retirement of a word that drains to `c1`, with no more retained words than before. -/
theorem array_retires {s : State} {c c1 : Ctx} {cid n : Nat} {x : MCmd} {ev : List Event} (hl : Live s cid c)
    (hk : Safety.Keyed s) (hr : (retainedOn s c.core).length ≤ 32) (ha : c.mx.active = some x)
    (hd : ∀ d, x.due = some d → d ≤ c.t) (hf : c.flight = []) (hs : c.mx.shadow = none) (h1 : drained s c x = (c1, ev, n))
    (hcid : c1.cid = c.cid) (hcore : c1.core = c.core) (hmx : c1.mx = c.mx) (hret : c1.retained.length ≤ c.retained.length) :
    exec (.matrixWordRetire cid .pass) s = .next ((counted s c (c1, ev, n)).setCtx ((idled c1).sigField x.sig)) := by
  have hnext : c1.mxNext = idled c1 := mxNext_quiet (by rw [hmx]; exact hs)
  rw [retire_pass hl ha hd hf, h1, hnext]
  obtain ⟨a, i, he⟩ := sigField_cases (idled c1) x.sig
  have hfew : (retainedOn ((counted s c (c1, ev, n)).setCtx ((idled c1).sigField x.sig)) c.core).length ≤ 32 := by
    rw [he]
    have hc : (counted s c (c1, ev, n)).ctx c1.cid = some c := by rw [hcid, hl.2.1]; exact hl.1
    exact Nat.le_trans (retainedOn_setCtx (s := counted s c (c1, ev, n)) (d := { idled c1 with sems := a, impr := i })
      hk c.core hc hcore hret) hr
  exact congrArg _ (trimWindows_few hfew)

theorem counted_zero (s : State) (c c1 : Ctx) :
    counted s c (c1, [], 0) = s.setCore c.core ((s.core c.core).bump 0x218 0) :=
  congrArg (fun e => { s.setCore c.core ((s.core c.core).bump 0x218 0) with events := e }) (List.append_nil s.events)

/-- A cancelled word leaves the array, and performs its signal. -/
theorem array_cancelled {s : State} {c : Ctx} {cid : Nat} {x : MCmd} (hl : Live s cid c) (hk : Safety.Keyed s)
    (hr : (retainedOn s c.core).length ≤ 32) (ha : c.mx.active = some x) (hx : x.cancel = true)
    (hd : ∀ d, x.due = some d → d ≤ c.t) (hf : c.flight = []) (hs : c.mx.shadow = none) :
    exec (.matrixWordRetire cid .pass) s =
      .next ((s.setCore c.core ((s.core c.core).bump 0x218 0)).setCtx ((idled c).sigField x.sig)) := by
  rw [array_retires hl hk hr ha hd hf hs (if_pos hx) rfl rfl rfl (Nat.le_refl _), counted_zero]

/-! ## ACLR -/

theorem nodup_eraseDups {α : Type} [BEq α] [LawfulBEq α] (l : List α) : l.eraseDups.Nodup := by
  induction hn : l.length using Nat.strong_induction_on generalizing l with
  | _ n ih =>
    subst hn
    cases l with
    | nil => exact List.nodup_nil
    | cons a r =>
      rw [List.eraseDups_cons, List.nodup_cons, List.mem_eraseDups]
      refine ⟨fun h => ?_, ih _ (Nat.lt_succ_of_le (List.length_filter_le _ _)) _ rfl⟩
      have := (List.mem_filter.1 h).2
      rw [beq_self_eq_true] at this
      cases this

/-- A window without words retains none. -/
theorem retained_emptied (c : Ctx) (k : Nat) (t : Tile) (b : Bool) :
    { c with wins := c.wins.set k { snap := t, words := [], broken := b } }.retained.length ≤ c.retained.length := by
  refine (List.Nodup.subperm (nodup_eraseDups _) fun y hy => ?_).length_le
  unfold Ctx.retained at hy ⊢
  rw [List.mem_eraseDups] at hy ⊢
  obtain ⟨w, hw, hy⟩ := List.mem_flatMap.1 hy
  obtain rfl | hw := SMap.mem_set hw
  · cases hy
  · exact List.mem_flatMap.2 ⟨w, hw, hy⟩

/-- A context with a new tile `k`, whose window starts with it. -/
def opened (c : Ctx) (k : Nat) (t : Tile) : Ctx :=
  { c.setTileAt k t with wins := c.wins.set k { snap := (c.setTileAt k t).tileAt k, words := [], broken := false } }

theorem setTileAt_acc (c : Ctx) (n : BitVec 2) (t : Tile) : c.setTileAt n.toNat t = c.setTile n t := by
  have hn : n.toNat < 16 := Nat.lt_trans n.isLt (by decide)
  unfold Ctx.setTileAt
  rw [if_pos hn, BitVec.ofNat_toNat, BitVec.setWidth_eq]

theorem tileAt_acc (c : Ctx) (n : BitVec 2) : c.tileAt n.toNat = c.tile n := by
  have hn : n.toNat < 16 := Nat.lt_trans n.isLt (by decide)
  unfold Ctx.tileAt
  rw [if_pos hn, BitVec.ofNat_toNat, BitVec.setWidth_eq]

theorem tile_setTile_self (c : Ctx) (n : BitVec 2) (t : Tile) : (c.setTile n t).tile n = t := SMap.get_put_self ..

theorem tile_setTile_other (c : Ctx) {n k : BitVec 2} (t : Tile) (h : k ≠ n) : (c.setTile n t).tile k = c.tile k :=
  SMap.get_put_other _ _ _ fun e => h (BitVec.eq_of_toNat_eq e)

theorem flag_zero (c : Ctx) : c.flag 0 = c :=
  congrArg (fun b => { c with sticky := b }) (BitVec.or_zero : c.sticky ||| 0#5 = c.sticky)

theorem drain_aclr {c : Ctx} {x : MCmd} (hx : x.op = .aclr) :
    c.drain x .pass = (opened c x.f.acc.toNat (clearTile x.f.imm), [], 0) := by
  have hopn : mxOpnds x.op x.f x.da x.dm = [] := by rw [hx]; rfl
  have hflags : c.mxFlags x = (c, []) := by
    unfold Ctx.mxFlags
    rw [hopn]
    have hnone : (c.opsVac [] ||| if ([] : List TrapRec).isEmpty then 0 else stLOST) = 0 := by
      simp [Ctx.opsVac]
    exact congrArg (·, []) ((congrArg c.flag hnone).trans (flag_zero c))
  have hread : ∀ r, x.readExps r = x := fun r => if_neg fun h => by rw [hx] at h; cases h.1
  have htarget : mxTargets x = [x.f.acc.toNat] := by unfold mxTargets; rw [hx]
  have hjoin : ∀ (d : Ctx) k t, d.join x k t = d := fun d k t => if_pos (.inl hx)
  have hrun : ∀ (d : Ctx) k, d.runOn x k = d.setTileAt k (clearTile x.f.imm) := fun d k => by unfold Ctx.runOn; rw [hx]
  have hopen : ∀ (d : Ctx) k, d.openAfter x k =
      { d with wins := d.wins.set k { snap := d.tileAt k, words := [], broken := false } } := fun d k => if_pos (.inl hx)
  unfold Ctx.drain
  rw [hflags]
  dsimp only
  rw [hread, htarget, if_neg (List.cons_ne_nil _ _)]
  show Ctx.drainTile x .pass (c, [], 0) x.f.acc.toNat = _
  unfold Ctx.drainTile
  dsimp only
  rw [hjoin, hrun, if_neg (fun h => nomatch h), hopen, setTileAt_acc]
  rw [opened, setTileAt_acc]
  rfl

theorem clearTile_exps (imm : BitVec 16) {i : Nat} (hi : i < 64) : (clearTile imm).exps.get 0 i = imm := by
  show SMap.get 0 (listMap 0 0 (List.replicate 64 imm)) i = imm
  rw [CoreMem.get_listMap_zero, List.getElem?_replicate, if_pos hi]
  rfl

/-- ACLR at its retirement. -/
theorem array_aclr {s : State} {c : Ctx} {cid : Nat} {x : MCmd} (hl : Live s cid c) (hk : Safety.Keyed s)
    (hr : (retainedOn s c.core).length ≤ 32) (ha : c.mx.active = some x) (hop : x.op = .aclr) (hx : x.cancel = false)
    (hd : ∀ d, x.due = some d → d ≤ c.t) (hf : c.flight = []) (hs : c.mx.shadow = none) :
    exec (.matrixWordRetire cid .pass) s = .next ((s.setCore c.core ((s.core c.core).bump 0x218 0)).setCtx
      ((idled (opened c x.f.acc.toNat (clearTile x.f.imm))).sigField x.sig)) := by
  have h1 : drained s c x = (opened c x.f.acc.toNat (clearTile x.f.imm), [], 0) :=
    (if_neg (by rw [hx]; exact Bool.false_ne_true)).trans
      (drain_aclr (c := c) (x := { x with born := s.cycle.toNat }) hop)
  have hret : (opened c x.f.acc.toNat (clearTile x.f.imm)).retained.length ≤ c.retained.length := by
    unfold opened
    rw [setTileAt_acc]
    exact retained_emptied (c.setTile x.f.acc (clearTile x.f.imm)) _ _ _
  have hsame : ∀ t, (opened c x.f.acc.toNat t).cid = c.cid ∧ (opened c x.f.acc.toNat t).core = c.core ∧
      (opened c x.f.acc.toNat t).mx = c.mx := fun t => by unfold opened; rw [setTileAt_acc]; exact ⟨rfl, rfl, rfl⟩
  obtain ⟨hcid, hcore, hmx⟩ := hsame (clearTile x.f.imm)
  rw [array_retires hl hk hr ha hd hf hs h1 hcid hcore hmx hret, counted_zero]

theorem sigField_sem {c : Ctx} {sig : BitVec 8} (hs : sig ≠ 0xFF) (hb : (c.sem sig).toNat < 0xFFFFF) :
    ((c.sigField sig).sem sig).toNat = (c.sem sig).toNat + 1 := by
  rw [sigField_some c hs, signal_below (by omega), sem_setSem_self, BitVec.toNat_ofNat, Nat.mod_eq_of_lt (by omega)]

/-- The context after ACLR: its semaphores, and its list of imprecise traps, are those of the signal. -/
def aclrDone (c : Ctx) (n : BitVec 2) (t : Tile) (a : SMap (BitVec 20)) (i : List (Nat × Word)) : Ctx :=
  { c.setTile n t with
    wins := c.wins.set n.toNat { snap := t, words := [], broken := false }
    mx := { c.mx with active := none, retired := c.mx.retired + 1 }, sems := a, impr := i }

theorem aclrDone_tile (c : Ctx) (n k : BitVec 2) (t : Tile) (a : SMap (BitVec 20)) (i : List (Nat × Word)) :
    (aclrDone c n t a i).tile k = (c.setTile n t).tile k := rfl

theorem aclrDone_of_opened (c : Ctx) (n : BitVec 2) (t : Tile) (sig : BitVec 8) :
    ∃ a i, (idled (opened c n.toNat t)).sigField sig = aclrDone c n t a i := by
  have hopen : opened c n.toNat t = { c.setTile n t with
      wins := c.wins.set n.toNat { snap := t, words := [], broken := false } } := by
    unfold opened
    rw [setTileAt_acc, tileAt_acc, tile_setTile_self]
  obtain ⟨a, i, he⟩ := sigField_cases (idled (opened c n.toNat t)) sig
  exact ⟨a, i, by rw [he, hopen]; rfl⟩

/-- What ACLR leaves, as its obligation lists it. -/
theorem array_aclr_leaves {s : State} {c : Ctx} {cid : Nat} {x : MCmd} (hl : Live s cid c) (hk : Safety.Keyed s)
    (hr : (retainedOn s c.core).length ≤ 32) (ha : c.mx.active = some x) (hop : x.op = .aclr) (hx : x.cancel = false)
    (hd : ∀ d, x.due = some d → d ≤ c.t) (hf : c.flight = []) (hs : c.mx.shadow = none) :
    ∃ a i, exec (.matrixWordRetire cid .pass) s = .next ((s.setCore c.core ((s.core c.core).bump 0x218 0)).setCtx
        (aclrDone c x.f.acc (clearTile x.f.imm) a i)) ∧
      (x.sig ≠ 0xFF → (c.sem x.sig).toNat < 0xFFFFF →
        ((aclrDone c x.f.acc (clearTile x.f.imm) a i).sem x.sig).toNat = (c.sem x.sig).toNat + 1) := by
  obtain ⟨a, i, he⟩ := aclrDone_of_opened c x.f.acc (clearTile x.f.imm) x.sig
  have hsem : (idled (opened c x.f.acc.toNat (clearTile x.f.imm))).sem x.sig = c.sem x.sig := by
    unfold opened
    rw [setTileAt_acc]
    rfl
  refine ⟨a, i, he ▸ array_aclr hl hk hr ha hop hx hd hf hs, fun h1 h2 => ?_⟩
  rw [← he, ← hsem]
  exact sigField_sem h1 (hsem ▸ h2)

/-- The two clauses on the word that enters the active set. -/
theorem start_due {c : Ctx} {x : MCmd} :
    let due := if c.joined && !x.cancel then (mxLatency x).map (c.t + ·) else none
    (c.joined = false ∨ x.cancel = true → due = none) ∧
    (c.joined = true → x.cancel = false → (x.op = .nrm → due = some (c.t + 6)) ∧
      (x.op = .mma ∨ x.op = .mmas ∨ x.op = .mmts ∨ x.op = .mmab →
        due = some (c.t + 64 * x.f.ks.toNat * (if x.f.redun then 2 else 1)))) := by
  intro due
  refine ⟨fun h => if_neg ?_, fun hj hx => ?_⟩
  · rcases h with h | h
    · rw [h]; exact Bool.false_ne_true
    · rw [h, Bool.not_true, Bool.and_false]; exact Bool.false_ne_true
  · have hdue : due = (mxLatency x).map (c.t + ·) := if_pos (by rw [hj, hx]; rfl)
    rw [hdue]
    unfold mxLatency
    refine ⟨fun ho => by rw [ho]; rfl, fun ho => ?_⟩
    rcases ho with ho | ho | ho | ho
    all_goals rw [ho]; rfl

theorem arrayOrder_holds : arrayOrder := by
  refine ⟨fun s c cid check hc hs => array_stopped check hc hs, fun s c cid hl hk hr => ⟨?_, ?_, ?_, ?_⟩⟩
  · intro x ha hs hv hp
    exact ⟨_, (array_start hl ha hs hv).trans (congrArg _ (congrArg _ (mxStart_alone hp))), start_due⟩
  · intro x check d ha hj hd ht hs
    exact array_waits check hl.1 ha (.inr (rowsDown_early hl.2.2.2 hj hd ht hs))
  · intro x ha hx hd hf hs
    exact array_cancelled hl hk hr ha hx hd hf hs
  · intro x ha hop hx hd hf hs
    obtain ⟨a, i, he, hsem⟩ := array_aclr_leaves hl hk hr ha hop hx hd hf hs
    have hself : (aclrDone c x.f.acc (clearTile x.f.imm) a i).tile x.f.acc = clearTile x.f.imm := tile_setTile_self ..
    refine ⟨_, aclrDone c x.f.acc (clearTile x.f.imm) a i, he, ctx_setCtx_self _ hl.2.1, rfl, rfl, hsem, fun n _ j _ => ?_,
      fun n hn => ?_, fun k hk => tile_setTile_other c _ hk, rfl, rfl, rfl, rfl, rfl, rfl, ?_, rfl, fun n hn => ?_⟩
    · rw [hself]; rfl
    · rw [hself]; exact clearTile_exps _ hn
    · rw [hself]; exact congrArg _ (SMap.find_set_self ..)
    · exact SMap.find_set_other _ _ fun h => hn (h.trans hl.2.1)

end Sys2Proof.CoreArray
end

section
/-! What the words of the matrix array give their tiles (O39). -/
namespace Sys2Proof.CoreArray
open Sys2Proof Sys2Proof.Machine Sys2Proof.Claims Sys2Proof.CoreMem

/-! ## Elements -/

theorem elFinite_elOf (n : Int) : elFinite (elOf n) = true := by
  have h : (elOf n).extractLsb' 46 2 = 0#2 := BitVec.extractLsb'_append_eq_left
  unfold elFinite
  rw [h]
  rfl

theorem elN_elOf {n : Int} (h1 : 1 - 2 ^ 45 ≤ n) (h2 : n ≤ 2 ^ 45 - 1) : elN (elOf n) = n := by
  have h : (elOf n).extractLsb' 0 46 = BitVec.ofInt 46 n := BitVec.extractLsb'_append_eq_right
  unfold elN
  rw [h]
  exact BitVec.toInt_ofInt_eq_self (by decide) (by omega) (by omega)

theorem elClass_nonFinite {x : Num} (h : x.nonFinite = true) : elClass (elNonFinite x) = x ∧ elN (elNonFinite x) = 0 := by
  cases x with
  | fin neg m e => cases h
  | inf neg => cases neg <;> exact ⟨rfl, by decide⟩
  | nan => exact ⟨rfl, by decide⟩

/-! ## Sums of products -/

theorem onGrid_cons (e : Int) (p : Num) (r : List Num) : onGrid e (p :: r) = onGrid e [p] + onGrid e r := by
  unfold onGrid
  rw [List.map_cons, List.sum_cons, List.map_singleton, List.sum_singleton]

theorem sumTerm_eq (e a : Int) (k p : Num) :
    sumTerm e (a, k) p = (a + onGrid e [p], if p.nonFinite then k.add .rne p else k) := by
  unfold onGrid
  rw [List.map_singleton, List.sum_singleton]
  cases p with
  | fin neg m x => rfl
  | inf neg => exact congrArg (·, _) (Int.add_zero a).symm
  | nan => exact congrArg (·, _) (Int.add_zero a).symm

theorem sumTerm_fold (e : Int) (ps : List Num) (a : Int) (k : Num) :
    ps.foldl (sumTerm e) (a, k) = (a + onGrid e ps, (ps.filter Num.nonFinite).foldl (Num.add .rne) k) := by
  induction ps generalizing a k with
  | nil => exact congrArg (·, k) (Int.add_zero a).symm
  | cons p r ih =>
    rw [List.foldl_cons, onGrid_cons, sumTerm_eq, ih, Int.add_assoc, List.filter_cons]
    split
    · rfl
    · rfl

/-- The sum and the class of a word's products. -/
theorem sumTerm_range (e : Int) (g : Nat → Num) (n : Nat) :
    (List.range n).foldl (fun a k => sumTerm e a (g k)) (0, .fin false 0 0) =
      (onGrid e ((List.range n).map g), (((List.range n).map g).filter Num.nonFinite).foldl (Num.add .rne) (.fin false 0 0)) := by
  rw [← List.foldl_map (f := g) (g := sumTerm e), sumTerm_fold, Int.zero_add]

theorem nonFinite_add (a b : Num) : (a.add .rne b).nonFinite = (a.nonFinite || b.nonFinite) := by
  cases a with
  | nan => rfl
  | inf x =>
    cases b with
    | nan => rfl
    | inf y =>
      show Num.nonFinite (if x = y then Num.inf x else Num.nan) = true
      split
      · rfl
      · rfl
    | fin => rfl
  | fin x m e =>
    cases b with
    | nan => rfl
    | inf => rfl
    | fin y n f =>
      show Num.nonFinite (if m = 0 ∧ n = 0 then _ else _) = false
      split
      · rfl
      · split
        · rfl
        · rfl

/-- A sum of products is not finite just when one of them is not. -/
theorem nonFinite_fold (ps : List Num) (k : Num) :
    ((ps.filter Num.nonFinite).foldl (Num.add .rne) k).nonFinite = (k.nonFinite || ps.any Num.nonFinite) := by
  induction ps generalizing k with
  | nil => exact (Bool.or_false _).symm
  | cons p r ih =>
    rw [List.filter_cons, List.any_cons]
    cases hp : p.nonFinite with
    | true => rw [if_pos rfl, List.foldl_cons, ih, nonFinite_add, hp, Bool.or_true, Bool.true_or]; simp
    | false => rw [if_neg Bool.false_ne_true, ih, Bool.false_or]

/-! ## One element after a word -/

/-- The flags that one element's update sets. -/
def updateFlags (ovw : Bool) (old : BitVec 48) (e : Int) (ps : List Num) : BitVec 5 :=
  if (classAfter ovw old ps).nonFinite then stNF
  else if 2 ^ 45 ≤ (numberAfter ovw old e ps).natAbs then stOV else 0

/-- An element's new value from the products `ps`. -/
def updated (ovw : Bool) (old : BitVec 48) (e : Int) (ps : List Num) : BitVec 48 × BitVec 5 :=
  elUpdate ovw old (onGrid e ps) ((ps.filter Num.nonFinite).foldl (Num.add .rne) (.fin false 0 0))

theorem updated_eq (ovw : Bool) (old : BitVec 48) (e : Int) (ps : List Num) : updated ovw old e ps =
    if (classAfter ovw old ps).nonFinite then (elNonFinite (classAfter ovw old ps), stNF)
    else if elMax < numberAfter ovw old e ps then (elOf elMax, stOV)
    else if numberAfter ovw old e ps < -elMax then (elOf (-elMax), stOV)
    else (elOf (numberAfter ovw old e ps), 0) := rfl

theorem accumulated_updated (ovw : Bool) (old : BitVec 48) (e : Int) (ps : List Num) :
    Accumulated ovw old (updated ovw old e ps).1 e ps ∧ (updated ovw old e ps).2 = updateFlags ovw old e ps := by
  have hmax : elMax = 2 ^ 45 - 1 := rfl
  rw [updated_eq]
  unfold Accumulated updateFlags
  dsimp only
  generalize numberAfter ovw old e ps = n
  cases hc : (classAfter ovw old ps).nonFinite with
  | true =>
    refine ⟨⟨fun _ => ?_, fun h => nomatch h⟩, rfl⟩
    exact elClass_nonFinite hc
  | false =>
    simp only [Bool.false_eq_true, if_false, false_implies, true_and, forall_const]
    by_cases h1 : elMax < n
    · rw [if_pos h1, if_pos (by omega)]
      refine ⟨⟨elFinite_elOf _, ?_⟩, rfl⟩
      rw [elN_elOf (by omega) (by omega)]
      omega
    · rw [if_neg h1]
      by_cases h2 : n < -elMax
      · rw [if_pos h2, if_pos (by omega)]
        refine ⟨⟨elFinite_elOf _, ?_⟩, rfl⟩
        rw [elN_elOf (by omega) (by omega)]
        omega
      · rw [if_neg h2, if_neg (by omega)]
        refine ⟨⟨elFinite_elOf _, ?_⟩, rfl⟩
        rw [elN_elOf (by omega) (by omega)]
        omega

/-! ## Flags of lists of results -/

theorem flagsOf_bit {α : Type} (xs : List (α × BitVec 5)) (j : Nat) :
    (flagsOf xs).getLsbD j = xs.any (fun x => x.2.getLsbD j) := by
  have h : ∀ a : BitVec 5, (xs.foldl (fun f x => f ||| x.2) a).getLsbD j = (a.getLsbD j || xs.any (fun x => x.2.getLsbD j)) := by
    induction xs with
    | nil => exact fun a => (Bool.or_false _).symm
    | cons x r ih => exact fun a => by rw [List.foldl_cons, ih, BitVec.getLsbD_or, List.any_cons, Bool.or_assoc]
  exact (h 0).trans (by rw [show BitVec.getLsbD (0 : BitVec 5) j = false from BitVec.getLsbD_zero, Bool.false_or])

theorem flagsOf_allEls {α : Type} (g : Nat → Nat → α × BitVec 5) (j : Nat) :
    (flagsOf (allEls g)).getLsbD j = true ↔ ∃ i < 64, ∃ k < 64, (g i k).2.getLsbD j = true := by
  rw [flagsOf_bit, List.any_eq_true]
  constructor
  · rintro ⟨x, hx, hb⟩
    obtain ⟨i, hi, k, hk, rfl⟩ := mem_allEls.1 hx
    exact ⟨i, hi, k, hk, hb⟩
  · rintro ⟨i, hi, k, hk, hb⟩
    exact ⟨_, mem_allEls.2 ⟨i, hi, k, hk, rfl⟩, hb⟩

theorem updateFlags_bit (ovw : Bool) (old : BitVec 48) (e : Int) (ps : List Num) (j : Nat) :
    (updateFlags ovw old e ps).getLsbD j = true ↔
      (j = 0 ∧ (classAfter ovw old ps).nonFinite = true) ∨
      (j = 1 ∧ (classAfter ovw old ps).nonFinite = false ∧ 2 ^ 45 ≤ (numberAfter ovw old e ps).natAbs) := by
  have hnf : ∀ j, stNF.getLsbD j = true ↔ j = 0 := fun j => by
    by_cases hj : j < 5
    · revert j; decide
    · rw [BitVec.getLsbD_of_ge _ _ (by omega)]; constructor
      · exact fun h => nomatch h
      · omega
  have hov : ∀ j, stOV.getLsbD j = true ↔ j = 1 := fun j => by
    by_cases hj : j < 5
    · revert j; decide
    · rw [BitVec.getLsbD_of_ge _ _ (by omega)]; constructor
      · exact fun h => nomatch h
      · omega
  unfold updateFlags
  cases hc : (classAfter ovw old ps).nonFinite with
  | true => rw [if_pos rfl, hnf]; simp
  | false =>
    rw [if_neg Bool.false_ne_true]
    by_cases hn : 2 ^ 45 ≤ (numberAfter ovw old e ps).natAbs
    · rw [if_pos hn, hov]; exact ⟨fun h => .inr ⟨h, rfl, hn⟩, fun h => h.elim (fun h => (nomatch h.2)) And.left⟩
    · rw [if_neg hn, show BitVec.getLsbD (0 : BitVec 5) j = false from BitVec.getLsbD_zero]
      exact ⟨fun h => (nomatch h), fun h => h.elim (fun h => (nomatch h.2)) fun h => absurd h.2.2 hn⟩

end Sys2Proof.CoreArray
end

section
/-! The words of the matrix array that write a tile (O39). -/
namespace Sys2Proof.CoreArray
open Sys2Proof Sys2Proof.Machine Sys2Proof.Claims Sys2Proof.CoreMem

/-! ## The drain of a word whose check passes -/

/-- A context with other replay windows. -/
def inWins (c : Ctx) (w : SMap Window) : Ctx := { c with wins := w }

theorem setTileAt_wins (c : Ctx) (w : SMap Window) (k : Nat) (t : Tile) :
    (inWins c w).setTileAt k t = inWins (c.setTileAt k t) w := by
  unfold Ctx.setTileAt
  split
  · rfl
  · rfl

theorem tileAt_wins (c : Ctx) (w : SMap Window) (k : Nat) : (inWins c w).tileAt k = c.tileAt k := by
  unfold Ctx.tileAt
  split
  · rfl
  · rfl

theorem putEls_wins (c : Ctx) (w : SMap Window) (k : Nat) (xs : List (BitVec 48 × BitVec 5)) :
    (inWins c w).putEls k xs = inWins (c.putEls k xs) w := by
  unfold Ctx.putEls
  rw [setTileAt_wins, tileAt_wins]
  rfl

theorem mxRead_wins (c : Ctx) (w : SMap Window) (x : MCmd) : (inWins c w).mxRead x = c.mxRead x := rfl

theorem flag_wins (c : Ctx) (w : SMap Window) (b : BitVec 5) : (inWins c w).flag b = inWins (c.flag b) w := rfl

/-- A word does not look at the windows. -/
theorem runOn_wins (c : Ctx) (w : SMap Window) (x : MCmd) (k : Nat) : (inWins c w).runOn x k = inWins (c.runOn x k) w := by
  unfold Ctx.runOn
  dsimp only
  rw [tileAt_wins, mxRead_wins]
  cases x.op with
  | mma | mmas | mmts | mmab | sca => exact putEls_wins ..
  | nrm | ald => dsimp only; rw [setTileAt_wins, flag_wins]
  | aclr | setx => exact setTileAt_wins ..
  | acvt | ast => rfl

theorem foldl_runOn_wins (ks : List Nat) (c : Ctx) (w : SMap Window) (x : MCmd) :
    ks.foldl (fun d k => d.runOn x k) (inWins c w) = inWins (ks.foldl (fun d k => d.runOn x k) c) w := by
  induction ks generalizing c with
  | nil => rfl
  | cons k r ih => rw [List.foldl_cons, runOn_wins, ih]; rfl

theorem join_wins (c : Ctx) (x : MCmd) (k : Nat) (t : Tile) : ∃ w, c.join x k t = inWins c w := by
  unfold Ctx.join
  split
  · exact ⟨c.wins, rfl⟩
  · split
    · exact ⟨_, rfl⟩
    · split
      · exact ⟨_, rfl⟩
      · exact ⟨c.wins, rfl⟩

theorem openAfter_wins (c : Ctx) (x : MCmd) (k : Nat) : ∃ w, c.openAfter x k = inWins c w := by
  unfold Ctx.openAfter
  split
  · exact ⟨_, rfl⟩
  · exact ⟨c.wins, rfl⟩

/-- A tile at the drain of a word whose check passes: the word's update, and its windows. -/
theorem drainTile_pass (x : MCmd) (cn : Drain) (k : Nat) : ∃ w, (Ctx.drainTile x .pass cn k).1 = inWins (cn.1.runOn x k) w := by
  obtain ⟨w1, h1⟩ := join_wins cn.1 x k (cn.1.tileAt k)
  obtain ⟨w2, h2⟩ := openAfter_wins ((cn.1.join x k (cn.1.tileAt k)).runOn x k) x k
  refine ⟨w2, ?_⟩
  have hd : (Ctx.drainTile x .pass cn k).1 = ((cn.1.join x k (cn.1.tileAt k)).runOn x k).openAfter x k := by
    unfold Ctx.drainTile
    dsimp only
    exact if_neg fun h => nomatch h
  rw [hd, h2, h1, runOn_wins]
  rfl

theorem drainTiles_pass (x : MCmd) (ks : List Nat) (cn : Drain) :
    ∃ w, (ks.foldl (Ctx.drainTile x .pass) cn).1 = inWins (ks.foldl (fun d k => d.runOn x k) cn.1) w := by
  induction ks generalizing cn with
  | nil => exact ⟨cn.1.wins, rfl⟩
  | cons k r ih =>
    obtain ⟨w1, h1⟩ := drainTile_pass x cn k
    obtain ⟨w2, h2⟩ := ih (Ctx.drainTile x .pass cn k)
    exact ⟨w2, by rw [List.foldl_cons, List.foldl_cons, h2, h1, foldl_runOn_wins]; rfl⟩

/-- The flags of operands that have become vacated or lost since the issue (R408). -/
def readFlags (c : Ctx) (x : MCmd) : BitVec 5 :=
  c.opsVac (mxOpnds x.op x.f x.da x.dm) |||
    (if ((mxOpnds x.op x.f x.da x.dm).filterMap (fun o => c.opLost o 0)).isEmpty then 0 else stLOST)

theorem readFlags_whole {c : Ctx} {x : MCmd}
    (h : ∀ o ∈ mxOpnds x.op x.f x.da x.dm, c.opFirst .vacated o = none ∧ c.opFirst .lost o = none) : readFlags c x = 0 := by
  have hv : c.opsVac (mxOpnds x.op x.f x.da x.dm) = 0 := by
    refine if_neg fun ha => ?_
    obtain ⟨o, ho, hs⟩ := List.any_eq_true.1 ha
    rw [(h o ho).1] at hs
    cases hs
  have hl : (mxOpnds x.op x.f x.da x.dm).filterMap (fun o => c.opLost o 0) = [] :=
    List.filterMap_eq_nil_iff.2 fun o ho => by unfold Ctx.opLost; rw [(h o ho).2]; rfl
  unfold readFlags
  rw [hv, hl]
  rfl

theorem readExps_kept (x : MCmd) (r : MxRead) : (x.readExps r).op = x.op ∧ (x.readExps r).f = x.f ∧
    mxTargets (x.readExps r) = mxTargets x := by
  unfold MCmd.readExps
  split
  · exact ⟨rfl, rfl, rfl⟩
  · exact ⟨rfl, rfl, rfl⟩

theorem drain_pass {c : Ctx} {x : MCmd} (h : mxTargets x ≠ []) : ∃ w, (c.drain x .pass).1 =
    inWins ((mxTargets x).foldl (fun d k => d.runOn (x.readExps (c.mxRead x)) k) (c.flag (readFlags c x))) w := by
  obtain ⟨-, -, ht⟩ := readExps_kept x (c.mxRead x)
  obtain ⟨w, hw⟩ := drainTiles_pass (x.readExps (c.mxRead x)) (mxTargets x) (c.flag (readFlags c x), (c.mxFlags x).2, 0)
  refine ⟨w, Eq.trans ?_ hw⟩
  have hd : c.drain x .pass = if mxTargets (x.readExps (c.mxRead x)) = [] then _ else
      (mxTargets (x.readExps (c.mxRead x))).foldl (Ctx.drainTile (x.readExps (c.mxRead x)) .pass)
        (c.flag (readFlags c x), (c.mxFlags x).2, 0) := rfl
  rw [hd, ht, if_neg h]

/-! ## One tile -/

/-- A context with another accumulator tile, and flags set. -/
def tiled (c : Ctx) (n : BitVec 2) (t : Tile) (b : BitVec 5) : Ctx := { c.setTile n t with sticky := c.sticky ||| b }

theorem bp_tiled (c : Ctx) (n : BitVec 2) (t : Tile) (b : BitVec 5) : (tiled c n t b).bp = c.bp := rfl

/-- A word as a replay window retains it. -/
def reborn (x : MCmd) (n : Nat) : MCmd := { x with born := n }

theorem reborn_op (x : MCmd) (n : Nat) : (reborn x n).op = x.op := rfl
theorem reborn_f (x : MCmd) (n : Nat) : (reborn x n).f = x.f := rfl

theorem mxRead_reborn (c : Ctx) (g : BitVec 5) (x : MCmd) (n : Nat) : (c.flag g).mxRead (reborn x n) = c.mxRead x := rfl

/-- What the obligation's predicates see of a word's context, whatever its windows and its signal. -/
def signalled (c : Ctx) (w : SMap Window) (m : MxChan) (a : SMap (BitVec 20)) (i : List (Nat × Word)) : Ctx :=
  { c with wins := w, mx := m, sems := a, impr := i }

section
variable {s : State} {c : Ctx} {cid : Nat} {x : MCmd} (hl : Live s cid c) (hk : Safety.Keyed s) (ha : c.mx.active = some x)
  (hx : x.cancel = false) (hd : ∀ d, x.due = some d → d ≤ c.t) (hf : c.flight = []) (hs : c.mx.shadow = none)
include hl hk ha hx hd hf hs

/-- A word of one accumulator tile retires with the tile that it computes. -/
theorem retires_tiled {t : Tile} {b : BitVec 5} {k : Ctx → Prop} (ht : mxTargets x = [x.f.acc.toNat])
    (hrun : ∀ g n, (c.flag g).runOn ((reborn x n).readExps (c.mxRead x)) x.f.acc.toNat = tiled c x.f.acc t (g ||| b))
    (hp : ∀ w m a i, k (signalled (tiled c x.f.acc t (readFlags c x ||| b)) w m a i)) : Retires s c cid k := by
  obtain ⟨w, hw⟩ := drain_pass (c := c) (x := reborn x s.cycle.toNat) (by
    show mxTargets x ≠ []
    rw [ht]; exact List.cons_ne_nil _ _)
  have hw2 : (c.drain (reborn x s.cycle.toNat) .pass).1 =
      inWins (tiled c x.f.acc t (readFlags c x ||| b)) w := by
    rw [hw, show mxTargets (reborn x s.cycle.toNat) = [x.f.acc.toNat] from ht]
    exact congrArg (inWins · w) (hrun _ _)
  exact retires_of_drained hl hk ha hx hd hf hs hw2 rfl rfl rfl (fun q => by cases q <;> rfl)
    fun w m a i => hp w m a i

end

/-! ## Every word's update, by its operation -/

section
variable {c : Ctx} {x : MCmd} {k : Nat}

theorem runOn_step (h : x.op = .mma ∨ x.op = .mmas ∨ x.op = .mmts) :
    c.runOn x k = c.putEls k (stepEls x.op x.f (c.mxRead x) (c.tileAt k)) := by
  unfold Ctx.runOn
  dsimp only
  rcases h with h | h | h
  · rw [h]
  · rw [h]
  · rw [h]

theorem runOn_mmab (h : x.op = .mmab) : c.runOn x k = c.putEls k (blockEls x.f (c.mxRead x) (k - 16) (c.tileAt k)) := by
  unfold Ctx.runOn; dsimp only; rw [h]

theorem runOn_sca (h : x.op = .sca) : c.runOn x k = c.putEls k (scaEls x.f (c.mxRead x) c.bpTile (c.tileAt k)) := by
  unfold Ctx.runOn; dsimp only; rw [h]

theorem runOn_nrm (h : x.op = .nrm) : c.runOn x k = (c.setTileAt k (nrmTile (c.tileAt k)).1).flag (nrmTile (c.tileAt k)).2 := by
  unfold Ctx.runOn; dsimp only; rw [h]

theorem runOn_ald (h : x.op = .ald) : c.runOn x k = (c.setTileAt k (loadTile (c.mxRead x).a)).flag
    (if (loadTile (c.mxRead x).a).elems.any (fun e => !elFinite e.2.toNat) then stNF else 0) := by
  unfold Ctx.runOn; dsimp only; rw [h]

theorem runOn_setx (h : x.op = .setx) :
    c.runOn x k = c.setTileAt k ((c.tileAt k).withExps (x.readExps (c.mxRead x)).exps) := by
  unfold Ctx.runOn; dsimp only; rw [h]

theorem readExps_other (h : x.op ≠ .setx) (r : MxRead) : x.readExps r = x := if_neg fun e => h e.1

end

/-! ## The accumulating words -/

theorem putEls_tiled (c : Ctx) (g : BitVec 5) (n : BitVec 2) (xs : List (BitVec 48 × BitVec 5)) :
    (c.flag g).putEls n.toNat xs =
      tiled c n { c.tile n with elems := listMap 0 0 (xs.map Prod.fst) } (g ||| flagsOf xs) := by
  unfold Ctx.putEls
  rw [setTileAt_acc, tileAt_acc]
  exact congrArg (fun b => { c.setTile n { c.tile n with elems := listMap 0 0 (xs.map Prod.fst) } with sticky := b })
    (BitVec.or_assoc ..)

/-- The elements of a tile after products `ps` are added. -/
def addedEls (c : Ctx) (x : MCmd) (ps : Nat → Nat → List Num) : List (BitVec 48 × BitVec 5) :=
  allEls fun i j => updated x.f.ovw ((c.tile x.f.acc).el i j) ((c.tile x.f.acc).exp i) (ps i j)

theorem map_allEls {α β : Type} (f : α → β) (g : Nat → Nat → α) : (allEls g).map f = allEls (fun i j => f (g i j)) := by
  unfold allEls
  rw [List.map_map]
  rfl

theorem get_allEls (g : Nat → Nat → BitVec 48) {i j : Nat} (hi : i < 64) (hj : j < 64) :
    SMap.get 0 (listMap 0 0 (allEls g)) (64 * i + j) = g i j := by
  rw [get_listMap_zero, allEls_get g hi hj]
  rfl

theorem sticky_bit (a b : BitVec 5) (j : Nat) : (a ||| b).getLsbD j = true ↔ a.getLsbD j = true ∨ b.getLsbD j = true := by
  rw [BitVec.getLsbD_or, Bool.or_eq_true]

theorem addedEls_flags (c : Ctx) (x : MCmd) (ps : Nat → Nat → List Num) (j : Nat) :
    (flagsOf (addedEls c x ps)).getLsbD j = true ↔
      (j = 0 ∧ ∃ i < 64, ∃ k < 64, (classAfter x.f.ovw ((c.tile x.f.acc).el i k) (ps i k)).nonFinite = true) ∨
      (j = 1 ∧ ∃ i < 64, ∃ k < 64, (classAfter x.f.ovw ((c.tile x.f.acc).el i k) (ps i k)).nonFinite = false ∧
        2 ^ 45 ≤ (numberAfter x.f.ovw ((c.tile x.f.acc).el i k) ((c.tile x.f.acc).exp i) (ps i k)).natAbs) := by
  unfold addedEls
  rw [flagsOf_allEls]
  constructor
  · rintro ⟨i, hi, k, hk, hb⟩
    rw [(accumulated_updated ..).2, updateFlags_bit] at hb
    exact hb.imp (fun h => ⟨h.1, i, hi, k, hk, h.2⟩) fun h => ⟨h.1, i, hi, k, hk, h.2⟩
  · rintro (⟨hj, i, hi, k, hk, hb⟩ | ⟨hj, i, hi, k, hk, hb⟩)
    · exact ⟨i, hi, k, hk, by rw [(accumulated_updated ..).2, updateFlags_bit]; exact .inl ⟨hj, hb⟩⟩
    · exact ⟨i, hi, k, hk, by rw [(accumulated_updated ..).2, updateFlags_bit]; exact .inr ⟨hj, hb⟩⟩

end Sys2Proof.CoreArray
end

section
/-! The values of the matrix words (O39). -/
namespace Sys2Proof.CoreArray
open Sys2Proof Sys2Proof.Machine Sys2Proof.Claims Sys2Proof.CoreMem

/-! ## What the obligation says of every word of one tile -/

/-- No operand of the word has become vacated or lost. -/
def Whole (c : Ctx) (x : MCmd) : Prop :=
  ∀ o ∈ mxOpnds x.op x.f x.da x.dm, c.opFirst .vacated o = none ∧ c.opFirst .lost o = none

/-- Only the word's tile has changed. -/
def Framed (c : Ctx) (x : MCmd) (d : Ctx) : Prop :=
  (∀ k, k ≠ x.f.acc → d.tile k = c.tile k) ∧ d.v = c.v ∧ d.sp = c.sp ∧ d.can = c.can

/-- NF and OV have come as said, and no other flag. -/
def Flagged (c : Ctx) (x : MCmd) (d : Ctx) (nf ov : Prop) : Prop := Whole c x →
  (d.sticky.getLsbD 0 = true ↔ c.sticky.getLsbD 0 = true ∨ nf) ∧ (d.sticky.getLsbD 1 = true ↔ c.sticky.getLsbD 1 = true ∨ ov) ∧
  ∀ j, 2 ≤ j → d.sticky.getLsbD j = c.sticky.getLsbD j

section
variable (c : Ctx) (x : MCmd) (t : Tile) (b : BitVec 5) (w : SMap Window) (m : MxChan) (a : SMap (BitVec 20))
  (i : List (Nat × Word))

theorem tile_tiled : (signalled (tiled c x.f.acc t b) w m a i).tile x.f.acc = t := tile_setTile_self c x.f.acc t

theorem bp_signalled : (signalled (tiled c x.f.acc t b) w m a i).bp = c.bp := rfl

theorem framed_tiled : Framed c x (signalled (tiled c x.f.acc t b) w m a i) :=
  ⟨fun _ hk => tile_setTile_other c t hk, rfl, rfl, rfl⟩

theorem flagged_tiled {nf ov : Prop} (hb : ∀ j, b.getLsbD j = true ↔ (j = 0 ∧ nf) ∨ (j = 1 ∧ ov)) :
    Flagged c x (signalled (tiled c x.f.acc t (readFlags c x ||| b)) w m a i) nf ov := by
  intro hw
  have hs : ∀ j, (signalled (tiled c x.f.acc t (readFlags c x ||| b)) w m a i).sticky.getLsbD j = true ↔
      c.sticky.getLsbD j = true ∨ b.getLsbD j = true := fun j => by
    rw [readFlags_whole hw, show (0 : BitVec 5) ||| b = b from BitVec.zero_or]
    exact sticky_bit c.sticky b j
  refine ⟨?_, ?_, fun j hj => ?_⟩
  · rw [hs, hb]; simp
  · rw [hs, hb]; simp
  · rw [Bool.eq_iff_iff, hs, hb]
    have h0 : j ≠ 0 := by omega
    have h1 : j ≠ 1 := by omega
    simp [h0, h1]

end

/-! ## Tile steps and SCA -/

/-- A word adds products to each element of its tile (R146). -/
def Adds (c : Ctx) (x : MCmd) (ps : Nat → Nat → List Num) (d : Ctx) : Prop :=
  Framed c x d ∧ d.bp = c.bp ∧ (d.tile x.f.acc).exps = (c.tile x.f.acc).exps ∧
    (∀ i < 64, ∀ j < 64, Accumulated x.f.ovw ((c.tile x.f.acc).el i j) ((d.tile x.f.acc).el i j) ((c.tile x.f.acc).exp i) (ps i j)) ∧
    Flagged c x d (∃ i < 64, ∃ j < 64, (classAfter x.f.ovw ((c.tile x.f.acc).el i j) (ps i j)).nonFinite = true)
      (∃ i < 64, ∃ j < 64, (classAfter x.f.ovw ((c.tile x.f.acc).el i j) (ps i j)).nonFinite = false ∧
        2 ^ 45 ≤ (numberAfter x.f.ovw ((c.tile x.f.acc).el i j) ((c.tile x.f.acc).exp i) (ps i j)).natAbs)

/-- The word's tile with elements `xs`. -/
def withEls (c : Ctx) (x : MCmd) (xs : List (BitVec 48 × BitVec 5)) : Tile :=
  { c.tile x.f.acc with elems := listMap 0 0 (xs.map Prod.fst) }

theorem el_of_elems (m : SMap (BitVec 48)) (e : SMap (BitVec 16)) (i j : Nat) :
    ({ elems := m, exps := e } : Tile).el i j = m.get 0 (64 * i + j) := rfl

theorem exps_withEls (c : Ctx) (x : MCmd) (xs : List (BitVec 48 × BitVec 5)) : (withEls c x xs).exps = (c.tile x.f.acc).exps := rfl

theorem el_addedEls (c : Ctx) (x : MCmd) (ps : Nat → Nat → List Num) {i j : Nat} (hi : i < 64) (hj : j < 64) :
    (withEls c x (addedEls c x ps)).el i j =
      (updated x.f.ovw ((c.tile x.f.acc).el i j) ((c.tile x.f.acc).exp i) (ps i j)).1 := by
  rw [withEls, el_of_elems, addedEls, map_allEls, get_allEls _ hi hj]

theorem adds_tiled (c : Ctx) (x : MCmd) (ps : Nat → Nat → List Num) (w : SMap Window) (m : MxChan) (a : SMap (BitVec 20))
    (i : List (Nat × Word)) : Adds c x ps (signalled (tiled c x.f.acc (withEls c x (addedEls c x ps))
      (readFlags c x ||| flagsOf (addedEls c x ps))) w m a i) := by
  refine ⟨framed_tiled .., bp_signalled .., ?_, fun n hn j hj => ?_, flagged_tiled _ _ _ _ _ _ _ _ (addedEls_flags c x ps)⟩
  · rw [tile_tiled, exps_withEls]
  · rw [tile_tiled, el_addedEls c x ps hn hj]
    exact (accumulated_updated ..).1

/-- Reduction indices of a K-step, as the obligation counts them. -/
def stepLength (x : MCmd) : Nat :=
  if x.op = .mmas then (if x.f.af.bits = 16 then 256 else 512) else if x.f.af.bits = 16 then 128 else 256

theorem mxKx_eq (x : MCmd) : mxKx x.op x.f = stepLength x := by
  unfold mxKx stepLength
  split
  · split
    · rfl
    · rfl
  · rfl

/-- The products of element (i, j) with indices from `lo` on. -/
def products (c : Ctx) (x : MCmd) (i j lo n : Nat) : List Num :=
  (List.range n).map (fun k => mxProd x.op x.f (c.mxRead x) i j (lo + k))

theorem products_zero (c : Ctx) (x : MCmd) (i j n : Nat) :
    products c x i j 0 n = (List.range n).map (mxProd x.op x.f (c.mxRead x) i j) := by
  unfold products
  simp only [Nat.zero_add]

theorem stepEls_eq (c : Ctx) (x : MCmd) : stepEls x.op x.f (c.mxRead x) (c.tile x.f.acc) =
    addedEls c x (fun i j => products c x i j 0 (x.f.ks.toNat * stepLength x)) := by
  unfold stepEls addedEls
  refine congrArg allEls (funext fun i => funext fun j => ?_)
  dsimp only
  rw [sumTerm_range, mxKx_eq, products_zero]
  rfl

/-- The blocks that SCA adds to element (i, j), scaled (R153). -/
def scaled (c : Ctx) (x : MCmd) (i j : Nat) : List Num := (List.range x.f.ks.toNat).map (fun b =>
  scaTerm x.f ((c.bpTile ((x.f.bpb.toNat + b) % 8)).el i j) ((c.mxRead x).a (64 * b + i)) ((c.mxRead x).m (64 * b + j)))

theorem scaEls_eq (c : Ctx) (x : MCmd) : scaEls x.f (c.mxRead x) c.bpTile (c.tile x.f.acc) = addedEls c x (scaled c x) := by
  unfold scaEls addedEls
  refine congrArg allEls (funext fun i => funext fun j => ?_)
  dsimp only
  rw [sumTerm_range]
  rfl

section
variable {s : State} {c : Ctx} {cid : Nat} {x : MCmd} (hl : Live s cid c) (hk : Safety.Keyed s) (ha : c.mx.active = some x)
  (hx : x.cancel = false) (hd : ∀ d, x.due = some d → d ≤ c.t) (hf : c.flight = []) (hs : c.mx.shadow = none)
include hl hk ha hx hd hf hs

theorem retires_adding {ps : Nat → Nat → List Num} (ht : mxTargets x = [x.f.acc.toNat])
    (hrun : ∀ g n, (c.flag g).runOn ((reborn x n).readExps (c.mxRead x)) x.f.acc.toNat =
      (c.flag g).putEls x.f.acc.toNat (addedEls c x ps)) : Retires s c cid (Adds c x ps) :=
  retires_tiled hl hk ha hx hd hf hs ht (fun g n => (hrun g n).trans (putEls_tiled c g _ _)) (adds_tiled c x ps)

theorem step_retires (ho : x.op = .mma ∨ x.op = .mmas ∨ x.op = .mmts) :
    Retires s c cid (Adds c x (fun i j => products c x i j 0 (x.f.ks.toNat * stepLength x))) := by
  have hset : ∀ n, (reborn x n).op ≠ .setx := fun n h => by rcases ho with e | e | e <;> exact nomatch e.symm.trans h
  have ht : mxTargets x = [x.f.acc.toNat] := by unfold mxTargets; rcases ho with e | e | e <;> rw [e]
  refine retires_adding hl hk ha hx hd hf hs ht fun g n => ?_
  rw [readExps_other (hset n), runOn_step (by exact ho), reborn_op, reborn_f, mxRead_reborn, ← stepEls_eq, tileAt_acc]
  rfl

theorem sca_retires (ho : x.op = .sca) : Retires s c cid (Adds c x (scaled c x)) := by
  have hset : ∀ n, (reborn x n).op ≠ .setx := fun n h => nomatch ho.symm.trans h
  have ht : mxTargets x = [x.f.acc.toNat] := by unfold mxTargets; rw [ho]
  refine retires_adding hl hk ha hx hd hf hs ht fun g n => ?_
  rw [readExps_other (hset n), runOn_sca (by exact ho), reborn_f, mxRead_reborn, ← scaEls_eq, tileAt_acc]
  rfl

end

end Sys2Proof.CoreArray
end

section
/-! NRM, SETX, ALD and MMAB (O39). -/
namespace Sys2Proof.CoreArray
open Sys2Proof Sys2Proof.Machine Sys2Proof.Claims Sys2Proof.CoreMem

/-! ## Rows side by side -/

theorem range_flatMap {α : Type} (f : Nat → Nat → α) {m : Nat} (hm : 0 < m) (n : Nat) :
    (List.range n).flatMap (fun i => (List.range m).map (f i)) = (List.range (n * m)).map (fun k => f (k / m) (k % m)) := by
  induction n with
  | zero => rw [Nat.zero_mul]; rfl
  | succ n ih =>
    rw [List.range_succ, List.flatMap_append, ih, List.flatMap_singleton, Nat.add_mul, Nat.one_mul, List.range_add, List.map_append,
      List.map_map]
    refine congrArg _ (List.map_congr_left fun j hj => ?_)
    have hlt : j < m := List.mem_range.1 hj
    show f n j = f ((n * m + j) / m) ((n * m + j) % m)
    rw [Nat.mul_comm, Nat.mul_add_div hm, Nat.div_eq_of_lt hlt, Nat.add_zero, Nat.mul_add_mod, Nat.mod_eq_of_lt hlt]

theorem rows_allEls {α : Type} (f : Nat → Nat → α) : (List.range 64).flatMap (fun i => (List.range 64).map (f i)) = allEls f :=
  range_flatMap f (by decide) 64

/-! ## NRM -/

theorem rowLen_eq (row : Nat → BitVec 48) : rowLen ((List.range 64).map row) = longest row := by
  have h : ∀ (l : List Nat) (a : Nat), (l.map row).foldl (fun m x => if elFinite x then max m (bitLen (elN x)) else m) a =
      (l.filter (fun j => elFinite (row j))).foldl (fun m j => max m (bitLen (elN (row j)))) a := by
    intro l
    induction l with
    | nil => exact fun a => rfl
    | cons j r ih =>
      intro a
      rw [List.map_cons, List.foldl_cons, ih, List.filter_cons]
      split
      · rfl
      · rfl
  exact h _ 0

theorem rowShift_eq (sh : Int) (row : Nat → BitVec 48) :
    rowShift sh ((List.range 64).map row) = (List.range 64).map (divided sh row) := by
  unfold rowShift
  rw [List.map_map]
  rfl

/-- The shift of NRM (R149). -/
def nrmShift (row : Nat → BitVec 48) (e : Int) : Int := max (-32768 - e) (min ((longest row : Int) - 38) (32767 - e))

/-- A row after NRM, and its exponent. -/
def normRow (row : Nat → BitVec 48) (e : Int) : (Nat → BitVec 48) × Int :=
  if longest row = 0 then (row, e)
  else if longest (divided (nrmShift row e) row) = 39 ∧ e + nrmShift row e < 32767 then
    (divided 1 (divided (nrmShift row e) row), e + nrmShift row e + 1)
  else (divided (nrmShift row e) row, e + nrmShift row e)

theorem nrmRow_eq (row : Nat → BitVec 48) (e : Int) : nrmRow ((List.range 64).map row) e =
    ((List.range 64).map (normRow row e).1, (normRow row e).2,
      if longest row ≠ 0 ∧ 38 < longest (normRow row e).1 then stOV else 0) := by
  unfold nrmRow normRow
  simp only [rowLen_eq]
  by_cases h0 : longest row = 0
  · rw [if_pos h0, if_pos h0, if_neg fun h => h.1 h0]
  · rw [if_neg h0, if_neg h0]
    change (let (zs, e2) := if rowLen (rowShift (nrmShift row e) ((List.range 64).map row)) = 39 ∧ e + nrmShift row e < 32767 then
      (rowShift 1 (rowShift (nrmShift row e) ((List.range 64).map row)), e + nrmShift row e + 1)
      else (rowShift (nrmShift row e) ((List.range 64).map row), e + nrmShift row e)
      (zs, e2, if 38 < rowLen zs then stOV else 0)) = _
    rw [rowShift_eq, rowShift_eq, rowLen_eq]
    have hflag : ∀ n, (if 38 < n then stOV else 0) = if longest row ≠ 0 ∧ 38 < n then stOV else 0 := fun n =>
      if_congr ⟨fun h => ⟨h0, h⟩, And.right⟩ rfl rfl
    by_cases h1 : longest (divided (nrmShift row e) row) = 39 ∧ e + nrmShift row e < 32767
    · rw [if_pos h1, if_pos h1, ← hflag, ← rowLen_eq]
    · rw [if_neg h1, if_neg h1, ← hflag, ← rowLen_eq]

/-- The exponent that a row of 16 bits gets has 16 bits. -/
theorem normRow_range (row : Nat → BitVec 48) {e : Int} (h1 : -32768 ≤ e) (h2 : e ≤ 32767) :
    -32768 ≤ (normRow row e).2 ∧ (normRow row e).2 ≤ 32767 := by
  have hs : -32768 - e ≤ nrmShift row e ∧ nrmShift row e ≤ 32767 - e := by unfold nrmShift; omega
  unfold normRow
  split
  · exact ⟨h1, h2⟩
  · split
    · next h => exact ⟨by dsimp only; omega, by dsimp only; omega⟩
    · exact ⟨by dsimp only; omega, by dsimp only; omega⟩

theorem nrmTile_elems (t : Tile) : (nrmTile t).1.elems = listMap 0 0 (allEls fun i => (normRow (t.el i) (t.exp i)).1) := by
  show listMap 0 0 (((List.range 64).map (fun i => nrmRow ((List.range 64).map (t.el i)) (t.exp i))).flatMap (fun r => r.1)) = _
  rw [List.flatMap_map]
  simp only [nrmRow_eq]
  rw [rows_allEls]

theorem nrmTile_exps (t : Tile) : (nrmTile t).1.exps =
    listMap 0 0 ((List.range 64).map fun i => BitVec.ofInt 16 (normRow (t.el i) (t.exp i)).2) := by
  show listMap 0 0 (((List.range 64).map (fun i => nrmRow ((List.range 64).map (t.el i)) (t.exp i))).map
    (fun r => BitVec.ofInt 16 r.2.1)) = _
  rw [List.map_map]
  exact congrArg (listMap 0 0) (List.map_congr_left fun i _ => congrArg (BitVec.ofInt 16)
    (congrArg (fun r : List (BitVec 48) × Int × BitVec 5 => r.2.1) (nrmRow_eq (t.el i) (t.exp i))))

theorem nrmTile_el (t : Tile) {i j : Nat} (hi : i < 64) (hj : j < 64) :
    (nrmTile t).1.el i j = (normRow (t.el i) (t.exp i)).1 j := by
  unfold Tile.el
  rw [nrmTile_elems, get_allEls _ hi hj]
  rfl

theorem nrmTile_exp (t : Tile) {i : Nat} (hi : i < 64) : (nrmTile t).1.exp i = (normRow (t.el i) (t.exp i)).2 := by
  have hb : -32768 ≤ t.exp i ∧ t.exp i ≤ 32767 := by
    have h1 := BitVec.le_toInt (t.exps.get 0 i)
    have h2 := BitVec.toInt_lt (x := t.exps.get 0 i)
    unfold Tile.exp
    omega
  obtain ⟨h1, h2⟩ := normRow_range (t.el i) hb.1 hb.2
  show (SMap.get 0 (nrmTile t).1.exps i).toInt = _
  rw [nrmTile_exps, get_listMap_zero, List.getElem?_map, List.getElem?_range hi]
  exact BitVec.toInt_ofInt_eq_self (by decide) (by omega) (by omega)

/-- A row that still overflows sets OV. -/
theorem nrmTile_flag (t : Tile) {i : Nat} (hi : i < 64) (hm : longest (t.el i) ≠ 0) (ho : 38 < longest (normRow (t.el i) (t.exp i)).1) :
    (nrmTile t).2.getLsbD 1 = true := by
  have hfold : (nrmTile t).2 = flagsOf ((List.range 64).map fun i =>
      ((), (nrmRow ((List.range 64).map (t.el i)) (t.exp i)).2.2)) := by
    unfold flagsOf
    rw [List.foldl_map]
    show ((List.range 64).map (fun i => nrmRow ((List.range 64).map (t.el i)) (t.exp i))).foldl (fun f r => f ||| r.2.2) 0 = _
    rw [List.foldl_map]
  rw [hfold, flagsOf_bit, List.any_eq_true]
  refine ⟨_, List.mem_map.2 ⟨i, List.mem_range.2 hi, rfl⟩, ?_⟩
  rw [nrmRow_eq]
  dsimp only
  rw [if_pos ⟨hm, ho⟩]
  rfl

/-- A row's longest element is told by its 64 elements. -/
theorem longest_congr {f g : Nat → BitVec 48} (h : ∀ j < 64, f j = g j) : longest f = longest g := by
  rw [← rowLen_eq, ← rowLen_eq]
  exact congrArg rowLen (List.map_congr_left fun j hj => h j (List.mem_range.1 hj))

end Sys2Proof.CoreArray
end

section
/-! The retirement of NRM, SETX, ALD and MMAB (O39). -/
namespace Sys2Proof.CoreArray
open Sys2Proof Sys2Proof.Machine Sys2Proof.Claims Sys2Proof.CoreMem

/-! ## NRM -/

/-- Row `i` of tile `t` after NRM is that of `u`; OV has come (`ov`) where it still overflows (R149). -/
def Normalised (t u : Tile) (ov : Prop) (i : Nat) : Prop :=
  let row := t.el i
  let e := t.exp i
  let m := longest row
  let sh := max (-32768 - e) (min ((m : Int) - 38) (32767 - e))
  let one := divided sh row
  let again : Prop := longest one = 39 ∧ e + sh < 32767
  (m = 0 → (∀ j < 64, u.el i j = row j) ∧ u.exp i = e) ∧
  (m ≠ 0 → ¬ again → (∀ j < 64, u.el i j = one j) ∧ u.exp i = e + sh) ∧
  (m ≠ 0 → again → (∀ j < 64, u.el i j = divided 1 one j) ∧ u.exp i = e + sh + 1) ∧
  (m ≠ 0 → 38 < longest (u.el i) → ov)

theorem normalised_nrmTile (t : Tile) {i : Nat} (hi : i < 64) : Normalised t (nrmTile t).1 ((nrmTile t).2.getLsbD 1 = true) i := by
  have hel : ∀ j < 64, (nrmTile t).1.el i j = (normRow (t.el i) (t.exp i)).1 j := fun j hj => nrmTile_el t hi hj
  have hexp := nrmTile_exp t hi
  refine ⟨fun h0 => ?_, fun h0 h1 => ?_, fun h0 h1 => ?_, fun h0 ho => ?_⟩
  · have hn : normRow (t.el i) (t.exp i) = (t.el i, t.exp i) := if_pos h0
    rw [hn] at hel hexp
    exact ⟨hel, hexp⟩
  · have hn : normRow (t.el i) (t.exp i) = (divided (nrmShift (t.el i) (t.exp i)) (t.el i), t.exp i + nrmShift (t.el i) (t.exp i)) :=
      (if_neg h0).trans (if_neg h1)
    rw [hn] at hel hexp
    exact ⟨hel, hexp⟩
  · have hn : normRow (t.el i) (t.exp i) = (divided 1 (divided (nrmShift (t.el i) (t.exp i)) (t.el i)),
        t.exp i + nrmShift (t.el i) (t.exp i) + 1) := (if_neg h0).trans (if_pos h1)
    rw [hn] at hel hexp
    exact ⟨hel, hexp⟩
  · exact nrmTile_flag t hi h0 (by rw [← longest_congr hel]; exact ho)

/-! ## SETX and ALD -/

/-- The row exponents that SETX sets (R442). -/
def newExps (c : Ctx) (x : MCmd) : List (BitVec 16) :=
  (List.range 64).map (fun i => if x.f.xsel then x.f.imm else BitVec.ofNat 16 ((c.mxRead x).a i))

theorem newExps_get (c : Ctx) (x : MCmd) (t : Tile) {i : Nat} (hi : i < 64) : (t.withExps (newExps c x)).exps.get 0 i =
    if x.f.xsel then x.f.imm else BitVec.ofNat 16 ((c.mxRead x).a i) := by
  have h : (t.withExps (newExps c x)).exps = listMap 0 0 (newExps c x) := rfl
  rw [h, get_listMap_zero, newExps, List.getElem?_map, List.getElem?_range hi]
  rfl

theorem readExps_setx {x : MCmd} (h : x.op = .setx) (he : x.exps = []) (c : Ctx) (n : Nat) :
    (reborn x n).readExps (c.mxRead x) = { reborn x n with exps := newExps c x } := if_pos ⟨h, he⟩

theorem readExps_twice {x : MCmd} (c : Ctx) (n : Nat) (r : MxRead) :
    { reborn x n with exps := newExps c x }.readExps r = { reborn x n with exps := newExps c x } := by
  refine if_neg fun h => ?_
  have hlen : (newExps c x).length = 0 := congrArg List.length h.2
  rw [newExps, List.length_map, List.length_range] at hlen
  cases hlen

theorem loadTile_exps (a : Nat → Nat) {i : Nat} (hi : i < 64) : (loadTile a).exps.get 0 i = BitVec.ofNat 16 (a (4096 + i)) := by
  have h : (loadTile a).exps = listMap 0 0 ((List.range 64).map (fun i => BitVec.ofNat 16 (a (4096 + i)))) := rfl
  rw [h, get_listMap_zero, List.getElem?_map, List.getElem?_range hi]
  rfl

theorem loadTile_el (a : Nat → Nat) {i j : Nat} (hi : i < 64) (hj : j < 64) : (loadTile a).el i j = loadEl (a (64 * i + j)) := by
  have h : (loadTile a).elems = listMap 0 0 ((List.range 4096).map (fun k => loadEl (a k))) := by rw [loadTile]
  unfold Tile.el
  rw [h, get_listMap_zero, List.getElem?_map, List.getElem?_range (by omega : 64 * i + j < 4096)]
  rfl

/-! ## The retirement -/

theorem setTile_tiled (c : Ctx) (g b : BitVec 5) (n : BitVec 2) (t : Tile) :
    ((c.flag g).setTileAt n.toNat t).flag b = tiled c n t (g ||| b) := by
  rw [setTileAt_acc]
  exact congrArg (fun b => { c.setTile n t with sticky := b }) (BitVec.or_assoc ..)

theorem tileAt_flag (c : Ctx) (g : BitVec 5) (n : BitVec 2) : (c.flag g).tileAt n.toNat = c.tile n := by
  rw [tileAt_acc]; rfl

section
variable {s : State} {c : Ctx} {cid : Nat} {x : MCmd} (hl : Live s cid c) (hk : Safety.Keyed s) (ha : c.mx.active = some x)
  (hx : x.cancel = false) (hd : ∀ d, x.due = some d → d ≤ c.t) (hf : c.flight = []) (hs : c.mx.shadow = none)
include hl hk ha hx hd hf hs

theorem nrm_retires (ho : x.op = .nrm) : Retires s c cid (fun d => Framed c x d ∧ d.bp = c.bp ∧
    ∀ i < 64, Normalised (c.tile x.f.acc) (d.tile x.f.acc) (d.sticky.getLsbD 1 = true) i) := by
  have hset : ∀ n, (reborn x n).op ≠ .setx := fun n h => nomatch ho.symm.trans h
  have ht : mxTargets x = [x.f.acc.toNat] := by unfold mxTargets; rw [ho]
  refine retires_tiled hl hk ha hx hd hf hs (t := (nrmTile (c.tile x.f.acc)).1) (b := (nrmTile (c.tile x.f.acc)).2) ht
    (fun g n => ?_) fun w m a i => ⟨framed_tiled .., bp_signalled .., fun j hj => ?_⟩
  · rw [readExps_other (hset n), runOn_nrm (by exact ho), tileAt_flag, setTile_tiled]
  · rw [tile_tiled]
    obtain ⟨h1, h2, h3, h4⟩ := normalised_nrmTile (c.tile x.f.acc) hj
    refine ⟨h1, h2, h3, fun h0 hm => (sticky_bit ..).2 (.inr ((sticky_bit ..).2 (.inr (h4 h0 hm))))⟩

theorem setx_retires (ho : x.op = .setx) (he : x.exps = []) : Retires s c cid (fun d => Framed c x d ∧ d.bp = c.bp ∧
    (d.tile x.f.acc).elems = (c.tile x.f.acc).elems ∧ Flagged c x d False False ∧
    ∀ i < 64, (d.tile x.f.acc).exps.get 0 i = if x.f.xsel then x.f.imm else BitVec.ofNat 16 ((c.mxRead x).a i)) := by
  have ht : mxTargets x = [x.f.acc.toNat] := by unfold mxTargets; rw [ho]
  refine retires_tiled hl hk ha hx hd hf hs (t := (c.tile x.f.acc).withExps (newExps c x)) (b := 0) ht
    (fun g n => ?_) fun w m a i => ⟨framed_tiled .., bp_signalled .., ?_, ?_, fun j hj => ?_⟩
  · rw [readExps_setx ho he, runOn_setx (by exact ho), readExps_twice, tileAt_flag, ← setTile_tiled, flag_zero]
  · rw [tile_tiled]; rfl
  · refine flagged_tiled _ _ _ _ _ _ _ _ fun j => ?_
    rw [show BitVec.getLsbD (0 : BitVec 5) j = false from BitVec.getLsbD_zero]
    simp
  · rw [tile_tiled]; exact newExps_get c x _ hj

theorem ald_retires (ho : x.op = .ald) : Retires s c cid (fun d => Framed c x d ∧ d.bp = c.bp ∧
    (∀ i < 64, (d.tile x.f.acc).exps.get 0 i = BitVec.ofNat 16 ((c.mxRead x).a (4096 + i))) ∧
    ∀ i < 64, ∀ j < 64, (d.tile x.f.acc).el i j = loadEl ((c.mxRead x).a (64 * i + j))) := by
  have hset : ∀ n, (reborn x n).op ≠ .setx := fun n h => nomatch ho.symm.trans h
  have ht : mxTargets x = [x.f.acc.toNat] := by unfold mxTargets; rw [ho]
  refine retires_tiled hl hk ha hx hd hf hs (t := loadTile (c.mxRead x).a)
    (b := if (loadTile (c.mxRead x).a).elems.any (fun e => !elFinite e.2.toNat) then stNF else 0) ht
    (fun g n => ?_) fun w m a i => ⟨framed_tiled .., bp_signalled .., fun j hj => ?_, fun n hn j hj => ?_⟩
  · rw [readExps_other (hset n), runOn_ald (by exact ho), mxRead_reborn, setTile_tiled]
  · rw [tile_tiled]; exact loadTile_exps _ hj
  · rw [tile_tiled]; exact loadTile_el _ hn hj

end

end Sys2Proof.CoreArray
end

section
/-! MMAB, and the values of all words of the array (O39). -/
namespace Sys2Proof.CoreArray
open Sys2Proof Sys2Proof.Machine Sys2Proof.Claims Sys2Proof.CoreMem

/-! ## Block partials -/

theorem bpAdd_eq (old : BitVec 48) (p : Int × Num) : (bpAdd old p).1 = blockAdded old p.1 p.2.nonFinite := by
  unfold bpAdd blockAdded
  by_cases hn : p.2.nonFinite = true
  · rw [if_pos hn, if_pos (.inl hn)]; rfl
  · rw [if_neg hn]
    by_cases ho : old = bpMarker
    · rw [if_pos ho, if_pos (.inr ho)]; rfl
    · rw [if_neg ho, if_neg (show ¬ (p.2.nonFinite = true ∨ old = 1#1 ++ 0#47) from fun h => h.elim hn ho)]
      have hmax : bpMax = 2 ^ 47 - 1 := rfl
      show (if bpMax ≤ old.toInt + p.1 then (BitVec.ofInt 48 bpMax, stOV)
        else if old.toInt + p.1 ≤ -bpMax then (BitVec.ofInt 48 (-bpMax), stOV)
        else (BitVec.ofInt 48 (old.toInt + p.1), (0 : BitVec 5))).1 = _
      split
      · exact congrArg (BitVec.ofInt 48) (by omega)
      · split
        · exact congrArg (BitVec.ofInt 48) (by omega)
        · exact congrArg (BitVec.ofInt 48) (by omega)

/-- Block `b` of a word goes to block-partial tile `n` (R409). -/
def blockGoes (x : MCmd) (n b : Nat) : Prop := (x.f.bpb.toNat + b) % 8 = n

/-- The blocks of a word that go to tile `n`. -/
def blocksTo (x : MCmd) (n : Nat) : List Nat :=
  (List.range (x.f.ks.toNat * stepLength x / 32)).filter (fun b => (x.f.bpb.toNat + b) % 8 = n)

theorem blocksOf_eq {x : MCmd} (h : x.op = .mmab) (n : Nat) : blocksOf x.f n = blocksTo x n := by
  unfold blocksOf blocksTo
  rw [← mxKx_eq, h]
  rfl

/-- Element (i, j) of tile `n` after MMAB, from its value before. -/
def blockEl (c : Ctx) (x : MCmd) (n : Nat) (old : BitVec 48) (i j : Nat) : BitVec 48 :=
  (blocksTo x n).foldl (fun old b =>
    blockAdded old (onGrid (mxG x.f) (products c x i j (32 * b) 32)) ((products c x i j (32 * b) 32).any Num.nonFinite))
    (if x.f.ovw then 0 else old)

theorem foldl_fst {α β γ : Type} (h : β → γ → β × α) (g : α → α → α) (bs : List γ) (a : β) (z : α) :
    (bs.foldl (fun acc b => ((h acc.1 b).1, g acc.2 (h acc.1 b).2)) (a, z)).1 = bs.foldl (fun old b => (h old b).1) a := by
  induction bs generalizing a z with
  | nil => rfl
  | cons b r ih => exact ih _ _

theorem blockEls_eq {x : MCmd} (h : x.op = .mmab) (c : Ctx) (n : Nat) (t : Tile) :
    (blockEls x.f (c.mxRead x) n t).map Prod.fst = allEls fun i j => blockEl c x n (t.el i j) i j := by
  unfold blockEls
  rw [map_allEls]
  refine congrArg allEls (funext fun i => funext fun j => ?_)
  have hf := foldl_fst (fun old b => bpAdd old ((List.range 32).foldl (fun a k => sumTerm (mxG x.f) a
    (mxProd .mmab x.f (c.mxRead x) i j (32 * b + k))) (0, .fin false 0 0))) (· ||| ·) (blocksOf x.f n) (if x.f.ovw then 0 else t.el i j) 0
  refine hf.trans ?_
  unfold blockEl
  rw [blocksOf_eq h]
  refine congrArg (fun g => (blocksTo x n).foldl g (if x.f.ovw then 0 else t.el i j)) (funext fun old => funext fun b => ?_)
  rw [bpAdd_eq, sumTerm_range, nonFinite_fold]
  unfold products
  rw [h]
  rfl

/-- A context with other block partials, and other flags. -/
def bps (c : Ctx) (b : SMap Tile) (st : BitVec 5) : Ctx := { c with bp := b, sticky := st }

/-- The tile that MMAB leaves in place of tile `n`. -/
def blockTile (c : Ctx) (x : MCmd) (n : Nat) : Tile :=
  { c.bpTile n with elems := listMap 0 0 (allEls fun i j => blockEl c x n ((c.bpTile n).el i j) i j) }

theorem tileAt_bp (c : Ctx) (n : Nat) : c.tileAt (16 + n) = c.bpTile n := by
  unfold Ctx.tileAt
  rw [if_neg (by omega), Nat.add_sub_cancel_left]

theorem putEls_bp (c : Ctx) (n : Nat) (xs : List (BitVec 48 × BitVec 5)) : c.putEls (16 + n) xs =
    bps c (c.bp.put Tile.zero n { c.bpTile n with elems := listMap 0 0 (xs.map Prod.fst) }) (c.sticky ||| flagsOf xs) := by
  unfold Ctx.putEls Ctx.setTileAt
  rw [tileAt_bp, if_neg (by omega), Nat.add_sub_cancel_left]
  rfl

theorem bpTile_bps (c : Ctx) (b : SMap Tile) (st : BitVec 5) (n : Nat) : (bps c b st).bpTile n = b.get Tile.zero n := rfl

theorem bps_bps (c : Ctx) (b d : SMap Tile) (st su : BitVec 5) : bps (bps c b st) d su = bps c d su := rfl

/-- MMAB on one block-partial tile. -/
theorem runOn_block {x : MCmd} (h : x.op = .mmab) (c : Ctx) (n : Nat) : ∃ st,
    c.runOn x (16 + n) = bps c (c.bp.put Tile.zero n (blockTile c x n)) st := by
  refine ⟨c.sticky ||| flagsOf (blockEls x.f (c.mxRead x) n (c.bpTile n)), ?_⟩
  rw [runOn_mmab h, tileAt_bp, Nat.add_sub_cancel_left, putEls_bp, blockEls_eq h]
  rfl

/-- What a word computes for tile `n` rests on memory and on that tile. -/
theorem blockTile_congr (c : Ctx) (x : MCmd) (b : SMap Tile) (st : BitVec 5) {n : Nat} (h : b.get Tile.zero n = c.bpTile n) :
    blockTile (bps c b st) x n = blockTile c x n := by
  unfold blockTile
  rw [bpTile_bps, h]
  rfl

theorem runOn_blocks {x : MCmd} (h : x.op = .mmab) (c : Ctx) {ns : List Nat} (hn : ns.Nodup) : ∃ b st,
    (ns.map (16 + ·)).foldl (fun d k => d.runOn x k) c = bps c b st ∧
      ∀ n, b.get Tile.zero n = if n ∈ ns then blockTile c x n else c.bpTile n := by
  induction ns generalizing c with
  | nil => exact ⟨c.bp, c.sticky, rfl, fun n => (if_neg List.not_mem_nil).symm⟩
  | cons k r ih =>
    obtain ⟨hk, hr⟩ := List.nodup_cons.1 hn
    obtain ⟨st, h1⟩ := runOn_block h c k
    obtain ⟨b, st2, h2, hb⟩ := ih (bps c (c.bp.put Tile.zero k (blockTile c x k)) st) hr
    refine ⟨b, st2, ?_, fun n => ?_⟩
    · rw [List.map_cons, List.foldl_cons, h1, h2, bps_bps]
    · rw [hb, bpTile_bps]
      by_cases hnk : n = k
      · subst hnk
        rw [if_neg hk, if_pos (List.mem_cons_self ..), SMap.get_put_self]
      · have hm : n ∈ k :: r ↔ n ∈ r := by rw [List.mem_cons, or_iff_right hnk]
        have hsame : (c.bp.put Tile.zero k (blockTile c x k)).get Tile.zero n = c.bpTile n := SMap.get_put_other _ _ _ hnk
        simp only [hm]
        rw [hsame, blockTile_congr c x _ _ hsame]

/-- The tiles that MMAB writes. -/
def blockTargets (x : MCmd) : List Nat := (List.range 8).filter (fun n => !(blocksOf x.f n).isEmpty)

theorem mxTargets_mmab {x : MCmd} (h : x.op = .mmab) : mxTargets x = (blockTargets x).map (16 + ·) := by
  unfold mxTargets; rw [h]; rfl

theorem mem_blockTargets {x : MCmd} (h : x.op = .mmab) {n : Nat} (hn : n < 8) : n ∈ blockTargets x ↔ blocksTo x n ≠ [] := by
  unfold blockTargets
  rw [List.mem_filter, blocksOf_eq h, Bool.not_eq_true', List.isEmpty_eq_false_iff]
  exact and_iff_right (List.mem_range.2 hn)

theorem mxTargets_nil {x : MCmd} (h : x.op = .mmab) (hn : mxTargets x = []) (n : Nat) : n ∉ blockTargets x := by
  rw [mxTargets_mmab h, List.map_eq_nil_iff] at hn
  rw [hn]
  exact List.not_mem_nil

/-- MMAB with no check failing. -/
theorem drain_mmab {c : Ctx} {x : MCmd} (h : x.op = .mmab) : ∃ b st w, (c.drain x .pass).1 = inWins (bps c b st) w ∧
    ∀ n, b.get Tile.zero n = if n ∈ blockTargets x then blockTile c x n else c.bpTile n := by
  have hread : x.readExps (c.mxRead x) = x := readExps_other (fun e => nomatch h.symm.trans e) _
  by_cases ht : mxTargets x = []
  · refine ⟨c.bp, (c.flag (readFlags c x)).sticky, c.wins, ?_, fun n => (if_neg (mxTargets_nil h ht n)).symm⟩
    have hd : c.drain x .pass = if mxTargets (x.readExps (c.mxRead x)) = [] then
        ((c.flag (readFlags c x)).mxStore (x.readExps (c.mxRead x)), (c.mxFlags x).2 ++ [], 0) else _ := rfl
    rw [hd, hread, if_pos ht]
    show (c.flag (readFlags c x)).mxStore x = _
    unfold Ctx.mxStore
    rw [h]
    rfl
  · obtain ⟨w, hw⟩ := drain_pass (c := c) ht
    obtain ⟨b, st, hb, hget⟩ := runOn_blocks h (c.flag (readFlags c x)) (ns := blockTargets x) (List.nodup_range.filter _)
    refine ⟨b, st, w, ?_, hget⟩
    rw [hw, hread, mxTargets_mmab h, hb]
    rfl

/-- MMAB adds its blocks to the block partials, and changes nothing else (R151, R152, R409). -/
def AddsBlocks (c : Ctx) (x : MCmd) (d : Ctx) : Prop :=
  d.acc = c.acc ∧ d.v = c.v ∧ d.sp = c.sp ∧ d.can = c.can ∧ ∀ n < 8,
    (blocksTo x n = [] → d.bpTile n = c.bpTile n) ∧
    (blocksTo x n ≠ [] → ∀ i < 64, ∀ j < 64, (d.bpTile n).el i j = blockEl c x n ((c.bpTile n).el i j) i j)

theorem blockTile_el (c : Ctx) (x : MCmd) (n : Nat) {i j : Nat} (hi : i < 64) (hj : j < 64) :
    (blockTile c x n).el i j = blockEl c x n ((c.bpTile n).el i j) i j := by
  rw [blockTile, el_of_elems, get_allEls _ hi hj]

theorem addsBlocks_bps {c : Ctx} {x : MCmd} (h : x.op = .mmab) {b : SMap Tile} (st : BitVec 5)
    (hb : ∀ n, b.get Tile.zero n = if n ∈ blockTargets x then blockTile c x n else c.bpTile n) (w : SMap Window) (m : MxChan)
    (a : SMap (BitVec 20)) (i : List (Nat × Word)) : AddsBlocks c x (signalled (bps c b st) w m a i) := by
  have hget : ∀ n, (signalled (bps c b st) w m a i).bpTile n = b.get Tile.zero n := fun n => rfl
  refine ⟨rfl, rfl, rfl, rfl, fun n hn => ⟨fun he => ?_, fun he n2 hi j hj => ?_⟩⟩
  · rw [hget, hb, if_neg fun hm => (mem_blockTargets h hn).1 hm he]
  · rw [hget, hb, if_pos ((mem_blockTargets h hn).2 he), blockTile_el c x n hi hj]

section
variable {s : State} {c : Ctx} {cid : Nat} {x : MCmd} (hl : Live s cid c) (hk : Safety.Keyed s) (ha : c.mx.active = some x)
  (hx : x.cancel = false) (hd : ∀ d, x.due = some d → d ≤ c.t) (hf : c.flight = []) (hs : c.mx.shadow = none)
include hl hk ha hx hd hf hs

theorem mmab_retires (ho : x.op = .mmab) : Retires s c cid (AddsBlocks c x) := by
  obtain ⟨b, st, w, hw, hb⟩ := drain_mmab (c := c) (x := reborn x s.cycle.toNat) ho
  exact retires_of_drained hl hk ha hx hd hf hs hw rfl rfl rfl (fun q => by cases q <;> rfl)
    (addsBlocks_bps ho st hb)

end

theorem matrixValues_holds : matrixValues := by
  intro s c cid x hl hk ha hx hd hf hs he
  refine ⟨fun ho => ?_, fun ho => ?_, fun ho => ?_, fun ho => ?_, fun ho => ?_, fun ho => ?_⟩
  · exact step_retires hl hk ha hx hd hf hs ho
  · exact sca_retires hl hk ha hx hd hf hs ho
  · exact mmab_retires hl hk ha hx hd hf hs ho
  · exact nrm_retires hl hk ha hx hd hf hs ho
  · exact setx_retires hl hk ha hx hd hf hs ho he
  · exact ald_retires hl hk ha hx hd hf hs ho

end Sys2Proof.CoreArray
end

section
/-! Writes of elements: the bytes that they leave (O39). -/
namespace Sys2Proof.CoreMem
open Sys2Proof Sys2Proof.Machine Sys2Proof.Claims

/-! ## Bytes of numbers -/

theorem length_bytesOfNat (w v : Nat) : (bytesOfNat w v).length = w := by
  induction w generalizing v with
  | zero => rfl
  | succ w ih => exact congrArg (· + 1) (ih _)

theorem bytesOfNat_add (a b v : Nat) : bytesOfNat (a + b) v = bytesOfNat a v ++ bytesOfNat b (v / 2 ^ (8 * a)) := by
  induction a generalizing v with
  | zero => rw [Nat.zero_add, Nat.mul_zero, Nat.pow_zero, Nat.div_one]; rfl
  | succ a ih =>
    rw [Nat.add_right_comm]
    show BitVec.ofNat 8 v :: bytesOfNat (a + b) (v / 256) = BitVec.ofNat 8 v :: (bytesOfNat a (v / 256) ++ _)
    rw [ih, Nat.div_div_eq_div_mul, show 256 * 2 ^ (8 * a) = 2 ^ (8 * (a + 1)) by rw [Nat.mul_add, Nat.pow_add]; omega]

/-- Only the low bytes of a number count. -/
theorem bytesOfNat_mod (w v : Nat) : bytesOfNat w (v % 2 ^ (8 * w)) = bytesOfNat w v := by
  induction w generalizing v with
  | zero => rfl
  | succ w ih =>
    have hp : 2 ^ (8 * (w + 1)) = 256 * 2 ^ (8 * w) := by rw [Nat.mul_add, Nat.pow_add]; omega
    show BitVec.ofNat 8 (v % 2 ^ (8 * (w + 1))) :: bytesOfNat w (v % 2 ^ (8 * (w + 1)) / 256) = BitVec.ofNat 8 v :: bytesOfNat w (v / 256)
    rw [hp, Nat.mod_mul_right_div_self, ih]
    refine congrArg (· :: _) (BitVec.eq_of_toNat_eq ?_)
    rw [BitVec.toNat_ofNat, BitVec.toNat_ofNat]
    exact Nat.mod_mul_right_mod v 256 _

theorem place_append (a : Nat) (xs ys : List Byte) : place a (xs ++ ys) = place a xs ++ place (a + xs.length) ys := by
  induction xs generalizing a with
  | nil => rfl
  | cons b r ih =>
    show (a, b) :: place (a + 1) (r ++ ys) = (a, b) :: (place (a + 1) r ++ _)
    rw [ih, List.length_cons, Nat.add_assoc, Nat.add_comm 1]

/-! ## Elements of `w` bytes at addresses -/

/-- The writes of elements `ks`: element `k` has `w` bytes, address `addr k` and value `v k`. -/
def elemsOf (ks : List Nat) (w : Nat) (addr v : Nat → Nat) : List (Nat × Byte) :=
  ks.flatMap (fun k => place (addr k) (bytesOfNat w (v k)))

theorem mem_elemsOf {ks : List Nat} {w : Nat} {addr v : Nat → Nat} {x : Nat} :
    x ∈ (elemsOf ks w addr v).map Prod.fst ↔ ∃ k ∈ ks, addr k ≤ x ∧ x < addr k + w := by
  unfold elemsOf
  rw [List.map_flatMap, List.mem_flatMap]
  constructor
  · rintro ⟨k, hk, hx⟩
    rw [mem_place, length_bytesOfNat] at hx
    exact ⟨k, hk, hx⟩
  · rintro ⟨k, hk, hx⟩
    exact ⟨k, hk, by rw [mem_place, length_bytesOfNat]; exact hx⟩

theorem elemsOf_append (ks ls : List Nat) (w : Nat) (addr v : Nat → Nat) :
    elemsOf (ks ++ ls) w addr v = elemsOf ks w addr v ++ elemsOf ls w addr v := List.flatMap_append

/-- Byte `b` of element `k` stands where no later element covers it. -/
theorem overlay_elem (f : Nat → Byte) (addr v : Nat → Nat) {n w k b : Nat} (hk : k < n) (hb : b < w)
    (hl : ∀ j < n, k < j → addr k + b < addr j ∨ addr j + w ≤ addr k + b) :
    overlay f (elemsOf (List.range n) w addr v) (addr k + b) = BitVec.ofNat 8 (v k / 2 ^ (8 * b)) := by
  obtain ⟨r, rfl⟩ : ∃ r, w = b + (1 + r) := ⟨w - b - 1, by omega⟩
  obtain ⟨m, rfl⟩ : ∃ m, n = k + (1 + m) := ⟨n - k - 1, by omega⟩
  have hks : List.range (k + (1 + m)) = List.range k ++ k :: (List.range m).map (fun j => k + (1 + j)) := by
    rw [List.range_add, List.range_add, List.map_append, List.map_map]
    rfl
  have hsplit : elemsOf (List.range (k + (1 + m))) (b + (1 + r)) addr v =
      (elemsOf (List.range k) (b + (1 + r)) addr v ++ place (addr k) (bytesOfNat b (v k))) ++
        (addr k + b, BitVec.ofNat 8 (v k / 2 ^ (8 * b))) ::
        (place (addr k + b + 1) (bytesOfNat r (v k / 2 ^ (8 * b) / 256)) ++
          elemsOf ((List.range m).map (fun j => k + (1 + j))) (b + (1 + r)) addr v) := by
    rw [hks, elemsOf_append]
    show _ ++ (place (addr k) (bytesOfNat (b + (1 + r)) (v k)) ++ _) = _
    rw [bytesOfNat_add, place_append, length_bytesOfNat, Nat.add_comm 1 r]
    simp only [bytesOfNat, place, List.append_assoc, List.cons_append]
    rfl
  rw [hsplit]
  refine overlay_last f _ _ _ fun hx => ?_
  rw [List.map_append, List.mem_append] at hx
  rcases hx with hx | hx
  · rw [mem_place] at hx; omega
  · obtain ⟨j, hj, h1, h2⟩ := mem_elemsOf.1 hx
    obtain ⟨i, hi, rfl⟩ := List.mem_map.1 hj
    have := List.mem_range.1 hi
    rcases hl (k + (1 + i)) (by omega) (by omega) with h | h
    · omega
    · omega

/-! ## Lanes side by side -/

theorem pow2_eq (n : Nat) : pow2 n = 2 ^ n := rfl

theorem packLanes_lt (w : Nat) (vs : List Nat) : packLanes w vs < 2 ^ (w * vs.length) := by
  induction vs with
  | nil => exact Nat.two_pow_pos _
  | cons v r ih =>
    have hm : v % pow2 w < 2 ^ w := Nat.mod_lt _ (Nat.two_pow_pos w)
    rw [packLanes, List.length_cons, Nat.mul_add, Nat.mul_one, Nat.pow_add, pow2_eq] at *
    calc v % 2 ^ w + 2 ^ w * packLanes w r < 2 ^ w + 2 ^ w * packLanes w r := by omega
      _ = 2 ^ w * (packLanes w r + 1) := by rw [Nat.mul_add, Nat.mul_one, Nat.add_comm]
      _ ≤ 2 ^ w * 2 ^ (w * r.length) := Nat.mul_le_mul_left _ ih
      _ = 2 ^ (w * r.length) * 2 ^ w := Nat.mul_comm ..

theorem packLanes_lane (w : Nat) (vs : List Nat) {j : Nat} (hj : j < vs.length) :
    packLanes w vs / 2 ^ (w * j) % 2 ^ w = vs[j] % 2 ^ w := by
  induction vs generalizing j with
  | nil => cases hj
  | cons v r ih =>
    have hpos : 0 < 2 ^ w := Nat.two_pow_pos w
    rw [packLanes, pow2_eq]
    cases j with
    | zero =>
      rw [Nat.mul_zero, Nat.pow_zero, Nat.div_one, Nat.add_mul_mod_self_left, Nat.mod_mod]
      rfl
    | succ j =>
      have hv : v % 2 ^ w < 2 ^ w := Nat.mod_lt _ hpos
      rw [Nat.mul_add, Nat.mul_one, Nat.add_comm (w * j), Nat.pow_add, ← Nat.div_div_eq_div_mul, Nat.add_mul_div_left _ _ hpos,
        Nat.div_eq_of_lt hv, Nat.zero_add, ih (Nat.lt_of_succ_lt_succ hj)]
      rfl

/-- A lane of a register that holds lanes of `w` bits. -/
theorem lane_packLanes {w : Nat} {vs : List Nat} (hw : w * vs.length ≤ 1024) {j : Nat} (hj : j < vs.length) :
    (BitVec.ofNat 1024 (packLanes w vs)).toNat / 2 ^ (w * j) % 2 ^ w = vs[j] % 2 ^ w := by
  rw [BitVec.toNat_ofNat, Nat.mod_eq_of_lt (Nat.lt_of_lt_of_le (packLanes_lt w vs) (Nat.pow_le_pow_right (by decide) hw)),
    packLanes_lane w vs hj]

end Sys2Proof.CoreMem
end

section
/-! AST and ACVT (O39). -/
namespace Sys2Proof.CoreArray
open Sys2Proof Sys2Proof.Machine Sys2Proof.Claims Sys2Proof.CoreMem

/-! ## Words that write no tile -/

theorem drain_reader {c : Ctx} {x : MCmd} (h : mxTargets x = []) (hset : x.op ≠ .setx) :
    (c.drain x .pass).1 = (c.flag (readFlags c x)).mxStore x := by
  have hd : c.drain x .pass = if mxTargets (x.readExps (c.mxRead x)) = [] then
      ((c.flag (readFlags c x)).mxStore (x.readExps (c.mxRead x)), (c.mxFlags x).2 ++ [], 0) else _ := rfl
  rw [hd, readExps_other hset, if_pos h]

/-- A context in which only one local memory, and what landings set besides, differ. -/
def restored (c : Ctx) (w : Space) (m : Mem) (st la : BitVec 5) (ld : List (BitVec 8 × Bool)) (l : Option Leg) (en : List Leg)
    (a : SMap (BitVec 20)) (i : List (Nat × Word)) : Ctx :=
  { setMem c w m with sticky := st, late := la, landed := ld, leg := l, ended := en, sems := a, impr := i }

/-- `d` is `c` after the writes `bs` to local memory `w`, and after flags and signals. -/
def Stored (c : Ctx) (w : Space) (bs : List (Nat × Byte)) (d : Ctx) : Prop :=
  ∃ m st la ld l en a i, d = restored c w m st la ld l en a i ∧ m.byte = overlay (c.localMem w).byte bs ∧
    ∀ x, Writable 2 (c.localMem w) x → Writable 2 m x

theorem stored_trans {c d e : Ctx} {w : Space} {xs ys : List (Nat × Byte)} (h1 : Stored c w xs d) (h2 : Stored d w ys e) :
    Stored c w (xs ++ ys) e := by
  obtain ⟨m1, st1, la1, ld1, l1, en1, a1, i1, rfl, hb1, hw1⟩ := h1
  obtain ⟨m2, st2, la2, ld2, l2, en2, a2, i2, rfl, hb2, hw2⟩ := h2
  have hm : (restored c w m1 st1 la1 ld1 l1 en1 a1 i1).localMem w = m1 := by cases w <;> rfl
  rw [hm] at hb2 hw2
  refine ⟨m2, st2, la2, ld2, l2, en2, a2, i2, ?_, ?_, fun x hx => hw2 x (hw1 x hx)⟩
  · cases w <;> rfl
  · rw [hb2, hb1, overlay_append]

theorem stored_setMem {c : Ctx} {w : Space} {bs : List (Nat × Byte)} (h : AllWritable 2 (c.localMem w) bs) :
    Stored c w bs (setMem c w ((c.localMem w).store 2 8 bs)) :=
  ⟨_, c.sticky, c.late, c.landed, c.leg, c.ended, c.sems, c.impr, by cases w <;> rfl, store_byte h, fun _ hx => store_writable h hx⟩

section
variable {c d : Ctx} {w : Space} {bs : List (Nat × Byte)} (h : Stored c w bs d)
include h

/-- What such writes leave alone. -/
theorem stored_keeps : d.cid = c.cid ∧ d.mx = c.mx ∧ d.m = c.m ∧ (∀ q, d.seqr q = c.seqr q) ∧ d.flight = c.flight ∧ d.acc = c.acc ∧
    d.bp = c.bp ∧ d.v = c.v := by
  obtain ⟨m, st, la, ld, l, en, a, i, rfl, -, -⟩ := h
  cases w <;> exact ⟨rfl, rfl, rfl, fun q => by cases q <;> rfl, rfl, rfl, rfl, rfl⟩

theorem stored_byte : (d.localMem w).byte = overlay (c.localMem w).byte bs := by
  obtain ⟨m, st, la, ld, l, en, a, i, rfl, hb, -⟩ := h
  cases w <;> exact hb

theorem stored_writable {x : Nat} (hx : Writable 2 (c.localMem w) x) : Writable 2 (d.localMem w) x := by
  obtain ⟨m, st, la, ld, l, en, a, i, rfl, -, hw⟩ := h
  cases w <;> exact hw x hx

end

/-! ## Rows that land -/

/-- With nothing in flight no veil holds a write back. -/
theorem landLocal_quiet {c : Ctx} (due : Nat) (bs : List (Nat × Byte)) (h : c.flight = []) : c.landLocal due bs = c.localStore bs := by
  have hv : (if c.joined then c.veils due else []) = [] := by
    unfold Ctx.veils
    rw [h]
    split
    · rfl
    · rfl
  unfold Ctx.landLocal
  rw [hv]
  exact congrArg c.localStore (List.filter_eq_self.2 fun _ _ => rfl)

theorem stored_landOne {c : Ctx} {f : Flight} {w : Space} {bs : List (Nat × Byte)} {n : Nat} {l : List (Nat × Nat)}
    (hf : c.flight = []) (hd : f.dest = .elems n l) (he : f.early = false) (hw : elemWrites n f.val l = keyed w bs)
    (hc : ∀ p ∈ bs, p.1 < canBase) (h : AllWritable 2 (c.localMem w) bs) : Stored c w bs (c.landOne f) := by
  have hwrote : CoreResults.wrote c f = setMem c w ((c.localMem w).store 2 8 bs) := by
    unfold CoreResults.wrote
    rw [hd]
    dsimp only
    rw [he, if_neg Bool.false_ne_true, landLocal_quiet _ _ hf, hw, localStore_keyed c w hc]
  obtain ⟨st, la, ld, lg, en, a, i, e⟩ := CoreResults.landOne_cases c f
  exact ⟨_, st, la, ld, lg, en, a, i, by rw [e, hwrote]; rfl, store_byte h, fun _ hx => store_writable h hx⟩

/-- Results of elements land one after another. -/
theorem stored_landAll {α : Type} {mk : α → Flight} {bs : α → List (Nat × Byte)} {w : Space} (is : List α) {c : Ctx}
    (hf : c.flight = []) (hd : ∀ p ∈ is, ∃ n l, (mk p).dest = .elems n l ∧ elemWrites n (mk p).val l = keyed w (bs p))
    (he : ∀ p, (mk p).early = false) (hc : ∀ p ∈ is, ∀ q ∈ bs p, q.1 < canBase)
    (h : ∀ p ∈ is, AllWritable 2 (c.localMem w) (bs p)) : Stored c w (is.flatMap bs) (c.landAll (is.map mk)) := by
  induction is generalizing c with
  | nil => exact ⟨c.localMem w, c.sticky, c.late, c.landed, c.leg, c.ended, c.sems, c.impr, by cases w <;> rfl, rfl, fun _ h => h⟩
  | cons p r ih =>
    obtain ⟨n, l, hdest, hw⟩ := hd p (List.mem_cons_self ..)
    have h1 : Stored c w (bs p) (c.landOne (mk p)) :=
      stored_landOne hf hdest (he p) hw (hc p (List.mem_cons_self ..)) (h p (List.mem_cons_self ..))
    have hf1 : (c.landOne (mk p)).flight = [] := CoreControl.landOne_flight_nil _ hf
    have h2 := ih hf1 (fun q hq => hd q (List.mem_cons_of_mem _ hq)) (fun q hq => hc q (List.mem_cons_of_mem _ hq))
      fun q hq z hz => stored_writable h1 (h q (List.mem_cons_of_mem _ hq) z hz)
    exact stored_trans h1 h2

/-! ## Elements of a stream -/

/-- The address of element `k` of the word's stream. -/
def streamAddr (x : MCmd) (k : Nat) : Nat := (stAddr x.da x.f.aoff.toNat k).toNat

/-- The `n` elements of `w` bytes of the word's stream lie in local memory, and no byte of them is lost. -/
def Fits (c : Ctx) (x : MCmd) (n w : Nat) : Prop := ∀ k < n, 0 ≤ stAddr x.da x.f.aoff.toNat k ∧
  stAddr x.da x.f.aoff.toNat k + w ≤ 0x800000 ∧ ∀ b < w, (c.localMem (stSpace x.da)).unit 2 (streamAddr x k + b) ≠ .lost

theorem localMem_stSpace (c : Ctx) (x : MCmd) : c.localMem (stSpace x.da) = if stSpace x.da = .can then c.can else c.sp := by
  cases stSpace x.da <;> rfl

theorem localMem_whole {c : Ctx} (h : Safety.LocalWhole c) (w : Space) (a : Nat) : (c.localMem w).goneAt a = false := by
  cases w
  · exact whole_goneAt h.1 a
  · exact whole_goneAt h.1 a
  · exact whole_goneAt h.2 a

section
variable {c : Ctx} {x : MCmd} {n w : Nat} (hf : Fits c x n w) (hw : Safety.LocalWhole c) {ks : List Nat} (hk : ∀ k ∈ ks, k < n)
  (v : Nat → Nat)
include hf hk

theorem elems_local : ∀ p ∈ elemsOf ks w (streamAddr x) v, p.1 < canBase := by
  intro p hp
  obtain ⟨k, hkm, h1, h2⟩ := mem_elemsOf.1 (List.mem_map_of_mem hp)
  obtain ⟨h3, h4, -⟩ := hf k (hk k hkm)
  have hc : canBase = 0x1000000 := rfl
  unfold streamAddr at h2
  omega

include hw

theorem elems_writable : AllWritable 2 (c.localMem (stSpace x.da)) (elemsOf ks w (streamAddr x) v) := by
  intro p hp
  obtain ⟨k, hkm, h1, h2⟩ := mem_elemsOf.1 (List.mem_map_of_mem hp)
  obtain ⟨-, -, h5⟩ := hf k (hk k hkm)
  refine ⟨?_, localMem_whole hw _ _⟩
  have := h5 (p.1 - streamAddr x k) (by omega)
  rwa [Nat.add_sub_cancel' h1] at this

end

/-- The bytes of a stream, as the obligation tells them. -/
def WrittenTo (c d : Ctx) (x : MCmd) (n w : Nat) (v : Nat → Nat) : Prop :=
  (∀ k < n, ∀ b < w, (∀ k' < n, k < k' → stAddr x.da x.f.aoff.toNat k + b < stAddr x.da x.f.aoff.toNat k' ∨
      stAddr x.da x.f.aoff.toNat k' + w ≤ stAddr x.da x.f.aoff.toNat k + b) →
    (d.localMem (stSpace x.da)).byte (streamAddr x k + b) = BitVec.ofNat 8 (v k / 2 ^ (8 * b))) ∧
  (∀ a : Nat, (∀ k < n, (a : Int) + 2 ≤ stAddr x.da x.f.aoff.toNat k / 2 * 2 ∨ stAddr x.da x.f.aoff.toNat k + w + 1 ≤ (a : Int)) →
    (d.localMem (stSpace x.da)).byte a = (c.localMem (stSpace x.da)).byte a)

theorem writtenTo_of_stored {c d : Ctx} {x : MCmd} {n w : Nat} {v : Nat → Nat} (hf : Fits c x n w)
    (h : Stored c (stSpace x.da) (elemsOf (List.range n) w (streamAddr x) v) d) : WrittenTo c d x n w v := by
  have hpos : ∀ k < n, ((streamAddr x k : Nat) : Int) = stAddr x.da x.f.aoff.toNat k := fun k hk => Int.toNat_of_nonneg (hf k hk).1
  unfold WrittenTo
  rw [stored_byte h]
  refine ⟨fun k hk b hb hl => overlay_elem _ _ _ hk hb fun j hj hkj => ?_, fun a ha => overlay_other _ _ fun hm => ?_⟩
  · have := hl j hj hkj
    rw [← hpos k hk, ← hpos j hj] at this
    omega
  · obtain ⟨k, hk, h1, h2⟩ := mem_elemsOf.1 hm
    have := ha k (List.mem_range.1 hk)
    rw [← hpos k (List.mem_range.1 hk)] at this
    omega

end Sys2Proof.CoreArray
end

section
/-! The retirement of AST and ACVT, and the array's obligation (O39). -/
namespace Sys2Proof.CoreArray
open Sys2Proof Sys2Proof.Machine Sys2Proof.Claims Sys2Proof.CoreMem

theorem writtenTo_signalled {c d : Ctx} {x : MCmd} {n k : Nat} {v : Nat → Nat} (h : WrittenTo c d x n k v) (w : SMap Window)
    (m : MxChan) (a : SMap (BitVec 20)) (i : List (Nat × Word)) : WrittenTo c (signalled d w m a i) x n k v := by
  have hm : (signalled d w m a i).localMem (stSpace x.da) = d.localMem (stSpace x.da) := by cases stSpace x.da <;> rfl
  unfold WrittenTo
  rw [hm]
  exact h

section
variable {s : State} {c : Ctx} {cid : Nat} {x : MCmd} (hl : Live s cid c) (hk : Safety.Keyed s) (ha : c.mx.active = some x)
  (hx : x.cancel = false) (hd : ∀ d, x.due = some d → d ≤ c.t) (hf : c.flight = []) (hs : c.mx.shadow = none)
include hl hk ha hx hd hf hs

/-- A word that writes elements of its stream retires. -/
theorem retires_stored {n w : Nat} {v : Nat → Nat} (ht : mxTargets x = []) (hset : x.op ≠ .setx) (hfit : Fits c x n w)
    (h : ∀ g y, Stored c (stSpace x.da) (elemsOf (List.range n) w (streamAddr x) v) ((c.flag g).mxStore (reborn x y))) :
    Retires s c cid (fun d => (d.acc = c.acc ∧ d.bp = c.bp) ∧ d.v = c.v ∧ WrittenTo c d x n w v) := by
  have hst := h (readFlags c x) s.cycle.toNat
  have hdr : (c.drain (reborn x s.cycle.toNat) .pass).1 = (c.flag (readFlags c x)).mxStore (reborn x s.cycle.toNat) :=
    drain_reader (x := reborn x s.cycle.toNat) ht hset
  obtain ⟨hcid, hmx, hm, hq, -, hacc, hbp, hv⟩ := stored_keeps hst
  exact retires_of_drained hl hk ha hx hd hf hs hdr hcid hmx hm hq fun w m a i => 
    ⟨⟨hacc, hbp⟩, hv, writtenTo_signalled (writtenTo_of_stored hfit hst) w m a i⟩

end

/-! ## AST -/

theorem unveil_quiet {c : Ctx} (keys : List Nat) (h : c.flight = []) : c.unveil keys = c := by
  unfold Ctx.unveil
  rw [h]
  exact congrArg (fun l => { c with flight := l }) h.symm

theorem flatMap_keyed (w : Space) (ks : List Nat) (n : Nat) (addr v : Nat → Nat) :
    ks.flatMap (fun k => place (localKey w (addr k)) (bytesOfNat n (v k))) = keyed w (elemsOf ks n addr v) := by
  unfold elemsOf keyed
  rw [List.map_flatMap]
  exact congrArg (ks.flatMap ·) (funext fun k => place_key w _ _)

theorem stored_flag {c : Ctx} {g : BitVec 5} {w : Space} {bs : List (Nat × Byte)} {d : Ctx} (h : Stored (c.flag g) w bs d) :
    Stored c w bs d := by
  obtain ⟨m, st, la, ld, l, en, a, i, rfl, hb, hw⟩ := h
  have hm : (c.flag g).localMem w = c.localMem w := by cases w <;> rfl
  rw [hm] at hb hw
  exact ⟨m, st, la, ld, l, en, a, i, by cases w <;> rfl, hb, hw⟩

theorem setMem_flight (c : Ctx) (w : Space) (m : Mem) : (setMem c w m).flight = c.flight := by cases w <;> rfl

/-- AST writes the image of its tile (R355). -/
theorem stored_ast {c : Ctx} {x : MCmd} (ho : x.op = .ast) (hf : c.flight = []) (hw : Safety.LocalWhole c) (hfit : Fits c x 4160 6) :
    Stored c (stSpace x.da) (elemsOf (List.range 4160) 6 (streamAddr x) (imageEl (c.tile x.f.acc))) (c.mxStore x) := by
  have hks : ∀ k ∈ List.range 4160, k < 4160 := fun k => List.mem_range.1
  have hst : c.mxStore x = (c.localStore (keyed (stSpace x.da)
      (elemsOf (List.range 4160) 6 (streamAddr x) (imageEl (c.tile x.f.acc))))).unveil
      ((keyed (stSpace x.da) (elemsOf (List.range 4160) 6 (streamAddr x) (imageEl (c.tile x.f.acc)))).map Prod.fst) := by
    unfold Ctx.mxStore
    rw [ho]
    dsimp only
    rw [← flatMap_keyed]
    rfl
  rw [hst, localStore_keyed c _ (elems_local hfit hks _), unveil_quiet]
  · exact stored_setMem (elems_writable hfit hw hks _)
  · exact (setMem_flight ..).trans hf

/-! ## ACVT to a stream -/

/-- A part of a row: the row, its first column and its columns (R351). -/
def partsOf (x : MCmd) : List (Nat × Nat × Nat) := (List.range 64).flatMap (fun i => (cvtParts x.f).map (fun p => (i, p.1, p.2)))

/-- The converted elements of a part of a row. -/
def partVals (c : Ctx) (x : MCmd) (p : Nat × Nat × Nat) : List (Nat × BitVec 5) :=
  (List.range p.2.2).map (fun l => cvtEl x.f (c.tile x.f.acc) p.1 (p.2.1 + l))

/-- The result of a part of a row that goes to `d`. -/
def partFlight (c : Ctx) (x : MCmd) (d : Dest) (p : Nat × Nat × Nat) : Flight :=
  { sq := .comp, dest := d, val := BitVec.ofNat 1024 (packLanes x.f.af.bits ((partVals c x p).map Prod.fst)),
    mask := BitVec.allOnes 1024, due := c.t + 8 * (p.1 / 8 + 1), sig := 0xFF, flags := flagsOf (partVals c x p), leg := none, vno := 0 }

theorem cvtRows_eq (c : Ctx) (x : MCmd) : cvtRows c x =
    (partsOf x).filterMap (fun p => (cvtDest x p.1 p.2.1 p.2.2).map (fun d => partFlight c x d p)) := by
  unfold cvtRows partsOf
  rw [List.filterMap_flatMap]
  refine congrArg (fun g => (List.range 64).flatMap g) (funext fun i => ?_)
  rw [List.filterMap_map]
  rfl

/-- Where a part of a row goes that is written to the stream. -/
def partDest (x : MCmd) (p : Nat × Nat × Nat) : Dest :=
  .elems (x.f.af.bits / 8) ((List.range p.2.2).map (fun l => (l, localKey (stSpace x.da) (streamAddr x (64 * p.1 + p.2.1 + l)))))

theorem cvtRows_stream (c : Ctx) {x : MCmd} (h : x.f.xsel = false) :
    cvtRows c x = (partsOf x).map (fun p => partFlight c x (partDest x p) p) := by
  have hdest : ∀ i col n, cvtDest x i col n = some (partDest x (i, col, n)) := fun i col n => if_neg (by rw [h]; exact Bool.false_ne_true)
  rw [cvtRows_eq, ← List.filterMap_eq_map]
  refine List.filterMap_congr fun p _ => ?_
  rw [hdest]
  rfl

/-- Element `k` of the tile, converted. -/
def cvtVal (c : Ctx) (x : MCmd) (k : Nat) : Nat := (cvtEl x.f (c.tile x.f.acc) (k / 64) (k % 64)).1

theorem cvtEl_converted (f : MxF) (t : Tile) (i j : Nat) : (cvtEl f t i j).1 = (converted f t i j).1 := rfl

/-- The parts of rows: each lies within its row, and its lanes fill a register at most. -/
theorem mem_partsOf {x : MCmd} {p : Nat × Nat × Nat} (h : p ∈ partsOf x) :
    p.1 < 64 ∧ (x.f.af.bits = 16 ∧ p.2 = (0, 64) ∨ x.f.af.bits ≠ 16 ∧ (p.2 = (0, 32) ∨ p.2 = (32, 32))) := by
  obtain ⟨i, hi, hp⟩ := List.mem_flatMap.1 h
  obtain ⟨y, hy, rfl⟩ := List.mem_map.1 hp
  refine ⟨List.mem_range.1 hi, ?_⟩
  unfold cvtParts at hy
  split at hy
  · next hb => exact .inl ⟨hb, List.mem_singleton.1 hy⟩
  · next hb => exact .inr ⟨hb, by simpa using hy⟩

theorem bits_width (ty : Fmt) : 8 * (ty.bits / 8) = ty.bits ∧ (ty.bits = 8 ∨ ty.bits = 16 ∨ ty.bits = 32) := by
  cases ty <;> decide

/-- A part of a row lies in one row. -/
theorem part_bounds {x : MCmd} {p : Nat × Nat × Nat} (h : p ∈ partsOf x) :
    p.1 < 64 ∧ p.2.1 + p.2.2 ≤ 64 ∧ x.f.af.bits * p.2.2 ≤ 1024 := by
  obtain ⟨hi, hp⟩ := mem_partsOf h
  obtain ⟨-, hb⟩ := bits_width x.f.af
  rcases hp with ⟨h16, e⟩ | ⟨h16, e | e⟩
  · rw [e, h16]; exact ⟨hi, by decide, by decide⟩
  · rw [e]
    refine ⟨hi, by decide, ?_⟩
    dsimp only
    omega
  · rw [e]
    refine ⟨hi, by decide, ?_⟩
    dsimp only
    omega

/-- Lane `l` of a part's result is element `l` of the part. -/
theorem partFlight_lane (c : Ctx) {x : MCmd} (d : Dest) {p : Nat × Nat × Nat} (h : p ∈ partsOf x) {l : Nat} (hl : l < p.2.2) :
    (partFlight c x d p).val.toNat / 2 ^ (x.f.af.bits * l) % 2 ^ x.f.af.bits =
      (cvtEl x.f (c.tile x.f.acc) p.1 (p.2.1 + l)).1 % 2 ^ x.f.af.bits := by
  obtain ⟨-, -, hb⟩ := part_bounds h
  have hlen : ((partVals c x p).map Prod.fst).length = p.2.2 := by
    rw [List.length_map, partVals, List.length_map, List.length_range]
  have hv : ((partVals c x p).map Prod.fst)[l]'(by rw [hlen]; exact hl) = (cvtEl x.f (c.tile x.f.acc) p.1 (p.2.1 + l)).1 := by
    simp only [partVals, List.getElem_map, List.getElem_range]
  rw [← hv]
  exact lane_packLanes (by rw [hlen]; exact hb) (by rw [hlen]; exact hl)

/-- The elements of the stream that a part of a row writes. -/
def partElems (p : Nat × Nat × Nat) : List Nat := (List.range p.2.2).map (fun l => 64 * p.1 + p.2.1 + l)

theorem elemWrites_flatMap (w : Nat) (v : VWord) (l : List (Nat × Nat)) :
    elemWrites w v l = l.flatMap (fun p => place p.2 (laneBytes w v p.1)) := by
  induction l with
  | nil => rfl
  | cons p r ih => rw [List.flatMap_cons, ← ih]; rfl

theorem elemWrites_part (c : Ctx) {x : MCmd} {p : Nat × Nat × Nat} (h : p ∈ partsOf x) :
    elemWrites (x.f.af.bits / 8) (partFlight c x (partDest x p) p).val
      ((List.range p.2.2).map (fun l => (l, localKey (stSpace x.da) (streamAddr x (64 * p.1 + p.2.1 + l))))) =
    keyed (stSpace x.da) (elemsOf (partElems p) (x.f.af.bits / 8) (streamAddr x) (cvtVal c x)) := by
  obtain ⟨hb, -⟩ := bits_width x.f.af
  obtain ⟨hi, hcol, -⟩ := part_bounds h
  rw [elemWrites_flatMap, ← flatMap_keyed, partElems, List.flatMap_map, List.flatMap_map]
  refine List.flatMap_congr fun l hl => congrArg (place _) ?_
  have hlt := List.mem_range.1 hl
  have hk : cvtVal c x (64 * p.1 + p.2.1 + l) = (cvtEl x.f (c.tile x.f.acc) p.1 (p.2.1 + l)).1 := by
    unfold cvtVal
    rw [show (64 * p.1 + p.2.1 + l) / 64 = p.1 by omega, show (64 * p.1 + p.2.1 + l) % 64 = p.2.1 + l by omega]
  unfold laneBytes
  rw [hb, partFlight_lane c _ h hlt, hk]
  have hmod := bytesOfNat_mod (x.f.af.bits / 8) (cvtEl x.f (c.tile x.f.acc) p.1 (p.2.1 + l)).1
  rwa [hb] at hmod

/-- The parts of the rows, in order, are the elements of the tile. -/
theorem flatMap_partElems (x : MCmd) : (partsOf x).flatMap partElems = List.range 4096 := by
  have hrow : ∀ i, ((cvtParts x.f).map (fun p => (i, p.1, p.2))).flatMap partElems = (List.range 64).map (64 * i + ·) := by
    intro i
    unfold cvtParts
    split
    · rw [List.map_singleton, List.flatMap_singleton]
      rfl
    · show partElems (i, 0, 32) ++ (partElems (i, 32, 32) ++ []) = _
      rw [show 64 = 32 + 32 from rfl, List.range_add, List.map_append, List.append_nil, List.map_map]
      refine congrArg₂ _ rfl (List.map_congr_left fun l _ => ?_)
      show (32 + 32) * i + 32 + l = (32 + 32) * i + (32 + l)
      omega
  unfold partsOf
  rw [List.flatMap_assoc]
  simp only [hrow]
  rw [range_flatMap (fun i l => 64 * i + l) (by decide) 64]
  refine (List.map_congr_left fun k _ => ?_).trans (List.map_id _)
  exact Nat.div_add_mod k 64

/-- ACVT writes its rows (R150, R351). -/
theorem stored_acvt {c : Ctx} {x : MCmd} (ho : x.op = .acvt) (hr : x.rows = false) (hsel : x.f.xsel = false) (hf : c.flight = [])
    (hw : Safety.LocalWhole c) (hfit : Fits c x 4096 (x.f.af.bits / 8)) :
    Stored c (stSpace x.da) (elemsOf (List.range 4096) (x.f.af.bits / 8) (streamAddr x) (cvtVal c x)) (c.mxStore x) := by
  have hst : c.mxStore x = c.landAll ((partsOf x).map (fun p => partFlight c x (partDest x p) p)) := by
    unfold Ctx.mxStore
    rw [ho]
    dsimp only
    rw [hr, if_neg Bool.false_ne_true, cvtRows_stream c hsel]
  have hall : elemsOf (List.range 4096) (x.f.af.bits / 8) (streamAddr x) (cvtVal c x) =
      (partsOf x).flatMap (fun p => elemsOf (partElems p) (x.f.af.bits / 8) (streamAddr x) (cvtVal c x)) := by
    rw [← flatMap_partElems x]
    exact List.flatMap_assoc
  have hks : ∀ p ∈ partsOf x, ∀ k ∈ partElems p, k < 4096 := by
    intro p hp k hk
    obtain ⟨hi, hcol, -⟩ := part_bounds hp
    obtain ⟨l, hl, rfl⟩ := List.mem_map.1 hk
    have := List.mem_range.1 hl
    omega
  rw [hst, hall]
  exact stored_landAll (partsOf x) hf (fun p hp => ⟨_, _, rfl, elemWrites_part c hp⟩) (fun p => rfl)
    (fun p hp => elems_local hfit (hks p hp) _) fun p hp => elems_writable hfit hw (hks p hp) _

end Sys2Proof.CoreArray
end

section
/-! ACVT to vector registers, and the array's obligation (O39). -/
namespace Sys2Proof.CoreArray
open Sys2Proof Sys2Proof.Machine Sys2Proof.Claims Sys2Proof.CoreMem

/-! ## Vector results that land whole -/

/-- Register `r` after results land one after another. -/
def regAfter (old : VWord) (r : BitVec 5) (fs : List Flight) : VWord :=
  fs.foldl (fun o f => if f.dest = .vreg r then f.val else o) old

theorem regAfter_none {old : VWord} {r : BitVec 5} {fs : List Flight} (h : ∀ f ∈ fs, f.dest ≠ .vreg r) : regAfter old r fs = old := by
  induction fs generalizing old with
  | nil => rfl
  | cons f fs ih =>
    refine (ih fun g hg => h g (List.mem_cons_of_mem _ hg)).trans (if_neg (h f (List.mem_cons_self ..)))

theorem regAfter_kept {old : VWord} {r : BitVec 5} {fs : List Flight} (h : ∀ f ∈ fs, f.dest = .vreg r → f.val = old) :
    regAfter old r fs = old := by
  induction fs generalizing old with
  | nil => rfl
  | cons f fs ih =>
    have hstep : (if f.dest = .vreg r then f.val else old) = old := by
      split
      · next hd => exact h f (List.mem_cons_self ..) hd
      · rfl
    show regAfter (if f.dest = .vreg r then f.val else old) r fs = old
    rw [hstep]
    exact ih fun g hg => h g (List.mem_cons_of_mem _ hg)

/-- Results of one value are the register's value, whatever it held. -/
theorem regAfter_all {old v : VWord} {r : BitVec 5} {fs : List Flight} (h : ∀ f ∈ fs, f.dest = .vreg r → f.val = v)
    (he : ∃ f ∈ fs, f.dest = .vreg r) : regAfter old r fs = v := by
  induction fs generalizing old with
  | nil => obtain ⟨f, hf, -⟩ := he; cases hf
  | cons f fs ih =>
    have hr : ∀ g ∈ fs, g.dest = .vreg r → g.val = v := fun g hg => h g (List.mem_cons_of_mem _ hg)
    show regAfter (if f.dest = .vreg r then f.val else old) r fs = v
    by_cases hd : f.dest = .vreg r
    · rw [if_pos hd, h f (List.mem_cons_self ..) hd]
      exact regAfter_kept hr
    · obtain ⟨g, hg, hgd⟩ := he
      obtain rfl | hg := List.mem_cons.1 hg
      · exact absurd hgd hd
      · exact ih hr ⟨g, hg, hgd⟩

/-- A context in which only vector registers, and what landings set besides, differ. -/
def revalued (c : Ctx) (v : SMap VWord) (st la : BitVec 5) (ld : List (BitVec 8 × Bool)) (l : Option Leg) (en : List Leg)
    (a : SMap (BitVec 20)) (i : List (Nat × Word)) : Ctx :=
  { c with v := v, sticky := st, late := la, landed := ld, leg := l, ended := en, sems := a, impr := i }

theorem landOne_whole (c : Ctx) {f : Flight} {n : BitVec 5} (hd : f.dest = .vreg n) (hm : f.mask = BitVec.allOnes 1024) :
    ∃ st la ld l en a i, c.landOne f = revalued c (c.setVreg n f.val).v st la ld l en a i := by
  have hv : (c.vreg n &&& ~~~f.mask) ||| (f.val &&& f.mask) = f.val := by
    rw [hm, BitVec.not_allOnes, BitVec.and_zero, BitVec.and_allOnes, BitVec.zero_or]
  have hw : CoreResults.wrote c f = c.setVreg n f.val := by
    unfold CoreResults.wrote
    rw [hd]
    exact congrArg (c.setVreg n) hv
  obtain ⟨st, la, ld, l, en, a, i, e⟩ := CoreResults.landOne_cases c f
  exact ⟨st, la, ld, l, en, a, i, by rw [e, hw]; rfl⟩

theorem vreg_revalued (c : Ctx) (v : SMap VWord) (st la : BitVec 5) (ld : List (BitVec 8 × Bool)) (l : Option Leg) (en : List Leg)
    (a : SMap (BitVec 20)) (i : List (Nat × Word)) (r : BitVec 5) : (revalued c v st la ld l en a i).vreg r = v.get 0 r.toNat := rfl

theorem get_setVreg (c : Ctx) (n r : BitVec 5) (x : VWord) : (c.setVreg n x).v.get 0 r.toNat = if n = r then x else c.vreg r := by
  split
  · next h => rw [h]; exact SMap.get_put_self ..
  · next h => exact SMap.get_put_other _ _ _ fun e => h (BitVec.eq_of_toNat_eq e.symm)

theorem landAll_whole (fs : List Flight) (c : Ctx) (h : ∀ f ∈ fs, ∃ n, f.dest = .vreg n ∧ f.mask = BitVec.allOnes 1024) :
    ∃ v st la ld l en a i, c.landAll fs = revalued c v st la ld l en a i ∧
      ∀ r : BitVec 5, v.get 0 r.toNat = regAfter (c.vreg r) r fs := by
  induction fs generalizing c with
  | nil => exact ⟨c.v, c.sticky, c.late, c.landed, c.leg, c.ended, c.sems, c.impr, rfl, fun _ => rfl⟩
  | cons f fs ih =>
    obtain ⟨n, hd, hm⟩ := h f (List.mem_cons_self ..)
    obtain ⟨st, la, ld, l, en, a, i, e⟩ := landOne_whole c hd hm
    obtain ⟨v, st2, la2, ld2, l2, en2, a2, i2, e2, hv⟩ := ih (c.landOne f) fun g hg => h g (List.mem_cons_of_mem _ hg)
    refine ⟨v, st2, la2, ld2, l2, en2, a2, i2, e2.trans (by rw [e]; rfl), fun r => (hv r).trans ?_⟩
    refine congrArg (regAfter · r fs) ?_
    rw [e, vreg_revalued, get_setVreg]
    exact if_congr ⟨fun h => by rw [hd, h], fun h => Dest.vreg.inj (hd.symm.trans h)⟩ rfl rfl

/-! ## The registers of the rows -/

/-- The register of a part of a row (R351), and the last one of the row. -/
def partReg (x : MCmd) (p : Nat × Nat × Nat) : Nat :=
  if x.f.af.bits = 16 then x.f.imm.toNat + p.1 else x.f.imm.toNat + 2 * p.1 + p.2.1 / 32

def lastReg (x : MCmd) (p : Nat × Nat × Nat) : Nat :=
  if x.f.af.bits = 16 then partReg x p else x.f.imm.toNat + 2 * p.1 + 1

theorem filterMap_if {α β : Type} (q : α → Bool) (f : α → β) (l : List α) :
    l.filterMap (fun p => if q p then some (f p) else none) = (l.filter q).map f := by
  induction l with
  | nil => rfl
  | cons p r ih =>
    rw [List.filterMap_cons, List.filter_cons]
    cases hq : q p with
    | true => simp only [if_true, List.map_cons, ih]
    | false => simp only [Bool.false_eq_true, if_false, ih]

theorem cvtRows_regs (c : Ctx) {x : MCmd} (h : x.f.xsel = true) : cvtRows c x =
    ((partsOf x).filter (fun p => lastReg x p ≤ 31)).map (fun p => partFlight c x (.vreg (BitVec.ofNat 5 (partReg x p))) p) := by
  have hdest : ∀ p : Nat × Nat × Nat, cvtDest x p.1 p.2.1 p.2.2 =
      if lastReg x p ≤ 31 then some (.vreg (BitVec.ofNat 5 (partReg x p))) else none := fun p => if_pos h
  rw [cvtRows_eq, ← filterMap_if]
  refine List.filterMap_congr fun p _ => ?_
  rw [hdest]
  by_cases hp : lastReg x p ≤ 31
  · rw [if_pos hp, if_pos (decide_eq_true hp)]; rfl
  · rw [if_neg hp, if_neg (by simpa using hp)]; rfl

theorem partReg_le {x : MCmd} {p : Nat × Nat × Nat} (h : p ∈ partsOf x) : x.f.imm.toNat ≤ partReg x p ∧ partReg x p ≤ lastReg x p := by
  obtain ⟨-, hp⟩ := mem_partsOf h
  unfold lastReg partReg
  rcases hp with ⟨h16, e⟩ | ⟨h16, e | e⟩
  · rw [if_pos h16, if_pos h16]; omega
  · rw [if_neg h16, if_neg h16, e]; dsimp only; omega
  · rw [if_neg h16, if_neg h16, e]; dsimp only; omega

/-- Two parts have two registers. -/
theorem partReg_inj {x : MCmd} {p q : Nat × Nat × Nat} (hp : p ∈ partsOf x) (hq : q ∈ partsOf x) (h : partReg x p = partReg x q) :
    p = q := by
  obtain ⟨-, hp⟩ := mem_partsOf hp
  obtain ⟨-, hq⟩ := mem_partsOf hq
  obtain ⟨i, col⟩ := p
  obtain ⟨j, col'⟩ := q
  unfold partReg at h
  dsimp only at h hp hq
  rcases hp with ⟨h16, e⟩ | ⟨h16, e⟩
  · rcases hq with ⟨-, e'⟩ | ⟨h16', -⟩
    · rw [if_pos h16, if_pos h16] at h
      rw [e, e', show i = j by omega]
    · exact absurd h16 h16'
  · rcases hq with ⟨h16', -⟩ | ⟨-, e'⟩
    · exact absurd h16' h16
    · rw [if_neg h16, if_neg h16] at h
      rcases e with e | e <;> rcases e' with e' | e'
      · rw [e, e'] at h ⊢; rw [show i = j by dsimp only at h; omega]
      · rw [e, e'] at h; dsimp only at h; omega
      · rw [e, e'] at h; dsimp only at h; omega
      · rw [e, e'] at h ⊢; rw [show i = j by dsimp only at h; omega]

theorem ofNat5_inj {m n : Nat} (hm : m < 32) (hn : n < 32) (h : BitVec.ofNat 5 m = BitVec.ofNat 5 n) : m = n := by
  have := congrArg BitVec.toNat h
  rwa [BitVec.toNat_ofNat, BitVec.toNat_ofNat, Nat.mod_eq_of_lt hm, Nat.mod_eq_of_lt hn] at this

/-! ## ACVT to registers -/

/-- The results of the rows that have registers. -/
def regRows (c : Ctx) (x : MCmd) : List Flight :=
  ((partsOf x).filter (fun p => lastReg x p ≤ 31)).map (fun p => partFlight c x (.vreg (BitVec.ofNat 5 (partReg x p))) p)

theorem mem_regRows {c : Ctx} {x : MCmd} {f : Flight} (h : f ∈ regRows c x) : ∃ p ∈ partsOf x, lastReg x p ≤ 31 ∧
    f = partFlight c x (.vreg (BitVec.ofNat 5 (partReg x p))) p := by
  obtain ⟨p, hp, rfl⟩ := List.mem_map.1 h
  obtain ⟨hp, hl⟩ := List.mem_filter.1 hp
  exact ⟨p, hp, of_decide_eq_true hl, rfl⟩

/-- Registers below the first one stay. -/
theorem regRows_below (c : Ctx) (x : MCmd) (old : VWord) {m : Nat} (h : m < 32) (hm : m < x.f.imm.toNat) :
    regAfter old (BitVec.ofNat 5 m) (regRows c x) = old := by
  refine regAfter_none fun f hf hd => ?_
  obtain ⟨p, hp, hl, rfl⟩ := mem_regRows hf
  obtain ⟨h1, h2⟩ := partReg_le hp
  have := ofNat5_inj (by omega) h (Dest.vreg.inj hd)
  omega

/-- The register of a part holds the part's result. -/
theorem regRows_part (c : Ctx) {x : MCmd} (old : VWord) {p : Nat × Nat × Nat} (hp : p ∈ partsOf x) (hl : lastReg x p ≤ 31) :
    regAfter old (BitVec.ofNat 5 (partReg x p)) (regRows c x) = (partFlight c x (.vreg (BitVec.ofNat 5 (partReg x p))) p).val := by
  refine regAfter_all (fun f hf hd => ?_) ⟨_, List.mem_map.2 ⟨p, List.mem_filter.2 ⟨hp, decide_eq_true hl⟩, rfl⟩, rfl⟩
  obtain ⟨q, hq, hql, rfl⟩ := mem_regRows hf
  have h1 := (partReg_le hq).2
  have h2 := (partReg_le hp).2
  rw [partReg_inj hq hp (ofNat5_inj (by omega) (by omega) (Dest.vreg.inj hd))]

theorem partsOf_16 {x : MCmd} (h : x.f.af.bits = 16) {i : Nat} (hi : i < 64) : (i, 0, 64) ∈ partsOf x := by
  refine List.mem_flatMap.2 ⟨i, List.mem_range.2 hi, List.mem_map.2 ⟨(0, 64), ?_, rfl⟩⟩
  unfold cvtParts
  rw [if_pos h]
  exact List.mem_singleton.2 rfl

theorem partsOf_32 {x : MCmd} (h : x.f.af.bits = 32) {i k : Nat} (hi : i < 64) (hk : k < 2) : (i, 32 * k, 32) ∈ partsOf x := by
  refine List.mem_flatMap.2 ⟨i, List.mem_range.2 hi, List.mem_map.2 ⟨(32 * k, 32), ?_, rfl⟩⟩
  unfold cvtParts
  rw [if_neg (by rw [h]; decide)]
  obtain rfl | rfl : k = 0 ∨ k = 1 := by omega
  · exact List.mem_cons_self ..
  · exact List.mem_cons_of_mem _ (List.mem_singleton.2 rfl)

/-- The registers after ACVT (R351). -/
def Converted (c : Ctx) (x : MCmd) (d : Ctx) : Prop :=
  let n := x.f.imm.toNat
  let lane (w m j : Nat) : Nat := (d.vreg (BitVec.ofNat 5 m)).toNat / 2 ^ (w * j) % 2 ^ w
  (∀ m < 32, m < n → d.vreg (BitVec.ofNat 5 m) = c.vreg (BitVec.ofNat 5 m)) ∧
  (x.f.af.bits = 16 → ∀ i, n + i ≤ 31 → ∀ j < 64, lane 16 (n + i) j = (converted x.f (c.tile x.f.acc) i j).1 % 2 ^ 16) ∧
  (x.f.af.bits = 32 → ∀ i, n + 2 * i + 1 ≤ 31 → ∀ j < 64,
    lane 32 (n + 2 * i + j / 32) (j % 32) = (converted x.f (c.tile x.f.acc) i j).1 % 2 ^ 32)

theorem converted_regRows {c d : Ctx} {x : MCmd}
    (h : ∀ r : BitVec 5, d.vreg r = regAfter (c.vreg r) r (regRows c x)) : Converted c x d := by
  refine ⟨fun m h32 hm => (h _).trans (regRows_below c x _ h32 hm), fun hb i hi j hj => ?_, fun hb i hi j hj => ?_⟩
  · have hp := partsOf_16 hb (i := i) (by omega)
    have hr : partReg x (i, 0, 64) = x.f.imm.toNat + i := if_pos hb
    have hlast : lastReg x (i, 0, 64) ≤ 31 := by unfold lastReg; rw [if_pos hb, hr]; exact hi
    have hlane := partFlight_lane c (.vreg (BitVec.ofNat 5 (partReg x (i, 0, 64)))) hp (l := j) hj
    rw [← regRows_part c (c.vreg (BitVec.ofNat 5 (partReg x (i, 0, 64)))) hp hlast, ← h, hr, hb] at hlane
    refine hlane.trans ?_
    show (cvtEl x.f (c.tile x.f.acc) i (0 + j)).1 % 2 ^ 16 = _
    rw [Nat.zero_add]
    rfl
  · have hb16 : x.f.af.bits ≠ 16 := by rw [hb]; decide
    have hp := partsOf_32 hb (i := i) (k := j / 32) (by omega) (by omega)
    have hr : partReg x (i, 32 * (j / 32), 32) = x.f.imm.toNat + 2 * i + j / 32 := by
      unfold partReg
      rw [if_neg hb16]
      dsimp only
      omega
    have hlast : lastReg x (i, 32 * (j / 32), 32) ≤ 31 := by unfold lastReg; rw [if_neg hb16]; exact hi
    have hlane := partFlight_lane c (.vreg (BitVec.ofNat 5 (partReg x (i, 32 * (j / 32), 32)))) hp (l := j % 32)
      (Nat.mod_lt _ (by decide))
    rw [← regRows_part c (c.vreg (BitVec.ofNat 5 (partReg x (i, 32 * (j / 32), 32)))) hp hlast, ← h, hr, hb] at hlane
    refine hlane.trans ?_
    show (cvtEl x.f (c.tile x.f.acc) i (32 * (j / 32) + j % 32)).1 % 2 ^ 32 = _
    rw [Nat.div_add_mod]
    rfl

/-- ACVT lands its rows in their registers. -/
theorem revalued_acvt {c : Ctx} {x : MCmd} (ho : x.op = .acvt) (hr : x.rows = false) (hsel : x.f.xsel = true) :
    ∃ v st la ld l en a i, c.mxStore x = revalued c v st la ld l en a i ∧
      ∀ r : BitVec 5, v.get 0 r.toNat = regAfter (c.vreg r) r (regRows c x) := by
  have hst : c.mxStore x = c.landAll (regRows c x) := by
    unfold Ctx.mxStore
    rw [ho]
    dsimp only
    rw [hr, if_neg Bool.false_ne_true, cvtRows_regs c hsel]
    rfl
  rw [hst]
  refine landAll_whole _ c fun f hf => ?_
  obtain ⟨p, -, -, rfl⟩ := mem_regRows hf
  exact ⟨_, rfl, rfl⟩

section
variable {s : State} {c : Ctx} {cid : Nat} {x : MCmd} (hl : Live s cid c) (hk : Safety.Keyed s) (ha : c.mx.active = some x)
  (hx : x.cancel = false) (hd : ∀ d, x.due = some d → d ≤ c.t) (hf : c.flight = []) (hs : c.mx.shadow = none)
include hl hk ha hx hd hf hs

theorem acvt_regs_retires (ho : x.op = .acvt) (hr : x.rows = false) (hsel : x.f.xsel = true) :
    Retires s c cid (fun d => (d.acc = c.acc ∧ d.bp = c.bp) ∧ d.sp = c.sp ∧ d.can = c.can ∧ Converted c x d) := by
  obtain ⟨v, st, la, ld, l, en, a, i, hst, hv⟩ :=
    revalued_acvt (c := c.flag (readFlags c x)) (x := reborn x s.cycle.toNat) ho hr hsel
  have ht : mxTargets x = [] := by unfold mxTargets; rw [ho]
  have hdr : (c.drain (reborn x s.cycle.toNat) .pass).1 = revalued (c.flag (readFlags c x)) v st la ld l en a i :=
    (drain_reader (x := reborn x s.cycle.toNat) ht (fun e => nomatch ho.symm.trans e)).trans hst
  refine retires_of_drained hl hk ha hx hd hf hs hdr rfl rfl rfl (fun q => by cases q <;> rfl) fun w m a i =>
    ⟨⟨rfl, rfl⟩, rfl, rfl, converted_regRows hv⟩

theorem acvt_stream_retires (ho : x.op = .acvt) (hr : x.rows = false) (hsel : x.f.xsel = false) (hw : Safety.LocalWhole c)
    (hfit : Fits c x 4096 (x.f.af.bits / 8)) : Retires s c cid (fun d => (d.acc = c.acc ∧ d.bp = c.bp) ∧ d.v = c.v ∧
      WrittenTo c d x 4096 (x.f.af.bits / 8) (cvtVal c x)) := by
  have ht : mxTargets x = [] := by unfold mxTargets; rw [ho]
  refine retires_stored hl hk ha hx hd hf hs ht (fun e => nomatch ho.symm.trans e) hfit fun g y => stored_flag (g := g) ?_
  have hfit2 : Fits (c.flag g) (reborn x y) 4096 (x.f.af.bits / 8) := fun k hk => by
    obtain ⟨h1, h2, h3⟩ := hfit k hk
    exact ⟨h1, h2, fun b hb => (show ((c.flag g).localMem (stSpace x.da)) = c.localMem (stSpace x.da) by
      cases stSpace x.da <;> rfl) ▸ h3 b hb⟩
  exact stored_acvt (c := c.flag g) (x := reborn x y) ho hr hsel hf hw hfit2

theorem ast_retires (ho : x.op = .ast) (hw : Safety.LocalWhole c) (hfit : Fits c x 4160 6) :
    Retires s c cid (fun d => (d.acc = c.acc ∧ d.bp = c.bp) ∧ d.v = c.v ∧ WrittenTo c d x 4160 6 (imageEl (c.tile x.f.acc))) := by
  have ht : mxTargets x = [] := by unfold mxTargets; rw [ho]
  refine retires_stored hl hk ha hx hd hf hs ht (fun e => nomatch ho.symm.trans e) hfit fun g y => stored_flag (g := g) ?_
  have hfit2 : Fits (c.flag g) (reborn x y) 4160 6 := fun k hk => by
    obtain ⟨h1, h2, h3⟩ := hfit k hk
    exact ⟨h1, h2, fun b hb => (show ((c.flag g).localMem (stSpace x.da)) = c.localMem (stSpace x.da) by
      cases stSpace x.da <;> rfl) ▸ h3 b hb⟩
  exact stored_ast (c := c.flag g) (x := reborn x y) ho hf hw hfit2

end

theorem retires_mono {s : State} {c : Ctx} {cid : Nat} {k k' : Ctx → Prop} (h : Retires s c cid k) (hk : ∀ d, k d → k' d) :
    Retires s c cid k' := by
  obtain ⟨t, d, h1, h2, h3, h4, h5, h6, h7, h8⟩ := h
  exact ⟨t, d, h1, h2, h3, h4, h5, h6, h7, hk d h8⟩

/-- The local memory of the word's stream, as the obligation names it. -/
def streamMem (x : MCmd) (d : Ctx) : Mem := if stSpace x.da = .can then d.can else d.sp

theorem streamMem_eq (x : MCmd) : streamMem x = fun d => d.localMem (stSpace x.da) := funext fun d => (localMem_stSpace d x).symm

theorem fits_of_streamMem {c : Ctx} {x : MCmd} {n w : Nat} (h : ∀ k < n, 0 ≤ stAddr x.da x.f.aoff.toNat k ∧
    stAddr x.da x.f.aoff.toNat k + w ≤ 0x800000 ∧ ∀ b < w, (streamMem x c).unit 2 (streamAddr x k + b) ≠ .lost) : Fits c x n w := by
  rw [streamMem_eq] at h
  exact h

theorem writtenTo_streamMem {c d : Ctx} {x : MCmd} {n w : Nat} {v : Nat → Nat} (h : WrittenTo c d x n w v) :
    (∀ k < n, ∀ b < w, (∀ k' < n, k < k' → stAddr x.da x.f.aoff.toNat k + b < stAddr x.da x.f.aoff.toNat k' ∨
        stAddr x.da x.f.aoff.toNat k' + w ≤ stAddr x.da x.f.aoff.toNat k + b) →
      (streamMem x d).byte (streamAddr x k + b) = BitVec.ofNat 8 (v k / 2 ^ (8 * b))) ∧
    (∀ a : Nat, (∀ k < n, (a : Int) + 2 ≤ stAddr x.da x.f.aoff.toNat k / 2 * 2 ∨
        stAddr x.da x.f.aoff.toNat k + w + 1 ≤ (a : Int)) → (streamMem x d).byte a = (streamMem x c).byte a) := by
  rw [streamMem_eq]
  exact h

theorem tileReaders_holds : tileReaders := by
  intro s c cid x hl hk ha hx hd hf hs hw
  refine ⟨fun ho hfit => ?_, fun ho hr hsel hfit => ?_, fun ho hr hsel => ?_⟩
  · exact retires_mono (ast_retires hl hk ha hx hd hf hs ho hw (fits_of_streamMem hfit)) fun d h =>
      ⟨h.1, h.2.1, writtenTo_streamMem h.2.2⟩
  · exact retires_mono (acvt_stream_retires hl hk ha hx hd hf hs ho hr hsel hw (fits_of_streamMem hfit)) fun d h =>
      ⟨h.1, h.2.1, writtenTo_streamMem h.2.2⟩
  · exact acvt_regs_retires hl hk ha hx hd hf hs ho hr hsel

/-- Settles O39: the order of the array, the values that its words give their tiles, and what AST and ACVT write. -/
theorem matrixArraySteps : Obligations.MatrixArraySteps := ⟨arrayOrder_holds, matrixValues_holds, tileReaders_holds⟩

end Sys2Proof.CoreArray
end

section
/-!
The counterexample to CopyEngineSteps (O38): a result that lands while the joined schedule stands still leaves no note of its signal
in `landed`, which the claim keeps there.
-/
namespace Sys2Proof.CoreLandings
open Sys2Proof Sys2Proof.Machine Sys2Proof.Claims

/-- A vector result that writes no register, is due at once and signals semaphore 5. -/
def dueSignal : Flight :=
  { sq := .comp, dest := .none, val := 0, mask := 0, due := 0, sig := 5, flags := 0, leg := none, vno := 0 }

/-- A joined member with that result in flight. -/
def landingMember : Ctx := { Ctx.blank 1 0 with joined := true, stat := .running, flight := [dueSignal] }

/-- Core 0 runs the member, and its last long word did not issue. -/
def stalledState : State :=
  { (State.reset.setCtx landingMember).setCore 0 { Core.idle with active := some 1 } with focus := (0, .ctl), last := .stalled }

/-- The signals of landings that context 1 notes after an outcome. -/
def landedOf (o : Out) : Option (List (BitVec 8 × Bool)) :=
  match o with
  | .next s => (s.ctx 1).map (fun c => c.landed)
  | _ => none

theorem live_landingMember : Live stalledState 1 landingMember :=
  ⟨by decide +kernel, by decide +kernel, by decide +kernel, .inl rfl⟩

/-- The step forgets the signal, as no long word of this cycle will read it. -/
theorem resultLand_notes_none : landedOf (exec (.resultLand 1) stalledState) = some [] := by decide +kernel

/-- The landing alone would note it. -/
theorem landIf_notes_signal : landedOf (.next (stalledState.setCtx
    (landingMember.landIf (fun f => decide (f.due ≤ landingMember.t))))) = some [(5, true)] := by decide +kernel

theorem not_channelSteps : ¬ channelSteps := by
  intro claim
  obtain ⟨-, lands, -⟩ := claim stalledState landingMember 1 .inb live_landingMember (by decide +kernel) (nomatch ·)
  have h := congrArg landedOf (lands rfl ⟨dueSignal, .head _, by decide +kernel⟩)
  rw [resultLand_notes_none] at h
  exact nomatch h.trans landIf_notes_signal

/-- Refutes O38: `channelSteps` gives the landing of results in joined mode as `landIf` alone, and where the joined schedule stands
still RESULT_LAND also clears `landed`. -/
theorem not_copyEngineSteps : ¬ Obligations.CopyEngineSteps := fun h => not_channelSteps h.1

end Sys2Proof.CoreLandings
end

section
/-!
Words are the bits of their fields: a format's word is equal to `w` exactly when each field of `w` holds what the format writes
there. From it the decoder of the control words answers an instruction exactly when its encoding is the word.
-/
namespace Sys2Proof.Formats
open Sys2Proof

/-! ## Fields of concatenated bits -/

/-- The widths are kept out of the index of `simp`: where a word's type says 32, its concatenation's says the sum of the parts'
widths. -/
theorem append_eq_iff {m n : Nat} (x : BitVec m) (y : BitVec n) (w : BitVec (m + n)) :
    @Eq (no_index (BitVec (m + n))) (@HAppend.hAppend _ _ (no_index (BitVec (m + n))) _ x y) w ↔
      x = w.extractLsb' n m ∧ y = w.extractLsb' 0 n := by
  constructor
  · rintro rfl
    exact ⟨BitVec.extractLsb'_append_eq_left.symm, BitVec.extractLsb'_append_eq_right.symm⟩
  · rintro ⟨rfl, rfl⟩
    exact BitVec.extractLsb'_append_extractLsb'

theorem extract_extract {k : Nat} (x : BitVec k) {s l s' l' : Nat} (h : s + l ≤ l') :
    (x.extractLsb' s' l').extractLsb' s l = x.extractLsb' (s' + s) l := by
  ext i hi
  simp [Nat.add_assoc, show s + i < l' by omega]

theorem extract_one {k : Nat} (x : BitVec k) (i : Nat) (b : Bool) :
    x.extractLsb' i 1 = BitVec.ofBool b ↔ x.getLsbD i = b := by
  have one : x.extractLsb' i 1 = BitVec.ofBool (x.getLsbD i) := by
    ext j hj
    obtain rfl : j = 0 := by omega
    simp
  rw [one, BitVec.ofBool_eq_iff_eq]

theorem eq_extract_comm {k s l : Nat} (x : BitVec k) (y : BitVec l) : y = x.extractLsb' s l ↔ x.extractLsb' s l = y :=
  eq_comm

theorem eq_of_toNat {k n : Nat} {x : BitVec k} (h : x.toNat = n) : x = BitVec.ofNat k n := by
  rw [← h, BitVec.ofNat_toNat, BitVec.setWidth_eq]

/-! ## Codes: one bit pattern for each value, and no other -/

theorem fmt_ofCode (c : BitVec 4) (x : Fmt) : Fmt.ofCode c = some x ↔ c = x.code := by cases x <;> decide +revert
theorem rnd_ofCode (c : BitVec 3) (x : Rnd) : Rnd.ofCode c = some x ↔ c = x.code := by cases x <;> decide +revert
theorem scope_ofCode (c : BitVec 3) (x : Scope) : Scope.ofCode c = some x ↔ c = x.code := by cases x <;> decide +revert
theorem size_ofCode (c : BitVec 2) (x : Size) : Size.ofCode c = x ↔ c = x.code := by cases x <;> decide +revert
theorem space_ofCode (c : BitVec 2) (x : Space) : Space.ofCode c = some x ↔ c = x.code := by cases x <;> decide +revert
theorem tier_ofCode (c : BitVec 2) (x : Tier) : Tier.ofCode c = some x ↔ c = x.code := by cases x <;> decide +revert
theorem cc_ofCode (c : BitVec 3) (x : Cc) : Cc.ofCode c = some x ↔ c = x.code := by cases x <;> decide +revert
theorem amoOp_ofCode (c : BitVec 5) (x : AmoOp) : AmoOp.ofCode c = some x ↔ c = x.code := by cases x <;> decide +revert
theorem wcond_ofCode (c : BitVec 3) (x : WCond) : WCond.ofCode c = some x ↔ c = x.code := by cases x <;> decide +revert
theorem barOp_ofCode (c : BitVec 3) (x : BarOp) : BarOp.ofCode c = some x ↔ c = x.code := by cases x <;> decide +revert
theorem tlbKind_ofCode (c : BitVec 2) (x : TlbKind) : TlbKind.ofCode c = some x ↔ c = x.code := by
  cases x <;> decide +revert
theorem hintKind_ofCode (c : BitVec 4) (x : HintKind) : HintKind.ofCode c = some x ↔ c = x.code := by
  cases x <;> decide +revert
theorem shuf_ofCode (c : BitVec 3) (x : Shuf) : Shuf.ofCode c = some x ↔ c = x.code := by cases x <;> decide +revert
theorem alay_ofCode (c : BitVec 2) (x : ALay) : ALay.ofCode c = some x ↔ c = x.code := by cases x <;> decide +revert
theorem sparse_ofCode (c : BitVec 2) (x : Sparse) : Sparse.ofCode c = some x ↔ c = x.code := by cases x <;> decide +revert
theorem vkind_ofCode (c : BitVec 2) (x : VKind) : VKind.ofCode c = x ↔ c = x.code := by cases x <;> decide +revert
theorem mxOp_ofCode (c : BitVec 8) (x : MxOp) : MxOp.ofCode c = some x ↔ c = x.code := by cases x <;> decide +revert

theorem csr_ofCode (c : BitVec 12) (x : Csr) : Csr.ofCode c = some x ↔ c = x.code := by
  constructor
  · intro h
    unfold Csr.ofCode at h
    split at h <;> cases h <;> exact BitVec.eq_of_toNat_eq ‹_›
  · rintro rfl
    cases x with
    | lc n => decide +revert
    | _ => rfl

/-! ## The tests of the decoder -/

theorem need_bind {α : Type} (c : Bool) (y : Why) (f : Unit → Except Why α) (a : α) :
    (need c y >>= f) = .ok a ↔ c = true ∧ f () = .ok a := by
  cases c
  · exact ⟨nofun, nofun⟩
  · exact ⟨fun h => ⟨rfl, h⟩, And.right⟩

theorem field_bind {α β : Type} (o : Option α) (f : α → Except Why β) (b : β) :
    (field o >>= f) = .ok b ↔ ∃ a, o = some a ∧ f a = .ok b := by
  cases o
  · exact ⟨nofun, nofun⟩
  · exact ⟨fun h => ⟨_, rfl, h⟩, fun ⟨_, rfl, h⟩ => h⟩

/-- Whatever the decoder answers has the property. -/
def AllOk {α : Type} (e : Except Why α) (P : α → Prop) : Prop := ∀ a, e = .ok a → P a

section
variable {α β : Type} {P : α → Prop}

theorem allOk_ok (a : α) : AllOk (.ok a) P ↔ P a := ⟨fun h => h a rfl, fun h _ e => Except.ok.inj e ▸ h⟩

theorem allOk_pure (a : α) : AllOk (pure a) P ↔ P a := allOk_ok a

theorem allOk_error (y : Why) : AllOk (.error y) P ↔ True := ⟨fun _ => trivial, fun _ _ => nofun⟩

theorem ok_bind (b : β) (f : β → Except Why α) : (Except.ok b >>= f) = f b := rfl

theorem allOk_bind {e : Except Why β} {f : β → Except Why α} : AllOk (e >>= f) P ↔ AllOk e (fun b => AllOk (f b) P) := by
  cases e with
  | error y => exact ⟨fun _ _ => nofun, fun _ _ => nofun⟩
  | ok b => exact (allOk_ok (P := fun b => AllOk (f b) P) b).symm

theorem allOk_need (c : Bool) (y : Why) (f : Unit → Except Why α) :
    AllOk (need c y >>= f) P ↔ (c = true → AllOk (f ()) P) := by
  simp only [AllOk, need_bind, and_imp]
  exact forall_comm

theorem allOk_field (o : Option β) (f : β → Except Why α) :
    AllOk (field o >>= f) P ↔ ∀ b, o = some b → AllOk (f b) P := by
  simp only [AllOk, field_bind, forall_exists_index, and_imp]
  exact forall_comm.trans (forall_congr' fun _ => forall_comm)

end

/-! ## The formats of control words (R106) -/

section
variable {op : BitVec 6} {h : Hd} {w w2 : Word}

theorem caWord_eq_iff {d a b : BitVec 5} {fn : BitVec 7} : caWord op h d a b fn = w ↔
    w.extractLsb' 26 6 = op ∧ w.getLsbD 25 = h.pneg ∧ w.extractLsb' 22 3 = h.pred ∧ w.extractLsb' 17 5 = d ∧
      w.extractLsb' 12 5 = a ∧ w.extractLsb' 7 5 = b ∧ fn = w.extractLsb' 0 7 := by
  unfold caWord Hd.guardBits
  simp (disch := decide) only [append_eq_iff, extract_extract, eq_extract_comm, extract_one, Nat.reduceAdd, and_assoc]

theorem ciWord_eq_iff {d a : BitVec 5} {imm : BitVec 12} : ciWord op h d a imm = w ↔
    w.extractLsb' 26 6 = op ∧ w.getLsbD 25 = h.pneg ∧ w.extractLsb' 22 3 = h.pred ∧ w.extractLsb' 17 5 = d ∧
      w.extractLsb' 12 5 = a ∧ imm = w.extractLsb' 0 12 := by
  unfold ciWord Hd.guardBits
  simp (disch := decide) only [append_eq_iff, extract_extract, eq_extract_comm, extract_one, Nat.reduceAdd, and_assoc]

theorem cxWord_eq_iff {body : BitVec 22} : cxWord op h body = w ↔
    w.extractLsb' 26 6 = op ∧ w.getLsbD 25 = h.pneg ∧ w.extractLsb' 22 3 = h.pred ∧ body = w.extractLsb' 0 22 := by
  unfold cxWord Hd.guardBits
  simp (disch := decide) only [append_eq_iff, extract_extract, eq_extract_comm, extract_one, Nat.reduceAdd, and_assoc]

/-- The two words of format CD, by the memory fields that they hold. -/
theorem cdWords_eq_iff {m : MemF} {fn : BitVec 5} : cdWord op h m fn = w ∧ cdWord2 m = w2 ↔
    w.extractLsb' 26 6 = op ∧ w.getLsbD 25 = h.pneg ∧ w.extractLsb' 22 3 = h.pred ∧ fn = w.extractLsb' 0 5 ∧
      memFields w w2 = .ok m := by
  unfold cdWord cdWord2 Hd.guardBits memFields
  simp only [need_bind, field_bind, scope_ofCode, tier_ofCode, beq_iff_eq, pure, Except.pure, Except.ok.injEq]
  simp (disch := decide) only [append_eq_iff, extract_extract, eq_extract_comm, extract_one, Nat.reduceAdd, and_assoc]
  obtain ⟨reg, base, size, scope, ord, acq, rel, off, tier, loc⟩ := m
  simp only [MemF.mk.injEq, size_ofCode, existsAndEq, true_and]
  exact Iff.of_eq (by ac_rfl)

end

/-! ## What the decoder of control words answers -/

/-- The header that the decoder reads for a control word. -/
def controlHead (wide : Bool) (wait sig : BitVec 8) (w : Word) : Hd :=
  { wide := wide, pneg := w.getLsbD 25, pred := w.extractLsb' 22 3, wait := wait, sig := sig }

/-- The instruction has the header `h` and is written as the word `w`, followed by `v` in the two-word formats. -/
def Written (h : Hd) (w : Word) (v : Option Word) (i : Instr) : Prop :=
  encodeControl i = some (w, v) ∧ i.header = some h

section
variable {wide : Bool} {wait sig : BitVec 8} {w w2 : Word}

theorem decodeAlu_written (ho : w.extractLsb' 26 6 = 1) :
    AllOk (decodeAlu (controlHead wide wait sig w) w) (Written (controlHead wide wait sig w) w none) := by
  unfold decodeAlu
  split
  case h_27 => exact (allOk_error _).2 trivial
  all_goals
    rename_i hf
    simp only [allOk_ok, allOk_need, allOk_pure, beq_iff_eq]
    intros
    simp only [Written, encodeControl, Instr.header, Option.some.injEq, Prod.mk.injEq, caWord_eq_iff, controlHead,
      eq_of_toNat hf, BitVec.ofNat_eq_ofNat, and_true, *]

theorem decodeSeq_written (ho : w.extractLsb' 26 6 = 0x3E) :
    AllOk (decodeSeq (controlHead wide wait sig w) w) (Written (controlHead wide wait sig w) w none) := by
  unfold decodeSeq
  split
  case h_13 => exact (allOk_error _).2 trivial
  all_goals
    rename_i hf
    simp only [allOk_need, allOk_pure, beq_iff_eq]
    intros
    simp (disch := decide) only [Written, encodeControl, Instr.header, Option.some.injEq, Prod.mk.injEq, seqWord,
      cxWord_eq_iff, controlHead, append_eq_iff, extract_extract, Nat.reduceAdd, eq_of_toNat hf, BitVec.ofNat_eq_ofNat,
      and_true, *]

theorem decodeCx_written {op : Nat} (ho : (w.extractLsb' 26 6).toNat = op) :
    AllOk (decodeCx op (controlHead wide wait sig w) w) (Written (controlHead wide wait sig w) w none) := by
  unfold decodeCx
  split
  case h_28 => exact (allOk_error _).2 trivial
  all_goals
    simp only [allOk_need, allOk_pure, allOk_field, beq_iff_eq, barOp_ofCode, csr_ofCode, tlbKind_ofCode, hintKind_ofCode,
      scope_ofCode]
    intros
    simp (disch := decide) only [Written, encodeControl, Instr.header, Option.some.injEq, Prod.mk.injEq, cxWord_eq_iff,
      controlHead, append_eq_iff, extract_extract, extract_one, eq_extract_comm, Nat.reduceAdd, eq_of_toNat ho,
      BitVec.ofNat_eq_ofNat, and_true, *]

theorem decodeCd_written {op : Nat} (ho : (w.extractLsb' 26 6).toNat = op) :
    AllOk (decodeCd op (controlHead wide wait sig w) w w2) (Written (controlHead wide wait sig w) w (some w2)) := by
  refine allOk_bind.2 fun m hm => ?_
  split
  case h_11 => exact (allOk_error _).2 trivial
  all_goals
    simp only [allOk_need, allOk_pure, allOk_field, beq_iff_eq, amoOp_ofCode, wcond_ofCode, fmt_ofCode]
    intros
    simp (disch := decide) only [Written, encodeControl, Instr.header, Option.some.injEq, Prod.mk.injEq, cdWords_eq_iff,
      controlHead, append_eq_iff, extract_extract, extract_one, eq_extract_comm, Nat.reduceAdd, eq_of_toNat ho,
      BitVec.ofNat_eq_ofNat, and_self, *]

/-- How an instruction that the decoder answers is written: as the word, and the next one if it has two. -/
def WrittenIn (wide : Bool) (wait sig : BitVec 8) (w w2 : Word) (i : Instr) : Prop :=
  ∃ h v, h.wide = wide ∧ h.wait = wait ∧ h.sig = sig ∧ Written h w v i ∧ ∀ x ∈ v, x = w2

theorem allOk_writtenIn_one {e : Except Why Instr} (h : AllOk e (Written (controlHead wide wait sig w) w none)) :
    AllOk e (WrittenIn wide wait sig w w2) :=
  fun i hi => ⟨_, _, rfl, rfl, rfl, h i hi, nofun⟩

theorem allOk_writtenIn_two {e : Except Why Instr} (h : AllOk e (Written (controlHead wide wait sig w) w (some w2))) :
    AllOk e (WrittenIn wide wait sig w w2) :=
  fun i hi => ⟨_, _, rfl, rfl, rfl, h i hi, fun _ hx => (Option.some.inj hx).symm⟩

/-- The bits are no others: what decodes is written as it was read. -/
theorem decodeControl_writtenIn : AllOk (decodeControl wide wait sig w w2) (WrittenIn wide wait sig w w2) := by
  unfold decodeControl
  dsimp only
  split <;> rename_i ho
  case h_1 => exact allOk_writtenIn_one (decodeAlu_written (eq_of_toNat ho))
  case h_20 => exact allOk_writtenIn_one (decodeSeq_written (eq_of_toNat ho))
  case h_21 =>
    split
    · exact allOk_writtenIn_two (decodeCd_written rfl)
    · exact allOk_writtenIn_one (decodeCx_written rfl)
  case h_16 =>
    refine (allOk_ok _).2 ⟨_, none, rfl, rfl, rfl, ⟨?_, rfl⟩, nofun⟩
    simp only [encodeControl, Option.some.injEq, Prod.mk.injEq, append_eq_iff, eq_of_toNat ho, and_self]
  case h_19 =>
    refine allOk_writtenIn_two ((allOk_need _ _ _).2 fun hz => (allOk_pure _).2 ⟨?_, rfl⟩)
    simp only [Bool.and_eq_true, beq_iff_eq] at hz
    simp (disch := decide) only [encodeControl, Option.some.injEq, Prod.mk.injEq, cxWord_eq_iff, append_eq_iff,
      extract_extract, Nat.reduceAdd, eq_of_toNat ho, BitVec.ofNat_eq_ofNat, hz, and_self]
  all_goals
    apply allOk_writtenIn_one
    simp only [allOk_ok, allOk_need, allOk_pure, allOk_field, beq_iff_eq, cc_ofCode]
    intros
    simp (disch := decide) only [Written, encodeControl, Instr.header, Option.some.injEq, Prod.mk.injEq, cxWord_eq_iff,
      caWord_eq_iff, ciWord_eq_iff, controlHead, append_eq_iff, extract_extract, Nat.reduceAdd,
      eq_of_toNat ho, BitVec.ofNat_eq_ofNat, and_self, *]

end

theorem len_of_encodeControl {i : Instr} {w : Word} {v : Option Word} (he : encodeControl i = some (w, v)) :
    i.len = if v.isSome then 2 else 1 := by
  cases i <;> cases he <;> rfl

/-- The decoder reads what is written. -/
theorem decodeControl_of_written {i : Instr} {h : Hd} {w w2 : Word} {v : Option Word} (hi : Written h w v i)
    (hv : ∀ x ∈ v, x = w2) (hj : ∀ d, i = .jmp h d → h.plain = true) :
    decodeControl h.wide h.wait h.sig w w2 = .ok i := by
  obtain ⟨he, hh⟩ := hi
  cases i <;> cases hh
  case add | sub | mul | mulh | mulhn | div | divn | mod | modn | and | or | xor | not | shl | shr | sra | min | minn | max
      | maxn | clz | popc | mov | addp | subp | madp =>
    simp only [encodeControl, Option.some.injEq, Prod.mk.injEq, caWord_eq_iff, eq_extract_comm] at he
    simp only [decodeControl, decodeAlu, he, BitVec.reduceToNat, BitVec.ofNat_eq_ofNat, need_bind, beq_self_eq_true,
      true_and, pure, Except.pure]
  case nop | halt | fork | join | drain | lege | abend | ocmt | oabt | eret | plsw | dbrk =>
    simp (disch := decide) only [encodeControl, Option.some.injEq, Prod.mk.injEq, seqWord, cxWord_eq_iff, append_eq_iff,
      extract_extract, eq_extract_comm, Nat.reduceAdd] at he
    simp only [decodeControl, decodeSeq, he, BitVec.reduceToNat, BitVec.ofNat_eq_ofNat, need_bind, beq_self_eq_true,
      true_and, pure, Except.pure]
  case bra | ret | lexit | sig | wait | semi | semr | cset | cwait | mark | lnch | lstat | trap | otsk | abop | ctbl | plld
      | wcha | wchd | ctxs | ctxl =>
    simp (disch := decide) only [encodeControl, Option.some.injEq, Prod.mk.injEq, cxWord_eq_iff, append_eq_iff,
      extract_extract, extract_one, eq_extract_comm, Nat.reduceAdd] at he
    simp only [decodeControl, decodeCx, he, BitVec.reduceToNat, BitVec.ofNat_eq_ofNat, Nat.reduceLeDiff, false_and, and_false,
      if_false, need_bind, beq_self_eq_true, true_and, pure, Except.pure]
  case bars | fence | csrr | csrw | tlbi | hint =>
    simp (disch := decide) only [encodeControl, Option.some.injEq, Prod.mk.injEq, cxWord_eq_iff, append_eq_iff,
      extract_extract, extract_one, eq_extract_comm, Nat.reduceAdd] at he
    simp only [decodeControl, decodeCx, he, BitVec.reduceToNat, BitVec.ofNat_eq_ofNat, Nat.reduceLeDiff, and_false,
      if_false, need_bind, field_bind, barOp_ofCode, csr_ofCode, scope_ofCode, tlbKind_ofCode, hintKind_ofCode,
      beq_self_eq_true, true_and, pure, Except.pure]
    exact ⟨_, rfl, rfl⟩
  case ld | st | ldp | stp | amoc =>
    obtain ⟨hw, rfl⟩ := Prod.mk.inj (Option.some.inj he)
    have fields := cdWords_eq_iff.1 ⟨hw, hv _ rfl⟩
    simp (disch := decide) only [append_eq_iff, extract_extract, extract_one, eq_extract_comm, Nat.reduceAdd] at fields
    simp only [decodeControl, decodeCd, fields, ok_bind, BitVec.reduceToNat, BitVec.ofNat_eq_ofNat, Nat.reduceLeDiff,
      and_self, if_true, need_bind, beq_self_eq_true, pure, Except.pure]
  case amo | red | redf | redo | waitm =>
    obtain ⟨hw, rfl⟩ := Prod.mk.inj (Option.some.inj he)
    have fields := cdWords_eq_iff.1 ⟨hw, hv _ rfl⟩
    simp (disch := decide) only [append_eq_iff, extract_extract, extract_one, eq_extract_comm, Nat.reduceAdd] at fields
    simp only [decodeControl, decodeCd, fields, ok_bind, BitVec.reduceToNat, BitVec.ofNat_eq_ofNat, Nat.reduceLeDiff,
      and_self, if_true, need_bind, field_bind, amoOp_ofCode, fmt_ofCode, wcond_ofCode, beq_self_eq_true, true_and, pure,
      Except.pure]
    exact ⟨_, rfl, rfl⟩
  case lbrd =>
    obtain ⟨hw, rfl⟩ := Prod.mk.inj (Option.some.inj he)
    have hw2 := hv _ rfl
    simp (disch := decide) only [cxWord_eq_iff, append_eq_iff, extract_extract, eq_extract_comm, Nat.reduceAdd] at hw hw2
    simp only [decodeControl, hw, hw2, BitVec.reduceToNat, BitVec.ofNat_eq_ofNat, need_bind, beq_self_eq_true,
      Bool.and_self, true_and, pure, Except.pure]
  case jmp d =>
    have plain := hj d rfl
    simp only [Hd.plain, Bool.and_eq_true, Bool.not_eq_true', beq_iff_eq] at plain
    simp only [encodeControl, Option.some.injEq, Prod.mk.injEq, append_eq_iff, eq_extract_comm] at he
    simp only [decodeControl, he, BitVec.reduceToNat, ← plain]
  case addi | subi | andi | ori | xori | shli | shri | srai =>
    simp (disch := decide) only [encodeControl, Option.some.injEq, Prod.mk.injEq, ciWord_eq_iff, append_eq_iff,
      extract_extract, eq_extract_comm, Nat.reduceAdd] at he
    simp only [decodeControl, he, BitVec.reduceToNat, BitVec.ofNat_eq_ofNat, need_bind, beq_self_eq_true, true_and, pure,
      Except.pure]
  case movi | movh | br | call | loop =>
    simp (disch := decide) only [encodeControl, Option.some.injEq, Prod.mk.injEq, cxWord_eq_iff, append_eq_iff,
      extract_extract, eq_extract_comm, Nat.reduceAdd] at he
    simp only [decodeControl, he, BitVec.reduceToNat, BitVec.ofNat_eq_ofNat, need_bind, beq_self_eq_true, true_and, pure,
      Except.pure]
  case cmp | cmpi =>
    simp (disch := decide) only [encodeControl, Option.some.injEq, Prod.mk.injEq, cxWord_eq_iff, append_eq_iff,
      extract_extract, eq_extract_comm, Nat.reduceAdd] at he
    simp only [decodeControl, he, BitVec.reduceToNat, BitVec.ofNat_eq_ofNat, need_bind, field_bind, cc_ofCode,
      beq_self_eq_true, true_and, pure, Except.pure]
    exact ⟨_, rfl, rfl⟩
  case sel =>
    simp (disch := decide) only [encodeControl, Option.some.injEq, Prod.mk.injEq, caWord_eq_iff, append_eq_iff,
      extract_extract, eq_extract_comm, Nat.reduceAdd] at he
    simp only [decodeControl, he, BitVec.reduceToNat, BitVec.ofNat_eq_ofNat, need_bind, beq_self_eq_true, true_and, pure,
      Except.pure]
  all_goals cases he

end Sys2Proof.Formats
end

section
/-!
The units of an instruction memory in its bytes, and the round trip of the control words (R132).
-/
namespace Sys2Proof.Formats
open Sys2Proof

/-! ## Units and their bytes -/

theorem natOfBytes_bytesOfNat (n v : Nat) : natOfBytes (bytesOfNat n v) = v % 256 ^ n := by
  induction n generalizing v with
  | zero => exact (Nat.mod_one v).symm
  | succ n ih =>
    have low : (BitVec.ofNat 8 v).toNat = v % 256 := BitVec.toNat_ofNat v 8
    rw [bytesOfNat, natOfBytes, ih, low, Nat.pow_succ', Nat.mod_mul]

theorem bytesOfNat_natOfBytes (bs : List Byte) : bytesOfNat bs.length (natOfBytes bs) = bs := by
  induction bs with
  | nil => rfl
  | cons b bs ih =>
    have low : BitVec.ofNat 8 (b.toNat + 256 * natOfBytes bs) = b :=
      BitVec.eq_of_toNat_eq (by rw [BitVec.toNat_ofNat, Nat.add_mul_mod_self_left, Nat.mod_eq_of_lt b.isLt])
    have high : (b.toNat + 256 * natOfBytes bs) / 256 = natOfBytes bs := by have := b.isLt; omega
    rw [List.length_cons, natOfBytes, bytesOfNat, low, high, ih]

/-- The bytes of a list of units. -/
def unitBytes (u : Nat) {k : Nat} (xs : List (BitVec k)) : List Byte := xs.flatMap fun x => bytesOfNat u x.toNat

section
variable {u k : Nat} (hk : k = 8 * u)
include hk

theorem wordOfBytes_bytes (x : BitVec k) : wordOfBytes k (bytesOfNat u x.toNat) = x := by
  refine BitVec.eq_of_toNat_eq ?_
  have : 256 ^ u = 2 ^ k := by rw [hk, Nat.pow_mul]
  rw [wordOfBytes, BitVec.toNat_ofNat, natOfBytes_bytesOfNat, this, Nat.mod_mod, Nat.mod_eq_of_lt x.isLt]

theorem bytes_wordOfBytes {bs : List Byte} (h : bs.length = u) : bytesOfNat u (wordOfBytes k bs).toNat = bs := by
  subst hk
  rw [wordOfBytes, BitVec.toNat_ofNat, CoreMem.bytesOfNat_mod, ← h, bytesOfNat_natOfBytes]

/-- The first unit of bytes that begin with a unit, and the later ones. -/
theorem unitAt_zero (x : BitVec k) (bs : List Byte) : unitAt u k 0 (bytesOfNat u x.toNat ++ bs) = some x := by
  have front : ((bytesOfNat u x.toNat ++ bs).drop (u * 0)).take u = bytesOfNat u x.toNat := by
    rw [Nat.mul_zero, List.drop_zero, List.take_left' (CoreMem.length_bytesOfNat _ _)]
  rw [unitAt, front, if_pos (CoreMem.length_bytesOfNat _ _), wordOfBytes_bytes hk]

theorem bytes_of_unitAt {bs : List Byte} {x : BitVec k} (h : unitAt u k 0 bs = some x) :
    bytesOfNat u x.toNat = bs.take u := by
  simp only [unitAt, Nat.mul_zero, List.drop_zero] at h
  split at h
  · next hl => rw [← Option.some.inj h, bytes_wordOfBytes hk hl]
  · cases h
end

theorem unitAt_succ (u k j : Nat) (bs : List Byte) : unitAt u k (j + 1) bs = unitAt u k j (bs.drop u) := by
  rw [unitAt, unitAt, List.drop_drop, Nat.mul_succ, Nat.add_comm]

section
variable {u k : Nat} (hk : k = 8 * u)

theorem length_unitBytes (xs : List (BitVec k)) : (unitBytes u xs).length = u * xs.length := by
  induction xs with
  | nil => rfl
  | cons x xs ih =>
    rw [unitBytes, List.flatMap_cons, List.length_append, CoreMem.length_bytesOfNat, ← unitBytes, ih, List.length_cons,
      Nat.mul_succ, Nat.add_comm]

include hk

/-- Units that stand first in the bytes are read as they were written. -/
theorem unitAt_unitBytes (xs : List (BitVec k)) (rest : List Byte) {j : Nat} (hj : j < xs.length) :
    unitAt u k j (unitBytes u xs ++ rest) = some xs[j] := by
  induction xs generalizing j with
  | nil => cases hj
  | cons x xs ih =>
    rw [unitBytes, List.flatMap_cons, List.append_assoc, ← unitBytes]
    cases j with
    | zero => exact unitAt_zero hk x _
    | succ j =>
      rw [unitAt_succ, List.drop_left' (CoreMem.length_bytesOfNat _ _)]
      exact ih (Nat.lt_of_succ_lt_succ hj)

/-- The bytes of the units that are read are the bytes that they are read from. -/
theorem unitBytes_of_unitAt (xs : List (BitVec k)) (bs : List Byte)
    (h : ∀ j (hj : j < xs.length), unitAt u k j bs = some xs[j]) : unitBytes u xs = bs.take (u * xs.length) := by
  induction xs generalizing bs with
  | nil => rfl
  | cons x xs ih =>
    have tail := ih (bs.drop u) fun j hj => by
      rw [← unitAt_succ]
      exact h (j + 1) (Nat.succ_lt_succ hj)
    have head : bytesOfNat u x.toNat = bs.take u := bytes_of_unitAt hk (h 0 (Nat.succ_pos _))
    rw [unitBytes, List.flatMap_cons, ← unitBytes, tail, head, ← List.take_add, List.length_cons, Nat.mul_succ, Nat.add_comm]

end

/-! ## The words that a sequencer accepts -/

/-- The kind of header that a word of sequencer `q` has: narrow in a control word, wide in a word of a stream. -/
def headFits (q : Sq) (h : Hd) : Bool := if q = .ctl then h.narrow else h.wide

/-- A word with header `h` is a control word, embedded in a slot if the sequencer reads a stream, or it is of a stream alone. -/
def View (q : Sq) (i : Instr) (h : Hd) : Prop :=
  headFits q h = true ∧ ((∃ w v, encodeControl i = some (w, v) ∧
    (q ≠ .ctl → v = none ∧ encode q i = slotBytes (seqSlot h w))) ∨ (q ≠ .ctl ∧ encodeControl i = none))

section
variable {h : Hd} {q : Sq} {i : Instr} {w : Word} {v : Option Word}

theorem view_of_ctlOnly (he : encodeControl i = some (w, v)) (hq : h.ctlOnly q = true) : View q i h := by
  simp only [Hd.ctlOnly, Bool.and_eq_true, beq_iff_eq] at hq
  obtain ⟨rfl, hn⟩ := hq
  exact ⟨hn, .inl ⟨w, v, he, fun hq => absurd rfl hq⟩⟩

theorem view_of_guarded (he : encodeControl i = some (w, none)) (hs : encode .load i = slotBytes (seqSlot h w))
    (hq : h.guarded q = true) : View q i h := by
  have stream : ∀ p, p ≠ .ctl → encode p i = encode .load i := fun p hp => by
    unfold encode
    rw [he]
    cases p
    · exact absurd rfl hp
    all_goals rfl
  refine ⟨?_, .inl ⟨w, none, he, fun hp => ⟨rfl, (stream q hp).trans hs⟩⟩⟩
  cases q <;> exact hq

theorem view_of_any (he : encodeControl i = some (w, none)) (hs : encode .load i = slotBytes (seqSlot h w))
    (hq : h.any q = true) : View q i h := by
  refine view_of_guarded he hs ?_
  cases q
  · exact hq
  all_goals exact ((Bool.and_eq_true _ _).mp hq).1

theorem view_of_copy (he : encodeControl i = none) (hq : h.copy q = true) : View q i h := by
  simp only [Hd.copy, Bool.and_eq_true] at hq
  obtain ⟨⟨hq, hwide⟩, -⟩ := hq
  have stream : q ≠ .ctl := by rintro rfl; cases hq
  exact ⟨by rw [headFits, if_neg stream, hwide], .inr ⟨stream, he⟩⟩

theorem view_of_vector (he : encodeControl i = none) (hq : h.vector q = true) : View q i h := by
  simp only [Hd.vector, Bool.and_eq_true, beq_iff_eq] at hq
  obtain ⟨rfl, hwide⟩ := hq
  exact ⟨hwide, .inr ⟨nofun, he⟩⟩

theorem view_of_matrix (he : encodeControl i = none) (hq : h.matrix q = true) : View q i h :=
  view_of_vector he ((Bool.and_eq_true _ _).mp hq).1

end

theorem view_of_wf {q : Sq} {i : Instr} {idx : Nat} (hw : i.wf q idx = true) :
    ∃ h, i.header = some h ∧ View q i h := by
  cases i <;> simp only [Instr.wf, Bool.and_eq_true, Bool.and_false, Bool.false_eq_true, and_assoc] at hw
  case abend | drain | lege | oabt | ocmt | eret | bars | ctbl | fence | hint | lnch | lstat | mark | otsk | plld |
      semi | semr | tlbi | trap | wcha | wchd =>
    exact ⟨_, rfl, view_of_ctlOnly rfl hw.2⟩
  case fork | plsw | abop | lbrd | ld | st | ldp | stp | amo | amoc | red | redf | redo | waitm | ctxl | ctxs =>
    exact ⟨_, rfl, view_of_ctlOnly rfl hw.2.1⟩
  case join | addp | subp | madp | jmp | loop | cset | sig | wait =>
    exact ⟨_, rfl, view_of_any rfl rfl hw.2.1⟩
  case nop | halt | dbrk | add | and | div | divn | max | maxn | min | minn | mod | modn | mul | mulh | mulhn | or |
      shl | shr | sra | sub | xor | addi | andi | ori | subi | xori | shli | shri | srai | clz | mov | not | popc |
      movh | movi | sel | cmp | cmpi | lexit | csrr | csrw | cwait =>
    exact ⟨_, rfl, view_of_any rfl rfl hw.2⟩
  case br | call =>
    exact ⟨_, rfl, view_of_guarded rfl rfl hw.2.1⟩
  case bra | ret =>
    exact ⟨_, rfl, view_of_guarded rfl rfl hw.2⟩
  case cpy | dup | gthr | sctr | xfer | canf | canr | zfil | sstr | spf | migr | rqnt =>
    exact ⟨_, rfl, view_of_copy rfl hw.2.1⟩
  case mma | mmas | mmab | mmts | sca | nrm | aclr | acvt | ald | ast | setx =>
    exact ⟨_, rfl, view_of_matrix rfl hw.2.1⟩
  case vadd | vsub | vmul | vfma | vfms | vmin | vmax | vclmp | vabs | vneg | vcmp | vsel | vand | vor | vxor | vnot
      | vshl | vshr | vsra | vcvt | vdqn | vqnt | vexp2 | vlog2 | vrcp | vrsq | vsum | vrmx | vperm | vshuf | vsld |
      vbcst | vmov | vgth | vsct | vmsk | vcnt | vidx | vchk | vscl | rngb =>
    exact ⟨_, rfl, view_of_vector rfl hw.2.1⟩

theorem plain_of_wf_jmp {q : Sq} {idx : Nat} {h : Hd} {d : BitVec 26} (hw : (Instr.jmp h d).wf q idx = true) :
    h.plain = true := by
  simp only [Instr.wf, Bool.and_eq_true] at hw
  exact hw.2.1.2

/-! ## Round trip of the control words -/

theorem encode_ctl {i : Instr} {w : Word} {v : Option Word} (he : encodeControl i = some (w, v)) :
    encode .ctl i = unitBytes 4 (w :: v.toList) := by
  rw [encode, he]
  cases v <;> simp [unitBytes, wordBytes]

theorem length_of_encodeControl {i : Instr} {w : Word} {v : Option Word} (he : encodeControl i = some (w, v)) :
    (w :: v.toList).length = i.len := by
  rw [len_of_encodeControl he]
  cases v <;> rfl

theorem eq_of_checkWf {q : Sq} {idx n : Nat} {head : Word} {i j : Instr} (h : checkWf q idx head i = .ok (j, n)) :
    i = j ∧ n = j.len := by
  unfold checkWf at h
  split at h
  · cases h
    exact ⟨rfl, rfl⟩
  · cases h

/-- A word that the control sequencer accepts is written as one word or two, and reads as itself. -/
theorem decode_encode_ctl {idx : Nat} {i : Instr} (rest : List Byte) (hw : i.wf .ctl idx = true) :
    (encode .ctl i).length = 4 * i.len ∧ decode .ctl idx (encode .ctl i ++ rest) = .ok (i, i.len) := by
  obtain ⟨h, hh, hn, ⟨w, v, he, -⟩ | ⟨hq, -⟩⟩ := view_of_wf hw
  case inr => exact absurd rfl hq
  have hl := length_of_encodeControl he
  refine ⟨by rw [encode_ctl he, length_unitBytes, hl], ?_⟩
  have first : unitAt 4 32 0 (encode .ctl i ++ rest) = some w := by
    rw [encode_ctl he]
    exact unitAt_unitBytes (u := 4) rfl (w :: v.toList) rest (Nat.succ_pos _)
  have second : ∀ x ∈ v, unitAt 4 32 1 (encode .ctl i ++ rest) = some x := by
    rintro x rfl
    rw [encode_ctl he]
    exact unitAt_unitBytes (u := 4) rfl [w, x] rest (j := 1) Nat.one_lt_two
  have reads : decodeControl false 0xFF 0xFF w ((unitAt 4 32 1 (encode .ctl i ++ rest)).getD 0) = .ok i := by
    have := decodeControl_of_written (w2 := (unitAt 4 32 1 (encode .ctl i ++ rest)).getD 0) ⟨he, hh⟩
      (fun x hx => by rw [second x hx]; rfl) (by rintro d rfl; exact plain_of_wf_jmp hw)
    simp only [headFits, if_true, Hd.narrow, Bool.and_eq_true, Bool.not_eq_true', beq_iff_eq] at hn
    obtain ⟨⟨hwide, hwait⟩, hsig⟩ := hn
    rwa [hwide, hwait, hsig] at this
  have whole : ¬ (i.len = 2 ∧ (unitAt 4 32 1 (encode .ctl i ++ rest)).isNone = true) := by
    rintro ⟨h2, hnone⟩
    cases v with
    | none => rw [← hl] at h2; cases h2
    | some x => rw [second x rfl] at hnone; cases hnone
  simp only [decode, first, reads, if_neg whole, checkWf, hw, if_true]

/-- What the control sequencer reads as an instruction is written as the bytes that it read. -/
theorem encode_of_decode_ctl {idx n : Nat} {bs : List Byte} {i : Instr} (h : decode .ctl idx bs = .ok (i, n)) :
    n = i.len ∧ i.wf .ctl idx = true ∧ encode .ctl i = bs.take (4 * n) := by
  have hw := CoreTurns.decode_wf h
  simp only [decode] at h
  split at h
  · cases h
  next w first =>
  split at h
  · cases h
  next j reads =>
  split at h
  · cases h
  next whole =>
  obtain ⟨rfl, rfl⟩ := eq_of_checkWf h
  refine ⟨rfl, hw, ?_⟩
  obtain ⟨h, v, -, -, -, ⟨he, -⟩, hv⟩ := decodeControl_writtenIn _ reads
  rw [encode_ctl he, ← length_of_encodeControl he]
  refine unitBytes_of_unitAt (u := 4) rfl (w :: v.toList) bs fun j hj => ?_
  cases j with
  | zero => exact first
  | succ j =>
    cases v with
    | none => exact absurd hj (by simp)
    | some x =>
      obtain rfl : j = 0 := by simpa using hj
      obtain ⟨y, hy⟩ := Option.ne_none_iff_exists'.1 fun hn =>
        whole ⟨len_of_encodeControl he, Option.isNone_iff_eq_none.2 hn⟩
      rw [hv x rfl, hy]
      rfl

/-- Settles O53: the decoder of the control words answers an instruction exactly where its fields stand in the word
(`decodeControl_of_written`, `decodeControl_writtenIn`); the bytes hold the words. -/
theorem controlWordsRoundTrip : Obligations.ControlWordsRoundTrip :=
  ⟨fun _ _ rest hw => decode_encode_ctl rest hw, fun _ _ _ _ h => encode_of_decode_ctl h⟩

end Sys2Proof.Formats
end

section
/-!
The 96-bit and 192-bit words of the streams: their formats by fields, and what the decoder answers for each of them.
-/
namespace Sys2Proof.Formats
open Sys2Proof

/-! ## Vector operands (R120) -/

theorem vop_ofCode (c : BitVec 20) (x : VOp) : VOp.ofCode c = x ↔ c = x.code := by
  rw [eq_comm (a := c)]
  have top : ∀ b, BitVec.ofBool b = c.extractLsb' 19 1 ↔ c.getLsbD 19 = b := fun b => by rw [eq_extract_comm, extract_one]
  have zero : 0#1 = c.extractLsb' 19 1 ↔ c.getLsbD 19 = false := top false
  have one : 1#1 = c.extractLsb' 19 1 ↔ c.getLsbD 19 = true := top true
  cases hc : c.getLsbD 19 <;> cases x
  all_goals
    simp (disch := decide) only [VOp.code, VOp.ofCode, hc, append_eq_iff, extract_extract, Nat.reduceAdd, zero, one, if_true,
      if_false, Bool.false_eq_true, VOp.reg.injEq, VOp.stream.injEq, vkind_ofCode, eq_extract_comm, reduceCtorEq, and_assoc,
      true_and, false_and]

/-! ## Matrix words (R125 to R127) -/

theorem extract_append_hi {m n s l : Nat} (x : BitVec m) (y : BitVec n) (h : n ≤ s) :
    (@HAppend.hAppend _ _ (no_index (BitVec (m + n))) _ x y).extractLsb' s l = x.extractLsb' (s - n) l :=
  BitVec.extractLsb'_append_eq_of_le h

theorem extract_append_lo {m n s l : Nat} (x : BitVec m) (y : BitVec n) (h : s + l ≤ n) :
    (@HAppend.hAppend _ _ (no_index (BitVec (m + n))) _ x y).extractLsb' s l = y.extractLsb' s l :=
  BitVec.extractLsb'_append_eq_of_add_le h

theorem getLsbD_append_hi {m n s : Nat} (x : BitVec m) (y : BitVec n) (h : n ≤ s) :
    (@HAppend.hAppend _ _ (no_index (BitVec (m + n))) _ x y).getLsbD s = x.getLsbD (s - n) := by
  rw [BitVec.getLsbD_append, if_neg (Nat.not_lt.2 h)]

/-- The reserved field that lies across the two slots. -/
theorem extract_append_mid (lo up : BitVec 96) :
    (lo ++ up).extractLsb' 88 10 = 0#10 ↔ lo.extractLsb' 0 2 = 0#2 ∧ up.extractLsb' 88 8 = 0#8 := by
  have split : (lo ++ up).extractLsb' 96 2 ++ (lo ++ up).extractLsb' 88 8 = (lo ++ up).extractLsb' 88 10 :=
    BitVec.extractLsb'_append_extractLsb'_eq_extractLsb' rfl
  rw [← split, extract_append_hi _ _ (by decide), extract_append_lo _ _ (by decide)]
  exact (append_eq_iff _ _ (0 : BitVec (2 + 8))).trans (by rfl)

theorem matrixSlots_eq_iff {m : Chained} {lo up : BitVec 96} :
    matrixSlots m.op m.wait m.sig m.f = (lo, up) ↔ decodeMatrix lo up = .ok m := by
  obtain ⟨op, wait, sig, f⟩ := m
  obtain ⟨af, bf, acc, redun, tstart, alay, ovw, xsel, adesc, aoff, bbase, ks, mdesc, sp, moff, bpb, rnd, imm⟩ := f
  simp (disch := decide) only [matrixSlots, Prod.mk.injEq, append_eq_iff, extract_extract, eq_extract_comm, extract_one,
    Nat.reduceAdd, and_assoc]
  unfold decodeMatrix matrixFields
  cases hop : MxOp.ofCode (lo.extractLsb' 88 8) with
  | none =>
    have : ¬ lo.extractLsb' 88 8 = op.code := by rw [← mxOp_ofCode, hop]; exact nofun
    simp [this]
  | some o =>
    have : lo.extractLsb' 88 8 = op.code ↔ o = op := by rw [← mxOp_ofCode, hop]; exact Option.some_inj
    simp (disch := decide) only [need_bind, field_bind, fmt_ofCode, alay_ofCode, sparse_ofCode, rnd_ofCode, pure, Except.pure,
      bind_assoc, Except.ok.injEq, ok_bind, Chained.mk.injEq, MxF.mk.injEq, Bool.and_eq_true, beq_iff_eq,
      extract_append_mid, extract_append_hi, extract_append_lo, getLsbD_append_hi, Nat.reduceSub, this, existsAndEq,
      true_and, BitVec.ofNat_eq_ofNat]
    exact Iff.of_eq (by ac_rfl)

theorem copySlot_eq_iff {op : BitVec 8} {h : Hd} {c : CopyF} {ts fs : BitVec 2} {s : BitVec 96} : copySlot op h c ts fs = s ↔
    s.extractLsb' 88 8 = op ∧ s.extractLsb' 86 2 = ts ∧ s.extractLsb' 84 2 = fs ∧ s.extractLsb' 76 8 = h.wait ∧
      s.extractLsb' 68 8 = h.sig ∧ s.getLsbD 0 = c.chain.isSome ∧
      copyFields s c.chain = .ok { c with tsp := .global, fsp := .global } := by
  obtain ⟨tsp, fsp, toP, toOff, fromP, fromOff, len, b6, acq, rel, scope, chain⟩ := c
  simp only [copyFields, field_bind, scope_ofCode, pure, Except.pure, Except.ok.injEq, CopyF.mk.injEq, existsAndEq, true_and,
    and_true]
  simp (disch := decide) only [copySlot, append_eq_iff, extract_extract, eq_extract_comm, extract_one, Nat.reduceAdd, and_assoc]
  exact Iff.of_eq (by ac_rfl)

theorem vectorSlot_eq_iff {op : BitVec 8} {h : Hd} {x : VecF} {r : BitVec 3} {s : BitVec 96} : vectorSlot op h x r = s ↔
    s.extractLsb' 88 8 = op ∧ s.extractLsb' 84 4 = x.ty.code ∧ s.extractLsb' 76 8 = h.wait ∧ s.extractLsb' 68 8 = h.sig ∧
      VOp.ofCode (s.extractLsb' 48 20) = x.d ∧ VOp.ofCode (s.extractLsb' 28 20) = x.a ∧
      VOp.ofCode (s.extractLsb' 8 20) = x.b ∧ s.extractLsb' 5 3 = h.pred ∧ s.getLsbD 4 = h.pneg ∧ s.getLsbD 3 = x.nw ∧
      r = s.extractLsb' 0 3 := by
  simp (disch := decide) only [vectorSlot, vop_ofCode, append_eq_iff, extract_extract, eq_extract_comm, extract_one,
    Nat.reduceAdd, and_assoc]

theorem seqSlot_eq_iff {h : Hd} {w : Word} {s : BitVec 96} : seqSlot h w = s ↔
    s.extractLsb' 88 8 = 1 ∧ s.extractLsb' 84 4 = 0 ∧ s.extractLsb' 76 8 = h.wait ∧ s.extractLsb' 68 8 = h.sig ∧
      s.extractLsb' 32 36 = 0 ∧ s.extractLsb' 0 32 = w := by
  simp (disch := decide) only [seqSlot, append_eq_iff, extract_extract, eq_extract_comm, Nat.reduceAdd, and_assoc,
    BitVec.ofNat_eq_ofNat]

/-! ## Copy words (R118, R123) -/

theorem bit_of_lt_two {x : BitVec 2} (h : x.toNat < 2) : 0#1 ++ BitVec.ofBool (x == 1) = x := by decide +revert

/-- A copy word without its chained word's fields. -/
def copyWord (s : BitVec 96) (ch : Option Chained) : Except Why Instr := do
  let c ← copyFields s ch
  copyInstr (s.extractLsb' 88 8).toNat (slotHead s) c (s.extractLsb' 86 2) (s.extractLsb' 84 2)

theorem copyInstr_written (op : Nat) (h : Hd) (c : CopyF) (ts fs : BitVec 2) : AllOk (copyInstr op h c ts fs)
    (fun i => encodeControl i = none ∧ encodeSlots i = copySlots (BitVec.ofNat 8 op) h c ts fs) := by
  unfold copyInstr
  dsimp only
  split
  case h_3 | h_4 =>
    simp only [allOk_need, allOk_field, allOk_pure, space_ofCode, decide_eq_true_eq]
    rintro hlt t rfl
    refine ⟨rfl, ?_⟩
    rw [encodeSlots, bit_of_lt_two hlt]
    rfl
  case h_13 => exact (allOk_error _).2 trivial
  all_goals
    simp only [allOk_field, allOk_pure, space_ofCode]
    rintro t rfl f rfl
    exact ⟨rfl, rfl⟩

/-- A copy word with another chained word. -/
def withChain (ch : Option Chained) : Instr → Instr
  | .cpy h c => .cpy h { c with chain := ch }
  | .dup h c => .dup h { c with chain := ch }
  | .gthr h c d => .gthr h { c with chain := ch } d
  | .sctr h c d => .sctr h { c with chain := ch } d
  | .xfer h c => .xfer h { c with chain := ch }
  | .canf h c => .canf h { c with chain := ch }
  | .canr h c => .canr h { c with chain := ch }
  | .zfil h c => .zfil h { c with chain := ch }
  | .sstr h c => .sstr h { c with chain := ch }
  | .spf h c => .spf h { c with chain := ch }
  | .migr h c => .migr h { c with chain := ch }
  | .rqnt h c => .rqnt h { c with chain := ch }
  | i => i

/-- The instruction is the copy word of the opcode and the fields, and reads so with any matrix word that rides with it. -/
def IsCopy (i : Instr) (op : BitVec 8) (h : Hd) (c : CopyF) (ts fs : BitVec 2) : Prop :=
  (0x10 ≤ op.toNat ∧ op.toNat ≤ 0x1B) ∧ i.header = some h ∧ encodeSlots i = copySlots op h c ts fs ∧
    i.len = (if c.chain.isSome then 3 else 1) ∧ withChain c.chain i = i ∧
    ∀ ch, copyInstr op.toNat h { c with tsp := .global, fsp := .global, chain := ch } ts fs = .ok (withChain ch i)

/-- The matrix word that rides with the copy word `i` may do so (R100, R131). -/
def ChainFits (q : Sq) (idx : Nat) (i : Instr) (m : Chained) : Prop :=
  q = .load ∧ (withChain none i).chainable = true ∧ (withChain none i).wf q idx = true ∧ m.op.chains = true ∧
    m.op.wf m.f = true

/-- What the sequencer of a stream accepts as a copy word. -/
def CopyView (q : Sq) (idx : Nat) (i : Instr) : Prop :=
  ∃ op h c ts fs, IsCopy i op h c ts fs ∧ h.copy q = true ∧ ∀ m, c.chain = some m → ChainFits q idx i m

theorem fits_of_len_le {q : Sq} {idx : Nat} {i j : Instr} (hl : j.len ≤ i.len) (hf : i.fits q idx = true) :
    j.fits q idx = true := by
  simp only [Instr.fits, decide_eq_true_eq] at hf ⊢
  omega

theorem chainFits_of_wf {q : Sq} {idx : Nat} {i : Instr} {h : Hd} {c : CopyF} {m : Chained}
    (hi : i = .cpy h c ∨ i = .dup h c ∨ ∃ d, i = .gthr h c d) (hw : i.wf q idx = true) (hm : c.chain = some m) :
    ChainFits q idx i m := by
  obtain ⟨hfit, hrow⟩ := (Bool.and_eq_true _ _).mp hw
  have own : (withChain none i).fits q idx = true := fits_of_len_le (by
    obtain rfl | rfl | ⟨d, rfl⟩ := hi <;> simp only [withChain, Instr.len, hm, Option.isSome_some, Option.isSome_none,
      if_true, Bool.false_eq_true, if_false, Nat.reduceLeDiff]) hfit
  obtain rfl | rfl | ⟨d, rfl⟩ := hi
  case inr.inr =>
    simp only [CopyF.chain_ok, hm, Bool.and_eq_true, beq_iff_eq] at hrow
    obtain ⟨⟨⟨⟨⟨hq, hs⟩, ⟨hload, hch⟩, hmx⟩, hto⟩, hfrom⟩, hlen⟩ := hrow
    refine ⟨hload, rfl, (Bool.and_eq_true _ _).mpr ⟨own, ?_⟩, hch, hmx⟩
    simp only [withChain, CopyF.chain_ok, Bool.and_eq_true, beq_iff_eq]
    exact ⟨⟨⟨⟨⟨hq, hs⟩, trivial⟩, hto⟩, hfrom⟩, hlen⟩
  all_goals
    simp only [CopyF.chain_ok, hm, Bool.and_eq_true, beq_iff_eq] at hrow
    obtain ⟨⟨hq, hs⟩, ⟨hload, hch⟩, hmx⟩ := hrow
    refine ⟨hload, rfl, (Bool.and_eq_true _ _).mpr ⟨own, ?_⟩, hch, hmx⟩
    simp only [withChain, CopyF.chain_ok, Bool.and_eq_true]
    exact ⟨⟨hq, hs⟩, trivial⟩

/-! ## Vector words (R118, R124) -/

/-- The instruction is the vector word of the opcode and the fields, and reads so. -/
def IsVector (i : Instr) (op : BitVec 8) (h : Hd) (x : VecF) (r : BitVec 3) : Prop :=
  (0x40 ≤ op.toNat ∧ op.toNat ≤ 0x68) ∧ i.header = some h ∧ encodeSlots i = [vectorSlot op h x r] ∧
    i.len = 1 ∧ ∀ s, h.wide = true → vectorSlot op h x r = s → decodeVector s = .ok i

/-- The bits are no others: a vector word that decodes is written as it was read. -/
theorem decodeVector_written (s : BitVec 96) :
    AllOk (decodeVector s) (fun i => encodeControl i = none ∧ encodeSlots i = [s]) := by
  unfold decodeVector
  simp only [allOk_field, fmt_ofCode]
  intro ty hty
  split
  next ho =>
    simp only [allOk_field, allOk_pure, shuf_ofCode]
    intro p hp
    exact ⟨rfl, congrArg (fun a => [a]) (vectorSlot_eq_iff.2
      ⟨eq_of_toNat ho, hty, rfl, rfl, rfl, rfl, rfl, rfl, rfl, rfl, hp.symm⟩)⟩
  next =>
    simp only [allOk_field, rnd_ofCode]
    intro rnd hr
    split
    case h_41 => exact (allOk_error _).2 trivial
    all_goals
      rename_i ho
      exact (allOk_pure _).2 ⟨rfl, congrArg (fun a => [a]) (vectorSlot_eq_iff.2
        ⟨eq_of_toNat ho, hty, rfl, rfl, rfl, rfl, rfl, rfl, rfl, rfl, hr.symm⟩)⟩

/-! ## What the sequencer of a stream accepts -/

theorem stream_of_wf {q : Sq} {idx : Nat} {i : Instr} (hw : i.wf q idx = true) (he : encodeControl i = none) :
    CopyView q idx i ∨ (∃ op h f, encodeSlots i = matrixUnits op h f ∧ MxOp.instr op h f = i ∧ h.matrix q = true) ∨
      ∃ op h x r, IsVector i op h x r ∧ h.vector q = true := by
  have row := hw
  cases i <;> simp only [Instr.wf, Bool.and_eq_true, Bool.and_false, Bool.false_eq_true, and_assoc] at row
  case cpy h c | dup h c =>
    refine .inl ⟨_, h, c, _, _, ⟨?_, rfl, rfl, rfl, rfl, fun ch => ?_⟩, row.2.1,
      fun m hm => chainFits_of_wf (h := h) (c := c) (by simp only [true_or, or_true]) hw hm⟩
    · decide
    · simp only [copyInstr, BitVec.reduceToNat, field_bind, space_ofCode, pure, Except.pure]
      exact ⟨_, rfl, _, rfl, rfl⟩
  case gthr h c d =>
    have hfrom : c.fsp = .global := by simpa using row.2.2.2.2.2.1
    refine .inl ⟨_, h, c, _, _, ⟨?_, rfl, rfl, rfl, rfl, fun ch => ?_⟩, row.2.1,
      fun m hm => chainFits_of_wf (.inr (.inr ⟨d, rfl⟩)) hw hm⟩
    · decide
    · cases d <;> simp only [copyInstr, BitVec.reduceToNat, need_bind, field_bind, space_ofCode, pure, Except.pure, ← hfrom]
      all_goals exact ⟨rfl, _, rfl, rfl⟩
  case sctr h c d =>
    have hto : c.tsp = .global := by simpa using row.2.2.2.2.2.1
    have halone : c.alone = true := row.2.2.2.1
    refine .inl ⟨_, h, c, _, _, ⟨?_, rfl, rfl, ?_, rfl, fun ch => ?_⟩, row.2.1, fun m hm => ?_⟩
    · decide
    · rw [Option.isNone_iff_eq_none.1 halone]
      rfl
    · cases d <;> simp only [copyInstr, BitVec.reduceToNat, need_bind, field_bind, space_ofCode, pure, Except.pure, ← hto]
      all_goals exact ⟨rfl, _, rfl, rfl⟩
    · rw [CopyF.alone, hm] at halone
      cases halone
  case xfer h c | canf h c | canr h c | zfil h c | sstr h c | spf h c | migr h c | rqnt h c =>
    have halone : c.alone = true := by simp only [row]
    refine .inl ⟨_, h, c, _, _, ⟨?_, rfl, rfl, ?_, rfl, fun ch => ?_⟩, row.2.1, fun m hm => ?_⟩
    · decide
    · rw [Option.isNone_iff_eq_none.1 halone]
      rfl
    · simp only [copyInstr, BitVec.reduceToNat, field_bind, space_ofCode, pure, Except.pure]
      exact ⟨_, rfl, _, rfl, rfl⟩
    · rw [CopyF.alone, hm] at halone
      cases halone
  case mma h f | mmas h f | mmab h f | mmts h f | sca h f | nrm h f | aclr h f | acvt h f | ald h f | ast h f | setx h f =>
    exact .inr (.inl ⟨_, h, f, rfl, rfl, row.2.1⟩)
  case vshuf h x p =>
    refine .inr (.inr ⟨_, h, x, _, ⟨?_, rfl, rfl, rfl, fun s hwide hs => ?_⟩, row.2.1⟩)
    · decide
    · obtain ⟨hfit, hq, htwo⟩ := row
      simp only [VecF.two, Bool.and_eq_true, beq_iff_eq] at htwo
      simp only [vectorSlot_eq_iff, eq_extract_comm] at hs
      simp only [decodeVector, field_bind, shuf_ofCode, fmt_ofCode, hs, pure, Except.pure, BitVec.reduceToNat,
        BitVec.ofNat_eq_ofNat, ← hwide, ← htwo]
      exact ⟨_, rfl, _, rfl, rfl⟩
  case vadd h x | vsub h x | vmul h x | vfma h x | vfms h x | vmin h x | vmax h x | vclmp h x | vabs h x | vneg h x | vcmp h x
      | vsel h x | vand h x | vor h x | vxor h x | vnot h x | vshl h x | vshr h x | vsra h x | vcvt h x | vdqn h x | vqnt h x
      | vexp2 h x | vlog2 h x | vrcp h x | vrsq h x | vsum h x | vrmx h x | vperm h x | vsld h x | vbcst h x | vmov h x
      | vgth h x | vsct h x | vmsk h x | vcnt h x | vidx h x | vchk h x | vscl h x | rngb h x =>
    refine .inr (.inr ⟨_, h, x, _, ⟨?_, rfl, rfl, rfl, fun s hwide hs => ?_⟩, row.2.1⟩)
    · decide
    · simp only [vectorSlot_eq_iff, eq_extract_comm] at hs
      simp only [decodeVector, field_bind, rnd_ofCode, fmt_ofCode, hs, pure, Except.pure, BitVec.reduceToNat,
        BitVec.ofNat_eq_ofNat, ← hwide]
      exact ⟨_, rfl, _, rfl, rfl⟩
  all_goals cases he

/-! ## The four kinds of slots (R118, R119, R126, R131) -/

section
variable {q : Sq} {idx : Nat} {s : BitVec 96} {s1 s2 : Option (BitVec 96)} {i : Instr}

theorem decodeSlot_seq (ho : (s.extractLsb' 88 8).toNat = 0x01) : decodeSlot q idx s s1 s2 = .ok i ↔
    s.extractLsb' 84 4 = 0 ∧ s.extractLsb' 32 36 = 0 ∧
      decodeControl true (s.extractLsb' 76 8) (s.extractLsb' 68 8) (s.extractLsb' 0 32) 0 = .ok i := by
  have body := need_bind (s.extractLsb' 84 4 == 0 && s.extractLsb' 32 36 == 0) .reserved
    (fun _ => decodeControl true (s.extractLsb' 76 8) (s.extractLsb' 68 8) (s.extractLsb' 0 32) 0) i
  simp only [Bool.and_eq_true, beq_iff_eq, and_assoc] at body
  rw [← body]
  simp only [decodeSlot, ho, if_true]
  split <;> simp_all

theorem decodeSlot_vector (ho : 0x40 ≤ (s.extractLsb' 88 8).toNat ∧ (s.extractLsb' 88 8).toNat ≤ 0x68) :
    decodeSlot q idx s s1 s2 = .ok i ↔ decodeVector s = .ok i := by
  have h1 : ¬ (s.extractLsb' 88 8).toNat = 0x01 := by omega
  have h2 : ¬ (0x10 ≤ (s.extractLsb' 88 8).toNat ∧ (s.extractLsb' 88 8).toNat ≤ 0x1B) := by omega
  simp only [decodeSlot, if_neg h1, if_neg h2, if_pos ho]
  split <;> simp_all

theorem decodeSlot_matrix (ho : 0x80 ≤ (s.extractLsb' 88 8).toNat ∧ (s.extractLsb' 88 8).toNat ≤ 0x8A) :
    decodeSlot q idx s s1 s2 = .ok i ↔ ∃ up m, s1 = some up ∧ decodeMatrix s up = .ok m ∧
      m.op.instr { wide := true, pneg := false, pred := 0, wait := m.wait, sig := m.sig } m.f = i := by
  have h1 : ¬ (s.extractLsb' 88 8).toNat = 0x01 := by omega
  have h2 : ¬ (0x10 ≤ (s.extractLsb' 88 8).toNat ∧ (s.extractLsb' 88 8).toNat ≤ 0x1B) := by omega
  have h3 : ¬ (0x40 ≤ (s.extractLsb' 88 8).toNat ∧ (s.extractLsb' 88 8).toNat ≤ 0x68) := by omega
  simp only [decodeSlot, if_neg h1, if_neg h2, if_neg h3, if_pos ho]
  cases s1 with
  | none => simp
  | some up =>
    cases hm : decodeMatrix s up with
    | error y => simp [hm, bind, Except.bind]
    | ok m => simp [hm, bind, Except.bind, pure, Except.pure]

theorem decodeSlot_copy (ho : 0x10 ≤ (s.extractLsb' 88 8).toNat ∧ (s.extractLsb' 88 8).toNat ≤ 0x1B)
    (hs : s.getLsbD 0 = false) : decodeSlot q idx s s1 s2 = .ok i ↔ copyWord s none = .ok i := by
  have h1 : ¬ (s.extractLsb' 88 8).toNat = 0x01 := by omega
  simp only [decodeSlot, if_neg h1, if_pos ho, hs, Bool.false_eq_true, if_false]
  cases hc : copyWord s none
  all_goals
    rw [copyWord] at hc
    simp only [hc, reduceCtorEq, Except.ok.injEq]

theorem decodeSlot_of_chained {own : Instr} {lo up : BitVec 96} {m : Chained}
    (ho : 0x10 ≤ (s.extractLsb' 88 8).toNat ∧ (s.extractLsb' 88 8).toNat ≤ 0x1B) (hs : s.getLsbD 0 = true)
    (hown : copyWord s none = .ok own) (hch : own.chainable = true) (hwf : own.wf .load idx = true)
    (hm : decodeMatrix lo up = .ok m) (hmc : m.op.chains = true) (hmx : m.op.wf m.f = true)
    (hi : copyWord s (some m) = .ok i) : decodeSlot .load idx s (some lo) (some up) = .ok i := by
  have h1 : ¬ (s.extractLsb' 88 8).toNat = 0x01 := by omega
  rw [copyWord] at hown hi
  simp only [decodeSlot, if_neg h1, if_pos ho, hs, if_true, hown, hch, hwf, hm, hmc, hmx, hi, beq_self_eq_true, Bool.and_self]

theorem chained_of_decodeSlot (ho : 0x10 ≤ (s.extractLsb' 88 8).toNat ∧ (s.extractLsb' 88 8).toNat ≤ 0x1B)
    (hs : s.getLsbD 0 = true) (h : decodeSlot q idx s s1 s2 = .ok i) :
    ∃ lo up m, s1 = some lo ∧ s2 = some up ∧ decodeMatrix lo up = .ok m ∧ copyWord s (some m) = .ok i := by
  have h1 : ¬ (s.extractLsb' 88 8).toNat = 0x01 := by omega
  simp only [decodeSlot, if_neg h1, if_pos ho, hs, if_true] at h
  split at h
  · cases h
  split at h
  · split at h
    · split at h
      next lo up _ m hm =>
        split at h
        · split at h
          next hi =>
            cases h
            exact ⟨lo, up, m, rfl, rfl, hm, hi⟩
          · cases h
        · cases h
      · cases h
    · cases h
  · cases h

end

end Sys2Proof.Formats
end

section
/-!
The round trip of the words of the streams (R132): each of the four kinds of slots is written as it is read.
-/
namespace Sys2Proof.Formats
open Sys2Proof

/-! ## What is written reads -/

/-- The slot `s` and the two that follow it begin with the slots `ss`. -/
def BeginWith (ss : List (BitVec 96)) (s : BitVec 96) (s1 s2 : Option (BitVec 96)) : Prop :=
  ss[0]? = some s ∧ (∀ x, ss[1]? = some x → s1 = some x) ∧ ∀ x, ss[2]? = some x → s2 = some x

section
variable {q : Sq} {idx : Nat} {s : BitVec 96} {s1 s2 : Option (BitVec 96)} {i : Instr} {h : Hd}

theorem seq_reads {w : Word} (hi : Written h w none i) (hj : ∀ d, i = .jmp h d → h.plain = true) (hwide : h.wide = true)
    (hs : seqSlot h w = s) : decodeSlot q idx s s1 s2 = .ok i := by
  obtain ⟨hop, hz, hwait, hsig, hz', hw⟩ := seqSlot_eq_iff.1 hs
  rw [decodeSlot_seq (by rw [hop]; rfl), hwait, hsig, hw, ← hwide]
  exact ⟨hz, hz', decodeControl_of_written hi nofun hj⟩

theorem slotHead_eq (hwide : h.wide = true) (hplain : h.plain = true) (hwait : s.extractLsb' 76 8 = h.wait)
    (hsig : s.extractLsb' 68 8 = h.sig) : slotHead s = h := by
  obtain ⟨wide, pneg, pred, wait, sig⟩ := h
  simp only [Hd.plain, Bool.and_eq_true, Bool.not_eq_true', beq_iff_eq] at hplain
  simp_all [slotHead]

theorem copyFields_withChain {c : CopyF} {ch : Option Chained} (hc : copyFields s ch = .ok c) (ch' : Option Chained) :
    copyFields s ch' = .ok { c with chain := ch' } := by
  simp only [copyFields, field_bind, pure, Except.pure, Except.ok.injEq] at hc ⊢
  obtain ⟨scope, hscope, rfl⟩ := hc
  exact ⟨scope, hscope, rfl⟩

theorem copy_reads (hv : CopyView q idx i) (hs : BeginWith (encodeSlots i) s s1 s2) : decodeSlot q idx s s1 s2 = .ok i := by
  obtain ⟨op, h, c, ts, fs, ⟨hop, -, he, -, hsame, hread⟩, hq, hch⟩ := hv
  simp only [Hd.copy, Bool.and_eq_true] at hq
  obtain ⟨⟨-, hwide⟩, hplain⟩ := hq
  rw [he] at hs
  obtain ⟨h0, h1, h2⟩ := hs
  obtain ⟨ho, hts, hfs, hwait, hsig, hbit, hfields⟩ := copySlot_eq_iff.1 (Option.some.inj h0)
  have reads : ∀ ch, copyWord s ch = .ok (withChain ch i) := fun ch => by
    rw [copyWord, copyFields_withChain hfields ch, ok_bind, ho, hts, hfs, slotHead_eq hwide hplain hwait hsig, hread]
  rw [← ho] at hop
  cases hc : c.chain with
  | none =>
    rw [hc] at hbit hsame
    rw [decodeSlot_copy hop hbit, reads none, hsame]
  | some m =>
    obtain ⟨rfl, hcc, hwf, hmc, hmx⟩ := hch m hc
    rw [copySlots, hc] at h1 h2
    rw [hc] at hbit hsame
    rw [h1 _ rfl, h2 _ rfl]
    exact decodeSlot_of_chained hop hbit (reads none) hcc hwf (matrixSlots_eq_iff.1 rfl) hmc hmx ((reads _).trans (by rw [hsame]))

theorem matrixCode_range (op : MxOp) : 0x80 ≤ op.code.toNat ∧ op.code.toNat ≤ 0x8A := by
  cases op <;> decide

theorem matrixSlots_opcode {op : MxOp} {wait sig : BitVec 8} {f : MxF} (h : (matrixSlots op wait sig f).1 = s) :
    s.extractLsb' 88 8 = op.code := by
  simp (disch := decide) only [matrixSlots, append_eq_iff, extract_extract, eq_extract_comm, Nat.reduceAdd, and_assoc] at h
  exact h.1

theorem matrix_reads {op : MxOp} {f : MxF} (hq : h.matrix q = true) (he : encodeSlots i = matrixUnits op h f)
    (hi : op.instr h f = i) (hs : BeginWith (encodeSlots i) s s1 s2) : decodeSlot q idx s s1 s2 = .ok i := by
  rw [he] at hs
  obtain ⟨h0, h1, -⟩ := hs
  have hm : decodeMatrix s (matrixSlots op h.wait h.sig f).2 = .ok ⟨op, h.wait, h.sig, f⟩ :=
    matrixSlots_eq_iff.1 (Prod.ext (Option.some.inj h0) rfl)
  have ho : s.extractLsb' 88 8 = op.code := matrixSlots_opcode (Option.some.inj h0)
  simp only [Hd.matrix, Hd.plain, Bool.and_eq_true, Bool.not_eq_true', beq_iff_eq] at hq
  obtain ⟨⟨-, hwide⟩, hneg, hpred⟩ := hq
  refine (decodeSlot_matrix (ho ▸ matrixCode_range op)).2 ⟨_, _, h1 _ rfl, hm, ?_⟩
  rw [← hi, ← hwide, ← hneg, ← hpred]

theorem vector_reads {op : BitVec 8} {x : VecF} {r : BitVec 3} (hq : h.vector q = true) (hv : IsVector i op h x r)
    (hs : BeginWith (encodeSlots i) s s1 s2) : decodeSlot q idx s s1 s2 = .ok i := by
  obtain ⟨hop, -, he, -, hread⟩ := hv
  rw [he] at hs
  have h0 : vectorSlot op h x r = s := Option.some.inj hs.1
  have ho := (vectorSlot_eq_iff.1 h0).1
  rw [decodeSlot_vector (ho ▸ hop)]
  exact hread s ((Bool.and_eq_true _ _).mp hq).2 h0

end

/-- A word of a stream alone is as long as its slots. -/
theorem length_encodeSlots {q : Sq} {idx : Nat} {i : Instr} (hw : i.wf q idx = true) (he : encodeControl i = none) :
    (encodeSlots i).length = i.len := by
  obtain ⟨op, h, c, ts, fs, ⟨-, -, hslots, hlen, -⟩, -⟩ | ⟨op, h, f, hslots, rfl, -⟩ |
      ⟨op, h, x, r, ⟨-, -, hslots, hlen, -⟩, -⟩ := stream_of_wf hw he
  · rw [hslots, hlen, copySlots]
    cases c.chain <;> rfl
  · rw [hslots]
    cases op <;> rfl
  · rw [hslots, hlen]
    rfl

/-- The slots of a word that a stream accepts hold its bytes, and read as itself. -/
theorem slots_of_wf {q : Sq} {idx : Nat} {i : Instr} (hq : q ≠ .ctl) (hw : i.wf q idx = true) :
    ∃ ss, encode q i = unitBytes 12 ss ∧ ss.length = i.len ∧
      ∀ s s1 s2, BeginWith ss s s1 s2 → decodeSlot q idx s s1 s2 = .ok i := by
  obtain ⟨h, hh, hfit, ⟨w, v, he, hslot⟩ | ⟨-, he⟩⟩ := view_of_wf hw
  · obtain ⟨rfl, henc⟩ := hslot hq
    rw [headFits, if_neg hq] at hfit
    refine ⟨[seqSlot h w], by simp [henc, unitBytes, slotBytes], (len_of_encodeControl he).symm, fun s s1 s2 hs => ?_⟩
    refine seq_reads ⟨he, hh⟩ ?_ hfit (Option.some.inj hs.1)
    rintro d rfl
    exact plain_of_wf_jmp hw
  · refine ⟨encodeSlots i, by rw [encode, he]; rfl, length_encodeSlots hw he, fun s s1 s2 hs => ?_⟩
    obtain hv | ⟨op, h, f, hslots, hi, hm⟩ | ⟨op, h, x, r, hv, hq⟩ := stream_of_wf hw he
    · exact copy_reads hv hs
    · exact matrix_reads hm hslots hi hs
    · exact vector_reads hq hv hs

/-! ## What reads is written -/

section
variable {q : Sq} {idx : Nat} {s : BitVec 96} {s1 s2 : Option (BitVec 96)} {i : Instr}

/-- How the word that a slot and those that follow it read as is written. -/
def Slots (q : Sq) (i : Instr) (s : BitVec 96) (s1 s2 : Option (BitVec 96)) : Prop :=
  ∃ ss, encode q i = unitBytes 12 ss ∧ BeginWith ss s s1 s2

theorem slots_of_encodeSlots (he : encodeControl i = none) (hs : BeginWith (encodeSlots i) s s1 s2) : Slots q i s s1 s2 :=
  ⟨_, by rw [encode, he]; rfl, hs⟩

theorem copyWord_written {ch : Option Chained} (hbit : s.getLsbD 0 = ch.isSome) (hi : copyWord s ch = .ok i) :
    ∃ op h c ts fs, encodeControl i = none ∧ encodeSlots i = copySlots op h c ts fs ∧ copySlot op h c ts fs = s ∧
      c.chain = ch := by
  unfold copyWord at hi
  cases hf : copyFields s ch with
  | error y => rw [hf] at hi; cases hi
  | ok c =>
    rw [hf, ok_bind] at hi
    obtain ⟨he, hs⟩ := copyInstr_written _ _ _ _ _ _ hi
    have plain : { c with tsp := .global, fsp := .global } = c ∧ c.chain = ch := by
      simp only [copyFields, field_bind, pure, Except.pure, Except.ok.injEq] at hf
      obtain ⟨scope, -, rfl⟩ := hf
      exact ⟨rfl, rfl⟩
    obtain ⟨hplain, rfl⟩ := plain
    refine ⟨_, _, _, _, _, he, hs, copySlot_eq_iff.2 ⟨eq_of_toNat rfl, rfl, rfl, rfl, rfl, hbit, ?_⟩, rfl⟩
    rw [hplain, hf]

theorem slots_of_copy (ho : 0x10 ≤ (s.extractLsb' 88 8).toNat ∧ (s.extractLsb' 88 8).toNat ≤ 0x1B)
    (hi : decodeSlot q idx s s1 s2 = .ok i) : Slots q i s s1 s2 := by
  cases hbit : s.getLsbD 0 with
  | false =>
    rw [decodeSlot_copy ho hbit] at hi
    obtain ⟨op, h, c, ts, fs, he, hs, rfl, hc⟩ := copyWord_written hbit hi
    rw [copySlots, hc] at hs
    exact slots_of_encodeSlots he (hs ▸ ⟨rfl, nofun, nofun⟩)
  | true =>
    obtain ⟨lo, up, m, rfl, rfl, hm, hi⟩ := chained_of_decodeSlot ho hbit hi
    obtain ⟨op, h, c, ts, fs, he, hs, rfl, hc⟩ := copyWord_written hbit hi
    rw [copySlots, hc] at hs
    dsimp only at hs
    rw [matrixSlots_eq_iff.2 hm] at hs
    exact slots_of_encodeSlots he (hs ▸ ⟨rfl, fun _ h => h, fun _ h => h⟩)

theorem encodeSlots_instr (op : MxOp) (h : Hd) (f : MxF) :
    encodeControl (op.instr h f) = none ∧ encodeSlots (op.instr h f) = matrixUnits op h f := by
  cases op <;> exact ⟨rfl, rfl⟩

theorem slots_of_matrix (ho : 0x80 ≤ (s.extractLsb' 88 8).toNat ∧ (s.extractLsb' 88 8).toNat ≤ 0x8A)
    (hi : decodeSlot q idx s s1 s2 = .ok i) : Slots q i s s1 s2 := by
  obtain ⟨up, m, rfl, hm, rfl⟩ := (decodeSlot_matrix ho).1 hi
  obtain ⟨he, hs⟩ := encodeSlots_instr m.op { wide := true, pneg := false, pred := 0, wait := m.wait, sig := m.sig } m.f
  rw [matrixUnits, matrixSlots_eq_iff.2 hm] at hs
  exact slots_of_encodeSlots he (hs ▸ ⟨rfl, fun _ h => h, nofun⟩)

theorem slots_of_vector (ho : 0x40 ≤ (s.extractLsb' 88 8).toNat ∧ (s.extractLsb' 88 8).toNat ≤ 0x68)
    (hi : decodeSlot q idx s s1 s2 = .ok i) : Slots q i s s1 s2 := by
  obtain ⟨he, hs⟩ := decodeVector_written s _ ((decodeSlot_vector ho).1 hi)
  exact slots_of_encodeSlots he (hs ▸ ⟨rfl, nofun, nofun⟩)

theorem slots_of_seq (hq : q ≠ .ctl) (hw : i.wf q idx = true) (ho : (s.extractLsb' 88 8).toNat = 0x01)
    (hi : decodeSlot q idx s s1 s2 = .ok i) : Slots q i s s1 s2 := by
  obtain ⟨hz, hz', hd⟩ := (decodeSlot_seq ho).1 hi
  obtain ⟨h, v, -, hwait, hsig, ⟨he, hh⟩, -⟩ := decodeControl_writtenIn _ hd
  obtain ⟨h', hh', -, ⟨w, v', he', hslot⟩ | ⟨-, hn⟩⟩ := view_of_wf hw
  · obtain ⟨rfl, henc⟩ := hslot hq
    cases he.symm.trans he'
    cases hh.symm.trans hh'
    have hs : seqSlot h (s.extractLsb' 0 32) = s := seqSlot_eq_iff.2 ⟨eq_of_toNat ho, hz, hwait.symm, hsig.symm, hz', rfl⟩
    exact ⟨[s], by rw [henc, hs, unitBytes, List.flatMap_singleton]; rfl, rfl, nofun, nofun⟩
  · rw [hn] at he
    cases he

theorem slots_of_decodeSlot (hq : q ≠ .ctl) (hw : i.wf q idx = true) (hi : decodeSlot q idx s s1 s2 = .ok i) :
    Slots q i s s1 s2 := by
  by_cases h1 : (s.extractLsb' 88 8).toNat = 0x01
  · exact slots_of_seq hq hw h1 hi
  by_cases h2 : 0x10 ≤ (s.extractLsb' 88 8).toNat ∧ (s.extractLsb' 88 8).toNat ≤ 0x1B
  · exact slots_of_copy h2 hi
  by_cases h3 : 0x40 ≤ (s.extractLsb' 88 8).toNat ∧ (s.extractLsb' 88 8).toNat ≤ 0x68
  · exact slots_of_vector h3 hi
  by_cases h4 : 0x80 ≤ (s.extractLsb' 88 8).toNat ∧ (s.extractLsb' 88 8).toNat ≤ 0x8A
  · exact slots_of_matrix h4 hi
  · simp only [decodeSlot, if_neg h1, if_neg h2, if_neg h3, if_neg h4, reduceCtorEq] at hi

end

/-! ## Round trip of the words of the streams -/

theorem len_bounds (i : Instr) : 1 ≤ i.len ∧ i.len ≤ 3 := by
  unfold Instr.len
  split
  case h_23 | h_24 | h_25 => split <;> decide
  all_goals decide

theorem decode_of_decodeSlot {q : Sq} (hq : q ≠ .ctl) {idx : Nat} {bs : List Byte} {s : BitVec 96} {i : Instr}
    (first : unitAt 12 96 0 bs = some s) (hi : decodeSlot q idx s (unitAt 12 96 1 bs) (unitAt 12 96 2 bs) = .ok i)
    (hw : i.wf q idx = true) : decode q idx bs = .ok (i, i.len) := by
  cases q
  · exact absurd rfl hq
  all_goals simp only [decode, first, hi, checkWf, hw, if_true]

theorem decodeSlot_of_decode {q : Sq} (hq : q ≠ .ctl) {idx n : Nat} {bs : List Byte} {i : Instr}
    (h : decode q idx bs = .ok (i, n)) : ∃ s, unitAt 12 96 0 bs = some s ∧
      decodeSlot q idx s (unitAt 12 96 1 bs) (unitAt 12 96 2 bs) = .ok i ∧ n = i.len := by
  cases q
  · exact absurd rfl hq
  all_goals
    simp only [decode] at h
    split at h
    · cases h
    next s first =>
    split at h
    · cases h
    next j reads =>
    obtain ⟨rfl, rfl⟩ := eq_of_checkWf h
    exact ⟨s, first, reads, rfl⟩

theorem decode_encode_stream {q : Sq} {idx : Nat} {i : Instr} (rest : List Byte) (hq : q ≠ .ctl) (hw : i.wf q idx = true) :
    (encode q i).length = 12 * i.len ∧ decode q idx (encode q i ++ rest) = .ok (i, i.len) := by
  obtain ⟨ss, henc, hlen, hread⟩ := slots_of_wf hq hw
  refine ⟨by rw [henc, length_unitBytes, hlen], ?_⟩
  have unit : ∀ j x, ss[j]? = some x → unitAt 12 96 j (encode q i ++ rest) = some x := fun j x hx => by
    obtain ⟨hj, rfl⟩ := List.getElem?_eq_some_iff.1 hx
    rw [henc]
    exact unitAt_unitBytes (u := 12) rfl ss rest hj
  have pos : 0 < ss.length := hlen ▸ (len_bounds i).1
  have first : ss[0]? = some ss[0] := List.getElem?_eq_getElem pos
  exact decode_of_decodeSlot hq (unit 0 _ first) (hread _ _ _ ⟨first, unit 1, unit 2⟩) hw

theorem encode_of_decode_stream {q : Sq} {idx n : Nat} {bs : List Byte} {i : Instr} (hq : q ≠ .ctl)
    (h : decode q idx bs = .ok (i, n)) : n = i.len ∧ i.wf q idx = true ∧ encode q i = bs.take (12 * n) := by
  have hw := CoreTurns.decode_wf h
  obtain ⟨s, first, hi, rfl⟩ := decodeSlot_of_decode hq h
  obtain ⟨ss, henc, h0, h1, h2⟩ := slots_of_decodeSlot hq hw hi
  have hlen : ss.length = i.len := by
    have := (decode_encode_stream [] hq hw).1
    rw [henc, length_unitBytes] at this
    omega
  refine ⟨rfl, hw, ?_⟩
  rw [henc, ← hlen]
  refine unitBytes_of_unitAt (u := 12) rfl ss bs fun j hj => ?_
  have hx : ss[j]? = some ss[j] := List.getElem?_eq_getElem hj
  have hj3 : j < 3 := by have := (len_bounds i).2; omega
  match j, hj3 with
  | 0, _ => rw [first, ← h0, hx]
  | 1, _ => exact h1 _ hx
  | 2, _ => exact h2 _ hx

/-- Settles O54: the decoder of slots answers an instruction exactly where its slots stand (`slots_of_wf`,
`slots_of_decodeSlot`); the bytes hold the slots. -/
theorem streamWordsRoundTrip : Obligations.StreamWordsRoundTrip :=
  ⟨fun _ _ _ rest hq hw => decode_encode_stream rest hq hw, fun _ _ _ _ _ hq h => encode_of_decode_stream hq h⟩

end Sys2Proof.Formats
end


section
/-! TRAP, illegal encodings and ERET (O26): the trap a suspension takes, and the context that a handler's end resumes. -/
namespace Sys2Proof.TrapReturn
open Sys2Proof Sys2Proof.Machine Sys2Proof.Claims Sys2Proof.CoreWords

/-! ## TRAP and illegal encodings -/

/-- The low byte of CAUSE is the code (R265). -/
theorem causeWord_code (impr : Bool) (q : Sq) (code : Nat) :
    (causeWord impr q code).extractLsb' 0 8 = BitVec.ofNat 8 code := by
  unfold causeWord
  ext i hi
  rw [BitVec.getElem_extractLsb', Nat.zero_add, BitVec.getLsbD_append, if_pos hi, BitVec.getLsbD_eq_getElem hi]

/-- A precise trap that loses no word leaves its context trapped, with its cause and value (R200, R265). -/
theorem suspend_ctx (s : State) (c : Ctx) (q : Sq) {t : TrapRec} (hl : t.lost = []) :
    (s.suspend c q false none t).ctx c.cid = some (CoreReds.trappedAs (CoreReds.frozen c) q t) := by
  rw [CoreReds.suspend_eq, hl, ← CoreReds.frozen_cid c]
  exact SMap.find_set_self ..

section
variable {s : State} {c : Ctx} {h : Hd}

/-- TRAP retires, and its trap is taken after it (R453). -/
theorem trap_suspends (hr : Runs s c h) (he : EscapeFree s c) (code : BitVec 12) :
    exec (.trap h code) s = .next (s.suspend ((c.begun s.focus.2 h).retire s.focus.2 1 .none h.sig) s.focus.2 false none
      (mkTrap 0x30 (code.zeroExtend 32))) := by
  rw [exec_trap, execTrap, runWord_runs hr.1 (.inl hr.2), escape_free _ he]
  rfl

/-- TRAP is an escape (R217). -/
theorem trap_waits (hr : Runs s c h) (hq : s.focus.2 = .ctl) (he : s.escapeOk c = false) (code : BitVec 12) :
    exec (.trap h code) s = .next (s.keep { c with want := true }).stalled :=
  wants_of_stall (exec_trap ..) (enters_of_runs (always := false) hr) (escape_waits _ hq he _ h)

theorem illegalEncoding_traps (hc : s.activeCtx s.focus.1 = some c) (tval : Word) :
    Traps (.illegalEncoding tval) s c (mkTrap 0x01 tval) := by
  unfold Traps
  rw [exec_illegalEncoding, execIllegalEncoding, hc]

/-- With no exposed leg the trap of an illegal encoding is taken at once. -/
theorem illegalEncoding_suspends (hc : s.activeCtx s.focus.1 = some c) (he : s.escapeOk c = true) (tval : Word) :
    ∃ t d, exec (.illegalEncoding tval) s = .next t ∧ t.ctx c.cid = some d ∧ d.stat = .trapped ∧
      d.cause.extractLsb' 0 8 = 1 ∧ d.tval = tval := by
  refine ⟨s.suspend c s.focus.2 false none (mkTrap 0x01 tval), _, ?_, suspend_ctx s c s.focus.2 rfl, rfl,
    causeWord_code false s.focus.2 1, rfl⟩
  rw [illegalEncoding_traps hc tval, State.trapHere, if_pos he]

end

theorem trapAndIllegal : Claims.trapAndIllegal := fun _ _ _ code tval =>
  ⟨fun hr he => trap_suspends hr he code, fun hr hq he => trap_waits hr hq he code,
    fun hc => illegalEncoding_traps hc tval, fun hc he => illegalEncoding_suspends hc he tval⟩

/-! ## The context that runs again -/

/-- A sequencer whose resume point is not its EPC: that of a command or pending step that trapped where it stood, or each
of them after the fault of a plane fill (R333, R83). -/
def standsStill (c : Ctx) (q : Sq) : Bool :=
  match c.trap with
  | some x => x.place || (x.held && q == x.sq)
  | none => false

/-- A sequencer as its context runs again: latches lost, at its EPC or where it stood. -/
def resumedSeqr (c : Ctx) (q : Sq) : Seqr :=
  { c.seqr q with latches := [], pc := if standsStill c q then (c.seqr q).pc else (c.seqr q).epc.toNat }

theorem resumed_eq (c : Ctx) : c.resumed =
    { c with ctl := resumedSeqr c .ctl, load := resumedSeqr c .load, store := resumedSeqr c .store, comp := resumedSeqr c .comp
             again := if c.pendTrap then c.redoPend else c.again, stat := if c.inv.isSome then .inverse else .running
             trap := none } := by
  unfold Ctx.resumed resumedSeqr standsStill
  cases c.trap with
  | none => rfl
  | some x =>
    obtain ⟨cause, tval, vaddr, acc, lvl, tlost, dc, loss, flags, lost, sq, held, place⟩ := x
    cases place with
    | true => rfl
    | false =>
      cases held with
      | false => rfl
      | true => cases sq <;> simp [Ctx.loseLatches, Ctx.setSeqr, Ctx.seqr, Seqr.atEpc]

/-- Leaving the watch test out once changes nothing but that mark, of a sequencer or of a copy channel (R322). -/
theorem skipWatch_cases (c : Ctx) :
    (∃ (q : Sq) (f : Seqr → Once), c.skipWatch = c.onSeqr q (fun x => { x with once := f x })) ∨
    ∃ a b, c.skipWatch = { c with inb := a, outb := b } := by
  unfold Ctx.skipWatch
  split
  · split
    · dsimp only
      split
      · exact .inl ⟨.ctl, _, rfl⟩
      · split
        · exact .inr ⟨_, c.outb, rfl⟩
        · exact .inl ⟨.load, _, rfl⟩
      · split
        · exact .inr ⟨c.inb, _, rfl⟩
        · exact .inl ⟨.store, _, rfl⟩
      · exact .inr ⟨c.inb, c.outb, rfl⟩
    · exact .inr ⟨c.inb, c.outb, rfl⟩
  · exact .inr ⟨c.inb, c.outb, rfl⟩

@[simp] theorem skipWatch_cid (c : Ctx) : c.skipWatch.cid = c.cid := by
  rcases skipWatch_cases c with ⟨q, f, e⟩ | ⟨a, b, e⟩ <;> simp [e]
@[simp] theorem skipWatch_image (c : Ctx) : c.skipWatch.image = c.image := by
  rcases skipWatch_cases c with ⟨q, f, e⟩ | ⟨a, b, e⟩ <;> simp [e]
@[simp] theorem skipWatch_trap (c : Ctx) : c.skipWatch.trap = c.trap := by
  rcases skipWatch_cases c with ⟨q, f, e⟩ | ⟨a, b, e⟩ <;> simp [e]
@[simp] theorem skipWatch_inv (c : Ctx) : c.skipWatch.inv = c.inv := by
  rcases skipWatch_cases c with ⟨q, f, e⟩ | ⟨a, b, e⟩ <;> simp [e]
@[simp] theorem skipWatch_v (c : Ctx) : c.skipWatch.v = c.v := by
  rcases skipWatch_cases c with ⟨q, f, e⟩ | ⟨a, b, e⟩ <;> simp [e]
@[simp] theorem skipWatch_flight (c : Ctx) : c.skipWatch.flight = c.flight := by
  rcases skipWatch_cases c with ⟨q, f, e⟩ | ⟨a, b, e⟩ <;> simp [e]

theorem standsStill_skipWatch (c : Ctx) (q : Sq) : standsStill c.skipWatch q = standsStill c q := by
  unfold standsStill
  rw [skipWatch_trap]

/-- What a sequencer resumes with is kept too. -/
theorem skipWatch_seqr (c : Ctx) (r : Sq) : (c.skipWatch.seqr r).regs = (c.seqr r).regs ∧
    (c.skipWatch.seqr r).pc = (c.seqr r).pc ∧ (c.skipWatch.seqr r).epc = (c.seqr r).epc := by
  rcases skipWatch_cases c with ⟨q, f, e⟩ | ⟨a, b, e⟩
  · rw [e]
    by_cases hr : r = q
    · rw [hr, Ctx.onSeqr_self]
      exact ⟨rfl, rfl, rfl⟩
    · rw [Ctx.onSeqr_other c _ hr]
      exact ⟨rfl, rfl, rfl⟩
  · rw [e]
    cases r <;> exact ⟨rfl, rfl, rfl⟩

/-- The context that a handler's end resumes, with the handler's local memory and semaphores (R272, R382; log 58). -/
def returned (c d : Ctx) : Ctx := { d.skipWatch.resumed with sp := c.sp, can := c.can, sems := c.sems }

theorem returned_cid (c d : Ctx) : (returned c d).cid = d.cid := by
  simp [returned, resumed_eq]

theorem returned_image (c d : Ctx) : (returned c d).image = d.image := by
  simp [returned, resumed_eq]

theorem returned_seqr (c d : Ctx) (q : Sq) : (returned c d).seqr q = resumedSeqr d.skipWatch q := by
  rw [returned, resumed_eq]
  cases q <;> rfl

theorem returned_latches (c d : Ctx) (q : Sq) : ((returned c d).seqr q).latches = [] := by
  rw [returned_seqr]
  rfl

theorem returned_regs (c d : Ctx) (q : Sq) : ((returned c d).seqr q).regs = (d.seqr q).regs := by
  rw [returned_seqr]
  exact (skipWatch_seqr d q).1

/-- Where a sequencer resumes. -/
theorem returned_pc (c d : Ctx) (q : Sq) :
    ((returned c d).seqr q).pc = if standsStill d q then (d.seqr q).pc else (d.seqr q).epc.toNat := by
  obtain ⟨-, hpc, hepc⟩ := skipWatch_seqr d q
  simp only [returned_seqr, resumedSeqr, standsStill_skipWatch, hpc, hepc]

/-- The resumed context is the trapped one, running again with the handler's local memory and semaphores. -/
theorem returned_keeps (c d : Ctx) : (returned c d).stat = (if d.inv.isSome then .inverse else .running) ∧
    (returned c d).trap = none ∧ (returned c d).sp = c.sp ∧ (returned c d).can = c.can ∧ (returned c d).sems = c.sems ∧
    (returned c d).v = d.v ∧ (returned c d).flight = d.flight := by
  simp [returned, resumed_eq]

/-! ## The end of a handler -/

section
variable (s : State) {c d : Ctx}

theorem leaveHandler_gone (h : c.cid ≠ d.cid) : (s.leaveHandler c d).ctx c.cid = none := by
  rw [← returned_cid c d] at h
  exact (SMap.find_set_other _ _ h).trans (SMap.find_del_self _ _)

theorem leaveHandler_back : (s.leaveHandler c d).ctx d.cid = some (returned c d) := by
  rw [← returned_cid c d]
  exact SMap.find_set_self ..

/-- The trapped context becomes the active one where its image is in the active plane (R83). -/
theorem leaveHandler_active : ((s.leaveHandler c d).core c.core).active =
    if ((s.leaveHandler c d).core c.core).plane.map (fun p => p.image) = some d.image then some d.cid else none := by
  rw [← returned_image c d]
  unfold State.leaveHandler State.core returned
  simp
end

section
variable {s : State} {c : Ctx} {h : Hd}

theorem eret_traps_outctx (hr : Runs s c h) (hi : c.inInverse = true) : Traps (.eret h) s c (mkTrap 0x21 0) := by
  refine traps_of_trap (exec_eret ..) (enters_of_runs (always := false) hr) ?_
  rw [Ctx.begun_inInverse, if_pos hi]
  rfl

theorem eret_traps_mode (hr : Runs s c h) (hi : c.inInverse = false) (hh : c.isHandler = false) :
    Traps (.eret h) s c (mkTrap 0x03 0) := by
  refine traps_of_trap (exec_eret ..) (enters_of_runs (always := false) hr) ?_
  unfold Ctx.isHandler at hh
  simp only [Ctx.begun_inInverse, hi, Bool.false_eq_true, if_false, Ctx.begun_kind]
  split
  next k hk => rw [hk] at hh; exact nomatch hh
  · rfl

theorem leaveHandler_last (s : State) (c d : Ctx) : { s.leaveHandler c d with last := .gone } = s.leaveHandler c d := rfl

/-- A handler whose only leg may commit leaves the core with that leg committed, in the state `s1` (R272, R382). -/
theorem eret_leaves {k : Nat} {l : Leg} {s1 : State} {c1 d : Ctx} (hr : Runs s c h) (hq : s.focus.2 = .ctl)
    (hi : c.inInverse = false) (hk : c.kind = .handler k) (hl : (c.begun .ctl h).leg = some l) (he : c.ended = [])
    (hm : s.mayCommit (c.begun .ctl h) l = true)
    (hs : s.commitLeg { c.begun .ctl h with leg := none, ended := [l] } l = s1)
    (hc : s1.ctx c.cid = some c1) (hd : s1.ctx k = some d) : exec (.eret h) s = .next (s1.leaveHandler c1 d) := by
  have hcur : (c.begun .ctl h).curLeg = l := by rw [Ctx.curLeg, hl]; rfl
  have hshut : (c.begun .ctl h).shut = { c.begun .ctl h with leg := none, ended := [l] } := by
    rw [Ctx.shut, begun_ended, he, hl]; rfl
  rw [exec_eret, execEret, runWord_runs hr.1 (.inl hr.2), hq, if_neg (by simp [hi]), Ctx.begun_kind, hk]
  dsimp only
  rw [hcur, hshut, hs, if_pos (by simp [he, hm]), Ctx.begun_cid, hc, hd]
  exact congrArg Host.Outcome.next (leaveHandler_last s1 c1 d)

end

theorem eretResumesTrapped : Claims.eretResumesTrapped := by
  intro s c h hr hq
  refine ⟨eret_traps_outctx hr, eret_traps_mode hr, ?_⟩
  rintro k l c1 d hi hk hl he hm hne rfl hc hcid hd
  obtain ⟨hstat, htrap, hsp, hcan, hsems, hv, hfl⟩ := returned_keeps c1 d
  refine ⟨_, _, eret_leaves hr hq hi hk hl he hm rfl hc hd, rfl, ?_, leaveHandler_active _, leaveHandler_back _, hstat, htrap,
    hsp,
    hcan, hsems, hv, hfl, returned_latches c1 d, returned_regs c1 d, ?_, ?_, ?_⟩
  · rw [← hcid] at hne ⊢
    exact leaveHandler_gone _ hne.symm
  · intro x q hx hp hor
    rw [returned_pc, standsStill, hx]
    rcases hor with hh | hn
    · simp [hp, hh]
    · simp [hp, hn]
  · intro x hx _ hh
    rw [returned_pc, standsStill, hx]
    simp [hh]
  · intro x q hx hp
    rw [returned_pc, standsStill, hx]
    simp [hp]

/-- Settles O26: TRAP and illegal encodings by their traps, ERET by the context that leaving the handler puts back. -/
theorem trapWordsAndEret : Obligations.TrapWordsAndEret := ⟨trapAndIllegal, eretResumesTrapped⟩

end Sys2Proof.TrapReturn
end
